-- ==== Sys2Proof/Word.lean ====
section
/-! DEFINITION. The word types of the machine: 64-bit registers, bytes, 32-bit element words. -/

namespace Sys2Proof

/-- A 64-bit register word (R42). -/
abbrev Word := BitVec 64

/-- One byte of memory (R23). -/
abbrev Byte := BitVec 8

end Sys2Proof
end

