-- ==== Sys2Proof/Config.lean ====
section
/-! DEFINITION. What the spec fixes for a part and what it leaves open. The free values have no body: nothing can
evaluate one or prove which value it has. Each is applied to the State's counter `fresh`, which every step advances,
and to a tag that tells the choices of one step apart. -/

namespace Sys2Proof.Config

/-- A choice between two outcomes that the spec allows and does not settle. -/
opaque freeBool : Nat → Nat → Bool
/-- A byte that the spec leaves open: an endpoint's answer, a poisoned reply. -/
opaque freeByte : Nat → Nat → Byte
/-- A number that the spec leaves open: a signature, a firmware choice. -/
opaque freeNat : Nat → Nat → Nat

/-- Bytes of one pool granule (R28). -/
def granule : Nat := 0x40000
/-- Bytes of one T register (R42). -/
def tBytes : Nat := 0x4000
/-- Sectors the gate holds (R177). -/
def gateSectors : Nat := 64
/-- Largest stream counter (R102). -/
def cntMax : Nat := 63
/-- Engine fault records of a core (R185). -/
def engRecs : Nat := 64
/-- X-slot threads forked and not started (R150). -/
def xQueue : Nat := 4
/-- C-slot threads forked and not started (R150). -/
def cQueue : Nat := 16
/-- Reset value of LINEWAIT (R43). -/
def lineWait : Word := 0x00100000
/-- The slice a record with SLICEQ 0 gets, and the least slice (R194). -/
def sliceDefault : Nat := 1048576
def sliceFloor : Nat := 55296
/-- Prefix-table capacity (R338). -/
def prefixCap : Nat := 1048576
/-- Offset of the firmware-reserved memory in a die's DRAM (R161): its top 4 GiB. -/
def reservedBase : Nat := 0x1F00000000
/-- Bytes of a die's DRAM (R161). -/
def dieBytes : Nat := 0x2000000000

end Sys2Proof.Config
end

