-- ==== Sys2Proof/Syntax.lean ====
section
/-! DEFINITION. The instructions: one constructor of `Instr` per row of the opcode table. The rows are
the slot instructions of a bundle (R205, R208, R211, R214, R215) and the steps of the package around
them (events). A `Bundle` is a header and up to five slot instructions (R199, R200). -/

namespace Sys2Proof

/-- S register number (R21). -/
abbrev SReg := Fin 64
/-- P register number. -/
abbrev PReg := Fin 8
/-- T register number. -/
abbrev TReg := Fin 64
/-- Z register number. -/
abbrev ZReg := Fin 16
/-- G register number. -/
abbrev GReg := Fin 16
/-- Shape-slot number. -/
abbrev HReg := Fin 32

/-- The second source of an S.R form: a register or the 23-bit signed immediate (R204). -/
inductive Src where
  | reg (r : SReg)
  | imm (v : BitVec 23)
  deriving DecidableEq, Repr

/-- Format codes (R49); `bfp i` is BFP-w with w = i + 2. -/
inductive Fmt where
  | fp32 | fp64 | fp16 | bf16 | e4m3 | e5m2 | int8
  | bfp (i : Fin 7)
  deriving DecidableEq, Repr

/-- Rounding field (R60). -/
inductive Rm where
  | rne | rtz | rup | rdn
  deriving DecidableEq, Repr

/-- Overflow policy (R61). -/
inductive Ovf where
  | sat | inf | nan | trap
  deriving DecidableEq, Repr

/-- Scope of an access (R87, R88). -/
inductive Scope where
  | core | clus | pkg | sys
  deriving DecidableEq, Repr

/-- The three ordering fields of an access (R87). -/
structure OrdF where
  stream : Fin 8
  pmask  : BitVec 8
  scope  : Scope
  deriving DecidableEq, Repr

/-- Integer comparison conditions in SUB order (R206). -/
inductive CmpCond where
  | eq | ne | lt | ge | ltu | geu | le | gt | leu | gtu
  deriving DecidableEq, Repr

/-- Floating comparison conditions in code order (R225). -/
inductive FCond where
  | eq | ne | lt | le | gt | ge | un
  deriving DecidableEq, Repr

/-- Scalar float formats (R223). -/
inductive SFmt where
  | f32 | f64
  deriving DecidableEq, Repr

/-- FCVT pairs in code order (R226). -/
inductive FcvtPair where
  | f64f32 | f32f64 | i64f32 | i64f64 | f32i64 | f64i64
  deriving DecidableEq, Repr

/-- Target windows of SPCAST in code order (R230). -/
inductive Win where
  | global | priv | scratch | clus
  deriving DecidableEq, Repr

/-- Ports in code order (R246). -/
inductive Port where
  | a | b | d | k
  deriving DecidableEq, Repr

/-- The second part of LEA (R228): a scaled register or an immediate. -/
inductive LeaSrc where
  | scaled (r : SReg) (k : Fin 4)
  | imm (v : BitVec 23)
  deriving DecidableEq, Repr

/-- LOOP's trip source (R204, R233). -/
inductive TripSrc where
  | cnt (n : BitVec 17)
  | reg (a : SReg)
  | seql
  deriving DecidableEq, Repr

/-- The control registers of R43, by name. -/
inductive Csr where
  | xpc | tcause | tmask | taddr | tinfo | tvec | tlock
  | ls (i : Fin 6)
  | grow | fprog | fstat | pivt | zpol | xflags | seql | partw
  | strmst (i : Fin 3)
  | slice | corid | taskid | troy | capp | dtime
  | linewait | stallc | gptr
  | enumd (i : Fin 8)
  | perm (i : Fin 32)
  deriving DecidableEq, Repr

/-- Access sizes (R207). -/
inductive Sz where
  | b | h | w | d
  deriving DecidableEq, Repr

/-- The address part of a tile access (R252): a scratchpad pair or a memory operand. -/
inductive TileAddr where
  | pair (sb : SReg)
  | mem (sb : SReg) (off : BitVec 20)
  deriving DecidableEq, Repr

/-- Line states that LINE can name (R256). -/
inductive LineSt where
  | empty | full | pois
  deriving DecidableEq, Repr

/-- An X-slot operand (R210); `cons` is the consume modifier CA or CB. -/
inductive XOpd where
  | t (n : TReg)
  | pair (n : SReg) (cons : Bool)
  | z (n : ZReg)
  | hold
  deriving DecidableEq, Repr

/-- The fields of an X-slot instruction other than OP (R209). -/
structure XArgs where
  fa : Fmt
  fb : Fmt
  fd : Fmt
  rnd : Rm
  ovf : Ovf
  oa : XOpd
  ob : XOpd
  od : XOpd
  sh : SReg
  aux : Fin 64
  var : Fin 16
  deriving DecidableEq, Repr

/-- The fields of a C-slot instruction other than OP (R213); `dk` and `sk` true mean a pair. -/
structure CArgs where
  ord : OrdF
  dk : Bool
  sk : Bool
  dr : SReg
  sr : SReg
  hs : HReg
  cr : Fin 16
  off : Fin 512
  deriving DecidableEq, Repr

/-- Reductions of AREDUCE, ROWRED and COLRED in code order (R214, R276). -/
inductive RedOp where
  | sum | max | min
  deriving DecidableEq, Repr

/-- What the boot ROM meets in one start (R372, R373): the (step, unit) pairs whose work fails. The firmware check of step 3
fails by what flash holds (R173). -/
structure BootReport where
  fails : List (Nat × Nat)
  deriving DecidableEq, Repr

/-- Where a loss of power cuts a start off (R373): the unit of the step under way, and what the start meets before. -/
structure PowerCut where
  unit   : Nat
  report : BootReport
  deriving DecidableEq, Repr

/-- A participant of a collective on another package, as that package's flits give it (R269, R370): its package and task,
the reduction (none: BCAST), its format and box, its values after its port K, which of them are poisoned, the fault of its
thread, and its group entry's identifier, switch bit and member list. (DESIGN CHOICE: log 67.) -/
structure FarPart where
  pkg   : Nat
  task  : Nat
  op    : Option RedOp
  fmt   : Fmt
  box   : Vector Nat 5
  vals  : List Nat
  bad   : List Bool
  flt   : Option Nat
  gid   : Nat
  swred : Bool
  list  : List Nat
  deriving DecidableEq, Repr

/-- One constructor per row of the opcode table: the slot instructions, then the package's steps. -/
inductive Instr where
  | nop
  -- S slot, integer (R219 to R221)
  | add (d a : SReg) (b : Src) | sub (d a : SReg) (b : Src) | mul (d a : SReg) (b : Src)
  | mulh (d a : SReg) (b : Src) | mulhu (d a : SReg) (b : Src) | div (d a : SReg) (b : Src)
  | divu (d a : SReg) (b : Src) | rem (d a : SReg) (b : Src) | remu (d a : SReg) (b : Src)
  | and (d a : SReg) (b : Src) | or (d a : SReg) (b : Src) | xor (d a : SReg) (b : Src)
  | andn (d a : SReg) (b : Src) | shl (d a : SReg) (b : Src) | shr (d a : SReg) (b : Src)
  | sha (d a : SReg) (b : Src) | rot (d a : SReg) (b : Src) | min (d a : SReg) (b : Src)
  | minu (d a : SReg) (b : Src) | max (d a : SReg) (b : Src) | maxu (d a : SReg) (b : Src)
  | clz (d a : SReg) | ctz (d a : SReg) | popc (d a : SReg)
  | bfx (d a : SReg) (pos width : Nat) | bfi (d a : SReg) (pos width : Nat)
  | sext (d a : SReg) (n : Nat)
  | li (d : SReg) (v : BitVec 32) | lih (d : SReg) (v : BitVec 32)
  -- S slot, predicates (R222)
  | cmp (cc : CmpCond) (d : PReg) (a : SReg) (b : Src)
  | pand (d a b : PReg) | por (d a b : PReg) | pnot (d a : PReg)
  | sel (d : SReg) (p : PReg) (inv : Bool) (a : SReg) (b : Src)
  -- S slot, scalar float (R223 to R227)
  | fadd (f : SFmt) (rm : Rm) (d a b : SReg) | fsub (f : SFmt) (rm : Rm) (d a b : SReg)
  | fmul (f : SFmt) (rm : Rm) (d a b : SReg) | ffma (f : SFmt) (rm : Rm) (d a b : SReg)
  | fmin (f : SFmt) (d a b : SReg) | fmax (f : SFmt) (d a b : SReg)
  | fcmp (cc : FCond) (f : SFmt) (d : PReg) (a b : SReg)
  | fcvt (k : FcvtPair) (rm : Rm) (d a : SReg)
  | fclass (f : SFmt) (d a : SReg)
  -- S slot, pointers (R228 to R230)
  | lea (d a : SReg) (b : LeaSrc) | sptest (d a : SReg) | spcast (d a : SReg) (w : Win)
  -- S slot, control (R231 to R239)
  | br (p : PReg) (inv : Bool) (off : BitVec 31) | jmp (off : BitVec 31)
  | call (d : SReg) (off : BitVec 31) | jmpr (d a : SReg) | ret (a : SReg)
  | loop (src : TripSrc) (len : Nat) | brkl (p : PReg) (inv : Bool) | halt
  | trap (v : BitVec 23) | tack | tret
  | csrr (d : SReg) (c : Csr) | csrw (c : Csr) (a : SReg)
  -- S slot, waits and barriers (R240, R241) and the steps inside a wait
  | waitm (d a : SReg) (off : BitVec 17) (b c : SReg)
  | waitmArm | waitmWakeWrite | waitmMonitorLost | waitmTimeout | waitmSpurious
  | barArv (b : Fin 16) | barWt (b : Fin 16) | barrierArrivalCounted (b : Fin 16)
  -- S slot, partition and port-program slots (R242 to R248)
  | partn (a : SReg) | bind (n : Fin 64) (p : Port) | kset (n : Fin 64) (j : Fin 8) (a : SReg)
  | ppld (n : Fin 64) (a : SReg) (v : BitVec 23) | yield
  -- M slot (R250 to R259)
  | ld (z : Sz) (d b : SReg) (off : BitVec 22) (o : OrdF)
  | st (z : Sz) (b : SReg) (off : BitVec 22) (src : SReg) (o : OrdF)
  | ldt (f : Fmt) (t : TReg) (ad : TileAddr) (cons : Bool) (o : OrdF)
  | stt (f : Fmt) (ad : TileAddr) (t : TReg) (o : OrdF)
  | stp (f : Fmt) (sb sc : SReg) (t : TReg) (o : OrdF)
  | aadd (z : Sz) (d b : SReg) (off : BitVec 13) (c : SReg) (o : OrdF)
  | amin (z : Sz) (d b : SReg) (off : BitVec 13) (c : SReg) (o : OrdF)
  | amax (z : Sz) (d b : SReg) (off : BitVec 13) (c : SReg) (o : OrdF)
  | aminu (z : Sz) (d b : SReg) (off : BitVec 13) (c : SReg) (o : OrdF)
  | amaxu (z : Sz) (d b : SReg) (off : BitVec 13) (c : SReg) (o : OrdF)
  | aand (z : Sz) (d b : SReg) (off : BitVec 13) (c : SReg) (o : OrdF)
  | aor (z : Sz) (d b : SReg) (off : BitVec 13) (c : SReg) (o : OrdF)
  | axor (z : Sz) (d b : SReg) (off : BitVec 13) (c : SReg) (o : OrdF)
  | aswp (z : Sz) (d b : SReg) (off : BitVec 13) (c : SReg) (o : OrdF)
  | acas (z : Sz) (d b : SReg) (off : BitVec 13) (c e : SReg) (o : OrdF)
  | asubf (z : Sz) (d b : SReg) (off : BitVec 13) (c e : SReg) (pd : PReg) (o : OrdF)
  | afadd (f : SFmt) (d b : SReg) (off : BitVec 13) (c : SReg) (o : OrdF)
  | line (st : LineSt) (b : SReg) (off : BitVec 22) (c : SReg)
  | lineq (d b : SReg) (off : BitVec 22)
  | pref (b : SReg) (off : BitVec 22) (o : OrdF)
  | hld (h : HReg) (b : SReg) (off : BitVec 22) (o : OrdF)
  | hev (h : HReg) | hget (c : SReg) (h : HReg) (w : Fin 16)
  | seqld (dbl : Bool) (d b : SReg) (off : BitVec 22) (sh : Fin 32) (o : OrdF)
  -- Prefix-table forms (R334 to R337)
  | pfxl (d b : SReg) (off : BitVec 22) (o : OrdF)
  | pfxi (d b : SReg) (off : BitVec 22) (o : OrdF)
  | pfxr (d c : SReg) (o : OrdF)
  -- X slot (R276, R296)
  | mma (x : XArgs) | mmas (x : XArgs) | mmar (x : XArgs) | mmat (x : XArgs)
  | zclr (x : XArgs) | zld (x : XArgs) | zst (x : XArgs) | zmov (x : XArgs)
  | trans (x : XArgs) | spbuild (x : XArgs)
  | rowred (x : XArgs) | colred (x : XArgs) | softrow (x : XArgs) | merge (x : XArgs)
  | topk (x : XArgs) | window (x : XArgs)
  | lup (x : XArgs) | chol (x : XArgs) | qrh (x : XArgs) | trsm (x : XArgs) | trmm (x : XArgs)
  -- C slot (R263 to R271)
  | copy (c : CArgs) | gather (c : CArgs) | scatter (c : CArgs) | stage (o : OrdF)
  | mbox (c : CArgs) | areduce (op : RedOp) (c : CArgs) | bcast (c : CArgs)
  -- G slot (R272, R273)
  | gld (g : GReg) (inc : Fin 1024) | gzero (g : GReg)
  -- steps of the core in focus
  | gldValueVisible (g : GReg)
  | xThreadStart | dccEmulatedThread
  | engineThreadComplete (id : Nat) | copySectorLands (id : Nat)
  | collectiveInstanceReady (sc : Scope) (k : Nat) (far : List FarPart)
  | loadReturn (uid : Nat) | storePerformed (uid : Nat) | gatedStoreRelease
  | stallLimit | replayQueueRoom
  -- verdicts of the host (R188)
  | replyResume (die : Fin 8) (ticket : BitVec 16)
  | replyDeliver (die : Fin 8) (ticket : BitVec 16)
  | replyKill (die : Fin 8) (ticket : BitVec 16)
  -- dispatcher steps (R131 to R148, R190 to R194, R376, R377)
  | launchRecordRead (die stream : Fin 8)
  | coreReserve (l : Nat) | taskStart (l slot : Nat) | launchComplete (l : Nat)
  | launchPromote (l : Nat) | launchUrgent (l : Nat)
  | sliceExpiry | fullPreemptRequest (steps : Nat) | fullSave | fullRestore (l slot : Nat)
  | lightPreempt | handlerLaunchStart (m : Nat)
  | clusAccessArrive (uid : Nat)
  -- writes of the host to registers with behaviour of their own
  | dispatchRunWrite (die : Fin 8) (v : Word)
  | dispatchCsbWrite (die stream : Fin 8) (v : Word)
  | mailboxRegister (die : Fin 8) | mailboxUnregister (die : Fin 8)
  | tlbInvalidate | descriptorWrite (v : Word) | invalidateComplete
  | attestRequest | attestDone
  | slotHold (die : Fin 8) (v : Word) | slotDrop (die : Fin 8) | adoptLaunch (die : Fin 8) (v : Word)
  | plimWrite (v : Word) | pkgNumberWrite (v : Word) | journalClear
  | registerWrite (block : BitVec 16) (off : BitVec 32) (v : Word)
  | powerManagerTick (pnow : BitVec 16) (tmax : BitVec 8)
  | bootStart (r : BootReport)
  -- links (R367, R368) and root ports (R366)
  | cubeFlitReceive (die : Fin 8) (link : Fin 4) (good : Bool)
  | oxlinkRead (port : Fin 16) (flit : BitVec 2048)
  | oxlinkWrite (port : Fin 16) (flit : BitVec 2048)
  | oxlinkCompletion (port : Fin 16) (flit : BitVec 2048)
  | oxlinkMailbox (port : Fin 16) (flit : BitVec 2048)
  | oxlinkReduce (port : Fin 16) (flit : BitVec 2048)
  | oxlinkBroadcast (port : Fin 16) (flit : BitVec 2048)
  | inboundWrite (port : Fin 8) (rid : BitVec 16) (va : Word) (data : List Byte)
  | inboundRead (port : Fin 8) (rid : BitVec 16) (va : Word) (n : Nat)
  -- faults of the whole bundle, and the ends of long commands
  | illegal (slots : BitVec 5) | bundleFetchFault
  | mailboxCommandDone (die : Fin 8)
  | powerLoss (step : Nat) (cut : PowerCut)
  deriving DecidableEq, Repr

/-- A bundle (R199, R200): the header's restart mark and predicate, and the instruction of each present
slot; `none` is an absent slot. -/
structure Bundle where
  rm : Bool
  bpi : PReg
  bpn : Bool
  s : Option Instr
  m : Option Instr
  x : Option Instr
  c : Option Instr
  g : Option Instr
  deriving DecidableEq, Repr

/-- An error of the silicon, which comes from outside (R189, R195 to R198). (DESIGN CHOICE: log 60.) -/
inductive Strike where
  /-- A corrected error in a unit of a die. -/
  | corrected (die : Fin 8) (unit : Fin 77)
  /-- An uncorrectable error in the sector of memory at a physical address, found by a unit of its die. -/
  | memory (unit : Fin 77) (pa : Nat)
  /-- The sector of memory at a physical address fails its check value at a boundary that a unit of a die guards (R196). -/
  | check (die : Fin 8) (unit : Fin 77) (pa : Nat)
  /-- An uncorrectable error in a sector of the core's pool, at an offset in it. -/
  | pool (off : Nat)
  /-- A sector of the core's pool, at an offset in it, fails its check value (R196). -/
  | poolCheck (off : Nat)
  /-- An uncorrectable error in a sector of the core's triple side array. -/
  | side (off : Nat)
  /-- An uncorrectable error in hold latch A or B of the core. -/
  | latch (b : Bool)
  /-- An uncorrectable error in a line of the core's L1. -/
  | l1 (line : Nat)
  /-- A sector of the core's side array, a hold latch, a line of its L1, or a sector of a store in its gate fails its check value
  (R196). -/
  | sideCheck (off : Nat)
  | latchCheck (b : Bool)
  | l1Check (line : Nat)
  | gateCheck (n : Nat) (second : Bool)
  /-- An uncorrectable error in a sector of the core's gate while its commit drains: the store, and the second of its sectors. -/
  | gate (n : Nat) (second : Bool)
  /-- An uncorrectable error while the STP that the core is about to issue writes its halves: the second half, and the sector of it
  (R189, R253). -/
  | stpWrite (second : Bool) (n : Nat)
  /-- An uncorrectable error while an SPBUILD thread of the core writes the next sector of its arrays (R189, R288). -/
  | buildWrite
  /-- An uncorrectable error while the core's full save is written, or a restore reads it. -/
  | save
  deriving DecidableEq, Repr

/-- A trap queue (R171): of a context or of a die's dispatcher, the fatal or the replay queue. -/
inductive QueueName where
  | ctx (launch : Nat) (fatal : Bool)
  | disp (die : Fin 8) (fatal : Bool)
  deriving DecidableEq, Repr

/-- What an entry of the agenda does: a core issues its next bundle, a step of the package, an error of the silicon, an access of
the crown die's application cores to a physical address (R170), their write of a queue's CONS (R171), a core's reading of the line
at a physical address ahead of its program (R93), a read of another agent than a core, served again when a sector of another package
has come back (R368). (DESIGN CHOICE: log 1.) -/
inductive Deed where
  | bundle
  | event (i : Instr)
  | strike (k : Strike)
  | appWrite (pa : Nat) (data : List Byte)
  | appRead (pa n : Nat)
  | taken (q : QueueName) (cons : BitVec 32)
  | readAhead (pa : Nat)
  | again (uid : Nat)
  deriving DecidableEq, Repr

/-- An entry of the agenda: what happens on core `core` (the package's own steps ignore the core). (DESIGN CHOICE: log 1.) -/
structure Act where
  core : Nat
  what : Deed
  deriving DecidableEq, Repr

end Sys2Proof
end

