-- ==== Sys2Proof/Machine/State.lean ====
section
/-! DEFINITION. The state of the package as plain data: the core in focus, the other cores, memory, and the units
around them. Every piece of state the spec names is a field here; the fields of the model's own say so. -/

namespace Sys2Proof.Machine

/-- Memory: address and byte pairs, addresses strictly rising, no byte 0x00; an unlisted address reads 0x00. -/
abbrev Mem := List Host.Cell

/-- The 64 entries of a G register (R42). -/
abbrev GVal := List Byte

/-- A cause code (R182). -/
abbrev Cause := Nat

/-- A shape record (R39), with the effective values of the dimensions at or above RANK. -/
structure Shape where
  fmt    : Fmt
  layout : Fin 3
  rank   : Fin 6
  ragged : Bool
  ext    : Vector Nat 5
  str    : Vector Word 5
  box    : Vector Nat 5
  ragt   : Word
  deriving DecidableEq, Repr

/-- A port-program slot (R42, R243): element words W0 to W(N-1), NANT, PORTS, k0 to k7 and the constant q. -/
structure PSlot where
  words : List (BitVec 32)
  nant  : Bool
  ports : BitVec 4
  k     : Vector Word 8
  q     : Word
  deriving DecidableEq, Repr

/-- A hold latch's descriptor (R37, R192): the two extents, the format and B's orientation. -/
structure Latch where
  e1  : Nat
  e2  : Nat
  fmt : Fmt
  rev : Bool
  deriving DecidableEq, Repr

/-- An active loop-stack entry (R232). -/
structure LoopEnt where
  start : Word
  stop  : Word
  trip  : BitVec 31
  index : BitVec 32
  deriving DecidableEq, Repr

/-- The trap registers (R43, R180, R181). -/
structure TrapRegs where
  xpc    : Word
  tcause : Word
  tmask  : Word
  taddr  : Word
  tinfo  : Word
  tvec   : Word
  tlock  : Bool
  deriving DecidableEq, Repr

/-- The shadowed state of a core (R176): what a rollback restores. -/
structure Arch where
  pc     : Word
  s      : Vector Word 64
  p      : Vector Bool 8
  g      : Vector GVal 16
  /-- Pending GLD value of each G register and the executed bundles still to pass (R272). -/
  gpend  : Vector (Option (GVal × Nat)) 16
  h      : Vector (Option Shape) 32
  /-- The loop stack, bottom first, at most six entries (R232). -/
  loops  : List LoopEnt
  /-- Port-program slots 1 to 63; slot 0 is the identity and its entry here is never read (R42). -/
  progs  : Vector (Option PSlot) 64
  /-- Slots bound at ports A, B, D and K (R246). -/
  binds  : Vector (Fin 64) 4
  latchA : Option Latch
  latchB : Option Latch
  trap   : TrapRegs
  grow   : Word
  fprog  : Word
  fstat  : Word
  pivt   : Word
  zpol   : Bool
  xflags : BitVec 6
  seql   : Word
  linewait : Word
  gptr   : Word
  perm   : Vector Byte 256
  /-- Stream sequence numbers (R101). -/
  seqn   : Vector (BitVec 16) 8
  /-- A committed bundle has used T, Z, G, the scratchpad or a latch, or forked (R242). -/
  touched : Bool
  deriving DecidableEq, Repr

/-- Accumulator kinds (R280). -/
inductive ZKind where
  | fp32 | fp64 | int32
  deriving DecidableEq, Repr

/-- The partition word's fields (R28). -/
structure Partw where
  tg   : Nat
  zg   : Nat
  trip : BitVec 16
  deriving DecidableEq, Repr

/-- The state code of a scratchpad line (R31). -/
inductive LineCode where
  | empty | full | pois
  deriving DecidableEq, Repr

/-- One contiguous part of an access to memory, after translation (R106). -/
structure Part where
  pa : Nat
  n  : Nat
  loose : Bool
  cached : Bool
  /-- On a SEQ page, the page's scope: the access is ordered as if its PMASK were 0xFF (R105). -/
  seq : Option Scope
  /-- The last sector of a counted part (R101, R106). -/
  ends : Bool
  deriving DecidableEq, Repr

/-- What a returning load or atomic does with its value (R250, R252, R255, R331). -/
inductive LoadDest where
  | s (d : SReg)
  | t (d : TReg) (f : Fmt)
  | seql (d : SReg) (sh : Nat)
  | atom (op : Instr) (v e : Word)
  | none
  deriving DecidableEq, Repr

/-- The fault of one slot of a bundle: the slot (0 S, 1 M, 2 X, 3 C, 4 G), its cause and fields, and the engine record
a POISON_JOIN reports, with its core (R100, R179, R186). -/
structure SlotFault where
  slot  : Nat
  cause : Cause
  taddr : Word
  tinfo : Word
  join  : Option (Nat × Nat)
  deriving DecidableEq, Repr

/-- A load or atomic in flight (R101). -/
structure PLoad where
  uid   : Nat
  dest  : LoadDest
  ord   : OrdF
  /-- Parts still to be read, lower address first (R106). -/
  parts : List Part
  got   : List Byte
  /-- Bytes it moves. -/
  width : Nat
  va    : Word
  /-- Its interval has committed; otherwise a rollback drops it (R178). -/
  committed : Bool
  dropped   : Bool
  deriving DecidableEq, Repr

/-- A store that has left the gate and is not yet performed (R101). -/
structure PStore where
  uid   : Nat
  ord   : OrdF
  parts : List Part
  bytes : List Byte
  /-- Peer position and scratchpad offset of a store to the CLUS window (R159). -/
  clus  : Option (Nat × Nat)
  /-- Offset of a store to the own scratchpad (R90). -/
  scratch : Option Nat
  va    : Word
  /-- Sectors of 32 bytes that it moves poisoned: by number in memory, or in the scratchpad that it goes to (R197). -/
  bad   : List Nat
  deriving DecidableEq, Repr

/-- An entry of the gate (R176): a store, or line changes. -/
inductive GateEnt where
  | store (st : PStore)
  | line (first count : Nat) (st : LineCode)
  | consume (line : Nat)
  deriving DecidableEq, Repr

/-- A port as an engine thread captured it (R247): the slot bound, its program (none for slot 0), and the element
codes of the tile row that its qld read at issue (R325). -/
structure PortCap where
  slot : Nat
  prog : Option PSlot
  qrow : List Nat
  deriving DecidableEq, Repr

/-- The fault an engine thread met (R185, R192). -/
structure EngFault where
  cause : Cause
  taddr : Word
  tinfo : Word
  deriving DecidableEq, Repr

/-- Where an engine thread writes one sector: the own scratchpad or an address it translates. -/
inductive JobDest where
  | scratch (off : Nat)
  | addr (va : Word)
  deriving DecidableEq, Repr

/-- One destination sector of an engine thread: byte offsets within the sector and their values (R264). -/
structure Job where
  dest  : JobDest
  bytes : List (Nat × Byte)
  /-- Lines whose last sector of the thread this is, each with whether the thread has then written the whole line (R31). -/
  ends  : List (Nat × Bool)
  /-- The data it carries are poisoned (R197). -/
  bad   : Bool
  deriving DecidableEq, Repr

/-- What a thread writes to registers when it completes (R274). -/
structure EngRes where
  /-- Runs of pool bytes of T and Z registers. -/
  pool  : List (Nat × List Byte)
  /-- Runs of side-array bytes. -/
  side  : List (Nat × List Byte)
  zkind : Option (ZReg × ZKind)
  fprog : Option Word
  fstat : Word
  grow  : Option Word
  perm  : List (Nat × Byte)
  flags : BitVec 6
  flt   : Option EngFault
  deriving DecidableEq, Repr

/-- The continuation of a factorisation that a full pre-emption stopped (R192, R309). -/
structure Contin where
  ins  : Instr
  sh   : Word
  pivt : Word
  zpol : Bool
  pc   : Word
  deriving DecidableEq, Repr

/-- The stage of an engine thread. -/
inductive Phase where
  | queued
  | running
  /-- A replay record is sent and answered by this ticket (R188). -/
  | replay (ticket : Nat) (cause : Cause) (va : Word)
  /-- The replay queue was full (R171). -/
  | waitRoom (cause : Cause) (va : Word)
  deriving DecidableEq, Repr

/-- An engine thread with what it captured at issue (R97, R247, R260, R274). (DESIGN CHOICE: log 32.) -/
structure Thread where
  id    : Nat
  recIx : Nat
  ford  : BitVec 32
  ins   : Instr
  ord   : OrdF
  pc    : Word
  sh    : Word
  g     : Vector GVal 16
  pa    : PortCap
  pb    : PortCap
  pd    : PortCap
  pk    : PortCap
  shape : Option Shape
  oa    : Word × Word
  ob    : Word × Word
  od    : Word × Word
  cr    : Word × Word × Word
  pivt  : Word
  zpol  : Bool
  /-- Collective number and participants' count (R269). -/
  coll  : Option (Scope × Nat)
  phase : Phase
  jobs  : List Job
  res   : Option EngRes
  /-- Values of the source elements read so far, each with its poison (R185). -/
  vals  : List (Nat × Bool)
  /-- Destination sectors landed so far. -/
  landed : Nat
  /-- The fault that its source read has met: it is taken once the sectors before it have landed (R185). -/
  met   : Option (Cause × Option Word)
  /-- The model's own: T registers as its bundle found them, latest first, that an LDT has written before it has read (R17). -/
  olds  : List (Nat × Mem)
  /-- A copy of the launch's schedule (R142). -/
  sched : Bool
  deriving DecidableEq, Repr

/-- A register an engine thread produces: a T or a Z register, or a factorisation's PERM, GROW, FPROG and FSTAT (R298). -/
inductive TZ where
  | t (n : Nat)
  | z (n : Nat)
  | csr
  deriving DecidableEq, Repr

/-- An engine fault record (R192): no fault while its thread runs. It also lists the registers and lines whose reading
observes the thread's completion object (R99). -/
structure EngRec where
  ford   : BitVec 32
  stream : Fin 8
  regs   : List TZ
  filled : List Nat
  flt    : Option EngFault
  /-- Reported and kept only for its poisoned lines (R186). -/
  retired : Bool
  deriving DecidableEq, Repr

/-- The monitor of a waiting WAITM (R110). -/
structure Monitor where
  armed   : Bool
  /-- Another agent has written the line since arming. -/
  hit     : Bool
  word    : Nat
  va      : Word
  expect  : Word
  timeout : Nat
  waited  : Nat
  cause   : Option Nat
  deriving DecidableEq, Repr

/-- A line that a core has read ahead of its program: its number and bytes, and by stream the number of the first access that was
outstanding then or has been issued since (R93). -/
structure Ahead where
  line  : Nat
  bytes : List Byte
  since : Vector (Option Nat) 8
  deriving DecidableEq, Repr

/-- The task a core holds (R138). -/
structure Task where
  launch : Nat
  slot   : Nat
  index  : Nat
  deriving DecidableEq, Repr

/-- What a core is doing. -/
inductive Status where
  | idle
  | running
  /-- Halted, draining its streams (R236, R104). -/
  | halted
  /-- At a restart point with a replay record out: its ticket, and the faults of the bundle's slots (R188). -/
  | replay (ticket : Nat) (fs : List SlotFault)
  /-- The replay queue was full (R171). -/
  | waitRoom (fs : List SlotFault)
  /-- Stopped for a full save (R191). -/
  | saving
  /-- Stopped by a fatal fault of its context (R189). -/
  | stopped
  deriving DecidableEq, Repr

/-- One core (R26, R27, R42). -/
structure Core where
  /-- Physical number: 32 × die + position. -/
  id     : Nat
  arch   : Arch
  /-- The shadow: `arch` at the last restart point (R176). -/
  ckpt   : Arch
  /-- The model's own: the registers as the bundle being issued found them (R17). -/
  src    : Arch
  /-- The model's own: the target of a transfer taken by the bundle being issued. -/
  npc    : Option Word
  /-- The model's own: the bundle being issued ends a restart interval (R175). -/
  closes : Bool
  /-- The model's own: the bundle being issued has ended: trapped, waiting, or completed by its own S slot. -/
  ended  : Bool
  /-- The model's own: the core stands at a restart point. -/
  atRp   : Bool
  gate   : List GateEnt
  /-- Committed stores held back by stream exhaustion (R102). -/
  held   : List PStore
  pool   : Mem
  side   : Mem
  lines  : List (Nat × LineCode)
  plinks : List (Nat × Nat)
  zkind  : Vector ZKind 16
  partw  : Partw
  /-- Values of the hold latches, in the words of R192. -/
  latA   : List Nat
  latB   : List Nat
  cnt    : Vector Nat 8
  loads  : List PLoad
  stores : List PStore
  threads : List Thread
  recs   : List (Nat × EngRec)
  forks  : BitVec 32
  stallc : Word
  /-- Clk of the present stall on EMPTY lines (R32). -/
  stall  : Nat
  /-- Lines of the L1: physical line number and bytes (R107). -/
  l1     : List (Nat × List Byte)
  /-- Lines read ahead of the program. -/
  ahead  : List Ahead
  /-- The model's own: the number under which the bundle at the PC reads another package's memory at issue. -/
  farUid : Option Nat
  monitor : Option Monitor
  /-- Barrier arrivals sent and not counted (R152): barrier, and the number below which every access and thread
  must have been performed. -/
  arrivals : List (Nat × Nat)
  /-- Barriers the task has arrived at since its last BAR.WT, with the epoch awaited (R152). -/
  arrived : List (Nat × Nat)
  /-- The tags of the BAR.ARVs that have been sent, each the restart point before it, until its interval commits (R241). -/
  arvSent : List Word
  /-- Collectives issued per scope (R269). -/
  colln  : Vector Nat 4
  /-- The record of the factorisation thread whose fault set FPROG.STATE to HELD (R299). -/
  heldBy : Option Nat
  /-- Poisoned sectors of T and Z registers and of the scratchpad, by sector of the pool (R197). -/
  badPool : List Nat
  /-- Poisoned sectors of the triple side array (R197). -/
  badSide : List Nat
  /-- The hold latches A and B hold poisoned data (R197). -/
  badLatA : Bool
  badLatB : Bool
  /-- Poisoned lines of the L1 (R197). -/
  badL1  : List Nat
  task   : Option Task
  /-- The context last held (R169). -/
  lastCtx : Option Nat
  status : Status
  /-- A full pre-emption request waits for a restart point (R191). -/
  preempt : Bool
  /-- Clk run since start or restore (R194). -/
  ran    : Nat
  /-- Clk that its task had run when it was last saved (R148). -/
  past   : Nat
  contin : Option Contin
  /-- The launch that the core is held back for at its next node boundary (R148, R194). -/
  holdFor : Option Nat
  deriving DecidableEq, Repr

/-- An ASID descriptor (R163). -/
structure Desc where
  root     : Nat
  privbase : Nat
  psz      : Nat
  deriving DecidableEq, Repr

/-- What holds a translation (R166): the L1 of a core, the L2 of a cluster (4 × die + cluster), the L3 of a die, or the walkers of
a die, which hold copies of the table entries that lead to a leaf. -/
inductive TlbHome where
  | l1 (core : Nat)
  | l2 (cluster : Nat)
  | l3 (die : Nat)
  | walk (die : Nat)
  deriving DecidableEq, Repr

/-- A cached translation (R166): where it is held, the page, and what its leaf says; of a walker's copy, the bytes that the table
entry stands for, and the entry. -/
structure TlbEnt where
  home  : TlbHome
  asid  : Nat
  vpage : Nat
  size  : Nat
  leaf  : Nat
  deriving DecidableEq, Repr

/-- Translation control (R167). -/
structure TransCtl where
  all   : Bool
  iasid : BitVec 12
  iva   : Word
  ilen  : BitVec 32
  go    : Bool
  busy  : Bool
  didx  : BitVec 12
  dword0 : Word
  dword1 : Word
  dword2 : Word
  /-- What the operation in progress covers: ASID (none: every), first page and number of pages (0: all). -/
  op    : Option (Option Nat × Nat × Nat)
  deriving DecidableEq, Repr

/-- STATE of the security engine (R174). -/
inductive SecState where
  | idle | busy | done | fault
  deriving DecidableEq, Repr

/-- A firmware image in flash (R173): the signing public key, the signature, the body, its security version, and whether it
directs the floor to be raised. (DESIGN CHOICE: log 98.) -/
structure FwImage where
  key   : List Byte
  sig   : List Byte
  body  : List Byte
  svn   : Word
  raise : Bool
  deriving DecidableEq, Repr

/-- The security engine and what flash holds for it (R172 to R174). (DESIGN CHOICE: log 98.) -/
structure Security where
  noncepa : Nat
  outpa   : Nat
  refused : Bool
  state   : SecState
  svnFloor : Word
  svn      : Word
  fwdig    : BitVec 256
  serial   : Word
  /-- The fused digest of the firmware-signing public key. -/
  keydig   : BitVec 256
  /-- The secret exponent of the identity key, which only the engine reads. -/
  idpriv   : Nat
  /-- The identity public key, and the certificate over it, in flash. -/
  idpub    : List Byte
  idcert   : List Byte
  image    : FwImage
  deriving DecidableEq, Repr

/-- An entry of a requester table (R366). -/
structure Requester where
  rid  : BitVec 16
  v    : Bool
  asid : BitVec 12
  deriving DecidableEq, Repr

/-- The root-port block (R366): entries by 256 × port + entry, and refusals. -/
structure RootPorts where
  table : List (Nat × Requester)
  ureq  : Vector (BitVec 32) 8
  /-- Replies sent outwards: port, data, or none for Unsupported Request. -/
  out   : List (Nat × Option (List Byte))
  deriving DecidableEq, Repr

/-- The power manager (R371). -/
structure Power where
  plim : BitVec 16
  pnow : BitVec 16
  tmax : BitVec 8
  /-- Clock factor of each unit whose factor is not 16: a batt (no task) or a task outside any batt (R149, R371). -/
  factor : List ((Nat × Option Nat) × Nat)
  /-- Device time at which the manager last acted. -/
  acted  : Word
  deriving DecidableEq, Repr

/-- A boot-journal entry (R373). -/
structure JEntry where
  bootno : Nat
  step   : Nat
  unit   : Nat
  alt    : Nat
  status : Nat
  dtime  : Word
  deriving DecidableEq, Repr

/-- The boot journal (R373, R374): entries oldest first, the number of starts, and the remembered end of each
(step, unit): alternate in use and status. -/
structure Journal where
  entries : List JEntry
  starts  : Nat
  memory  : List ((Nat × Nat) × (Nat × Nat))
  deriving DecidableEq, Repr

/-- An Oxlink group entry's four words (R370). -/
structure Group where
  w0 : Word
  w1 : Word
  w2 : Word
  w3 : Word
  deriving DecidableEq, Repr

/-- A sector that a flit brings, with its poison (R196). -/
structure Sect where
  bytes : List Byte
  bad   : Bool
  deriving DecidableEq, Repr

/-- A read request to another package that is not answered: its tag, the core or other agent and the access that asked, and the
address of the sector (R368). (DESIGN CHOICE: log 66.) -/
structure Ask where
  tag  : Nat
  core : Nat
  uid  : Nat
  pa   : Nat
  deriving DecidableEq, Repr

/-- A sector of another package that has come back for an access of a core or another agent (R368). -/
structure FarSect where
  core : Nat
  uid  : Nat
  pa   : Nat
  sect : Sect
  deriving DecidableEq, Repr

/-- A read of a dispatcher or of the crown die that waits for sectors of another package: its number, and what it is served by
(R368). -/
structure Wait where
  uid : Nat
  act : Act
  deriving DecidableEq, Repr

/-- Oxlink control and ports (R368 to R370). -/
structure Oxlink where
  pkg     : BitVec 11
  pkgSet  : Bool
  groups  : List (Nat × Group)
  /-- STATE, PEER and PPORT word of each port (R369). -/
  ports   : Vector Word 16
  /-- Next sequence number expected and sent on each port. -/
  seqIn   : Vector (BitVec 24) 16
  seqOut  : Vector (BitVec 24) 16
  /-- Flits sent outwards: port and flit. -/
  out     : List (Nat × BitVec 2048)
  /-- Read requests that are not answered. -/
  asks    : List Ask
  /-- Sectors that have come back for accesses that still need them. -/
  got     : List FarSect
  /-- Contributions to collectives received: source package, tag, address, sectors. -/
  reds    : List (Nat × Nat × Nat × List Sect)
  /-- Reads of agents other than cores that wait for sectors. -/
  waits   : List Wait
  /-- The number of such a read while it is served again. -/
  again   : Option Nat
  deriving DecidableEq, Repr

/-- A 64-byte record on a trap lane (R187), by fields. -/
structure LaneRec where
  kind   : Nat
  cause  : Nat
  cause2 : Nat
  asid   : Nat
  tmask  : Nat
  die    : Nat
  taskid : Nat
  xpc    : Word
  taddr  : Word
  tinfo  : Word
  dtime  : Word
  cnt    : Word
  ticket : Nat
  core   : Nat
  lseq   : Nat
  aux    : Word
  deriving DecidableEq, Repr

/-- A trap queue (R171): the records that its entries hold, oldest first, and the header's counts. -/
structure Queue where
  ring     : List LaneRec
  prod     : BitVec 32
  cons     : BitVec 32
  overflow : Bool
  lost     : BitVec 32
  deriving DecidableEq, Repr

/-- The queue pair of a context, or of a dispatcher (R171). -/
structure QueuePair where
  fatal  : Queue
  replay : Queue
  deriving DecidableEq, Repr

/-- A launch record (R131). -/
structure LRec where
  asid : Nat
  barm : BitVec 16
  count : Nat
  serial : Bool
  mapped : Bool
  midp : Bool
  troy : Bool
  prio : Nat
  cls  : Nat
  entry : Word
  stride : Nat
  base : Nat
  npl : Nat
  map : Word
  partw : Word
  deadline : Word
  cost : Word
  param : Word
  done : Word
  succ : Word
  save : Nat
  sched : Word
  mbar : Word
  mbarn : Nat
  sliceq : Nat
  next : Word
  etab : Word
  /-- A reserved bit of the record is set (R134). -/
  bad : Bool
  deriving DecidableEq, Repr

/-- An entry of a copy schedule (R141). -/
structure SchedEnt where
  src : Word
  dst : Word
  shape : Shape
  stage : Nat
  scope : Scope
  stream : Fin 8
  /-- Its stage has been reached. -/
  released : Bool
  /-- Its thread has been forked. -/
  forked : Bool
  deriving DecidableEq, Repr

/-- A placement slot of a launch. -/
inductive SlotSt where
  /-- The next task of the slot waits for its core. -/
  | waiting (task : Nat)
  /-- The core is reserved for a CONCURRENT launch (R135). -/
  | reserved (task : Nat)
  | running (task : Nat)
  /-- In a full save, to be restored (R191). -/
  | saved (task : Nat)
  | gone
  deriving DecidableEq, Repr

/-- The state of an admitted launch; a completed one is dropped from the list. -/
inductive LStatus where
  | running
  /-- A task's context has suffered a fatal fault (R140, R189). -/
  | failed
  deriving DecidableEq, Repr

/-- What the package keeps of a saved slot beside its save area: the barriers arrived at, the tags of arrivals sent, the
collectives issued, what reading observes each engine record, whether PARTN is still legal, the partition that a PARTN has
set, the clk run, the record that set FPROG to HELD, and what the area's layout has no place for. (DEDUCED: log 49.) -/
structure Kept where
  arrived : List (Nat × Nat)
  arvSent : List Word
  colln   : Vector Nat 4
  recs    : List (Nat × EngRec)
  touched : Bool
  partw   : Partw
  ran     : Nat
  heldBy  : Option Nat
  /-- Its task had halted, with a part of its schedule still to move (R142). -/
  halted  : Bool
  /-- The values of latch A, of which an FP64 latch's rows overlap in the area (R37, R192). -/
  latA    : List Nat
  /-- Poisoned sectors of its scratchpad (R197). -/
  badPad  : List Nat
  deriving DecidableEq, Repr

/-- A launch that has been read (R131 to R148). -/
structure Launch where
  id     : Nat
  die    : Nat
  /-- The stream; none for a handler or an adopted launch. -/
  stream : Option Nat
  lseq   : Nat
  /-- The address its record was read at (R133, R370). -/
  addr   : Word
  lr     : LRec
  cores  : List Nat
  etab   : List Word
  sched  : List SchedEnt
  thr    : List Nat
  age    : Word
  eff    : Nat
  /-- Clk it has waited since it was read or last promoted (R147). -/
  waited : Nat
  urgent : Bool
  slots  : List SlotSt
  stage  : Nat
  status : LStatus
  /-- The mailbox of a handler launch and its message, with its poison (R143, R197). -/
  handler : Option (Nat × List Byte × Bool)
  adopted : Bool
  /-- A slot was given up by DROP (R376). -/
  dropped : Bool
  /-- Slots that are never restored (R376). -/
  holds  : List Nat
  kept   : List (Nat × Kept)
  deriving DecidableEq, Repr

/-- What the checks of a launch record answer (R134). -/
inductive Admit where
  /-- A read of the record, MAP or ETAB faults (R168). -/
  | fault (c : Cause) (va : Word)
  /-- The record or what it names lies in another package and is still being read (R368). -/
  | far
  | reject (code : Nat)
  | ok (cores : List Nat) (etab : List Word) (sched : List SchedEnt) (thr : List Nat)
  deriving DecidableEq, Repr

/-- A queued fire (R143, R145): the mailbox's bytes, the handler record as the fire read it, with what its tests answered, its
sequence number and when it was read, its effective class and the clk it has waited, the context whose access fired it, and the
core and number of the engine thread that did (R99, R147). (DEDUCED: log 45.) -/
structure Mail where
  data : List Byte
  lr   : LRec
  adm  : Admit
  lseq : Nat
  age  : Word
  eff  : Nat
  waited : Nat
  owner : Option Nat
  thread : Option (Nat × Nat)
  /-- The mailbox's bytes are poisoned (R197). -/
  bad  : Bool
  deriving DecidableEq, Repr

/-- A mailbox (R143 to R145): its physical line, queued fires, oldest first, and fires whose record was turned away as it was read,
which are still to be answered. -/
structure Mailbox where
  pa   : Nat
  asid : Nat
  lrec : Word
  die  : Nat
  queue : List Mail
  turned : List Mail
  deriving DecidableEq, Repr

/-- A command stream of a dispatcher (R133, R168, R190). -/
structure Stream where
  run   : Bool
  csb   : Word
  sasid : BitVec 12
  deriving DecidableEq, Repr

/-- A dispatcher (R133, R145, R168, R188, R376). -/
structure Disp where
  streams : Vector Stream 8
  starve  : Vector Word 4
  lead    : Word
  seqno   : Word
  reply   : Word
  ticket  : Nat
  mbaddr  : Word
  mblrec  : Word
  mbasid  : BitVec 12
  /-- The result of the mailbox command in progress (R145). -/
  mbop    : Option (BitVec 4)
  mbstat  : BitVec 4
  holdSlot : BitVec 8
  holdLseq : BitVec 32
  adopt   : Word
  adoptas : BitVec 12
  deriving DecidableEq, Repr

/-- What a stream carries on a logical core (R190). -/
structure Carried where
  die    : Nat
  stream : Nat
  core   : Nat
  regs   : Vector Word 8
  seqn   : Vector (BitVec 16) 8
  /-- Physical address of the light block, once written. -/
  block  : Option Nat
  /-- Where a light block goes, the LSEQ of the record whose task halted, and CSBs at the boundary. -/
  home   : Nat
  lseq   : Nat
  next   : Word
  deriving DecidableEq, Repr

/-- A cluster barrier (R152): cluster 4 × die + cluster, number, holder, arrivals and epochs. -/
structure Barrier where
  cluster : Nat
  num     : Nat
  launch  : Nat
  arrivals : Nat
  epochs   : Nat
  deriving DecidableEq, Repr

/-- A participant's contribution to a collective (R269). -/
structure CollPart where
  core   : Nat
  thread : Nat
  task   : Nat
  ins    : Instr
  shape  : Shape
  vals   : List Nat
  /-- Which of the values are poisoned (R197). -/
  bad    : List Bool
  flt    : Option (Cause × Option Word)
  deriving DecidableEq, Repr

/-- One collective (R269): launch, cluster for CLUS scope, scope, number. -/
structure Coll where
  launch  : Nat
  cluster : Nat
  scope   : Scope
  k       : Nat
  parts   : List CollPart
  deriving DecidableEq, Repr

/-- An entry of the table of shared prefixes (R333). -/
structure PfxEnt where
  asid : Nat
  ns   : Word
  depth : Nat
  hash : Word
  parent : BitVec 32
  tok  : List (BitVec 32)
  page : BitVec 32
  ref  : Nat
  stamp : Nat
  deriving DecidableEq, Repr

/-- A compute die's enumeration (R45, R48). -/
structure DieEnum where
  live    : BitVec 32
  offline : BitVec 32
  dieok   : Bool
  crown   : Bool
  links   : BitVec 3
  slices  : BitVec 32
  remap   : Vector (Fin 32) 32
  /-- Resends in a row on links 0 to 2 and the crown link (R367). -/
  resends : Vector Nat 4
  deriving DecidableEq, Repr

/-- Grades (R2). -/
inductive Grade where
  | g256 | g240 | g224 | g224L
  deriving DecidableEq, Repr

/-- The whole package. -/
structure State where
  /-- The core in focus. -/
  core   : Core
  /-- Every other core that has been used; one not listed is a fresh core. -/
  others : List Core
  mem    : Mem
  /-- Bytes sent to root-port endpoints (region 0x1), in order. -/
  endpoint : List Host.Cell
  /-- Data that the application cores have read, in order (R170). -/
  appOut : List (List Byte)
  descs  : List (Nat × Desc)
  tlb    : List TlbEnt
  tc     : TransCtl
  sec    : Security
  ports  : RootPorts
  power  : Power
  journal : Journal
  ox     : Oxlink
  disp   : Vector Disp 8
  carried : List Carried
  launches : List Launch
  mboxes : List Mailbox
  barriers : List Barrier
  colls  : List Coll
  /-- Troy tags (R112): launch, byte address, task. -/
  tags   : List (Nat × Nat × Nat)
  ctxQueues : List (Nat × QueuePair)
  dispQueues : Vector QueuePair 8
  /-- Soft-error counters by 77 × die + unit (R198). -/
  errs   : List (Nat × Word)
  /-- Poisoned sectors of memory (R197), by sector number. -/
  poison : List Nat
  pfx    : List PfxEnt
  /-- Next position in the directory order (R333). -/
  pfxNext : Nat
  grade  : Grade
  dies   : Vector DieEnum 8
  dtime  : Word
  /-- The boot ROM has finished its steps (R372). -/
  booted : Bool
  /-- Every compute die is held in reset (R173, R371, R373). -/
  inReset : Bool
  /-- The model's own: scheduled steps and inputs from outside, in order. -/
  agenda : List Act
  /-- The model's own: the counter that free values are taken at. -/
  fresh  : Nat
  /-- The model's own: the number of the next access, thread or launch. -/
  uid    : Nat
  deriving DecidableEq, Repr

/-- Why the machine stops. -/
inductive Fault where
  /-- An agenda entry names a slot instruction, which is no step of the package by itself. Raised by `step`. Safe:
  the hardware has no such event. -/
  | agendaSlot
  deriving DecidableEq, Repr

/-- Why an instruction has no meaning here. -/
inductive Refusal where
  /-- The instruction of this mnemonic is not modelled yet. Raised by its arm in the dispatch. Safe. -/
  | notModelled (mnemonic : String)
  deriving DecidableEq, Repr

/-! ## Reset values -/

/-- The trap registers at task start (R43). -/
def TrapRegs.init : TrapRegs := ⟨0, 0, 0, 0, 0, 0, false⟩

/-- A G register of zeros. -/
def GVal.zero : GVal := List.replicate 64 0

/-- The core registers at task start, with PC 0 (R22, R43, R138). (DESIGN CHOICE: log 3.) -/
def Arch.init : Arch :=
  { pc := 0, s := Vector.replicate 64 0, p := (Vector.replicate 8 false).set 0 true,
    g := Vector.replicate 16 GVal.zero, gpend := Vector.replicate 16 none, h := Vector.replicate 32 none,
    loops := [], progs := Vector.replicate 64 none, binds := Vector.replicate 4 0,
    latchA := none, latchB := none, trap := TrapRegs.init, grow := 0, fprog := 0, fstat := 0, pivt := 0,
    zpol := false, xflags := 0, seql := 0, linewait := Config.lineWait, gptr := 0,
    perm := Vector.ofFn (fun i => BitVec.ofNat 8 i.val), seqn := Vector.replicate 8 0, touched := false }

/-- Core `n` before it has held a task. (DESIGN CHOICE: log 3.) -/
def Core.init (n : Nat) : Core :=
  { id := n, arch := Arch.init, ckpt := Arch.init, src := Arch.init, npc := none, closes := false, ended := false, atRp := true, gate := [],
    held := [], pool := [], side := [], lines := [], plinks := [], zkind := Vector.replicate 16 .fp32,
    partw := ⟨0, 0, 0⟩, latA := [], latB := [], cnt := Vector.replicate 8 0, loads := [], stores := [],
    threads := [], recs := [], forks := 0, stallc := 0, stall := 0, l1 := [], ahead := [], farUid := none, monitor := none, arrivals := [],
    arrived := [], arvSent := [], colln := Vector.replicate 4 0, heldBy := none, badPool := [], badSide := [], badLatA := false,
    badLatB := false, badL1 := [], task := none, lastCtx := none,
    status := .idle, preempt := false, ran := 0, past := 0, contin := none, holdFor := none }

/-- An empty trap queue. -/
def Queue.init : Queue := ⟨[], 0, 0, false, 0⟩

/-- A dispatcher at start-up (R133, R145, R168, R188, R376). (DESIGN CHOICE: log 3.) -/
def Disp.init : Disp :=
  { streams := Vector.replicate 8 ⟨false, 0, 0⟩, starve := Vector.replicate 4 0x0000000001000000,
    lead := 0x0000000000010000, seqno := 0, reply := 0, ticket := 1, mbaddr := 0, mblrec := 0, mbasid := 0,
    mbop := none, mbstat := 0, holdSlot := 0, holdLseq := 0, adopt := 0, adoptas := 0 }

/-- A die of a Scenil 256 part before start-up. (DESIGN CHOICE: log 3; DESIGN CHOICE: log 5.) -/
def DieEnum.init : DieEnum :=
  { live := 0xFFFFFFFF, offline := 0, dieok := false, crown := false, links := 0, slices := 0,
    remap := Vector.ofFn id, resends := Vector.replicate 4 0 }

/-- The package at power-on, before the boot ROM runs (R372). (DESIGN CHOICE: log 4; DESIGN CHOICE: log 5.) -/
def State.reset : State :=
  { core := Core.init 0, others := [], mem := [], endpoint := [], appOut := [], descs := [], tlb := [],
    tc := ⟨false, 0, 0, 0, false, false, 0, 0, 0, 0, none⟩, sec := ⟨0, 0, false, .idle, 0, 0, 0, 0, 0, 0, [], [], ⟨[], [], [], 0, false⟩⟩,
    ports := ⟨[], Vector.replicate 8 0, []⟩, power := ⟨3650, 0, 0, [], 0⟩, journal := ⟨[], 0, []⟩,
    ox := { pkg := 0, pkgSet := false, groups := [], ports := Vector.replicate 16 0,
            seqIn := Vector.replicate 16 0, seqOut := Vector.replicate 16 0, out := [], asks := [], got := [], reds := [], waits := [], again := none },
    disp := Vector.replicate 8 Disp.init, carried := [], launches := [], mboxes := [], barriers := [],
    colls := [], tags := [], ctxQueues := [], dispQueues := Vector.replicate 8 ⟨Queue.init, Queue.init⟩,
    errs := [], poison := [], pfx := [], pfxNext := 0, grade := .g256, dies := Vector.replicate 8 DieEnum.init,
    dtime := 0, booted := false, inReset := false, agenda := [], fresh := 0, uid := 0 }

end Sys2Proof.Machine
end

