-- ==== Sys2Proof/Machine/Mem.lean ====
section
/-! DEFINITION. Memory in its canonical form, and the byte-order and list helpers every access uses (R23). -/

namespace Sys2Proof.Machine

/-- The byte at an address; an unlisted address reads 0x00. (DESIGN CHOICE: log 4.) -/
def Mem.get (m : Mem) (a : Nat) : Byte :=
  match m with
  | [] => 0
  | (k, v) :: r => if k = a then v else Mem.get r a

/-- The cells of a run of bytes, without those an unlisted address reads as. -/
def Mem.cells (base : Nat) (bs : List Byte) : Mem :=
  match bs with
  | [] => []
  | b :: r => if b = 0 then Mem.cells (base + 1) r else (base, b) :: Mem.cells (base + 1) r

/-- Writes a run of bytes from `base` on. (DESIGN CHOICE: log 4.) -/
def Mem.put (m : Mem) (base : Nat) (bs : List Byte) : Mem :=
  m.filter (fun c => c.1 < base) ++ Mem.cells base bs ++ m.filter (fun c => base + bs.length ≤ c.1)

/-- The `n` bytes from `a` on. -/
def Mem.bytes (m : Mem) (a n : Nat) : List Byte := (List.range n).map (fun i => m.get (a + i))

/-- Reads ascending cells from `a` on in one pass; every cell listed lies at or above `a`. -/
def Mem.walk (c : Mem) (a n : Nat) : List Byte :=
  match n with
  | 0 => []
  | k + 1 =>
    match c with
    | [] => List.replicate (k + 1) 0
    | (x, v) :: r => if x = a then v :: Mem.walk r (a + 1) k else 0 :: Mem.walk ((x, v) :: r) (a + 1) k

/-- The `n` bytes from `a` on, read in one pass over a memory in canonical form. -/
def Mem.run (m : Mem) (a n : Nat) : List Byte := Mem.walk (m.filter (fun c => a ≤ c.1)) a n

/-- Writes several runs, in order. -/
def Mem.puts (m : Mem) (rs : List (Nat × List Byte)) : Mem := rs.foldl (fun m r => m.put r.1 r.2) m

/-- The canonical form: addresses strictly rising, and no byte that an unlisted address reads as. (DESIGN CHOICE: log 4.) -/
def Mem.wf (m : Mem) : Bool :=
  match m with
  | [] => true
  | [c] => c.2 != 0
  | c :: d :: r => c.2 != 0 && decide (c.1 < d.1) && Mem.wf (d :: r)

/-- The number held little-endian (R23). -/
def leVal (bs : List Byte) : Nat :=
  match bs with
  | [] => 0
  | b :: r => b.toNat + 256 * leVal r

/-- The `n` low bytes of a number, little-endian (R23). -/
def leBytes (n v : Nat) : List Byte :=
  match n with
  | 0 => []
  | k + 1 => BitVec.ofNat 8 v :: leBytes k (v / 256)

/-- Bytes of an access size (R207). -/
def sizeBytes (z : Sz) : Nat :=
  match z with
  | .b => 1 | .h => 2 | .w => 4 | .d => 8

/-- A number read as a two's-complement value of `n` bits. -/
def signedOf (n v : Nat) : Int :=
  if v % 2 ^ n < 2 ^ (n - 1) then (v % 2 ^ n : Int) else (v % 2 ^ n : Int) - 2 ^ n

/-- An integer reduced to `n` bits. -/
def wrapTo (n : Nat) (v : Int) : Nat := (v % 2 ^ n).toNat

/-- The element of a list, or zero past its end. -/
def nth (xs : List Nat) (i : Nat) : Nat := xs.getD i 0

/-- A list cut into pieces of `n`, at most `fuel` of them. -/
def chunks {α : Type} (n : Nat) (fuel : Nat) (xs : List α) : List (List α) :=
  match fuel with
  | 0 => []
  | k + 1 => xs.take n :: chunks n k (xs.drop n)

/-- The value of a key in a list of pairs. -/
def assoc {α : Type} (xs : List (Nat × α)) (k : Nat) : Option α :=
  match xs with
  | [] => none
  | (a, v) :: r => if a = k then some v else assoc r k

/-- A list of pairs with `k` bound to `v` alone. -/
def bindTo {α : Type} (xs : List (Nat × α)) (k : Nat) (v : α) : List (Nat × α) :=
  (k, v) :: xs.filter (fun x => x.1 ≠ k)

/-- A list of pairs without `k`. -/
def unbind {α : Type} (xs : List (Nat × α)) (k : Nat) : List (Nat × α) := xs.filter (fun x => x.1 ≠ k)

/-- Bits `hi` to `lo` of a word, as a number (R9). -/
def wbits (w : Word) (hi lo : Nat) : Nat := w.toNat / 2 ^ lo % 2 ^ (hi + 1 - lo)

/-- Eight bytes of a number. -/
def le8 (v : Nat) : List Byte := leBytes 8 v

end Sys2Proof.Machine
end

