-- ==== Sys2Proof/Machine/Space.lean ====
section
/-! DEFINITION. Address windows, physical regions, page tables and translation (R156 to R166), and the numbering of
cores and dies (R3, R44). -/

namespace Sys2Proof.Machine

/-! ## Cores -/

/-- Live cores per die of a grade (R2). (DESIGN CHOICE: log 5.) -/
def perDie (g : Grade) : Nat :=
  match g with
  | .g256 => 32 | .g240 => 30 | .g224 => 28 | .g224L => 28

/-- The number of a grade (R48). -/
def gradeCode (g : Grade) : Nat :=
  match g with
  | .g256 => 0 | .g240 => 1 | .g224 => 2 | .g224L => 3

/-- How many of the low `p` bits of a bitmap are 1. -/
def onesBelow (m : BitVec 32) (p : Nat) : Nat := ((List.range p).filter (fun i => m.getLsbD i)).length

/-- The die of a physical core number, and of a number that `dispNo` gives. -/
def dieOf (c : Nat) : Nat := c / 32 % 8

/-- The number under which the dispatcher of die `d` makes access `u`, beside the numbers of cores. -/
def dispNo (d u : Nat) : Nat := 1024 * u + 256 + 32 * d

/-- The number under which the crown die makes access `u`. -/
def crownNo (u : Nat) : Nat := 1024 * u + 512

/-- A number is one of the crown die's. -/
def isCrownNo (c : Nat) : Bool := c / 512 % 2 == 1

/-- A die's enumeration; number 8 and above name none. -/
def State.die (s : State) (d : Nat) : DieEnum := s.dies.toList.getD d DieEnum.init

/-- The logical number of a physical core (R3). -/
def State.logical (s : State) (c : Nat) : Nat :=
  dieOf c * perDie s.grade + onesBelow (s.die (dieOf c)).live (c % 32)

/-- The physical number of a logical core (R3). (DESIGN CHOICE: log 5.) -/
def State.physical (s : State) (l : Nat) : Nat :=
  let d := l / perDie s.grade
  let k := l % perDie s.grade
  let live := (s.die d).live
  32 * d + ((List.range 32).filter (fun p => live.getLsbD p && onesBelow live p == k)).headD 0

/-- A physical core that is live, not marked offline, on a die that is online (R3, R44, R48). -/
def State.online (s : State) (c : Nat) : Bool :=
  let d := s.die (dieOf c)
  decide (c < 256) && d.dieok && d.live.getLsbD (c % 32) && !d.offline.getLsbD (c % 32)

/-- A core by its physical number: the one in focus, one of the others, or one never used. (DESIGN CHOICE: log 13.) -/
def State.coreAt (s : State) (c : Nat) : Core :=
  if s.core.id = c then s.core else (s.others.find? (fun k => k.id == c)).getD (Core.init c)

/-- Brings core `c` into focus. (DESIGN CHOICE: log 13.) -/
def State.focus (s : State) (c : Nat) : State :=
  if s.core.id = c then s
  else { s with core := s.coreAt c, others := s.core :: s.others.filter (fun k => k.id ≠ c) }

/-- Changes core `c`, wherever it stands. (DESIGN CHOICE: log 13.) -/
def State.onCore (s : State) (c : Nat) (f : Core → Core) : State :=
  if s.core.id = c then { s with core := f s.core }
  else { s with others := f (s.coreAt c) :: s.others.filter (fun k => k.id ≠ c) }

/-- The state as the agent of number `n` reads it: its routes, its translations and what has come back for it. -/
def State.as (s : State) (n : Nat) : State := { s with core := Core.init n }

/-- Every core that has been used. (DESIGN CHOICE: log 13.) -/
def State.cores (s : State) : List Core := s.core :: s.others

/-- Scratchpad granules of a partition (R28). -/
def Partw.sg (p : Partw) : Nat := 48 - p.tg - p.zg

/-- Bytes of a core's scratchpad (R28, R36). -/
def Core.scratchSize (c : Core) : Nat := c.partw.sg * Config.granule

/-- The pool byte of scratchpad offset 0 (R192). -/
def Core.scratchBase (c : Core) : Nat := (c.partw.tg + c.partw.zg) * Config.granule

/-- A launch by number. -/
def State.launch (s : State) (l : Nat) : Option Launch := s.launches.find? (fun x => x.id == l)

/-- The launch of a core's task. -/
def State.launchOf (s : State) (c : Core) : Option Launch := c.task.bind (fun t => s.launch t.launch)

/-- The ASID of a core's task (R155); 0 where it holds none. -/
def State.asidOf (s : State) (c : Core) : Nat :=
  match s.launchOf c with
  | some l => l.lr.asid
  | none => 0

/-- The placement slot of a core's task. -/
def Core.slotNo (c : Core) : Nat :=
  match c.task with
  | some t => t.slot
  | none => 0

/-! ## Cause codes (R182) -/

namespace Cause
def trap : Cause := 0x01
def illegal : Cause := 0x02
def regAbsent : Cause := 0x03
def operandForm : Cause := 0x04
def scratchRange : Cause := 0x05
def holdEmpty : Cause := 0x06
def shapeBad : Cause := 0x07
def pprogBad : Cause := 0x08
def barrierAbsent : Cause := 0x09
def troyOrder : Cause := 0x0A
def formatAbsent : Cause := 0x0B
def windowBad : Cause := 0x20
def privateRange : Cause := 0x21
def scratchForeign : Cause := 0x22
def clusterForeign : Cause := 0x23
def pageAbsent : Cause := 0x28
def pageProtect : Cause := 0x29
def stallLimit : Cause := 0x2A
def pteBad : Cause := 0x2B
def zeroPivot : Cause := 0x30
def notPd : Cause := 0x31
def zeroDiag : Cause := 0x32
def elemOverflow : Cause := 0x38
def elemRange : Cause := 0x39
def elemNan : Cause := 0x3A
def poisonJoin : Cause := 0x40
def poisonLine : Cause := 0x41
def dataPoison : Cause := 0x48
def checkFail : Cause := 0x49
def memUe : Cause := 0x4A
def doubleTrap : Cause := 0x4B
def saveLost : Cause := 0x4C
def commitLost : Cause := 0x4D
end Cause

/-- Causes that go to the replay lane (kind Y of R182). -/
def isReplayable (c : Cause) : Bool := c == Cause.pageAbsent || c == Cause.pageProtect || c == Cause.stallLimit

/-- Causes fatal to the context (kind F of R182). -/
def isFatal (c : Cause) : Bool :=
  c == Cause.pteBad || c == Cause.dataPoison || c == Cause.doubleTrap || c == Cause.saveLost ||
  c == Cause.commitLost

/-- Causes raised by a factorisation (R308). -/
def isFactor (c : Cause) : Bool := c == Cause.zeroPivot || c == Cause.notPd || c == Cause.zeroDiag

/-- Causes of element faults: TADDR and the rest of TINFO take the element form (R181). -/
def isElement (c : Cause) : Bool := c == Cause.elemOverflow || c == Cause.elemRange || c == Cause.elemNan

/-! ## Windows (R156 to R159) -/

/-- Where an address leads: memory at a GLOBAL address, the own scratchpad, or a peer's. -/
inductive Target where
  | mem (va : Nat)
  | scratch (off : Nat)
  | clus (pos off : Nat)
  deriving DecidableEq, Repr

/-- The physical number of the peer at a position of the core's cluster (R44). -/
def Core.peer (c : Core) (pos : Nat) : Nat := c.id / 8 * 8 + pos

/-- A core that holds a task of the same context and is not being saved, restored or wiped (R159). -/
def State.peerOk (s : State) (c : Core) (pos : Nat) : Bool :=
  let q := s.coreAt (c.peer pos)
  s.online (c.peer pos) &&
  (match q.task, c.task with
   | some a, some b => a.launch == b.launch && q.status != .saving && q.status != .idle
   | _, _ => false)

/-- The checks of R156 that need no peer, for an access of `n` bytes by core `c`. A PRIVATE address past the top of GLOBAL wraps
(R157). (DESIGN CHOICE: log 88.) -/
def State.window (s : State) (c : Core) (va : Word) (n : Nat) : Except Cause Target :=
  let top := wbits va 63 56
  let off := wbits va 31 0
  if top < 0x80 then
    if wbits va 63 57 ≠ 0 then .error Cause.windowBad else .ok (.mem (wbits va 56 0))
  else if top = 0xF0 then
    match assoc s.descs (s.asidOf c) with
    | none => .error Cause.pageAbsent
    | some d =>
      let o := wbits va 55 0
      if 2 ^ d.psz < o + n then .error Cause.privateRange
      else .ok (.mem ((d.privbase + c.slotNo * 2 ^ d.psz + o) % 2 ^ 57))
  else if top = 0xF8 then
    if wbits va 47 32 ≠ 0 then .error Cause.windowBad
    else if wbits va 55 48 ≠ s.logical c.id then .error Cause.scratchForeign
    else if c.scratchSize < off + n then .error Cause.scratchRange
    else .ok (.scratch off)
  else if top = 0xF9 then
    if wbits va 55 51 ≠ 0 || wbits va 47 32 ≠ 0 then .error Cause.windowBad
    else if c.id % 8 = wbits va 50 48 then
      if c.scratchSize < off + n then .error Cause.scratchRange else .ok (.scratch off)
    else .ok (.clus (wbits va 50 48) off)
  else .error Cause.windowBad

/-- The checks made at the peer's bank (R159). (DEDUCED: log 58; DEDUCED: log 97.) -/
def State.clusCheck (s : State) (c : Core) (pos off n : Nat) : Option Cause :=
  if !s.peerOk c pos then some Cause.clusterForeign
  else if (s.coreAt (c.peer pos)).scratchSize < off + n then some Cause.scratchRange
  else none

/-- Every check of R156 for an access of `n` bytes by core `c`. -/
def State.target (s : State) (c : Core) (va : Word) (n : Nat) : Except Cause Target :=
  match s.window c va n with
  | .ok (.clus pos off) =>
    (match s.clusCheck c pos off n with
     | some e => .error e
     | none => .ok (.clus pos off))
  | r => r

/-! ## Physical addresses (R161) -/

/-- Regions of the physical address space. -/
inductive Region where
  | dram (die off : Nat)
  | endpoint
  | regs
  | remote
  | none
  deriving DecidableEq, Repr

/-- The region of a physical address (R161). -/
def State.region (s : State) (pa : Nat) : Region :=
  let r := pa / 2 ^ 48
  if r = 0 then
    if pa / 2 ^ 40 ≠ 0 then .none
    else if (s.die (pa / 2 ^ 37)).dieok then .dram (pa / 2 ^ 37) (pa % 2 ^ 37) else .none
  else if r = 1 then (if pa / 2 ^ 43 % 32 = 0 then .endpoint else .none)
  else if r = 2 then .regs
  else if 8 ≤ r ∧ r < 16 then .remote
  else .none

/-- An address of another package (R161). -/
def isRemote (pa : Nat) : Bool := decide (8 ≤ pa / 2 ^ 48) && decide (pa / 2 ^ 48 < 16)

/-- A range of local DRAM meets firmware-reserved memory (R161). (DESIGN CHOICE: log 106.) -/
def State.reserved (s : State) (pa n : Nat) : Bool :=
  match s.region pa with
  | .dram _ off => decide (Config.reservedBase < off + n)
  | _ => false

/-- The capability area (R47): the start of the reserved memory of the lowest-numbered online die. (DEDUCED: log 76.) -/
def State.capArea (s : State) : Nat :=
  ((List.range 8).filter (fun d => (s.die d).dieok)).headD 0 * Config.dieBytes + Config.reservedBase

/-! ## Distance (R46) -/

/-- Cube link `k` of die `d` is up at both ends. -/
def State.linkUp (s : State) (d k : Nat) : Bool :=
  let e := d ^^^ 2 ^ k
  (s.die d).links.getLsbD k && (s.die e).links.getLsbD k

/-- Dies within `n` links of die `d`. -/
def State.within (s : State) (d n : Nat) : List Nat :=
  match n with
  | 0 => [d]
  | k + 1 =>
    let r := s.within d k
    (List.range 8).filter (fun e => r.contains e || (List.range 3).any (fun l => r.contains (e ^^^ 2 ^ l) && s.linkUp e l))

/-- The latency class of a pair of dies: the links on the shortest route, 15 when there is none (R46). -/
def State.latency (s : State) (a b : Nat) : Nat :=
  ((List.range 8).find? (fun n => (s.within a n).contains b)).getD 15

/-- The Oxlink ports that are up and that a die reaches (R368, R369). -/
def State.farPorts (s : State) (d : Nat) : List Nat :=
  (List.range 16).filter (fun p => wbits (s.ox.ports.toList.getD p 0) 2 0 == 1 && s.latency d (p / 2) != 15)

/-- No route is left from a die to the home of an address (R367): over the cube links, over the crown link to a root port, over an
Oxlink port to another package. (DEDUCED: log 62.) -/
def State.noRouteAt (s : State) (d pa : Nat) : Bool :=
  match s.region pa with
  | .dram e _ => s.latency d e == 15
  | .endpoint | .regs => !((List.range 8).any (fun e => (s.die e).crown && s.latency d e != 15))
  | .remote => (s.farPorts d).isEmpty
  | .none => false

/-- The Oxlink ports that are up and that the crown die reaches (R368, R369). -/
def State.crownPorts (s : State) : List Nat :=
  (List.range 16).filter (fun p => wbits (s.ox.ports.toList.getD p 0) 2 0 == 1 &&
    (List.range 8).any (fun e => (s.die e).crown && s.latency e (p / 2) != 15))

/-- The Oxlink ports that an agent reaches, by its number. -/
def State.portsOf (s : State) (n : Nat) : List Nat := if isCrownNo n then s.crownPorts else s.farPorts (dieOf n)

/-- No route is left from the crown die to the home of an address (R367): over a crown link to its die, or to an Oxlink port. The root
ports and the register blocks are its own. (DEDUCED: log 62.) -/
def State.crownLost (s : State) (pa : Nat) : Bool :=
  match s.region pa with
  | .dram d _ => !(List.range 8).any (fun e => (s.die e).crown && s.latency e d != 15)
  | .remote => s.crownPorts.isEmpty
  | _ => false

/-- The unit number of the link that the way from a die to an address has lost (R198): a dead cube link, 73 to 75, between the dies
that it still reaches and the others, or 76, a crown link. (DEDUCED: log 62.) -/
def State.lostLink (s : State) (d pa : Nat) : Nat :=
  match s.region pa with
  | .dram _ _ =>
    73 + ((List.range 3).find? (fun k => (List.range 8).any (fun e =>
      s.latency d e != 15 && s.latency d (e ^^^ 2 ^ k) == 15 && !s.linkUp e k))).getD 3
  | _ => 76

/-- No route is left from a core's die, or from another agent of a core's number, to the home of an address (R367).
(DEDUCED: log 62.) -/
def State.noRoute (s : State) (c : Core) (pa : Nat) : Bool :=
  if isCrownNo c.id then s.crownLost pa else s.noRouteAt (dieOf c.id) pa

/-- The sector of another package at an address, where it has come back for the core in focus (R368). -/
def State.farSect (s : State) (pa : Nat) : Option Sect :=
  (s.ox.got.find? (fun x => x.core == s.core.id && x.pa == pa / 32 * 32)).map FarSect.sect

/-- A run of physical bytes holds poisoned data: of this package's memory, or of another's as it came back (R196, R197). -/
def State.isPoison (s : State) (pa n : Nat) : Bool :=
  s.poison.any (fun k => decide (32 * k < pa + n) && decide (pa < 32 * k + 32)) ||
  s.ox.got.any (fun x => x.core == s.core.id && x.sect.bad && decide (x.pa < pa + n) && decide (pa < x.pa + 32))

/-! ## Page tables (R162 to R166) -/

/-- Kinds of access for the permission check (R164). -/
inductive Acc where
  | read | write | rmw | fetch
  deriving DecidableEq, Repr

/-- Page classes (R105). -/
inductive PClass where
  | strm | seq | loose
  deriving DecidableEq, Repr

/-- A translated address: where it lies, the bytes left on its page, and what the leaf says. -/
structure Phys where
  pa    : Nat
  left  : Nat
  cls   : PClass
  scope : Scope
  /-- 0 cached, 1 uncached, 2 device. -/
  cache : Nat
  deriving DecidableEq, Repr

/-- Bits of a table entry. -/
def ebit (e i : Nat) : Bool := e / 2 ^ i % 2 == 1

/-- The faults of a leaf at a level whose pages hold `size` bytes (R164). (DESIGN CHOICE: log 106; DESIGN CHOICE: log 117.) -/
def State.leafBad (s : State) (lvl size e : Nat) : Bool :=
  let pa := e / 2 ^ 8 % 2 ^ 44 * 2 ^ 8
  decide (lvl < 2) || pa % size != 0 || e / 2 ^ 58 % 4 == 3 || e / 2 ^ 56 % 4 == 3 ||
  s.region pa == .none ||
  (s.reserved pa size && !(lvl == 4 && pa == s.capArea && !ebit e 54 && !ebit e 55))

/-- The levels of the tree: first index bit, entries, bytes of a leaf's page (R162). -/
def levels : List (Nat × Nat) := [(48, 512), (39, 512), (30, 512), (21, 512), (16, 32)]

/-- The table entry at a physical address. Walkers read through the LLC, which holds local DRAM alone: what an entry anywhere else
reads as is left open (R107, R164). (DESIGN CHOICE: log 126.) -/
def State.tableEntry (s : State) (pa : Nat) : Nat :=
  match s.region pa with
  | .dram _ _ => leVal (s.mem.bytes pa 8)
  | _ => leVal ((List.range 8).map (fun i => Config.freeByte s.fresh (pa + i)))

/-- Copies that the walkers of the die in focus hold of the table entry for `size` bytes at an address, where they differ from the
entry `e` in memory (R166); the crown die's walks use none. (DESIGN CHOICE: log 120.) -/
def State.copies (s : State) (asid va size e : Nat) : List Nat :=
  ((s.tlb.filter (fun t => t.home == .walk (dieOf s.core.id) && !isCrownNo s.core.id && t.asid == asid && t.size == size && t.vpage == va / size &&
    t.leaf != e)).map TlbEnt.leaf).eraseDups

/-- The table entry at `at'` that a walk uses: what memory holds, or any copy that differs (R166). One that is poisoned, or that no
route reaches, is data consumed (R197, R367). (DEDUCED: log 64; DESIGN CHOICE: log 105; DESIGN CHOICE: log 126.) -/
def State.walkEntry (s : State) (asid va size at' : Nat) : Option Nat :=
  let e := s.tableEntry at'
  let old := s.copies asid va size e
  let now := if s.isPoison at' 8 || s.noRoute s.core at' then none else some e
  if old = [] then now
  else match old[Config.freeNat s.fresh at' % (old.length + 1)]? with
    | some c => some c
    | none => now

/-- The walk from the table at `t` (R164): the table entries that lead to the leaf, each with the bytes it stands for, and the leaf
with the bytes of its page. -/
def State.walkFrom (s : State) (asid va : Nat) (lv : List (Nat × Nat)) (lvl t : Nat) :
    Except Cause (List (Nat × Nat) × Nat × Nat) :=
  match lv with
  | [] => .error Cause.pteBad
  | (sh, n) :: r =>
    match s.walkEntry asid va (2 ^ sh) (t + 8 * (va / 2 ^ sh % n)) with
    | none => .error Cause.dataPoison
    | some e =>
      if !ebit e 0 then .error Cause.pageAbsent
      else if e / 2 ^ 62 ≠ 0 || ebit e 52 || e / 4 % 64 ≠ 0 then .error Cause.pteBad
      else if ebit e 1 then
        if s.leafBad lvl (2 ^ sh) e then .error Cause.pteBad else .ok ([], e, 2 ^ sh)
      else if lvl = 4 || e / 2 ^ 53 % 2 ^ 9 ≠ 0 then .error Cause.pteBad
      else
        let t' := e / 2 ^ 8 % 2 ^ 44 * 2 ^ 8
        if lvl < 3 && t' % 2 ^ 12 ≠ 0 then .error Cause.pteBad
        else (s.walkFrom asid va r (lvl + 1) t').map (fun x => ((2 ^ sh, e) :: x.1, x.2))

/-- The first table entry of the walk from the table at `t` that no route reaches (R367). -/
def State.lostFrom (s : State) (asid va : Nat) (lv : List (Nat × Nat)) (t : Nat) : Option Nat :=
  match lv with
  | [] => none
  | (sh, n) :: r =>
    let a := t + 8 * (va / 2 ^ sh % n)
    match s.walkEntry asid va (2 ^ sh) a with
    | none => if s.noRoute s.core a then some a else none
    | some e => if ebit e 0 && !ebit e 1 then s.lostFrom asid va r (e / 2 ^ 8 % 2 ^ 44 * 2 ^ 8) else none

/-- The table entry that a walk cannot reach for want of a route (R367). -/
def State.walkLost (s : State) (asid va : Nat) : Option Nat :=
  (assoc s.descs asid).bind (fun d => s.lostFrom asid va levels (d.root * 2 ^ 12))

/-- A walk of the tables of an address space (R164). -/
def State.walk (s : State) (asid va : Nat) : Except Cause (List (Nat × Nat) × Nat × Nat) :=
  match assoc s.descs asid with
  | none => .error Cause.pageAbsent
  | some d => s.walkFrom asid va levels 0 (d.root * 2 ^ 12)

/-- The leaf of a GLOBAL address in an address space (R164), as a walk finds it. -/
def State.leafOf (s : State) (asid va : Nat) : Except Cause (Nat × Nat) := (s.walk asid va).map Prod.snd

/-- The cluster of a core, numbered in the package. -/
def padOf (c : Nat) : Nat := c / 8

/-- A TLB that the core in focus translates through (R166): a dispatcher through its die's L3, the crown die through none.
(DESIGN CHOICE: log 120.) -/
def State.ownTlb (s : State) (h : TlbHome) : Bool :=
  match h with
  | .l1 c => c == s.core.id
  | .l2 k => k == padOf s.core.id
  | .l3 d => d == dieOf s.core.id && !isCrownNo s.core.id
  | .walk _ => false

/-- Leaves that the TLBs of the core in focus hold for an address. -/
def State.cached (s : State) (asid va : Nat) : List (Nat × Nat) :=
  ((s.tlb.filter (fun t => s.ownTlb t.home && t.asid == asid && t.vpage == va / t.size)).map (fun t => (t.leaf, t.size))).eraseDups

/-- The leaf an access uses: where cached entries differ from the tables, any of them or what the tables hold (R166).
(DEDUCED: log 64.) -/
def State.leafUsed (s : State) (asid va : Nat) : Except Cause (Nat × Nat) :=
  let now := s.leafOf asid va
  let old := (s.cached asid va).filter (fun e => match now with | .ok x => e != x | .error _ => true)
  if old = [] then now
  else match old[Config.freeNat s.fresh va % (old.length + 1)]? with
    | some e => .ok e
    | none => now

/-- The permissions an access needs (R164). -/
def permits (e : Nat) (k : Acc) : Bool :=
  match k with
  | .read => ebit e 53
  | .write => ebit e 54
  | .rmw => ebit e 53 && ebit e 54
  | .fetch => ebit e 55

/-- The scope a two-bit field names (R87). -/
def scopeOf (n : Nat) : Scope :=
  match n with
  | 0 => .core | 1 => .clus | 2 => .pkg | _ => .sys

/-- Where a leaf sends an address. -/
def physOf (e size va : Nat) : Phys :=
  let pa := e / 2 ^ 8 % 2 ^ 44 * 2 ^ 8 + va % size
  { pa := pa, left := size - va % size,
    cls := match e / 2 ^ 58 % 4 with | 1 => .seq | 2 => .loose | _ => .strm,
    scope := scopeOf (e / 2 ^ 60 % 4),
    cache := if 8 ≤ pa / 2 ^ 48 then 1 else e / 2 ^ 56 % 4 }

/-- Translates a GLOBAL address (R164). -/
def State.translate (s : State) (asid va : Nat) (k : Acc) : Except Cause Phys :=
  match s.leafUsed asid va with
  | .error c => .error c
  | .ok (e, z) => if permits e k then .ok (physOf e z va) else .error Cause.pageProtect

/-- The first `n` entries of a TLB are kept, and every entry of others. -/
def capTlb (h : TlbHome) (n : Nat) (ts : List TlbEnt) : List TlbEnt :=
  match ts with
  | [] => []
  | t :: r =>
    if t.home = h then
      (match n with
       | 0 => capTlb h 0 r
       | k + 1 => t :: capTlb h k r)
    else t :: capTlb h n r

/-- Entries of a TLB (R27, R166): 64 in an L1, 4,096 in an L2, 32 banks of 4,096 in an L3; what walkers hold has no size. -/
def TlbHome.cap (h : TlbHome) : Option Nat :=
  match h with
  | .l1 _ => some 64 | .l2 _ => some 4096 | .l3 _ => some 131072 | .walk _ => none

/-- An entry joins its TLB; the oldest goes when the TLB is full. -/
def addTlb (ts : List TlbEnt) (t : TlbEnt) : List TlbEnt :=
  if ts.contains t then ts
  else match t.home.cap with
    | some n => capTlb t.home n (t :: ts)
    | none => t :: ts

/-- What an access of the core in focus leaves in the TLBs of its three levels and in the walkers of its die: its leaf, and the table
entries of a walk that leads to it (R166). -/
def State.tlbNews (s : State) (asid va e z : Nat) : List TlbEnt :=
  (match s.walk asid va with
   | .ok x => if x.2 = (e, z) then x.1.map (fun y => ⟨.walk (dieOf s.core.id), asid, va / y.1, y.1, y.2⟩) else []
   | .error _ => []) ++
  [TlbHome.l3 (dieOf s.core.id), .l2 (padOf s.core.id), .l1 s.core.id].map (fun h => ⟨h, asid, va / z, z, e⟩)

/-- Records the translation that an access of the core in focus used; a walk that faults is never cached (R166).
(DEDUCED: log 64.) -/
def State.noteTlb (s : State) (asid va : Nat) (k : Acc) : State :=
  match s.leafUsed asid va with
  | .error _ => s
  | .ok (e, z) =>
    if permits e k then
      { s with tlb := (s.tlbNews asid va e z).foldl addTlb s.tlb }
    else s

/-- A part of an access (R105, R106). -/
def partOf (p : Phys) (n : Nat) : Part :=
  { pa := p.pa, n := n, loose := p.cls == .loose, cached := p.cache == 0,
    seq := if p.cls = .seq then some p.scope else none, ends := true }

/-- The parts of an access of `n` bytes at a GLOBAL address: one, or two split at a page boundary, lower first
(R106). -/
def State.partsAt (s : State) (asid va n : Nat) (k : Acc) : Except Cause (List Part) :=
  match s.translate asid va k with
  | .error c => .error c
  | .ok p =>
    if n ≤ p.left then .ok [partOf p n]
    else if 2 ^ 57 ≤ va + p.left then .error Cause.windowBad
    else match s.translate asid (va + p.left) k with
      | .error c => .error c
      | .ok q => .ok [partOf p p.left, partOf q (n - p.left)]

/-- The sectors of a part, in ascending address order; the last ends the part (R95). (DEDUCED: log 59.) -/
def sectorsOf (p : Part) (fuel : Nat) : List Part :=
  match fuel with
  | 0 => []
  | k + 1 =>
    let m := 32 - p.pa % 32
    if p.n ≤ m then [p]
    else { p with n := m, ends := false } :: sectorsOf { p with pa := p.pa + m, n := p.n - m } k

end Sys2Proof.Machine
end

