-- ==== Sys2Proof/Machine/Ops.lean ====
section
/-! DEFINITION. The named operations of a core: register reads and writes, scratchpad lines, the gate and its commit,
rollback, the trap lanes, taking a trap and returning from one (R17, R31, R175 to R189). -/

namespace Sys2Proof.Machine

/-- The outcome of a step of this machine. -/
abbrev Out := Host.Outcome State Fault Refusal

/-- Changes the core in focus. -/
def State.onC (s : State) (f : Core → Core) : State := { s with core := f s.core }

/-- Changes the shadowed registers of the core in focus. -/
def State.onA (s : State) (f : Arch → Arch) : State := s.onC (fun c => { c with arch := f c.arch })

/-! ## Registers -/

/-- Reads an S register; S0 reads 0 (R42). -/
def Arch.rs (a : Arch) (r : SReg) : Word := if r = 0 then 0 else a.s[r.val]
/-- Reads a P register; P0 reads true (R42). -/
def Arch.rp (a : Arch) (r : PReg) : Bool := if r = 0 then true else a.p[r.val]
/-- Writes an S register; a write to S0 is discarded (R42). -/
def Arch.ws (a : Arch) (r : SReg) (v : Word) : Arch := if r = 0 then a else { a with s := a.s.set r.val v }
/-- Writes a P register; a write to P0 is discarded (R42). -/
def Arch.wp (a : Arch) (r : PReg) (v : Bool) : Arch := if r = 0 then a else { a with p := a.p.set r.val v }

/-- An S register as the bundle found it (R17). (DEDUCED: log 12.) -/
def State.rs (s : State) (r : SReg) : Word := s.core.src.rs r
/-- A P register as the bundle found it (R17). -/
def State.rp (s : State) (r : PReg) : Bool := s.core.src.rp r
/-- Writes an S register of the core in focus. (DEDUCED: log 12.) -/
def State.ws (s : State) (r : SReg) (v : Word) : State := s.onA (fun a => a.ws r v)
/-- Writes a P register of the core in focus. -/
def State.wp (s : State) (r : PReg) (v : Bool) : State := s.onA (fun a => a.wp r v)
/-- ORs flags into XFLAGS (R66). -/
def State.flag (s : State) (f : BitVec 6) : State := s.onA (fun a => { a with xflags := a.xflags ||| f })

/-- Applies a change both to the registers and to their shadow: results of loads and engine threads of committed
bundles, which no rollback removes (R89, R178). -/
def Core.both (c : Core) (f : Arch → Arch) : Core := { c with arch := f c.arch, ckpt := f c.ckpt }

/-! ## Scratchpad lines (R30 to R33) -/

/-- The state of a line. -/
def Core.line (c : Core) (l : Nat) : LineCode := (assoc c.lines l).getD .empty

/-- Frees the engine records kept for lines that are no longer poisoned by them (R185, R186). -/
def Core.gcRecs (c : Core) : Core :=
  { c with recs := c.recs.filter (fun r => !(r.2.retired && !c.plinks.any (fun p => p.2 == r.1))) }

/-- Reading line `l` no longer observes an earlier thread. -/
def Core.unfill (c : Core) (l : Nat) : Core :=
  { c with recs := c.recs.map (fun r => (r.1, { r.2 with filled := r.2.filled.filter (fun k => k ≠ l) })) }

/-- One of the lines stands FULL as a thread forked before number `u` left it, and that thread has not ended: what reads the line
follows all of the thread's accesses (R99). -/
def Core.filling (c : Core) (u : Nat) (ls : List Nat) : Bool :=
  c.threads.any (fun t => decide (t.id < u) && c.recs.any (fun r => r.1 == t.recIx && r.2.flt.isNone &&
    ls.any (fun l => r.2.filled.contains l && c.line l == .full)))

/-- The registers `ms` are written anew: reading them observes no thread that has ended before (R99). -/
def Core.unmake (c : Core) (ms : List TZ) : Core :=
  { c with recs := c.recs.map (fun r =>
      if r.2.flt.isSome then (r.1, { r.2 with regs := r.2.regs.filter (fun z => !ms.contains z) }) else r) }

/-- Sets the state of a line; it keeps no link to an engine record. -/
def Core.setLine (c : Core) (l : Nat) (st : LineCode) : Core :=
  ({ c with lines := if st = .empty then unbind c.lines l else bindTo c.lines l st,
            plinks := unbind c.plinks l } : Core).unfill l |>.gcRecs

/-- Poisons a line for an engine record (R31, R186). -/
def Core.poisonLine (c : Core) (l recIx : Nat) : Core :=
  { c with lines := bindTo c.lines l .pois, plinks := bindTo c.plinks l recIx }

/-- The lowest engine record not in use (R185). -/
def Core.freeRec (c : Core) : Nat := ((List.range Config.engRecs).filter (fun i => (assoc c.recs i).isNone)).headD 0

/-- The TINFO of an engine cause that is no element fault (R181): ECAUSE and FORKOFF. (DEDUCED: log 35.) -/
def engInfo (cause : Cause) (forkoff : Nat) : Word := BitVec.ofNat 64 (cause * 2 ^ 56 + forkoff % 2 ^ 32)

/-- A number joins a list that does not hold it. -/
def addOnce (l : List Nat) (n : Nat) : List Nat := if l.contains n then l else n :: l

/-- A sector of the own scratchpad holds poisoned data, and its line is POISONED with a record of cause DATA_POISON, where one is
free (R197). -/
def Core.strikeLine (c : Core) (off : Nat) : Core :=
  let c := { c with badPool := addOnce c.badPool ((c.scratchBase + off) / 32) }
  if c.recs.length < Config.engRecs then
    let r : EngRec := ⟨c.forks, 0, [], [], some ⟨Cause.dataPoison, BitVec.ofNat 64 off, engInfo Cause.dataPoison 0⟩, true⟩
    ({ c with recs := bindTo c.recs c.freeRec r } : Core).poisonLine (off / 128) c.freeRec
  else c.setLine (off / 128) .pois

/-- Poisoned sectors but those that runs of bytes write whole (R197). -/
def healed (ks : List Nat) (rs : List (Nat × List Byte)) : List Nat :=
  ks.filter (fun k => !(List.range 32).all (fun b => rs.any (fun r => decide (r.1 ≤ 32 * k + b) && decide (32 * k + b < r.1 + r.2.length))))

/-- Writes runs of the pool; a sector that they write whole is poisoned no longer (R197). -/
def Core.putRuns (c : Core) (rs : List (Nat × List Byte)) : Core := { c with pool := c.pool.puts rs, badPool := healed c.badPool rs }

/-- Writes bytes of the own scratchpad. -/
def Core.writeScratch (c : Core) (off : Nat) (bs : List Byte) : Core :=
  { c with pool := c.pool.put (c.scratchBase + off) bs, badPool := healed c.badPool [(c.scratchBase + off, bs)] }

/-- Sectors that a run of bytes covers whole, and whether it covers all four of line `l` (R31). (DEDUCED: log 37.) -/
def coversLine (off n l : Nat) : Bool := decide (off ≤ 128 * l) && decide (128 * l + 128 ≤ off + n)

/-- A core store to the own scratchpad: a line whose four sectors it writes becomes FULL unless it is POISONED; a
smaller store leaves the states (R31). (DEDUCED: log 37.) -/
def Core.storeScratch (c : Core) (off : Nat) (bs : List Byte) : Core :=
  let c := c.writeScratch off bs
  let first := off / 128
  (List.range (bs.length / 128 + 2)).foldl (fun c i =>
    let l := first + i
    if coversLine off bs.length l && c.line l == .empty then c.setLine l .full else c) c

/-- A core's store to a scratchpad is performed: the lines of its poisoned sectors become POISONED (R31, R197). -/
def Core.landStore (c : Core) (off : Nat) (p : PStore) : Core :=
  p.bad.foldl (fun c k => c.strikeLine (32 * k)) (c.storeScratch off p.bytes)

/-! ## Copies of lines (R92, R107) -/

/-- A line goes out of the L1, and what was read of it ahead. -/
def Core.l1Drop (c : Core) (line : Nat) : Core :=
  { c with l1 := unbind c.l1 line, ahead := c.ahead.filter (fun a => a.line ≠ line), badL1 := c.badL1.filter (fun k => k ≠ line) }

/-- The core has read parts of memory at their home: it keeps no older copy of their lines (R92). -/
def Core.dropParts (c : Core) (ps : List Part) : Core :=
  ps.foldl (fun c p => (List.range ((p.pa + p.n - 1) / 128 + 1 - p.pa / 128)).foldl (fun c i => c.l1Drop (p.pa / 128 + i)) c) c

/-! ## The gate (R176, R177) -/

/-- Lays the bytes at `o` over those at `a`. -/
def overlay (a : Nat) (cur : List Byte) (o : Nat) (bs : List Byte) : List Byte :=
  cur.mapIdx (fun i b => if o ≤ a + i ∧ a + i < o + bs.length then bs.getD (a + i - o) 0 else b)

/-- Stores of the core that have not been performed, oldest first: under way, held back, gated. -/
def Core.pending' (c : Core) : List PStore :=
  c.stores ++ c.held ++ c.gate.filterMap (fun e => match e with | .store p => some p | _ => none)

/-- Scratchpad bytes as the core itself reads them: its own stores that are not yet performed included (R89, R90).
(DEDUCED: log 84.) -/
def Core.scratchBytes (c : Core) (off n : Nat) : List Byte :=
  c.pending'.foldl (fun cur p =>
    match p.scratch with
    | some o => overlay off cur o p.bytes
    | none => cur) (c.pool.bytes (c.scratchBase + off) n)

/-- Bytes of the scratchpad of `q`, at position `pos` of the cluster, as core `c` reads them: its own stores there that are not
yet performed included (R89, R159). -/
def Core.peerBytes (c q : Core) (pos off n : Nat) : List Byte :=
  c.pending'.foldl (fun cur p =>
    match p.clus with
    | some (k, o) => if k = pos then overlay off cur o p.bytes else cur
    | none => cur) (q.pool.bytes (q.scratchBase + off) n)

/-- A store of the core to the own scratchpad that is not yet performed, with poisoned data in a range (R197). -/
def Core.padBad (c : Core) (off n : Nat) : Bool :=
  c.pending'.any (fun p => p.scratch.isSome && p.bad.any (fun k => decide (32 * k < off + n) && decide (off < 32 * k + 32)))

/-- A line's state as the core itself sees it: its own uncommitted changes included (R257). A peer sees `Core.line`. -/
def Core.lineView (c : Core) (l : Nat) : LineCode :=
  c.gate.foldl (fun st e =>
    match e with
    | .line first n st' => if first ≤ l ∧ l < first + n then st' else st
    | .consume k => if k = l then .empty else st
    | _ => st) (c.line l)

/-- The bytes of one store, in sectors of the gate (R177). -/
def GateEnt.sectors (e : GateEnt) : Nat :=
  match e with
  | .store st => if wbits st.va 4 0 + st.bytes.length ≤ 32 then 1 else 2
  | _ => 0

/-- Sectors in use (R177). -/
def Core.gateUse (c : Core) : Nat := (c.gate.map GateEnt.sectors).sum

/-- Raises a stream counter (R101). -/
def Core.cntUp (c : Core) (st : Fin 8) (n : Nat) : Core := { c with cnt := c.cnt.set st.val (c.cnt[st.val] + n) }
/-- Lowers a stream counter (R101). -/
def Core.cntDown (c : Core) (st : Fin 8) (n : Nat) : Core := { c with cnt := c.cnt.set st.val (c.cnt[st.val] - n) }
/-- Counts an access in the stream's sequence number (R101). -/
def Arch.seqUp (a : Arch) (st : Fin 8) (n : Nat) : Arch :=
  { a with seqn := a.seqn.set st.val (a.seqn[st.val] + BitVec.ofNat 16 n) }

/-- How many times a store counts on its stream: once per part (R106). -/
def PStore.count (p : PStore) : Nat := max 1 (p.parts.filter (fun x => x.ends)).length
/-- How many times a load counts on its stream. (DEDUCED: log 59.) -/
def PLoad.count (p : PLoad) : Nat := max 1 (p.parts.filter (fun x => x.ends)).length

/-! ## Order (R87 to R96, R105) -/

/-- A stand-in part for an access to a scratchpad: it lies on no page and shares no line with memory. -/
def peerPart : Part := ⟨2 ^ 60, 0, false, false, none, true⟩

/-- Parts of a load still to be performed. -/
def PLoad.rest (l : PLoad) : List Part := if l.parts = [] then [peerPart] else l.parts
/-- Parts of a store still to be performed. -/
def PStore.rest (p : PStore) : List Part := if p.parts = [] then [peerPart] else p.parts

/-- Two parts share a byte. -/
def Part.meets (a b : Part) : Bool := decide (a.pa < b.pa + b.n) && decide (b.pa < a.pa + a.n)
/-- Two parts have a line of 128 bytes in common (R105). -/
def Part.sameLine (a b : Part) : Bool :=
  decide (a.pa / 128 ≤ (b.pa + max b.n 1 - 1) / 128) && decide (b.pa / 128 ≤ (a.pa + max a.n 1 - 1) / 128)

/-- The str edge of R91 between an earlier part and a later one, as the page classes weaken or strengthen it (R105). It is drawn
whatever the later access's scope: the core's own engine threads are agents of every scope (R88). -/
def edge (xo : OrdF) (x : Part) (yo : OrdF) (y : Part) : Bool :=
  (xo.stream == yo.stream || y.seq.isSome || yo.pmask.getLsbD xo.stream.val) &&
  (!(x.loose || y.loose) || x.sameLine y)

/-- The streams that an access follows: its own and those of its mask, or all on a SEQ page (R98, R105). (DEDUCED: log 29.) -/
def followed (o : OrdF) (ps : List Part) : BitVec 8 :=
  if ps.any (fun p => p.seq.isSome) then 0xFF else o.pmask ||| (1 <<< o.stream.val)

/-- The bytes of the line of a part as the core read it ahead of its program, where an access `u` may still take them: since then no
access that it follows has been outstanding (R93). (DESIGN CHOICE: log 11.) -/
def Core.aheadOf (c : Core) (u : Nat) (o : OrdF) (p : Part) : Option (List Byte) :=
  if p.cached then
    (c.ahead.find? (fun a => a.line == p.pa / 128 && (List.range 8).all (fun k =>
      !(followed o [p]).getLsbD k || (a.since.toList.getD k none).all (fun v => decide (u ≤ v))))).map Ahead.bytes
  else none

/-- An access `u` on a stream is issued: what was read ahead is no longer read after the accesses before it. -/
def Core.passAhead (c : Core) (st : Fin 8) (u : Nat) : Core :=
  { c with ahead := c.ahead.map (fun a => { a with since := a.since.set st.val (a.since[st.val].or (some u)) }) }

/-- Loads and atomics that later accesses follow: a prefetch is no load (R258), and one that a rollback dropped takes no part
(R89). -/
def Core.ordLoads (c : Core) : List PLoad := c.loads.filter (fun l => !l.dropped && l.dest != .none)

/-- Two stores go to one scratchpad. -/
def PStore.samePad (x y : PStore) : Bool :=
  (x.scratch.isSome && y.scratch.isSome) || (x.clus.isSome && x.clus.map Prod.fst == y.clus.map Prod.fst)

/-- A load or atomic must wait for an earlier access of its core (R92, R93, R96): `p` its next part.
(DESIGN CHOICE: log 11.) -/
def Core.loadBlocked (c : Core) (l : PLoad) (p : Part) : Bool :=
  let rmw := match l.dest with | .atom .. => true | _ => false
  c.ordLoads.any (fun x => decide (x.uid < l.uid) && (rmw || x.rest.any (fun q => edge x.ord q l.ord p || q.meets p))) ||
  (c.stores ++ c.held).any (fun x => decide (x.uid < l.uid) && x.rest.any (fun q => edge x.ord q l.ord p || (rmw && q.meets p)))

/-- A store must wait for an earlier access of its core (R92, R93, R96). -/
def Core.storeBlocked (c : Core) (y : PStore) (p : Part) : Bool :=
  c.ordLoads.any (fun x => decide (x.uid < y.uid)) ||
  (c.stores ++ c.held).any (fun x => decide (x.uid < y.uid) &&
    (x.rest.any (fun q => edge x.ord q y.ord p || q.meets p) || x.samePad y))

/-- A store leaves the gate, or is held back while its stream's counter stands at 63 (R102).
(DEDUCED: log 21; DEDUCED: log 84.) -/
def Core.release (c : Core) (p : PStore) : Core :=
  if c.held ≠ [] ∨ Config.cntMax < c.cnt[p.ord.stream.val] + p.count then { c with held := c.held ++ [p] }
  else { c with stores := c.stores ++ [p] }.cntUp p.ord.stream p.count

/-- An entry of the gate takes effect at commit (R176). A store to the own scratchpad that nothing holds back is performed
at once (R90). (DEDUCED: log 84.) -/
def Core.applyGate (c : Core) (e : GateEnt) : Core :=
  match e with
  | .store p =>
    (match p.scratch with
     | some off => if c.held = [] && !c.storeBlocked p peerPart then c.landStore off p else c.release p
     | none => c.release p)
  | .line first n st => (List.range n).foldl (fun c i => c.setLine (first + i) st) c
  | .consume l => if c.line l = .full then c.setLine l .empty else c

/-- The interval commits: the gate's entries take effect in program order and the shadow becomes the registers
(R175, R176). (DEDUCED: log 27; DEDUCED: log 57.) -/
def Core.commit (c : Core) : Core :=
  let c := c.gate.foldl Core.applyGate c
  { c with gate := [], ckpt := c.arch, loads := c.loads.map (fun l => { l with committed := true }), atRp := true,
           arvSent := c.arvSent.filter (fun t => t ≠ c.ckpt.pc) }

/-- Rolls back to the last restart point (R178): the shadow is restored, uncommitted stores, line changes and loads
are discarded. (DEDUCED: log 27; DEDUCED: log 57.) -/
def Core.rollback (c : Core) : Core :=
  { c with arch := c.ckpt, gate := [], npc := none, closes := false, monitor := none, farUid := none, stall := 0, atRp := true, ended := true,
           loads := c.loads.map (fun l => if l.committed then l else { l with dropped := true }) }

/-! ## Trap lanes (R171, R187) -/

/-- Word 0x041 of STRMST (R103). (DEDUCED: log 92.) -/
def Core.cntWord (c : Core) : Word :=
  BitVec.ofNat 64 (((List.range 8).map (fun i => c.cnt.toList.getD i 0 % 64 * 2 ^ (6 * i))).sum)

/-- Words 0x042 and 0x043 of STRMST (R103). (DEDUCED: log 92.) -/
def Arch.seqWord (a : Arch) (hi : Bool) : Word :=
  BitVec.ofNat 64 (((List.range 4).map (fun i =>
    (a.seqn.toList.getD (if hi then i + 4 else i) 0).toNat * 2 ^ (16 * i))).sum)

/-- Records that the host has not taken (R171). -/
def Queue.count (q : Queue) : Nat := (q.prod - q.cons).toNat
/-- Those records, oldest first. -/
def Queue.recs (q : Queue) : List LaneRec := q.ring.drop (q.ring.length - q.count)

/-- Adds a record to a queue of `cap` entries; a full one keeps only the count of what it lost (R171). (DEDUCED: log 46.) -/
def Queue.push (q : Queue) (cap : Nat) (r : LaneRec) : Queue :=
  if q.count < cap then { q with ring := (q.ring ++ [r]).drop (q.ring.length + 1 - cap), prod := q.prod + 1 }
  else { q with overflow := true, lost := q.lost + 1 }

/-- The host writes CONS: entries of lower number are free (R171). -/
def Queue.take (q : Queue) (cons : BitVec 32) : Queue := { q with cons := cons }

/-- The 64 bytes of a record (R187). -/
def LaneRec.bytes (r : LaneRec) : List Byte :=
  le8 (r.kind * 2 ^ 56 + r.cause * 2 ^ 48 + r.cause2 * 2 ^ 40 + r.asid * 2 ^ 28 + r.tmask * 2 ^ 23 + r.die * 2 ^ 20 + r.taskid) ++
  [r.xpc, r.taddr, r.tinfo, r.dtime, r.cnt].flatMap (fun w => le8 w.toNat) ++
  le8 (r.ticket * 2 ^ 48 + r.core * 2 ^ 40 + r.lseq) ++ le8 r.aux.toNat

/-- The bytes of a ring of `cap` entries: its header, then each entry with the latest record written to it (R171).
(DEDUCED: log 47.) -/
def Queue.bytes (q : Queue) (cap : Nat) : List Byte :=
  leBytes 4 q.prod.toNat ++ leBytes 4 q.cons.toNat ++ leBytes 4 (if q.overflow then 1 else 0) ++ leBytes 4 q.lost.toNat ++
  List.replicate 48 (0 : Byte) ++
  (List.range cap).flatMap (fun e =>
    match (List.range q.ring.length).find? (fun i => (q.prod.toNat + i - q.ring.length) % cap == e) with
    | some i => ((q.ring[i]?).map LaneRec.bytes).getD (List.replicate 64 0)
    | none => List.replicate 64 0)

/-- The dispatcher of a die. -/
def dieIx (d : Nat) : Fin 8 := Fin.ofNat 8 d

/-- Changes a die's dispatcher. -/
def State.onDisp (s : State) (d : Fin 8) (f : Disp → Disp) : State := { s with disp := s.disp.set d.val (f s.disp[d.val]) }

/-- The queue pair of a context (R171). (DEDUCED: log 47.) -/
def State.ctxQ (s : State) (l : Nat) : QueuePair := (assoc s.ctxQueues l).getD ⟨Queue.init, Queue.init⟩

/-- Changes the queue pair of a context. (DEDUCED: log 47.) -/
def State.onCtxQ (s : State) (l : Nat) (f : QueuePair → QueuePair) : State :=
  { s with ctxQueues := bindTo s.ctxQueues l (f (s.ctxQ l)) }

/-- Changes the queue pair of a die's dispatcher. (DEDUCED: log 47.) -/
def State.onDispQ (s : State) (d : Fin 8) (f : QueuePair → QueuePair) : State :=
  { s with dispQueues := s.dispQueues.set d.val (f s.dispQueues[d.val]) }

/-- Entries of the fatal and of the replay queue (R171). -/
def fatalCap : Nat := 64
def replayCap : Nat := 256

/-- A record of core `c` (R187). Of R103's trap frame it holds the counters; the other words of STRMST stay in the core.
(DEDUCED: log 92.) -/
def State.coreRec (s : State) (c : Core) (kind cause cause2 tmask : Nat) (xpc taddr tinfo aux : Word)
    (ticket : Nat) : LaneRec :=
  { kind := kind, cause := cause, cause2 := cause2, asid := s.asidOf c, tmask := tmask, die := dieOf c.id,
    taskid := match c.task with | some t => t.index | none => 0,
    xpc := xpc, taddr := taddr, tinfo := tinfo, dtime := s.dtime, cnt := c.cntWord, ticket := ticket,
    core := s.logical c.id,
    lseq := match s.launchOf c with | some l => l.lseq % 2 ^ 32 | none => 0,
    aux := aux }

/-- The context of a core: its task's launch. -/
def Core.ctx (c : Core) : Nat :=
  match c.task with
  | some t => t.launch
  | none => 0

/-- Sends a record on the fatal lane of core `c`'s context. -/
def State.sendFatal (s : State) (c : Core) (r : LaneRec) : State :=
  s.onCtxQ c.ctx (fun q => { q with fatal := q.fatal.push fatalCap r })

/-- The hardware-error record of an access of the core in focus whose home has no route left (R187, R367). -/
def State.routeError (s : State) (va : Word) (pa : Nat) : State :=
  s.sendFatal s.core (s.coreRec s.core 0x02 Cause.memUe 0 0 s.core.ckpt.pc va 0 (BitVec.ofNat 64 (s.lostLink (dieOf s.core.id) pa)) 0)

/-- Changes a launch. -/
def State.onLaunch (s : State) (l : Nat) (f : Launch → Launch) : State :=
  { s with launches := s.launches.map (fun x => if x.id = l then f x else x) }

/-- A core of a context that stops: gate and interval are discarded, engine threads end where they are (R189).
(DEDUCED: log 78.) -/
def Core.halt (c : Core) (l : Nat) : Core :=
  match c.task with
  | some t =>
    if t.launch = l then
      { c.rollback with status := .stopped, threads := [], held := [], loads := [], monitor := none, arrivals := [] }
    else c
  | none => c

/-- No task of the launch has started. -/
def Launch.unstarted (l : Launch) : Bool :=
  l.slots.all (fun x => match x with | .waiting t => decide (t < l.lr.npl) | .reserved _ => true | _ => false)

/-- The fires of a context that still wait for their handler are dropped, with a handler launch that has not started (R189).
(DEDUCED: log 78.) -/
def State.dropMail (s : State) (l : Nat) : State :=
  let mine (m : Mail) : Bool := m.owner == some l
  let idle (x : Launch) : Bool :=
    match x.handler with
    | some h => x.unstarted && s.mboxes.any (fun b => b.pa == h.1 && b.queue.head?.any mine)
    | none => false
  { s with launches := s.launches.filter (fun x => !idle x),
           mboxes := s.mboxes.map (fun b => { b with queue := b.queue.filter (fun m => !mine m) }) }

/-- A context stops on a fatal cause (R189, R140). (DEDUCED: log 78.) -/
def State.stopCtx (s : State) (l : Nat) : State :=
  (({ s with core := s.core.halt l, others := s.others.map (fun c => c.halt l),
             colls := s.colls.filter (fun k => k.launch ≠ l) } : State).onLaunch l
    (fun x => { x with status := .failed, sched := [] })).dropMail l

/-- Delivers a fatal record for the core in focus and stops its context. (DEDUCED: log 78.) -/
def State.fatal (s : State) (cause cause2 tmask : Nat) (xpc taddr tinfo aux : Word) : State :=
  let s := s.sendFatal s.core (s.coreRec s.core 0x01 cause cause2 tmask xpc taddr tinfo aux 0)
  (s.onC (fun c => { c with status := .stopped })).stopCtx s.core.ctx

/-- A fatal cause that the core in focus itself meets: it rolls back, and the cause is a double trap while TLOCK is 1 at the restart
point (R182, R183, R184). -/
def State.fatalTrap (s : State) (cause tmask : Nat) (xpc taddr tinfo : Word) : State :=
  let s := s.onC Core.rollback
  let t := s.core.arch.trap
  if t.tlock then s.fatal Cause.doubleTrap cause t.tmask.toNat t.xpc t.taddr t.tinfo taddr
  else s.fatal cause 0 tmask xpc taddr tinfo 0

/-- A ticket is in use while a core or a thread of the die waits for its verdict (R188). -/
def State.ticketUsed (s : State) (d t : Nat) : Bool :=
  s.cores.any (fun c => dieOf c.id == d &&
    ((match c.status with | .replay k _ => k == t | _ => false) ||
     c.threads.any (fun x => match x.phase with | .replay k _ _ => k == t | _ => false)))

/-- The next ticket after `t` that is not in use; 0 is never one (R188). (DEDUCED: log 55.) -/
def State.nextTicket (s : State) (d t : Nat) (fuel : Nat) : Nat :=
  match fuel with
  | 0 => t
  | k + 1 => if t = 0 ∨ 0xFFFF < t then s.nextTicket d 1 k
             else if s.ticketUsed d t then s.nextTicket d (t + 1) k else t

/-- Takes a ticket of a die's dispatcher (R188). (DEDUCED: log 55.) -/
def State.takeTicket (s : State) (d : Nat) : Nat × State :=
  let dd : Fin 8 := Fin.ofNat 8 d
  let t := s.nextTicket d (s.disp[dd.val]).ticket 0x20000
  let e := s.disp[dd.val]
  (t, { s with disp := s.disp.set dd.val { e with ticket := if t = 0xFFFF then 1 else t + 1 } })

/-! ## Taking a trap (R179, R183, R184) -/

/-- A fault with no engine record. -/
def slotFault (slot : Nat) (cause : Cause) (taddr : Word) : SlotFault := ⟨slot, cause, taddr, 0, none⟩

/-- TMASK of the faulting slots (R179). (DEDUCED: log 56.) -/
def tmaskOf (fs : List SlotFault) : Nat := fs.foldl (fun m f => m ||| 2 ^ f.slot) 0

/-- TCAUSE: each faulting slot's cause in its byte (R180). -/
def tcauseOf (fs : List SlotFault) : Nat :=
  ((List.range 5).map (fun i =>
    (match fs.find? (fun f => f.slot == i) with | some f => f.cause | none => 0) * 256 ^ i)).sum

/-- The first faulting slot in the order S, M, X, C, G (R179). -/
def firstFault (fs : List SlotFault) : SlotFault :=
  (((List.range 5).filterMap (fun i => fs.find? (fun f => f.slot == i))).head?).getD (slotFault 0 0 0)

/-- The reported record is retired; it stays only for lines it still poisons (R186). The report of the thread whose fault set
FPROG.STATE to HELD turns it into RESUME (R299). -/
def Core.retire (c : Core) (i : Nat) : Core :=
  let step := fun (a : Arch) =>
    if a.fprog.toNat / 2 ^ 16 % 4 = 2 then { a with fprog := a.fprog ^^^ 0x30000#64 } else a
  let c : Core := if c.heldBy = some i then { c with arch := step c.arch, ckpt := step c.ckpt, heldBy := none } else c
  ({ c with recs := c.recs.map (fun x => if x.1 = i then (x.1, { x.2 with retired := true }) else x) } : Core).gcRecs

/-- A precise trap enters its handler (R183): XPC, TCAUSE, TMASK, TADDR and TINFO are written, TLOCK becomes 1, the
core continues at TVEC, and a restart point lies there. -/
def Core.enterTrap (c : Core) (tcause tmask : Nat) (taddr tinfo xpc : Word) : Core :=
  let t : TrapRegs := ⟨xpc, BitVec.ofNat 64 tcause, BitVec.ofNat 64 tmask, taddr, tinfo, c.arch.trap.tvec, true⟩
  let a := { c.arch with trap := t, pc := t.tvec }
  { c with arch := a, ckpt := a, atRp := true, npc := none, closes := false, monitor := none, stall := 0,
           ended := true }

/-- The trap that reports the record of a thread, of the core in focus or of a peer whose line it read, retires it (R100, R186). -/
def State.retire (s : State) (r : Option (Nat × Nat)) : State :=
  match r with
  | none => s
  | some (c, i) => s.onCore c (fun k => k.retire i)

/-- A precise trap of the core in focus, which stands at a restart point with XPC to record: through TVEC; as a fatal
record when TVEC is 0; as a double trap while TLOCK is 1 (R183, R184). (DEDUCED: log 56.) -/
def State.precise (s : State) (fs : List SlotFault) (xpc : Word) : State :=
  let f := firstFault fs
  let t := s.core.arch.trap
  if t.tlock then s.fatal Cause.doubleTrap f.cause t.tmask.toNat t.xpc t.taddr t.tinfo f.taddr
  else if t.tvec = 0 then s.fatal f.cause 0 (tmaskOf fs) xpc f.taddr f.tinfo 0
  else fs.foldl (fun s g => s.retire g.join) (s.onC (fun c => c.enterTrap (tcauseOf fs) (tmaskOf fs) f.taddr f.tinfo xpc))

/-- The first replayable fault in the order S, M, X, C, G (R165, R179). -/
def firstReplay (fs : List SlotFault) : SlotFault := firstFault (fs.filter (fun f => isReplayable f.cause))

/-- Sends a replay record for the core in focus, which then waits; a full queue makes it wait for room (R165, R171,
R188). (DEDUCED: log 56.) -/
def State.replayCore (s : State) (fs : List SlotFault) : State :=
  if replayCap ≤ (s.ctxQ s.core.ctx).replay.count then s.onC (fun c => { c with status := .waitRoom fs })
  else
    let f := firstReplay fs
    let (t, s) := s.takeTicket (dieOf s.core.id)
    let r := s.coreRec s.core 0x03 f.cause 0 (tmaskOf fs) s.core.ckpt.pc f.taddr f.tinfo 0 t
    (s.onCtxQ s.core.ctx (fun q => { q with replay := q.replay.push replayCap r })).onC
      (fun c => { c with status := .replay t fs })

/-- A bundle of the core in focus faults in the slots listed (R179): the core rolls back, and the fault is fatal,
replayable or precise by its kind (R182); of any kind it is a double trap while TLOCK is 1 (R184). (DEDUCED: log 56.) -/
def State.takeTrap (s : State) (fs : List SlotFault) : State :=
  let s := s.onC Core.rollback
  if s.core.arch.trap.tlock then s.precise fs s.core.ckpt.pc
  else match fs.find? (fun g => isFatal g.cause) with
    | some g => s.fatal g.cause 0 (tmaskOf fs) s.core.ckpt.pc g.taddr g.tinfo 0
    | none =>
      if fs.any (fun g => isReplayable g.cause) then s.replayCore fs else s.precise fs s.core.ckpt.pc

/-- Raises one fault for a slot of the bundle in focus. -/
def State.raise (s : State) (slot : Nat) (cause : Cause) (taddr : Word) : State :=
  s.takeTrap [slotFault slot cause taddr]

/-! ## Completing a bundle -/

/-- A GLD's value whose count has run out becomes the register's value (R272). -/
def Arch.settleG (a : Arch) (g : GReg) : Arch :=
  match a.gpend[g.val] with
  | some (v, 0) => { a with g := a.g.set g.val v, gpend := a.gpend.set g.val none }
  | _ => a

/-- One executed bundle passes for every pending GLD (R272). -/
def Arch.countG (a : Arch) : Arch :=
  { a with gpend := a.gpend.map (fun p => p.map (fun x => (x.1, x.2 - 1))) }

/-- The back-edge step of R234 at the bundle whose PC is `pc`, over the loop stack innermost first: the stack left,
the next PC, and whether any entry was stepped. (DEDUCED: log 25; DEDUCED: log 26.) -/
def backEdge (pc : Word) (ls : List LoopEnt) : List LoopEnt × Word :=
  match ls with
  | [] => ([], pc + 32)
  | e :: r =>
    if e.stop ≠ pc then (e :: r, pc + 32)
    else
      let e' := { e with index := e.index + 1 }
      if e'.index.toNat < e'.trip.toNat ∧ e'.index ≠ 0 then (e' :: r, e.start) else backEdge pc r

/-- The innermost active entry ends at this PC (R234). -/
def atLoopEnd (a : Arch) : Bool :=
  match a.loops.getLast? with
  | some e => e.stop == a.pc
  | none => false

/-- The bundle in focus completes (R175, R176, R234): the pending GLDs count, the PC moves to a taken transfer's target,
by the back-edge step, or on by 32, and the interval commits where a restart point lies after the bundle.
(DEDUCED: log 25; DEDUCED: log 26.) -/
def Core.complete (c : Core) (takesEdge : Bool) : Core :=
  let a := c.arch.countG
  let step := takesEdge && c.npc.isNone && atLoopEnd a
  let r := backEdge a.pc a.loops.reverse
  let a := if step then { a with loops := r.1.reverse, pc := r.2 }
           else { a with pc := c.npc.getD (a.pc + 32) }
  let c := { c with arch := a, npc := none, ended := true, atRp := false }
  if c.closes || step then { c with closes := false }.commit else c

/-- TRET: TLOCK becomes 0 and the core continues at XPC; a restart point lies after it (R184, R175). The tags of arrivals
stay: the core may go back to the restart points before them (R241). (DESIGN CHOICE: log 123.) -/
def State.trapReturn (s : State) : State :=
  s.onC (fun c =>
    ({ c with arch := { c.arch with trap := { c.arch.trap with tlock := false } },
              npc := some c.src.trap.xpc, closes := true } : Core).complete false)

end Sys2Proof.Machine
end

