-- ==== Sys2Proof/Machine/Operands.lean ====
section
/-! DEFINITION. The operand forms: second sources, memory operands and branch targets (R204, R207, R213, R218). -/

namespace Sys2Proof.Machine

/-- The second source of an S.R form (R218). -/
def State.src (s : State) (b : Src) : Word :=
  match b with
  | .reg r => s.rs r
  | .imm v => v.signExtend 64

/-- The address [Sb + off] of an M.G form, modulo 2^64 (R249). -/
def State.eaG (s : State) (b : SReg) (off : BitVec 22) : Word := s.rs b + off.signExtend 64
/-- The address of an M.T form with a memory operand (R249). -/
def State.eaT (s : State) (b : SReg) (off : BitVec 20) : Word := s.rs b + off.signExtend 64
/-- The address of an M.A form (R249). -/
def State.eaA (s : State) (b : SReg) (off : BitVec 13) : Word := s.rs b + off.signExtend 64
/-- The address WAITM watches (R240). -/
def State.eaW (s : State) (a : SReg) (off : BitVec 17) : Word := s.rs a + off.signExtend 64
/-- The address PPLD reads (R244). -/
def State.eaP (s : State) (a : SReg) (v : BitVec 23) : Word := s.rs a + v.signExtend 64
/-- A memory operand of the C slot: OFF counts in units of 128 (R213). -/
def State.eaC (s : State) (r : SReg) (off : Nat) : Word := s.rs r + BitVec.ofNat 64 (128 * off)

/-- The second register of a pair (R34). -/
def SReg.succ (r : SReg) : SReg := Fin.ofNat 64 (r.val + 1)
/-- Both registers of a pair. -/
def State.pair (s : State) (r : SReg) : Word × Word := (s.rs r, s.rs (SReg.succ r))

/-- The target of an S.B form: PC + 32 × OFF (R204). -/
def State.branch (s : State) (off : BitVec 31) : Word := s.core.src.pc + off.signExtend 64 * 32
/-- The link value PC + 32 (R231). -/
def State.link (s : State) : Word := s.core.src.pc + 32
/-- The target of a register form: bits [4:0] cleared (R231). -/
def aligned32 (a : Word) : Word := a &&& ~~~31#64

end Sys2Proof.Machine
end

