-- ==== Sys2Proof/Machine/Control.lean ====
section
/-! DEFINITION. Control flow, the loop stack, traps and control registers (R231 to R239). -/

namespace Sys2Proof.Machine

/-! ## Transfers (R231) -/

/-- A taken transfer of the bundle in focus. (DEDUCED: log 26.) -/
def State.jumpTo (s : State) (t : Word) : State := s.onC (fun c => { c with npc := some t })

/-- A taken transfer that is a restart point after its bundle when its target is at or below its own PC (R175). -/
def State.jumpBack (s : State) (t : Word) : State :=
  s.onC (fun c => { c with npc := some t, closes := c.closes || decide (t.toNat ≤ c.src.pc.toNat) })

/-- BR: PC + 32 × OFF when P[PB] XOR PN (R231). -/
def execBr (p : PReg) (inv : Bool) (off : BitVec 31) (s : State) : Out :=
  .next (if s.rp p != inv then s.jumpBack (s.branch off) else s)
/-- JMP (R231). -/
def execJmp (off : BitVec 31) (s : State) : Out := .next (s.jumpBack (s.branch off))
/-- CALL: links PC + 32; no restart point (R231). -/
def execCall (d : SReg) (off : BitVec 31) (s : State) : Out := .next ((s.ws d s.link).jumpTo (s.branch off))
/-- JMPR: to a with bits [4:0] cleared, linking PC + 32 (R231). -/
def execJmpr (d a : SReg) (s : State) : Out := .next ((s.ws d s.link).jumpBack (aligned32 (s.rs a)))
/-- RET: to a with bits [4:0] cleared; no restart point (R231). -/
def execRet (a : SReg) (s : State) : Out := .next (s.jumpTo (aligned32 (s.rs a)))

/-! ## The loop stack (R232 to R235) -/

/-- The trip count of LOOP (R233). -/
def State.trips (s : State) (src : TripSrc) : Nat :=
  match src with
  | .cnt n => n.toNat
  | .reg a => (s.rs a).toNat
  | .seql => s.core.src.seql.toNat

/-- LOOP: skips an empty body, raises OPERAND_FORM for a count of 2^31 or more or a full stack, otherwise pushes an
entry (R233). (DEDUCED: log 26.) -/
def execLoop (src : TripSrc) (len : Nat) (s : State) : Out :=
  let n := s.trips src
  let pc := s.core.src.pc
  if n = 0 then .next (s.jumpTo (pc + BitVec.ofNat 64 (32 * (len + 1))))
  else if 2 ^ 31 ≤ n ∨ 6 ≤ s.core.src.loops.length then .next (s.raise 0 Cause.operandForm 0)
  else .next (s.onA (fun a => { a with loops := a.loops ++
    [⟨pc + 32, pc + BitVec.ofNat 64 (32 * len), BitVec.ofNat 31 n, 0⟩] }))

/-- BRKL: when P[SA] XOR invert, pops the innermost entry and continues after its end bundle (R235). -/
def execBrkl (p : PReg) (inv : Bool) (s : State) : Out :=
  if s.rp p != inv then
    match s.core.src.loops.getLast? with
    | none => .next (s.raise 0 Cause.operandForm 0)
    | some e => .next ((s.onA (fun a => { a with loops := a.loops.dropLast })).jumpTo (e.stop + 32))
  else .next s

/-! ## HALT and traps (R236 to R238) -/

/-- HALT: the bundle's interval commits and the task ends; the loop stack is discarded (R236). -/
def execHalt (s : State) : Out :=
  .next (s.onC (fun c =>
    let c := ({ c with closes := true } : Core).complete false
    { c with arch := { c.arch with loops := [] }, ckpt := { c.ckpt with loops := [] }, status := .halted }))

/-- TRAP: the bundle commits, and the trap is entered with XPC = PC + 32, TCAUSE.CS and TMASK 0x01, TADDR the code
sign-extended and TINFO 0; while TLOCK = 1 a double trap, with TVEC = 0 a fatal record (R237). -/
def execTrap (v : BitVec 23) (s : State) : Out :=
  let s := s.onC (fun c => ({ c with closes := true } : Core).complete false)
  .next (s.precise [slotFault 0 Cause.trap (v.signExtend 64)] (s.core.src.pc + 32))

/-- TACK: TLOCK becomes 0; the trap registers keep their values (R184, R238). -/
def execTack (s : State) : Out := .next (s.onA (fun a => { a with trap := { a.trap with tlock := false } }))

/-- TRET: TLOCK becomes 0 and the core continues at XPC, whatever TLOCK was (R184, R238). (DESIGN CHOICE: log 123.) -/
def execTret (s : State) : Out := .next s.trapReturn

/-! ## Control registers (R43, R239) -/

/-- The CSR view of a loop-stack entry (R232). -/
def loopWord (e : LoopEnt) : Word := BitVec.ofNat 64 (2 ^ 63 + e.trip.toNat * 2 ^ 32 + e.index.toNat)

/-- PARTW (R28). -/
def Partw.word (p : Partw) : Word :=
  BitVec.ofNat 64 (p.trip.toNat * 2 ^ 24 + p.zg * 2 ^ 16 + p.tg * 2 ^ 8 + p.sg)

/-- A bit of a word of fields. -/
def b2n (b : Bool) (i : Nat) : Nat := if b then 2 ^ i else 0

/-- ENUMd (R45). -/
def State.enumWord (s : State) (d : Nat) : Word :=
  let e := s.die d
  BitVec.ofNat 64 (onesBelow e.slices 32 * 2 ^ 52 + b2n (s.grade != .g224L) 51 + b2n e.dieok 50 + b2n e.crown 49 +
    e.links.toNat * 2 ^ 46 + onesBelow e.live 32 * 2 ^ 40 + d * perDie s.grade * 2 ^ 32 + e.live.toNat)

/-- Word w of PERM: entries 8w to 8w + 7 (R43). -/
def Arch.permWord (a : Arch) (w : Nat) : Word :=
  BitVec.ofNat 64 (((List.range 8).map (fun j => (a.perm.toList.getD (8 * w + j) 0).toNat * 2 ^ (8 * j))).sum)

/-- The effective slice of a launch (R194). -/
def Launch.slice (l : Launch) : Nat := if l.lr.sliceq = 0 then Config.sliceDefault else max l.lr.sliceq Config.sliceFloor

/-- A control register as a bundle reads it at issue (R43, R239). -/
def State.csr (s : State) (c : Csr) : Word :=
  let a := s.core.src
  match c with
  | .xpc => a.trap.xpc
  | .tcause => a.trap.tcause
  | .tmask => a.trap.tmask
  | .taddr => a.trap.taddr
  | .tinfo => a.trap.tinfo
  | .tvec => a.trap.tvec
  | .tlock => BitVec.ofNat 64 (b2n a.trap.tlock 0)
  | .ls i => (match a.loops[i.val]? with | some e => loopWord e | none => 0)
  | .grow => a.grow
  | .fprog => a.fprog
  | .fstat => a.fstat
  | .pivt => a.pivt
  | .zpol => BitVec.ofNat 64 (b2n a.zpol 0)
  | .xflags => a.xflags.setWidth 64
  | .seql => a.seql
  | .partw => s.core.partw.word
  | .strmst i => if i = 0 then s.core.cntWord else a.seqWord (i = 2)
  | .slice => (match s.launchOf s.core with | some l => BitVec.ofNat 64 l.slice | none => 0)
  | .corid => BitVec.ofNat 64 (s.logical s.core.id)
  | .taskid => (match s.core.task with | some t => BitVec.ofNat 64 (t.index % 2 ^ 20) | none => 0)
  | .troy => (match s.launchOf s.core with | some l => BitVec.ofNat 64 (b2n l.lr.troy 0) | none => 0)
  | .capp => BitVec.ofNat 64 s.capArea
  | .dtime => s.dtime
  | .linewait => a.linewait
  | .stallc => s.core.stallc
  | .gptr => a.gptr
  | .enumd i => s.enumWord i.val
  | .perm i => a.permWord i.val

/-- CSRR (R239). -/
def execCsrr (d : SReg) (c : Csr) (s : State) : Out := .next (s.ws d (s.csr c))

/-- PERM with word w replaced (R43). -/
def Arch.setPerm (a : Arch) (w : Fin 32) (v : Word) : Arch :=
  { a with perm := Vector.ofFn (fun (i : Fin 256) =>
      if i.val / 8 = w.val then BitVec.ofNat 8 (v.toNat / 2 ^ (8 * (i.val % 8))) else a.perm[i.val]) }

/-- A loop-stack entry with TRIP and INDEX as a CSRW stores them (R232). -/
def setLoop (v : Word) (e : LoopEnt) : LoopEnt :=
  { e with trip := BitVec.ofNat 31 (wbits v 62 32), index := BitVec.ofNat 32 (wbits v 31 0) }

/-- FPROG as a CSRW stores it: reserved bits stay 0, and STATE 11 is stored as 10 (R299). -/
def fprogStored (v : Word) : Word :=
  let w := v &&& 0xFFFFFFFFFC0301FF#64
  if v.getLsbD 16 && v.getLsbD 17 then w ^^^ 0x10000#64 else w

/-- A CSRW's effect on the shadowed registers, by the register's access type (R11, R43, R232, R239): none on RO
registers, on TVEC while TLOCK = 1, or on an inactive loop-stack entry. -/
def Arch.setCsr (a : Arch) (c : Csr) (v : Word) : Arch :=
  match c with
  | .tvec => if a.trap.tlock then a else { a with trap := { a.trap with tvec := aligned32 v } }
  | .ls i => { a with loops := a.loops.modify i.val (setLoop v) }
  | .fprog => { a with fprog := fprogStored v }
  | .fstat => { a with fstat := a.fstat &&& ~~~(v &&& 0x10000#64) }
  | .pivt => { a with pivt := v }
  | .zpol => { a with zpol := v.getLsbD 0 }
  | .xflags => { a with xflags := a.xflags &&& ~~~(v.setWidth 6) }
  | .seql => { a with seql := v }
  | .linewait => { a with linewait := v }
  | .gptr => { a with gptr := v }
  | .perm i => a.setPerm i v
  | _ => a

/-- CSRW: STALLC is no shadowed register (R178, R239). -/
def execCsrw (c : Csr) (a : SReg) (s : State) : Out :=
  let v := s.rs a
  match c with
  | .stallc => .next (s.onC (fun k => { k with stallc := v }))
  | _ => .next (s.onA (fun k => k.setCsr c v))

end Sys2Proof.Machine
end

