-- ==== Sys2Proof/Machine/Flags.lean ====
section
/-! DEFINITION. The exception flags (R66): their bits, and values that carry the flags raised in computing them. -/

namespace Sys2Proof.Machine

/-- The six flags of XFLAGS (R66): [5] IOV, [4] DZ, [3] NV, [2] OF, [1] UF, [0] NX. -/
abbrev Flags := BitVec 6

/-- NX, inexact. -/
def fNX : Flags := 0x01
/-- UF, tiny and inexact. -/
def fUF : Flags := 0x02
/-- OF, overflow. -/
def fOF : Flags := 0x04
/-- NV, invalid. -/
def fNV : Flags := 0x08
/-- DZ, division by zero. -/
def fDZ : Flags := 0x10
/-- IOV, an INT32 accumulation wrapped. -/
def fIOV : Flags := 0x20

/-- A flag raised when a condition holds. -/
def flagIf (b : Bool) (f : Flags) : Flags := if b then f else 0

/-- Rounding flags: NX for an inexact result, UF when it is also tiny (R64). -/
def inexactFlags (inexact tiny : Bool) : Flags := flagIf inexact fNX ||| flagIf (inexact && tiny) fUF

end Sys2Proof.Machine
end

