-- ==== Sys2Proof/Machine/Num.lean ====
section
/-! DEFINITION. Numbers to the bit: the formats, exact values, one rounding, conversions, and the transcendental
functions (R49 to R86). A value is computed exactly and rounded once where the spec says so. -/

namespace Sys2Proof.Machine

/-- A number read from a format: a NaN with its sign, its payload aligned to 51 bits and whether it is signalling; an
infinity; or ± m × 2^e (R50, R51, R53). -/
inductive Num where
  | nan (sign : Bool) (payload : Nat) (sig : Bool)
  | inf (sign : Bool)
  | fin (sign : Bool) (m : Nat) (e : Int)
  deriving DecidableEq, Repr

/-- The layout of a floating-point format (R50). -/
structure FF where
  eb   : Nat
  fb   : Nat
  bias : Nat
  /-- E4M3: no infinity, one NaN code per sign. -/
  e4m3 : Bool
  deriving DecidableEq, Repr

def ff32 : FF := ⟨8, 23, 127, false⟩
def ff64 : FF := ⟨11, 52, 1023, false⟩

end Sys2Proof.Machine

namespace Sys2Proof

/-- The layout of a format; formats that are not floating-point read as FP32's. -/
def Fmt.ff (f : Fmt) : Machine.FF :=
  match f with
  | .fp64 => Machine.ff64
  | .fp16 => ⟨5, 10, 15, false⟩
  | .bf16 => ⟨8, 7, 127, false⟩
  | .e4m3 => ⟨4, 3, 7, true⟩
  | .e5m2 => ⟨5, 2, 15, false⟩
  | _ => Machine.ff32

/-- The layout of a scalar float format (R223). -/
def SFmt.ff (f : SFmt) : Machine.FF :=
  match f with
  | .f32 => Machine.ff32
  | .f64 => Machine.ff64

/-- The bytes of an element; BFP elements are packed in blocks (R49, R56). -/
def Fmt.size (f : Fmt) : Nat :=
  match f with
  | .fp32 => 4 | .fp64 => 8 | .fp16 | .bf16 => 2 | _ => 1

/-- The mantissa width of a BFP format (R49). -/
def Fmt.bw (f : Fmt) : Nat :=
  match f with
  | .bfp i => i.val + 2
  | _ => 8

end Sys2Proof

namespace Sys2Proof.Machine

/-- Exponent of the smallest normal value (R52). -/
def FF.emin (f : FF) : Int := 1 - f.bias
/-- Exponent of the largest finite value (R52). -/
def FF.emax (f : FF) : Int := if f.e4m3 then 8 else f.bias
/-- Mantissa of the largest finite value, F + 1 bits (R52). -/
def FF.maxMant (f : FF) : Nat := if f.e4m3 then 14 else 2 ^ (f.fb + 1) - 1
/-- The sign bit of a code. -/
def FF.signBit (f : FF) (s : Bool) : Nat := if s then 2 ^ (f.eb + f.fb) else 0

/-- Reads a code (R50, R51, R53). -/
def FF.read (f : FF) (c : Nat) : Num :=
  let s := c / 2 ^ (f.eb + f.fb) % 2 == 1
  let e := c / 2 ^ f.fb % 2 ^ f.eb
  let q := c % 2 ^ f.fb
  if e = 2 ^ f.eb - 1 && (!f.e4m3 || q == 7) then
    if f.e4m3 then .nan s 0 false
    else if q = 0 then .inf s
    else .nan s (q % 2 ^ (f.fb - 1) * 2 ^ (52 - f.fb)) (q / 2 ^ (f.fb - 1) == 0)
  else if e = 0 then .fin s q (f.emin - f.fb)
  else .fin s (2 ^ f.fb + q) (e - f.bias - f.fb)

/-- The code of a quiet NaN (R53, R63). -/
def FF.nanCode (f : FF) (s : Bool) (payload : Nat) : Nat :=
  f.signBit s + (if f.e4m3 then 0x7F
    else (2 ^ f.eb - 1) * 2 ^ f.fb + 2 ^ (f.fb - 1) + payload / 2 ^ (52 - f.fb))
/-- The canonical NaN (R52). -/
def FF.canon (f : FF) : Nat := f.nanCode false 0
/-- An infinity; E4M3 has none and the callers never ask for one. -/
def FF.infCode (f : FF) (s : Bool) : Nat := f.signBit s + (2 ^ f.eb - 1) * 2 ^ f.fb
/-- The largest finite value (R52). -/
def FF.maxCode (f : FF) (s : Bool) : Nat :=
  f.signBit s + (if f.e4m3 then 0x7E else (2 ^ f.eb - 1) * 2 ^ f.fb - 1)

/-- The code of ± n × 2^q, a value the format holds. -/
def FF.finCode (f : FF) (s : Bool) (n : Nat) (q : Int) : Nat :=
  if n = 0 then f.signBit s
  else
    let ex := (Nat.log2 n : Int) + q
    if ex < f.emin then f.signBit s + (if f.emin - f.fb ≤ q then n * 2 ^ (q - (f.emin - f.fb)).toNat
        else n / 2 ^ ((f.emin - f.fb) - q).toNat)
    else f.signBit s + (ex + f.bias).toNat * 2 ^ f.fb + (n * 2 ^ f.fb / 2 ^ Nat.log2 n - 2 ^ f.fb)

/-! ## One rounding (R60, R64) -/

/-- Whether a value between two neighbours goes to the one of larger magnitude (R60): `odd` the lower neighbour is odd,
`r` against `half` the part below, `rest` a nonzero part below that. -/
def roundsUp (rm : Rm) (s odd : Bool) (r half : Nat) (rest : Bool) : Bool :=
  match rm with
  | .rne => decide (half < r) || (r == half && (rest || odd))
  | .rtz => false
  | .rup => !s && (r != 0 || rest)
  | .rdn => s && (r != 0 || rest)

/-- m × 2^e, and a nonzero part below it when `rest`, rounded to a whole multiple of 2^q: the multiple, and whether
the value was changed. -/
def roundAt (rm : Rm) (s : Bool) (m : Nat) (e : Int) (rest : Bool) (q : Int) : Nat × Bool :=
  if q ≤ e then
    let n := m * 2 ^ (e - q).toNat
    (if roundsUp rm s (n % 2 == 1) 0 1 rest then n + 1 else n, rest)
  else
    let d := 2 ^ (q - e).toNat
    let n := m / d
    let r := m % d
    (if roundsUp rm s (n % 2 == 1) r (d / 2) rest then n + 1 else n, r != 0 || rest)

/-- A value rounded into a format: ± n × 2^q, whether it overflows, is inexact, is tiny (R60, R61, R64). -/
structure Rounded where
  n : Nat
  q : Int
  past : Bool
  inexact : Bool
  tiny : Bool

/-- One rounding of ± m × 2^e into a format (R60, R61, R64). -/
def FF.round (f : FF) (rm : Rm) (s : Bool) (m : Nat) (e : Int) (rest : Bool) : Rounded :=
  if m = 0 then ⟨0, 0, false, rest, rest⟩
  else
    let q := (Nat.log2 m : Int) + e - f.fb
    let r := roundAt rm s m e rest q
    let ex := (Nat.log2 r.1 : Int) + q
    if r.1 = 0 ∨ ex < f.emin then
      let r' := roundAt rm s m e rest (f.emin - f.fb)
      ⟨r'.1, f.emin - f.fb, false, r'.2, true⟩
    else
      let past := decide (f.emax < ex) || (ex == f.emax && decide (f.maxMant * 2 ^ Nat.log2 r.1 < r.1 * 2 ^ f.fb))
      ⟨r.1, q, past, r.2, false⟩

/-- The result of a rounding step: a code and its flags. -/
abbrev Coded := Nat × Flags

/-- IEEE default overflow (R224): the infinity or the largest finite value, by the direction. -/
def FF.overCode (f : FF) (rm : Rm) (s : Bool) : Nat :=
  match rm with
  | .rne => f.infCode s
  | .rtz => f.maxCode s
  | .rup => if s then f.maxCode s else f.infCode s
  | .rdn => if s then f.infCode s else f.maxCode s

/-- Arithmetic rounding of ± m × 2^e with IEEE default overflow (R72, R224). -/
def FF.fin (f : FF) (rm : Rm) (s : Bool) (m : Nat) (e : Int) (rest : Bool) : Coded :=
  let r := f.round rm s m e rest
  if r.past then (f.overCode rm s, fOF ||| fNX) else (f.finCode s r.n r.q, inexactFlags r.inexact r.tiny)

/-- A number rounded into a format by an arithmetic step. -/
def FF.put (f : FF) (rm : Rm) (x : Num) : Coded :=
  match x with
  | .nan s p _ => (f.nanCode s p, 0)
  | .inf s => (f.infCode s, 0)
  | .fin s m e => f.fin rm s m e false

/-! ## Exact arithmetic (R73, R77) -/

def Num.isNan (x : Num) : Bool := match x with | .nan .. => true | _ => false
def Num.isInf (x : Num) : Bool := match x with | .inf _ => true | _ => false
def Num.isSig (x : Num) : Bool := match x with | .nan _ _ g => g | _ => false
def Num.isZero (x : Num) : Bool := match x with | .fin _ m _ => m == 0 | _ => false
def Num.sign (x : Num) : Bool := match x with | .nan s _ _ => s | .inf s => s | .fin s _ _ => s
/-- A NaN made quiet (R53). -/
def Num.quiet (x : Num) : Num := match x with | .nan s p _ => .nan s p false | y => y
/-- The canonical NaN. -/
def Num.canon : Num := .nan false 0 false
def Num.zero : Num := .fin false 0 0
def Num.one : Num := .fin false 1 0
def Num.neg (x : Num) : Num :=
  match x with | .nan s p g => .nan (!s) p g | .inf s => .inf (!s) | .fin s m e => .fin (!s) m e
def Num.abs (x : Num) : Num :=
  match x with | .nan _ p g => .nan false p g | .inf _ => .inf false | .fin _ m e => .fin false m e
/-- An integer as a number. -/
def Num.ofInt (v : Int) : Num := .fin (decide (v < 0)) v.natAbs 0
/-- NV for every signalling NaN among the operands (R53). -/
def sigFlags (xs : List Num) : Flags := flagIf (xs.any Num.isSig) fNV
/-- The first NaN operand, made quiet (R77). -/
def firstNan (xs : List Num) : Option Num := (xs.find? Num.isNan).map Num.quiet

/-- The signed mantissa of a finite number. -/
def sMant (s : Bool) (m : Nat) : Int := if s then -(m : Int) else m

/-- The exact sum of two finite numbers; an exact zero is −0 only when both are −0 (R73). (DEDUCED: log 40.) -/
def addFin (s1 : Bool) (m1 : Nat) (e1 : Int) (s2 : Bool) (m2 : Nat) (e2 : Int) : Num :=
  if m1 = 0 ∧ m2 = 0 then .fin (s1 && s2) 0 0
  else if m1 = 0 then .fin s2 m2 e2
  else if m2 = 0 then .fin s1 m1 e1
  else
    let e := min e1 e2
    let v := sMant s1 m1 * 2 ^ (e1 - e).toNat + sMant s2 m2 * 2 ^ (e2 - e).toNat
    .fin (decide (v < 0)) v.natAbs e

/-- The exact sum of two numbers that are not NaN; opposite infinities give the canonical NaN and NV (R73). -/
def addNum (x y : Num) : Num × Flags :=
  match x, y with
  | .inf a, .inf b => if a = b then (.inf a, 0) else (Num.canon, fNV)
  | .inf a, _ => (.inf a, 0)
  | _, .inf b => (.inf b, 0)
  | .fin s1 m1 e1, .fin s2 m2 e2 => (addFin s1 m1 e1 s2 m2 e2, 0)
  | .nan s p _, _ => (.nan s p false, 0)
  | _, .nan s p _ => (.nan s p false, 0)

/-- The exact product of two numbers that are not NaN; 0 × ∞ gives the canonical NaN and NV (R73). -/
def mulNum (x y : Num) : Num × Flags :=
  match x, y with
  | .fin s1 m1 e1, .fin s2 m2 e2 => (.fin (s1 != s2) (m1 * m2) (e1 + e2), 0)
  | .nan s p _, _ => (.nan s p false, 0)
  | _, .nan s p _ => (.nan s p false, 0)
  | a, b => if a.isZero || b.isZero then (Num.canon, fNV) else (.inf (a.sign != b.sign), 0)

/-- round(x + y), operand order x, y (R224, R77). (DEDUCED: log 40.) -/
def FF.add (f : FF) (rm : Rm) (x y : Num) : Coded :=
  match firstNan [x, y] with
  | some q => ((f.put rm q).1, sigFlags [x, y])
  | none => let r := addNum x y; let c := f.put rm r.1; (c.1, r.2 ||| c.2)

/-- round(x − y), operand order x, y. -/
def FF.sub (f : FF) (rm : Rm) (x y : Num) : Coded :=
  match firstNan [x, y] with
  | some q => ((f.put rm q).1, sigFlags [x, y])
  | none => let r := addNum x y.neg; let c := f.put rm r.1; (c.1, r.2 ||| c.2)

/-- round(x × y), operand order x, y. -/
def FF.mul (f : FF) (rm : Rm) (x y : Num) : Coded :=
  match firstNan [x, y] with
  | some q => ((f.put rm q).1, sigFlags [x, y])
  | none => let r := mulNum x y; let c := f.put rm r.1; (c.1, r.2 ||| c.2)

/-- round(x × y + z) with one rounding; `ord` lists the operands in NaN order (R77). A 0 × ∞ product sets NV even when
a NaN supplies the result (R73). (DEDUCED: log 40.) -/
def FF.fma (f : FF) (rm : Rm) (x y z : Num) (ord : List Num) : Coded :=
  let badProd := (x.isZero && y.isInf) || (x.isInf && y.isZero)
  match firstNan ord with
  | some q => ((f.put rm q).1, sigFlags ord ||| flagIf badProd fNV)
  | none =>
    let p := mulNum x y
    if p.1.isNan then (f.canon, fNV)
    else let r := addNum p.1 z; let c := f.put rm r.1; (c.1, r.2 ||| c.2)

/-- Fraction bits computed of a quotient or a root before it is rounded once. -/
def extraBits : Nat := 140

/-- round(x / y) of two numbers that are not NaN: ∞/∞ and 0/0 are invalid, a finite nonzero x by zero sets DZ (R66). -/
def FF.div (f : FF) (rm : Rm) (x y : Num) : Coded :=
  match firstNan [x, y] with
  | some q => ((f.put rm q).1, sigFlags [x, y])
  | none =>
    let s := x.sign != y.sign
    match x, y with
    | .inf _, .inf _ => (f.canon, fNV)
    | .inf _, _ => (f.infCode s, 0)
    | _, .inf _ => (f.signBit s, 0)
    | .fin _ m1 e1, .fin _ m2 e2 =>
      if m2 = 0 then (if m1 = 0 then (f.canon, fNV) else (f.infCode s, fDZ))
      else
        let k := extraBits + Nat.log2 m2
        let n := m1 * 2 ^ k
        f.fin rm s (n / m2) (e1 - e2 - k) (n % m2 != 0)
    | _, _ => (f.canon, fNV)

/-- The integer square root, from bit `k` down. -/
def isqrtFrom (n : Nat) (k : Nat) (r : Nat) : Nat :=
  match k with
  | 0 => r
  | j + 1 => let t := r + 2 ^ j; isqrtFrom n j (if t * t ≤ n then t else r)

/-- The integer square root. -/
def isqrt (n : Nat) : Nat := isqrtFrom n (Nat.log2 n / 2 + 1) 0

/-- round(√x): a negative nonzero x is invalid, ±0 returns itself (R53). -/
def FF.sqrt (f : FF) (rm : Rm) (x : Num) : Coded :=
  match x with
  | .nan s p g => (f.nanCode s p, flagIf g fNV)
  | .inf s => if s then (f.canon, fNV) else (f.infCode false, 0)
  | .fin s m e =>
    if m = 0 then (f.signBit s, 0)
    else if s then (f.canon, fNV)
    else
      let k := if (e - 2 * extraBits) % 2 = 0 then 2 * extraBits else 2 * extraBits + 1
      let n := m * 2 ^ k
      let r := isqrt n
      f.fin rm false r ((e - k) / 2) (r * r != n)

/-! ## Comparison, minimum and maximum (R76, R225) -/

/-- x < y for numbers that are not NaN; +0 equals −0. -/
def numLt (x y : Num) : Bool :=
  match x, y with
  | .inf a, .inf b => a && !b
  | .inf a, _ => a
  | _, .inf b => !b
  | .fin s1 m1 e1, .fin s2 m2 e2 =>
    let e := min e1 e2
    decide (sMant s1 m1 * 2 ^ (e1 - e).toNat < sMant s2 m2 * 2 ^ (e2 - e).toNat)
  | _, _ => false

/-- x = y for numbers that are not NaN. -/
def numEq (x y : Num) : Bool := !x.isNan && !y.isNan && !numLt x y && !numLt y x

/-- The larger number, +0 above −0; the first NaN operand (R76, R77). -/
def numMax (x y : Num) : Num × Flags :=
  match firstNan [x, y] with
  | some q => (q, sigFlags [x, y])
  | none => (if x.isZero && y.isZero then (if x.sign then y else x) else if numLt x y then y else x, 0)

/-- The smaller number, −0 below +0; the first NaN operand (R76, R77). -/
def numMin (x y : Num) : Num × Flags :=
  match firstNan [x, y] with
  | some q => (q, sigFlags [x, y])
  | none => (if x.isZero && y.isZero then (if x.sign then x else y) else if numLt y x then y else x, 0)

/-! ## Conversions (R60 to R65) -/

/-- A converted element: its code, its flags, and whether it is an element fault of kind overflow (R62). -/
structure Conv where
  code  : Nat
  flags : Flags
  fault : Bool
  deriving DecidableEq, Repr

/-- Rounds a finite number to an integer. -/
def roundInt (rm : Rm) (s : Bool) (m : Nat) (e : Int) : Int × Bool :=
  let r := roundAt rm s m e false 0
  (sMant s r.1, r.2)

/-- A number converted to an integer of `n` bits under a policy (R62). -/
def convInt (n : Nat) (rm : Rm) (pol : Ovf) (x : Num) : Conv :=
  let hi : Int := 2 ^ (n - 1) - 1
  let lo : Int := -(2 ^ (n - 1))
  match x with
  | .nan .. => ⟨0, fNV, pol == .trap⟩
  | .inf s => ⟨wrapTo n (if s then lo else hi), fNV, pol == .trap⟩
  | .fin s m e =>
    let r := roundInt rm s m e
    if r.1 < lo then ⟨wrapTo n lo, fOF ||| fNX, pol == .trap⟩
    else if hi < r.1 then ⟨wrapTo n hi, fOF ||| fNX, pol == .trap⟩
    else ⟨wrapTo n r.1, flagIf r.2 fNX, false⟩

/-- A number converted to a floating-point format under a policy (R62, R63). -/
def FF.conv (f : FF) (rm : Rm) (pol : Ovf) (x : Num) : Conv :=
  match x with
  | .nan s p g => ⟨f.nanCode s p, flagIf g fNV, false⟩
  | .inf s =>
    if f.e4m3 then
      (match pol with
       | .sat => ⟨f.maxCode s, fOF, false⟩
       | .trap => ⟨f.maxCode s, fOF, true⟩
       | _ => ⟨f.nanCode s 0, fOF, false⟩)
    else if pol = .sat then ⟨f.maxCode s, fOF, false⟩ else ⟨f.infCode s, 0, false⟩
  | .fin s m e =>
    let r := f.round rm s m e false
    if r.past then
      (match pol with
       | .sat => ⟨f.maxCode s, fOF ||| fNX, false⟩
       | .inf => ⟨if f.e4m3 then f.nanCode s 0 else f.infCode s, fOF ||| fNX, false⟩
       | .nan => ⟨f.nanCode s 0, fOF ||| fNX, false⟩
       | .trap => ⟨f.maxCode s, fOF ||| fNX, true⟩)
    else ⟨f.finCode s r.n r.q, inexactFlags r.inexact r.tiny, false⟩

/-- A number converted to an element format other than BFP (R62). -/
def convTo (f : Fmt) (rm : Rm) (pol : Ovf) (x : Num) : Conv :=
  match f with
  | .int8 => convInt 8 rm pol x
  | _ => f.ff.conv rm pol x

/-- A BFP mantissa read with its substitute (R59). -/
def bfpMant (w c : Nat) : Int :=
  let v := signedOf w c
  if v = -(2 ^ (w - 1)) then v + 1 else v

/-- A shared exponent read with its substitute (R59). -/
def bfpExp (x : Nat) : Nat := if x = 255 then 254 else x

/-- The value of a BFP element (R55). -/
def bfpNum (w : Nat) (m : Int) (x : Nat) : Num :=
  if m = 0 then Num.zero else .fin (decide (m < 0)) m.natAbs ((x : Int) - 127 - ((w : Int) - 2))

/-- Reads an element code of a format other than BFP (R51, R54). -/
def readElem (f : Fmt) (c : Nat) : Num :=
  match f with
  | .int8 => Num.ofInt (signedOf 8 c)
  | _ => f.ff.read c

/-- floor(log2) of a finite nonzero number. -/
def Num.ilog (x : Num) : Int :=
  match x with
  | .fin _ m e => (Nat.log2 m : Int) + e
  | _ => 0

/-- The mantissas of a block at exponent X (R65): each mantissa and whether it equals its source. -/
def bfpMants (w : Nat) (rm : Rm) (x : Nat) (xs : List Num) : List (Int × Bool) :=
  let q := (x : Int) - 127 - ((w : Int) - 2)
  xs.map (fun v => match v with
    | .fin s m e => let r := roundAt rm s m e false q; (sMant s r.1, r.2)
    | _ => (0, false))

/-- A block converted to BFP-w (R65): the exponent, the mantissas, the flags and the positions that fault. -/
structure BfpBlock where
  x : Nat
  ms : List Int
  flags : Flags
  faults : List Nat
  deriving DecidableEq, Repr

/-- Forms a BFP block from exact values (R65). The exponent X starts at 254 where the largest value would give more.
(DEDUCED: log 95.) -/
def bfpBlock (w : Nat) (rm : Rm) (pol : Ovf) (xs : List Num) : BfpBlock :=
  let bad := xs.map (fun v => v.isNan || v.isInf)
  let ys := xs.map (fun v => match v with | .nan .. => Num.zero | .inf s => .fin s 1 200 | y => y)
  let mmax : Nat := 2 ^ (w - 1) - 1
  let nz := ys.filter (fun y => !y.isZero)
  let x0 : Nat := match nz with
    | [] => 0
    | y :: r => (max 0 (r.foldl (fun a z => max a z.ilog) y.ilog + 127)).toNat
  let x0 := min x0 254
  let big (l : List (Int × Bool)) : Bool := l.any (fun p => decide (mmax < p.1.natAbs))
  let x1 := if big (bfpMants w rm x0 ys) ∧ x0 < 254 then x0 + 1 else x0
  let ms := bfpMants w rm x1 ys
  let past := big ms
  let cl := ms.map (fun p => if mmax < p.1.natAbs then (if p.1 < 0 then -(mmax : Int) else mmax) else p.1)
  let inex := ms.any (fun p => p.2) || past
  let faults := (List.range xs.length).filter (fun t =>
    pol == .trap && (bad.getD t false || decide (mmax < (ms.getD t (0, false)).1.natAbs)))
  ⟨x1, cl, flagIf (bad.any id) fNV ||| flagIf past fOF ||| flagIf inex fNX |||
    flagIf (x1 == 0 && inex && !nz.isEmpty) fUF, faults⟩

/-! ## Transcendental functions (R79 to R83) -/

/-- A step rounded to FP64 by RNE that sets no flag (R79). -/
def r64 (x : Num) : Num := ff64.read (ff64.put .rne x).1
/-- round64(a × b + c). -/
def fma64 (a b c : Num) : Num := ff64.read (ff64.fma .rne a b c [a, b, c]).1
/-- round64(a × b). -/
def mul64 (a b : Num) : Num := ff64.read (ff64.mul .rne a b).1
/-- round64(a + b). -/
def add64 (a b : Num) : Num := ff64.read (ff64.add .rne a b).1

/-- T[j] = 2^(j/16), the nearest FP64 values (R79). -/
def tabT : List Nat :=
  [0x3FF0000000000000, 0x3FF0B5586CF9890F, 0x3FF172B83C7D517B, 0x3FF2387A6E756238, 0x3FF306FE0A31B715,
   0x3FF3DEA64C123422, 0x3FF4BFDAD5362A27, 0x3FF5AB07DD485429, 0x3FF6A09E667F3BCD, 0x3FF7A11473EB0187,
   0x3FF8ACE5422AA0DB, 0x3FF9C49182A3F090, 0x3FFAE89F995AD3AD, 0x3FFC199BDD85529C, 0x3FFD5818DCFBA487,
   0x3FFEA4AFA2A490DA]
/-- RC[j], nearest to 16 / (12 + j) (R79). -/
def tabRC : List Nat :=
  [0x3FF5555555555555, 0x3FF3B13B13B13B14, 0x3FF2492492492492, 0x3FF1111111111111, 0x3FF0000000000000,
   0x3FEE1E1E1E1E1E1E, 0x3FEC71C71C71C71C, 0x3FEAF286BCA1AF28, 0x3FE999999999999A, 0x3FE8618618618618,
   0x3FE745D1745D1746, 0x3FE642C8590B2164, 0x3FE5555555555555]
/-- LG[j], nearest to −log2(RC[j]) (R79). -/
def tabLG : List Nat :=
  [0xBFDA8FF971810A5D, 0xBFD32BFEE370EE6A, 0xBFC8A8980ABFBD30, 0xBFB7D60496CFBB4B, 0x0000000000000000,
   0x3FB663F6FAC91318, 0x3FC5C01A39FBD68B, 0x3FCFBC16B902680D, 0x3FD49A784BCD1B8A, 0x3FD91BBA891F170A,
   0x3FDD6753E032EA0E, 0x3FE0C10500D63AA7, 0x3FE2B803473F7AD2]
/-- CE[5] down to CE[1] (R79). -/
def tabCE : List Nat :=
  [0x3F55D87FE78A6731, 0x3F83B2AB6FBA4E77, 0x3FAC6B08D704A0C0, 0x3FCEBFBDFF82C58F, 0x3FE62E42FEFA39EF]
/-- CL[7] down to CL[1] (R79). -/
def tabCL : List Nat :=
  [0x3FCA61762A7ADED9, 0xBFCEC709DC3A03FD, 0x3FD2776C50EF9BFE, 0xBFD71547652B82FE, 0x3FDEC709DC3A03FD,
   0xBFE71547652B82FE, 0x3FF71547652B82FE]
/-- KT = 2 / ln 2 (R79). -/
def tabKT : Nat := 0x40071547652B82FE

/-- An entry of a table, as a number. -/
def tab (t : List Nat) (j : Nat) : Num := ff64.read (nth t j)

/-- A polynomial by fused steps from its highest coefficient (R80, R81). -/
def horner (cs : List Nat) (r : Num) : Num :=
  match cs with
  | [] => Num.zero
  | c :: rest => rest.foldl (fun p k => fma64 p r (ff64.read k)) (ff64.read c)

/-- floor of ± m × 2^e. -/
def floorFin (s : Bool) (m : Nat) (e : Int) : Int :=
  if 0 ≤ e then sMant s m * 2 ^ e.toNat else sMant s m / 2 ^ (-e).toNat

/-- exp2_core (R80): v and n with 2^y near v × 2^n. -/
def exp2Core (y : Num) : Num × Int :=
  match y with
  | .fin s m e =>
    let bigN := floorFin s m (e + 4)
    let n := bigN / 16
    let j := (bigN - 16 * n).toNat
    let r := (addNum y (.fin (decide (0 < bigN)) bigN.natAbs (-4))).1
    let p := mul64 (horner tabCE r) r
    let t := tab tabT j
    (fma64 t p t, n)
  | _ => (Num.one, 0)

/-- A number times 2^n. -/
def scalb (x : Num) (n : Int) : Num :=
  match x with
  | .fin s m e => .fin s m (e + n)
  | y => y

/-- round32 of a number (R79). -/
def round32 (x : Num) : Coded := ff32.put .rne x

/-- exp2_arch on an FP32 operand (R80). -/
def exp2Arch (x : Num) : Coded :=
  match x with
  | .nan s p g => (ff32.nanCode s p, flagIf g fNV)
  | .inf s => (if s then 0 else ff32.infCode false, 0)
  | .fin .. =>
    if !numLt x (.fin false 128 0) then (ff32.infCode false, fOF ||| fNX)
    else if numLt x (.fin true 151 0) then (0, fUF ||| fNX)
    else let r := exp2Core x; round32 (scalb r.1 r.2)

/-- log2_arch on an FP32 operand (R81). -/
def log2Arch (x : Num) : Coded :=
  match x with
  | .nan s p g => (ff32.nanCode s p, flagIf g fNV)
  | .inf s => if s then (ff32.canon, fNV) else (ff32.infCode false, 0)
  | .fin s m _ =>
    if m = 0 then (ff32.infCode true, fDZ)
    else if s then (ff32.canon, fNV)
    else
      let l := Nat.log2 m
      let up := decide (3 * 2 ^ l ≤ 2 * m)
      let ex : Int := x.ilog + (if up then 1 else 0)
      let mm : Num := .fin false m (-(l : Int) - (if up then 1 else 0))
      let j := match mm with
        | .fin _ a b => (floorFin false (2 * (a * 16) + 2 ^ (-b).toNat) (b - 1) - 12).toNat
        | _ => 0
      let u := fma64 mm (tab tabRC j) Num.one.neg
      let sm := fma64 (horner tabCL u) u (tab tabLG j)
      round32 (add64 (Num.ofInt ex) sm)

/-- frcp on an FP32 operand: 1/x correctly rounded (R82). -/
def rcpArch (x : Num) : Coded := ff32.div .rne Num.one x

/-- frsq on an FP32 operand: 1/√x correctly rounded (R82). -/
def rsqArch (x : Num) : Coded :=
  match x with
  | .nan s p g => (ff32.nanCode s p, flagIf g fNV)
  | .inf s => if s then (ff32.canon, fNV) else (0, 0)
  | .fin s m e =>
    if m = 0 then (ff32.infCode s, fDZ)
    else if s then (ff32.canon, fNV)
    else
      -- 1/√(m·2^e) = √(2^k / m) · 2^(−(e + k)/2) with e + k even
      let k := if e % 2 = 0 then 2 * extraBits + 2 * Nat.log2 m else 2 * extraBits + 2 * Nat.log2 m + 1
      let n := 2 ^ k / m
      let r := isqrt n
      ff32.fin .rne false r (-((e + k) / 2)) (r * r != n || 2 ^ k % m != 0)

/-- ftanh on an FP32 operand (R83). -/
def tanhArch (x : Num) : Coded :=
  let s := x.sign
  match x.abs with
  | .nan _ p g => (ff32.nanCode s p, flagIf g fNV)
  | .inf _ => ((ff32.put .rne (.fin s 1 0)).1, 0)
  | a =>
    if numLt a (.fin false 1 (-12)) then ((ff32.put .rne x).1, flagIf (!a.isZero) fNX)
    else if !numLt a (.fin false 9 0) then ((ff32.put .rne (.fin s 1 0)).1, fNX)
    else
      let r := exp2Core (mul64 a (ff64.read tabKT))
      let d := add64 (scalb r.1 r.2) Num.one
      let q := ff64.read (ff64.div .rne (.fin false 2 0) d).1
      let t := add64 Num.one q.neg
      let c := round32 t
      (c.1 + ff32.signBit s, c.2)

/-! ## Sums (R72 to R77) -/

/-- A running exact sum: the finite part so far, the infinities met, the NaN that settles the result, the flags. -/
structure Sum where
  fin  : Option Num
  pinf : Bool
  ninf : Bool
  nan  : Option Num
  flags : Flags
  deriving DecidableEq, Repr

/-- The sum of no terms. -/
def Sum.empty : Sum := ⟨none, false, false, none, 0⟩

/-- Adds one term, itself no NaN operand (R73, R77). -/
def Sum.term (a : Sum) (t : Num) : Sum :=
  match t with
  | .inf s =>
    let opp := if s then a.pinf else a.ninf
    { a with pinf := a.pinf || !s, ninf := a.ninf || s,
             nan := if opp then a.nan.or (some Num.canon) else a.nan,
             flags := a.flags ||| flagIf opp fNV }
  | .nan s p _ => { a with nan := a.nan.or (some (.nan s p false)) }
  | .fin .. => { a with fin := some (match a.fin with | none => t | some v => (addNum v t).1) }

/-- Adds the product x × y: a NaN operand supplies its payload, 0 × ∞ the canonical NaN and NV (R73, R77). -/
def Sum.prod (a : Sum) (x y : Num) : Sum :=
  let a := { a with flags := a.flags ||| sigFlags [x, y] }
  match firstNan [x, y] with
  | some q => { a with nan := a.nan.or (some q) }
  | none => let p := mulNum x y; { a.term p.1 with flags := (a.term p.1).flags ||| p.2 }

/-- The exact sum: +0 when it has no terms (R73). -/
def Sum.value (a : Sum) : Num :=
  match a.nan with
  | some q => q
  | none => if a.pinf then .inf false else if a.ninf then .inf true else a.fin.getD Num.zero

/-- The tree of R75 and R76: neighbours are combined in pairs, an odd one passes through. -/
def treeLevel {α : Type} (f : α → α → α) (xs : List α) : List α :=
  match xs with
  | x :: y :: r => f x y :: treeLevel f r
  | r => r

/-- The tree over a whole list (R75). -/
def tree {α : Type} (f : α → α → α) (fuel : Nat) (xs : List α) : List α :=
  match fuel with
  | 0 => xs
  | k + 1 => if xs.length ≤ 1 then xs else tree f k (treeLevel f xs)

/-- A node of a sum tree in a format: codes with the flags raised below them (R75). -/
def sumNode (f : FF) (x y : Coded) : Coded :=
  let r := f.add .rne (f.read x.1) (f.read y.1)
  (r.1, x.2 ||| y.2 ||| r.2)

/-- wrap32(x + y) with IOV (R75). -/
def sumNode32 (x y : Coded) : Coded :=
  let v := signedOf 32 x.1 + signedOf 32 y.1
  (wrapTo 32 v, x.2 ||| y.2 ||| flagIf (decide (v < -(2 ^ 31)) || decide (2 ^ 31 - 1 < v)) fIOV)

end Sys2Proof.Machine
end

