-- ==== Sys2Proof/Machine/PortProg.lean ====
section
/-! DEFINITION. Port programs (R312 to R328): which element words are valid, what one element instruction does in a
lane, and the run of a program over the lanes of a port. -/

namespace Sys2Proof.Machine

/-- The kind of a port's lanes (R313). -/
inductive LaneKind where
  | f32 | f64 | i32
  deriving DecidableEq, Repr

/-- The lane kind of a format entering a port (R313). -/
def laneOf (f : Fmt) : LaneKind :=
  match f with
  | .fp64 => .f64
  | .int8 => .i32
  | _ => .f32

/-- The lane kind of an accumulator kind entering a port (R313). -/
def laneOfKind (k : ZKind) : LaneKind :=
  match k with
  | .fp32 => .f32
  | .fp64 => .f64
  | .int32 => .i32

/-- Tile rows of a T register for a format (R251). -/
def tileRows (f : Fmt) : Nat :=
  match f with
  | .fp64 => 8
  | .fp32 => 16
  | .fp16 | .bf16 => 32
  | _ => 64

/-- Bytes of a tile row (R251). -/
def tileRowBytes (f : Fmt) : Nat :=
  match f with
  | .fp64 => 2048
  | .fp32 => 1024
  | .fp16 | .bf16 => 512
  | .bfp i => 32 * (i.val + 2)
  | _ => 256

/-! ## Element words (R216 to R218) -/

def ewOp (w : BitVec 32) : Nat := w.toNat / 2 ^ 26
def ewDst (w : BitVec 32) : Nat := w.toNat / 2 ^ 21 % 32
def ewA (w : BitVec 32) : Nat := w.toNat / 2 ^ 16 % 32
def ewB (w : BitVec 32) : Nat := w.toNat / 2 ^ 11 % 32
def ewC (w : BitVec 32) : Nat := w.toNat / 2 ^ 6 % 32
def ewMod (w : BitVec 32) : Nat := w.toNat % 64

/-- A source selector (R216). -/
def selOk (c : Nat) : Bool := decide (c ≤ 0x19)
/-- A carry selector. -/
def carryOk (c : Nat) : Bool := decide (0x11 ≤ c) && decide (c ≤ 0x14)

/-- The format of a code, for the codes 0x0 to 0x6. -/
def plainFmt (c : Nat) : Fmt :=
  match c with
  | 0 => .fp32 | 1 => .fp64 | 2 => .fp16 | 3 => .bf16 | 4 => .e4m3 | 5 => .e5m2 | _ => .int8

/-- An element word holds an assigned opcode, selectors its instruction accepts and nothing in an unused field (R217,
R319 to R326). -/
def wordOk (w : BitVec 32) : Bool :=
  let d := ewDst w
  let a := ewA w
  let b := ewB w
  let c := ewC w
  let m := ewMod w
  let e := decide (d < 8)
  let two := e && selOk a && selOk b && c == 0
  match ewOp w with
  | 0x01 | 0x02 | 0x03 | 0x11 => two && decide (m < 4)
  | 0x04 => e && selOk a && selOk b && selOk c && decide (m < 4)
  | 0x05 | 0x06 => two && m == 0
  | 0x07 | 0x08 | 0x09 | 0x0A | 0x0B | 0x0C | 0x0D => e && selOk a && b == 0 && c == 0 && m == 0
  | 0x0E => e && selOk a && selOk b && selOk c && m == 0
  | 0x0F => two && decide (m < 7)
  | 0x10 => e && selOk a && selOk b && selOk c && (m == 0 || (m == 1 && c == 0))
  | 0x12 => e && selOk a && decide (b < 16) && c == 0 && decide (m % 16 ≤ 6) && (decide (b < 8) || m % 16 == 0)
  | 0x18 | 0x19 | 0x1A | 0x1D | 0x1E | 0x1F | 0x20 => two && m == 0
  | 0x1B | 0x1C | 0x21 => two && decide (m < 2)
  | 0x22 => two && decide (m < 4)
  | 0x23 => e && selOk a && b == 0 && c == 0 && m != 63
  | 0x28 => e && selOk a && b == 0 && c == 0 && m == 0
  | 0x29 => e && decide (a < 8) && b == 0 && c == 0 && decide (1 ≤ m) && decide (m ≤ 4)
  | 0x2A => e && decide (a < 8) && decide (8 ≤ b) && decide (b < 16) && c == 0 && m == 0
  | 0x2B => d == 0x10 && decide (a ≤ 6) && decide (c < 2) && decide (b + 32 * c < tileRows (plainFmt a))
  | 0x30 | 0x31 | 0x32 | 0x33 => carryOk d && selOk a && b == 0 && c == 0 && decide (m < 2)
  | 0x34 => e && carryOk a && selOk b && c == 0 && m == 0
  | 0x38 => d == 0 && selOk a && selOk b && selOk c && decide (m < 2)
  | 0x39 => e && selOk a && selOk b && selOk c && decide (m < 4)
  | _ => false

/-- The source fields an instruction reads through selectors. -/
def ewSources (w : BitVec 32) : List Nat :=
  let op := ewOp w
  if op = 0x2B then []
  else if op = 0x12 ∨ op = 0x29 then [ewA w]
  else [ewA w, ewB w, ewC w]

/-- The word is a qld. -/
def isQld (w : BitVec 32) : Bool := ewOp w == 0x2B

/-- A program that PPLD accepts (R243, R244, R312): N from 1 to 16, every word valid, words at or past N zero, at most
one qld, and no q or qld when PORTS includes K. -/
def progOk (header : Nat) (ws : List (BitVec 32)) : Bool :=
  let n := header / 256 % 32
  let used := ws.take n
  header / 2 ^ 13 == 0 && header / 32 % 8 == 0 && decide (1 ≤ n) && decide (n ≤ 16) && header % 16 != 0 &&
  used.all wordOk && (ws.drop n).all (fun w => w == 0) && decide ((used.filter isQld).length ≤ 1) &&
  (header / 8 % 2 == 0 || used.all (fun w => !isQld w && (ewSources w).all (fun c => c != 0x10)))

/-! ## Lanes (R313, R315) -/

/-- The float view of a lane value. -/
def viewF (k : LaneKind) (v : Nat) : Num :=
  match k with
  | .f64 => ff64.read (v % 2 ^ 64)
  | _ => ff32.read (v % 2 ^ 32)
/-- The integer view of a lane value. -/
def viewI (v : Nat) : Int := signedOf 32 v
/-- The layout of a lane's float view. -/
def laneFF (k : LaneKind) : FF :=
  match k with
  | .f64 => ff64
  | _ => ff32
/-- An integer result as a lane value: bit 31 copied into bits [63:32] (R313). -/
def laneInt (v : Int) : Nat := wrapTo 64 (signedOf 32 (wrapTo 32 v))
/-- A number as a lane value, exact or rounded into the float view. -/
def laneNum (k : LaneKind) (x : Num) : Nat := ((laneFF k).put .rne x).1

/-- One element of a lane's stream: its identifier, ROW and COL, whether a segment starts there, and the value entering
(R314). -/
structure PElem where
  ident : List Nat
  row : Nat
  col : Nat
  seg : Bool
  inc : Nat
  deriving DecidableEq, Repr

/-- What a lane sees at one element besides its registers (R315). -/
structure LaneEnv where
  kind : LaneKind
  slot : PSlot
  q    : Nat
  lane : Nat
  el   : PElem
  /-- Values that entered 1 to 4 places earlier. -/
  past : List Nat
  /-- Per step, the EA register before the step, 1 to 4 places earlier. -/
  pastTr : List (List Nat)
  /-- The lane to the left at the same place: its incoming value and its steps' EA registers. -/
  left : Option (Nat × List Nat)
  deriving Repr

/-- A lane's registers in the middle of an element. -/
structure LaneSt where
  e : List Nat
  c : List Nat
  flags : Flags
  /-- The lowest step at which the element faulted, and its cause (R327). -/
  flt : Option (Nat × Cause)
  /-- EA registers before each step, latest first. -/
  tr : List Nat
  deriving Repr

/-- The value a selector names (R315, R216). -/
def LaneEnv.sel (v : LaneEnv) (st : LaneSt) (c : Nat) : Nat :=
  if c < 8 then nth st.e c
  else if c < 16 then (v.slot.k.toList.getD (c - 8) 0).toNat
  else if c = 0x10 then v.q
  else if c < 0x15 then nth st.c (c - 0x11)
  else if c < 0x19 then nth v.past (c - 0x15)
  else if v.lane = 0 then (v.slot.k.toList.getD 7 0).toNat
  else match v.left with
    | some (x, _) => x
    | none => 0

/-- Writes an element register. -/
def LaneSt.setE (st : LaneSt) (d v : Nat) : LaneSt := { st with e := st.e.set d v }
/-- Writes a carry. -/
def LaneSt.setC (st : LaneSt) (d v : Nat) : LaneSt := { st with c := st.c.set (d - 0x11) v }
/-- Records a fault of the element, keeping the lowest step; within a step the lower code comes first. -/
def LaneSt.fault (st : LaneSt) (step : Nat) (c : Cause) : LaneSt := { st with flt := st.flt.or (some (step, c)) }

/-- The rounding of MOD[1:0]. -/
def modRm (n : Nat) : Rm :=
  match n % 4 with
  | 0 => .rne | 1 => .rtz | 2 => .rup | _ => .rdn
/-- A policy by its code (R61). -/
def polOf (n : Nat) : Ovf :=
  match n % 4 with
  | 0 => .sat | 1 => .inf | 2 => .nan | _ => .trap

/-- A transcendental step: an FP64 lane rounds its operand to FP32 first and widens the result (R320). -/
def viaF32 (k : LaneKind) (f : Num → Coded) (x : Num) : Coded :=
  match k with
  | .f64 =>
    let a := ff32.put .rne x
    let r := f (ff32.read a.1)
    ((ff64.put .rne (ff32.read r.1)).1, sigFlags [x] ||| a.2 ||| r.2)
  | _ => f x

/-- cvt (R322): the value written, its flags, and whether it is an element fault. -/
def cvtStep (k : LaneKind) (w : BitVec 32) (a : Nat) : Nat × Flags × Bool :=
  let b := ewB w
  let m := ewMod w
  let x := if b / 4 % 2 = 1 then Num.ofInt (viewI a) else viewF k a
  let rm := modRm (m / 16)
  let pol := polOf b
  if b / 8 % 2 = 1 then
    let r := convInt 32 rm pol x
    (laneInt (signedOf 32 r.code), r.flags, r.fault)
  else
    let f := plainFmt (m % 16)
    if f = .int8 then
      let r := convInt 8 rm pol x
      (laneInt (signedOf 8 r.code), r.flags, r.fault)
    else if f = .fp64 ∧ k ≠ .f64 then
      let r := ff32.conv rm pol x
      (r.code, r.flags, r.fault)
    else
      let r := f.ff.conv rm pol x
      (laneNum k (f.ff.read r.code), r.flags, r.fault)

/-- The opcodes whose NaN results the NaN-trap bit turns into faults (R327). -/
def nanTrapped (op : Nat) : Bool := (decide (1 ≤ op) && decide (op ≤ 0x0D)) || (decide (0x10 ≤ op) && decide (op ≤ 0x12))

/-- One element instruction, step number `i` (R318 to R326). -/
def runWord (v : LaneEnv) (i : Nat) (w : BitVec 32) (st : LaneSt) : LaneSt :=
  let k := v.kind
  let ff := laneFF k
  let d := ewDst w
  let a := v.sel st (ewA w)
  let b := v.sel st (ewB w)
  let c := v.sel st (ewC w)
  let m := ewMod w
  let fa := viewF k a
  let fb := viewF k b
  let fc := viewF k c
  let ia := viewI a
  let ib := viewI b
  let ua := a % 2 ^ 32
  let ub := b % 2 ^ 32
  let st := { st with tr := nth st.e (ewA w) :: st.tr }
  let putF (r : Coded) : LaneSt := { st with e := st.e.set d r.1, flags := st.flags ||| r.2 }
  let putX (r : Num × Flags) : LaneSt := putF (laneNum k r.1, r.2)
  let putI (x : Int) : LaneSt := st.setE d (laneInt x)
  let op := ewOp w
  let out : LaneSt := match op with
    | 0x01 => putF (ff.add (modRm m) fa fb)
    | 0x02 => putF (ff.sub (modRm m) fa fb)
    | 0x03 => putF (ff.mul (modRm m) fa fb)
    | 0x04 => putF (ff.fma (modRm m) fa fb fc [fa, fb, fc])
    | 0x05 => putX (numMin fa fb)
    | 0x06 => putX (numMax fa fb)
    | 0x07 => st.setE d (a % 2 ^ (ff.eb + ff.fb))
    | 0x08 => st.setE d (a % 2 ^ (ff.eb + ff.fb) + ff.signBit (!fa.sign))
    | 0x09 => putF (viaF32 k exp2Arch fa)
    | 0x0A => putF (viaF32 k log2Arch fa)
    | 0x0B => putF (viaF32 k rcpArch fa)
    | 0x0C => putF (viaF32 k rsqArch fa)
    | 0x0D => putF (viaF32 k tanhArch fa)
    | 0x0E => st.setE d (if ua ≠ 0 then b else c)
    | 0x0F =>
      let un := fa.isNan || fb.isNan
      let h := match m with
        | 0 => numEq fa fb
        | 1 => !numEq fa fb
        | 2 => !un && numLt fa fb
        | 3 => !un && !numLt fb fa
        | 4 => !un && numLt fb fa
        | 5 => !un && !numLt fa fb
        | _ => un
      { putI (if h then 1 else 0) with flags := st.flags ||| sigFlags [fa, fb] }
    | 0x10 =>
      let lo := if m = 1 then fb.abs.neg else fb
      let hi := if m = 1 then fb.abs else fc
      if fa.isNan then putX (fa.quiet, sigFlags (if m = 1 then [fa, fb] else [fa, fb, fc]))
      else if m = 1 ∧ fb.isNan then putX (fb.quiet, sigFlags [fb])
      else let r := numMax fa lo; let t := numMin r.1 hi; putX (t.1, r.2 ||| t.2)
    | 0x11 => putF (match firstNan [fa] with
        | some q => (laneNum k q, sigFlags [fa])
        | none => ff.put (modRm m) (scalb fa ib))
    | 0x12 =>
      let r := cvtStep k w a
      let st := { st with e := st.e.set d r.1, flags := st.flags ||| r.2.1 }
      if r.2.2 then st.fault i Cause.elemOverflow else st
    | 0x18 => putI (ia + ib)
    | 0x19 => putI (ia - ib)
    | 0x1A => putI (ia * ib)
    | 0x1B => putI (if m = 1 then (if ua < ub then (ua : Int) else ub) else min ia ib)
    | 0x1C => putI (if m = 1 then (if ua < ub then (ub : Int) else ua) else max ia ib)
    | 0x1D => putI ((ua &&& ub : Nat) : Int)
    | 0x1E => putI ((ua ||| ub : Nat) : Int)
    | 0x1F => putI ((ua ^^^ ub : Nat) : Int)
    | 0x20 => putI ((ua * 2 ^ (ub % 32) : Nat) : Int)
    | 0x21 => putI (if m = 1 then ia / 2 ^ (ub % 32) else ((ua / 2 ^ (ub % 32) : Nat) : Int))
    | 0x22 => putI (roundInt (modRm m) (decide (ia < 0)) ia.natAbs (-((ub % 32 : Nat) : Int))).1
    | 0x23 =>
      let n := m % 32 + 1
      let lo : Int := if m / 32 = 1 then 0 else -(2 ^ (n - 1))
      let hi : Int := if m / 32 = 1 then 2 ^ n - 1 else 2 ^ (n - 1) - 1
      putI (max lo (min ia hi))
    | 0x28 => st.setE d a
    | 0x29 => st.setE d (nth (v.pastTr.getD (m - 1) []) i)
    | 0x2A => st.setE d (if v.lane = 0 then b else match v.left with
        | some (_, tr) => nth tr i
        | none => 0)
    | 0x30 =>
      let cv := nth st.c (d - 0x11)
      if m = 1 then st.setC d (laneInt (max (viewI cv) ia))
      else let r := numMax (viewF k cv) fa; { st.setC d (laneNum k r.1) with flags := st.flags ||| r.2 }
    | 0x31 =>
      let cv := nth st.c (d - 0x11)
      if m = 1 then st.setC d (laneInt (min (viewI cv) ia))
      else let r := numMin (viewF k cv) fa; { st.setC d (laneNum k r.1) with flags := st.flags ||| r.2 }
    | 0x32 =>
      let cv := nth st.c (d - 0x11)
      if m = 1 then st.setC d (laneInt (viewI cv + ia))
      else let r := ff.add .rne (viewF k cv) fa; { st.setC d r.1 with flags := st.flags ||| r.2 }
    | 0x33 => if m = 1 ∧ !v.el.seg then st else st.setC d a
    | 0x34 => (st.setE d a).setC (ewA w) b
    | 0x38 =>
      if m = 1 then (if ib ≤ ia ∧ ia ≤ viewI c then st else st.fault i Cause.elemRange)
      else
        let st := { st with flags := st.flags ||| sigFlags [fa, fb, fc] }
        if !fa.isNan && !fb.isNan && !fc.isNan && !numLt fa fb && !numLt fc fa then st
        else st.fault i Cause.elemRange
    | 0x39 =>
      let dlt : Int := (v.el.col : Int) - v.el.row
      let h := match m with
        | 0 => decide (ib < dlt)
        | 1 => decide (ib ≤ dlt)
        | 2 => decide (dlt < ib)
        | _ => decide (dlt ≤ ib)
      st.setE d (if h then c else a)
    | _ => st
  let isInt := op == 0x12 && (ewB w / 8 % 2 == 1 || m % 16 == 6)
  if v.slot.nant && nanTrapped op && !isInt && (viewF k (nth out.e d)).isNan then out.fault i Cause.elemNan else out

/-- All steps of one element. -/
def runWords (v : LaneEnv) (i : Nat) (ws : List (BitVec 32)) (st : LaneSt) : LaneSt :=
  match ws with
  | [] => st
  | w :: r => runWords v (i + 1) r (runWord v i w st)

/-- An element that has passed: its value, its steps' EA registers, its fault. -/
structure PDone where
  el : PElem
  out : Nat
  tr : List Nat
  flt : Option (Nat × Cause)
  deriving Repr

/-- One lane's stream: carries and the last four elements are kept from element to element (R315). -/
def runLane (kind : LaneKind) (slot : PSlot) (q lane : Nat) (left : List PDone) (els : List PElem)
    (c past : List Nat) (pastTr : List (List Nat)) (fl : Flags) : List PDone × Flags :=
  match els with
  | [] => ([], fl)
  | el :: r =>
    let v : LaneEnv := ⟨kind, slot, q, lane, el, past, pastTr, left.head?.map (fun p => (p.el.inc, p.tr))⟩
    let st := runWords v 0 slot.words ⟨el.inc :: List.replicate 7 0, c, 0, none, []⟩
    let d : PDone := ⟨el, nth st.e 0, st.tr.reverse, st.flt⟩
    let rest := runLane kind slot q lane left.tail r st.c ((el.inc :: past).take 4) ((d.tr :: pastTr).take 4)
      (fl ||| st.flags)
    (d :: rest.1, rest.2)

/-- The lanes of a port, in ascending order. -/
def runLanes (kind : LaneKind) (slot : PSlot) (q : Nat → Nat) (lane : Nat) (left : List PDone)
    (lanes : List (List PElem)) : List (List PDone) × Flags :=
  match lanes with
  | [] => ([], 0)
  | els :: r =>
    let d := runLane kind slot (q lane) lane left els [0, 0, 0, 0] [] [] 0
    let rest := runLanes kind slot q (lane + 1) d.1 r
    (d.1 :: rest.1, d.2 ||| rest.2)

/-- An element fault of a port (R327). -/
structure PFault where
  ident : List Nat
  row : Nat
  col : Nat
  step : Nat
  cause : Cause
  deriving DecidableEq, Repr

/-- Lexicographic order of identifiers (R314). -/
def identLt (a b : List Nat) : Bool :=
  match a, b with
  | x :: xs, y :: ys => decide (x < y) || (x == y && identLt xs ys)
  | [], _ :: _ => true
  | _, [] => false

/-- What a port gives back: the value of each element, lane by lane, the flags and the faults. -/
structure PortOut where
  outs : List (List (PElem × Nat))
  flags : Flags
  faults : List PFault

/-- The lane constant q of a captured port, with the flags of its conversion: the row qld loaded, in the lane's type, or the
slot's stored q (R53, R64, R315, R325). -/
def qOf (kind : LaneKind) (p : PortCap) (slot : PSlot) (lane : Nat) : Coded :=
  match slot.words.find? isQld with
  | none => (slot.q.toNat, 0)
  | some w =>
    let f := plainFmt (ewA w)
    if f = .int8 then (laneInt (signedOf 8 (nth p.qrow lane)), 0)
    else let r := (laneFF kind).conv .rne .sat (readElem f (nth p.qrow lane)); (r.code, r.flags)

/-- Flags of the conversions of q on the lanes that have an element. -/
def qFlags (kind : LaneKind) (p : PortCap) (slot : PSlot) (lanes : List (List PElem)) : Flags :=
  (lanes.mapIdx (fun i l => if l.isEmpty then 0 else (qOf kind p slot i).2)).foldl (· ||| ·) 0

/-- Passes the lanes of a port through its program; slot 0 passes every value unchanged (R312). -/
def runPort (kind : LaneKind) (p : PortCap) (lanes : List (List PElem)) : PortOut :=
  match p.prog with
  | none => ⟨lanes.map (fun l => l.map (fun e => (e, e.inc))), 0, []⟩
  | some slot =>
    let r := runLanes kind slot (fun i => (qOf kind p slot i).1) 0 [] lanes
    ⟨r.1.map (fun l => l.map (fun d => (d.el, d.out))), r.2 ||| qFlags kind p slot lanes,
     r.1.flatMap (fun l => l.filterMap (fun d =>
       d.flt.map (fun f => ⟨d.el.ident, d.el.row, d.el.col, f.1, f.2⟩)))⟩

/-- A fault comes before another in a report (R327): its element's identifier, then its step, then its code. -/
def PFault.before (b a : PFault) : Bool :=
  identLt b.ident a.ident || (b.ident == a.ident && (decide (b.step < a.step) || (b.step == a.step && decide (b.cause < a.cause))))

/-- The element record of a port's faults (R181, R327): TINFO and the cause of the lowest element at its lowest step. -/
def portReport (portCode slot : Nat) (fs : List PFault) : Option (Cause × Word) :=
  match fs with
  | [] => none
  | f :: r =>
    let best := r.foldl (fun a b => if b.before a then b else a) f
    let n := min 65536 ((fs.map (fun x => x.ident)).eraseDups).length
    some (best.cause, BitVec.ofNat 64 (best.cause * 2 ^ 56 + portCode * 2 ^ 54 + slot % 64 * 2 ^ 48 +
      best.step * 2 ^ 44 + best.row % 256 * 2 ^ 36 + best.col % 256 * 2 ^ 28 + n * 2 ^ 11))

end Sys2Proof.Machine
end

