-- ==== Sys2Proof/WellFormed.lean ====
section
/-! DEFINITION. Which instructions an encoding can hold: the value limits of the slot layouts (R204, R207,
R209, R213), the per-form limits of the X slot (R71, R276, R296) and the destination rule of a bundle (R203). -/

namespace Sys2Proof

/-- The slot an instruction belongs to (R199); `event` marks the package's own steps. -/
inductive SlotKind where
  | s | m | x | c | g | event
  deriving DecidableEq, Repr

/-- The slot of each instruction (R205, R208, R211, R214, R215). The no-op fits every slot; it is filed
under S. -/
def Instr.slot : Instr → SlotKind
  | .nop | .add .. | .sub .. | .mul .. | .mulh .. | .mulhu .. | .div .. | .divu .. | .rem .. | .remu ..
  | .and .. | .or .. | .xor .. | .andn .. | .shl .. | .shr .. | .sha .. | .rot .. | .min .. | .minu ..
  | .max .. | .maxu .. | .clz .. | .ctz .. | .popc .. | .bfx .. | .bfi .. | .sext .. | .li .. | .lih ..
  | .cmp .. | .pand .. | .por .. | .pnot .. | .sel .. | .fadd .. | .fsub .. | .fmul .. | .ffma ..
  | .fmin .. | .fmax .. | .fcmp .. | .fcvt .. | .fclass .. | .lea .. | .sptest .. | .spcast ..
  | .br .. | .jmp .. | .call .. | .jmpr .. | .ret .. | .loop .. | .brkl .. | .halt | .trap .. | .tack
  | .tret | .csrr .. | .csrw .. | .waitm .. | .barArv .. | .barWt .. | .partn .. | .bind .. | .kset ..
  | .ppld .. | .yield => .s
  | .ld .. | .st .. | .ldt .. | .stt .. | .stp .. | .aadd .. | .amin .. | .amax .. | .aminu ..
  | .amaxu .. | .aand .. | .aor .. | .axor .. | .aswp .. | .acas .. | .asubf .. | .afadd .. | .line ..
  | .lineq .. | .pref .. | .hld .. | .hev .. | .hget .. | .seqld .. | .pfxl .. | .pfxi .. | .pfxr .. => .m
  | .mma .. | .mmas .. | .mmar .. | .mmat .. | .zclr .. | .zld .. | .zst .. | .zmov .. | .trans ..
  | .spbuild .. | .rowred .. | .colred .. | .softrow .. | .merge .. | .topk .. | .window .. | .lup ..
  | .chol .. | .qrh .. | .trsm .. | .trmm .. => .x
  | .copy .. | .gather .. | .scatter .. | .stage .. | .mbox .. | .areduce .. | .bcast .. => .c
  | .gld .. | .gzero .. => .g
  | .waitmArm | .waitmWakeWrite | .waitmMonitorLost | .waitmTimeout | .waitmSpurious
  | .barrierArrivalCounted .. | .gldValueVisible .. | .xThreadStart | .dccEmulatedThread
  | .engineThreadComplete .. | .copySectorLands .. | .collectiveInstanceReady .. | .loadReturn ..
  | .storePerformed .. | .gatedStoreRelease | .stallLimit | .replayQueueRoom | .replyResume ..
  | .replyDeliver .. | .replyKill .. | .launchRecordRead .. | .coreReserve .. | .taskStart ..
  | .launchComplete .. | .launchPromote .. | .launchUrgent .. | .sliceExpiry | .fullPreemptRequest ..
  | .fullSave | .fullRestore .. | .lightPreempt | .handlerLaunchStart .. | .clusAccessArrive ..
  | .dispatchRunWrite .. | .dispatchCsbWrite .. | .mailboxRegister .. | .mailboxUnregister ..
  | .tlbInvalidate | .descriptorWrite .. | .invalidateComplete | .attestRequest | .attestDone
  | .slotHold .. | .slotDrop .. | .adoptLaunch .. | .plimWrite .. | .pkgNumberWrite .. | .journalClear
  | .registerWrite .. | .powerManagerTick .. | .bootStart .. | .cubeFlitReceive .. | .oxlinkRead ..
  | .oxlinkWrite .. | .oxlinkCompletion .. | .oxlinkMailbox .. | .oxlinkReduce .. | .oxlinkBroadcast ..
  | .inboundWrite .. | .inboundRead .. | .illegal .. | .bundleFetchFault | .mailboxCommandDone ..
  | .powerLoss .. => .event

/-- A block-floating-point format (R55). -/
def Fmt.isBfp : Fmt → Bool
  | .bfp _ => true
  | _ => false

/-- An accumulator kind code (R54): FP32, FP64 and, under INT8's code, INT32. -/
def Fmt.isKind : Fmt → Bool
  | .fp32 | .fp64 | .int8 => true
  | _ => false

/-- The pairs of operand formats the array accepts (R71): FP64 pairs only with FP64. -/
def Fmt.pairOk (a b : Fmt) : Bool := (a == .fp64) == (b == .fp64)

namespace XOpd

/-- The operand field left 0. -/
def isZero (o : XOpd) : Bool := o == .t 0
/-- A Z register. -/
def isZ : XOpd → Bool
  | .z _ => true
  | _ => false
/-- A scratchpad pair, whose index must be even (R210). -/
def isPair : XOpd → Bool
  | .pair n _ => n.val % 2 == 0
  | _ => false
/-- A T register or an even pair. -/
def isTP : XOpd → Bool
  | .t _ => true
  | .pair n _ => n.val % 2 == 0
  | _ => false
/-- A T register, an even pair or the hold latch. -/
def isTPH : XOpd → Bool
  | .hold => true
  | o => o.isTP
/-- A T register, an even pair or a Z register. -/
def isTPZ (o : XOpd) : Bool := o.isTP || o.isZ
/-- No consume modifier: it exists on A and B only (R210). -/
def noCons : XOpd → Bool
  | .pair _ c => !c
  | _ => true

end XOpd

/-- RND and OVF both 0 (R276). -/
def XArgs.plain (x : XArgs) : Bool := x.rnd == .rne && x.ovf == .sat

/-- The limit on the multiplies' AUX (R276): the first G register when an operand is BFP, otherwise 0. -/
def XArgs.auxG (x : XArgs) : Bool :=
  if x.fa.isBfp || x.fb.isBfp then x.aux.val < 16 else x.aux == 0

/-- A source of a form that also reads Z registers: in a Z, FA names the kind (R277). -/
def XArgs.srcOk (x : XArgs) : Bool := x.oa.isTPZ && (!x.oa.isZ || x.fa.isKind)

/-- The five formats of SOFTROW (R276). -/
def Fmt.soft : Fmt → Bool
  | .fp32 | .fp16 | .bf16 | .e4m3 | .e5m2 => true
  | _ => false

/-- The formats of a sparse weight (R276, MMAS and SPBUILD), BFP apart. -/
def Fmt.sparse : Fmt → Bool
  | .e4m3 | .e5m2 | .bf16 | .fp16 | .int8 => true
  | _ => false

/-- Per-form limits of the X slot (R276, R296). -/
def Instr.wfX : Instr → Bool
  | .mma x | .mmar x => Fmt.pairOk x.fa x.fb && x.fd == .fp32 && x.plain && x.oa.isTPH && x.ob.isTPH &&
      x.od.isZ && x.auxG && x.var == 0
  | .mmas x => (x.fb.sparse || x.fb.isBfp) && Fmt.pairOk x.fa x.fb && x.fd == .fp32 && x.plain &&
      x.oa.isTPH && x.ob.isTP && x.od.isZ && x.auxG && x.var.val < 2
  | .mmat x => !(x.fa == .fp64) && !x.fa.isBfp && !(x.fb == .fp64) && !x.fb.isBfp && x.fd == .fp32 &&
      x.plain && x.oa.isTPH && x.ob.isTPH && x.od.isZ && x.var == 0
  | .zclr x => x.fa == .fp32 && x.fb == .fp32 && x.fd.isKind && x.plain && x.oa.isZero && x.ob.isZero &&
      x.od.isZ && x.sh == 0 && x.aux == 0 && x.var == 0
  | .zld x => x.fb == .fp32 && x.fd.isKind && x.plain && x.oa.isTP && x.ob.isZero && x.od.isZ &&
      x.var.val < 2 && (x.var == 1 || (if x.fa.isBfp then x.aux.val < 16 else x.aux == 0))
  | .zst x => x.fa.isKind && x.fb == .fp32 && x.oa.isZ && x.ob.isZero && x.od.isTP && x.od.noCons &&
      x.var.val < 2 && (x.var == 1 || x.fd.isBfp || x.aux == 0)
  | .zmov x => x.fa == x.fd && x.fa.isKind && x.fb == .fp32 && x.plain && x.oa.isZ && x.ob.isZero &&
      x.od.isZ && x.aux == 0 && x.var.val < 2
  | .trans x => x.srcOk && x.fb == .fp32 && !x.fd.isBfp && x.ob.isZero && x.od.isTP && x.od.noCons &&
      x.aux == 0 && x.var == 0
  | .spbuild x => x.fa.sparse && x.fb == .int8 && x.fd == .fp32 && x.plain && x.oa.isTP && x.ob.isTP &&
      x.od.isPair && x.od.noCons && x.aux == 0 && x.var == 0
  | .rowred x | .colred x => x.srcOk && !x.fa.isBfp && x.fb == .fp32 && !x.fd.isBfp && x.ob.isZero &&
      x.od.isTP && x.od.noCons && x.aux == 0 && x.var.val < 3
  | .softrow x => x.oa.isTPZ && x.fa.soft && (!x.oa.isZ || x.fa == .fp32) && x.fb == .fp32 && x.fd.soft &&
      x.ob.isZ && x.od.isTP && x.od.noCons && x.var == 0
  | .merge x => x.fa == .fp32 && x.fb == .fp32 && x.fd == .fp32 && x.plain && x.oa.isZ && x.ob.isZ &&
      x.od.isZ && x.aux == 0 && x.var == 0
  | .topk x => x.srcOk && !x.fa.isBfp && x.fb == .fp32 && x.fd == .fp32 && x.plain && x.ob.isZero &&
      x.od.isTP && x.od.noCons && x.aux == 0 && x.var.val < 2
  | .window x => Fmt.pairOk x.fa x.fb && !x.fa.isBfp && !x.fb.isBfp && !x.fd.isBfp && x.oa.isPair &&
      x.ob.isTP && x.od.isTP && x.od.noCons && x.aux == 0 && x.var == 0
  | .lup x | .chol x => (x.fa == .fp32 || x.fa == .fp64) && x.fd == x.fa && x.fb == .fp32 && x.plain &&
      x.oa.isZero && x.ob.isZero && x.od.isZ && x.aux == 0 && x.var == 0
  | .qrh x => (x.fa == .fp32 || x.fa == .fp64) && x.fd == x.fa && x.fb == .fp32 && x.plain &&
      x.oa.isZero && x.ob.isZero && x.od.isZ && x.var == 0
  | .trsm x | .trmm x => (x.fa == .fp32 || x.fa == .fp64) && x.fd == x.fa && x.fb == .fp32 && x.plain &&
      x.oa.isZ && x.ob.isZero && x.od.isZ && x.aux == 0
  | _ => true

/-- Pair indices of a C-slot instruction are even, and two pairs leave OFF 0 (R213). -/
def CArgs.wf (c : CArgs) : Bool :=
  (!c.dk || c.dr.val % 2 == 0) && (!c.sk || c.sr.val % 2 == 0) && (!(c.dk && c.sk) || c.off == 0)

/-- A tile address: the pair index is even (R207). -/
def TileAddr.wf : TileAddr → Bool
  | .pair sb => sb.val % 2 == 0
  | .mem .. => true

/-- A memory-mode tile access carries no consume modifier (R207). -/
def TileAddr.isPair : TileAddr → Bool
  | .pair _ => true
  | .mem .. => false

/-- The fields hold values their encoding can hold and the description allows (R203). (DEDUCED: log 82.) -/
def Instr.wf (i : Instr) : Bool :=
  match i with
  | .bfx _ _ pos width | .bfi _ _ pos width =>
      decide (pos < 64) && decide (1 ≤ width) && decide (pos + width ≤ 64)
  | .sext _ _ n => decide (1 ≤ n) && decide (n ≤ 64)
  | .fcvt k rm _ _ => !(k == .f64f32) || rm == .rne
  | .loop _ len => decide (1 ≤ len) && decide (len < 65536)
  | .ldt _ _ ad cons _ => ad.wf && (!cons || ad.isPair)
  | .stt _ ad _ _ => ad.wf
  | .stp _ sb sc _ _ => sb.val % 2 == 0 && sc.val % 2 == 0
  | .copy c | .bcast c => c.wf
  | .gather c => c.wf && c.dk && !c.sk
  | .scatter c => c.wf && !c.dk && c.sk
  | .mbox c => c.wf && !c.dk && c.hs == 0 && c.cr == 0
  | .areduce op c => c.wf && c.cr.val == (match op with | .sum => 0 | .max => 1 | .min => 2)
  | i => i.wfX

/-- Destinations for the rule that no two slots of a bundle name the same one (R17, R203). -/
inductive Dest where
  | s (n : SReg) | p (n : PReg) | t (n : TReg) | z (n : ZReg) | g (n : GReg) | h (n : HReg) | csr (c : Csr)
  deriving DecidableEq, Repr

/-- A destination S register; S0 never counts (R203). -/
def Dest.ofS (d : SReg) : List Dest := if d = 0 then [] else [.s d]
/-- A destination P register; P0 never counts (R203). -/
def Dest.ofP (d : PReg) : List Dest := if d = 0 then [] else [.p d]
/-- The destination an OD field names. -/
def Dest.ofX : XOpd → List Dest
  | .t n => [.t n]
  | .z n => [.z n]
  | _ => []

/-- The destination registers an instruction names (R203). -/
def Instr.dests : Instr → List Dest
  | .add d .. | .sub d .. | .mul d .. | .mulh d .. | .mulhu d .. | .div d .. | .divu d .. | .rem d ..
  | .remu d .. | .and d .. | .or d .. | .xor d .. | .andn d .. | .shl d .. | .shr d .. | .sha d ..
  | .rot d .. | .min d .. | .minu d .. | .max d .. | .maxu d .. | .clz d .. | .ctz d .. | .popc d ..
  | .bfx d .. | .bfi d .. | .sext d .. | .li d .. | .lih d .. | .sel d .. | .fadd _ _ d .. | .fsub _ _ d ..
  | .fmul _ _ d .. | .ffma _ _ d .. | .fmin _ d .. | .fmax _ d .. | .fcvt _ _ d .. | .fclass _ d ..
  | .lea d .. | .sptest d .. | .spcast d .. | .call d .. | .jmpr d .. | .csrr d .. | .waitm d .. => Dest.ofS d
  | .cmp _ d .. | .pand d .. | .por d .. | .pnot d .. | .fcmp _ _ d .. => Dest.ofP d
  | .csrw c _ => [.csr c]
  | .ld _ d .. | .aadd _ d .. | .amin _ d .. | .amax _ d .. | .aminu _ d .. | .amaxu _ d .. | .aand _ d ..
  | .aor _ d .. | .axor _ d .. | .aswp _ d .. | .acas _ d .. | .afadd _ d .. | .lineq d .. | .pfxl d ..
  | .pfxi d .. | .pfxr d .. => Dest.ofS d
  | .asubf _ d _ _ _ _ pd _ => Dest.ofS d ++ Dest.ofP pd
  | .hget c .. => Dest.ofS c
  | .seqld _ d .. => .csr .seql :: Dest.ofS d
  | .ldt _ t .. => [.t t]
  | .hld h .. | .hev h => [.h h]
  | .mma x | .mmas x | .mmar x | .mmat x | .zclr x | .zld x | .zmov x | .trans x | .spbuild x | .rowred x
  | .colred x | .merge x | .topk x | .window x | .lup x | .chol x | .trsm x | .trmm x => Dest.ofX x.od
  | .zst x => Dest.ofX x.od ++ (if x.var == 1 || x.fd.isBfp then [.t x.aux] else [])
  | .softrow x | .qrh x => .t x.aux :: Dest.ofX x.od
  | .gld g _ => [.g g, .csr .gptr]
  | .gzero g => [.g g]
  | _ => []

/-- Two slots name a common destination. -/
def clash (a b : Option Instr) : Bool :=
  match a, b with
  | some i, some j => i.dests.any (fun d => j.dests.contains d)
  | _, _ => false

/-- An instruction that may stand in a slot of kind `k`: that slot's, or the no-op. -/
def fits (k : SlotKind) : Option Instr → Bool
  | none => true
  | some i => (i == .nop || i.slot == k) && i.wf

/-- A well-formed bundle: every slot holds one of its own instructions, well formed, and no two slots
name one destination (R203). -/
def Bundle.wf (b : Bundle) : Bool :=
  fits .s b.s && fits .m b.m && fits .x b.x && fits .c b.c && fits .g b.g &&
  !(clash b.s b.m || clash b.s b.x || clash b.s b.c || clash b.s b.g || clash b.m b.x || clash b.m b.c ||
    clash b.m b.g || clash b.x b.c || clash b.x b.g || clash b.c b.g)

end Sys2Proof
end

