-- ==== Sys2Proof/Machine/Pool.lean ====
section
/-! DEFINITION. Where matrix operands lie in the pool: T registers, Z windows and scratchpad pairs with their layouts
and rotation (R34 to R36, R67 to R69, R192, R251, R277), and reading and writing them by rows. -/

namespace Sys2Proof.Machine

/-- The fields of a scratchpad pair (R34). -/
structure PairV where
  base   : Nat
  rpitch : Nat
  tpitch : Nat
  lay    : Nat
  rot    : Nat
  deriving DecidableEq, Repr

/-- The pair that two register values describe (R34). -/
def pairOf (w : Word × Word) : PairV :=
  ⟨wbits w.1 31 0, wbits w.2 31 0, wbits w.2 63 32, wbits w.1 39 38, wbits w.1 37 32⟩

/-- BASE and RPITCH are multiples of 32 and LAY names a layout (R36). -/
def PairV.formOk (p : PairV) : Bool := p.base % 32 == 0 && p.rpitch % 32 == 0 && p.lay != 3

/-- An offset with bits [12:7] rotated for row `i` (R35). -/
def PairV.rotate (p : PairV) (i o : Nat) : Nat := o / 8192 * 8192 + (o / 128 % 64 + i * p.rot) % 64 * 128 + o % 128

/-- Bit `k` of a row or column number. -/
def bitAt (n k : Nat) : Nat := n / 2 ^ k % 2

/-- The Z-order index of element (i, j) (R67). -/
def zIndex (i j : Nat) : Nat :=
  16 * ((List.range 6).map (fun k => bitAt j (k + 2) * 2 ^ (2 * k) + bitAt i (k + 2) * 2 ^ (2 * k + 1))).sum +
    4 * (i % 4) + j % 4

/-- The element index of (i, j) in a Z-order pair or, transposed, in a Z-order-transposed one (R68). -/
def PairV.zOf (p : PairV) (i j : Nat) : Nat := if p.lay = 2 then zIndex j i else zIndex i j

/-- A run of `n` bytes at offset `o` cut where lines end. -/
def cutLines (o n fuel : Nat) : List (Nat × Nat) :=
  match fuel with
  | 0 => []
  | k + 1 =>
    let m := 128 - o % 128
    if n = 0 then [] else if n ≤ m then [(o, n)] else (o, m) :: cutLines (o + m) (n - m) k

/-- Bytes of one element; for BFP, of one block (R56). -/
def unitOf (f : Fmt) : Nat := if f.isBfp then 4 * f.bw else f.size

/-- Bytes of a row of `n` elements (R56). -/
def rowLen (f : Fmt) (n : Nat) : Nat := if f.isBfp then (n + 31) / 32 * (4 * f.bw) else n * f.size

/-- Scratchpad runs of row `i` with `n` elements of `f`: effective offsets (R35, R67, R68). -/
def PairV.rowRuns (p : PairV) (f : Fmt) (n i : Nat) : List (Nat × Nat) :=
  if p.lay = 0 then
    (cutLines (p.base + i * p.rpitch) (rowLen f n) 4096).map (fun r => (p.rotate i r.1, r.2))
  else (List.range n).map (fun j => (p.rotate i (p.base + p.zOf i j * f.size), f.size))

/-- One past the last nominal offset of a `rows` × `cols` operand; a Z-order tile of side 2 or less takes its whole leaf
(R36, R67). -/
def PairV.extent (p : PairV) (f : Fmt) (rows cols : Nat) : Nat :=
  if p.lay = 0 then p.base + (rows - 1) * p.rpitch + rowLen f cols
  else p.base + (if rows ≤ 2 ∧ cols ≤ 2 then 16 else p.zOf (rows - 1) (cols - 1) + 1) * f.size

/-- The checks of a pair used for a `rows` × `cols` operand of `f` (R36, R69). -/
def Core.pairBad (c : Core) (p : PairV) (f : Fmt) (rows cols : Nat) : Option Cause :=
  if !p.formOk || (f.isBfp && p.lay != 0) then some Cause.operandForm
  else if c.scratchSize < p.extent f rows cols then some Cause.scratchRange
  else none

/-! ## Places -/

/-- Where a matrix operand lies. -/
inductive Place where
  | t (n : Nat)
  | pair (p : PairV)
  | z (m row col : Nat)
  deriving DecidableEq, Repr

/-- Bytes of an accumulator word (R54). -/
def ZKind.size (k : ZKind) : Nat := match k with | .fp64 => 8 | _ => 4

/-- The pool byte of element (i, j) of a Z register (R192). -/
def Core.zByte (c : Core) (m : Nat) (k : ZKind) (i j : Nat) : Nat :=
  (c.partw.tg + m) * Config.granule + k.size * ((match k with | .fp64 => 128 | _ => 256) * i + j)

/-- The kind of a Z register. -/
def Core.kindOf (c : Core) (m : Nat) : ZKind := c.zkind.toList.getD m .fp32

/-- Pool runs of row `i` of an operand with `n` elements of `f` (R192, R251, R277). -/
def Core.placeRuns (c : Core) (pl : Place) (f : Fmt) (n i : Nat) : List (Nat × Nat) :=
  match pl with
  | .t r => [((r + i / tileRows f) * Config.tBytes + i % tileRows f * (if f.isBfp then 256 else tileRowBytes f),
      rowLen f n)]
  | .pair p => (p.rowRuns f n i).map (fun r => (c.scratchBase + r.1, r.2))
  | .z m row col => [(c.zByte m (c.kindOf m) (row + i) col, n * (c.kindOf m).size)]

/-- Bytes at several runs of the pool, joined. -/
def Core.runsBytes (c : Core) (rs : List (Nat × Nat)) : List Byte := rs.flatMap (fun r => c.pool.run r.1 r.2)

/-- The element codes of a row held in bytes: BFP mantissas by their bits (R56), other formats by their bytes. -/
def rowElems (f : Fmt) (size n : Nat) (bs : List Byte) : List Nat :=
  if f.isBfp then
    let v := leVal bs
    (List.range n).map (fun t => v / 2 ^ (f.bw * t) % 2 ^ f.bw)
  else (chunks size n bs).map leVal

/-- The bytes of a row of element codes. -/
def rowBytes (f : Fmt) (size : Nat) (vs : List Nat) : List Byte :=
  if f.isBfp then
    leBytes (rowLen f vs.length) ((vs.mapIdx (fun t v => v % 2 ^ f.bw * 2 ^ (f.bw * t))).sum)
  else vs.flatMap (leBytes size)

/-- Bytes of an element of a place: of the kind in a Z register, of the format elsewhere. -/
def Core.elemSize (c : Core) (pl : Place) (f : Fmt) : Nat :=
  match pl with
  | .z m _ _ => (c.kindOf m).size
  | _ => f.size

/-- The element codes of a `rows` × `cols` operand, row by row. -/
def Core.readPlace (c : Core) (pl : Place) (f : Fmt) (rows cols : Nat) : List (List Nat) :=
  (List.range rows).map (fun i =>
    rowElems (match pl with | .z _ _ _ => .fp32 | _ => f) (c.elemSize pl f) cols (c.runsBytes (c.placeRuns pl f cols i)))

/-- Bytes laid along runs. -/
def spread (rs : List (Nat × Nat)) (bs : List Byte) : List (Nat × List Byte) :=
  match rs with
  | [] => []
  | r :: t => (r.1, bs.take r.2) :: spread t (bs.drop r.2)

/-- Pool writes of rows of element codes at a place. -/
def Core.writeRuns (c : Core) (pl : Place) (f : Fmt) (rows : List (List Nat)) : List (Nat × List Byte) :=
  (rows.mapIdx (fun i vs =>
    spread (c.placeRuns pl f vs.length i)
      (rowBytes (match pl with | .z _ _ _ => .fp32 | _ => f) (c.elemSize pl f) vs))).flatten

/-- Scratchpad lines that an operand touches. -/
def Core.placeLines (_c : Core) (pl : Place) (f : Fmt) (rows cols : Nat) : List Nat :=
  match pl with
  | .pair p => ((List.range rows).flatMap (fun i => (p.rowRuns f cols i).map (fun r => r.1 / 128))).eraseDups
  | _ => []

/-- The first of the lines that holds a state. -/
def Core.lineIn (c : Core) (st : LineCode) (ls : List Nat) : Option Nat := ls.find? (fun l => c.lineView l == st)

/-- Bytes of line `l` that runs of scratchpad offsets cover. (DEDUCED: log 37.) -/
def lineCover (l : Nat) (rs : List (Nat × Nat)) : Nat :=
  ((List.range 128).filter (fun b => rs.any (fun r => decide (r.1 ≤ 128 * l + b) && decide (128 * l + b < r.1 + r.2)))).length

/-- One store of a core through several runs of its scratchpad: an EMPTY line all of whose bytes it writes becomes FULL
(R31). -/
def Core.storeRuns (c : Core) (rs : List (Nat × List Byte)) : Core :=
  let c := c.putRuns (rs.map (fun r => (c.scratchBase + r.1, r.2)))
  let spans := rs.map (fun r => (r.1, r.2.length))
  let ls := (spans.map (fun r => r.1 / 128)).eraseDups
  ls.foldl (fun c l =>
    if c.line l == .empty && lineCover l (spans.filter (fun r => r.1 / 128 == l)) == 128 then c.setLine l .full else c) c

/-- The pool with T register `n` as `cells` hold it. -/
def withT (pool : Mem) (n : Nat) (cells : Mem) : Mem :=
  pool.filter (fun x => decide (x.1 < n * Config.tBytes)) ++ cells ++ pool.filter (fun x => decide ((n + 1) * Config.tBytes ≤ x.1))

/-- A T register is about to be written: threads that have not read yet keep it as it is (R17). -/
def Core.keepT (c : Core) (n : Nat) : Core :=
  let cells := c.pool.filter (fun x => decide (n * Config.tBytes ≤ x.1) && decide (x.1 < (n + 1) * Config.tBytes))
  { c with threads := c.threads.map (fun t => if t.res.isNone then { t with olds := (n, cells) :: t.olds } else t) }

/-- The core as a thread that reads now finds it. -/
def Core.seenBy (c : Core) (t : Thread) : Core := { c with pool := t.olds.foldl (fun p o => withT p o.1 o.2) c.pool }

/-- Runs of the pool hold poisoned data (R197). -/
def Core.runsBad (c : Core) (rs : List (Nat × Nat)) : Bool :=
  c.badPool.any (fun k => rs.any (fun r => decide (r.1 < 32 * k + 32) && decide (32 * k < r.1 + r.2)))

/-- The whole image of a T register. -/
def Core.tImage (c : Core) (n : Nat) : List Byte := c.pool.run (n * Config.tBytes) Config.tBytes

/-- A T register is present in the partition (R29). -/
def Core.hasT (c : Core) (n : Nat) : Bool := decide (n < 16 * c.partw.tg)
/-- A Z register is present in the partition (R29). -/
def Core.hasZ (c : Core) (n : Nat) : Bool := decide (n < c.partw.zg)

end Sys2Proof.Machine
end

