-- ==== Sys2Proof/Machine/Matrix.lean ====
section
/-! DEFINITION. The arithmetic of the X slot over lists of values: operands through ports A and B, accumulation, drains
through port D, reductions, softmax, ranking and triples (R71 to R86, R277 to R293, R314, R316). -/

namespace Sys2Proof.Machine

/-! ## Element types -/

/-- The type of an operand's elements: a format, or INT32 accumulator words (R54). -/
inductive Elt where
  | fmt (f : Fmt)
  | i32
  deriving DecidableEq, Repr

/-- The element type of an operand: of its kind in a Z register, of its format elsewhere (R277). -/
def eltOf (isZ : Bool) (f : Fmt) : Elt := if isZ && f == .int8 then .i32 else .fmt f

/-- The lane kind an element type enters a port with (R313). -/
def Elt.lane (e : Elt) : LaneKind := match e with | .i32 => .i32 | .fmt f => laneOf f

/-- The value of an element word; for BFP the exponent stands above the mantissa's byte (R192). -/
def Elt.num (e : Elt) (w : Nat) : Num :=
  match e with
  | .i32 => Num.ofInt (signedOf 32 w)
  | .fmt f => if f.isBfp then bfpNum f.bw (signedOf 8 w) (w / 256) else readElem f w

/-- The lane value with which an element enters a port: exact, an infinity too (R316). -/
def Elt.entry (e : Elt) (w : Nat) : Nat × Flags :=
  match e with
  | .i32 => (laneInt (signedOf 32 w), 0)
  | .fmt .fp64 | .fmt .fp32 => (w, 0)
  | .fmt .int8 => (laneInt (signedOf 8 w), 0)
  | e => let r := ff32.conv .rne .inf (e.num w); (r.code, r.flags)

/-- A lane value as a number: an INT32 lane reads bits [31:0] (R316). -/
def laneVal (k : LaneKind) (v : Nat) : Num := match k with | .i32 => Num.ofInt (viewI v) | _ => viewF k v

/-- The conversion of a lane value to an element type (R316). -/
def Elt.exit (e : Elt) (rm : Rm) (pol : Ovf) (k : LaneKind) (v : Nat) : Conv :=
  match e with
  | .i32 => convInt 32 rm pol (laneVal k v)
  | .fmt f => convTo f rm pol (laneVal k v)

/-- Rows and columns exchanged, for rows of `n` elements; `z` fills a missing one. -/
def transposed {α : Type} (z : α) (n : Nat) (rows : List (List α)) : List (List α) :=
  (List.range n).map (fun j => rows.map (fun r => r.getD j z))

/-! ## Operands (R57, R277, R316) -/

/-- The elements of a lane's stream: identifier (row, column), one segment. -/
def laneElems (row : Nat) (vs : List Nat) : List PElem := vs.mapIdx (fun c v => ⟨[row, c], row, c, c == 0, v⟩)

/-- A BFP word from an exponent and a mantissa (R192). -/
def bfpWord (x : Nat) (m : Int) : Nat := x * 256 + wrapTo 8 m

/-- Re-forms the blocks of a row of numbers (R65, R316). -/
def reblock (w : Nat) (rm : Rm) (pol : Ovf) (xs : List Num) : List Nat × List Nat × Flags × List Nat :=
  (chunks 32 ((xs.length + 31) / 32) xs).foldl (fun acc b =>
    let r := bfpBlock w rm pol b
    (acc.1 ++ r.ms.map (bfpWord r.x), acc.2.1 ++ [r.x], acc.2.2.1 ||| r.flags,
     acc.2.2.2 ++ r.faults.map (fun t => acc.1.length + t))) ([], [], 0, [])

/-- What a port leaves of an operand: its rows of words, the flags and the element faults. -/
structure Passed where
  rows : List (List Nat)
  flags : Flags
  faults : List PFault

/-- An operand through port A or B: `rows` in logical order, BFP blocks along a row, or along a column when `down`
(R314, R316). -/
def passIn (p : PortCap) (e : Elt) (down : Bool) (cols : Nat) (rows : List (List Nat)) : Passed :=
  match p.prog with
  | none => ⟨rows, 0, []⟩
  | some _ =>
    let ent := rows.map (fun r => r.map e.entry)
    let k := e.lane
    let r := runPort k p (ent.mapIdx (fun i vs => laneElems i (vs.map Prod.fst)))
    let fl := (ent.flatten.map Prod.snd).foldl (· ||| ·) r.flags
    let outs := r.outs.map (fun l => l.map Prod.snd)
    match e with
    | .fmt (.bfp i) =>
      let nums := outs.map (fun l => l.map (laneVal k))
      let nums := if down then transposed Num.zero cols nums else nums
      let bl := nums.map (reblock (Fmt.bfp i).bw .rne .sat)
      let back := bl.map (fun b => b.1)
      ⟨if down then transposed 0 rows.length back else back, (bl.map (fun b => b.2.2.1)).foldl (· ||| ·) fl, r.faults⟩
    | e =>
      let cv := outs.map (fun l => l.map (e.exit .rne .sat k))
      ⟨cv.map (fun l => l.map Conv.code), (cv.flatten.map Conv.flags).foldl (· ||| ·) fl, r.faults⟩

/-- What a drain leaves: rows of codes, the exponents of BFP rows, the flags and the faults. -/
structure Drained where
  rows : List (List Nat)
  exps : List (List Nat)
  flags : Flags
  faults : List PFault

/-- Values through port D and into the destination format; a conversion fault counts as step 15 (R316, R327). -/
def passOut (p : PortCap) (k : LaneKind) (f : Fmt) (rm : Rm) (pol : Ovf) (lanes : List (List PElem)) : Drained :=
  let r := runPort k p lanes
  let flt (el : PElem) : PFault := ⟨el.ident, el.row, el.col, 15, Cause.elemOverflow⟩
  if f.isBfp then
    let bl := r.outs.map (fun l => (l, reblock f.bw rm pol (l.map (fun x => laneVal k x.2))))
    ⟨bl.map (fun b => b.2.1.map (fun w => w % 256)), bl.map (fun b => b.2.2.1),
     (bl.map (fun b => b.2.2.2.1)).foldl (· ||| ·) r.flags,
     r.faults ++ bl.flatMap (fun b => b.2.2.2.2.filterMap (fun t => b.1[t]?.map (fun x => flt x.1)))⟩
  else
    let cv := r.outs.map (fun l => l.map (fun x => (x.1, (Elt.fmt f).exit rm pol k x.2)))
    ⟨cv.map (fun l => l.map (fun x => x.2.code)), [],
     (cv.flatten.map (fun x => x.2.flags)).foldl (· ||| ·) r.flags,
     r.faults ++ cv.flatten.filterMap (fun x => if x.2.fault then some (flt x.1) else none)⟩

/-! ## Accumulation (R71 to R74) -/

/-- Accumulation classes (R71). -/
inductive AccClass where
  | chain | wide | int | block | narrow
  deriving DecidableEq, Repr

/-- The class of a pair of formats (R71). -/
def accClass (a b : Fmt) : AccClass :=
  if a = .fp64 then .chain
  else if a = .fp32 ∨ b = .fp32 then .wide
  else if a = .int8 ∧ b = .int8 then .int
  else if a.isBfp ∨ b.isBfp then .block
  else .narrow

/-- The accumulator kind of a class (R71). -/
def AccClass.kind (c : AccClass) : ZKind :=
  match c with
  | .chain => .fp64 | .int => .int32 | _ => .fp32

/-- An exact group sum; pruned positions give no term (R73, R74). -/
def groupSum (ts : List (Option (Num × Num))) : Sum :=
  ts.foldl (fun a t => match t with | some (x, y) => a.prod x y | none => a) Sum.empty

/-- The integer of a number read from an integer format. -/
def Num.toInt (x : Num) : Int :=
  match x with
  | .fin s m e => sMant s (m * 2 ^ e.toNat)
  | _ => 0

/-- One group added to the accumulator (R72). -/
def addGroup (c : AccClass) (z : Coded) (ts : List (Option (Num × Num))) : Coded :=
  match c with
  | .int =>
    let s := (ts.map (fun t => match t with | some (x, y) => x.toInt * y.toInt | none => 0)).sum
    let v := signedOf 32 z.1 + s
    (wrapTo 32 v, z.2 ||| flagIf (decide (v < -(2 ^ 31)) || decide (2 ^ 31 - 1 < v)) fIOV)
  | .chain =>
    ts.foldl (fun z t => match t with
      | some (x, y) =>
        let zn := ff64.read z.1
        let r := ff64.fma .rne x y zn [zn, x, y]
        (r.1, z.2 ||| r.2)
      | none => z) z
  | _ =>
    let s := groupSum ts
    let v : Coded := if c = .narrow then ff32.put .rne s.value else (0, 0)
    let sv := if c = .narrow then ff32.read v.1 else s.value
    let r := ff32.add .rne (ff32.read z.1) sv
    (r.1, z.2 ||| s.flags ||| v.2 ||| r.2)

/-- Positions per group (R71). -/
def AccClass.group (c : AccClass) : Nat :=
  match c with
  | .chain => 1 | .wide => 4 | _ => 32

/-- Accumulates products into a result element (R72). -/
def accumulate (c : AccClass) (z : Nat) (ts : List (Option (Num × Num))) : Coded :=
  (chunks c.group ((ts.length + c.group - 1) / c.group) ts).foldl (addGroup c) (z, 0)

/-- Products of a row and a column. -/
def dense (a b : List Num) : List (Option (Num × Num)) := List.zipWith (fun x y => some (x, y)) a b

/-- The accumulation of every element of a window: old codes, rows of A, columns of B (R281). -/
def multiply (c : AccClass) (z : List (List Nat)) (pair : Nat → Nat → List (Option (Num × Num))) : List (List Coded) :=
  z.mapIdx (fun i r => r.mapIdx (fun j v => accumulate c v (pair i j)))

/-! ## Sparse operands (R282, R288) -/

/-- The nibble of metadata entry `e` in a register image (R282). -/
def metaAt (img : List Byte) (e : Nat) : Nat := (img.getD (e / 2) 0).toNat / 16 ^ (e % 2) % 16

/-- A valid nibble: the first position below the second (R282). -/
def metaOk (n : Nat) : Bool := decide (n % 4 < n / 4)

/-- The products of a row of A with a compressed column (R282, R74). -/
def sparse (img : List Byte) (j : Nat) (a b : List Num) : List (Option (Num × Num)) :=
  a.mapIdx (fun k x =>
    let m := metaAt img (256 * (k / 4) + j)
    if m % 4 = k % 4 then some (x, b.getD (2 * (k / 4)) Num.zero)
    else if m / 4 = k % 4 then some (x, b.getD (2 * (k / 4) + 1) Num.zero)
    else none)

/-- The kept positions of a group of four mask bytes. -/
def kept (ms : List Nat) : List Nat := (List.range 4).filter (fun t => nth ms t != 0)

/-- One plane built from lines of values and masks along the contraction (R288): for each line the kept values, and per
group the nibble; none when a group does not keep two. -/
def plane (vs ms : List (List Nat)) : Option (List (List Nat) × List (List Nat)) :=
  let groups (l : List Nat) : List (List Nat) := chunks 4 (l.length / 4) l
  let ks := ms.map (fun m => (groups m).map kept)
  if ks.all (fun l => l.all (fun g => g.length == 2)) then
    some (List.zipWith (fun v k => (List.zipWith (fun g p => p.map (nth g)) (groups v) k).flatten) vs ks,
          ks.map (fun l => l.map (fun p => nth p 0 + 4 * nth p 1)))
  else none

/-- The 16 KiB metadata image of nibbles by line and group: entry 256 × group + line (R282, R288). (DESIGN CHOICE: log 110.) -/
def metaImage (ns : List (List Nat)) : List Nat :=
  (List.range 64).flatMap (fun g =>
    (List.range 128).map (fun h => nth (ns.getD (2 * h) []) g + 16 * nth (ns.getD (2 * h + 1) []) g)) ++
  List.replicate 8192 0

/-! ## FP32 helpers -/

/-- round32 of a sum, a difference, a product and a fused step on FP32 codes. -/
def sub32 (x y : Nat) : Coded := ff32.sub .rne (ff32.read x) (ff32.read y)
def mul32 (x y : Nat) : Coded := ff32.mul .rne (ff32.read x) (ff32.read y)
def add32 (x y : Nat) : Coded := ff32.add .rne (ff32.read x) (ff32.read y)

/-- FP32 codes of −∞ and +0. -/
def negInf32 : Nat := 0xFF800000
/-- exp2_arch of round32(x − y) on codes, with the flags of both. -/
def expDiff (x y : Nat) : Coded :=
  let d := sub32 x y
  let r := exp2Arch (ff32.read d.1)
  (r.1, d.2 ||| r.2)
/-- The larger of two FP32 codes by R76. -/
def max32 (x y : Nat) : Coded :=
  let r := numMax (ff32.read x) (ff32.read y)
  ((ff32.put .rne r.1).1, r.2)

/-! ## Triples (R84 to R86, R283, R291) -/

/-- A row's triple: accumulators, maximum and sum, as FP32 codes. -/
structure Triple where
  acc : List Nat
  m   : Nat
  l   : Nat
  deriving DecidableEq, Repr

/-- MERGE of two triples (R85). -/
def mergeRow (x y : Triple) : Triple × Flags :=
  let ma := ff32.read x.m
  let mb := ff32.read y.m
  match firstNan [ma, mb] with
  | some q => let c := (ff32.put .rne q).1; (⟨x.acc.map (fun _ => c), c, c⟩, sigFlags [ma, mb])
  | none =>
    if x.m = negInf32 then (y, 0) else if y.m = negInf32 then (x, 0)
    else
      let m := max32 x.m y.m
      let one : Coded := (0x3F800000, 0)
      let al := if numEq ma (ff32.read m.1) then one else expDiff x.m m.1
      let be := if numEq mb (ff32.read m.1) then one else expDiff y.m m.1
      let f (a b : Nat) : Coded :=
        let t := mul32 al.1 a
        let bn := ff32.read be.1
        let r := ff32.fma .rne bn (ff32.read b) (ff32.read t.1) [bn, ff32.read b, ff32.read t.1]
        (r.1, t.2 ||| r.2)
      let acc := List.zipWith f x.acc y.acc
      let l := f x.l y.l
      (⟨acc.map Prod.fst, m.1, l.1⟩, (acc.map Prod.snd).foldl (· ||| ·) (m.2 ||| al.2 ||| be.2 ||| l.2))

/-- The rescale of MMAT (R86) for a row whose incoming maximum differs: a NaN maximum, the held one first, makes the whole row the
quiet NaN, its maximum too, as in R85; otherwise m takes the incoming maximum (R283). (DEDUCED: log 94.) -/
def rescaleRow (x : Triple) (mn : Nat) : Triple × Flags :=
  let ma := ff32.read x.m
  let mb := ff32.read mn
  match firstNan [ma, mb] with
  | some q => let c := (ff32.put .rne q).1; (⟨x.acc.map (fun _ => c), c, c⟩, sigFlags [ma, mb])
  | none =>
    if x.m = negInf32 then (⟨x.acc.map (fun _ => 0), mn, 0⟩, 0)
    else
      let al := expDiff x.m mn
      let acc := x.acc.map (mul32 al.1)
      let l := mul32 al.1 x.l
      (⟨acc.map Prod.fst, mn, l.1⟩, (acc.map Prod.snd).foldl (· ||| ·) (al.2 ||| l.2))

/-- The start of MMAT for a row: rescale when the maxima differ, then l := l + rs (R283). -/
def mmatRow (x : Triple) (mn rs : Nat) : Triple × Flags :=
  let ma := ff32.read x.m
  let mb := ff32.read mn
  let r := if numEq ma mb then (x, (0 : Flags)) else rescaleRow x mn
  let l := add32 r.1.l rs
  ({ r.1 with l := l.1 }, r.2 ||| l.2)

/-! ## Reductions (R75, R76, R289) -/

/-- The working type of a reduction's elements (R289). -/
def Elt.working (e : Elt) : LaneKind :=
  match e with
  | .i32 | .fmt .int8 => .i32
  | .fmt .fp64 => .f64
  | _ => .f32

/-- An element taken exactly into its working type. -/
def Elt.widen (e : Elt) (w : Nat) : Coded :=
  match e with
  | .i32 => (w, 0)
  | .fmt .int8 => (wrapTo 32 (signedOf 8 w), 0)
  | .fmt .fp64 | .fmt .fp32 => (w, 0)
  | e => let r := ff32.conv .rne .inf (e.num w); (r.code, r.flags)

/-- A max or min node over codes of a working type (R76). -/
def pickNode (k : LaneKind) (op : RedOp) (x y : Coded) : Coded :=
  match k with
  | .i32 =>
    let a := signedOf 32 x.1
    let b := signedOf 32 y.1
    (wrapTo 32 (if op = .max then max a b else min a b), x.2 ||| y.2)
  | _ =>
    let ff := laneFF k
    let r := (if op = .max then numMax else numMin) (ff.read x.1) (ff.read y.1)
    ((ff.put .rne r.1).1, x.2 ||| y.2 ||| r.2)

/-- A reduction by the tree of R75 or R76; an empty one is +0. -/
def reduce (k : LaneKind) (op : RedOp) (xs : List Coded) : Coded :=
  let node : Coded → Coded → Coded := match op with
    | .sum => (match k with | .i32 => sumNode32 | .f64 => sumNode ff64 | .f32 => sumNode ff32)
    | op => pickNode k op
  (tree node 20 xs).headD (0, 0)

/-- A working code as a lane value. -/
def laneCode (k : LaneKind) (v : Nat) : Nat := match k with | .i32 => laneInt (signedOf 32 v) | _ => v

/-! ## Softmax (R290) -/

/-- The maximum of a row and its probabilities, as FP32 codes: `mo` the earlier maximum. -/
def softRow (mo : Nat) (s : List Nat) : Nat × List Nat × Flags :=
  let ms := reduce .f32 .max (s.map (fun v => (v, 0)))
  let mn := max32 mo ms.1
  let ps := s.map (fun v => if mn.1 = negInf32 then ((0, 0) : Coded) else expDiff v mn.1)
  (mn.1, ps.map Prod.fst, (ps.map Prod.snd).foldl (· ||| ·) (ms.2 ||| mn.2))

/-! ## Ranking (R292) -/

/-- x ranks before y: a NaN after every number. -/
def ranksBefore (min : Bool) (x y : Num) : Bool :=
  if x.isNan then false else if y.isNan then true else if min then numLt x y else numLt y x

/-- Inserts an entry behind those that rank no later. -/
def rankIn (min : Bool) (x : Nat × Num) (xs : List (Nat × Num)) : List (Nat × Num) :=
  match xs with
  | [] => [x]
  | y :: r => if ranksBefore min x.2 y.2 then x :: y :: r else y :: rankIn min x r

/-- The k best of a row: indices with FP32 values, and the flags (R292). -/
def topRow (min : Bool) (k : Nat) (xs : List Num) : List (Nat × Nat) × Flags :=
  let ranked := (xs.mapIdx (fun i x => (i, x))).foldl (fun acc x => rankIn min x acc) []
  let best := (ranked.take k).map (fun e => (e.1, ff32.conv .rne .inf e.2))
  (best.map (fun e => (e.1, e.2.code)), (best.map (fun e => e.2.flags)).foldl (· ||| ·) (sigFlags xs))

end Sys2Proof.Machine
end

