-- ==== Sys2Proof/Machine/Crc.lean ====
section
/-! DEFINITION. The check values and digests that the package computes: CRC-16 of a sector (R196), CRC-32 of a flit (R368), and
SHA-256 (R172 to R174), whose constants and rounds are those of the public standard that the spec names. -/

namespace Sys2Proof.Machine

/-! ## Check values -/

/-- Shifts one bit out of a 16-bit CRC register, most significant first. -/
def crc16Bit (r : BitVec 16) : BitVec 16 := if r.getLsbD 15 then (r <<< 1) ^^^ 0x1021 else r <<< 1

/-- CRC-16 with polynomial 0x1021, initial value 0xFFFF, no reflection and no final XOR (R196). -/
def crc16 (bs : List Byte) : BitVec 16 :=
  bs.foldl (fun r b => (List.range 8).foldl (fun r _ => crc16Bit r) (r ^^^ (BitVec.setWidth 16 b <<< (8 : Nat)))) (0xFFFF : BitVec 16)

/-- Shifts one bit out of a reflected 32-bit CRC register. -/
def crc32Bit (r : BitVec 32) : BitVec 32 := if r.getLsbD 0 then (r >>> 1) ^^^ 0xEDB88320 else r >>> 1

/-- CRC-32 of IEEE 802.3, reflected, initial value and final XOR 0xFFFF_FFFF (R368). -/
def crc32 (bs : List Byte) : BitVec 32 :=
  (bs.foldl (fun r b => (List.range 8).foldl (fun r _ => crc32Bit r) (r ^^^ b.setWidth 32)) (0xFFFFFFFF : BitVec 32)) ^^^ 0xFFFFFFFF

/-! ## SHA-256 -/

/-- A sum reduced to 32 bits. -/
def wrap32 (n : Nat) : Nat := n % 2 ^ 32

/-- The largest number whose `k`th power is at most `x`, found bit by bit below bit `b`; `r` holds the bits found. -/
def rootBelow (k x b r : Nat) : Nat :=
  match b with
  | 0 => r
  | j + 1 => rootBelow k x j (if (r + 2 ^ j) ^ k ≤ x then r + 2 ^ j else r)

/-- The first 32 fraction bits of the `k`th root of `p`. -/
def fractionOf (k p : Nat) : Nat := wrap32 (rootBelow k (p * 2 ^ (32 * k)) 36 0)

/-- The primes below `n`. -/
def primesBelow (n : Nat) : List Nat :=
  (List.range n).foldl (fun ps k => if k < 2 || ps.any (fun p => k % p == 0) then ps else ps ++ [k]) []

/-- The round constants: cube roots of the first 64 primes. (PRESUMED: log 74.) -/
def shaK : List Nat := (primesBelow 312).map (fractionOf 3)

/-- A word turned right by `n` bits. -/
def turned (x n : Nat) : Nat := x >>> n + wrap32 (x <<< (32 - n))

/-- Three turns of a word, combined. -/
def turns (x i j k : Nat) : Nat := turned x i ^^^ turned x j ^^^ turned x k

/-- Two turns and a shift of a word, combined. -/
def bends (x i j k : Nat) : Nat := turned x i ^^^ turned x j ^^^ x >>> k

/-- The number that bytes hold, most significant first. -/
def beVal (bs : List Byte) : Nat := bs.foldl (fun a b => 256 * a + b.toNat) 0

/-- `n` bytes of a number, most significant first. -/
def beBytes (n v : Nat) : List Byte := (leBytes n v).reverse

/-- The chaining value: eight words. -/
structure ShaSum where
  a : Nat
  b : Nat
  c : Nat
  d : Nat
  e : Nat
  f : Nat
  g : Nat
  h : Nat
  deriving DecidableEq, Repr

/-- The eight words as a list. -/
def ShaSum.words (x : ShaSum) : List Nat := [x.a, x.b, x.c, x.d, x.e, x.f, x.g, x.h]

/-- Eight words as a chaining value. -/
def ShaSum.ofWords (w : List Nat) : ShaSum :=
  ⟨w.getD 0 0, w.getD 1 0, w.getD 2 0, w.getD 3 0, w.getD 4 0, w.getD 5 0, w.getD 6 0, w.getD 7 0⟩

/-- The initial value: square roots of the first eight primes. (PRESUMED: log 74.) -/
def shaInit : ShaSum := ShaSum.ofWords ((primesBelow 20).map (fractionOf 2))

/-- One round with constant `k`: the working words move on, and the window of sixteen message words by one. -/
def shaRound (st : ShaSum × List Nat) (k : Nat) : ShaSum × List Nat :=
  let x := st.1
  let w (i : Nat) : Nat := st.2.getD i 0
  let into := x.h + k + w 0 + turns x.e 6 11 25 + (x.g ^^^ x.e &&& (x.f ^^^ x.g))
  let top := into + turns x.a 2 13 22 + (x.a &&& x.b ||| x.c &&& (x.a ||| x.b))
  (⟨wrap32 top, x.a, x.b, x.c, wrap32 (x.d + into), x.e, x.f, x.g⟩,
   st.2.tail ++ [wrap32 (w 0 + w 9 + bends (w 1) 7 18 3 + bends (w 14) 17 19 10)])

/-- One block of 64 bytes is added to the chaining value. -/
def shaBlock (x : ShaSum) (block : List Byte) : ShaSum :=
  let y := (shaK.foldl shaRound (x, (chunks 4 16 block).map beVal)).1
  ShaSum.ofWords (List.zipWith (fun p q => wrap32 (p + q)) x.words y.words)

/-- What follows a message of `n` bytes: a bit 1, zeros up to a whole block, and the length in bits. -/
def shaTail (n : Nat) : List Byte := 0x80 :: List.replicate ((119 - n % 64) % 64) 0 ++ beBytes 8 (8 * n)

/-- The SHA-256 digest, 32 bytes. (PRESUMED: log 74.) -/
def sha256 (bs : List Byte) : List Byte :=
  let m := bs ++ shaTail bs.length
  ((chunks 64 (m.length / 64) m).foldl shaBlock shaInit).words.flatMap (beBytes 4)

/-! ## Flits (R368) -/

/-- The 256 bytes of a flit with its check values: of the sectors that it brings, or of the `nsec` that a read asks for.
(DEDUCED: log 61.) -/
def buildFlit (kind src dst tag seq addr : Nat) (secs : List (List Byte × Bool)) (nsec : Nat) : BitVec 2048 :=
  let head := le8 (kind * 2 ^ 61 + src * 2 ^ 50 + dst * 2 ^ 39 + nsec * 2 ^ 36 + tag * 2 ^ 24 + seq) ++ leBytes 5 addr ++ [0] ++
    secs.flatMap (fun x => leBytes 2 (if x.2 then (~~~(crc16 x.1)).toNat else (crc16 x.1).toNat)) ++ List.replicate (14 - 2 * secs.length) 0
  let body := secs.flatMap Prod.fst ++ List.replicate (224 - 32 * secs.length) 0
  BitVec.ofNat 2048 (leVal (head ++ leBytes 4 (crc32 (head ++ body)).toNat ++ body))

end Sys2Proof.Machine
end

