-- ==== Sys2Proof/Decode.lean ====
section
/-! DEFINITION. The bundle decoder and, after it, the encoder (R199 to R217, the slot maps). A slot word is
taken apart field by field into an instruction, and accepted only when the instruction is well formed and its
own encoding is the same word: so every reserved field and every field a form does not name must be 0 (R203). -/

namespace Sys2Proof

/-- Bits `hi` to `lo` of a word. -/
def fld (w hi lo : Nat) : Nat := w / 2 ^ lo % 2 ^ (hi + 1 - lo)

/-- The number of a format (R49). -/
def Fmt.code : Fmt → Nat
  | .fp32 => 0 | .fp64 => 1 | .fp16 => 2 | .bf16 => 3 | .e4m3 => 4 | .e5m2 => 5 | .int8 => 6
  | .bfp i => 9 + i.val

/-- The format of a code; 7 and 8 name none (R49). -/
def Fmt.ofCode (c : Nat) : Option Fmt :=
  match c with
  | 0 => some .fp32 | 1 => some .fp64 | 2 => some .fp16 | 3 => some .bf16 | 4 => some .e4m3
  | 5 => some .e5m2 | 6 => some .int8 | 9 => some (.bfp 0) | 10 => some (.bfp 1) | 11 => some (.bfp 2)
  | 12 => some (.bfp 3) | 13 => some (.bfp 4) | 14 => some (.bfp 5) | 15 => some (.bfp 6) | _ => none

/-- The number of a rounding (R60). -/
def Rm.code : Rm → Nat
  | .rne => 0 | .rtz => 1 | .rup => 2 | .rdn => 3
/-- The rounding of a code (R60). -/
def Rm.ofCode (c : Nat) : Rm :=
  match c with
  | 0 => .rne | 1 => .rtz | 2 => .rup | _ => .rdn
/-- The number of an overflow policy (R61). -/
def Ovf.code : Ovf → Nat
  | .sat => 0 | .inf => 1 | .nan => 2 | .trap => 3
/-- The policy of a code (R61). -/
def Ovf.ofCode (c : Nat) : Ovf :=
  match c with
  | 0 => .sat | 1 => .inf | 2 => .nan | _ => .trap
/-- The number of a scope (R87). -/
def Scope.code : Scope → Nat
  | .core => 0 | .clus => 1 | .pkg => 2 | .sys => 3
/-- The scope of a code (R87). -/
def Scope.ofCode (c : Nat) : Scope :=
  match c with
  | 0 => .core | 1 => .clus | 2 => .pkg | _ => .sys
/-- The SUB value of a comparison (R206). -/
def CmpCond.code : CmpCond → Nat
  | .eq => 0 | .ne => 1 | .lt => 2 | .ge => 3 | .ltu => 4 | .geu => 5 | .le => 6 | .gt => 7 | .leu => 8 | .gtu => 9
/-- The comparison of a SUB value (R206). -/
def CmpCond.ofCode (c : Nat) : Option CmpCond :=
  match c with
  | 0 => some .eq | 1 => some .ne | 2 => some .lt | 3 => some .ge | 4 => some .ltu | 5 => some .geu
  | 6 => some .le | 7 => some .gt | 8 => some .leu | 9 => some .gtu | _ => none
/-- The condition code of a float comparison (R225). -/
def FCond.code : FCond → Nat
  | .eq => 0 | .ne => 1 | .lt => 2 | .le => 3 | .gt => 4 | .ge => 5 | .un => 6
/-- The float comparison of a code (R225). -/
def FCond.ofCode (c : Nat) : Option FCond :=
  match c with
  | 0 => some .eq | 1 => some .ne | 2 => some .lt | 3 => some .le | 4 => some .gt | 5 => some .ge
  | 6 => some .un | _ => none
/-- The format bit of the scalar float forms (R223). -/
def SFmt.code : SFmt → Nat
  | .f32 => 0 | .f64 => 1
/-- The scalar float format of a bit (R223). -/
def SFmt.ofCode (c : Nat) : SFmt := if c = 0 then .f32 else .f64
/-- The pair code of FCVT (R226). -/
def FcvtPair.code : FcvtPair → Nat
  | .f64f32 => 0 | .f32f64 => 1 | .i64f32 => 2 | .i64f64 => 3 | .f32i64 => 4 | .f64i64 => 5
/-- The pair of an FCVT code (R226). -/
def FcvtPair.ofCode (c : Nat) : Option FcvtPair :=
  match c with
  | 0 => some .f64f32 | 1 => some .f32f64 | 2 => some .i64f32 | 3 => some .i64f64 | 4 => some .f32i64
  | 5 => some .f64i64 | _ => none
/-- The window code of SPCAST (R230). -/
def Win.code : Win → Nat
  | .global => 0 | .priv => 1 | .scratch => 2 | .clus => 3
/-- The window of an SPCAST code (R230). -/
def Win.ofCode (c : Nat) : Option Win :=
  match c with
  | 0 => some .global | 1 => some .priv | 2 => some .scratch | 3 => some .clus | _ => none
/-- The port code of BIND (R246). -/
def Port.code : Port → Nat
  | .a => 0 | .b => 1 | .d => 2 | .k => 3
/-- The port of a BIND code (R246). -/
def Port.ofCode (c : Nat) : Option Port :=
  match c with
  | 0 => some .a | 1 => some .b | 2 => some .d | 3 => some .k | _ => none
/-- The SIZE code (R207). -/
def Sz.code : Sz → Nat
  | .b => 0 | .h => 1 | .w => 2 | .d => 3
/-- The size of a SIZE code (R207). -/
def Sz.ofCode (c : Nat) : Sz :=
  match c with
  | 0 => .b | 1 => .h | 2 => .w | _ => .d
/-- The SIZE code of AFADD: W for FP32, D for FP64 (R207). -/
def SFmt.szCode : SFmt → Nat
  | .f32 => 2 | .f64 => 3
/-- The format of AFADD's SIZE code (R207). -/
def SFmt.ofSz (c : Nat) : Option SFmt :=
  match c with
  | 2 => some .f32 | 3 => some .f64 | _ => none
/-- The state code of LINE (R256). -/
def LineSt.code : LineSt → Nat
  | .empty => 0 | .full => 1 | .pois => 2
/-- The line state of a code (R256). -/
def LineSt.ofCode (c : Nat) : Option LineSt :=
  match c with
  | 0 => some .empty | 1 => some .full | 2 => some .pois | _ => none
/-- The reduction code of AREDUCE (R214). -/
def RedOp.code : RedOp → Nat
  | .sum => 0 | .max => 1 | .min => 2
/-- The reduction of a code (R214). -/
def RedOp.ofCode (c : Nat) : Option RedOp :=
  match c with
  | 0 => some .sum | 1 => some .max | 2 => some .min | _ => none

/-- The number of a control register (R43). -/
def Csr.num : Csr → Nat
  | .xpc => 0x000 | .tcause => 0x001 | .tmask => 0x002 | .taddr => 0x003 | .tinfo => 0x004
  | .tvec => 0x005 | .tlock => 0x006 | .ls i => 0x010 + i.val | .grow => 0x020 | .fprog => 0x021
  | .fstat => 0x022 | .pivt => 0x023 | .zpol => 0x024 | .xflags => 0x025 | .seql => 0x030
  | .partw => 0x040 | .strmst i => 0x041 + i.val | .slice => 0x050 | .corid => 0x051 | .taskid => 0x052
  | .troy => 0x053 | .capp => 0x054 | .dtime => 0x055 | .linewait => 0x060 | .stallc => 0x061
  | .gptr => 0x062 | .enumd i => 0x070 + i.val | .perm i => 0x100 + i.val

/-- The control register of a number (R43). -/
def Csr.ofNum (n : Nat) : Option Csr :=
  if 0x010 ≤ n ∧ n < 0x016 then some (.ls (Fin.ofNat 6 (n - 0x010)))
  else if 0x041 ≤ n ∧ n < 0x044 then some (.strmst (Fin.ofNat 3 (n - 0x041)))
  else if 0x070 ≤ n ∧ n < 0x078 then some (.enumd (Fin.ofNat 8 (n - 0x070)))
  else if 0x100 ≤ n ∧ n < 0x120 then some (.perm (Fin.ofNat 32 (n - 0x100)))
  else match n with
  | 0x000 => some .xpc | 0x001 => some .tcause | 0x002 => some .tmask | 0x003 => some .taddr
  | 0x004 => some .tinfo | 0x005 => some .tvec | 0x006 => some .tlock | 0x020 => some .grow
  | 0x021 => some .fprog | 0x022 => some .fstat | 0x023 => some .pivt | 0x024 => some .zpol
  | 0x025 => some .xflags | 0x030 => some .seql | 0x040 => some .partw | 0x050 => some .slice
  | 0x051 => some .corid | 0x052 => some .taskid | 0x053 => some .troy | 0x054 => some .capp
  | 0x055 => some .dtime | 0x060 => some .linewait | 0x061 => some .stallc | 0x062 => some .gptr
  | _ => none

/-- The register number in six bits. -/
def fS (w lo : Nat) : Fin 64 := Fin.ofNat 64 (fld w (lo + 5) lo)
/-- The predicate number in the low three of six bits (R204). -/
def fP (w lo : Nat) : PReg := Fin.ofNat 8 (fld w (lo + 2) lo)
/-- The second source of an S.R form (R204). -/
def fSrc (w : Nat) : Src :=
  if fld w 23 23 = 1 then .imm (BitVec.ofNat 23 (fld w 22 0)) else .reg (fS w 17)

/-- The S slot taken apart (R204, R205, R218 to R248). -/
def buildS (w : Nat) : Option Instr :=
  let sd := fS w 35
  let sa := fS w 29
  let sub := fld w 28 24
  let src := fSrc w
  match fld w 47 41 with
  | 0x01 => some (.add sd sa src)
  | 0x02 => some (.sub sd sa src)
  | 0x03 => some (.mul sd sa src)
  | 0x04 => some (.mulh sd sa src)
  | 0x05 => some (.mulhu sd sa src)
  | 0x06 => some (.div sd sa src)
  | 0x07 => some (.divu sd sa src)
  | 0x08 => some (.rem sd sa src)
  | 0x09 => some (.remu sd sa src)
  | 0x0A => some (.and sd sa src)
  | 0x0B => some (.or sd sa src)
  | 0x0C => some (.xor sd sa src)
  | 0x0D => some (.andn sd sa src)
  | 0x0E => some (.shl sd sa src)
  | 0x0F => some (.shr sd sa src)
  | 0x10 => some (.sha sd sa src)
  | 0x11 => some (.rot sd sa src)
  | 0x12 => some (.min sd sa src)
  | 0x13 => some (.minu sd sa src)
  | 0x14 => some (.max sd sa src)
  | 0x15 => some (.maxu sd sa src)
  | 0x16 => some (.clz sd sa)
  | 0x17 => some (.ctz sd sa)
  | 0x18 => some (.popc sd sa)
  | 0x19 => some (.bfx sd sa (fld w 5 0) (fld w 12 6))
  | 0x1A => some (.bfi sd sa (fld w 5 0) (fld w 12 6))
  | 0x1B => some (.sext sd sa (fld w 6 0))
  | 0x1C => some (.li sd (BitVec.ofNat 32 (fld w 31 0)))
  | 0x1D => some (.lih sd (BitVec.ofNat 32 (fld w 31 0)))
  | 0x20 => (CmpCond.ofCode sub).map (fun cc => .cmp cc (fP w 35) sa src)
  | 0x21 => some (.pand (fP w 35) (fP w 29) (fP w 17))
  | 0x22 => some (.por (fP w 35) (fP w 29) (fP w 17))
  | 0x23 => some (.pnot (fP w 35) (fP w 29))
  | 0x24 => some (.sel sd (fP w 24) (fld w 27 27 == 1) sa src)
  | 0x28 => some (.fadd (SFmt.ofCode (fld w 24 24)) (Rm.ofCode (fld w 26 25)) sd sa (fS w 17))
  | 0x29 => some (.fsub (SFmt.ofCode (fld w 24 24)) (Rm.ofCode (fld w 26 25)) sd sa (fS w 17))
  | 0x2A => some (.fmul (SFmt.ofCode (fld w 24 24)) (Rm.ofCode (fld w 26 25)) sd sa (fS w 17))
  | 0x2B => some (.ffma (SFmt.ofCode (fld w 24 24)) (Rm.ofCode (fld w 26 25)) sd sa (fS w 17))
  | 0x2C => some (.fmin (SFmt.ofCode (fld w 24 24)) sd sa (fS w 17))
  | 0x2D => some (.fmax (SFmt.ofCode (fld w 24 24)) sd sa (fS w 17))
  | 0x2E => (FCond.ofCode (fld w 27 25)).map
      (fun cc => .fcmp cc (SFmt.ofCode (fld w 24 24)) (fP w 35) sa (fS w 17))
  | 0x2F => (FcvtPair.ofCode (fld w 26 24)).map (fun k => .fcvt k (Rm.ofCode (fld w 28 27)) sd sa)
  | 0x30 => some (.fclass (SFmt.ofCode (fld w 24 24)) sd sa)
  | 0x34 => some (.lea sd sa (if fld w 23 23 = 1 then .imm (BitVec.ofNat 23 (fld w 22 0))
      else .scaled (fS w 17) (Fin.ofNat 4 (fld w 25 24))))
  | 0x35 => some (.sptest sd sa)
  | 0x36 => (Win.ofCode (fld w 25 24)).map (fun k => .spcast sd sa k)
  | 0x38 => some (.br (fP w 32) (fld w 31 31 == 1) (BitVec.ofNat 31 (fld w 30 0)))
  | 0x39 => some (.jmp (BitVec.ofNat 31 (fld w 30 0)))
  | 0x3A => some (.jmpr sd sa)
  | 0x3B => some (.call sd (BitVec.ofNat 31 (fld w 30 0)))
  | 0x3C => some (.ret sa)
  | 0x3D =>
    let len := fld w 15 0
    match fld w 40 39 with
    | 0 => some (.loop (.cnt (BitVec.ofNat 17 (fld w 32 16))) len)
    | 1 => some (.loop (.reg (fS w 33)) len)
    | 2 => some (.loop .seql len)
    | _ => none
  | 0x3E => some (.brkl (fP w 29) (fld w 24 24 == 1))
  | 0x3F => some .halt
  | 0x40 => some (.trap (BitVec.ofNat 23 (fld w 22 0)))
  | 0x41 => some .tack
  | 0x42 => some .tret
  | 0x43 => (Csr.ofNum (fld w 28 17)).map (fun c => .csrr sd c)
  | 0x44 => (Csr.ofNum (fld w 28 17)).map (fun c => .csrw c sa)
  | 0x45 => some (.waitm sd sa (BitVec.ofNat 17 (fld w 16 0)) (fS w 23) (fS w 17))
  | 0x46 =>
    match sub with
    | 0 => some (.barArv (Fin.ofNat 16 (fld w 3 0)))
    | 1 => some (.barWt (Fin.ofNat 16 (fld w 3 0)))
    | _ => none
  | 0x47 => some (.partn sa)
  | 0x48 => (Port.ofCode (fld w 25 24)).map (fun p => .bind sd p)
  | 0x49 => some (.kset sd (Fin.ofNat 8 (fld w 26 24)) sa)
  | 0x4A => some (.ppld sd sa (BitVec.ofNat 23 (fld w 22 0)))
  | 0x4B => some .yield
  | _ => none

/-- The ordering fields of the M slot (R207). -/
def fOrdM (w : Nat) : OrdF :=
  ⟨Fin.ofNat 8 (fld w 56 54), BitVec.ofNat 8 (fld w 53 46), Scope.ofCode (fld w 45 44)⟩

/-- The address part of an M.T form (R207). -/
def fTile (w : Nat) : TileAddr :=
  if fld w 21 21 = 1 then .mem (fS w 28) (BitVec.ofNat 20 (fld w 19 0)) else .pair (fS w 28)

/-- The M slot taken apart (R207, R208, R250 to R259, R331 to R337). -/
def buildM (w : Nat) : Option Instr :=
  let o := fOrdM w
  let z := Sz.ofCode (fld w 43 42)
  let sd := fS w 34
  let sb := fS w 28
  let sc := fS w 22
  let off := BitVec.ofNat 22 (fld w 21 0)
  let offA := BitVec.ofNat 13 (fld w 12 0)
  match fld w 63 57 with
  | 0x01 => some (.ld z sd sb off o)
  | 0x02 => some (.st z sb off sd o)
  | 0x04 => (Fmt.ofCode (fld w 43 40)).map (fun f => .ldt f sd (fTile w) (fld w 20 20 == 1) o)
  | 0x05 => (Fmt.ofCode (fld w 43 40)).map (fun f => .stt f (fTile w) sd o)
  | 0x06 => (Fmt.ofCode (fld w 43 40)).map (fun f => .stp f sb sc sd o)
  | 0x08 => some (.aadd z sd sb offA sc o)
  | 0x09 => some (.amin z sd sb offA sc o)
  | 0x0A => some (.amax z sd sb offA sc o)
  | 0x0B => some (.aminu z sd sb offA sc o)
  | 0x0C => some (.amaxu z sd sb offA sc o)
  | 0x0D => some (.aand z sd sb offA sc o)
  | 0x0E => some (.aor z sd sb offA sc o)
  | 0x0F => some (.axor z sd sb offA sc o)
  | 0x10 => some (.aswp z sd sb offA sc o)
  | 0x11 => some (.acas z sd sb offA sc (fS w 16) o)
  | 0x12 => some (.asubf z sd sb offA sc (fS w 16) (fP w 13) o)
  | 0x13 => (SFmt.ofSz (fld w 43 42)).map (fun f => .afadd f sd sb offA sc o)
  | 0x18 => (LineSt.ofCode (fld w 39 34)).map (fun st => .line st sb off sc)
  | 0x19 => some (.lineq sd sb off)
  | 0x1A => some (.pref sb off o)
  | 0x1C => some (.hld (Fin.ofNat 32 (fld w 38 34)) sb off o)
  | 0x1D => some (.hev (Fin.ofNat 32 (fld w 38 34)))
  | 0x1E => some (.hget sc (Fin.ofNat 32 (fld w 38 34)) (Fin.ofNat 16 (fld w 3 0)))
  | 0x20 => some (.seqld (fld w 42 42 == 1) sd sb off (Fin.ofNat 32 (fld w 26 22)) o)
  | 0x24 => some (.pfxl sd sb off o)
  | 0x25 => some (.pfxi sd sb off o)
  | 0x26 => some (.pfxr sd sc o)
  | _ => none

/-- An X-slot operand field (R210); `c` is its consume bit. -/
def XOpd.ofCode (f : Nat) (c : Bool) : Option XOpd :=
  match f / 64 with
  | 0 => some (.t (Fin.ofNat 64 f))
  | 1 => some (.pair (Fin.ofNat 64 f) c)
  | 2 => if f % 64 < 16 then some (.z (Fin.ofNat 16 f)) else none
  | _ => if f = 192 then some .hold else none

/-- The fields of the X slot (R209). -/
def buildXArgs (w : Nat) : Option XArgs :=
  match Fmt.ofCode (fld w 57 54), Fmt.ofCode (fld w 53 50), Fmt.ofCode (fld w 49 46),
    XOpd.ofCode (fld w 41 34) (fld w 5 5 == 1), XOpd.ofCode (fld w 33 26) (fld w 4 4 == 1),
    XOpd.ofCode (fld w 25 18) false with
  | some fa, some fb, some fd, some oa, some ob, some od =>
    some ⟨fa, fb, fd, Rm.ofCode (fld w 45 44), Ovf.ofCode (fld w 43 42), oa, ob, od, fS w 12, fS w 6,
      Fin.ofNat 16 (fld w 3 0)⟩
  | _, _, _, _, _, _ => none

/-- The X slot taken apart (R209 to R211). -/
def buildX (w : Nat) : Option Instr :=
  match buildXArgs w with
  | none => none
  | some x =>
    match fld w 63 58 with
    | 0x01 => some (.mma x)
    | 0x02 => some (.mmas x)
    | 0x03 => some (.mmar x)
    | 0x04 => some (.mmat x)
    | 0x08 => some (.zclr x)
    | 0x09 => some (.zld x)
    | 0x0A => some (.zst x)
    | 0x0B => some (.zmov x)
    | 0x0C => some (.trans x)
    | 0x0D => some (.spbuild x)
    | 0x10 => some (.rowred x)
    | 0x11 => some (.colred x)
    | 0x12 => some (.softrow x)
    | 0x13 => some (.merge x)
    | 0x14 => some (.topk x)
    | 0x15 => some (.window x)
    | 0x18 => some (.lup x)
    | 0x19 => some (.chol x)
    | 0x1A => some (.qrh x)
    | 0x1B => some (.trsm x)
    | 0x1C => some (.trmm x)
    | _ => none

/-- The fields of the C slot (R213). -/
def buildCArgs (w : Nat) : CArgs :=
  ⟨⟨Fin.ofNat 8 (fld w 44 42), BitVec.ofNat 8 (fld w 41 34), Scope.ofCode (fld w 33 32)⟩,
    fld w 31 31 == 1, fld w 30 30 == 1, fS w 24, fS w 18, Fin.ofNat 32 (fld w 17 13),
    Fin.ofNat 16 (fld w 12 9), Fin.ofNat 512 (fld w 8 0)⟩

/-- The C slot taken apart (R213, R214). -/
def buildC (w : Nat) : Option Instr :=
  let c := buildCArgs w
  match fld w 47 45 with
  | 1 => some (.copy c)
  | 2 => some (.gather c)
  | 3 => some (.scatter c)
  | 4 => some (.stage c.ord)
  | 5 => some (.mbox c)
  | 6 => (RedOp.ofCode (fld w 12 9)).map (fun op => .areduce op c)
  | 7 => some (.bcast c)
  | _ => none

/-- The G slot taken apart (R215). -/
def buildG (w : Nat) : Option Instr :=
  match fld w 15 14 with
  | 1 => some (.gld (Fin.ofNat 16 (fld w 13 10)) (Fin.ofNat 1024 (fld w 9 0)))
  | 2 => some (.gzero (Fin.ofNat 16 (fld w 13 10)))
  | _ => none

/-! ## The encoder -/

/-- A Bool as one bit. -/
def bit (b : Bool) : Nat := if b then 1 else 0

/-- The I, SB and IMM fields (R204). -/
def Src.enc : Src → Nat
  | .reg r => r.val * 2 ^ 17
  | .imm v => 2 ^ 23 + v.toNat

/-- An S.R word of opcode `op` (R204). -/
def encR (op d a sub low : Nat) : Nat := op * 2 ^ 41 + d * 2 ^ 35 + a * 2 ^ 29 + sub * 2 ^ 24 + low

/-- The ordering fields in the M slot (R207). -/
def OrdF.encM (o : OrdF) : Nat := o.stream.val * 2 ^ 54 + o.pmask.toNat * 2 ^ 46 + o.scope.code * 2 ^ 44

/-- An M.G word (R207). -/
def encMG (op z d b c : Nat) (off : BitVec 22) (o : Nat) : Nat :=
  op * 2 ^ 57 + o + z * 2 ^ 42 + d * 2 ^ 34 + b * 2 ^ 28 + c * 2 ^ 22 + off.toNat

/-- An M.A word (R207). -/
def encMA (op z d b c e p : Nat) (off : BitVec 13) (o : Nat) : Nat :=
  op * 2 ^ 57 + o + z * 2 ^ 42 + d * 2 ^ 34 + b * 2 ^ 28 + c * 2 ^ 22 + e * 2 ^ 16 + p * 2 ^ 13 + off.toNat

/-- The SB, MODE and OFF fields of an M.T form (R207). -/
def TileAddr.enc : TileAddr → Nat
  | .pair sb => sb.val * 2 ^ 28
  | .mem sb off => sb.val * 2 ^ 28 + 2 ^ 21 + off.toNat

/-- An operand field (R210). -/
def XOpd.code : XOpd → Nat
  | .t n => n.val
  | .pair n _ => 64 + n.val
  | .z n => 128 + n.val
  | .hold => 192

/-- The consume bit of an operand (R210). -/
def XOpd.cons : XOpd → Bool
  | .pair _ c => c
  | _ => false

/-- An X-slot word (R209). -/
def XArgs.enc (op : Nat) (x : XArgs) : Nat :=
  op * 2 ^ 58 + x.fa.code * 2 ^ 54 + x.fb.code * 2 ^ 50 + x.fd.code * 2 ^ 46 + x.rnd.code * 2 ^ 44 +
  x.ovf.code * 2 ^ 42 + x.oa.code * 2 ^ 34 + x.ob.code * 2 ^ 26 + x.od.code * 2 ^ 18 + x.sh.val * 2 ^ 12 +
  x.aux.val * 2 ^ 6 + bit x.oa.cons * 2 ^ 5 + bit x.ob.cons * 2 ^ 4 + x.var.val

/-- A C-slot word (R213). -/
def CArgs.enc (op : Nat) (c : CArgs) : Nat :=
  op * 2 ^ 45 + c.ord.stream.val * 2 ^ 42 + c.ord.pmask.toNat * 2 ^ 34 + c.ord.scope.code * 2 ^ 32 +
  bit c.dk * 2 ^ 31 + bit c.sk * 2 ^ 30 + c.dr.val * 2 ^ 24 + c.sr.val * 2 ^ 18 + c.hs.val * 2 ^ 13 +
  c.cr.val * 2 ^ 9 + c.off.val

/-- The S-slot word of an S-slot instruction (R204, R205); 0 for every other. -/
def encS (i : Instr) : Nat :=
  match i with
  | .add d a b => encR 0x01 d a 0 b.enc
  | .sub d a b => encR 0x02 d a 0 b.enc
  | .mul d a b => encR 0x03 d a 0 b.enc
  | .mulh d a b => encR 0x04 d a 0 b.enc
  | .mulhu d a b => encR 0x05 d a 0 b.enc
  | .div d a b => encR 0x06 d a 0 b.enc
  | .divu d a b => encR 0x07 d a 0 b.enc
  | .rem d a b => encR 0x08 d a 0 b.enc
  | .remu d a b => encR 0x09 d a 0 b.enc
  | .and d a b => encR 0x0A d a 0 b.enc
  | .or d a b => encR 0x0B d a 0 b.enc
  | .xor d a b => encR 0x0C d a 0 b.enc
  | .andn d a b => encR 0x0D d a 0 b.enc
  | .shl d a b => encR 0x0E d a 0 b.enc
  | .shr d a b => encR 0x0F d a 0 b.enc
  | .sha d a b => encR 0x10 d a 0 b.enc
  | .rot d a b => encR 0x11 d a 0 b.enc
  | .min d a b => encR 0x12 d a 0 b.enc
  | .minu d a b => encR 0x13 d a 0 b.enc
  | .max d a b => encR 0x14 d a 0 b.enc
  | .maxu d a b => encR 0x15 d a 0 b.enc
  | .clz d a => encR 0x16 d a 0 0
  | .ctz d a => encR 0x17 d a 0 0
  | .popc d a => encR 0x18 d a 0 0
  | .bfx d a pos width => encR 0x19 d a 0 (2 ^ 23 + width * 2 ^ 6 + pos)
  | .bfi d a pos width => encR 0x1A d a 0 (2 ^ 23 + width * 2 ^ 6 + pos)
  | .sext d a n => encR 0x1B d a 0 (2 ^ 23 + n)
  | .li d v => encR 0x1C d 0 0 v.toNat
  | .lih d v => encR 0x1D d 0 0 v.toNat
  | .cmp cc d a b => encR 0x20 d a cc.code b.enc
  | .pand d a b => encR 0x21 d a 0 (b.val * 2 ^ 17)
  | .por d a b => encR 0x22 d a 0 (b.val * 2 ^ 17)
  | .pnot d a => encR 0x23 d a 0 0
  | .sel d p inv a b => encR 0x24 d a (p.val + bit inv * 8) b.enc
  | .fadd f rm d a b => encR 0x28 d a (f.code + rm.code * 2) (b.val * 2 ^ 17)
  | .fsub f rm d a b => encR 0x29 d a (f.code + rm.code * 2) (b.val * 2 ^ 17)
  | .fmul f rm d a b => encR 0x2A d a (f.code + rm.code * 2) (b.val * 2 ^ 17)
  | .ffma f rm d a b => encR 0x2B d a (f.code + rm.code * 2) (b.val * 2 ^ 17)
  | .fmin f d a b => encR 0x2C d a f.code (b.val * 2 ^ 17)
  | .fmax f d a b => encR 0x2D d a f.code (b.val * 2 ^ 17)
  | .fcmp cc f d a b => encR 0x2E d a (f.code + cc.code * 2) (b.val * 2 ^ 17)
  | .fcvt k rm d a => encR 0x2F d a (k.code + rm.code * 8) 0
  | .fclass f d a => encR 0x30 d a f.code 0
  | .lea d a (.scaled b k) => encR 0x34 d a k (b.val * 2 ^ 17)
  | .lea d a (.imm v) => encR 0x34 d a 0 (2 ^ 23 + v.toNat)
  | .sptest d a => encR 0x35 d a 0 0
  | .spcast d a k => encR 0x36 d a k.code 0
  | .br p inv off => 0x38 * 2 ^ 41 + p.val * 2 ^ 32 + bit inv * 2 ^ 31 + off.toNat
  | .jmp off => 0x39 * 2 ^ 41 + off.toNat
  | .jmpr d a => encR 0x3A d a 0 0
  | .call d off => 0x3B * 2 ^ 41 + d.val * 2 ^ 35 + off.toNat
  | .ret a => encR 0x3C 0 a 0 0
  | .loop (.cnt n) len => 0x3D * 2 ^ 41 + n.toNat * 2 ^ 16 + len
  | .loop (.reg a) len => 0x3D * 2 ^ 41 + 2 ^ 39 + a.val * 2 ^ 33 + len
  | .loop .seql len => 0x3D * 2 ^ 41 + 2 ^ 40 + len
  | .brkl p inv => encR 0x3E 0 p (bit inv) 0
  | .halt => encR 0x3F 0 0 0 0
  | .trap v => encR 0x40 0 0 0 (2 ^ 23 + v.toNat)
  | .tack => encR 0x41 0 0 0 0
  | .tret => encR 0x42 0 0 0 0
  | .csrr d c => 0x43 * 2 ^ 41 + d.val * 2 ^ 35 + c.num * 2 ^ 17
  | .csrw c a => 0x44 * 2 ^ 41 + a.val * 2 ^ 29 + c.num * 2 ^ 17
  | .waitm d a off b c => 0x45 * 2 ^ 41 + d.val * 2 ^ 35 + a.val * 2 ^ 29 + b.val * 2 ^ 23 + c.val * 2 ^ 17 +
      off.toNat
  | .barArv b => encR 0x46 0 0 0 (2 ^ 23 + b.val)
  | .barWt b => encR 0x46 0 0 1 (2 ^ 23 + b.val)
  | .partn a => encR 0x47 0 a 0 0
  | .bind n p => encR 0x48 n 0 p.code 0
  | .kset n j a => encR 0x49 n a j 0
  | .ppld n a v => encR 0x4A n a 0 (2 ^ 23 + v.toNat)
  | .yield => encR 0x4B 0 0 0 0
  | _ => 0

/-- The M-slot word of an M-slot instruction (R207, R208); 0 for every other. -/
def encM (i : Instr) : Nat :=
  match i with
  | .ld z d b off o => encMG 0x01 z.code d b 0 off o.encM
  | .st z b off d o => encMG 0x02 z.code d b 0 off o.encM
  | .ldt f t ad cons o => 0x04 * 2 ^ 57 + o.encM + f.code * 2 ^ 40 + t.val * 2 ^ 34 + ad.enc + bit cons * 2 ^ 20
  | .stt f ad t o => 0x05 * 2 ^ 57 + o.encM + f.code * 2 ^ 40 + t.val * 2 ^ 34 + ad.enc
  | .stp f sb sc t o => 0x06 * 2 ^ 57 + o.encM + f.code * 2 ^ 40 + t.val * 2 ^ 34 + sb.val * 2 ^ 28 +
      sc.val * 2 ^ 22
  | .aadd z d b off c o => encMA 0x08 z.code d b c 0 0 off o.encM
  | .amin z d b off c o => encMA 0x09 z.code d b c 0 0 off o.encM
  | .amax z d b off c o => encMA 0x0A z.code d b c 0 0 off o.encM
  | .aminu z d b off c o => encMA 0x0B z.code d b c 0 0 off o.encM
  | .amaxu z d b off c o => encMA 0x0C z.code d b c 0 0 off o.encM
  | .aand z d b off c o => encMA 0x0D z.code d b c 0 0 off o.encM
  | .aor z d b off c o => encMA 0x0E z.code d b c 0 0 off o.encM
  | .axor z d b off c o => encMA 0x0F z.code d b c 0 0 off o.encM
  | .aswp z d b off c o => encMA 0x10 z.code d b c 0 0 off o.encM
  | .acas z d b off c e o => encMA 0x11 z.code d b c e 0 off o.encM
  | .asubf z d b off c e pd o => encMA 0x12 z.code d b c e pd off o.encM
  | .afadd f d b off c o => encMA 0x13 f.szCode d b c 0 0 off o.encM
  | .line st b off c => encMG 0x18 0 st.code b c off 0
  | .lineq d b off => encMG 0x19 0 d b 0 off 0
  | .pref b off o => encMG 0x1A 0 0 b 0 off o.encM
  | .hld h b off o => encMG 0x1C 0 h b 0 off o.encM
  | .hev h => encMG 0x1D 0 h 0 0 0 0
  | .hget c h w => encMG 0x1E 0 h 0 c (BitVec.ofNat 22 w.val) 0
  | .seqld dbl d b off sh o => encMG 0x20 (2 + bit dbl) d b sh off o.encM
  | .pfxl d b off o => encMG 0x24 0 d b 0 off o.encM
  | .pfxi d b off o => encMG 0x25 0 d b 0 off o.encM
  | .pfxr d c o => encMG 0x26 0 d 0 c 0 o.encM
  | _ => 0

/-- The X-slot word of an X-slot instruction (R209, R211); 0 for every other. -/
def encX (i : Instr) : Nat :=
  match i with
  | .mma x => x.enc 0x01
  | .mmas x => x.enc 0x02
  | .mmar x => x.enc 0x03
  | .mmat x => x.enc 0x04
  | .zclr x => x.enc 0x08
  | .zld x => x.enc 0x09
  | .zst x => x.enc 0x0A
  | .zmov x => x.enc 0x0B
  | .trans x => x.enc 0x0C
  | .spbuild x => x.enc 0x0D
  | .rowred x => x.enc 0x10
  | .colred x => x.enc 0x11
  | .softrow x => x.enc 0x12
  | .merge x => x.enc 0x13
  | .topk x => x.enc 0x14
  | .window x => x.enc 0x15
  | .lup x => x.enc 0x18
  | .chol x => x.enc 0x19
  | .qrh x => x.enc 0x1A
  | .trsm x => x.enc 0x1B
  | .trmm x => x.enc 0x1C
  | _ => 0

/-- The C-slot word of a C-slot instruction (R213, R214); 0 for every other. -/
def encC (i : Instr) : Nat :=
  match i with
  | .copy c => c.enc 1
  | .gather c => c.enc 2
  | .scatter c => c.enc 3
  | .stage o => 4 * 2 ^ 45 + o.stream.val * 2 ^ 42 + o.pmask.toNat * 2 ^ 34 + o.scope.code * 2 ^ 32
  | .mbox c => c.enc 5
  | .areduce _ c => c.enc 6
  | .bcast c => c.enc 7
  | _ => 0

/-- The G-slot word of a G-slot instruction (R215); 0 for every other. -/
def encG (i : Instr) : Nat :=
  match i with
  | .gld g inc => 2 ^ 14 + g.val * 2 ^ 10 + inc.val
  | .gzero g => 2 ^ 15 + g.val * 2 ^ 10
  | _ => 0

/-- The word of an instruction in a slot of kind `k`. -/
def encodeSlot (k : SlotKind) (i : Instr) : Nat :=
  match k with
  | .s => encS i
  | .m => encM i
  | .x => encX i
  | .c => encC i
  | .g => encG i
  | .event => 0

/-! ## Slots and bundles -/

/-- The fields of a slot word, by the slot's kind. -/
def buildSlot (k : SlotKind) (w : Nat) : Option Instr :=
  match k with
  | .s => buildS w
  | .m => buildM w
  | .x => buildX w
  | .c => buildC w
  | .g => buildG w
  | .event => none

/-- A slot word decoded: all zero is the no-op (R201); anything else must be the encoding of a well-formed
instruction (R203). -/
def decodeSlot (k : SlotKind) (w : Nat) : Option Instr :=
  if w = 0 then some .nop
  else match buildSlot k w with
    | some i => if i.wf && encodeSlot k i == w then some i else none
    | none => none

/-- What a present bit and a slot word stand for; `none` is an encoding of R203. -/
def decodePresent (k : SlotKind) (pres : Nat) (w : Nat) : Option (Option Instr) :=
  if pres = 0 then (if w = 0 then some none else none) else (decodeSlot k w).map some

/-- The slots of a bundle that R203 marks, with bits S 1, M 2, X 4, C 8, G 16 (R43): a destination named by
two slots marks both. -/
def clashMask (b : Bundle) : Nat :=
  let p (i j : Option Instr) (m : Nat) : Nat := if clash i j then m else 0
  p b.s b.m 3 ||| p b.s b.x 5 ||| p b.s b.c 9 ||| p b.s b.g 17 ||| p b.m b.x 6 ||| p b.m b.c 10 |||
  p b.m b.g 18 ||| p b.x b.c 12 ||| p b.x b.g 20 ||| p b.c b.g 24

/-- A bundle of 256 bits, or the mask of the slots whose encoding is ILLEGAL (R199 to R203).
(DEDUCED: log 81; DEDUCED: log 82; DEDUCED: log 83; DESIGN CHOICE: log 108.) -/
def decodeBundle (w : Nat) : Except Nat Bundle :=
  let h := fld w 255 240
  if fld h 5 0 ≠ 0 then .error 0x1F
  else
    let s := decodePresent .s (fld h 6 6) (fld w 239 192)
    let m := decodePresent .m (fld h 7 7) (fld w 191 128)
    let x := decodePresent .x (fld h 8 8) (fld w 127 64)
    let c := decodePresent .c (fld h 9 9) (fld w 63 16)
    let g := decodePresent .g (fld h 10 10) (fld w 15 0)
    let b : Bundle := ⟨fld h 15 15 == 1, Fin.ofNat 8 (fld h 14 12), fld h 11 11 == 1, s.getD none, m.getD none,
      x.getD none, c.getD none, g.getD none⟩
    let bad := bit s.isNone + bit m.isNone * 2 + bit x.isNone * 4 + bit c.isNone * 8 + bit g.isNone * 16
    let mask := bad ||| clashMask b
    if mask = 0 then .ok b else .error mask

/-- The PRES bit of a slot (R200). -/
def presBit (o : Option Instr) : Nat := bit o.isSome

/-- The word of a slot that may be absent. -/
def encodeOpt (k : SlotKind) (o : Option Instr) : Nat :=
  match o with
  | none => 0
  | some i => encodeSlot k i

/-- The header of a bundle (R200). -/
def encodeHeader (b : Bundle) : Nat :=
  bit b.rm * 2 ^ 15 + b.bpi.val * 2 ^ 12 + bit b.bpn * 2 ^ 11 + presBit b.g * 2 ^ 10 + presBit b.c * 2 ^ 9 +
  presBit b.x * 2 ^ 8 + presBit b.m * 2 ^ 7 + presBit b.s * 2 ^ 6

/-- The 256 bits of a bundle (R199). -/
def encodeBundle (b : Bundle) : Nat :=
  encodeHeader b * 2 ^ 240 + encodeOpt .s b.s * 2 ^ 192 + encodeOpt .m b.m * 2 ^ 128 + encodeOpt .x b.x * 2 ^ 64 +
  encodeOpt .c b.c * 2 ^ 16 + encodeOpt .g b.g

/-- The number held little-endian in a list of bytes (R23). -/
def leNat (bs : List Byte) : Nat :=
  match bs with
  | [] => 0
  | b :: r => b.toNat + 256 * leNat r

/-- The `n` bytes of a number, little-endian (R23). -/
def natLE (n v : Nat) : List Byte :=
  match n with
  | 0 => []
  | k + 1 => BitVec.ofNat 8 v :: natLE k (v / 256)

/-- The 32 bytes of a bundle decoded (R199). -/
def decodeBytes (bs : List Byte) : Except Nat Bundle := decodeBundle (leNat bs)

/-- The one instruction of a bundle that holds a single one. -/
def Bundle.single (b : Bundle) : Option Instr :=
  match b.s, b.m, b.x, b.c, b.g with
  | some i, none, none, none, none => some i
  | none, some i, none, none, none => some i
  | none, none, some i, none, none => some i
  | none, none, none, some i, none => some i
  | none, none, none, none, some i => some i
  | none, none, none, none, none => some .nop
  | _, _, _, _, _ => none

/-- The bundle word that a table word of `nbits` bits stands for: 16 bits are a G-slot word, whose PRES bit is
set around it; 256 bits are a whole bundle. (DEDUCED: log 81.) -/
def tableBundle (nbits w : Nat) : Option Nat :=
  if nbits = 16 then some (2 ^ 250 + w % 2 ^ 16) else if nbits = 256 then some w else none

/-- The instruction the decoder reads from a word of the opcode table: only the G-slot rows have bits
there. The word is laid out as the hardware stores it and given to the bundle decoder. (DEDUCED: log 81.) -/
def decodeTableWord (nbits w : Nat) : Option Instr :=
  match tableBundle nbits w with
  | none => none
  | some v =>
    match decodeBytes (natLE 32 v) with
    | .ok b => b.single
    | .error _ => none

end Sys2Proof
end

