-- ==== Sys2Proof/Machine/RegRead.lean ====
section
/-! DEFINITION. What the package's registers read (R133, R145, R167, R168, R174, R188, R198, R365 to R376), and reads of
physical memory by region (R161). -/

namespace Sys2Proof.Machine

/-- A launch found by die and LSEQ (R376). -/
def State.launchBySeq (s : State) (d lseq : Nat) : Option Launch :=
  s.launches.find? (fun l => l.die == d && l.lseq % 2 ^ 32 == lseq)

/-- HELD: the slot named at offset 0x180 stands in a completed full save and is held (R376). -/
def State.held (s : State) (d : Nat) : Bool :=
  match s.disp.toList[d]? with
  | none => false
  | some x =>
    (match s.launchBySeq d x.holdLseq.toNat with
     | some l => l.holds.contains x.holdSlot.toNat && (match l.slots[x.holdSlot.toNat]? with | some (.saved _) => true | _ => false)
     | none => false)

/-- A dispatcher's register (R133, R145, R168, R188, R376). -/
def State.dispReg (s : State) (d off : Nat) : Word :=
  match s.disp.toList[d]? with
  | none => 0
  | some x =>
    let str (i : Nat) : Stream := x.streams.toList.getD i ⟨false, 0, 0⟩
    if off = 0 then BitVec.ofNat 64 (((List.range 8).map (fun i => if (str i).run then 2 ^ i else 0)).sum)
    else if 0x008 ≤ off ∧ off < 0x048 then (str ((off - 8) / 8)).csb
    else if 0x048 ≤ off ∧ off < 0x068 then x.starve.toList.getD ((off - 0x48) / 8) 0
    else if off = 0x068 then x.lead
    else if off = 0x070 then x.seqno
    else if 0x080 ≤ off ∧ off < 0x0C0 then (str ((off - 0x80) / 8)).sasid.setWidth 64
    else if off = 0x100 then x.reply
    else if off = 0x180 then
      BitVec.ofNat 64 ((if s.held d then 2 ^ 40 else 0) + x.holdSlot.toNat * 2 ^ 32 + x.holdLseq.toNat)
    else if off = 0x190 then x.adopt
    else if off = 0x198 then x.adoptas.setWidth 64
    else if off = 0x200 then x.mbaddr
    else if off = 0x208 then x.mblrec
    else if off = 0x210 then x.mbasid.setWidth 64
    else if off = 0x220 then BitVec.ofNat 64 (x.mbstat.toNat * 2 ^ 8 + (if x.mbop.isSome then 1 else 0))
    else if off = 0x228 then BitVec.ofNat 64 s.mboxes.length
    else 0

/-- A word of a group entry (R370). -/
def Group.word (g : Group) (i : Nat) : Word :=
  match i with
  | 0 => g.w0 | 1 => g.w1 | 2 => g.w2 | _ => g.w3

/-- A register of region 0x2 (R365); an offset that names none reads 0. -/
def State.regRead (s : State) (block off : Nat) : Word :=
  if block = 1 then
    (match off with
     | 0x000 => BitVec.ofNat 64 (s.tc.iasid.toNat + (if s.tc.all then 2 ^ 12 else 0))
     | 0x008 => s.tc.iva
     | 0x010 => s.tc.ilen.setWidth 64
     | 0x018 => if s.tc.go then 1 else 0
     | 0x020 => if s.tc.busy then 1 else 0
     | 0x100 => s.tc.didx.setWidth 64
     | 0x108 => s.tc.dword0
     | 0x110 => s.tc.dword1
     | 0x118 => s.tc.dword2
     | _ => 0)
  else if block = 2 then
    (match off with
     | 0x000 => BitVec.ofNat 64 s.sec.noncepa
     | 0x008 => BitVec.ofNat 64 s.sec.outpa
     | 0x018 => BitVec.ofNat 64 ((if s.sec.refused then 2 ^ 8 else 0) +
         (match s.sec.state with | .idle => 0 | .busy => 1 | .done => 2 | .fault => 3))
     | _ => 0)
  else if block = 3 then
    if 0x1000 ≤ off ∧ off < 0x5000 then
      (match assoc s.ports.table ((off - 0x1000) / 8) with
       | some r => BitVec.ofNat 64 (r.rid.toNat * 2 ^ 16 + (if r.v then 2 ^ 12 else 0) + r.asid.toNat)
       | none => 0)
    else if 0x8000 ≤ off ∧ off < 0x8040 then (s.ports.ureq.toList.getD ((off - 0x8000) / 8) 0).setWidth 64
    else 0
  else if block = 4 then
    (match off with
     | 0x000 => s.power.plim.setWidth 64
     | 0x008 => s.power.pnow.setWidth 64
     | 0x010 => s.power.tmax.setWidth 64
     | _ => 0)
  else if block = 6 then
    if off = 0 then s.ox.pkg.setWidth 64
    else if 0x100 ≤ off ∧ off < 0x900 then
      (match assoc s.ox.groups ((off - 0x100) / 32) with
       | some g => g.word ((off - 0x100) % 32 / 8)
       | none => 0)
    else 0
  else if 0x10 ≤ block ∧ block < 0x18 then s.dispReg (block - 0x10) off
  else if 0x20 ≤ block ∧ block < 0x28 then
    (if off < 8 * 77 then (assoc s.errs (77 * (block - 0x20) + off / 8)).getD 0 else 0)
  else 0

/-- One byte of physical memory: of DRAM from memory, an endpoint's byte free, a register's byte from its value, another package's
byte as it came back for the core or agent in focus, and free where none did (R161, R365, R366, R368).
(DESIGN CHOICE: log 2; DEDUCED: log 70.) -/
def State.physByte (s : State) (pa : Nat) : Byte :=
  match s.region pa with
  | .endpoint => Config.freeByte s.fresh pa
  | .regs =>
    let off := pa % 2 ^ 32
    BitVec.ofNat 8 ((s.regRead (pa / 2 ^ 32 % 2 ^ 16) (off / 8 * 8)).toNat / 2 ^ (8 * (off % 8)))
  | .remote => (match s.farSect pa with
    | some x => x.bytes.getD (pa % 32) 0
    | none => Config.freeByte s.fresh pa)
  | _ => s.mem.get pa

/-- `n` bytes of physical memory. -/
def State.physBytes (s : State) (pa n : Nat) : List Byte := (List.range n).map (fun i => s.physByte (pa + i))

/-! ## The core's own stores (R89) -/

/-- The newest byte an own store still holds for a physical address, among the stores given, oldest first. -/
def storeByte (ps : List PStore) (pa : Nat) : Option Byte :=
  ps.foldl (fun cur p =>
    match p.clus with
    | some _ => cur
    | none =>
      let hit := p.parts.foldl (fun (acc : Option Nat × Nat) x =>
        (if x.pa ≤ pa ∧ pa < x.pa + x.n then some (acc.2 + (pa - x.pa)) else acc.1, acc.2 + x.n)) (none, 0)
      match hit.1 with
      | some i => p.bytes[i]?.or cur
      | none => cur) none

/-- Stores of the core not yet performed and numbered below `uid`, oldest first. -/
def Core.ownStores (c : Core) (uid : Nat) : List PStore := c.pending'.filter (fun p => decide (p.uid < uid))

/-- One of the stores given moves poisoned data to a run of physical bytes (R197). -/
def storeBad (ps : List PStore) (pa n : Nat) : Bool :=
  ps.any (fun p => p.clus.isNone && p.scratch.isNone && p.bad.any (fun k => decide (32 * k < pa + n) && decide (pa < 32 * k + 32)))

/-- Bytes of memory as access `uid` of core `c` reads them: own earlier stores that are not yet performed come first. -/
def State.readParts (s : State) (c : Core) (uid : Nat) (ps : List Part) : List Byte :=
  ps.flatMap (fun p => (List.range p.n).map (fun i =>
    (storeByte (c.ownStores uid) (p.pa + i)).getD (s.physByte (p.pa + i))))

/-- Parts of `n` bytes at a GLOBAL address over any number of pages. -/
def State.spanParts (s : State) (asid va n : Nat) (k : Acc) (fuel : Nat) : Except Cause (List Part) :=
  match fuel with
  | 0 => .ok []
  | f + 1 =>
    if n = 0 then .ok []
    else match s.translate asid va k with
      | .error c => .error c
      | .ok p =>
        if n ≤ p.left then .ok [partOf p n]
        else match s.spanParts asid (va + p.left) (n - p.left) k f with
          | .error c => .error c
          | .ok r => .ok (partOf p p.left :: r)

end Sys2Proof.Machine
end

