-- ==== Sys2Proof/Machine/Access.lean ====
section
/-! DEFINITION. Checking an access at issue and putting it in flight (R95, R101, R106, R249), and the faults of reading
scratchpad lines (R32, R186). -/

namespace Sys2Proof.Machine

/-- Where a checked access goes: parts of memory, the own scratchpad, or a peer's. -/
inductive Route where
  | mem (ps : List Part)
  | scratch (off : Nat)
  | clus (pos off : Nat)
  deriving DecidableEq, Repr

/-- A page that an access touches is a device page. -/
def State.onDevice (s : State) (va : Word) (n : Nat) (k : Acc) : Bool :=
  match s.target s.core va n with
  | .ok (.mem a) =>
    (match s.translate (s.asidOf s.core) a k with | .ok p => p.cache == 2 | .error _ => false) ||
    (match s.translate (s.asidOf s.core) (a + n - 1) k with | .ok p => p.cache == 2 | .error _ => false)
  | _ => false

/-- Checks an access of `n` bytes by the core in focus and cuts it into sectors (R95, R106, R156, R164). -/
def State.route (s : State) (va : Word) (n : Nat) (k : Acc) : Except Cause Route :=
  match s.target s.core va n with
  | .error c => .error c
  | .ok (.scratch off) => .ok (.scratch off)
  | .ok (.clus pos off) => .ok (.clus pos off)
  | .ok (.mem a) =>
    (match s.partsAt (s.asidOf s.core) a n k with
     | .error c => .error c
     | .ok ps => .ok (.mem (ps.flatMap (fun p => sectorsOf p (n / 32 + 2)))))

/-- The cause with which an access of `n` bytes fails at issue. -/
def State.routeBad (s : State) (va : Word) (n : Nat) (k : Acc) : Option Cause :=
  match s.route va n k with
  | .error c => some c
  | .ok _ => none

/-- Scratchpad lines of the issuing core that an access of `n` bytes touches. -/
def State.accLines (s : State) (va : Word) (n : Nat) : List Nat :=
  match s.target s.core va n with
  | .ok (.scratch off) => (List.range ((off + n - 1) / 128 + 1 - off / 128)).map (fun i => off / 128 + i)
  | _ => []

/-- Lines that `n` bytes at an offset touch. -/
def rangeLines (off n : Nat) : List Nat := (List.range ((off + n - 1) / 128 + 1 - off / 128)).map (fun i => off / 128 + i)

/-- The first line of a peer's scratchpad in a state, as the peer has committed it, among those that an access touches (R32, R159).
(DEDUCED: log 58.) -/
def State.peerLine (s : State) (st : LineCode) (va : Word) (n : Nat) : Option Nat :=
  match s.target s.core va n with
  | .ok (.clus pos off) => (rangeLines off n).find? (fun l => (s.coreAt (s.core.peer pos)).line l == st)
  | _ => none

/-- The record of the engine thread that poisoned a line (R186). -/
def Core.linkOf (c : Core) (l : Nat) : Option EngFault :=
  ((assoc c.plinks l).bind (fun i => assoc c.recs i)).bind (fun r => r.flt)

/-- Line `l` of the own scratchpad holds a poisoned sector (R197). -/
def Core.lineBad (c : Core) (l : Nat) : Bool := c.badPool.any (fun k => k / 4 == c.scratchBase / 128 + l)

/-- The fault of fetching from POISONED line `l`; one struck while every record was in use is fatal all the same (R32, R186, R197,
R256). (DESIGN CHOICE: log 124.) -/
def Core.poisonFault (c : Core) (slot l : Nat) : SlotFault :=
  match c.linkOf l with
  | some f => ⟨slot, if f.cause = Cause.dataPoison then Cause.dataPoison else Cause.poisonLine, f.taddr, f.tinfo, none⟩
  | none => ⟨slot, if c.lineBad l then Cause.dataPoison else Cause.poisonLine, BitVec.ofNat 64 (128 * l), 0, none⟩

/-- The fault of fetching lines, by the first that is POISONED (R32). -/
def Core.linesFault (c : Core) (slot : Nat) (ls : List Nat) : Option SlotFault :=
  (c.lineIn .pois ls).map (fun l => c.poisonFault slot l)

/-- The core's own view of bytes of its scratchpad holds poisoned data: of a sector, or of a store that is not performed yet (R197). -/
def Core.padSpoilt (c : Core) (off n : Nat) : Bool := c.runsBad [(c.scratchBase + off, n)] || c.padBad off n

/-- The fault of an access that reads a POISONED line, of the own scratchpad or of a peer's, or poisoned data there (R32, R159, R197).
(DEDUCED: log 58.) -/
def State.padFault (s : State) (slot : Nat) (va : Word) (n : Nat) : Option SlotFault :=
  (s.core.linesFault slot (s.accLines va n)).or
    (match s.target s.core va n with
     | .ok (.scratch off) => if s.core.padSpoilt off n then some (slotFault slot Cause.dataPoison va) else none
     | .ok (.clus pos off) =>
       let q := s.coreAt (s.core.peer pos)
       ((s.peerLine .pois va n).map (fun l => q.poisonFault slot l)).or
         (if q.runsBad [(q.scratchBase + off, n)] then some (slotFault slot Cause.dataPoison va) else none)
     | _ => none)

/-- A fault raised by a condition. -/
def faultIf (b : Bool) (slot : Nat) (cause : Cause) (taddr : Word) : Option SlotFault :=
  if b then some (slotFault slot cause taddr) else none

/-- The fault of a failing access. -/
def accFault (slot : Nat) (va : Word) (c : Option Cause) : Option SlotFault := c.map (fun e => slotFault slot e va)

/-- Runs a meaning unless its slot faults (R179). (DESIGN CHOICE: log 14.) -/
def State.guard (s : State) (f : Option SlotFault) (k : Out) : Out :=
  match f with
  | some g => .next (s.takeTrap [g])
  | none => k

/-- Counts an access of the core in focus in its stream's sequence number (R101, R106). -/
def State.seqCount (s : State) (o : OrdF) (n : Nat) : State := s.onA (fun a => a.seqUp o.stream n)

/-- How many times an access counts: once per page part (R106). -/
def Route.count (r : Route) : Nat :=
  match r with
  | .mem ps => max 1 (ps.filter (fun p => p.ends)).length
  | _ => 1

/-- Records the translations that an access of the core in focus used (R166). -/
def State.noteAcc (s : State) (va : Word) (n : Nat) (k : Acc) : State :=
  match s.target s.core va n with
  | .ok (.mem a) => (s.noteTlb (s.asidOf s.core) a k).noteTlb (s.asidOf s.core) (a + n - 1) k
  | _ => s

/-- Takes the next number of an access. -/
def State.nextUid (s : State) : State := { s with uid := s.uid + 1 }

/-- Puts a load or atomic of memory in flight (R101). -/
def State.sendLoad (s : State) (ps : List Part) (n : Nat) (dest : LoadDest) (o : OrdF) (va : Word) : State :=
  let l : PLoad := { uid := s.uid, dest := dest, ord := o, got := [], width := n, va := va, committed := false, dropped := false,
                     parts := ps }
  ((s.onC (fun c => { c with loads := c.loads ++ [l] }.cntUp o.stream (Route.mem ps).count)).seqCount o
    (Route.mem ps).count).nextUid.noteAcc va n .read

/-- A store with its address and bytes. -/
def State.mkStore (s : State) (r : Route) (bs : List Byte) (o : OrdF) (va : Word) : PStore :=
  { uid := s.uid, ord := o, bytes := bs, va := va,
    parts := match r with | .mem ps => ps | _ => [],
    clus := match r with | .clus p off => some (p, off) | _ => none,
    scratch := match r with | .scratch off => some off | _ => none,
    bad := [] }

/-- A scalar store enters the gate (R176, R250). -/
def State.gateStore (s : State) (r : Route) (bs : List Byte) (o : OrdF) (va : Word) : State :=
  ((s.onC (fun c => { c with gate := c.gate ++ [.store (s.mkStore r bs o va)] })).seqCount o r.count).nextUid.noteAcc va
    bs.length .write

/-- A tile store to memory or a peer, which is not gated, leaves at once (R177). -/
def State.tileStore (s : State) (r : Route) (bs : List Byte) (o : OrdF) (va : Word) : State :=
  ((s.onC (fun c => c.release (s.mkStore r bs o va))).seqCount o r.count).nextUid.noteAcc va bs.length .write

/-- Bytes that the core in focus reads at once: of its own scratchpad, of a peer's bank, or of memory, with its own earlier
stores in each (R89, R159, R244, R259, R334). -/
def State.readRoute (s : State) (r : Route) (n : Nat) : List Byte :=
  match r with
  | .scratch off => s.core.scratchBytes off n
  | .clus pos off => s.core.peerBytes (s.coreAt (s.core.peer pos)) pos off n
  | .mem ps => s.readParts s.core s.uid ps

/-- The core in focus has read a route at its home: it keeps no older copy of the lines (R92, R107). -/
def State.dropRoute (s : State) (r : Route) : State := match r with | .mem ps => s.onC (fun c => c.dropParts ps) | _ => s

/-- The bytes of a route hold poisoned data, or no route leads to their home (R197, R367). -/
def State.routePoison (s : State) (r : Route) : Bool :=
  match r with
  | .mem ps => ps.any (fun p => s.isPoison p.pa p.n || storeBad (s.core.ownStores s.uid) p.pa p.n || s.noRoute s.core p.pa)
  | _ => false

end Sys2Proof.Machine
end

