-- ==== Sys2Proof/Machine/MSlot.lean ====
section
/-! DEFINITION. The M slot: scalar loads and stores, tile accesses, atomics, line states, prefetch and shape slots
(R250 to R259). Each instruction's faults at issue are a definition of their own, which the issue of a bundle collects
over its slots (R179). -/

namespace Sys2Proof.Machine

/-! ## Scalar loads and stores (R250) -/

/-- Marks that the task has used T, Z, G, the scratchpad or a latch, or forked (R242). -/
def State.touch (s : State) : State := s.onA (fun a => { a with touched := true })
/-- Marks it for an access to the own scratchpad. -/
def State.touchIf (s : State) (r : Route) : State := match r with | .scratch _ => s.touch | _ => s

/-- An unaligned access to a device page (R250). -/
def State.deviceBad (s : State) (va : Word) (n : Nat) (k : Acc) : Bool := va.toNat % n != 0 && s.onDevice va n k

/-- The faults of LD at issue. -/
def State.faultLd (s : State) (z : Sz) (b : SReg) (off : BitVec 22) : Option SlotFault :=
  let va := s.eaG b off
  let n := sizeBytes z
  (accFault 1 va (s.routeBad va n .read)).or
    ((faultIf (s.deviceBad va n .read) 1 Cause.operandForm va).or (s.padFault 1 va n))

/-- LD.s Sd, [Sb+off]: zero-extended; from a scratchpad at once, from memory when the value returns (R159, R250). -/
def execLd (z : Sz) (d b : SReg) (off : BitVec 22) (o : OrdF) (s : State) : Out :=
  let va := s.eaG b off
  s.guard (s.faultLd z b off) (match s.route va (sizeBytes z) .read with
    | .error _ => .next s
    | .ok (.mem ps) => .next (s.sendLoad ps (sizeBytes z) (.s d) o va)
    | .ok r => .next (((s.ws d (BitVec.ofNat 64 (leVal (s.readRoute r (sizeBytes z))))).seqCount o 1).touchIf r))

/-- The faults of ST at issue. -/
def State.faultSt (s : State) (z : Sz) (b : SReg) (off : BitVec 22) : Option SlotFault :=
  let va := s.eaG b off
  let n := sizeBytes z
  (accFault 1 va (s.routeBad va n .write)).or (faultIf (s.deviceBad va n .write) 1 Cause.operandForm va)

/-- ST.s [Sb+off], Sd: the low bytes of Sd enter the gate (R250). -/
def execSt (z : Sz) (b : SReg) (off : BitVec 22) (src : SReg) (o : OrdF) (s : State) : Out :=
  let va := s.eaG b off
  s.guard (s.faultSt z b off) (match s.route va (sizeBytes z) .write with
    | .error _ => .next s
    | .ok r => .next ((s.gateStore r (leBytes (sizeBytes z) (s.rs src).toNat) o va).touchIf r))

/-- ceil(v / 2^sh) (R331). -/
def ceilShift (v sh : Nat) : Nat := (v + 2 ^ sh - 1) / 2 ^ sh

/-- The faults of SEQLD: natural alignment, then as a load (R331). -/
def State.faultSeqld (s : State) (dbl : Bool) (b : SReg) (off : BitVec 22) : Option SlotFault :=
  let va := s.eaG b off
  let n := if dbl then 8 else 4
  (faultIf (va.toNat % n != 0) 1 Cause.operandForm va).or
    ((accFault 1 va (s.routeBad va n .read)).or (s.padFault 1 va n))

/-- SEQLD.s Sd, [Sb+off], sh: Sd gets the value and SEQL its count of units (R331). -/
def execSeqld (dbl : Bool) (d b : SReg) (off : BitVec 22) (sh : Fin 32) (o : OrdF) (s : State) : Out :=
  let va := s.eaG b off
  let n := if dbl then 8 else 4
  s.guard (s.faultSeqld dbl b off) (match s.route va n .read with
    | .error _ => .next s
    | .ok (.mem ps) => .next (s.sendLoad ps n (.seql d sh.val) o va)
    | .ok r =>
      let v := leVal (s.readRoute r n)
      .next ((((s.ws d (BitVec.ofNat 64 v)).onA (fun a => { a with seql := BitVec.ofNat 64 (ceilShift v sh.val) })).seqCount
        o 1).touchIf r))

/-! ## Tile accesses (R251 to R253) -/

/-- A tile access through a pair: its cause at issue (R36, R69, R252). -/
def State.tilePairBad (s : State) (f : Fmt) (sb : SReg) : Option Cause :=
  s.core.pairBad (pairOf (s.pair sb)) f (tileRows f) 256

/-- Lines of a tile's pair. -/
def State.tileLines (s : State) (f : Fmt) (sb : SReg) : List Nat :=
  s.core.placeLines (.pair (pairOf (s.pair sb))) f (tileRows f) 256

/-- Runs of the pool of a tile's pair. -/
def State.tileRuns (s : State) (f : Fmt) (sb : SReg) : List (Nat × Nat) :=
  (List.range (tileRows f)).flatMap (s.core.placeRuns (.pair (pairOf (s.pair sb))) f 256)

/-- Own scratchpad lines that a tile access reads or writes. -/
def State.tileAccLines (s : State) (f : Fmt) (ad : TileAddr) : List Nat :=
  match ad with
  | .pair sb => s.tileLines f sb
  | .mem sb off => s.accLines (s.eaT sb off) Config.tBytes

/-- The faults of LDT and STT at issue: the register, then the pair or the address. -/
def State.faultTile (s : State) (f : Fmt) (t : TReg) (ad : TileAddr) (k : Acc) : Option SlotFault :=
  (faultIf (!s.core.hasT t.val) 1 Cause.regAbsent 0).or
    (match ad with
     | .pair sb => accFault 1 0 (s.tilePairBad f sb)
     | .mem sb off =>
       let va := s.eaT sb off
       (faultIf (va.toNat % 32 != 0) 1 Cause.operandForm va).or (accFault 1 va (s.routeBad va Config.tBytes k)))

/-- The faults of LDT: those of a tile access, and a POISONED line it reads (R32). -/
def State.faultLdt (s : State) (f : Fmt) (t : TReg) (ad : TileAddr) : Option SlotFault :=
  (s.faultTile f t ad .read).or
    (match ad with
     | .pair sb => (s.core.linesFault 1 (s.tileLines f sb)).or (faultIf (s.core.runsBad (s.tileRuns f sb)) 1 Cause.dataPoison 0)
     | .mem sb off => s.padFault 1 (s.eaT sb off) Config.tBytes)

/-- Storing a T register that holds poisoned data consumes them (R197). -/
def State.tileBad (s : State) (t : TReg) : Option SlotFault :=
  faultIf (s.core.runsBad [(t.val * Config.tBytes, Config.tBytes)]) 1 Cause.dataPoison 0

/-- The faults of STT. -/
def State.faultStt (s : State) (f : Fmt) (t : TReg) (ad : TileAddr) : Option SlotFault :=
  (s.faultTile f t ad .write).or (s.tileBad t)

/-- Lines that a consume read leaves: each FULL one becomes EMPTY (R31). -/
def Core.consume (c : Core) (ls : List Nat) : Core :=
  ls.foldl (fun c l => if c.line l = .full then c.setLine l .empty else c) c

/-- The tile rows of a T register written at a pair of the own scratchpad (R252). -/
def Core.tileOut (c : Core) (f : Fmt) (t : Nat) (p : PairV) : Core :=
  let rows := c.readPlace (.t t) f (tileRows f) 256
  c.storeRuns ((rows.mapIdx (fun i vs => spread (p.rowRuns f 256 i) (rowBytes f f.size vs))).flatten)

/-- LDT.f Td, from a pair or from memory (R252). From the own scratchpad the tile moves at once; from elsewhere its
sectors return one by one. -/
def execLdt (f : Fmt) (t : TReg) (ad : TileAddr) (cons : Bool) (o : OrdF) (s : State) : Out :=
  s.guard (s.faultLdt f t ad) (let s := s.onC (fun c => (c.unmake [TZ.t t.val]).keepT t.val)
    match ad with
    | .pair sb =>
      let p := pairOf (s.pair sb)
      let rows := s.core.readPlace (.pair p) f (tileRows f) 256
      let s := s.onC (fun c => c.putRuns (c.writeRuns (.t t.val) f rows))
      let ls := if cons then s.tileLines f sb else []
      .next (((s.onC (fun c => c.consume ls)).seqCount o 1).touch)
    | .mem sb off =>
      let va := s.eaT sb off
      match s.route va Config.tBytes .read with
      | .error _ => .next s
      | .ok (.mem ps) => .next ((s.sendLoad ps Config.tBytes (.t t f) o va).touch)
      | .ok r => .next (((s.onC (fun c => c.putRuns [(t.val * Config.tBytes, s.readRoute r Config.tBytes)])).seqCount o 1).touch))

/-- STT.f to a pair or to memory (R252). -/
def execStt (f : Fmt) (ad : TileAddr) (t : TReg) (o : OrdF) (s : State) : Out :=
  s.guard (s.faultStt f t ad) (match ad with
    | .pair sb => .next (((s.onC (fun c => c.tileOut f t.val (pairOf (s.pair sb)))).seqCount o 1).touch)
    | .mem sb off =>
      let va := s.eaT sb off
      let bs := s.core.tImage t.val
      match s.route va Config.tBytes .write with
      | .error _ => .next s
      | .ok (.scratch a) => .next (((s.onC (fun c => c.storeScratch a bs)).seqCount o 1).touch)
      | .ok r => .next ((s.tileStore r bs o va).touch))

/-- The faults of STP: T register, layouts and format, then both pairs (R253). -/
def State.faultStp (s : State) (f : Fmt) (sb sc : SReg) (t : TReg) : Option SlotFault :=
  (faultIf (!s.core.hasT t.val) 1 Cause.regAbsent 0).or
    ((faultIf ((pairOf (s.pair sb)).lay == 2 || (pairOf (s.pair sc)).lay != 2 || f.isBfp) 1 Cause.operandForm 0).or
      ((accFault 1 0 (s.tilePairBad f sb)).or ((accFault 1 0 (s.tilePairBad f sc)).or (s.tileBad t))))

/-- STP.f (Sb), (Sc), Td: the tile through the first pair, then through the second (R253). -/
def execStp (f : Fmt) (sb sc : SReg) (t : TReg) (o : OrdF) (s : State) : Out :=
  s.guard (s.faultStp f sb sc t)
    (.next (((s.onC (fun c => (c.tileOut f t.val (pairOf (s.pair sb))).tileOut f t.val (pairOf (s.pair sc)))).seqCount
      o 1).touch))

/-! ## Atomics (R254, R255) -/

/-- What an atomic writes: the new value (none for a failing ACAS or ASUBF), whether it succeeds, and its flags; `n`
bytes, `v` and `e` the operands (R254, R255). -/
def atomicValue (op : Instr) (n old v e : Nat) : Option Nat × Bool × Flags :=
  let w := 8 * n
  let so := signedOf w old
  let sv := signedOf w v
  match op with
  | .aadd .. => (some ((old + v) % 2 ^ w), true, 0)
  | .amin .. => (some (if sv < so then v else old), true, 0)
  | .amax .. => (some (if so < sv then v else old), true, 0)
  | .aminu .. => (some (if v < old then v else old), true, 0)
  | .amaxu .. => (some (if old < v then v else old), true, 0)
  | .aand .. => (some (old &&& v), true, 0)
  | .aor .. => (some (old ||| v), true, 0)
  | .axor .. => (some (old ^^^ v), true, 0)
  | .aswp .. => (some v, true, 0)
  | .acas .. => if old = v then (some e, true, 0) else (none, false, 0)
  | .asubf .. => if v ≤ old ∧ e ≤ old - v then (some (old - v), true, 0) else (none, false, 0)
  | .afadd f .. =>
    let ff := match f with | .f32 => ff32 | .f64 => ff64
    let r := ff.add .rne (ff.read old) (ff.read v)
    (some r.1, true, r.2)
  | _ => (none, false, 0)

/-- Bytes an atomic acts on. -/
def atomicBytes (op : Instr) : Nat :=
  match op with
  | .aadd z .. | .amin z .. | .amax z .. | .aminu z .. | .amaxu z .. | .aand z .. | .aor z .. | .axor z ..
  | .aswp z .. | .acas z .. | .asubf z .. => sizeBytes z
  | .afadd .f32 .. => 4
  | .afadd .f64 .. => 8
  | _ => 1

/-- The destinations of an atomic: the register of the old value and, for ASUBF, the predicate. -/
def atomicDest (op : Instr) : SReg × PReg :=
  match op with
  | .aadd _ d .. | .amin _ d .. | .amax _ d .. | .aminu _ d .. | .amaxu _ d .. | .aand _ d .. | .aor _ d ..
  | .axor _ d .. | .aswp _ d .. | .acas _ d .. | .afadd _ d .. => (d, 0)
  | .asubf _ d _ _ _ _ p _ => (d, p)
  | _ => (0, 0)

/-- The registers written when an atomic's value returns (R255): the old value, the outcome of ASUBF, the flags. -/
def Arch.landAtomic (a : Arch) (op : Instr) (old v e : Nat) : Arch :=
  let r := atomicValue op (atomicBytes op) old v e
  let a := (a.ws (atomicDest op).1 (BitVec.ofNat 64 old)).wp (atomicDest op).2 r.2.1
  { a with xflags := a.xflags ||| r.2.2 }

/-- The launch of the core in focus runs in Troy mode (R112). -/
def State.troyOn (s : State) : Bool := (s.launchOf s.core).any (fun l => l.lr.troy)

/-- The faults of an atomic at issue (R255): alignment, Troy order, the address, a POISONED line. -/
def State.faultAtom (s : State) (op : Instr) (b : SReg) (off : BitVec 13) : Option SlotFault :=
  let va := s.eaA b off
  let n := atomicBytes op
  (faultIf (va.toNat % n != 0) 1 Cause.operandForm va).or
    ((faultIf ((match op with | .afadd .. => true | _ => false) && s.troyOn) 1 Cause.troyOrder va).or
      ((accFault 1 va (s.routeBad va n .rmw)).or (s.padFault 1 va n)))

/-- An atomic: on a scratchpad performed at once at its bank, in memory at its home when its event comes (R160, R255). -/
def State.atomic (s : State) (op : Instr) (b : SReg) (off : BitVec 13) (c e : SReg) (o : OrdF) : Out :=
  let va := s.eaA b off
  let n := atomicBytes op
  let v := (s.rs c).toNat % 2 ^ (8 * n)
  let x := (s.rs e).toNat % 2 ^ (8 * n)
  s.guard (s.faultAtom op b off) (match s.route va n .rmw with
    | .error _ => .next s
    | .ok (.mem ps) => .next (s.sendLoad ps n (.atom op (BitVec.ofNat 64 v) (BitVec.ofNat 64 x)) o va)
    | .ok r =>
      let old := leVal (s.readRoute r n)
      let put (a : Nat) (k : Core) : Core := match (atomicValue op n old v x).1 with
        | some w => k.storeScratch a (leBytes n w)
        | none => k
      let s := match r with
        | .scratch a => s.onC (put a)
        | .clus pos a => s.onCore (s.core.peer pos) (put a)
        | .mem _ => s
      .next (((s.onC (fun k => k.both (fun q => q.landAtomic op old v x))).seqCount o 1).touchIf r))

/-- AADD (R254). -/
def execAadd (z : Sz) (d b : SReg) (off : BitVec 13) (c : SReg) (o : OrdF) (s : State) : Out :=
  s.atomic (.aadd z d b off c o) b off c 0 o
/-- AMIN, signed (R254). -/
def execAmin (z : Sz) (d b : SReg) (off : BitVec 13) (c : SReg) (o : OrdF) (s : State) : Out :=
  s.atomic (.amin z d b off c o) b off c 0 o
/-- AMAX, signed (R254). -/
def execAmax (z : Sz) (d b : SReg) (off : BitVec 13) (c : SReg) (o : OrdF) (s : State) : Out :=
  s.atomic (.amax z d b off c o) b off c 0 o
/-- AMINU (R254). -/
def execAminu (z : Sz) (d b : SReg) (off : BitVec 13) (c : SReg) (o : OrdF) (s : State) : Out :=
  s.atomic (.aminu z d b off c o) b off c 0 o
/-- AMAXU (R254). -/
def execAmaxu (z : Sz) (d b : SReg) (off : BitVec 13) (c : SReg) (o : OrdF) (s : State) : Out :=
  s.atomic (.amaxu z d b off c o) b off c 0 o
/-- AAND (R254). -/
def execAand (z : Sz) (d b : SReg) (off : BitVec 13) (c : SReg) (o : OrdF) (s : State) : Out :=
  s.atomic (.aand z d b off c o) b off c 0 o
/-- AOR (R254). -/
def execAor (z : Sz) (d b : SReg) (off : BitVec 13) (c : SReg) (o : OrdF) (s : State) : Out :=
  s.atomic (.aor z d b off c o) b off c 0 o
/-- AXOR (R254). -/
def execAxor (z : Sz) (d b : SReg) (off : BitVec 13) (c : SReg) (o : OrdF) (s : State) : Out :=
  s.atomic (.axor z d b off c o) b off c 0 o
/-- ASWP (R254). -/
def execAswp (z : Sz) (d b : SReg) (off : BitVec 13) (c : SReg) (o : OrdF) (s : State) : Out :=
  s.atomic (.aswp z d b off c o) b off c 0 o
/-- ACAS (R254). -/
def execAcas (z : Sz) (d b : SReg) (off : BitVec 13) (c e : SReg) (o : OrdF) (s : State) : Out :=
  s.atomic (.acas z d b off c e o) b off c e o
/-- ASUBF (R254). -/
def execAsubf (z : Sz) (d b : SReg) (off : BitVec 13) (c e : SReg) (pd : PReg) (o : OrdF) (s : State) : Out :=
  s.atomic (.asubf z d b off c e pd o) b off c e o
/-- AFADD.W and AFADD.D (R254). -/
def execAfadd (f : SFmt) (d b : SReg) (off : BitVec 13) (c : SReg) (o : OrdF) (s : State) : Out :=
  s.atomic (.afadd f d b off c o) b off c 0 o

/-! ## Line states and prefetch (R256 to R258) -/

/-- The scratchpad offset of a LINE or LINEQ address, which must lie in the core's own SCRATCH window (R256). -/
def State.ownOffset (s : State) (va : Word) : Except Cause Nat :=
  if wbits va 63 56 ≠ 0xF8 ∨ wbits va 47 32 ≠ 0 then .error Cause.windowBad
  else if wbits va 55 48 ≠ s.logical s.core.id then .error Cause.scratchForeign
  else .ok (wbits va 31 0)

/-- The faults of LINE (R256). -/
def State.faultLine (s : State) (b : SReg) (off : BitVec 22) (c : SReg) : Option SlotFault :=
  let va := s.eaG b off
  match s.ownOffset va with
  | .error e => some (slotFault 1 e va)
  | .ok o =>
    (faultIf (o % 128 != 0) 1 Cause.operandForm va).or
      (faultIf (decide ((s.rs c).toNat ≠ 0) && decide (s.core.scratchSize < o + 128 * (s.rs c).toNat)) 1
        Cause.scratchRange va)

/-- The code a line-state name sets. -/
def lineCodeOf (st : LineSt) : LineCode :=
  match st with
  | .empty => .empty | .full => .full | .pois => .pois

/-- LINE.st [Sb+off], Sc: the change waits for commit (R256). -/
def execLine (st : LineSt) (b : SReg) (off : BitVec 22) (c : SReg) (s : State) : Out :=
  s.guard (s.faultLine b off c) (match s.ownOffset (s.eaG b off) with
    | .error _ => .next s
    | .ok o =>
      if (s.rs c).toNat = 0 then .next s
      else .next ((s.onC (fun k => { k with gate := k.gate ++
        [.line (o / 128) (s.rs c).toNat (lineCodeOf st)] })).touch))

/-- The faults of LINEQ (R257). -/
def State.faultLineq (s : State) (b : SReg) (off : BitVec 22) : Option SlotFault :=
  let va := s.eaG b off
  match s.ownOffset va with
  | .error e => some (slotFault 1 e va)
  | .ok o => (faultIf (o % 128 != 0) 1 Cause.operandForm va).or
      (faultIf (decide (s.core.scratchSize ≤ o)) 1 Cause.scratchRange va)

/-- The two bits of a line's state as LINEQ returns them (R31, R257). -/
def lineBits (st : LineCode) : Nat :=
  match st with
  | .empty => 0 | .full => 1 | .pois => 2

/-- LINEQ Sd, [Sb+off]: the states of 32 lines (R257). -/
def execLineq (d b : SReg) (off : BitVec 22) (s : State) : Out :=
  s.guard (s.faultLineq b off) (match s.ownOffset (s.eaG b off) with
    | .error _ => .next s
    | .ok o => .next ((s.ws d (BitVec.ofNat 64 (((List.range 32).map (fun t =>
        (if 128 * (o / 128 + t) < s.core.scratchSize then lineBits (s.core.lineView (o / 128 + t)) else 0) *
          2 ^ (2 * t))).sum))).touch))

/-- PREF [Sb+off]: counts until the line is resident; an address that would fault, or that lies outside the GLOBAL and
PRIVATE windows, drops it (R258). -/
def execPref (b : SReg) (off : BitVec 22) (o : OrdF) (s : State) : Out :=
  let va := s.eaG b off
  match s.route va 1 .read with
  | .ok (.mem ps) => .next (s.sendLoad ps 1 .none o va)
  | _ => .next (s.seqCount o 1)

/-! ## Shape slots (R39, R259) -/

/-- A layout code. -/
def layoutOf (n : Nat) : Fin 3 := Fin.ofNat 3 n

/-- A 4-byte and an 8-byte field of a record. -/
def field32 (bs : List Byte) (i : Nat) : Nat := leVal ((bs.drop i).take 4)
def field64 (bs : List Byte) (i : Nat) : Nat := leVal ((bs.drop i).take 8)

/-- A 128-byte shape record as HLD checks it (R39, R69); none where it is refused. (DEDUCED: log 83.) -/
def parseShape (bs : List Byte) : Option Shape :=
  let h := field64 bs 0
  let rank := h / 2 ^ 6 % 8
  let rag := h / 2 ^ 9 % 2 == 1
  let lay := h / 2 ^ 4 % 4
  match Fmt.ofCode (h % 16) with
  | none => none
  | some f =>
    if h / 2 ^ 10 ≠ 0 ∨ field32 bs 28 ≠ 0 ∨ field32 bs 92 ≠ 0 ∨ leVal ((bs.drop 104).take 24) ≠ 0 ∨ rank = 0 ∨
       5 < rank ∨ lay = 3 ∨ (f.isBfp ∧ lay ≠ 0) ∨ (List.range rank).any (fun d => field32 bs (8 + 4 * d) == 0) ∨
       (rag ∧ (rank < 2 ∨ field64 bs 40 ≠ 0 ∨ field64 bs 96 % 8 ≠ 0)) then none
    else some
      { fmt := f, layout := layoutOf lay, rank := Fin.ofNat 6 rank, ragged := rag,
        ext := Vector.ofFn (fun (d : Fin 5) => if d.val < rank then field32 bs (8 + 4 * d.val) else 1),
        str := Vector.ofFn (fun (d : Fin 5) => if d.val < rank then BitVec.ofNat 64 (field64 bs (32 + 8 * d.val)) else 0),
        box := Vector.ofFn (fun (d : Fin 5) => if d.val < rank then field32 bs (72 + 4 * d.val) else 1),
        ragt := BitVec.ofNat 64 (field64 bs 96) }

/-- The 128 bytes of a slot's record, with the effective values at or above RANK (R39, R259). -/
def Shape.bytes (h : Shape) : List Byte :=
  leBytes 8 (h.fmt.code + h.layout.val * 2 ^ 4 + h.rank.val * 2 ^ 6 + (if h.ragged then 2 ^ 9 else 0)) ++
  h.ext.toList.flatMap (leBytes 4) ++ leBytes 4 0 ++ h.str.toList.flatMap (fun w => leBytes 8 w.toNat) ++
  h.box.toList.flatMap (leBytes 4) ++ leBytes 4 0 ++ leBytes 8 h.ragt.toNat ++ leBytes 24 0

/-- The record HLD would read. -/
def State.hldRecord (s : State) (b : SReg) (off : BitVec 22) : List Byte :=
  match s.route (s.eaG b off) 128 .read with
  | .error _ => []
  | .ok r => s.readRoute r 128

/-- A read that must end before its bundle commits: its faults (R32, R159, R197, R249). -/
def State.faultRead (s : State) (slot : Nat) (va : Word) (n : Nat) : Option SlotFault :=
  match s.route va n .read with
  | .error c => some (slotFault slot c va)
  | .ok r => (s.padFault slot va n).or (faultIf (s.routePoison r) slot Cause.dataPoison va)

/-- The faults of HLD (R259). -/
def State.faultHld (s : State) (b : SReg) (off : BitVec 22) : Option SlotFault :=
  let va := s.eaG b off
  (faultIf (va.toNat % 128 != 0) 1 Cause.operandForm va).or
    ((s.faultRead 1 va 128).or (faultIf (parseShape (s.hldRecord b off)).isNone 1 Cause.shapeBad va))

/-- HLD Hn, [Sb+off]: the record is read and checked before the bundle commits (R259). -/
def execHld (h : HReg) (b : SReg) (off : BitVec 22) (o : OrdF) (s : State) : Out :=
  s.guard (s.faultHld b off)
    (let s' := (s.onA (fun a => { a with h := a.h.set h.val (parseShape (s.hldRecord b off)) })).seqCount o 1 |>.noteAcc (s.eaG b off) 128 .read
     .next (match s.route (s.eaG b off) 128 .read with | .ok r => (s'.touchIf r).dropRoute r | .error _ => s'))

/-- HEV Hn (R259). -/
def execHev (h : HReg) (s : State) : Out := .next (s.onA (fun a => { a with h := a.h.set h.val none }))

/-- HGET Sc, Hn, w; 0 for an empty slot (R259). -/
def execHget (c : SReg) (h : HReg) (w : Fin 16) (s : State) : Out :=
  .next (s.ws c (match s.core.src.h[h.val] with
    | some x => BitVec.ofNat 64 (field64 x.bytes (8 * w.val))
    | none => 0))

end Sys2Proof.Machine
end

