-- ==== Sys2Proof/Machine/System.lean ====
section
/-! DEFINITION. Waiting, barriers, the partition and port-program slots (R110, R152, R240 to R248), and the events inside
a monitored wait. -/

namespace Sys2Proof.Machine

/-! ## Monitored waits (R110, R240) -/

/-- The GLOBAL address of an access that must lie in the GLOBAL or PRIVATE window. -/
def State.memOnly (s : State) (va : Word) (n : Nat) : Except Cause Nat :=
  match s.window s.core va n with
  | .ok (.mem a) => .ok a
  | .ok _ => .error Cause.windowBad
  | .error c => .error (if wbits va 63 56 = 0xF8 ∨ wbits va 63 56 = 0xF9 then Cause.windowBad else c)

/-- The faults of WAITM at issue (R240). -/
def State.faultWaitm (s : State) (a : SReg) (off : BitVec 17) : Option SlotFault :=
  let va := s.eaW a off
  (faultIf (va.toNat % 8 != 0) 0 Cause.operandForm va).or
    (match s.memOnly va 8 with
     | .error c => some (slotFault 0 c va)
     | .ok g =>
       match s.translate (s.asidOf s.core) g .read with
       | .error c => some (slotFault 0 c va)
       | .ok p => faultIf (p.cache != 0) 0 Cause.operandForm va)

/-- The physical address of the watched word. -/
def State.watched (s : State) (va : Word) : Nat :=
  match s.memOnly va 8 with
  | .error _ => 0
  | .ok g =>
    match s.translate (s.asidOf s.core) g .read with
    | .error _ => 0
    | .ok p => p.pa

/-- WAITM Sd, [Sa+off], Sb, Sc: sets the monitor up and waits; once a cause is known, writes it and the bundle goes on
(R240). -/
def execWaitm (d a : SReg) (off : BitVec 17) (b c : SReg) (s : State) : Out :=
  s.guard (s.faultWaitm a off) (match s.core.monitor with
    | none =>
      let m : Monitor := ⟨false, false, s.watched (s.eaW a off), s.eaW a off, s.rs b, (s.rs c).toNat, 0, none⟩
      .next ((s.onC (fun k => { k with monitor := some m, ended := true })).noteAcc (s.eaW a off) 8 .read)
    | some m =>
      match m.cause with
      | none => .next (s.onC (fun k => { k with ended := true }))
      | some v => .next ((s.ws d (BitVec.ofNat 64 v)).onC (fun k => { k with monitor := none })))

/-- A store of the core in focus that touches a line of 128 bytes and is not yet performed. An atomic is not one that arming waits for:
R110 speaks of stores. (DESIGN CHOICE: log 115.) -/
def Core.storeOn (c : Core) (line : Nat) : Bool :=
  (c.stores ++ c.held).any (fun p => p.parts.any (fun x => decide (x.pa / 128 ≤ line) && decide (line ≤ (x.pa + x.n - 1) / 128)))

/-- Ends the wait of an armed monitor that has no cause yet. -/
def State.wake (s : State) (ok : Monitor → Bool) (code : Nat) : Out :=
  match s.core.monitor with
  | some m =>
    if m.armed && m.cause.isNone && ok m then .next (s.onC (fun c => { c with monitor := some { m with cause := some code } }))
    else .next s
  | none => .next s

/-- WAITM_ARM: once the core's own stores to the line are performed, the home slice compares the word; a difference is
cause 0. A word that is poisoned, or that no route leads to any more, is data consumed (R110, R197, R367).
(DEDUCED: log 80; DESIGN CHOICE: log 115.) -/
def execWaitmArm (s : State) : Out :=
  match s.core.monitor with
  | some m =>
    if m.armed || s.core.storeOn (m.word / 128) then .next s
    else if s.noRoute s.core m.word || s.isPoison m.word 8 then
      .next ((if s.noRoute s.core m.word then s.routeError m.va m.word else s).fatalTrap Cause.dataPoison 0x01 s.core.ckpt.pc m.va 0)
    else
      let same := leVal (s.physBytes m.word 8) == m.expect.toNat
      .next (s.onC (fun c => { c with monitor := some { m with armed := true, cause := if same then none else some 0 } }))
  | none => .next s

/-- WAITM_WAKE_WRITE: another agent has written the line (R110). -/
def execWaitmWakeWrite (s : State) : Out := s.wake (fun m => m.hit) 0
/-- WAITM_MONITOR_LOST (R110). -/
def execWaitmMonitorLost (s : State) : Out := s.wake (fun _ => true) 1
/-- WAITM_TIMEOUT: the timeout, if there is one, has passed (R110). (DESIGN CHOICE: log 100.) -/
def execWaitmTimeout (s : State) : Out := s.wake (fun m => decide (m.timeout ≠ 0) && decide (m.timeout ≤ m.waited)) 3
/-- WAITM_SPURIOUS: no cause; allowed at any time (R110). -/
def execWaitmSpurious (s : State) : Out := s.wake (fun _ => true) 4

/-! ## Cluster barriers (R152, R241) -/

/-- The launch of the core in focus holds barrier `b`. -/
def State.holdsBar (s : State) (b : Fin 16) : Bool :=
  match s.launchOf s.core with
  | some l => l.lr.barm.getLsbD b.val
  | none => false

/-- A barrier's state in a cluster for a launch; one not listed has no arrivals and no epochs. -/
def State.barrier (s : State) (cl num launch : Nat) : Barrier :=
  (s.barriers.find? (fun x => x.cluster == cl && x.num == num && x.launch == launch)).getD ⟨cl, num, launch, 0, 0⟩

/-- The cluster of a physical core (R44). -/
def clusterOf (c : Nat) : Nat := c / 8

/-- The barrier `b` of the core in focus. -/
def State.myBar (s : State) (b : Nat) : Barrier := s.barrier (clusterOf s.core.id) b s.core.ctx

/-- The core in focus waits for an epoch of barrier `b` that is still open (R152). -/
def State.barOpen (s : State) (b : Nat) : Bool :=
  match assoc s.core.arrived b with
  | some e => decide ((s.myBar b).epochs < e)
  | none => false

/-- The fault of both barrier instructions. -/
def State.faultBar (s : State) (b : Fin 16) : Option SlotFault := faultIf (!s.holdsBar b) 0 Cause.barrierAbsent 0

/-- BAR.ARV b: the arrival is sent and tagged with the restart point before it; one sent with that tag is not sent again
(R152, R241). (DEDUCED: log 27; DEDUCED: log 54.) -/
def execBarArv (b : Fin 16) (s : State) : Out :=
  s.guard (s.faultBar b) (.next
    (if s.core.arvSent.contains s.core.ckpt.pc then s
     else (s.onC (fun c => { c with arvSent := c.arvSent ++ [c.ckpt.pc], arrivals := c.arrivals ++ [(b.val, s.uid)],
                                    arrived := bindTo c.arrived b.val ((s.myBar b.val).epochs + 1) })).nextUid))

/-- BAR.WT b, once the epoch has completed (R152, R241). -/
def execBarWt (b : Fin 16) (s : State) : Out :=
  s.guard (s.faultBar b) (.next (s.onC (fun c => { c with arrived := unbind c.arrived b.val })))

/-- Members of a barrier in a cluster: the launch's tasks placed there (R152). -/
def State.members (s : State) (l : Launch) (cl : Nat) : Nat :=
  ((l.cores.take (min l.lr.count l.lr.npl)).filter (fun c => clusterOf (s.physical c) == cl)).length

/-- Every access and thread of the core numbered below `u` has been performed. (DEDUCED: log 54.) -/
def Core.settledBelow (c : Core) (u : Nat) : Bool :=
  c.loads.all (fun l => decide (u ≤ l.uid)) && (c.stores ++ c.held).all (fun p => decide (u ≤ p.uid)) &&
  c.threads.all (fun t => decide (u ≤ t.id))

/-- BARRIER_ARRIVAL_COUNTED: an arrival is counted once every earlier access and thread of the task is performed; the
last member's completes the epoch, which also ends the Troy phase (R112, R152, R153). (DEDUCED: log 53; DEDUCED: log 54.) -/
def execBarrierArrivalCounted (b : Fin 16) (s : State) : Out :=
  match assoc s.core.arrivals b.val, s.launchOf s.core with
  | some u, some l =>
    if !s.core.settledBelow u then .next s
    else
      let k := s.myBar b.val
      let s := s.onC (fun c => { c with arrivals := unbind c.arrivals b.val })
      let full := decide (s.members l k.cluster ≤ k.arrivals + 1)
      let k' : Barrier := if full then { k with arrivals := 0, epochs := k.epochs + 1 } else { k with arrivals := k.arrivals + 1 }
      let rest := s.barriers.filter (fun x => !(x.cluster == k.cluster && x.num == k.num && x.launch == k.launch))
      .next { s with barriers := k' :: rest,
                     tags := if full then s.tags.filter (fun t => t.1 ≠ k.launch) else s.tags }
  | _, _ => .next s

/-! ## Partition and port-program slots (R242 to R247) -/

/-- A partition word that fits, SG ignored (R28). -/
def partwOf (w : Word) : Option Partw :=
  let tg := wbits w 10 8
  let zg := wbits w 20 16
  let trip := wbits w 39 24
  if 4 < tg ∨ 16 < zg ∨ trip / 2 ^ zg ≠ 0 ∨ wbits w 63 40 ≠ 0 ∨ wbits w 23 21 ≠ 0 ∨ wbits w 15 11 ≠ 0 then none
  else some ⟨tg, zg, BitVec.ofNat 16 trip⟩

/-- The faults of PARTN (R242). -/
def State.faultPartn (s : State) (a : SReg) : Option SlotFault :=
  faultIf (s.core.cnt.toList.any (fun n => n != 0) || s.core.src.touched || (partwOf (s.rs a)).isNone) 0
    Cause.operandForm 0

/-- PARTN Sa: a new partition, with the pool and the side array zeroed, every line EMPTY and the latches empty
(R242). -/
def execPartn (a : SReg) (s : State) : Out :=
  s.guard (s.faultPartn a) (match partwOf (s.rs a) with
    | none => .next s
    | some p => .next (s.onC (fun c =>
        { c with partw := p, pool := [], side := [], lines := [], plinks := [], latA := [], latB := [],
                 badPool := [], badSide := [], badLatA := false, badLatB := false,
                 arch := { c.arch with latchA := none, latchB := none } })))

/-- The port number of a bind. -/
def portIx (p : Port) : Fin 4 := match p with | .a => 0 | .b => 1 | .d => 2 | .k => 3

/-- The program of a slot; slot 0 has none of its own (R42). -/
def Arch.prog (a : Arch) (n : Fin 64) : Option PSlot := if n = 0 then none else a.progs[n.val]

/-- The fault of BIND (R246). -/
def State.faultBind (s : State) (n : Fin 64) (p : Port) : Option SlotFault :=
  faultIf (decide (n ≠ 0) && (match s.core.src.prog n with
    | none => true
    | some x => !x.ports.getLsbD (portIx p).val)) 0 Cause.pprogBad 0

/-- BIND n, port (R246). -/
def execBind (n : Fin 64) (p : Port) (s : State) : Out :=
  s.guard (s.faultBind n p) (.next (s.onA (fun a => { a with binds := a.binds.set (portIx p).val n })))

/-- The fault of KSET (R245). -/
def State.faultKset (s : State) (n : Fin 64) : Option SlotFault :=
  faultIf (s.core.src.prog n).isNone 0 Cause.pprogBad 0

/-- KSET n, kj, Sa (R245). -/
def execKset (n : Fin 64) (j : Fin 8) (a : SReg) (s : State) : Out :=
  s.guard (s.faultKset n) (.next (s.onA (fun r =>
    { r with progs := r.progs.set n.val (r.progs[n.val].map (fun x => { x with k := x.k.set j.val (s.rs a) })) })))

/-- The record PPLD would read. -/
def State.ppldRecord (s : State) (a : SReg) (v : BitVec 23) : List Byte :=
  match s.route (s.eaP a v) 72 .read with
  | .error _ => []
  | .ok r => s.readRoute r 72

/-- The element words of a port-program record. -/
def ppldWords (bs : List Byte) : List (BitVec 32) := (List.range 16).map (fun i => BitVec.ofNat 32 (field32 bs (8 + 4 * i)))

/-- A record that PPLD refuses for slot `n` (R244). -/
def State.ppldBad (s : State) (n : Fin 64) (bs : List Byte) : Bool :=
  let h := field64 bs 0
  decide (n = 0) || !progOk h (ppldWords bs) ||
  (List.range 4).any (fun i => (s.core.src.binds.toList.getD i 0) == n && h / 2 ^ i % 2 == 0)

/-- The faults of PPLD (R244). -/
def State.faultPpld (s : State) (n : Fin 64) (a : SReg) (v : BitVec 23) : Option SlotFault :=
  let va := s.eaP a v
  (accFault 0 va (match s.memOnly va 72 with | .error c => some c | .ok _ => none)).or
    ((faultIf (va.toNat % 8 != 0) 0 Cause.operandForm va).or
      ((s.faultRead 0 va 72).or (faultIf (s.ppldBad n (s.ppldRecord a v)) 0 Cause.pprogBad va)))

/-- The slot that a record gives; its parameters and q are 0 (R244). -/
def slotOf (bs : List Byte) : PSlot :=
  let h := field64 bs 0
  { words := (ppldWords bs).take (h / 256 % 32), nant := h / 16 % 2 == 1, ports := BitVec.ofNat 4 (h % 16),
    k := Vector.replicate 8 0, q := 0 }

/-- PPLD n, [Sa+imm]: a load on stream 0, counted per page (R106, R244). -/
def execPpld (n : Fin 64) (a : SReg) (v : BitVec 23) (s : State) : Out :=
  s.guard (s.faultPpld n a v)
    (let k := match s.route (s.eaP a v) 72 .read with | .ok r => r.count | .error _ => 1
     let s' := (s.onA (fun r => { r with progs := r.progs.set n.val (some (slotOf (s.ppldRecord a v))) })).seqCount
       ⟨0, 0, .core⟩ k |>.noteAcc (s.eaP a v) 72 .read
     .next (match s.route (s.eaP a v) 72 .read with | .ok r => s'.dropRoute r | .error _ => s'))

end Sys2Proof.Machine
end

