-- ==== Sys2Proof/Machine/Launch.lean ====
section
/-! DEFINITION. Launch records: their fields, their admission, the copy schedule
(R131, R132, R134, R141, R168, R377). -/

namespace Sys2Proof.Machine

/-! ## The record (R131) -/

/-- The fields of a launch record's 128 bytes. (DEDUCED: log 83.) -/
def parseLRec (bs : List Byte) : LRec :=
  let w (i : Nat) : Word := BitVec.ofNat 64 (field64 bs (8 * i))
  let a := w 0
  let c := w 2
  { asid := wbits a 59 48, barm := BitVec.ofNat 16 (wbits a 47 32), count := wbits a 31 8, serial := a.getLsbD 7,
    mapped := a.getLsbD 6, midp := a.getLsbD 5, troy := a.getLsbD 4, prio := wbits a 3 2, cls := wbits a 1 0,
    entry := w 1, stride := wbits c 31 24, base := wbits c 23 16, npl := wbits c 8 0, map := w 3, partw := w 4,
    deadline := w 5, cost := w 6, param := w 7, done := w 8, succ := w 9, save := (w 10).toNat, sched := w 11,
    mbar := w 12, mbarn := field32 bs 104, sliceq := field32 bs 108, next := w 14, etab := w 15,
    bad := wbits a 63 60 != 0 || wbits c 63 32 != 0 || wbits c 15 9 != 0 }

/-- Placement slots that tasks use: min(COUNT, NPL). -/
def LRec.used (r : LRec) : Nat := min r.count r.npl

/-- The base of a slot's save area (R192). -/
def LRec.saveBase (r : LRec) (slot : Nat) : Nat := r.save + slot * 2 ^ 24

/-- The number of the read of an agent other than a core that is being served: that of a read served again, or a fresh one. -/
def State.readUid (s : State) : Nat := s.ox.again.getD s.uid

/-- The state as the dispatcher of die `d` reads it (R166, R367, R368). (DESIGN CHOICE: log 120.) -/
def State.byDisp (s : State) (d : Nat) : State := s.as (dispNo d s.readUid)

/-- The parts of memory that a dispatcher reads at a GLOBAL address under an address space (R168). (DESIGN CHOICE: log 103.) -/
def State.partsG (s : State) (asid : Nat) (va : Word) (n : Nat) : Except Cause (List Part) :=
  if n = 0 then .ok []
  else if 2 ^ 57 < va.toNat + n then .error Cause.windowBad
  else s.spanParts asid va.toNat n .read (n / 65536 + 2)

/-- Bytes at a GLOBAL address under an address space, as the dispatcher of die `d` reads them; of poisoned data, and of data that no
route leads to, there are none (R168, R197, R367). (DESIGN CHOICE: log 44; DESIGN CHOICE: log 120.) -/
def State.readG (s : State) (d asid : Nat) (va : Word) (n : Nat) : Except Cause (List Byte) :=
  let v := s.byDisp d
  match v.partsG asid va n with
  | .error c => .error c
  | .ok ps =>
    if ps.any (fun p => v.isPoison p.pa p.n || s.noRouteAt d p.pa) then .error Cause.dataPoison
    else .ok (ps.flatMap (fun p => v.physBytes p.pa p.n))

/-! ## The copy schedule (R141) -/

/-- A schedule's parse: entries and thresholds; none where it breaks a rule. -/
abbrev SchedParse := Option (List SchedEnt × List Nat)

/-- Bytes of a read that must not fault. -/
def okBytes (r : Except Cause (List Byte)) : Option (List Byte) := match r with | .ok bs => some bs | .error _ => none

/-- The shape record of an entry, which HLD would accept (R39). -/
def State.schedShape (s : State) (d : Nat) (asid : Nat) (shp : Word) : Option Shape :=
  if shp.toNat % 128 ≠ 0 then none else (okBytes (s.readG d asid shp 128)).bind parseShape

/-- A destination that an entry may name: a GLOBAL address, or the SCRATCH address of a core of the placement. -/
def schedDstOk (cores : List Nat) (dst : Word) : Bool :=
  if wbits dst 63 56 = 0xF8 then wbits dst 47 32 == 0 && cores.contains (wbits dst 55 48)
  else wbits dst 63 57 == 0

/-- One entry of a schedule with `nstg` stages. -/
def State.schedEntry (s : State) (d : Nat) (asid : Nat) (cores : List Nat) (nstg : Nat) (bs : List Byte) : Option SchedEnt :=
  let w (i : Nat) : Word := BitVec.ofNat 64 (field64 bs (8 * i))
  let f := w 3
  if wbits f 63 16 ≠ 0 ∨ wbits f 7 5 ≠ 0 ∨ nstg ≤ wbits f 15 8 ∨ schedDstOk cores (w 1) = false then none
  else (s.schedShape d asid (w 2)).map (fun h =>
    { src := w 0, dst := w 1, shape := h, stage := wbits f 15 8, scope := Scope.ofCode (wbits f 4 3),
      stream := Fin.ofNat 8 (wbits f 2 0), released := false, forked := false })

/-- Thresholds start at 0 and do not decrease. -/
def thrOk (ts : List Nat) : Bool := ts.headD 1 == 0 && (List.zip ts (ts.drop 1)).all (fun p => decide (p.1 ≤ p.2))

/-- The header of a schedule: entries, stages, and the offset of the first entry; none where it breaks a rule. -/
def schedHead (bs : List Byte) : Option (Nat × Nat × Nat) :=
  let w := BitVec.ofNat 64 (field64 bs 0)
  let nstg := wbits w 39 32
  if wbits w 63 40 ≠ 0 ∨ 65536 < wbits w 31 0 ∨ nstg = 0 ∨ 64 < nstg then none
  else some (wbits w 31 0, nstg, (8 + 4 * nstg + 31) / 32 * 32)

/-- A copy schedule; an unreadable one counts as a broken one. (DESIGN CHOICE: log 44.) -/
def State.readSched (s : State) (d : Nat) (asid : Nat) (cores : List Nat) (va : Word) : SchedParse :=
  match (okBytes (s.readG d asid va 8)).bind schedHead with
  | none => none
  | some (nent, nstg, at0) =>
    match okBytes (s.readG d asid (va + 8) (4 * nstg)), okBytes (s.readG d asid (va + BitVec.ofNat 64 at0) (32 * nent)) with
    | some tb, some eb =>
      let thr := (chunks 4 nstg tb).map leVal
      if !thrOk thr then none
      else ((chunks 32 nent eb).mapM (s.schedEntry d asid cores nstg)).map (fun es => (es, thr))
    | _, _ => none

/-! ## What a dispatcher still waits for (R368) -/

/-- The sectors that a part touches, by address. -/
def Part.sectors (p : Part) : List Nat := (List.range ((p.pa + max p.n 1 - 1) / 32 + 1 - p.pa / 32)).map (fun i => 32 * (p.pa / 32 + i))

/-- Sectors of another package that parts of access `uid` of the core or agent in focus touch and that have not come back for it
(R368). -/
def State.farMissing (s : State) (uid : Nat) (ps : List Part) : List Nat :=
  ((ps.filter (fun p => isRemote p.pa)).flatMap Part.sectors).filter (fun k =>
    !s.ox.got.any (fun x => x.core == s.core.id && x.uid == uid && x.pa == k))

/-- The parts that the dispatcher of die `d` reads at a GLOBAL address; none where a fault or a lost route ends the read. -/
def State.partsD (s : State) (d asid : Nat) (va : Word) (n : Nat) : List Part :=
  match (s.byDisp d).partsG asid va n with
  | .error _ => []
  | .ok ps => if ps.any (fun p => s.noRouteAt d p.pa) then [] else ps

/-- Sectors of another package among parts that have not come back for the dispatcher of die `d`. -/
def State.missD (s : State) (d : Nat) (ps : List Part) : List Nat := (s.byDisp d).farMissing s.readUid ps

/-- What the dispatcher of die `d` still lacks of a copy schedule: its header first, then its thresholds and entries, then their
shapes. -/
def State.missSched (s : State) (d asid : Nat) (va : Word) : List Nat :=
  match s.missD d (s.partsD d asid va 8) with
  | k :: r => k :: r
  | [] =>
    match (okBytes (s.readG d asid va 8)).bind schedHead with
    | none => []
    | some (nent, nstg, at0) =>
      let ev := va + BitVec.ofNat 64 at0
      match s.missD d (s.partsD d asid (va + 8) (4 * nstg) ++ s.partsD d asid ev (32 * nent)) with
      | k :: r => k :: r
      | [] => s.missD d ((chunks 32 nent ((okBytes (s.readG d asid ev (32 * nent))).getD [])).flatMap (fun e =>
          s.partsD d asid (BitVec.ofNat 64 (field64 e 16)) 128))

/-! ## Admission (R134, R377) -/

/-- The save areas of `n` slots lie wholly within the firmware-reserved memory of one compute die (R134, R161). -/
def State.savePinned (s : State) (save n : Nat) : Bool :=
  match s.region save with
  | .dram _ off => decide (Config.reservedBase ≤ off) && decide (off + n * 2 ^ 24 ≤ Config.dieBytes)
  | _ => false

/-- A save area holds a completed full save of the record's ASID, written on this grade, as the dispatcher of die `d` can read
(R192, R197, R367, R377). -/
def State.saveHolds (s : State) (d : Nat) (r : LRec) (slot : Nat) : Bool :=
  let a := r.saveBase slot + 0x100
  let h := BitVec.ofNat 64 (leVal (s.mem.bytes a 8))
  !s.noRouteAt d a && !s.isPoison a 8 && wbits h 0 0 == 1 && wbits h 43 32 == r.asid && wbits h 51 44 == gradeCode s.grade

/-- Logical cores that the placement names: BASE and STRIDE, or the bytes of MAP (R132). -/
def State.placement (s : State) (d : Nat) (r : LRec) : Except Cause (List Nat) :=
  if r.mapped then
    (match s.readG d r.asid r.map r.npl with
     | .error c => .error c
     | .ok bs => .ok (bs.map BitVec.toNat))
  else .ok ((List.range r.npl).map (fun i => r.base + i * r.stride))

/-- Entry addresses, when ETAB is not 0. -/
def State.entries (s : State) (d : Nat) (r : LRec) : Except Cause (List Word) :=
  if r.etab = 0 then .ok []
  else match s.readG d r.asid r.etab (8 * r.used) with
    | .error c => .error c
    | .ok bs => .ok ((chunks 8 r.used bs).map (fun e => BitVec.ofNat 64 (leVal e)))

/-- Two numbers of a list are equal. -/
def hasDup (l : List Nat) : Bool := l.eraseDups.length != l.length

/-- The checks from 0x12 on, in ascending code order. -/
def State.checkPlace (s : State) (d : Nat) (r : LRec) (adopt : Bool) (etab : List Word) : Admit :=
  match s.placement d r with
  | .error c => .fault c r.map
  | .ok cores =>
    let used := (cores.take r.used).map s.physical
    if r.npl = 0 ∨ cores.any (fun c => decide (8 * perDie s.grade ≤ c)) then .reject 0x12
    else if hasDup cores then .reject 0x13
    else if used.any (fun c => !s.online c) then .reject 0x14
    else if used.any (fun a => used.any (fun b => s.latency (dieOf a) (dieOf b) == 15)) then .reject 0x15
    else if r.cls = 1 ∧ r.npl < r.count then .reject 0x16
    else if r.cls = 2 ∧ r.npl < r.count then .reject 0x17
    else if (partwOf r.partw).isNone then .reject 0x18
    else if (r.cls ≠ 0 ∨ r.midp ∨ adopt) ∧ !s.savePinned r.save r.used then .reject 0x19
    else if adopt && (List.range r.used).any (fun i => !s.saveHolds d r i) then .reject 0x19
    else if (r.barm ≠ 0 ∨ r.mbar ≠ 0) ∧ r.cls ≠ 2 then .reject 0x1A
    else if r.sched = 0 then .ok cores etab [] []
    else match s.readSched d r.asid cores r.sched with
      | none => .reject 0x1B
      | some p => .ok cores etab p.1 p.2

/-- A record fails one of the first two tests, which read nothing that it names. -/
def LRec.early (r : LRec) (adopt : Bool) : Option Nat :=
  if 1048576 < r.count then some 0x10
  else if r.bad ∨ r.cls = 3 ∨ r.entry.toNat % 32 ≠ 0 ∨ r.done.toNat % 8 ≠ 0 ∨ r.etab.toNat % 8 ≠ 0 ∨ (adopt ∧ r.npl < r.count) then
    some 0x11
  else none

/-- What the dispatcher of die `d` still lacks of what a record names: ETAB and MAP, then the copy schedule (R132, R141, R368). -/
def State.missTables (s : State) (d : Nat) (r : LRec) (adopt : Bool) : List Nat :=
  if (r.early adopt).isSome ∨ r.count = 0 then []
  else
    match s.missD d ((if r.etab = 0 then [] else s.partsD d r.asid r.etab (8 * r.used)) ++
        (if r.mapped then s.partsD d r.asid r.map r.npl else [])) with
    | k :: t => k :: t
    | [] => if r.sched = 0 then [] else s.missSched d r.asid r.sched

/-- What the dispatcher of die `d` still lacks of a record at an address, and of what it names (R368). -/
def State.missRecord (s : State) (d asid : Nat) (va : Word) (adopt : Bool) : List Nat :=
  match s.missD d (s.partsD d asid va 128) with
  | k :: r => k :: r
  | [] => match s.readG d asid va 128 with
    | .error _ => []
    | .ok bs => s.missTables d (parseLRec bs) adopt

/-- The checks of a record that the dispatcher of die `d` has read; `adopt` adds those of R377. A launch without tasks is tested against the
first two codes alone. -/
def State.checkRec (s : State) (d : Nat) (r : LRec) (adopt : Bool) : Admit :=
  match r.early adopt with
  | some code => .reject code
  | none => match s.entries d r with
    | .error c => .fault c r.etab
    | .ok etab =>
      if etab.any (fun e => e.toNat % 32 != 0) then .reject 0x11
      else if r.count = 0 then .ok [] etab [] []
      else s.checkPlace d r adopt etab

/-- SEQNO counts a record that has been read. (DEDUCED: log 43.) -/
def State.countSeq (s : State) (d : Fin 8) : State := s.onDisp d (fun x => { x with seqno := x.seqno + 1 })

/-- A launch from a record that was read as number `lseq` at `age`: `stream` none for a handler and an adopted launch. Each task
below min(COUNT, NPL) waits for its core; an adopted one stands in its save (R132, R139, R377). (DEDUCED: log 43.) -/
def mkLaunch (id lseq : Nat) (age : Word) (die : Nat) (stream : Option Nat) (addr : Word) (r : LRec) (cores : List Nat)
    (etab : List Word) (sched : List SchedEnt) (thr : List Nat) (handler : Option (Nat × List Byte × Bool)) (adopt : Bool) : Launch :=
  { id := id, die := die, stream := stream, lseq := lseq, addr := addr, lr := r, cores := cores,
    etab := etab, sched := sched, thr := thr, age := age, eff := r.prio, waited := 0, urgent := false,
    slots := (List.range r.used).map (fun i => if adopt then SlotSt.saved i else SlotSt.waiting i), stage := 0, status := .running,
    handler := handler, adopted := adopt, dropped := false, holds := [], kept := [] }

end Sys2Proof.Machine
end

