-- ==== Sys2Proof/Machine/Phys.lean ====
section
/-! DEFINITION. Writes to physical memory: where they land by region, Troy resolution, monitors, L1 copies and mailbox
fires (R107, R110, R112, R143, R144, R161, R197). -/

namespace Sys2Proof.Machine

/-- A record that belongs to no core (R187). -/
def State.plainRec (s : State) (kind cause asid d : Nat) (taddr aux : Word) (lseq : Nat) : LaneRec :=
  { kind := kind, cause := cause, cause2 := 0, asid := asid, tmask := 0, die := d, taskid := 0, xpc := 0, taddr := taddr,
    tinfo := 0, dtime := s.dtime, cnt := 0, ticket := 0, core := 0, lseq := lseq, aux := aux }

/-- The hardware-error record of a unit of a die that belongs to no context (R198). -/
def State.dieRecord (s : State) (cause : Cause) (die unit pa : Nat) : State :=
  s.onDispQ (dieIx die) (fun q => { q with fatal := q.fatal.push fatalCap (s.plainRec 0x02 cause 0 die (BitVec.ofNat 64 pa) (BitVec.ofNat 64 unit) 0) })

/-- The die that is home to a physical address; none outside local DRAM (R161). -/
def State.homeDie (s : State) (pa : Nat) : Option Nat := match s.region pa with | .dram d _ => some d | _ => none

/-- A sector of memory becomes poisoned, as no route leads to its home any more, and the die that reaches for it sends the record
(R367). -/
def State.lostSector (s : State) (d pa : Nat) : State :=
  { s.dieRecord Cause.memUe d (s.lostLink d pa) pa with poison := pa / 32 :: s.poison }

/-- The table entry that no route reaches, of the first page of `n` bytes at an address that cannot be translated (R367). -/
def State.pageLost (s : State) (asid va n : Nat) : Option Nat :=
  let pages := (List.range (n / 65536 + 2)).map (fun i => if i = 0 then va else (va / 65536 + i) * 65536)
  ((pages.filter (fun a => decide (a < va + n))).find? (fun a => match s.leafUsed asid a with | .error _ => true | .ok _ => false)).bind
    (s.walkLost asid)

/-- The record of a read of a die's dispatcher that meets data whose route is lost, or a table on the way to them (R367). -/
def State.lostRead (s : State) (d asid : Nat) (va : Word) (n : Nat) : State :=
  let v := s.byDisp d
  let lost : Option Nat := match v.partsG asid va n with
    | .error _ => v.pageLost asid va.toNat n
    | .ok ps => (ps.find? (fun p => s.noRouteAt d p.pa)).map Part.pa
  match lost with
  | some pa => s.dieRecord Cause.memUe d (s.lostLink d pa) pa
  | none => s

/-- Sends a record to the replay queue of a die's own queue pair (R171). -/
def State.dispReplay (s : State) (d : Nat) (r : LaneRec) : State :=
  s.onDispQ (dieIx d) (fun q => { q with replay := q.replay.push replayCap r })

/-- Code of MAILBOX_FULL (R182). -/
def mailboxFull : Nat := 0x1C

/-- The record of a mailbox's message is read and tested, as number SEQNO of the dispatcher: `put` takes the message with it to its
place in the queue. A record that is turned away takes no place: it is answered in the next step. With a record that cannot be read the
message is dropped, and the cause is sent (R136, R143 to R145, R168). -/
def State.readMail (s : State) (m : Mailbox) (q : Mail) (put : List Mail → Mailbox → Mailbox) : State :=
  let box (f : Mailbox → Mailbox) : List Mailbox := s.mboxes.map (fun x => if x.pa = m.pa then f x else x)
  match s.readG m.die m.asid m.lrec 128 with
  | .error c => State.dispReplay { s.lostRead m.die m.asid m.lrec 128 with mboxes := box (put []) } m.die
      (s.plainRec 0x04 c m.asid m.die m.lrec 0 0)
  | .ok bs =>
    let r := parseLRec bs
    let d := dieIx m.die
    let q : Mail := { q with lr := r, adm := s.checkRec m.die r false, lseq := (s.disp[d.val]).seqno.toNat, age := s.dtime, eff := r.prio,
                             waited := 0 }
    let t := s.countSeq d
    match q.adm with
    | .ok .. => { t with mboxes := box (put [q]) }
    | _ => { t with mboxes := box (fun x => { put [] x with turned := x.turned ++ [q] }),
                    agenda := ⟨s.core.id, .event (.handlerLaunchStart m.pa)⟩ :: s.agenda }

/-- A mailbox fires, by an access of the context `owner`: its 64 bytes join its queue with the handler record as it is read and
tested now, or as it will be where it lies in another package. The fire is dropped when 16 are queued, with MAILBOX_FULL
(R136, R143 to R145, R368). (DEDUCED: log 45; DEDUCED: log 85.) -/
def State.fire (s : State) (pa : Nat) (owner : Option Nat) : State :=
  match s.mboxes.find? (fun m => m.pa == pa) with
  | none => s
  | some m =>
    let q : Mail := ⟨s.mem.bytes pa 64, parseLRec [], .far, 0, s.dtime, 0, 0, owner, none, s.isPoison pa 64⟩
    let put (qs : List Mail) (x : Mailbox) : Mailbox := { x with queue := x.queue ++ qs }
    if 16 ≤ m.queue.length then s.dispReplay m.die (s.plainRec 0x04 mailboxFull m.asid m.die (BitVec.ofNat 64 pa) 0 0)
    else if s.missRecord m.die m.asid m.lrec false = [] then s.readMail m q put
    else { s with mboxes := s.mboxes.map (fun x => if x.pa = pa then put [q] x else x),
                  agenda := ⟨s.core.id, .event (.handlerLaunchStart pa)⟩ :: s.agenda }

/-- Fires every mailbox whose byte 63 lies in a write, whatever access makes it (R143). (DEDUCED: log 85.) -/
def State.fireIn (s : State) (pa n : Nat) (owner : Option Nat) : State :=
  (s.mboxes.filter (fun m => decide (pa ≤ m.pa + 63) && decide (m.pa + 63 < pa + n))).foldl (fun s m => s.fire m.pa owner) s

/-- Marks the monitors of other cores on the lines of a write (R110). -/
def Core.seeWrite (c : Core) (pa n : Nat) : Core :=
  match c.monitor with
  | some m =>
    if m.armed ∧ pa / 128 ≤ m.word / 128 ∧ m.word / 128 ≤ (pa + n - 1) / 128 then { c with monitor := some { m with hit := true } }
    else c
  | none => c

/-- Updates a core's own copies of lines (R92, R107). -/
def Core.l1Write (c : Core) (pa : Nat) (bs : List Byte) : Core :=
  { c with l1 := c.l1.map (fun e => (e.1, overlay (128 * e.1) e.2 pa bs)),
           ahead := c.ahead.map (fun a => { a with bytes := overlay (128 * a.line) a.bytes pa bs }) }

/-- Troy resolution of a plain store (R112): the bytes that carry no higher tag, each with its address. -/
def State.troyBytes (s : State) (launch task pa : Nat) (bs : List Byte) : List (Nat × Byte) :=
  (bs.mapIdx (fun i b => (pa + i, b))).filter (fun x =>
    !(s.tags.any (fun t => t.1 == launch && t.2.1 == x.1 && decide (task < t.2.2))))

/-- A plain store of a Troy launch's task (R112). (DEDUCED: log 53.) -/
def State.troyWrite (s : State) (launch task pa : Nat) (bs : List Byte) : State :=
  let xs := s.troyBytes launch task pa bs
  let keep := s.tags.filter (fun t => !(t.1 == launch && xs.any (fun x => x.1 == t.2.1)))
  { s with mem := s.mem.puts (xs.map (fun x => (x.1, [x.2]))), tags := xs.map (fun x => (launch, x.1, task)) ++ keep }

/-- The low bytes that hold the fields of a register whose write does more than set them: GO, the package number, REPLY, HOLD.
A write that reaches reserved bytes alone has no effect (R11). (DESIGN CHOICE: log 9.) -/
def fieldBytes (block off : Nat) : Nat :=
  if block = 1 ∧ off = 0x018 then 1
  else if block = 6 ∧ off = 0 then 2
  else if 0x10 ≤ block ∧ block < 0x18 then (if off = 0x100 then 3 else if off = 0x180 then 5 else 8)
  else 8

/-- What the bytes of a register that a write leaves out hold: what the register reads, but 0 where a 1 would clear (R11, R174).
(DESIGN CHOICE: log 9.) -/
def State.regRest (s : State) (block off : Nat) : Nat :=
  if block = 2 ∧ off = 0x018 then 0 else (s.regRead block off).toNat

/-- Registers that a write touches, each with its new value (R11). (DESIGN CHOICE: log 9.) -/
def State.regPieces (s : State) (pa : Nat) (bs : List Byte) : List (Nat × Nat × Word) :=
  let first := pa / 8
  let last := (pa + bs.length - 1) / 8
  (List.range (last + 1 - first)).filterMap (fun i =>
    let a := 8 * (first + i)
    let block := a / 2 ^ 32 % 2 ^ 16
    let off := a % 2 ^ 32
    if pa < a + fieldBytes block off then
      some (block, off, BitVec.ofNat 64 (leVal (overlay a (leBytes 8 (s.regRest block off)) pa bs)))
    else none)

/-- A flit goes out to the package that an address of another package names, over the lowest port that the core or agent in focus
reaches and that has that package as its peer, or else over the lowest it reaches (R368, R369). (DESIGN CHOICE: log 66.) -/
def State.sendFlit (s : State) (kind tag pa : Nat) (secs : List (List Byte × Bool)) (nsec : Nat) : State :=
  let pkg := pa / 2 ^ 40 % 2 ^ 11
  let ports := s.portsOf s.core.id
  match (ports.find? (fun p => wbits (s.ox.ports.toList.getD p 0) 15 5 == pkg)).or ports.head? with
  | none => s
  | some p =>
    let port : Fin 16 := Fin.ofNat 16 p
    let n := s.ox.seqOut[port.val]
    let f := buildFlit kind s.ox.pkg.toNat pkg tag n.toNat (pa % 2 ^ 40) secs nsec
    { s with ox := { s.ox with seqOut := s.ox.seqOut.set port.val (n + 1), out := s.ox.out ++ [(port.val, f)] } }

/-- A sector of another package as a write of some of its bytes carries it: a flit has no mask, and what the other bytes carry the
spec leaves open (R368). (DESIGN CHOICE: log 66.) -/
def State.farBytes (s : State) (pa : Nat) (bs : List Byte) : List Byte :=
  let base := pa / 32 * 32
  overlay base ((List.range 32).map (fun i => match s.farSect base with
    | some x => x.bytes.getD i 0
    | none => Config.freeByte s.fresh (base + i))) pa bs

/-- The lowest tag that no read request in flight has (R368). (DESIGN CHOICE: log 66.) -/
def Oxlink.freeTag (x : Oxlink) : Option Nat := (List.range 4096).find? (fun t => !x.asks.any (fun a => a.tag == t))

/-- Access `uid` of the core or agent in focus asks another package for the first of the sectors given, unless one is asked for or has come
back for an access of it already, or no tag is free (R368). -/
def State.askFar (s : State) (uid : Nat) (ks : List Nat) : State :=
  match ks, s.ox.freeTag with
  | k :: _, some t =>
    if s.ox.asks.any (fun a => a.core == s.core.id && a.pa == k) || s.ox.got.any (fun x => x.core == s.core.id && x.pa == k) then s
    else ({ s with ox := { s.ox with asks := s.ox.asks ++ [⟨t, s.core.id, uid, k⟩] } } : State).sendFlit 0 t k [] 1
  | _, _ => s

/-- A sector of another package that a load or atomic has taken is kept no longer. -/
def State.tookFar (s : State) (uid : Nat) (p : Part) : State :=
  { s with ox := { s.ox with got := s.ox.got.filter (fun x => !(x.core == s.core.id && x.uid == uid && p.sectors.contains x.pa)) } }

/-- An access that asked for a sector of another package still needs it (R89). -/
def State.farAlive (s : State) (x : FarSect) : Bool :=
  let c := s.coreAt x.core
  c.farUid == some x.uid || c.loads.any (fun l => l.uid == x.uid && !l.dropped) || c.threads.any (fun t => t.id == x.uid) ||
  s.ox.waits.any (fun w => w.uid == x.uid)

/-- A read of the agent of number `n` that `act` serves asks another package for the first of the sectors given, and waits
(R368). -/
def State.askLater (s : State) (n : Nat) (act : Deed) (ks : List Nat) : State :=
  let u := s.readUid
  let x := ((s.as n).askFar u ks).ox
  { s with uid := s.uid + 1, ox := { x with waits := x.waits ++ [⟨u, ⟨s.core.id, act⟩⟩] } }

/-- Another try of what is being read for already (R368). -/
def State.reading (s : State) (act : Deed) : Bool := s.ox.again.isNone && s.ox.waits.any (fun w => w.act.what == act)

/-- A store of the core in focus to another package must wait: a later read of the sector is on its way (R92). -/
def State.farBusy (s : State) (uid : Nat) (p : Part) : Bool :=
  isRemote p.pa && s.ox.asks.any (fun a => a.core == s.core.id && decide (uid < a.uid) && p.sectors.contains a.pa)

/-- Later reads of the core in focus whose sector has come back see a store that it performs (R92). -/
def State.patchFar (s : State) (uid pa : Nat) (bs : List Byte) : State :=
  let see (x : FarSect) : FarSect :=
    if x.core = s.core.id ∧ uid < x.uid ∧ x.pa = pa / 32 * 32 then { x with sect := { x.sect with bytes := overlay x.pa x.sect.bytes pa bs } }
    else x
  { s with ox := { s.ox with got := s.ox.got.map see } }

/-- A write of bytes inside one sector of another package goes out in a flit of one sector (R368). -/
def State.writeFar (s : State) (pa : Nat) (bs : List Byte) (bad : Bool) : State :=
  s.sendFlit 1 0 (pa / 32 * 32) [(s.farBytes pa bs, bad)] 1

/-- A write of bytes inside one sector. `writer` is the core, or the number of the agent, it comes from; `troy` the launch and task of a plain store in
Troy mode. A register write takes place as the next step. (DESIGN CHOICE: log 9; DEDUCED: log 70; DEDUCED: log 85.) -/
def State.writePhys (s : State) (writer : Nat) (troy : Option (Nat × Nat)) (pa : Nat) (bs : List Byte) : State :=
  if bs = [] then s
  else match s.region pa with
  | .endpoint => { s with endpoint := s.endpoint ++ bs.mapIdx (fun i b => (pa + i, b)) }
  | .regs =>
    { s with agenda := (s.regPieces pa bs).map (fun r =>
        (⟨s.core.id, .event (.registerWrite (BitVec.ofNat 16 r.1) (BitVec.ofNat 32 r.2.1) r.2.2)⟩ : Act)) ++ s.agenda }
  | .none => s
  | .remote => { s with ox := ((s.as writer).writeFar pa bs false).ox }
  | _ =>
    let s := match troy with
      | some t => s.troyWrite t.1 t.2 pa bs
      | none => { s with mem := s.mem.put pa bs }
    let s := if bs.length = 32 then { s with poison := s.poison.filter (fun k => k ≠ pa / 32) } else s
    let see (c : Core) : Core := if writer = c.id then c.l1Write pa bs else c.seeWrite pa bs.length
    let s := { s with core := see s.core, others := s.others.map see }
    s.fireIn pa bs.length ((s.coreAt writer).task.map Task.launch)

/-- A part of a die's own write to memory; with no route left its sector is poisoned (R367). -/
def State.dieWrite (s : State) (d : Nat) (pa : Nat) (bs : List Byte) : State :=
  if s.noRouteAt d pa then s.lostSector d pa else s.writePhys (dispNo d s.uid) none pa bs

/-- A write of a die's dispatcher under an address space, cut into sectors (R164). -/
def State.writeV (s : State) (d asid va : Nat) (bs : List Byte) : Except Cause State :=
  match (s.byDisp d).partsAt asid va bs.length .write with
  | .error c => .error c
  | .ok ps =>
    let ps := ps.flatMap (fun p => sectorsOf p (bs.length / 32 + 2))
    .ok (ps.foldl (fun (a : State × List Byte) p => (a.1.dieWrite d p.pa (a.2.take p.n), a.2.drop p.n)) (s, bs)).1

/-! ## The crown die's own accesses (R170, R197, R367) -/

/-- The crown die writes a part of memory; with no route left it is poisoned (R367). -/
def State.crownWrite (s : State) (p : Part) (bs : List Byte) : State :=
  if s.crownLost p.pa then
    let d := (s.homeDie p.pa).getD 0
    { s.dieRecord Cause.memUe d 76 p.pa with poison := p.pa / 32 :: s.poison }
  else s.writePhys (crownNo s.uid) none p.pa bs

/-- The crown die writes bytes to parts of memory, sector by sector. -/
def State.crownPut (s : State) (ps : List Part) (data : List Byte) : State :=
  ((ps.flatMap (fun p => sectorsOf p (data.length / 32 + 2))).foldl (fun (a : State × List Byte) p =>
    (a.1.crownWrite p (a.2.take p.n), a.2.drop p.n)) (s, data)).1

/-- What the crown die reads of a part of memory; with no route left, bytes of no meaning (R367). -/
def State.crownBytes (s : State) (p : Part) : List Byte :=
  if s.crownLost p.pa then (List.range p.n).map (fun i => Config.freeByte s.fresh (p.pa + i))
  else (s.as (crownNo s.readUid)).physBytes p.pa p.n

/-- The records of parts that the crown die reads over a route that is lost (R367). -/
def State.crownRecords (s : State) (ps : List Part) : State :=
  ps.foldl (fun (s : State) p => if s.crownLost p.pa then s.dieRecord Cause.memUe ((s.homeDie p.pa).getD 0) 76 p.pa else s) s

/-- Sectors of another package that the crown die reads and that have not come back for it (R368). -/
def State.crownMissing (s : State) (ps : List Part) : List Nat :=
  if ps.any (fun p => s.crownLost p.pa) then [] else (s.as (crownNo s.readUid)).farMissing s.readUid ps

/-- A read of the crown die that `act` serves: it waits for what other packages still owe it, and then goes on (R368). -/
def State.crownRead (s : State) (act : Deed) (ps : List Part) (go : State → State) : State :=
  match s.crownMissing ps with
  | [] => go (s.crownRecords ps)
  | ks => s.askLater (crownNo s.readUid) act ks

/-- Bytes of physical memory from an address on. -/
def flatPart (pa n : Nat) : Part := ⟨pa, n, false, false, none, true⟩

end Sys2Proof.Machine
end

