-- ==== Sys2Proof/Machine/XSlot.lean ====
section
/-! DEFINITION. The X slot at issue: the shape word, the operands of each form, the checks of R274 in their order, and
the fork of the engine thread (R97, R212, R247, R274 to R280, R296 to R298). -/

namespace Sys2Proof.Machine

/-! ## The shape word (R275) -/

/-- The fields of a shape word. -/
structure ShapeW where
  m : Nat
  k : Nat
  n : Nat
  zrow : Nat
  zcol : Nat
  ext : Nat
  top : Nat
  deriving DecidableEq, Repr

/-- The fields of a shape word (R275). -/
def shapeW (w : Word) : ShapeW :=
  ⟨wbits w 8 0, wbits w 17 9, wbits w 26 18, wbits w 34 27, wbits w 42 35, wbits w 58 43, wbits w 63 59⟩

/-- A used count lies in 1 to 256. -/
def cntOk (n : Nat) : Bool := decide (1 ≤ n) && decide (n ≤ 256)

/-- A window lies within the register of its kind (R275). -/
def winOk (k : ZKind) (row col rows cols : Nat) : Bool :=
  let lim := match k with | .fp64 => 128 | _ => 256
  decide (row + rows ≤ lim) && decide (col + cols ≤ lim)

/-- The kind that a format code names (R54). -/
def kindOfFmt (f : Fmt) : ZKind := match f with | .fp64 => .fp64 | .int8 => .int32 | _ => .fp32

/-! ## Operands -/

/-- An operand of a form: where, in which format, and its stored extents. -/
structure XUse where
  opd : XOpd
  fmt : Fmt
  rows : Nat
  cols : Nat
  deriving DecidableEq, Repr

/-- The arguments of an X-slot instruction. -/
def xArgs (i : Instr) : Option XArgs :=
  match i with
  | .mma x | .mmas x | .mmar x | .mmat x | .zclr x | .zld x | .zst x | .zmov x | .trans x | .spbuild x | .rowred x
  | .colred x | .softrow x | .merge x | .topk x | .window x | .lup x | .chol x | .qrh x | .trsm x | .trmm x => some x
  | _ => none

/-- A multiply of the MMA family. -/
def isMma (i : Instr) : Bool := match i with | .mma _ | .mmas _ | .mmar _ | .mmat _ => true | _ => false
/-- A factorisation form (R296). -/
def isFact (i : Instr) : Bool := match i with | .lup _ | .chol _ | .qrh _ | .trsm _ | .trmm _ => true | _ => false

/-- B is stored with a row per result column: MMAR, the REV variant, and every BFP operand B (R277, R281, R282). -/
def storedByCol (i : Instr) (x : XArgs) : Bool :=
  (match i with | .mmar _ => true | .mmas _ => x.var == 1 | _ => false) || x.fb.isBfp

/-- Rows along the contraction of an operand B as stored. -/
def depthB (i : Instr) (w : ShapeW) : Nat := match i with | .mmas _ => w.k / 2 | _ => w.k

/-- The sources of a form (R277). -/
def xReads (i : Instr) (w : ShapeW) : List XUse :=
  match xArgs i with
  | none => []
  | some x =>
    match i with
    | .mma _ | .mmas _ | .mmar _ | .mmat _ =>
      let d := depthB i w
      [⟨x.oa, x.fa, w.m, w.k⟩, if storedByCol i x then ⟨x.ob, x.fb, w.n, d⟩ else ⟨x.ob, x.fb, d, w.n⟩]
    | .zld _ | .zst _ | .zmov _ | .trans _ | .rowred _ | .colred _ | .softrow _ | .topk _ => [⟨x.oa, x.fa, w.m, w.n⟩]
    | .spbuild _ => [⟨x.oa, x.fa, w.k, w.n⟩, ⟨x.ob, .int8, w.k, w.n⟩]
    | .merge _ => [⟨x.oa, .fp32, w.m, w.n⟩, ⟨x.ob, .fp32, w.m, w.n⟩]
    | .window _ => [⟨x.ob, x.fb, w.k, w.n⟩]
    | _ => []

/-- Positions per row and padding of WINDOW (R275). -/
def winX (w : ShapeW) : Nat := w.ext % 256
def winP (w : ShapeW) : Nat := w.ext / 256 % 8

/-- Tile rows that an output row of WINDOW takes in a T register (R293). -/
def winTileRows (w : ShapeW) : Nat := (winX w * w.n + 255) / 256

/-- The results of a form that go to a T register or a pair (R277, R287, R289, R292, R293). -/
def xWrites (i : Instr) (w : ShapeW) : List XUse :=
  match xArgs i with
  | none => []
  | some x =>
    let isT := match x.od with | .t _ => true | _ => false
    match i with
    | .zst _ | .softrow _ => [⟨x.od, x.fd, w.m, w.n⟩]
    | .trans _ => [⟨x.od, x.fd, w.n, w.m⟩]
    | .rowred _ => [⟨x.od, x.fd, 1, w.m⟩]
    | .colred _ => [⟨x.od, x.fd, 1, w.n⟩]
    | .topk _ => [⟨x.od, .fp64, w.m, w.k⟩]
    | .window _ => [if isT then ⟨x.od, x.fd, w.m * winTileRows w, 256⟩ else ⟨x.od, x.fd, w.m, winX w * w.n⟩]
    | _ => []

/-- T registers that hold statistics, exponents, τ or metadata (R275, R280, R305). -/
def xSideT (i : Instr) (x : XArgs) (w : ShapeW) : List Nat :=
  match i with
  | .mmat _ | .softrow _ | .qrh _ => [x.aux.val]
  | .zld _ => if x.var = 1 then [x.aux.val] else []
  | .zst _ => if x.var = 1 ∨ x.fd.isBfp then [x.aux.val] else []
  | .mmas _ => [w.ext % 64]
  | _ => []

/-- Z registers a form names, with the kind each must have and whether it must be in triple mode (R280, R283, R291,
R297). ZCLR sets the kind. -/
def xZs (i : Instr) (x : XArgs) : List (Nat × ZKind × Bool) :=
  let z (o : XOpd) (k : ZKind) (t : Bool) : List (Nat × ZKind × Bool) := match o with | .z n => [(n.val, k, t)] | _ => []
  match i with
  | .mma _ | .mmas _ | .mmar _ => z x.od (accClass x.fa x.fb).kind false
  | .mmat _ => z x.od (accClass x.fa x.fb).kind true
  | .zld _ => z x.od (kindOfFmt x.fd) (x.var == 1)
  | .zst _ => z x.oa (kindOfFmt x.fa) (x.var == 1)
  | .zmov _ => z x.oa (kindOfFmt x.fa) (x.var == 1) ++ z x.od (kindOfFmt x.fd) (x.var == 1)
  | .trans _ | .rowred _ | .colred _ | .topk _ | .softrow _ => z x.oa (kindOfFmt x.fa) false
  | .merge _ => z x.oa .fp32 true ++ z x.ob .fp32 true ++ z x.od .fp32 true
  | .lup _ | .chol _ | .qrh _ => z x.od (kindOfFmt x.fa) false
  | .trsm _ | .trmm _ => z x.oa (kindOfFmt x.fa) false ++ z x.od (kindOfFmt x.fa) false
  | _ => []

/-- Z windows of a form: kind, origin and extents (R275, R286, R297). -/
def xWins (i : Instr) (x : XArgs) (w : ShapeW) : List (ZKind × Nat × Nat × Nat × Nat) :=
  let isZ := x.oa.isZ
  match i with
  | .mma _ | .mmas _ | .mmar _ | .mmat _ => [((accClass x.fa x.fb).kind, w.zrow, w.zcol, w.m, w.n)]
  | .zld _ => [(kindOfFmt x.fd, w.zrow, w.zcol, w.m, w.n)]
  | .zst _ => [(kindOfFmt x.fa, w.zrow, w.zcol, w.m, w.n)]
  | .zmov _ => [(kindOfFmt x.fa, w.zrow, w.zcol, w.m, w.n), (kindOfFmt x.fa, w.ext % 256, w.ext / 256, w.m, w.n)]
  | .trans _ | .rowred _ | .colred _ | .topk _ | .softrow _ =>
    if isZ then [(kindOfFmt x.fa, w.zrow, w.zcol, w.m, w.n)] else []
  | .merge _ => [(.fp32, w.zrow, w.zcol, w.m, w.n)]
  | .lup _ | .chol _ | .qrh _ => [(kindOfFmt x.fa, w.zrow, w.zcol, w.m, w.n)]
  | .trsm _ | .trmm _ =>
    let t := if x.var.val % 2 = 1 then w.n else w.m
    [(kindOfFmt x.fa, w.zrow, w.zcol, w.m, w.n), (kindOfFmt x.fa, w.ext % 256, w.ext / 256, t, t)]
  | _ => []

/-- Ports that a form uses: A, B and D (R278). -/
def xPorts (i : Instr) (x : XArgs) : Bool × Bool × Bool :=
  match i with
  | .mma _ | .mmas _ | .mmar _ | .mmat _ => (x.oa != .hold, x.ob != .hold, false)
  | .zld _ | .topk _ => (true, false, false)
  | .zst _ | .trans _ => (false, false, true)
  | .rowred _ | .colred _ | .window _ | .softrow _ => (true, false, true)
  | _ => (false, false, false)

/-! ## Ports (R247, R325) -/

/-- The format, T register and tile row of a qld word (R325). -/
def qldOf (p : PSlot) : Option (Fmt × Nat × Nat) :=
  (p.words.find? isQld).map (fun w => (plainFmt (ewA w), ewMod w, ewB w + 32 * ewC w))

/-- The program bound to port `ix` after this bundle's own KSET and BIND (R247). -/
def State.boundProg (s : State) (ix : Fin 4) : Option PSlot := s.core.arch.prog (s.core.arch.binds[ix.val])

/-- Captures a port: its slot and program, and the tile row that its qld reads (R247, R325). -/
def State.capPort (s : State) (ix : Fin 4) (used : Bool) : PortCap :=
  if !used then ⟨0, none, []⟩
  else
    let p := s.boundProg ix
    let row := match p.bind qldOf with
      | none => []
      | some (f, t, r) =>
        rowElems f f.size 256 (s.core.pool.run (t * Config.tBytes + r * tileRowBytes f) (tileRowBytes f))
    ⟨(s.core.arch.binds[ix.val]).val, p, row⟩

/-- T registers that the used ports' qld words read. -/
def State.qldRegs (s : State) (u : Bool × Bool × Bool) : List Nat :=
  ((if u.1 then [(0 : Fin 4)] else []) ++ (if u.2.1 then [1] else []) ++ (if u.2.2 then [2] else [])).filterMap
    (fun (ix : Fin 4) => ((s.boundProg ix).bind qldOf).map (fun (q : Fmt × Nat × Nat) => q.2.1))

/-- Runs of the pool that the used ports' qld words read. -/
def State.qldRuns (s : State) (u : Bool × Bool × Bool) : List (Nat × Nat) :=
  ((if u.1 then [(0 : Fin 4)] else []) ++ (if u.2.1 then [1] else []) ++ (if u.2.2 then [2] else [])).filterMap
    (fun (ix : Fin 4) => ((s.boundProg ix).bind qldOf).map (fun (q : Fmt × Nat × Nat) =>
      (q.2.1 * Config.tBytes + q.2.2 * tileRowBytes q.1, tileRowBytes q.1)))

/-! ## Checks (R274) -/

/-- A T run reaches a register absent from the partition (R277). -/
def Core.tAbsent (c : Core) (n : Nat) (f : Fmt) (rows : Nat) : Bool :=
  decide (16 * c.partw.tg ≤ min 63 (n + (rows - 1) / tileRows f))
/-- A T run passes T63 (R277). -/
def tPast (n : Nat) (f : Fmt) (rows : Nat) : Bool := decide (63 < n + (rows - 1) / tileRows f)

/-- The pair of an operand, as its register values describe it. -/
def State.xPair (s : State) (n : SReg) : PairV := pairOf (s.pair n)

/-- The presence check of an operand. -/
def State.useAbsent (s : State) (u : XUse) : Bool :=
  match u.opd with
  | .t n => s.core.tAbsent n.val u.fmt u.rows
  | .z n => !s.core.hasZ n.val
  | _ => false

/-- The form and range check of an operand (R36, R69, R277). -/
def State.useBad (s : State) (u : XUse) : Option Cause :=
  match u.opd with
  | .t n => if tPast n.val u.fmt u.rows then some Cause.operandForm else none
  | .pair n _ => s.core.pairBad (s.xPair n) u.fmt u.rows u.cols
  | _ => none

/-- Array `a` of SPBUILD's destination (R288). -/
def spPair (p : PairV) (a : Nat) : PairV := { p with base := p.base + a * p.tpitch }

/-- Form of SPBUILD's pair and range of its four arrays (R36, R288). -/
def State.spBad (s : State) (p : PairV) (x : XArgs) (w : ShapeW) : Option Cause :=
  let past (a : Nat) (f : Fmt) (r c : Nat) : Bool := decide (s.core.scratchSize < (spPair p a).extent f r c)
  if !p.formOk || p.lay ≠ 0 || p.tpitch = 0 then some Cause.operandForm
  else if past 0 x.fa (w.k / 2) w.n || past 1 .int8 64 256 || past 2 x.fa w.k (w.n / 2) || past 3 .int8 64 256 then
    some Cause.scratchRange
  else none

/-- Ring slots that WINDOW reads (R293). -/
def winSlots (w : ShapeW) : List Nat :=
  ((List.range w.m).flatMap (fun i => (List.range w.k).map (fun t => (w.zrow + i + t) % w.zcol))).eraseDups

/-- One ring slot as a run of bytes: row `q` of the pair. -/
def winRow (p : PairV) (q : Nat) : PairV := { p with base := p.base + q * p.rpitch }

/-- Form and range of WINDOW's ring and destination (R293). -/
def State.winBad (s : State) (x : XArgs) (w : ShapeW) : Option Cause :=
  let ring := match x.oa with | .pair n _ => some (s.xPair n) | _ => none
  let lay (o : XOpd) : Nat := match o with | .pair n _ => (s.xPair n).lay | _ => 0
  match ring with
  | none => none
  | some p =>
    if !p.formOk || p.lay ≠ 0 || lay x.od ≠ 0 then some Cause.operandForm
    else if (winSlots w).any (fun q => decide (s.core.scratchSize < (winRow p q).extent x.fa 1 (winX w * w.n))) then
      some Cause.scratchRange
    else none

/-- The form checks beyond a single operand's. (DESIGN CHOICE: log 111.) -/
def State.formBad (s : State) (i : Instr) (x : XArgs) (w : ShapeW) : Option Cause :=
  match i with
  | .spbuild _ => (match x.od with | .pair n _ => s.spBad (s.xPair n) x w | _ => none)
  | .window _ => s.winBad x w
  | .topk _ => (match x.od with
      | .pair n _ => if (s.xPair n).lay ≠ 0 then some Cause.operandForm else none
      | _ => none)
  | _ => none

/-- Extents of operand B as latch B keeps them: the instruction's K and N (R279). -/
def heldB (i : Instr) (x : XArgs) (w : ShapeW) : Latch :=
  ⟨w.k, w.n, x.fb, match i with | .mmar _ => true | .mmas _ => x.var == 1 | _ => false⟩
/-- Extents of operand A as latch A keeps them. -/
def heldA (x : XArgs) (w : ShapeW) : Latch := ⟨w.m, w.k, x.fa, false⟩

/-- The hold latches an instruction names are filled and match (R37, R279). -/
def State.holdBad (s : State) (i : Instr) (x : XArgs) (w : ShapeW) : Bool :=
  isMma i && ((x.oa == .hold && s.core.src.latchA != some (heldA x w)) ||
              (x.ob == .hold && s.core.src.latchB != some (heldB i x w)))

/-- Scale registers needed by an operand's sequence (R277). -/
def scaleRegs (outer inner : Nat) : Nat := (outer * ((inner + 31) / 32) + 63) / 64

/-- A BFP scale sequence passes G15 (R277). -/
def scalesPast (i : Instr) (x : XArgs) (w : ShapeW) : Bool :=
  let a := if x.fa.isBfp then scaleRegs w.m w.k else 0
  let b := if x.fb.isBfp then scaleRegs w.n (depthB i w) else 0
  if isMma i then (decide (0 < a + b)) && decide (16 < x.aux.val + a + b)
  else match i with
    | .zld _ | .trans _ => x.fa.isBfp && decide (16 < x.aux.val + scaleRegs w.m w.n)
    | _ => false

/-- Source and kind pairs of ZLD (R284). -/
def zldOk (f : Fmt) (k : ZKind) : Bool :=
  match f, k with
  | .fp64, .fp64 => true
  | .fp64, _ => false
  | .int8, _ => true
  | _, .int32 => false
  | _, _ => true

/-- Whether two windows of one register share an element (R297). -/
def winMeet (r c m n r' c' m' n' : Nat) : Bool :=
  decide (r < r' + m') && decide (r' < r + m) && decide (c < c' + n') && decide (c' < c + n)

/-- The shape word and the form's own rules are met (R275, R282 to R293, R297). -/
def State.shapeOk (s : State) (i : Instr) (x : XArgs) (w : ShapeW) : Bool :=
  let mn := cntOk w.m && cntOk w.n
  let mkn := mn && cntOk w.k
  let wins := (xWins i x w).all (fun v => winOk v.1 v.2.1 v.2.2.1 v.2.2.2.1 v.2.2.2.2)
  let e0 := w.ext == 0
  let tri (o : XOpd) : Bool := match o with | .z n => s.core.partw.trip.getLsbD n.val | _ => false
  (match i with | .zclr _ => true | _ => w.top == 0) &&
  (match i with
   | .mma _ | .mmar _ | .mmat _ => mkn && e0 && wins && !scalesPast i x w
   | .mmas _ => mkn && decide (w.ext < 64) && wins && !scalesPast i x w && w.k % 4 == 0
   | .zclr _ => !(tri x.od) || x.fd == .fp32
   | .zld _ => mn && e0 && wins && zldOk x.fa (kindOfFmt x.fd) && !(x.var == 1 && x.fa.isBfp) && !scalesPast i x w
   | .zst _ => mn && e0 && wins && !(x.var == 1 && x.fd.isBfp)
   | .zmov _ => mn && wins
   | .trans _ => mn && e0 && wins && !scalesPast i x w
   | .spbuild _ => cntOk w.k && cntOk w.n && e0 && w.k % 4 == 0 && w.n % 4 == 0
   | .rowred _ | .colred _ | .merge _ => mn && e0 && wins
   | .softrow _ => mn && e0 && wins && !x.fa.isBfp && (!(tri x.ob) || decide (w.zrow + w.m ≤ 256))
   | .topk _ => mkn && e0 && wins && decide (w.k ≤ w.n)
   | .window _ => cntOk w.m && decide (1 ≤ w.k) && decide (w.k ≤ 8) && cntOk w.n && decide (1 ≤ w.zcol) &&
       decide (w.zrow < w.zcol) && decide (1 ≤ winX w) && decide (w.ext < 2048)
   | .lup _ | .qrh _ => mn && e0 && wins
   | .chol _ => mn && e0 && wins && w.m == w.n
   | .trsm _ | .trmm _ =>
     let t := if x.var.val % 2 = 1 then w.n else w.m
     mn && wins && !(x.oa == x.od && winMeet w.zrow w.zcol w.m w.n (w.ext % 256) (w.ext / 256) t t)
   | _ => true)

/-- The kind of a Z register as program order leaves it: that of the last ZCLR still queued or running (R280). -/
def Core.kindSeen (c : Core) (m : Nat) : ZKind :=
  c.threads.foldl (fun k t => match t.ins with
    | .zclr x => (match x.od with | .z n => if n.val = m then kindOfFmt x.fd else k | _ => k)
    | _ => k) (c.kindOf m)

/-- Kinds and triple mode are as the form requires (R280). -/
def State.kindsOk (s : State) (i : Instr) (x : XArgs) : Bool :=
  (xZs i x).all (fun z => s.core.kindSeen z.1 == z.2.1 && (!z.2.2 || s.core.partw.trip.getLsbD z.1))

/-- The shape word an instruction reads. -/
def State.shapeOf (s : State) (x : XArgs) : ShapeW := shapeW (s.rs x.sh)

/-- Own scratchpad lines that an X-slot instruction reads (R32). -/
def State.xLines (s : State) (i : Instr) : List Nat :=
  match xArgs i with
  | none => []
  | some x =>
    let w := s.shapeOf x
    let ring := match i, x.oa with
      | .window _, .pair n _ =>
        (winSlots w).flatMap (fun q => ((s.xPair n).rowRuns x.fa (winX w * w.n) q).map (fun r => r.1 / 128))
      | _, _ => []
    ((xReads i w).flatMap (fun u => match u.opd with
      | .pair n _ => s.core.placeLines (.pair (s.xPair n)) u.fmt u.rows u.cols
      | _ => []) ++ ring).eraseDups

/-- The faults of an X-slot instruction at issue, in the order of R274. -/
def State.faultX (s : State) (i : Instr) : Option SlotFault :=
  match xArgs i with
  | none => none
  | some x =>
    let w := s.shapeOf x
    let uses := xReads i w ++ xWrites i w
    let zs : List Nat := [x.oa, x.ob, x.od].filterMap (fun o => match o with | .z n => some n.val | _ => none)
    (faultIf (uses.any s.useAbsent || zs.any (fun z => !s.core.hasZ z) ||
        (xSideT i x w ++ s.qldRegs (xPorts i x)).any (fun t => !s.core.hasT t)) 2 Cause.regAbsent 0).or
    ((accFault 2 0 ((uses.findSome? s.useBad).or (s.formBad i x w))).or
    ((faultIf (s.holdBad i x w) 2 Cause.holdEmpty 0).or
    ((faultIf (!s.shapeOk i x w) 2 Cause.operandForm 0).or
    ((faultIf (!s.kindsOk i x) 2 Cause.operandForm 0).or
    ((s.core.linesFault 2 (s.xLines i)).or
      (faultIf (s.core.runsBad (s.qldRuns (xPorts i x))) 2 Cause.dataPoison 0))))))

/-! ## The fork (R97, R185, R212) -/

/-- Registers that an X-slot instruction produces. -/
def xMakes (i : Instr) (w : ShapeW) : List TZ :=
  match xArgs i with
  | none => []
  | some x =>
    let z := match x.od with | .z n => [TZ.z n.val] | _ => []
    let runs := (xWrites i w).flatMap (fun u => match u.opd with
      | .t n => (List.range ((u.rows - 1) / tileRows u.fmt + 1)).map (fun k => TZ.t (n.val + k))
      | _ => [])
    let aux := match i with
      | .softrow _ | .qrh _ => [TZ.t x.aux.val]
      | .zst _ => if x.var = 1 ∨ x.fd.isBfp then [TZ.t x.aux.val] else []
      | _ => []
    z ++ runs ++ aux ++ (if isFact i then [TZ.csr] else [])

/-- A thread with nothing captured but its instruction and its ordering fields. -/
def State.bareThread (s : State) (i : Instr) (o : OrdF) (ix : Nat) : Thread :=
  let none' : PortCap := ⟨0, none, []⟩
  { id := s.uid, recIx := ix, ford := s.core.forks, ins := i, ord := o, pc := s.core.src.pc, sh := 0, g := s.core.src.g,
    pa := none', pb := none', pd := none', pk := none', shape := none, oa := (0, 0), ob := (0, 0), od := (0, 0),
    cr := (0, 0, 0), pivt := 0, zpol := false, coll := none, phase := .queued, jobs := [], res := none, vals := [], landed := 0,
    met := none, olds := [], sched := false }

/-- Forks an engine thread of the core in focus: it takes a record, counts on its stream, and later reads of the registers
it produces observe it (R97, R99, R185). -/
def State.fork (s : State) (i : Instr) (o : OrdF) (makes : List TZ) (f : Thread → Thread) : State :=
  let ix := s.core.freeRec
  let t := f (s.bareThread i o ix)
  let r : EngRec := ⟨s.core.forks, o.stream, makes, [], none, false⟩
  let s := s.onC (fun c =>
    ({ c with threads := c.threads ++ [t], forks := c.forks + 1, recs := bindTo c.recs ix r } : Core).cntUp o.stream 1)
  ((s.seqCount o 1).touch).nextUid

/-- The ordering fields of an X-slot thread (R212). -/
def xOrd : OrdF := ⟨0, 0, .core⟩

/-- The values of the pair that an operand names. -/
def State.xPairWords (s : State) (o : XOpd) : Word × Word :=
  match o with
  | .pair n _ => s.pair n
  | _ => (0, 0)

/-- The latches as an MMA-family instruction leaves them for later bundles (R279). -/
def Arch.setLatches (a : Arch) (i : Instr) (x : XArgs) (w : ShapeW) : Arch :=
  if isMma i then
    { a with latchA := if x.oa = .hold then a.latchA else some (heldA x w),
             latchB := if x.ob = .hold then a.latchB else some (heldB i x w) }
  else a

/-- An X-slot instruction at issue: its checks, then its fork with all it captures (R274). -/
def State.xIssue (s : State) (i : Instr) : Out :=
  match xArgs i with
  | none => .next s
  | some x =>
    s.guard (s.faultX i)
      (let w := s.shapeOf x
       let u := xPorts i x
       let s' := s.fork i xOrd (xMakes i w) (fun t =>
         { t with sh := s.rs x.sh, pa := s.capPort 0 u.1, pb := s.capPort 1 u.2.1, pd := s.capPort 2 u.2.2,
                  oa := s.xPairWords x.oa, ob := s.xPairWords x.ob, od := s.xPairWords x.od,
                  pivt := s.core.src.pivt, zpol := s.core.src.zpol })
       .next (s'.onA (fun a => a.setLatches i x w)))

/-- MMA (R281). -/
def execMma (x : XArgs) (s : State) : Out := s.xIssue (.mma x)
/-- MMAS (R282). -/
def execMmas (x : XArgs) (s : State) : Out := s.xIssue (.mmas x)
/-- MMAR (R281). -/
def execMmar (x : XArgs) (s : State) : Out := s.xIssue (.mmar x)
/-- MMAT (R283). -/
def execMmat (x : XArgs) (s : State) : Out := s.xIssue (.mmat x)
/-- ZCLR (R280). -/
def execZclr (x : XArgs) (s : State) : Out := s.xIssue (.zclr x)
/-- ZLD (R284). -/
def execZld (x : XArgs) (s : State) : Out := s.xIssue (.zld x)
/-- ZST (R285). -/
def execZst (x : XArgs) (s : State) : Out := s.xIssue (.zst x)
/-- ZMOV (R286). -/
def execZmov (x : XArgs) (s : State) : Out := s.xIssue (.zmov x)
/-- TRANS (R287). -/
def execTrans (x : XArgs) (s : State) : Out := s.xIssue (.trans x)
/-- SPBUILD (R288). -/
def execSpbuild (x : XArgs) (s : State) : Out := s.xIssue (.spbuild x)
/-- ROWRED (R289). -/
def execRowred (x : XArgs) (s : State) : Out := s.xIssue (.rowred x)
/-- COLRED (R289). -/
def execColred (x : XArgs) (s : State) : Out := s.xIssue (.colred x)
/-- SOFTROW (R290). -/
def execSoftrow (x : XArgs) (s : State) : Out := s.xIssue (.softrow x)
/-- MERGE (R291). -/
def execMerge (x : XArgs) (s : State) : Out := s.xIssue (.merge x)
/-- TOPK (R292). -/
def execTopk (x : XArgs) (s : State) : Out := s.xIssue (.topk x)
/-- WINDOW (R293). -/
def execWindow (x : XArgs) (s : State) : Out := s.xIssue (.window x)
/-- LUP (R303). -/
def execLup (x : XArgs) (s : State) : Out := s.xIssue (.lup x)
/-- CHOL (R304). -/
def execChol (x : XArgs) (s : State) : Out := s.xIssue (.chol x)
/-- QRH (R305). -/
def execQrh (x : XArgs) (s : State) : Out := s.xIssue (.qrh x)
/-- TRSM (R306). -/
def execTrsm (x : XArgs) (s : State) : Out := s.xIssue (.trsm x)
/-- TRMM (R307). -/
def execTrmm (x : XArgs) (s : State) : Out := s.xIssue (.trmm x)

end Sys2Proof.Machine
end

