-- ==== Sys2Proof/Machine/CSlot.lean ====
section
/-! DEFINITION. The C slot at issue (R249, R260 to R271): the operands of a copy, its box and the places of its elements,
the checks, and the fork of the engine thread. The G slot's scale loads stand beside it (R272, R273). -/

namespace Sys2Proof.Machine

/-! ## Operands -/

/-- The arguments of a C-slot instruction; STAGE has only its ordering fields. -/
def cArgs (i : Instr) : Option CArgs :=
  match i with
  | .copy c | .gather c | .scatter c | .mbox c | .areduce _ c | .bcast c => some c
  | _ => none

/-- Forms with an index group (R266). -/
def isGather (i : Instr) : Bool := match i with | .gather _ | .scatter _ => true | _ => false
/-- Collectives (R269). -/
def isColl (i : Instr) : Bool := match i with | .areduce _ _ | .bcast _ => true | _ => false

/-- The destination operand: a pair's words, or an address (R213). -/
def State.cDst (s : State) (c : CArgs) : Word × Word := if c.dk then s.pair c.dr else (s.eaC c.dr c.off.val, 0)
/-- The source operand: OFF applies to it when the destination is a pair (R213). -/
def State.cSrc (s : State) (c : CArgs) : Word × Word :=
  if c.sk then s.pair c.sr else (s.eaC c.sr (if c.dk then c.off.val else 0), 0)

/-- The registers of a coordinate or index group (R262, R266). -/
def State.cGroup (s : State) (i : Instr) (c : CArgs) : Word × Word × Word :=
  let r (k : Nat) : Word := s.rs (Fin.ofNat 64 (c.cr.val + k))
  match i with
  | .gather _ | .scatter _ => (r 0, r 1, r 2)
  | .areduce _ _ => (0, 0, 0)
  | _ => if c.cr = 0 then (0, 0, 0) else (r 0, r 1, 0)

/-! ## The box (R39 to R41, R261, R262) -/

/-- Bytes of an element of a copy; of a block for BFP (R56, R261). -/
def Shape.unit (h : Shape) : Nat := unitOf h.fmt
/-- A box extent. -/
def Shape.bx (h : Shape) (d : Nat) : Nat := h.box.toList.getD d 1
/-- Planes per box (R261). -/
def Shape.planes (h : Shape) : Nat := h.bx 2 * h.bx 3 * h.bx 4
/-- A box that moves nothing (R265). -/
def Shape.nothing (h : Shape) : Bool := h.box.toList.any (fun n => n == 0)

/-- One element of a box: its plane and its five indices. -/
structure BoxEl where
  plane : Nat
  ix : List Nat
  deriving DecidableEq, Repr

/-- The elements of box `t` in stream order: ascending plane, then i1, then i0 (R261, R314). -/
def Shape.elems (h : Shape) (t : Nat) : List BoxEl :=
  (List.range h.planes).flatMap (fun p => (List.range (h.bx 1)).flatMap (fun i1 => (List.range (h.bx 0)).map (fun i0 =>
    ⟨h.planes * t + p, [i0, i1, p % h.bx 2, p / h.bx 2 % h.bx 3, p / (h.bx 2 * h.bx 3)]⟩)))

/-- Index `d` of an element. -/
def BoxEl.at (e : BoxEl) (d : Nat) : Nat := nth e.ix d

/-- The smallest power of two that is at least `n`, from 4 up. -/
def side4 (n : Nat) : Nat := ((List.range 9).map (fun k => 2 ^ (k + 2))).find? (fun v => decide (n ≤ v)) |>.getD 1024

/-- TP (R261). -/
def PairV.planePitch (p : PairV) (h : Shape) : Nat :=
  if p.tpitch ≠ 0 then p.tpitch
  else if p.lay = 0 then h.bx 1 * p.rpitch
  else h.unit * (side4 (max (h.bx 0) (h.bx 1))) ^ 2

/-- The effective offset of an element on the pair side of a copy (R35, R261). -/
def PairV.elemAt (p : PairV) (h : Shape) (e : BoxEl) : Nat :=
  let o := p.base + e.plane * p.planePitch h
  if p.lay = 0 then p.rotate (e.plane * h.bx 1 + e.at 1) (o + e.at 1 * p.rpitch + e.at 0 * h.unit)
  else p.rotate (e.at 1) (o + h.unit * p.zOf (e.at 1) (e.at 0))

/-- One past the last nominal offset of `n` boxes on the pair side (R36, R67, R261). -/
def PairV.boxEnd (p : PairV) (h : Shape) (n : Nat) : Nat :=
  let o := p.base + (h.planes * n - 1) * p.planePitch h
  if p.lay = 0 then o + (h.bx 1 - 1) * p.rpitch + h.bx 0 * h.unit
  else o + h.unit * (if h.bx 0 ≤ 2 ∧ h.bx 1 ≤ 2 then 16 else p.zOf (h.bx 1 - 1) (h.bx 0 - 1) + 1)

/-- The anchor of a box by its coordinate registers (R262). -/
def anchorOf (c : Word × Word × Word) : List Int :=
  [signedOf 32 (wbits c.1 31 0), signedOf 32 (wbits c.1 63 32), signedOf 21 (wbits c.2.1 20 0),
   signedOf 21 (wbits c.2.1 41 21), signedOf 21 (wbits c.2.1 62 42)]

/-- The coordinates of an element in a box anchored at `a`. -/
def coords (a : List Int) (e : BoxEl) : List Int := List.zipWith (fun (x : Int) (i : Nat) => x + i) a e.ix

/-- A coordinate. -/
def crd (x : List Int) (d : Nat) : Int := x.getD d 0

/-- The byte offset of the element at coordinates `x` from the base of the memory side; none out of bounds. `row` gives the
first offset and the extent of a ragged row (R40, R41). -/
def Shape.offsetAt (h : Shape) (row : Nat → Nat × Nat) (x : List Int) : Option Word :=
  let inside (d : Nat) : Bool := decide (0 ≤ crd x d) && decide (crd x d < h.ext.toList.getD d 1)
  let st (d : Nat) : Word := h.str.toList.getD d 0
  let term (d : Nat) : Word := BitVec.ofInt 64 (crd x d) * st d
  let high := term 2 + term 3 + term 4
  if !(inside 1 && inside 2 && inside 3 && inside 4) || decide (crd x 0 < 0) then none
  else if h.ragged then
    let r := row (crd x 1).toNat
    if (r.2 : Int) ≤ crd x 0 then none else some ((BitVec.ofNat 64 r.1 + BitVec.ofInt 64 (crd x 0)) * st 0 + high)
  else if inside 0 then some (term 0 + term 1 + high) else none

/-! ## What an engine thread reads (R40, R41, R160, R164, R197, R262, R266) -/

/-- Inserts a number into a rising list. -/
def insertUp (n : Nat) (l : List Nat) : List Nat :=
  match l with
  | [] => [n]
  | x :: r => if n < x then n :: x :: r else if n = x then x :: r else x :: insertUp n r

/-- The numbers of a list, rising and without repeats. -/
def sortUp (l : List Nat) : List Nat := l.foldl (fun acc n => insertUp n acc) []

/-- Who reads: the number of the thread, and its ordering fields while it must wait for what it follows; a read that only looks
ahead at issue has none. -/
structure Reader where
  uid : Nat
  ord : Option OrdF
  deriving DecidableEq, Repr

/-- What stops a read: an access that it follows is not performed yet, sectors of another package that have still to come back, or a
fault, with the address where there is one. -/
inductive EngStop where
  | wait
  | far (ks : List Nat)
  | fault (c : Cause) (va : Option Word)
  deriving DecidableEq, Repr

/-- A thread `u` of the core follows, at a part, an earlier thread that has not ended: by the streams that it follows there, all of them
on a SEQ page (R91, R98, R105). A STAGE has no access, and entries of a schedule follow one another on SEQ pages alone.
(DEDUCED: log 114.) -/
def Core.afterThread (c : Core) (u : Nat) (o : OrdF) (p : Part) : Bool :=
  c.threads.any (fun x => decide (x.id < u) && (match x.ins with | .stage _ => false | _ => true) && (p.seq.isSome || !x.sched) &&
    (followed o [p]).getLsbD x.ord.stream.val)

/-- Some earlier access of the core is still to be performed that a thread's read of a part follows: by an edge (R91, R93), as an
earlier load of a byte of it (R92), or as a store to the own scratchpad that the read must see (R90). (DEDUCED: log 114.) -/
def Core.readBlocked (c : Core) (r : Reader) (p : Part) : Bool :=
  match r.ord with
  | none => false
  | some o =>
    c.afterThread r.uid o p ||
    c.ordLoads.any (fun l => decide (l.uid < r.uid) && l.rest.any (fun q => edge l.ord q o p || q.meets p)) ||
    (c.stores ++ c.held).any (fun y => decide (y.uid < r.uid) &&
      (y.rest.any (fun q => edge y.ord q o p) || (y.scratch.isSome && p == peerPart)))

/-- A read of the own scratchpad must wait: for what it follows, or for a thread that filled a line of it and has not ended
(R90, R93, R99). -/
def Core.padBlocked (c : Core) (r : Reader) (off n : Nat) : Bool :=
  c.readBlocked r peerPart || (r.ord.isSome && c.filling r.uid (rangeLines off n))

/-- The bytes of a part as a thread of the core in focus reads them: its core's own stores first, then what the core read ahead, then
memory (R89, R93). -/
def State.engBytes (s : State) (r : Reader) (p : Part) : List Byte :=
  match r.ord.bind (fun o => s.core.aheadOf r.uid o p) with
  | some bs =>
    (List.range p.n).map (fun i => (storeByte (s.core.ownStores r.uid) (p.pa + i)).getD
      (if (p.pa + i) / 128 = p.pa / 128 then bs.getD ((p.pa + i) % 128) 0 else s.physByte (p.pa + i)))
  | none => s.readParts s.core r.uid [p]

/-- A read of an engine thread of the core in focus: the bytes, and whether they are poisoned (R160, R164, R197). Sectors of another
package come back before they are read (R368). (DESIGN CHOICE: log 125.) -/
def State.engRead (s : State) (r : Reader) (va : Word) (n : Nat) : Except EngStop (List Byte × Bool) :=
  if wbits va 63 56 = 0xF9 then .error (.fault Cause.windowBad (some va))
  else match s.window s.core va n with
    | .error c => .error (.fault c (some va))
    | .ok (.scratch off) =>
      if s.core.padBlocked r off n then .error .wait
      else .ok (s.core.pool.bytes (s.core.scratchBase + off) n, s.core.runsBad [(s.core.scratchBase + off, n)])
    | .ok (.clus _ _) => .error (.fault Cause.windowBad (some va))
    | .ok (.mem a) =>
      match s.partsAt (s.asidOf s.core) a n .read with
      | .error c => .error (.fault c (some va))
      | .ok ps =>
        if ps.any (s.core.readBlocked r) then .error .wait
        else if ps.any (fun p => s.noRoute s.core p.pa) then .error (.fault Cause.memUe (some va))
        else if s.farMissing r.uid ps ≠ [] then .error (.far (s.farMissing r.uid ps))
        else .ok (ps.flatMap (s.engBytes r), ps.any (fun p => s.isPoison p.pa p.n || storeBad (s.core.ownStores r.uid) p.pa p.n))

/-- A 32-bit number read by a thread; poisoned data are fatal (R197). -/
def State.engWord (s : State) (r : Reader) (va : Word) : Except EngStop Nat :=
  match s.engRead r va 4 with
  | .error e => .error e
  | .ok x => if x.2 then .error (.fault Cause.dataPoison (some va)) else .ok (leVal x.1)

/-- The anchors of a form's boxes, from its coordinate or index group; none for a box out of bounds (R262, R266). -/
def State.anchors (s : State) (r : Reader) (i : Instr) (c : CArgs) (cr : Word × Word × Word) (h : Shape) :
    Except EngStop (List (Option (List Int))) :=
  if isGather i then
    let n := wbits cr.2.1 31 0
    let m := wbits cr.2.1 63 32
    if cr.1.toNat % 4 ≠ 0 ∨ cr.2.2.toNat % 4 ≠ 0 ∨ 65536 < n ∨ 13 < c.cr.val then .error (.fault Cause.operandForm none)
    else
      let at' (x : Nat) : Option (List Int) := some ((List.range 5).map (fun d => if d + 1 = h.rank.val then (x : Int) else 0))
      (List.range n).mapM (fun i =>
        match s.engWord r (cr.1 + BitVec.ofNat 64 (4 * i)) with
        | .error e => .error e
        | .ok x =>
          if cr.2.2 = 0 then .ok (at' x)
          else if m ≤ x then .ok none
          else match s.engWord r (cr.2.2 + BitVec.ofNat 64 (4 * x)) with
            | .error e => .error e
            | .ok y => .ok (if y = 0xFFFFFFFF then none else at' y))
  else if wbits cr.2.1 63 63 ≠ 0 then .error (.fault Cause.operandForm none)
  else .ok [some (anchorOf cr)]

/-- Ragged rows that boxes reach (R40). -/
def Shape.rowsOf (h : Shape) (as : List (Option (List Int))) : List Nat :=
  if !h.ragged then []
  else sortUp (as.flatMap (fun a => match a with
    | none => []
    | some a => (List.range (h.bx 1)).filterMap (fun (i : Nat) =>
        let x := crd a 1 + (i : Int)
        if 0 ≤ x ∧ x < h.ext.toList.getD 1 1 then some x.toNat else none)))

/-- Ragged rows that the boxes reach, each with its first offset and its extent (R40). -/
def State.raggedRows (s : State) (r : Reader) (h : Shape) (as : List (Option (List Int))) :
    Except EngStop (List (Nat × (Nat × Nat))) :=
  (h.rowsOf as).mapM (fun x =>
      match s.engWord r (h.ragt + BitVec.ofNat 64 (4 * x)), s.engWord r (h.ragt + BitVec.ofNat 64 (4 * x + 4)) with
      | .ok a, .ok b => .ok (x, (a, min (h.ext.toList.getD 0 1) (b - a)))
      | .error e, _ => .error e
      | _, .error e => .error e)

/-- The words of the tables that a copy reads through: of its index list, its block table and its row offsets (R40, R266); of entries
that cannot be read yet, those that can. -/
def State.tableWords (s : State) (r : Reader) (i : Instr) (c : CArgs) (cr : Word × Word × Word) (h : Shape) : List Word :=
  let m := wbits cr.2.1 63 32
  let idx := if isGather i then (List.range (min 65536 (wbits cr.2.1 31 0))).map (fun k => cr.1 + BitVec.ofNat 64 (4 * k)) else []
  let blk := if cr.2.2 = 0 then [] else idx.filterMap (fun a => match s.engWord r a with
    | .ok x => if m ≤ x then none else some (cr.2.2 + BitVec.ofNat 64 (4 * x))
    | .error _ => none)
  let rows := match s.anchors r i c cr h with | .ok as => h.rowsOf as | .error _ => []
  idx ++ blk ++ rows.flatMap (fun x => [h.ragt + BitVec.ofNat 64 (4 * x), h.ragt + BitVec.ofNat 64 (4 * x + 4)])

/-- One word of those given on each page. -/
def onePerPage (ws : List Word) : List Word :=
  (sortUp (ws.map (fun w => w.toNat / 65536))).filterMap (fun p => ws.find? (fun w => w.toNat / 65536 == p))

/-- An element of a copy: its box, itself, and its offset on the memory side; none out of bounds. -/
structure CEl where
  box : Nat
  el  : BoxEl
  off : Option Word
  deriving DecidableEq, Repr

/-- Every element of a copy, box by box, in stream order (R261, R262, R266). -/
def State.copyEls (s : State) (r : Reader) (i : Instr) (c : CArgs) (cr : Word × Word × Word) (h : Shape) :
    Except EngStop (List CEl) :=
  if h.nothing then .ok []
  else match s.anchors r i c cr h with
    | .error e => .error e
    | .ok as =>
      match s.raggedRows r h as with
      | .error e => .error e
      | .ok rows =>
        let row (x : Nat) : Nat × Nat := (assoc rows x).getD (0, 0)
        .ok (as.mapIdx (fun k a => (h.elems k).map (fun e =>
          (⟨k, e, a.bind (fun a => h.offsetAt row (coords a e))⟩ : CEl)))).flatten

/-- An address on each page of 64 KiB that the memory side of a copy reaches. -/
def pageAddrs (base : Word) (els : List CEl) : List Word :=
  (sortUp (els.filterMap (fun e => e.off.map (fun o => (base + o).toNat / 65536)))).map (fun p => BitVec.ofNat 64 (65536 * p))

/-- The elements that a C-slot instruction names, as they stand at issue; none where its index group cannot be read. -/
def State.elsNow (s : State) (i : Instr) (c : CArgs) (h : Shape) : List CEl :=
  match s.copyEls ⟨s.uid, none⟩ i c (s.cGroup i c) h with
  | .ok els => els
  | .error _ => []

/-! ## Checks at issue (R156, R160, R249, R259, R261 to R270) -/

/-- The fault of an address that a C-slot instruction names (R156, R160, R249). -/
def State.cAddrBad (s : State) (va : Word) (n : Nat) (k : Acc) : Option SlotFault :=
  if wbits va 63 56 = 0xF9 then some (slotFault 3 Cause.windowBad va)
  else match s.window s.core va n with
    | .error c => some (slotFault 3 c va)
    | .ok (.mem a) => (match s.translate (s.asidOf s.core) a k with
        | .error c => some (slotFault 3 c va)
        | .ok _ => none)
    | .ok _ => none

/-- Boxes that a form moves: n of the index group, or one (R261, R266). -/
def State.cBoxes (s : State) (i : Instr) (c : CArgs) : Nat :=
  if isGather i then wbits (s.cGroup i c).2.1 31 0 else 1

/-- The form and range of a pair used by a copy (R36, R69, R261). -/
def State.cPairBad (s : State) (h : Shape) (p : PairV) (n : Nat) : Option SlotFault :=
  if !p.formOk || p.lay != h.layout.val || (p.lay != 0 && (decide (256 < h.bx 0) || decide (256 < h.bx 1))) then
    some (slotFault 3 Cause.operandForm 0)
  else if !h.nothing && n != 0 && decide (n ≤ 65536) && decide (s.core.scratchSize < p.boxEnd h n) then
    some (slotFault 3 Cause.scratchRange 0)
  else none

/-- Own scratchpad lines of `n` bytes at an address. -/
def State.ownLines (s : State) (va : Word) (n : Nat) : List Nat :=
  if wbits va 63 56 = 0xF8 then s.accLines va n else []

/-- The ordering fields of a C-slot instruction. -/
def cOrd (i : Instr) : OrdF :=
  match i with
  | .stage o => o
  | i => match cArgs i with
    | some c => c.ord
    | none => ⟨0, 0, .core⟩

/-! ## Who takes part in a collective (R269, R271, R370) -/

/-- The group entry that names the launch of the core in focus, of the lowest number (R370). (DESIGN CHOICE: log 67.) -/
def State.groupOf (s : State) : Option Group :=
  match s.launchOf s.core with
  | none => none
  | some l => (List.range 64).findSome? (fun g => match assoc s.ox.groups g with
    | some x => if wbits x.w0 31 0 != 0 && x.w1 == l.addr then some x else none
    | none => none)

/-- Where the list of a group entry lies (R370). -/
def Group.listPart (g : Group) : Part := ⟨g.w2.toNat, 2 * wbits g.w0 47 32, false, false, none, true⟩

/-- The packages that a group entry lists (R370). (DESIGN CHOICE: log 67.) -/
def State.groupPkgs (s : State) (g : Group) : List Nat :=
  (List.range (wbits g.w0 47 32)).map (fun i => leVal (s.physBytes (g.w2.toNat + 2 * i) 2))

/-- Every package of a collective of the core in focus other than this one: none below SYS scope (R269). -/
def State.otherPkgs (s : State) (sc : Scope) : List Nat :=
  match sc, s.groupOf with
  | .sys, some g => (s.groupPkgs g).filter (fun p => p != s.ox.pkg.toNat)
  | _, _ => []

/-- The first participant in the order of the collective, by package and task, is the task in focus (R271, R370). -/
def State.leads (s : State) (sc : Scope) : Bool :=
  (s.otherPkgs sc).all (fun p => decide (s.ox.pkg.toNat < p)) &&
  match sc, s.launchOf s.core, s.core.task with
  | .core, _, _ => true
  | .clus, some l, some t => !((l.cores.take t.slot).any (fun c => clusterOf (s.physical c) == clusterOf s.core.id))
  | _, _, some t => t.slot == 0
  | _, _, none => true

/-- Own scratchpad lines that a C-slot instruction reads as its operand: of each element in bounds (R32, R260, R262); of a BCAST, the
first participant's alone (R271). -/
def State.cLines (s : State) (i : Instr) : List Nat :=
  match cArgs i with
  | none => []
  | some c =>
    let src := s.cSrc c
    match i with
    | .mbox _ => if c.sk then s.core.placeLines (.pair (pairOf src)) .int8 1 64 else s.ownLines src.1 64
    | _ =>
      match s.core.src.h[c.hs.val] with
      | none => []
      | some h =>
        if !c.sk && wbits src.1 63 56 != 0xF8 then []
        else if (match i with | .bcast _ => !s.leads (cOrd i).scope | _ => false) then []
        else ((s.elsNow i c h).flatMap (fun e => match e.off with
          | none => []
          | some o => if c.sk then rangeLines ((pairOf src).elemAt h e.el) h.unit else s.ownLines (src.1 + o) h.unit)).eraseDups

/-- The faults of a C-slot instruction at issue. (DEDUCED: log 39.) -/
def State.faultC (s : State) (i : Instr) : Option SlotFault :=
  match cArgs i with
  | none => none
  | some c =>
    let dst := s.cDst c
    let src := s.cSrc c
    match i with
    | .mbox _ =>
      (s.cAddrBad dst.1 64 .write).or
        ((if c.sk then
            (faultIf ((pairOf src).lay != 0) 3 Cause.operandForm 0).or (accFault 3 0 (s.core.pairBad (pairOf src) .int8 1 64))
          else (s.cAddrBad src.1 64 .read).or (faultIf (src.1.toNat % 32 != 0) 3 Cause.operandForm src.1)).or
        ((faultIf (dst.1.toNat % 64 != 0) 3 Cause.operandForm dst.1).or (s.core.linesFault 3 (s.cLines i))))
    | _ =>
      (if c.dk then none else s.cAddrBad dst.1 1 .write).or
        ((if c.sk then none else s.cAddrBad src.1 1 .read).or
        (match s.core.src.h[c.hs.val] with
         | none => some (slotFault 3 Cause.shapeBad 0)
         | some h =>
           (if c.dk then s.cPairBad h (pairOf dst) (s.cBoxes i c) else none).or
           ((if c.sk then s.cPairBad h (pairOf src) (s.cBoxes i c) else none).or
           ((faultIf (h.fmt.isBfp && ((match i with | .areduce _ _ => true | _ => false) || s.core.arch.binds[3] != 0)) 3
              Cause.operandForm 0).or
             (s.core.linesFault 3 (s.cLines i))))))

/-! ## The fork -/

/-- Tasks of a launch that come to a placement slot: one, or one after another (R139). -/
def LRec.tasksAt (r : LRec) (slot : Nat) : Nat := if slot < r.npl then (r.count + r.npl - 1 - slot) / r.npl else 0

/-- Tasks that take part in a collective of the core in focus, those of later waves among them (R269). -/
def State.sharers (s : State) (sc : Scope) : Nat :=
  match s.launchOf s.core with
  | none => 1
  | some l =>
    match sc with
    | .core => 1
    | .clus => ((List.range l.lr.used).map (fun i =>
        if clusterOf (s.physical (l.cores.getD i 0)) = clusterOf s.core.id then l.lr.tasksAt i else 0)).sum
    | _ => l.lr.count

/-- The number of a scope. -/
def scopeIx (sc : Scope) : Fin 4 := match sc with | .core => 0 | .clus => 1 | .pkg => 2 | .sys => 3

/-- A copy form that moves nothing: a box of zero extent, or a well-formed index group of no boxes (R265, R266).
(DESIGN CHOICE: log 109.) -/
def State.idleCopy (s : State) (i : Instr) : Bool :=
  match i, cArgs i with
  | .copy _, some c | .gather _, some c | .scatter _, some c =>
    (match s.core.src.h[c.hs.val] with
     | none => false
     | some h =>
       let g := s.cGroup i c
       h.nothing || (isGather i && wbits g.2.1 31 0 == 0 && g.1.toNat % 4 == 0 && g.2.2.toNat % 4 == 0 && decide (c.cr.val ≤ 13)))
  | _, _ => false

/-- The fork of a thread that moves nothing: it counts on its stream, and completes at once (R265). -/
def State.forkIdle (s : State) (o : OrdF) : State :=
  (((s.onC (fun c => { c with forks := c.forks + 1 })).seqCount o 1).touch).nextUid

/-- A C-slot instruction at issue: its checks, then its fork with all it captures (R260). -/
def State.cIssue (s : State) (i : Instr) : Out :=
  s.guard (s.faultC i) (if s.idleCopy i then .next (s.forkIdle (cOrd i)) else
    (let o := cOrd i
     let k := s.core.colln[(scopeIx o.scope).val]
     let s' := s.fork i o [] (fun t => match cArgs i with
       | none => t
       | some c =>
         { t with shape := (match i with | .mbox _ => none | _ => s.core.src.h[c.hs.val]), od := s.cDst c, oa := s.cSrc c, cr := s.cGroup i c,
                  pk := s.capPort 3 true,
                  coll := if isColl i then some (o.scope, k) else none })
     .next (if isColl i then s'.onC (fun c => { c with colln := c.colln.set (scopeIx o.scope).val (k + 1) }) else s')))

/-- COPY (R263). -/
def execCopy (c : CArgs) (s : State) : Out := s.cIssue (.copy c)
/-- GATHER (R266). -/
def execGather (c : CArgs) (s : State) : Out := s.cIssue (.gather c)
/-- SCATTER (R266). -/
def execScatter (c : CArgs) (s : State) : Out := s.cIssue (.scatter c)
/-- STAGE (R267). -/
def execStage (o : OrdF) (s : State) : Out := s.cIssue (.stage o)
/-- MBOX (R268). -/
def execMbox (c : CArgs) (s : State) : Out := s.cIssue (.mbox c)
/-- AREDUCE (R269, R270). -/
def execAreduce (op : RedOp) (c : CArgs) (s : State) : Out := s.cIssue (.areduce op c)
/-- BCAST (R269, R271). -/
def execBcast (c : CArgs) (s : State) : Out := s.cIssue (.bcast c)

/-! ## The G slot (R272, R273) -/

/-- The faults of GLD at issue: alignment, range, a POISONED line, or a poisoned store of its own that is not yet performed. -/
def State.faultGld (s : State) : Option SlotFault :=
  let o := wbits s.core.src.gptr 31 0
  (faultIf (o % 64 != 0) 4 Cause.operandForm 0).or
    ((faultIf (decide (s.core.scratchSize ≤ o)) 4 Cause.scratchRange 0).or ((s.core.linesFault 4 [o / 128]).or
      (faultIf (s.core.padSpoilt o 64) 4 Cause.dataPoison 0)))

/-- GLD Gd, inc: the new value becomes visible from the fifth executed bundle after this one (R272). -/
def execGld (g : GReg) (inc : Fin 1024) (s : State) : Out :=
  s.guard s.faultGld
    (let v := s.core.scratchBytes (wbits s.core.src.gptr 31 0) 64
     .next ((s.onA (fun a => { a with gpend := a.gpend.set g.val (some (v, 5)),
                                      gptr := s.core.src.gptr + BitVec.ofNat 64 (64 * inc.val) })).touch))

/-- GZERO Gd: zeros at once, and no GLD to Gd is pending any more (R273). -/
def execGzero (g : GReg) (s : State) : Out :=
  .next ((s.onA (fun a => { a with g := a.g.set g.val GVal.zero, gpend := a.gpend.set g.val none })).touch)

/-- GLD_VALUE_VISIBLE: a pending value whose bundles have all passed becomes the register's (R272). -/
def execGldValueVisible (g : GReg) (s : State) : Out := .next (s.onA (fun a => a.settleG g))

end Sys2Proof.Machine
end

