-- ==== Sys2Proof/Machine/XRun.lean ====
section
/-! DEFINITION. What an X-slot thread computes (R274 to R293): it reads every source, passes the ports, and leaves runs of
bytes for the pool, the scratchpad and the side array, the latches, flags and at most one fault. -/

namespace Sys2Proof.Machine

/-- The results of an X-slot thread. -/
structure XOut where
  /-- Runs of pool bytes of T and Z registers. -/
  pool  : List (Nat × List Byte)
  /-- Runs of bytes at scratchpad offsets. -/
  scr   : List (Nat × List Byte)
  side  : List (Nat × List Byte)
  zkind : Option (ZReg × ZKind)
  latA  : Option (List Nat)
  latB  : Option (List Nat)
  flags : Flags
  flt   : Option EngFault
  /-- The four arrays of SPBUILD change the states of their lines together (R288). -/
  paired : Bool

/-- No result. -/
def XOut.empty : XOut := ⟨[], [], [], none, none, none, 0, none, false⟩

/-- Element faults of the ports, taken in the order A, B, D (R278, R327); `pc` the forking bundle's. -/
def portsFault (pc : Word) (fs : List (Nat × Nat × List PFault)) : Option EngFault :=
  fs.findSome? (fun f => (portReport f.1 f.2.1 f.2.2).map (fun r => ⟨r.1, pc, r.2⟩))

/-- A fault of a thread that has no faulting address (R181): FORKOFF counts from ENTRY. -/
def plainFault (cause : Cause) (pc entry : Word) : EngFault := ⟨cause, pc, engInfo cause (pc - entry).toNat⟩

/-! ## Operands -/

/-- Where an operand lies: a pair by its captured words, a Z register by its window. -/
def xPlace (o : XOpd) (w : Word × Word) (row col : Nat) : Place :=
  match o with
  | .t n => .t n.val
  | .pair _ _ => .pair (pairOf w)
  | .z n => .z n.val row col
  | .hold => .t 0

/-- Entry `p` of a scale sequence that begins at G register `first` (R57, R59). -/
def scaleAt (g : Vector GVal 16) (first p : Nat) : Nat :=
  bfpExp ((g.toList.getD (first + p / 64) GVal.zero).getD (p % 64) 0).toNat

/-- Rows of mantissa codes joined with their scales; rows of any other format as they are. -/
def scaled (g : Vector GVal 16) (f : Fmt) (first : Nat) (rows : List (List Nat)) : List (List Nat) :=
  if f.isBfp then
    rows.mapIdx (fun i r => r.mapIdx (fun k v =>
      bfpWord (scaleAt g first (i * ((r.length + 31) / 32) + k / 32)) (bfpMant f.bw v)))
  else rows

/-- Words of a T register's statistics at byte `o`. -/
def statAt (img : List Byte) (o : Nat) : Nat := leVal ((img.drop o).take 4)

/-- OR of flags. -/
def orFlags (fs : List Flags) : Flags := fs.foldl (· ||| ·) 0

/-- Operand A of a multiply as it leaves port A, or latch A (R277, R279). -/
def operandA (c : Core) (t : Thread) (x : XArgs) (w : ShapeW) : Passed :=
  if x.oa = .hold then ⟨chunks w.k w.m c.latA, 0, []⟩
  else passIn t.pa (.fmt x.fa) false w.k
    (scaled t.g x.fa x.aux.val (c.readPlace (xPlace x.oa t.oa 0 0) x.fa w.m w.k))

/-- The stored values of operand B in logical order (R277, R281, R282). -/
def storedB (c : Core) (t : Thread) (x : XArgs) (w : ShapeW) : List (List Nat) :=
  let d := depthB t.ins w
  let first := x.aux.val + (if x.fa.isBfp then scaleRegs w.m w.k else 0)
  if storedByCol t.ins x then
    transposed 0 d (scaled t.g x.fb first (c.readPlace (xPlace x.ob t.ob 0 0) x.fb w.n d))
  else c.readPlace (xPlace x.ob t.ob 0 0) x.fb d w.n

/-- The row of a compressed column that serves contraction index `k` of column `j`, when it is kept (R282). -/
def keptRow (img : List Byte) (j k : Nat) : Option Nat :=
  let m := metaAt img (256 * (k / 4) + j)
  if m % 4 = k % 4 then some (2 * (k / 4)) else if m / 4 = k % 4 then some (2 * (k / 4) + 1) else none

/-- A compressed operand B through port B: each kept value has the identifier of its dense position (R277, R314). -/
def passSparse (p : PortCap) (e : Elt) (img : List Byte) (n : Nat) (rows : List (List Nat)) : Passed :=
  match p.prog with
  | none => ⟨rows, 0, []⟩
  | some _ =>
    let k := e.lane
    let ent := rows.map (fun r => r.map e.entry)
    let lane (d : Nat) : List PElem :=
      ((List.range n).filterMap (fun j => (keptRow img j d).map (fun r => (j, ((ent.getD r []).getD j (0, 0)).1)))).mapIdx
        (fun i v => ⟨[d, v.1], d, v.1, i == 0, v.2⟩)
    let r := runPort k p ((List.range (2 * rows.length)).map lane)
    let fl := (ent.flatten.map Prod.snd).foldl (· ||| ·) r.flags
    let at' (q j : Nat) : Nat :=
      let ds := (List.range 4).map (fun i => 4 * (q / 2) + i)
      let d := (ds.find? (fun d => keptRow img j d == some q)).getD 0
      ((r.outs.getD d []).find? (fun y => y.1.col == j)).elim 0 Prod.snd
    let outs := (List.range rows.length).map (fun q => (List.range n).map (at' q))
    match e with
    | .fmt (.bfp i) =>
      let bl := (transposed Num.zero n (outs.map (fun l => l.map (laneVal k)))).map (reblock (Fmt.bfp i).bw .rne .sat)
      ⟨transposed 0 rows.length (bl.map (fun b => b.1)), (bl.map (fun b => b.2.2.1)).foldl (· ||| ·) fl, r.faults⟩
    | e =>
      let cv := outs.map (fun l => l.map (e.exit .rne .sat k))
      ⟨cv.map (fun l => l.map Conv.code), (cv.flatten.map Conv.flags).foldl (· ||| ·) fl, r.faults⟩

/-- A source of any other form, as its element words (R277). -/
def sourceOf (c : Core) (o : XOpd) (w : Word × Word) (f : Fmt) (rows cols row col : Nat) : List (List Nat) :=
  c.readPlace (xPlace o w row col) f rows cols

/-- Results written to a place: pool runs for registers, scratchpad runs for a pair. -/
def XOut.write (r : XOut) (c : Core) (o : XOpd) (w : Word × Word) (f : Fmt) (row col : Nat) (rows : List (List Nat)) : XOut :=
  let runs := c.writeRuns (xPlace o w row col) f rows
  match o with
  | .pair _ _ => { r with scr := r.scr ++ runs.map (fun x => (x.1 - c.scratchBase, x.2)) }
  | _ => { r with pool := r.pool ++ runs }

/-- Bytes of a T register's image. -/
def XOut.writeT (r : XOut) (n o : Nat) (bs : List Byte) : XOut := { r with pool := r.pool ++ [(n * Config.tBytes + o, bs)] }

/-- The triple side row `i` of Z register `z` (R28). -/
def Core.sideRow (c : Core) (z i : Nat) : Nat × Nat :=
  (leVal (c.side.run (2048 * z + 4 * i) 4), leVal (c.side.run (2048 * z + 1024 + 4 * i) 4))

/-- Writes a triple's m and l. -/
def XOut.writeSide (r : XOut) (z i m l : Nat) : XOut :=
  { r with side := r.side ++ [(2048 * z + 4 * i, leBytes 4 m), (2048 * z + 1024 + 4 * i, leBytes 4 l)] }

/-- The register number of a Z operand. -/
def zNo (o : XOpd) : Nat := match o with | .z n => n.val | _ => 0

/-- The rows of a Z window. -/
def Core.window (c : Core) (o : XOpd) (row col m n : Nat) : List (List Nat) := c.readPlace (.z (zNo o) row col) .fp32 m n

/-- The word type of a Z kind. -/
def ZKind.elt (k : ZKind) : Elt := match k with | .fp32 => .fmt .fp32 | .fp64 => .fmt .fp64 | .int32 => .i32

/-! ## Multiplies (R281 to R283) -/

/-- The products of row i and column j, dense or sparse (R281, R282). -/
def pairing (i : Instr) (img : List Byte) (as bs : List (List Num)) (r j : Nat) : List (Option (Num × Num)) :=
  match i with
  | .mmas _ => sparse img j (as.getD r []) (bs.getD j [])
  | _ => dense (as.getD r []) (bs.getD j [])

/-- Operand B as latch B keeps it, K × N: a value that MMAS keeps stands at its dense position, and the positions it does not
keep hold 0 (R277, R279). (DESIGN CHOICE: log 99.) -/
def latchRows (i : Instr) (img : List Byte) (w : ShapeW) (rows : List (List Nat)) : List (List Nat) :=
  match i with
  | .mmas _ => (List.range w.k).map (fun k => (List.range w.n).map (fun j => ((keptRow img j k).map (fun r => nth (rows.getD r []) j)).getD 0))
  | _ => rows

/-- MMA, MMAS, MMAR and MMAT. (DESIGN CHOICE: log 99.) -/
def runMma (c : Core) (t : Thread) (x : XArgs) (w : ShapeW) (entry : Word) : XOut :=
  let img := match t.ins with | .mmas _ => c.tImage (w.ext % 64) | _ => []
  let badMeta := match t.ins with
    | .mmas _ => (List.range (w.k / 4)).any (fun g => (List.range w.n).any (fun j => !metaOk (metaAt img (256 * g + j))))
    | _ => false
  let a := operandA c t x w
  let b : Passed := if x.ob = .hold then ⟨chunks w.n (depthB t.ins w) c.latB, 0, []⟩
    else match t.ins with
      | .mmas _ => passSparse t.pb (.fmt x.fb) img w.n (storedB c t x w)
      | _ => passIn t.pb (.fmt x.fb) true w.n (storedB c t x w)
  let keep : XOut := { XOut.empty with latA := if x.oa = .hold then none else some a.rows.flatten,
                                       latB := if x.ob = .hold then none else some (latchRows t.ins img w b.rows).flatten }
  if badMeta then { keep with flt := some (plainFault Cause.operandForm t.pc entry) }
  else
    let cls := accClass x.fa x.fb
    let as := a.rows.map (fun r => r.map (Elt.fmt x.fa).num)
    let bs := transposed Num.zero w.n (b.rows.map (fun r => r.map (Elt.fmt x.fb).num))
    let z0 := c.window x.od w.zrow w.zcol w.m w.n
    let st := match t.ins with | .mmat _ => c.tImage x.aux.val | _ => []
    let tri : List (Triple × Flags) := match t.ins with
      | .mmat _ => z0.mapIdx (fun i r =>
          let s := c.sideRow (zNo x.od) (w.zrow + i)
          mmatRow ⟨r, s.1, s.2⟩ (statAt st (4 * i)) (statAt st (1024 + 4 * i)))
      | _ => []
    let z1 := match t.ins with | .mmat _ => tri.map (fun r => r.1.acc) | _ => z0
    let out := multiply cls z1 (pairing t.ins img as bs)
    let fl := orFlags (out.flatten.map Prod.snd) ||| orFlags (tri.map Prod.snd) ||| a.flags ||| b.flags
    let r := keep.write c x.od t.od .fp32 w.zrow w.zcol (out.map (fun r => r.map Prod.fst))
    let r := (tri.mapIdx (fun i v => (i, v.1))).foldl (fun r v => r.writeSide (zNo x.od) (w.zrow + v.1) v.2.m v.2.l) r
    { r with flags := fl, flt := portsFault t.pc [(0, t.pa.slot, a.faults), (1, t.pb.slot, b.faults)] }

/-! ## Moves (R280, R284 to R288) -/

/-- ZCLR: every element +0 or 0, the kind, and in triple mode every row empty (R280, R84). -/
def runZclr (c : Core) (x : XArgs) : XOut :=
  match x.od with
  | .z n =>
    let r : XOut := { XOut.empty with
      pool := [((c.partw.tg + n.val) * Config.granule, List.replicate Config.granule 0)], zkind := some (n, kindOfFmt x.fd) }
    if c.partw.trip.getLsbD n.val then
      { r with side := [(2048 * n.val, (List.replicate 256 (leBytes 4 negInf32)).flatten ++ List.replicate 1024 0)] }
    else r
  | _ => XOut.empty

/-- ZLD (R284): the infinities stay, since each pair of formats is exact. -/
def runZld (c : Core) (t : Thread) (x : XArgs) (w : ShapeW) : XOut :=
  let src := scaled t.g x.fa x.aux.val (sourceOf c x.oa t.oa x.fa w.m w.n 0 0)
  let a := passIn t.pa (.fmt x.fa) false w.n src
  let conv (v : Nat) : Conv := match kindOfFmt x.fd with
    | .int32 => convInt 32 .rne .sat ((Elt.fmt x.fa).num v)
    | .fp64 => ff64.conv .rne .inf ((Elt.fmt x.fa).num v)
    | .fp32 => ff32.conv .rne .inf ((Elt.fmt x.fa).num v)
  let cv := a.rows.map (fun r => r.map conv)
  let r := XOut.empty.write c x.od t.od .fp32 w.zrow w.zcol (cv.map (fun r => r.map Conv.code))
  let r := if x.var = 1 then
      let st := c.tImage x.aux.val
      (List.range w.m).foldl (fun r i => r.writeSide (zNo x.od) (w.zrow + i) (statAt st (4 * i)) (statAt st (1024 + 4 * i))) r
    else r
  { r with flags := orFlags (cv.flatten.map Conv.flags) ||| a.flags, flt := portsFault t.pc [(0, t.pa.slot, a.faults)] }

/-- Elements of a source as lanes of port D: identifier (row, column). -/
def drainLanes (e : Elt) (rows : List (List Nat)) : List (List PElem) × Flags :=
  let ent := rows.map (fun r => r.map e.entry)
  (ent.mapIdx (fun i r => laneElems i (r.map Prod.fst)), orFlags (ent.flatten.map Prod.snd))

/-- Writes a drain at the destination, with the exponents of a BFP target (R285). -/
def XOut.drained (r : XOut) (c : Core) (t : Thread) (x : XArgs) (d : Drained) (fl : Flags) : XOut :=
  let r := r.write c x.od t.od x.fd 0 0 d.rows
  let r := (d.exps.mapIdx (fun i es => (i, es))).foldl (fun r e => r.writeT x.aux.val (8 * e.1) (e.2.map (BitVec.ofNat 8))) r
  { r with flags := r.flags ||| d.flags ||| fl, flt := r.flt.or (portsFault t.pc [(2, t.pd.slot, d.faults)]) }

/-- ZST (R285). -/
def runZst (c : Core) (t : Thread) (x : XArgs) (w : ShapeW) : XOut :=
  let e := (kindOfFmt x.fa).elt
  let l := drainLanes e (c.window x.oa w.zrow w.zcol w.m w.n)
  let r := XOut.empty.drained c t x (passOut t.pd e.lane x.fd x.rnd x.ovf l.1) l.2
  if x.var = 1 then
    (List.range w.m).foldl (fun r i =>
      let s := c.sideRow (zNo x.oa) (w.zrow + i)
      (r.writeT x.aux.val (4 * i) (leBytes 4 s.1)).writeT x.aux.val (1024 + 4 * i) (leBytes 4 s.2)) r
  else r

/-- ZMOV (R286). -/
def runZmov (c : Core) (t : Thread) (x : XArgs) (w : ShapeW) : XOut :=
  let r := XOut.empty.write c x.od t.od .fp32 (w.ext % 256) (w.ext / 256) (c.window x.oa w.zrow w.zcol w.m w.n)
  if x.var = 1 then
    (List.range w.m).foldl (fun r i =>
      let s := c.sideRow (zNo x.oa) (w.zrow + i)
      r.writeSide (zNo x.od) (w.ext % 256 + i) s.1 s.2) r
  else r

/-- The element type of a source that may be a Z register. -/
def srcElt (x : XArgs) : Elt := eltOf x.oa.isZ x.fa

/-- TRANS (R287); the scales of a BFP source begin at G0 (R276, R277). -/
def runTrans (c : Core) (t : Thread) (x : XArgs) (w : ShapeW) : XOut :=
  let src := transposed 0 w.n (scaled t.g x.fa x.aux.val (sourceOf c x.oa t.oa x.fa w.m w.n w.zrow w.zcol))
  let l := drainLanes (srcElt x) src
  XOut.empty.drained c t x (passOut t.pd (srcElt x).lane x.fd x.rnd x.ovf l.1) l.2

/-- SPBUILD (R288). -/
def runSpbuild (c : Core) (t : Thread) (x : XArgs) (w : ShapeW) (entry : Word) : XOut :=
  let d := sourceOf c x.oa t.oa x.fa w.k w.n 0 0
  let m := sourceOf c x.ob t.ob .int8 w.k w.n 0 0
  match plane (transposed 0 w.n d) (transposed 0 w.n m), plane d m with
  | some f, some r =>
    let put (o : XOut) (a : Nat) (fm : Fmt) (rows : List (List Nat)) : XOut :=
      let runs := c.writeRuns (.pair (spPair (pairOf t.od) a)) fm rows
      { o with scr := o.scr ++ runs.map (fun v => (v.1 - c.scratchBase, v.2)) }
    let o := put XOut.empty 0 x.fa (transposed 0 (w.k / 2) f.1)
    let o := put o 1 .int8 (chunks 256 64 (metaImage f.2))
    let o := put o 2 x.fa r.1
    { put o 3 .int8 (chunks 256 64 (metaImage r.2)) with paired := true }
  | _, _ => { XOut.empty with flt := some (plainFault Cause.operandForm t.pc entry) }

/-! ## Reductions (R289 to R293) -/

/-- ROWRED and COLRED (R289): `down` reduces columns. -/
def runReduce (c : Core) (t : Thread) (x : XArgs) (w : ShapeW) (down : Bool) : XOut :=
  let e := srcElt x
  let a := passIn t.pa e false w.n (sourceOf c x.oa t.oa x.fa w.m w.n w.zrow w.zcol)
  let wide := a.rows.map (fun r => r.map e.widen)
  let lines := if down then transposed (0, 0) w.n wide else wide
  let op : RedOp := if x.var = 1 then .max else if x.var = 2 then .min else .sum
  let vs := lines.map (reduce e.working op)
  let d := passOut t.pd e.working x.fd x.rnd x.ovf [laneElems 0 (vs.map (fun v => laneCode e.working v.1))]
  { XOut.empty with flt := portsFault t.pc [(0, t.pa.slot, a.faults)] }.drained c t x d (a.flags ||| orFlags (vs.map Prod.snd))

/-- SOFTROW (R290). -/
def runSoftrow (c : Core) (t : Thread) (x : XArgs) (w : ShapeW) : XOut :=
  let e := srcElt x
  let a := passIn t.pa e false w.n (sourceOf c x.oa t.oa x.fa w.m w.n w.zrow w.zcol)
  let wide := a.rows.map (fun r => r.map e.widen)
  let trip := c.partw.trip.getLsbD (zNo x.ob)
  let rows := wide.mapIdx (fun i r =>
    softRow (if trip then (c.sideRow (zNo x.ob) (w.zrow + i)).1 else negInf32) (r.map Prod.fst))
  let d := passOut t.pd .f32 x.fd x.rnd x.ovf (rows.mapIdx (fun i r => laneElems i r.2.1))
  let sums := d.rows.map (fun r => reduce .f32 .sum (r.map (Elt.fmt x.fd).widen))
  let fl := a.flags ||| orFlags (wide.flatten.map Prod.snd) ||| orFlags (rows.map (fun r => r.2.2)) |||
    orFlags (sums.map Prod.snd)
  let r := { XOut.empty with flt := portsFault t.pc [(0, t.pa.slot, a.faults)] }.drained c t x d fl
  (List.range w.m).foldl (fun r i =>
    (r.writeT x.aux.val (4 * i) (leBytes 4 (rows.getD i (0, [], 0)).1)).writeT x.aux.val (1024 + 4 * i)
      (leBytes 4 (sums.getD i (0, 0)).1)) r

/-- MERGE (R291). -/
def runMerge (c : Core) (t : Thread) (x : XArgs) (w : ShapeW) : XOut :=
  let row (o : XOpd) (i : Nat) (acc : List Nat) : Triple :=
    let s := c.sideRow (zNo o) (w.zrow + i)
    ⟨acc, s.1, s.2⟩
  let za := c.window x.oa w.zrow w.zcol w.m w.n
  let zb := c.window x.ob w.zrow w.zcol w.m w.n
  let rs := (List.range w.m).map (fun i => mergeRow (row x.oa i (za.getD i [])) (row x.ob i (zb.getD i [])))
  let r := XOut.empty.write c x.od t.od .fp32 w.zrow w.zcol (rs.map (fun v => v.1.acc))
  let r := (rs.mapIdx (fun i v => (i, v.1))).foldl (fun r v => r.writeSide (zNo x.od) (w.zrow + v.1) v.2.m v.2.l) r
  { r with flags := orFlags (rs.map Prod.snd) }

/-- TOPK (R292): entry t is written as an 8-byte element. -/
def runTopk (c : Core) (t : Thread) (x : XArgs) (w : ShapeW) : XOut :=
  let e := srcElt x
  let a := passIn t.pa e false w.n (sourceOf c x.oa t.oa x.fa w.m w.n w.zrow w.zcol)
  let rs := a.rows.map (fun r => topRow (x.var == 1) w.k (r.map e.num))
  let r := XOut.empty.write c x.od t.od .fp64 0 0 (rs.map (fun r => r.1.map (fun v => v.1 + v.2 * 2 ^ 32)))
  { r with flags := a.flags ||| orFlags (rs.map Prod.snd), flt := portsFault t.pc [(0, t.pa.slot, a.faults)] }

/-- The elements of one ring slot (R293). -/
def ringSlot (c : Core) (p : PairV) (f : Fmt) (n q : Nat) : List Nat :=
  rowElems f f.size n (c.runsBytes ((p.rowRuns f n q).map (fun r => (c.scratchBase + r.1, r.2))))

/-- The element at position `s − P` of a ring slot on a lane: an all-zero encoding outside it (R293). -/
def ringAt (slot : List Nat) (w : ShapeW) (s lane : Nat) : Nat :=
  if s < winP w ∨ winP w + winX w ≤ s then 0 else nth slot ((s - winP w) * w.n + lane)

/-- WINDOW (R293). -/
def runWindow (c : Core) (t : Thread) (x : XArgs) (w : ShapeW) : XOut :=
  let e : Elt := .fmt x.fa
  let p := pairOf t.oa
  let ring := (winSlots w).map (fun q => (q, ringSlot c p x.fa (winX w * w.n) q))
  let len := winX w + 2 * winP w
  let steps := (List.range w.m).flatMap (fun i => (List.range len).map (fun s => (i, s)))
  let word (i s tap lane : Nat) : Nat := ringAt ((assoc ring ((w.zrow + i + tap) % w.zcol)).getD []) w s lane
  let lanesA := (List.range w.n).map (fun lane => steps.flatMap (fun v => (List.range w.k).map (fun tap =>
    let en := e.entry (word v.1 v.2 tap lane)
    ((⟨[v.1, v.2, tap, lane], v.1, lane, v.2 == 0 && tap == 0, en.1⟩ : PElem), en.2))))
  let ra := runPort e.lane t.pa (lanesA.map (fun l => l.map Prod.fst))
  let exitA := ra.outs.map (fun l => l.map (fun v => e.exit .rne .sat e.lane v.2))
  let numsA : List (List Num) := match t.pa.prog with
    | none => (List.range w.n).map (fun lane => steps.flatMap (fun v => (List.range w.k).map (fun tap =>
        e.num (word v.1 v.2 tap lane))))
    | some _ => exitA.map (fun l => l.map (fun v => e.num v.code))
  let flA := match t.pa.prog with
    | none => 0
    | some _ => orFlags (lanesA.flatten.map Prod.snd) ||| ra.flags ||| orFlags (exitA.flatten.map Conv.flags)
  let wt := transposed Num.zero w.n ((c.readPlace (xPlace x.ob t.ob 0 0) x.fb w.k w.n).map (fun r => r.map (Elt.fmt x.fb).num))
  let cls := accClass x.fa x.fb
  let sums := numsA.mapIdx (fun lane l =>
    (chunks w.k steps.length l).map (fun a => accumulate cls 0 (dense a (wt.getD lane []))))
  let dl := sums.mapIdx (fun lane l => (List.zip steps l).map (fun v =>
    (⟨[v.1.1, v.1.2, lane], v.1.1, lane, v.1.2 == 0, ((cls.kind.elt).entry v.2.1).1⟩ : PElem)))
  let d := passOut t.pd cls.kind.elt.lane x.fd x.rnd x.ovf dl
  let cols := transposed 0 steps.length d.rows
  let rowOf (i : Nat) : List Nat := ((List.range (winX w)).map (fun s => cols.getD (i * len + s + 2 * winP w) [])).flatten
  let rows := (List.range w.m).map rowOf
  let rows := match x.od with
    | .t _ => rows.flatMap (chunks 256 (winTileRows w))
    | _ => rows
  { XOut.empty with flt := portsFault t.pc [(0, t.pa.slot, ra.faults)] }.drained c t x { d with rows := rows }
    (flA ||| orFlags (sums.flatten.map Prod.snd))

/-- What an X-slot thread other than a factorisation computes. -/
def runX (c : Core) (t : Thread) (entry : Word) : XOut :=
  match xArgs t.ins with
  | none => XOut.empty
  | some x =>
    let w := shapeW t.sh
    match t.ins with
    | .mma _ | .mmas _ | .mmar _ | .mmat _ => runMma c t x w entry
    | .zclr _ => runZclr c x
    | .zld _ => runZld c t x w
    | .zst _ => runZst c t x w
    | .zmov _ => runZmov c t x w
    | .trans _ => runTrans c t x w
    | .spbuild _ => runSpbuild c t x w entry
    | .rowred _ => runReduce c t x w false
    | .colred _ => runReduce c t x w true
    | .softrow _ => runSoftrow c t x w
    | .merge _ => runMerge c t x w
    | .topk _ => runTopk c t x w
    | .window _ => runWindow c t x w
    | _ => XOut.empty

end Sys2Proof.Machine
end

