-- ==== Sys2Proof/Machine/Factor.lean ====
section
/-! DEFINITION. The factorisations (R296 to R309): how a thread begins, the step of each form, growth, and the run over the
steps up to a fault, an end, or a bound at which a full pre-emption stops it. -/

namespace Sys2Proof.Machine

/-- The tile of a factorisation, row by row, as codes of its kind. -/
abbrev Tile := List (List Nat)

/-- Element (i, j) of a tile. -/
def tileAt (a : Tile) (i j : Nat) : Nat := nth (a.getD i []) j
/-- Writes element (i, j). -/
def tileSet (a : Tile) (i j v : Nat) : Tile := a.set i ((a.getD i []).set j v)

/-- What a factorisation carries from step to step. -/
structure Fac where
  a     : Tile
  /-- τ of the columns done: column and code (R305). -/
  tau   : List (Nat × Nat)
  perm  : List Byte
  fstat : Word
  imax  : Nat
  pmax  : Nat
  flags : Flags
  /-- Codes that the present step writes to the tile. -/
  wrote : List Nat
  deriving DecidableEq, Repr

/-- How a step ends: committed, or the fault with its index and the flags that the step has raised (R66, R308).
(DEDUCED: log 112.) -/
inductive StepEnd where
  | commit (f : Fac)
  | fault (c : Cause) (x : Nat) (fl : Flags)
  deriving Repr

/-- rnd of kind k and its fused step. -/
def fmaK (ff : FF) (x y z : Nat) : Coded :=
  let a := ff.read x
  let b := ff.read y
  let c := ff.read z
  ff.fma .rne a b c [a, b, c]

/-- The code with its sign changed; a NaN keeps its own (R53, R77). -/
def negK (ff : FF) (x : Nat) : Nat :=
  if (ff.read x).isNan then x
  else if x / 2 ^ (ff.eb + ff.fb) % 2 = 1 then x - 2 ^ (ff.eb + ff.fb) else x + 2 ^ (ff.eb + ff.fb)

/-- +0 or −0. -/
def zeroK (ff : FF) (x : Nat) : Bool := (ff.read x).isZero

/-- Writes an element in the present step. -/
def Fac.put (f : Fac) (i j : Nat) (v : Coded) : Fac :=
  { f with a := tileSet f.a i j v.1, flags := f.flags ||| v.2, wrote := v.1 :: f.wrote }

/-- Runs a change for each index of a list. -/
def each {α β : Type} (xs : List β) (f : α) (g : α → β → α) : α := xs.foldl g f

/-- Indices `lo` to `hi − 1`. -/
def span (lo hi : Nat) : List Nat := (List.range (hi - lo)).map (fun i => lo + i)

/-! ## LUP (R303) -/

/-- x ranks above y by magnitude: a NaN above every number (R303). -/
def magAbove (x y : Num) : Bool := if y.isNan then false else if x.isNan then true else numLt y.abs x.abs

/-- The pivot row of column `c`. -/
def pivotRow (ff : FF) (a : Tile) (m c : Nat) : Nat :=
  (span (c + 1) m).foldl (fun p i => if magAbove (ff.read (tileAt a i c)) (ff.read (tileAt a p c)) then i else p) c

/-- Exchanges two rows of a tile and of PERM. -/
def Fac.swap (f : Fac) (c p : Nat) : Fac :=
  if c = p then f
  else
    let rc := f.a.getD c []
    let rp := f.a.getD p []
    { f with a := (f.a.set c rp).set p rc, wrote := rc ++ rp ++ f.wrote,
             perm := (f.perm.set c (f.perm.getD p 0)).set p (f.perm.getD c 0) }

/-- One column of LUP; comparing reads a signalling NaN too (R53). (DEDUCED: log 112.) -/
def stepLup (ff : FF) (m n : Nat) (pivt : Word) (zpol : Bool) (f : Fac) (c : Nat) : StepEnd :=
  let f := { f with flags := f.flags ||| sigFlags (ff64.read pivt.toNat :: (span c m).map (fun i => ff.read (tileAt f.a i c))) }
  let p := pivotRow ff f.a m c
  let v := ff.read (tileAt f.a p c)
  let lim := ff64.read pivt.toNat
  if !v.isNan && !lim.isNan && !numLt lim v.abs then
    if !zpol then .fault Cause.zeroPivot c f.flags
    else if wbits f.fstat 16 16 = 1 then .commit f
    else .commit { f with fstat := BitVec.ofNat 64 (0x10000 + c % 256) }
  else
    let f := f.swap c p
    let f := each (span (c + 1) m) f (fun f i =>
      f.put i c (ff.div .rne (ff.read (tileAt f.a i c)) (ff.read (tileAt f.a c c))))
    .commit (each (span (c + 1) m) f (fun f i => each (span (c + 1) n) f (fun f j =>
      f.put i j (fmaK ff (negK ff (tileAt f.a i c)) (tileAt f.a c j) (tileAt f.a i j)))))

/-! ## CHOL (R304) -/

/-- A value reduced by fused steps, with its flags. -/
def fmaRun (ff : FF) (x : Coded) (ts : List (Nat × Nat)) : Coded :=
  ts.foldl (fun x t => let r := fmaK ff t.1 t.2 x.1; (r.1, x.2 ||| r.2)) x

/-- One column of CHOL. The flags of a step that faults stand, as those of any arithmetic of the thread (R53, R66); the test of d
reads a signalling NaN too. (DEDUCED: log 112.) -/
def stepChol (ff : FF) (m : Nat) (f : Fac) (j : Nat) : StepEnd :=
  let at' (i k : Nat) : Nat := tileAt f.a i k
  let d := fmaRun ff (at' j j, 0) ((List.range j).map (fun k => (negK ff (at' j k), at' j k)))
  let v := ff.read d.1
  if v.isNan || !numLt Num.zero v then .fault Cause.notPd j (f.flags ||| d.2 ||| sigFlags [v])
  else
    let s := ff.sqrt .rne v
    let f := { f.put j j s with flags := (f.put j j s).flags ||| d.2 }
    .commit (each (span (j + 1) m) f (fun f i =>
      let x := fmaRun ff (tileAt f.a i j, 0)
        ((List.range j).map (fun k => (negK ff (tileAt f.a i k), tileAt f.a j k)))
      let q := ff.div .rne (ff.read x.1) (ff.read (tileAt f.a j j))
      f.put i j (q.1, q.2 ||| x.2)))

/-! ## QRH (R305) -/

/-- One column of QRH. -/
def stepQrh (ff : FF) (m n : Nat) (f : Fac) (c : Nat) : StepEnd :=
  let alpha := tileAt f.a c c
  if (span (c + 1) m).all (fun i => zeroK ff (tileAt f.a i c)) then .commit { f with tau := f.tau ++ [(c, 0)] }
  else
    let x := fmaRun ff (0, 0) ((span c m).map (fun i => (tileAt f.a i c, tileAt f.a i c)))
    let nrm := ff.sqrt .rne (ff.read x.1)
    let beta := if (ff.read alpha).sign then nrm.1 else negK ff nrm.1
    let df := ff.sub .rne (ff.read beta) (ff.read alpha)
    let tau := ff.div .rne (ff.read df.1) (ff.read beta)
    let den := ff.sub .rne (ff.read alpha) (ff.read beta)
    let fl := x.2 ||| nrm.2 ||| df.2 ||| tau.2 ||| den.2
    let f := each (span (c + 1) m) f (fun f i => f.put i c (ff.div .rne (ff.read (tileAt f.a i c)) (ff.read den.1)))
    let f := { f.put c c (beta, fl) with tau := f.tau ++ [(c, tau.1)] }
    .commit (each (span (c + 1) n) f (fun f j =>
      let w := fmaRun ff (tileAt f.a c j, 0) ((span (c + 1) m).map (fun i => (tileAt f.a i c, tileAt f.a i j)))
      let t := ff.mul .rne (ff.read tau.1) (ff.read w.1)
      let d := ff.sub .rne (ff.read (tileAt f.a c j)) (ff.read t.1)
      let f := f.put c j (d.1, w.2 ||| t.2 ||| d.2)
      each (span (c + 1) m) f (fun f i =>
        f.put i j (fmaK ff (negK ff t.1) (tileAt f.a i c) (tileAt f.a i j)))))

/-! ## TRSM and TRMM (R306, R307) -/

/-- The variant of TRSM and TRMM: RIGHT, UPPER, TRN, UNIT. -/
structure TriVar where
  right : Bool
  upper : Bool
  trn   : Bool
  unit  : Bool
  deriving DecidableEq, Repr

/-- The variant that VAR names (R296). -/
def triVar (v : Nat) : TriVar := ⟨v % 2 == 1, v / 2 % 2 == 1, v / 4 % 2 == 1, v / 8 % 2 == 1⟩

/-- op(T) is lower (R306). -/
def TriVar.lower (v : TriVar) : Bool := v.upper == v.trn

/-- op(T)(r, m). -/
def triAt (v : TriVar) (t : Tile) (r m : Nat) : Nat := if v.trn then tileAt t m r else tileAt t r m

/-- One index of TRSM; `len` results. -/
def stepTrsm (ff : FF) (v : TriVar) (t : Tile) (n len : Nat) (f : Fac) (s : Nat) : StepEnd :=
  let r := if v.lower != v.right then s else n - 1 - s
  let ks := if v.lower != v.right then List.range r else span (r + 1) n
  let b (f : Fac) (q k : Nat) : Nat := if v.right then tileAt f.a q k else tileAt f.a k q
  if !v.unit && zeroK ff (triAt v t r r) then .fault Cause.zeroDiag r f.flags
  else .commit (each (List.range len) f (fun f q =>
    let x := fmaRun ff (b f q r, 0) (ks.map (fun m =>
      if v.right then (negK ff (b f q m), triAt v t m r) else (negK ff (triAt v t r m), b f q m)))
    let y : Coded := if v.unit then x
      else let d := ff.div .rne (ff.read x.1) (ff.read (triAt v t r r)); (d.1, d.2 ||| x.2)
    if v.right then f.put q r y else f.put r q y))

/-- One index of TRMM. -/
def stepTrmm (ff : FF) (v : TriVar) (t : Tile) (n len : Nat) (f : Fac) (s : Nat) : StepEnd :=
  let r := if v.lower == v.right then s else n - 1 - s
  let ms := if v.lower != v.right then List.range (r + 1) else span r n
  let b (f : Fac) (q k : Nat) : Nat := if v.right then tileAt f.a q k else tileAt f.a k q
  .commit (each (List.range len) f (fun f q =>
    let term (m : Nat) : Nat × Nat := if v.right then (b f q m, triAt v t m r) else (triAt v t r m, b f q m)
    let first (m : Nat) : Coded :=
      if v.unit && m == r then (b f q r, 0) else ff.mul .rne (ff.read (term m).1) (ff.read (term m).2)
    let next (x : Coded) (m : Nat) : Coded :=
      if v.unit && m == r then
        let d := ff.add .rne (ff.read (b f q r)) (ff.read x.1); (d.1, d.2 ||| x.2)
      else let d := fmaK ff (term m).1 (term m).2 x.1; (d.1, d.2 ||| x.2)
    let y : Coded := match ms with
      | [] => (0, 0)
      | m :: rest => rest.foldl next (first m)
    if v.right then f.put q r y else f.put r q y))

/-! ## Growth and progress (R299, R300) -/

/-- The larger of an FP32 maximum and the magnitude of a code, rounded up; NaNs are ignored (R300). -/
def growMax (ff : FF) (m : Nat) (x : Nat) : Nat :=
  let v := ff.read x
  if v.isNan then m
  else
    let u := (ff32.put .rup v.abs).1
    if (ff32.read m).isNan || numLt (ff32.read m) (ff32.read u) then u else m

/-- The growth estimate G (R300). -/
def growOf (imax pmax : Nat) : Nat :=
  if imax = 0 then (if pmax = 0 then 0 else ff32.infCode false)
  else (ff32.div .rup (ff32.read pmax) (ff32.read imax)).1

/-- The GROW word. -/
def growWord (imax g : Nat) : Word := BitVec.ofNat 64 (imax * 2 ^ 32 + g)

/-- G before the first step (R300): 1.0 when IMAX is above +0; a resume leaves it as it stands. -/
def growStart (fresh : Bool) (imax : Nat) (grow : Word) : Nat :=
  if fresh then (if imax = 0 then 0 else 0x3F800000) else wbits grow 31 0

/-- The FPROG word (R299). -/
def fprogWord (pmax op state next : Nat) : Word := BitVec.ofNat 64 (pmax * 2 ^ 32 + op * 2 ^ 26 + state * 2 ^ 16 + next)

/-- A step commits: PMAX rises by what the step wrote. -/
def Fac.settle (ff : FF) (f : Fac) : Fac := { f with pmax := f.wrote.foldl (growMax ff) f.pmax, wrote := [] }

/-- The steps from `s` on: at most `fuel` of them. What is left, the next step, and the fault of it.
(DEDUCED: log 34; DEDUCED: log 112.) -/
def runSteps (ff : FF) (step : Fac → Nat → StepEnd) (s fuel : Nat) (f : Fac) : Fac × Nat × Option (Cause × Nat) :=
  match fuel with
  | 0 => (f, s, none)
  | k + 1 =>
    match step f s with
    | .fault c x fl => ({ f with flags := fl }, s, some (c, x))
    | .commit g => runSteps ff step (s + 1) k (g.settle ff)

/-! ## The thread (R298, R302, R308, R309) -/

/-- Opcode of a factorisation (R296). -/
def factOp (i : Instr) : Nat :=
  match i with
  | .lup _ => 0x18 | .chol _ => 0x19 | .qrh _ => 0x1A | .trsm _ => 0x1B | _ => 0x1C

/-- Steps of a factorisation (R297). -/
def factSteps (i : Instr) (x : XArgs) (w : ShapeW) : Nat :=
  match i with
  | .lup _ | .qrh _ => min w.m w.n
  | .chol _ => w.m
  | _ => if x.var.val % 2 = 1 then w.n else w.m

/-- Referenced elements of the triangle (R306). -/
def triRefs (v : TriVar) (t : Tile) (n : Nat) : List Nat :=
  (List.range n).flatMap (fun r => (List.range n).filterMap (fun c =>
    if (if v.upper then decide (r ≤ c) else decide (c ≤ r)) && !(v.unit && r == c) then some (tileAt t r c) else none))

/-- A factorisation of `n` steps that FPROG turns away before anything is read: a held position, or a resume of another form or past
the last step (R302). -/
def factTurned (fp : Word) (i : Instr) (n : Nat) : Bool :=
  decide (2 ≤ wbits fp 17 16) || (wbits fp 17 16 == 1 && (wbits fp 31 26 != factOp i || decide (n ≤ wbits fp 8 0)))

/-- What a factorisation thread leaves, when it stops after `bound` steps; and whether it stopped before its last. CHOL writes its lower
triangle alone (R304). -/
def runFactor (c : Core) (t : Thread) (entry : Word) (bound : Nat) : XOut × EngRes × Bool :=
  let none' : EngRes := ⟨[], [], none, none, c.arch.fstat, none, [], 0, none⟩
  match xArgs t.ins with
  | none => (XOut.empty, none', false)
  | some x =>
    let w := shapeW t.sh
    let ff := match x.fa with | .fp64 => ff64 | _ => ff32
    let v := triVar x.var.val
    let n := factSteps t.ins x w
    let isTri := match t.ins with | .trsm _ | .trmm _ => true | _ => false
    let op := factOp t.ins
    let fp := c.arch.fprog
    let state := wbits fp 17 16
    let next := wbits fp 8 0
    if factTurned fp t.ins n then
      (XOut.empty, { none' with flt := some (plainFault Cause.operandForm t.pc entry) }, false)
    else
      let a := c.window x.od w.zrow w.zcol w.m w.n
      let tr := if isTri then c.window x.oa (w.ext % 256) (w.ext / 256) n n else []
      let reads := match t.ins with
        | .chol _ => (List.range w.m).flatMap (fun i => (a.getD i []).take (i + 1))
        | _ => a.flatten ++ (if isTri then triRefs v tr n else [])
      let fresh := state = 0
      let imax := if fresh then reads.foldl (growMax ff) 0 else wbits c.arch.grow 63 32
      let perm := c.arch.perm.toList
      let f0 : Fac :=
        { a := a, tau := [], fstat := c.arch.fstat, imax := imax, pmax := if fresh then imax else wbits fp 63 32, flags := 0,
          wrote := [],
          perm := if fresh && op == 0x18 then perm.mapIdx (fun i b => if i < w.m then BitVec.ofNat 8 i else b) else perm }
      let step : Fac → Nat → StepEnd := match t.ins with
        | .lup _ => stepLup ff w.m w.n t.pivt t.zpol
        | .chol _ => stepChol ff w.m
        | .qrh _ => stepQrh ff w.m w.n
        | .trsm _ => stepTrsm ff v tr n (if v.right then w.m else w.n)
        | _ => stepTrmm ff v tr n (if v.right then w.m else w.n)
      let first := if fresh then 0 else next
      let r := runSteps ff step first (min bound (n - first)) f0
      let f := r.1
      let out := match t.ins with
        | .chol _ => (f.a.mapIdx (fun i row => (i, row.take (i + 1)))).foldl (fun o r => o.write c x.od t.od .fp32 (w.zrow + r.1) w.zcol [r.2]) XOut.empty
        | _ => XOut.empty.write c x.od t.od .fp32 w.zrow w.zcol f.a
      let out := f.tau.foldl (fun o p => o.writeT x.aux.val ((ff.eb + ff.fb + 1) / 8 * p.1)
        (leBytes ((ff.eb + ff.fb + 1) / 8) p.2)) out
      let word := match r.2.2 with
        | some _ => fprogWord f.pmax op 2 r.2.1
        | none => if r.2.1 < n then fprogWord f.pmax op 1 r.2.1 else 0
      (out,
       { pool := out.pool, side := [], zkind := none, fprog := some word, fstat := f.fstat,
         grow := some (growWord f.imax (if r.2.1 = first then growStart fresh imax c.arch.grow else growOf f.imax f.pmax)), perm := f.perm.mapIdx (fun i b => (i, b)), flags := f.flags,
         flt := r.2.2.map (fun e => ⟨e.1, BitVec.ofNat 64 e.2, engInfo e.1 (t.pc - entry).toNat⟩) },
       r.2.2.isNone && decide (r.2.1 < n))

end Sys2Proof.Machine
end

