-- ==== Sys2Proof/Machine/Perform.lean ====
section
/-! DEFINITION. Accesses in flight: what orders them (R87 to R96, R105), and the events that perform them (R101, R102,
R107, R159). -/

namespace Sys2Proof.Machine

/-! ## Loads and atomics -/

/-- The scope of a part: SYS in another package, its page's on a SEQ page, at least CLUS in a peer's scratchpad (R88, R105,
R368). -/
def effScope (o : OrdF) (p : Part) (clus : Bool) : Scope :=
  if isRemote p.pa then .sys
  else match p.seq with
    | some c => c
    | none => if clus && o.scope == .core then .clus else o.scope

/-- The L1 may serve or keep the line (R107). (DEDUCED: log 65.) -/
def mayL1 (o : OrdF) (p : Part) : Bool := p.cached && (p.loose || effScope o p false == .core)

/-- The L1 serves scalar loads (R27). -/
def LoadDest.scalar (d : LoadDest) : Bool := match d with | .s _ | .seql .. => true | _ => false

/-- The L1 serves a part of a load of the core in focus: of a scalar load alone (R27, R107).
(DESIGN CHOICE: log 2; DEDUCED: log 65; DESIGN CHOICE: log 118.) -/
def State.l1Serves (s : State) (l : PLoad) (p : Part) : Bool :=
  l.dest.scalar && mayL1 l.ord p && (assoc s.core.l1 (p.pa / 128)).isSome && Config.freeBool s.fresh l.uid

/-- The line of a part as the core in focus read it ahead, where a load may take it. (DESIGN CHOICE: log 11.) -/
def State.aheadLine (s : State) (l : PLoad) (p : Part) : Option (List Byte) :=
  match l.dest with
  | .atom .. | .none => none
  | _ => s.core.aheadOf l.uid l.ord p

/-- The bytes of a part as a load of the core in focus reads them: own stores first, then what was read ahead, then the L1 where it
serves them, then memory (R89, R93, R107). (DEDUCED: log 65.) -/
def State.loadBytes (s : State) (l : PLoad) (p : Part) : List Byte :=
  match (s.aheadLine l p).or (if s.l1Serves l p then some ((assoc s.core.l1 (p.pa / 128)).getD []) else none) with
  | some bs =>
    (List.range p.n).map (fun i => (storeByte (s.core.ownStores l.uid) (p.pa + i)).getD (bs.getD (p.pa + i - 128 * (p.pa / 128)) 0))
  | none => s.readParts s.core l.uid [p]

/-- A core reads the line at a physical address ahead of its program: a later load may take it while nothing that the load follows has
been outstanding since (R93). (DESIGN CHOICE: log 11.) -/
def State.lookAhead (s : State) (pa : Nat) : State :=
  let line := pa / 128
  match s.region pa with
  | .dram _ _ =>
    if s.core.task.isNone || s.noRoute s.core pa || s.isPoison (128 * line) 128 then s
    else
      let c := s.core
      let open' (k : Nat) : List Nat :=
        (c.loads.filter (fun l => l.ord.stream.val == k)).map PLoad.uid ++
        (c.pending'.filter (fun p => p.ord.stream.val == k)).map PStore.uid ++
        (c.threads.filter (fun t => t.ord.stream.val == k)).map Thread.id
      let a : Ahead := ⟨line, s.physBytes (128 * line) 128, Vector.ofFn (fun k => (open' k.val).min?)⟩
      s.onC (fun c => { c with ahead := a :: c.ahead.filter (fun x => x.line ≠ line) })
  | _ => s

/-- Lines of the L1 (R27): 64 KiB. -/
def l1Lines : Nat := 512

/-- A line comes into the L1; the oldest goes when it is full. -/
def Core.l1Put (c : Core) (line : Nat) (bs : List Byte) : Core :=
  { c.l1Drop line with l1 := (bindTo c.l1 line bs).take l1Lines }

/-- The L1 after a part of a load has been read at its home: it takes the line where it may hold it, and otherwise holds no older
copy (R92, R107). A prefetch brings a line in at CORE scope from a cached page, and may leave it out (R258).
(DESIGN CHOICE: log 2; DEDUCED: log 65.) -/
def State.fillL1 (s : State) (l : PLoad) (p : Part) : State :=
  let keep : Bool := match l.dest with
    | .none => p.cached && effScope l.ord p false == .core && !Config.freeBool s.fresh 1
    | d => d.scalar && mayL1 l.ord p
  let line := p.pa / 128
  if (s.aheadLine l p).isSome then
    s.onC (fun c => { c with l1 := unbind c.l1 line, badL1 := c.badL1.filter (fun k => k ≠ line) })
  else if s.l1Serves l p then s.onC (fun c => { c with ahead := c.ahead.filter (fun a => a.line ≠ line) })
  else if keep && !s.isPoison (128 * line) 128 then s.onC (fun c => c.l1Put line (s.physBytes (128 * line) 128))
  else s.onC (fun c => c.l1Drop line)

/-- What a part of a load would read is poisoned (R197). -/
def State.partBad (s : State) (l : PLoad) (p : Part) : Bool :=
  storeBad (s.core.ownStores l.uid) p.pa p.n ||
  ((s.aheadLine l p).isNone && (if s.l1Serves l p then s.core.badL1.contains (p.pa / 128) else s.isPoison p.pa p.n))

/-- A returned value is written to its register (R250, R252, R255, R331): also to the shadow once the load's interval has
committed. -/
def Core.land (c : Core) (l : PLoad) (bs : List Byte) : Core :=
  let put (f : Arch → Arch) : Core := if l.committed then c.both f else { c with arch := f c.arch }
  match l.dest with
  | .s d => put (fun a => a.ws d (BitVec.ofNat 64 (leVal bs)))
  | .t d _ => c.putRuns [(d.val * Config.tBytes, bs)]
  | .seql d sh => put (fun a => { a.ws d (BitVec.ofNat 64 (leVal bs)) with seql := BitVec.ofNat 64 (ceilShift (leVal bs) sh) })
  | .atom op v e => c.both (fun a => a.landAtomic op (leVal bs) v.toNat e.toNat)
  | .none => c

/-- A load leaves the list; its value lands unless a rollback dropped it (R101, R178). -/
def Core.endLoad (c : Core) (l : PLoad) (bs : List Byte) : Core :=
  let c := { c with loads := c.loads.filter (fun x => x.uid ≠ l.uid) }
  if l.dropped then c else c.land l bs

/-- Consuming poisoned data stops the context; while TLOCK is 1 it is a double trap (R184, R197). (DEDUCED: log 24.) -/
def State.poisoned (s : State) (va : Word) : State := s.fatalTrap Cause.dataPoison 0x02 s.core.ckpt.pc va 0

/-- One part of a load of the core in focus returns. (DEDUCED: log 59.) -/
def State.loadPart (s : State) (l : PLoad) (p : Part) (r : List Part) : State :=
  let got := l.got ++ s.loadBytes l p
  let s := ((s.fillL1 l p).tookFar l.uid p).onC (fun c => if p.ends then c.cntDown l.ord.stream 1 else c)
  if r = [] then s.onC (fun c => c.endLoad l got)
  else s.onC (fun c => { c with loads := c.loads.map (fun x => if x.uid = l.uid then { x with parts := r, got := got } else x) })

/-- A memory barrier's word has taken the value `w`: at a multiple of MBARN its epoch completes, and the Troy tags of the
launch are cleared (R112, R154). With MBARN = 0 no epoch completes.
(DEDUCED: log 86; DESIGN CHOICE: log 104; DESIGN CHOICE: log 119.) -/
def State.memEpoch (s : State) (pa w : Nat) : State :=
  let hit (l : Launch) : Bool :=
    l.lr.mbar != 0 && l.lr.mbarn != 0 && w % l.lr.mbarn == 0 &&
    (match s.translate l.lr.asid l.lr.mbar.toNat .read with | .ok p => p.pa == pa | .error _ => false)
  { s with tags := s.tags.filter (fun t => !(s.launches.any (fun l => l.id == t.1 && hit l))) }

/-- An atomic of the core in focus is performed at the home of its location, never in the L1 (R255). -/
def State.atomPart (s : State) (l : PLoad) (p : Part) (op : Instr) (v e : Word) : State :=
  let old := s.physBytes p.pa p.n
  let s := match (atomicValue op p.n (leVal old) v.toNat e.toNat).1 with
    | some w => (s.writePhys s.core.id none p.pa (leBytes p.n w)).memEpoch p.pa w
    | none => s
  (s.tookFar l.uid p).onC (fun c => ((c.l1Drop (p.pa / 128)).cntDown l.ord.stream 1).endLoad l old)

/-- The record of a walk of the core in focus that no route leads on: of the page of an address, or of the next page where an access
reaches it (R367). -/
def State.walkRecord (s : State) (va : Word) : State :=
  match s.window s.core va 1 with
  | .ok (.mem a) =>
    (match (s.walkLost (s.asidOf s.core) a).or (s.walkLost (s.asidOf s.core) (a + 127)) with
     | some pa => s.routeError va pa
     | none => s)
  | _ => s

/-- A load whose data are lost with the route: what would consume them stops the context, a prefetch is dropped. -/
def State.lostLoad (s : State) (l : PLoad) (pa : Nat) : State :=
  let s := s.routeError l.va pa
  if l.dropped || l.dest == .none then
    s.onC (fun c => ({ c with loads := c.loads.filter (fun x => x.uid ≠ l.uid) } : Core).cntDown l.ord.stream l.count)
  else s.poisoned l.va

/-- A load or atomic has still to ask another package for a part, or to wait for it (R368). A prefetch brings nothing from there, and
what a rollback dropped needs nothing. -/
def State.farWaits (s : State) (l : PLoad) (p : Part) : Bool :=
  !l.dropped && l.dest != .none && s.farMissing l.uid [p] != []

/-- LOAD_RETURN: the next part of a load or atomic of the core in focus returns; after the last, its value is written and
its counter falls (R101). What lies in another package is asked for first (R368). (DEDUCED: log 24.) -/
def execLoadReturn (uid : Nat) (s : State) : Out :=
  match s.core.loads.find? (fun l => l.uid == uid) with
  | none => .next s
  | some l =>
    match l.parts with
    | [] => .next (s.onC (fun c => (c.cntDown l.ord.stream 1).endLoad l l.got))
    | p :: r =>
      if s.core.loadBlocked l p then .next s
      else if s.noRoute s.core p.pa && !s.l1Serves l p && (s.aheadLine l p).isNone then .next (s.lostLoad l p.pa)
      else if s.farWaits l p then .next (s.askFar l.uid (s.farMissing l.uid [p]))
      else if !l.dropped && s.partBad l p && l.dest != .none then .next (s.poisoned l.va)
      else match l.dest with
        | .atom op v e => .next (s.atomPart l p op v e)
        | _ => .next (s.loadPart l p r)

/-! ## Stores -/

/-- The launch and task that Troy tags name for a plain store of core `c` (R112). -/
def State.troyOf (s : State) (c : Core) : Option (Nat × Nat) :=
  match s.launchOf c, c.task with
  | some l, some t => if l.lr.troy then some (l.id, t.index) else none
  | _, _ => none

/-- A part of store `uid` of the core in focus is performed; with no route left to its home its sector is poisoned, and so it is where
the store moves poisoned data (R112, R197, R367). -/
def State.storeAt (s : State) (uid : Nat) (va : Word) (bad : Bool) (p : Part) (bs : List Byte) : State :=
  if s.noRoute s.core p.pa then { s.routeError va p.pa with poison := p.pa / 32 :: s.poison }
  else if isRemote p.pa then (s.writeFar p.pa bs bad).patchFar uid p.pa bs
  else
    let s := s.writePhys s.core.id (s.troyOf s.core) p.pa bs
    if bad then { s with poison := p.pa / 32 :: s.poison } else s

/-- A store leaves the list, or goes on with its next part. -/
def Core.nextStore (c : Core) (y : PStore) (r : List Part) (bs : List Byte) : Core :=
  if r = [] then { c with stores := c.stores.filter (fun x => x.uid ≠ y.uid) }
  else { c with stores := c.stores.map (fun x => if x.uid = y.uid then { x with parts := r, bytes := bs } else x) }

/-- STORE_PERFORMED: the next part of a store of the core in focus is performed, in memory or in its own scratchpad, and its
counter falls (R90, R101). (DEDUCED: log 59; DEDUCED: log 84.) -/
def execStorePerformed (uid : Nat) (s : State) : Out :=
  match s.core.stores.find? (fun y => y.uid == uid) with
  | none => .next s
  | some y =>
    if y.clus.isSome then .next s
    else match y.parts with
      | [] =>
        (match y.scratch with
         | some off => if s.core.storeBlocked y peerPart then .next s
             else .next (s.onC (fun c => ((c.cntDown y.ord.stream 1).landStore off y).nextStore y [] []))
         | none => .next (s.onC (fun c => (c.cntDown y.ord.stream 1).nextStore y [] [])))
      | p :: r =>
        if s.core.storeBlocked y p || s.farBusy y.uid p then .next s
        else
          let s := s.storeAt y.uid y.va (y.bad.contains (p.pa / 32)) p (y.bytes.take p.n)
          .next (s.onC (fun c => (if p.ends then c.cntDown y.ord.stream 1 else c).nextStore y r (y.bytes.drop p.n)))

/-- GATED_STORE_RELEASE: the first store held back leaves the gate once its counter allows (R102). (DEDUCED: log 21.) -/
def execGatedStoreRelease (s : State) : Out :=
  match s.core.held with
  | [] => .next s
  | y :: r =>
    if Config.cntMax < s.core.cnt[y.ord.stream.val] + y.count then .next s
    else .next (s.onC (fun c => { c with held := r, stores := c.stores ++ [y] }.cntUp y.ord.stream y.count))

/-! ## Stores to a peer's scratchpad (R159) -/

/-- The peer at a position of the cluster still holds a task of the context that an accepted access was checked against, whatever it is
asked for since: it keeps the task until the access is complete (R159). -/
def State.peerHolds (s : State) (c : Core) (pos : Nat) : Bool :=
  let q := s.coreAt (c.peer pos)
  q.task.map Task.launch == c.task.map Task.launch && q.status != .stopped

/-- CLUS_ACCESS_ARRIVE: a store of the core in focus, which its peer's bank has accepted, takes effect there. One whose peer a fatal
fault has stopped since has none. (DEDUCED: log 58; DEDUCED: log 97.) -/
def execClusAccessArrive (uid : Nat) (s : State) : Out :=
  match s.core.stores.find? (fun y => y.uid == uid) with
  | none => .next s
  | some y =>
    match y.clus with
    | none => .next s
    | some (pos, off) =>
      if s.core.storeBlocked y peerPart then .next s
      else
        let put (q : Core) : Core := if s.peerHolds s.core pos then q.landStore off y else q
        .next ((s.onCore (s.core.peer pos) put).onC (fun c =>
          { c with stores := c.stores.map (fun x => if x.uid = uid then { x with clus := none } else x) }))

end Sys2Proof.Machine
end

