-- ==== Sys2Proof/Machine/Engine.lean ====
section
/-! DEFINITION. The engine threads at work (R4, R5, R97, R185, R260 to R271, R274): how a thread begins, reads and lands its
sectors, meets a fault, and completes. -/

namespace Sys2Proof.Machine

/-! ## Sectors -/

/-- A byte to be written: its address or offset, its value, and whether its data are poisoned (R197). -/
structure WByte where
  at' : Nat
  val : Byte
  bad : Bool
  deriving DecidableEq, Repr

/-- Bytes to be written from address `a` on. -/
def wbytes (a : Nat) (bad : Bool) (bs : List Byte) : List WByte := bs.mapIdx (fun i b => ⟨a + i, b, bad⟩)

/-- The destination sectors of some bytes, in ascending address; of two bytes at one address the later stays (R264). -/
def sectorJobs (mk : Nat → JobDest) (ws : List WByte) : List Job :=
  (sortUp (ws.map (fun w => w.at' / 32))).map (fun k =>
    let mine := ws.filter (fun w => w.at' / 32 == k)
    ⟨mk (32 * k), mine.map (fun w => (w.at' % 32, w.val)), [], mine.any WByte.bad⟩)

/-- The own scratchpad line a sector lies in. -/
def Job.line (j : Job) : Option Nat :=
  match j.dest with
  | .scratch off => some (off / 128)
  | .addr va => if wbits va 63 56 = 0xF8 then some (wbits va 31 0 / 128) else none

/-- Marks the last sector of each line; `full l` says that the thread writes the whole of line `l` (R31). -/
def markEnds (full : Nat → Bool) (js : List Job) : List Job :=
  (js.foldr (fun j (acc : List Job × List Nat) =>
    match j.line with
    | some l => if acc.2.contains l then (j :: acc.1, acc.2) else ({ j with ends := [(l, full l)] } :: acc.1, l :: acc.2)
    | none => (j :: acc.1, acc.2)) ([], [])).1

/-- The bytes of a job by their place, the later of two at one place, cut into runs. -/
def sectorRuns (bs : List (Nat × Byte)) : List (Nat × List Byte) :=
  ((List.range 32).filterMap (fun o => ((bs.filter (fun b => b.1 == o)).getLast?).map (fun b => (o, b.2)))).foldr
    (fun b acc => match acc with
      | (o, r) :: t => if b.1 + 1 = o then (b.1, b.2 :: r) :: t else (b.1, [b.2]) :: (o, r) :: t
      | [] => [(b.1, [b.2])]) []

/-! ## Threads -/

/-- An X-slot thread. -/
def Thread.isX (t : Thread) : Bool := (xArgs t.ins).isSome

/-- Changes a thread of a core. -/
def Core.onThread (c : Core) (id : Nat) (f : Thread → Thread) : Core :=
  { c with threads := c.threads.map (fun t => if t.id = id then f t else t) }

/-- The ENTRY of the launch of the core in focus. -/
def State.entryPc (s : State) : Word :=
  match s.launchOf s.core with
  | some l => l.lr.entry
  | none => 0

/-- The thread reads the own scratchpad as a C-slot thread (R90, R260). -/
def Thread.readsPool (t : Thread) : Bool :=
  match cArgs t.ins with
  | some c => c.sk || wbits t.oa.1 63 56 == 0xF8
  | none => false

/-- A C-slot thread that has still to read from its source (R328). -/
def Thread.reading (t : Thread) : Bool := (cArgs t.ins).isSome && (t.res.isNone || t.met.isSome)

/-- The thread as it reads. -/
def Thread.reader (t : Thread) : Reader := ⟨t.id, some t.ord⟩

/-- Some earlier access of the core that a thread of no reads follows is still to be performed (R91, R93). -/
def Core.forkBlocked (c : Core) (t : Thread) : Bool := c.readBlocked t.reader peerPart

/-- A thread's write to a part must wait for an earlier access of its core (R92, R93, R96); `pad` when it goes to the own
scratchpad. (DEDUCED: log 114.) -/
def Core.landBlocked (c : Core) (t : Thread) (p : Part) (pad : Bool) : Bool :=
  c.afterThread t.id t.ord p || c.ordLoads.any (fun l => decide (l.uid < t.id)) ||
  (c.stores ++ c.held).any (fun y => decide (y.uid < t.id) &&
    (y.rest.any (fun q => q.meets p || edge y.ord q t.ord p) || (pad && y.scratch.isSome)))

/-! ## Lines of a thread -/

/-- Poisons the lines a thread has not landed (R31, R260). -/
def Core.poisonLines (c : Core) (ls : List Nat) (ix : Nat) : Core := ls.foldl (fun c l => c.poisonLine l ix) c

/-- Lines that a thread's remaining sectors lie in. -/
def Thread.openLines (t : Thread) : List Nat := (t.jobs.filterMap Job.line).eraseDups

/-- Lines of a copy's destination pair, before it has begun (R260). -/
def Thread.pairLines (t : Thread) : List Nat :=
  match cArgs t.ins, t.shape with
  | some c, some h =>
    if c.dk && !h.nothing then
      let n := if isGather t.ins then wbits t.cr.2.1 31 0 else 1
      (((List.range (min n 65536)).flatMap h.elems).flatMap (fun e =>
        rangeLines ((pairOf t.od).elemAt h e) h.unit)).eraseDups
    else []
  | _, _ => []

/-! ## Sectors of a copy (R264) -/

/-- The destination sectors of a copy, box by box (R264). -/
def copyOut (t : Thread) (h : Shape) (c : CArgs) (els : List CEl) (vals : List (Nat × Bool)) : List Job :=
  let xs := List.zip els vals
  let boxes := (sortUp (els.map CEl.box))
  let one (i : Nat) : List Job :=
    let mine := xs.filter (fun x => x.1.box == i)
    if c.dk then
      sectorJobs JobDest.scratch (mine.flatMap (fun x => wbytes ((pairOf t.od).elemAt h x.1.el) x.2.2 (leBytes h.unit x.2.1)))
    else
      sectorJobs (fun a => JobDest.addr (BitVec.ofNat 64 a)) (mine.flatMap (fun x => match x.1.off with
        | none => []
        | some o => wbytes (t.od.1 + o).toNat x.2.2 (leBytes h.unit x.2.1)))
  markEnds (fun _ => true) (boxes.flatMap one)

/-- Of a copy's sectors, how many come before the first that holds an element not read yet: `n` elements are (R185).
(DEDUCED: log 30.) -/
def readySectors (t : Thread) (h : Shape) (c : CArgs) (els : List CEl) (n : Nat) : Nat :=
  ((copyOut t h c els ((List.range els.length).map (fun i => (0, decide (n ≤ i))))).takeWhile (fun j => !j.bad)).length

/-! ## Faults of a thread (R165, R181, R185) -/

/-- Scratchpad lines of the issuing core that a C-slot thread has still to write (R31, R260). -/
def State.leftLines (s : State) (t : Thread) : List Nat :=
  match cArgs t.ins, t.shape with
  | some c, some h =>
    (match s.copyEls ⟨t.id, none⟩ t.ins c t.cr h with
     | .error _ => t.pairLines
     | .ok els => (((copyOut t h c els (els.map (fun _ => (0, false)))).drop t.landed).filterMap Job.line).eraseDups)
  | _, _ => []

/-- The physical address that an address of the core in focus leads to; 0 where it leads to none. -/
def State.physAt (s : State) (va : Word) (k : Acc) : Nat :=
  match s.window s.core va 1 with
  | .ok (.mem a) => (match s.translate (s.asidOf s.core) a k with | .ok p => p.pa | .error _ => 0)
  | _ => 0

/-- A thread of the core in focus meets a fault of kind E, F or H: it performs nothing more and its lines that it has not
landed become POISONED; a fatal cause sends its record and stops the context (R185). -/
def State.threadFault (s : State) (t : Thread) (cause : Cause) (va : Option Word) : State :=
  let f : EngFault := ⟨cause, va.getD t.pc, engInfo cause (t.pc - s.entryPc).toNat⟩
  let ls := if t.jobs ≠ [] && t.met.isNone then t.openLines else s.leftLines t
  let res : EngRes := { pool := [], side := [], zkind := none, fprog := none, fstat := 0, grow := none, perm := [],
                        flags := match t.res with | some r => r.flags | none => 0, flt := some f }
  let s := s.onC (fun c =>
    (c.poisonLines ls t.recIx).onThread t.id (fun x => { x with phase := .running, jobs := [], met := none, res := some res }))
  let info := engInfo 0 (t.pc - s.entryPc).toNat
  if isFatal cause then (if cause = Cause.dataPoison then s.walkRecord f.taddr else s).fatal cause 0 0 t.pc f.taddr info 0
  else if cause = Cause.memUe then
    let unit := s.lostLink (dieOf s.core.id) (s.physAt f.taddr .read)
    (s.sendFatal s.core (s.coreRec s.core 0x02 cause 0 0 t.pc f.taddr info (BitVec.ofNat 64 unit) 0)).stopCtx s.core.ctx
  else s

/-- A thread of the core in focus meets a translation fault: it sends a replay record and waits, or waits for room
(R165, R171, R188). (DEDUCED: log 35.) -/
def State.threadReplay (s : State) (t : Thread) (cause : Cause) (va : Word) : State :=
  if replayCap ≤ (s.ctxQ s.core.ctx).replay.count then
    s.onC (fun c => c.onThread t.id (fun x => { x with phase := .waitRoom cause va }))
  else
    let (k, s) := s.takeTicket (dieOf s.core.id)
    let r := s.coreRec s.core 0x03 cause 0 0 t.pc va (engInfo 0 (t.pc - s.entryPc).toNat) 0 k
    (s.onCtxQ s.core.ctx (fun q => { q with replay := q.replay.push replayCap r })).onC (fun c =>
      c.onThread t.id (fun x => { x with phase := .replay k cause va }))

/-- A fault of a thread, by its kind (R185). -/
def State.threadMeets (s : State) (t : Thread) (cause : Cause) (va : Option Word) : State :=
  match va with
  | some a => if isReplayable cause then s.threadReplay t cause a else s.threadFault t cause va
  | none => s.threadFault t cause none

/-! ## Values -/

/-- The value of an element: the code of its bytes and whether they are poisoned; an element out of bounds is an all-zero
encoding (R41). -/
def State.readEl (s : State) (t : Thread) (h : Shape) (c : CArgs) (e : CEl) : Except EngStop (Nat × Bool) :=
  match e.off with
  | none => .ok (0, false)
  | some o =>
    if c.sk then
      if s.core.padBlocked t.reader ((pairOf t.oa).elemAt h e.el) h.unit then .error .wait
      else
        let a := s.core.scratchBase + (pairOf t.oa).elemAt h e.el
        .ok (leVal (s.core.pool.bytes a h.unit), s.core.runsBad [(a, h.unit)])
    else match s.engRead t.reader (t.oa.1 + o) h.unit with
      | .error x => .error x
      | .ok r => .ok (leVal r.1, r.2)

/-- The values of elements in stream order, up to the first that cannot be read, with what stops it there; `arith` when poisoned
data would go into arithmetic (R164, R185, R197). (DEDUCED: log 30.) -/
def State.copyVals (s : State) (t : Thread) (h : Shape) (c : CArgs) (arith : Bool) (els : List CEl) :
    List (Nat × Bool) × Option EngStop :=
  match els with
  | [] => ([], none)
  | e :: r =>
    match s.readEl t h c e with
    | .error x => ([], some x)
    | .ok v =>
      if arith && v.2 then ([], some (.fault Cause.dataPoison (e.off.map (fun o => t.oa.1 + o))))
      else
        let q := s.copyVals t h c arith r
        (v :: q.1, q.2)

/-- The values after port K, with the flags and the element faults (R263, R314, R316). -/
def portK (t : Thread) (h : Shape) (els : List CEl) (vals : List Nat) : List Nat × Flags × List PFault :=
  match t.pk.prog with
  | none => (vals, 0, [])
  | some _ =>
    let e : Elt := .fmt h.fmt
    let ins := List.zipWith (fun (x : CEl) v => (x.el.plane * h.bx 1 + x.el.at 1, x.el.at 0, e.entry v)) els vals
    let lanes := (List.range 256).map (fun lane => (ins.filter (fun x => x.1 % 256 == lane)).map (fun x =>
      (⟨[x.1, x.2.1], x.1, x.2.1, x.2.1 == 0, x.2.2.1⟩ : PElem)))
    let r := runPort e.lane t.pk lanes
    let out := ins.map (fun x =>
      let v := (r.outs.getD (x.1 % 256) []).find? (fun y => y.1.row == x.1 && y.1.col == x.2.1)
      e.exit .rne .sat e.lane (v.elim 0 Prod.snd))
    (out.map Conv.code, r.flags ||| orFlags (ins.map (fun x => x.2.2.2)) ||| orFlags (out.map Conv.flags), r.faults)

/-- What a C-slot thread has read: its sectors, flags, and element faults. -/
def cRes (t : Thread) (fl : Flags) (fs : List PFault) : EngRes :=
  { pool := [], side := [], zkind := none, fprog := none, fstat := 0, grow := none, perm := [], flags := fl,
    flt := portsFault t.pc [(3, t.pk.slot, fs)] }

/-- Starts a thread of the core in focus on its sectors. -/
def State.begin (s : State) (t : Thread) (js : List Job) (r : EngRes) : State :=
  s.onC (fun c => c.onThread t.id (fun x => { x with phase := .running, jobs := js, res := some r }))

/-! ## Copies and MBOX -/

/-- MBOX reads its 64 bytes; the destination must be a registered mailbox, which only another package can tell for one
of its own (R268). (DEDUCED: log 39.) -/
def State.startMbox (s : State) (t : Thread) (c : CArgs) : State :=
  let rd : Except EngStop (List Byte × Bool) :=
    if c.sk then
      let rs := (pairOf t.oa).rowRuns .int8 64 0
      if rs.any (fun r => s.core.padBlocked t.reader r.1 r.2) then .error .wait
      else
        let ps := rs.map (fun r => (s.core.scratchBase + r.1, r.2))
        .ok (s.core.runsBytes ps, s.core.runsBad ps)
    else s.engRead t.reader t.oa.1 64
  match rd with
  | .error .wait => s
  | .error (.far ks) => s.askFar t.id ks
  | .error (.fault e va) => s.threadMeets t e va
  | .ok bs =>
    match s.window s.core t.od.1 64 with
    | .ok (.mem a) =>
      (match s.translate (s.asidOf s.core) a .write with
       | .error e => s.threadMeets t e (some t.od.1)
       | .ok p =>
         if s.mboxes.any (fun m => m.pa == p.pa) || s.region p.pa == .remote then
           (if c.sk then s else s.noteAcc t.oa.1 64 .read).begin t
             (sectorJobs (fun a => JobDest.addr (BitVec.ofNat 64 a)) (wbytes t.od.1.toNat bs.2 bs.1)) (cRes t 0 [])
         else s.threadMeets t Cause.operandForm none)
    | .ok _ => s.threadMeets t Cause.operandForm none
    | .error e => s.threadMeets t e (some t.od.1)

/-- The translations that a copy's memory side used are recorded, page by page (R166). -/
def State.noteSide (s : State) (base : Word) (els : List CEl) (k : Acc) : State :=
  (pageAddrs base els).foldl (fun (s : State) a => s.noteAcc a 1 k) s

/-- The translations that the tables of a copy used are recorded, page by page (R166). -/
def State.noteTables (s : State) (t : Thread) (c : CArgs) (h : Shape) : State :=
  (onePerPage (s.tableWords ⟨t.id, none⟩ t.ins c t.cr h)).foldl (fun (s : State) a => s.noteAcc a 4 .read) s

/-- COPY, GATHER and SCATTER read their sources, pass port K, and begin on the sectors that what they have read completes. A read
that faults stops the thread when those have landed (R185). (DEDUCED: log 30.) -/
def State.startCopy (s : State) (t : Thread) (h : Shape) (c : CArgs) : State :=
  if h.fmt.isBfp && t.pk.prog.isSome then s.threadMeets t Cause.operandForm none
  else match s.copyEls t.reader t.ins c t.cr h with
    | .error .wait => s
    | .error (.far ks) => s.askFar t.id ks
    | .error (.fault e va) => s.threadMeets t e va
    | .ok els =>
      let q := s.copyVals t h c t.pk.prog.isSome (els.drop t.vals.length)
      let go (met : Option (Cause × Option Word)) : State :=
        let vs := t.vals ++ q.1
        let k := portK t h els (vs.map Prod.fst)
        let out := copyOut t h c els (List.zip k.1 (vs.map Prod.snd) ++ List.replicate (els.length - vs.length) (0, false))
        let n := if met.isSome then readySectors t h c els vs.length else out.length
        let s := (if c.sk then s else s.noteSide t.oa.1 els .read).noteTables t c h
        (s.begin t ((out.take n).drop t.landed) (cRes t k.2.1 k.2.2)).onC (fun k => k.onThread t.id (fun x =>
          { x with vals := vs, met := met }))
      match q.2 with
      | some .wait => s
      | some (.far ks) => s.askFar t.id ks
      | some (.fault e va) => go (some (e, va))
      | none => go none

/-! ## Collectives (R269 to R271) -/

/-- The collective of a thread of the core in focus: at CORE scope its task's own, at CLUS scope its cluster's (R269). -/
def State.collOf (s : State) (sc : Scope) (k : Nat) : Coll :=
  let cl := match sc with | .core => s.core.id | .clus => clusterOf s.core.id | _ => 0
  (s.colls.find? (fun x => x.launch == s.core.ctx && x.cluster == cl && x.scope == sc && x.k == k)).getD
    ⟨s.core.ctx, cl, sc, k, []⟩

/-- Replaces a collective, or drops it when `x` is none. -/
def State.setColl (s : State) (o : Coll) (x : Option Coll) : State :=
  let rest := s.colls.filter (fun y => !(y.launch == o.launch && y.cluster == o.cluster && y.scope == o.scope && y.k == o.k))
  { s with colls := match x with | some y => y :: rest | none => rest }

/-- Values, each with its poison, in sectors, one after the other as little-endian numbers of `unit` bytes. -/
def packSects (unit : Nat) (vals : List (Nat × Bool)) : List Sect :=
  let bs := vals.flatMap (fun v => (leBytes unit v.1).map (fun b => (b, v.2)))
  (chunks 32 ((bs.length + 31) / 32) bs).map (fun x => ⟨(x.map Prod.fst ++ List.replicate 32 0).take 32, x.any Prod.snd⟩)

/-- Sectors in flits of up to seven (R368). -/
def flitSects (xs : List Sect) : List (List Sect) := chunks 7 ((xs.length + 6) / 7) xs

/-- What a participant of the core in focus gives to a collective goes to the other packages, in reduce flits, or in broadcast flits of
a BCAST; which address of theirs they name the spec leaves open (R269 to R271, R368). -/
def State.sendColl (s : State) (sc : Scope) (i : Instr) (unit : Nat) (vals : List (Nat × Bool)) : State :=
  let kind := match i with | .bcast _ => 5 | _ => 4
  (s.otherPkgs sc).foldl (fun (s : State) p =>
    let pa := 8 * 2 ^ 48 + p * 2 ^ 40 + Config.freeNat s.fresh p % 2 ^ 35 * 32
    ((flitSects (packSects unit vals)).foldl (fun (a : State × Nat) x =>
      (a.1.sendFlit kind 0 a.2 (x.map (fun y => (y.bytes, y.bad))) x.length, a.2 + 224)) (s, pa)).1) s

/-- Joins a collective with what the task contributes: values, each with its poison, or the fault that poisons all of it. -/
def State.contribute (s : State) (t : Thread) (sc : Scope) (k : Nat) (h : Shape) (vals : List (Nat × Bool))
    (f : Option (Cause × Option Word)) : State :=
  let c := s.collOf sc k
  let p : CollPart := ⟨s.core.id, t.id, match s.core.task with | some x => x.index | none => 0, t.ins, h, vals.map Prod.fst,
    vals.map Prod.snd, f⟩
  ((s.sendColl sc t.ins h.unit vals).setColl c (some { c with parts := c.parts.filter (fun q => q.thread ≠ t.id) ++ [p] })).onC (fun q =>
    q.onThread t.id (fun x => { x with phase := .running }))

/-- A fault that poisons a participant's thread poisons every thread of the instance (R269). (DEDUCED: log 69.) -/
def State.collFault (s : State) (t : Thread) (sc : Scope) (k : Nat) (f : Cause × Option Word) : State :=
  match t.shape with
  | none => s
  | some h => s.contribute t sc k h [] (some f)

/-- A participant meets a fault: a translation fault delays the instance; any other poisons all of it (R269). -/
def State.collMeets (s : State) (t : Thread) (sc : Scope) (k : Nat) (c : Cause) (va : Option Word) : State :=
  if isReplayable c || isFatal c || c == Cause.memUe then s.threadMeets t c va else s.collFault t sc k (c, va)

/-- The threads of the instance of a collective that the thread of the core in focus belongs to, each with its core (R269). -/
def State.instThreads (s : State) (sc : Scope) (k : Nat) : List (Nat × Thread) :=
  let c := s.core
  let same (q : Core) : Bool := q.task.map Task.launch == c.task.map Task.launch && (match sc with
    | .core => q.id == c.id
    | .clus => clusterOf q.id == clusterOf c.id
    | _ => true)
  (s.cores.filter same).flatMap (fun q => (q.threads.filter (fun t => t.coll == some (sc, k))).map (fun t => (q.id, t)))

/-- A participant meets, at its sectors, a fault that is not replayable: every thread of the instance is poisoned with the cause
(R269). -/
def State.instFault (s : State) (t : Thread) (cause : Cause) (va : Option Word) : State :=
  match t.coll with
  | none => s.threadFault t cause va
  | some (sc, k) =>
    if isFatal cause || cause == Cause.memUe then s.threadFault t cause va
    else
      let home := s.core.id
      ((s.instThreads sc k).foldl (fun (s : State) x => (s.focus x.1).threadFault x.2 cause va) s).focus home

/-- A thread meets a fault at one of its sectors, by its kind (R185, R269). -/
def State.jobMeets (s : State) (t : Thread) (cause : Cause) (va : Word) : State :=
  if isReplayable cause then s.threadReplay t cause va else s.instFault t cause (some va)

/-- What keeps a source element from being read, found without reading it (R156, R164, R271). -/
def State.srcStop (s : State) (t : Thread) (h : Shape) (c : CArgs) (els : List CEl) : Option (Cause × Word) :=
  if c.sk then none
  else els.findSome? (fun e => e.off.bind (fun o =>
    let va := t.oa.1 + o
    if wbits va 63 56 = 0xF9 then some (Cause.windowBad, va)
    else match s.window s.core va h.unit with
      | .error x => some (x, va)
      | .ok (.clus _ _) => some (Cause.windowBad, va)
      | .ok (.scratch _) => none
      | .ok (.mem a) => (match s.partsAt (s.asidOf s.core) a h.unit .read with
          | .error x => some (x, va)
          | .ok _ => none)))

/-- The record of an address that the core in focus has no route to (R367). -/
def State.lostAt (s : State) (va : Word) (pa : Nat) : State := if s.noRoute s.core pa then s.routeError va pa else s

/-- What keeps a thread of the core in focus from reading the list of its group's packages (R197, R367, R368). -/
def State.listStop (s : State) (t : Thread) (sc : Scope) : Option EngStop :=
  match sc, s.groupOf with
  | .sys, some g =>
    let p := g.listPart
    if p.n = 0 then none
    else if s.noRoute s.core p.pa then some (.fault Cause.dataPoison none)
    else if s.farMissing t.id [p] ≠ [] then some (.far (s.farMissing t.id [p]))
    else if s.isPoison p.pa p.n then some (.fault Cause.dataPoison none)
    else none
  | _, _ => none

/-- A collective's thread reads its source box; a BCAST only at the first participant, and any other checks it. A box of zero extent joins the
collective and completes at once (R269 to R271, R370). (DEDUCED: log 69.) -/
def State.startColl (s : State) (t : Thread) (h : Shape) (c : CArgs) (sc : Scope) (k : Nat) : State :=
  let alone := decide (s.sharers sc ≤ 1) && (s.otherPkgs sc).isEmpty
  let conc := (s.launchOf s.core).any (fun l => l.lr.cls == 2)
  if sc = .sys && s.groupOf.isNone then s.threadMeets t Cause.operandForm none
  else match s.listStop t sc with
  | some (.far ks) => s.askFar t.id ks
  | some (.fault e va) => (s.groupOf.elim s (fun g => s.lostAt t.pc g.listPart.pa)).threadMeets t e va
  | some .wait => s
  | none =>
  if !alone && !conc then s.threadMeets t Cause.operandForm none
  else if h.nothing then (s.contribute t sc k h [] none).onC (fun q => q.onThread t.id (fun x => { x with res := some (cRes t 0 []) }))
  else match s.copyEls t.reader t.ins c t.cr h with
    | .error .wait => s
    | .error (.far ks) => s.askFar t.id ks
    | .error (.fault e va) => s.collMeets t sc k e va
    | .ok els =>
      let s := (if c.sk then s else s.noteSide t.oa.1 els .read).noteTables t c h
      let lead := match t.ins with | .bcast _ => s.leads sc | _ => true
      let arith := (match t.ins with | .areduce _ _ => true | _ => false) || t.pk.prog.isSome
      if !lead then
        match s.srcStop t h c els with
        | some e => s.collMeets t sc k e.1 (some e.2)
        | none => (s.contribute t sc k h [] none).onC (fun q => q.onThread t.id (fun x => { x with res := some (cRes t 0 []) }))
      else
        let q := s.copyVals t h c arith els
        match q.2 with
        | some .wait => s
        | some (.far ks) => s.askFar t.id ks
        | some (.fault e va) => s.collMeets t sc k e va
        | none =>
          let p := portK t h els (q.1.map Prod.fst)
          (s.contribute t sc k h (List.zip p.1 (q.1.map Prod.snd)) none).onC (fun q =>
            q.onThread t.id (fun x => { x with res := some (cRes t p.2.1 p.2.2) }))

/-- Two participants give the same form, reduction, format and box extents (R269). (DEDUCED: log 69.) -/
def sameColl (a b : CollPart) : Bool :=
  (match a.ins, b.ins with
   | .areduce o _, .areduce p _ => o == p
   | .bcast _, .bcast _ => true
   | _, _ => false) && a.shape.fmt == b.shape.fmt && a.shape.box == b.shape.box

/-- The values that every participant receives, each with its poison, and the flags of the reduction: participants in ascending
task order (R197, R270, R271). -/
def collValues (ps : List CollPart) : List (Nat × Bool) × Flags :=
  match ps with
  | [] => ([], 0)
  | p :: _ =>
    match p.ins with
    | .areduce op _ =>
      let e : Elt := .fmt p.shape.fmt
      let cols := transposed 0 p.vals.length (ps.map (fun q => q.vals))
      let rs := cols.map (fun xs => reduce e.working op (xs.map e.widen))
      let cv := rs.map (fun r => e.exit .rne (if op = .sum then .sat else .inf) e.working (laneCode e.working r.1))
      (cv.map (fun v => (v.code, false)), orFlags (rs.map Prod.snd) ||| orFlags (cv.map Conv.flags))
    | _ => (List.zip p.vals p.bad, 0)

/-- What keeps a participant's destination from being written: the first of its sectors that cannot be translated (R269). -/
def State.destStop (s : State) (js : List Job) : Option (Cause × Word) :=
  js.findSome? (fun j => match j.dest with
    | .scratch _ => none
    | .addr va =>
      if wbits va 63 56 = 0xF9 then some (Cause.windowBad, va)
      else match s.window s.core va 32 with
        | .error e => some (e, va)
        | .ok (.clus _ _) => some (Cause.windowBad, va)
        | .ok (.scratch _) => none
        | .ok (.mem a) => (match s.partsAt (s.asidOf s.core) a 32 .write with
            | .error e => some (e, va)
            | .ok ps => if ps.any (fun p => s.noRoute s.core p.pa) then some (Cause.memUe, va) else none))

/-- The sectors of a participant of the core in focus, anchored at its own coordinates. -/
def State.collJobs (s : State) (p : CollPart) (vals : List (Nat × Bool)) : List Job :=
  match s.core.threads.find? (fun t => t.id == p.thread) with
  | none => []
  | some t =>
    match t.shape, cArgs t.ins with
    | some h, some c => (match s.copyEls ⟨t.id, none⟩ t.ins c t.cr h with
        | .error _ => []
        | .ok els => copyOut t h c els vals)
    | _, _ => []

/-- Gives a participant its sectors, or the fault that poisons the whole instance; its completion follows when they have
landed. -/
def State.deliverColl (s : State) (p : CollPart) (vals : List (Nat × Bool)) (fl : Flags) (bad : Option (Cause × Option Word)) :
    State :=
  let home := s.core.id
  let s := s.focus p.core
  let s := match s.core.threads.find? (fun t => t.id == p.thread) with
    | none => s
    | some t =>
      match bad with
      | some f => s.threadFault t f.1 f.2
      | none =>
        let r := t.res.getD (cRes t 0 [])
        s.begin t (s.collJobs p vals) { r with flags := r.flags ||| fl }
  s.focus home

/-- A participant of another package, beside the instruction of one here. -/
def farPart (p : CollPart) (x : FarPart) : CollPart :=
  let c := (cArgs p.ins).getD ⟨⟨0, 0, .sys⟩, false, false, 0, 0, 0, 0, 0⟩
  { core := 0, thread := 0, task := x.task, ins := match x.op with | some op => .areduce op c | none => .bcast c,
    shape := { p.shape with fmt := x.fmt, box := x.box }, vals := x.vals, bad := x.bad, flt := x.flt.map (fun e => (e, none)) }

/-- Participants in ascending order of task. -/
def byTask {α : Type} (key : α → Nat) (xs : List α) : List α :=
  (sortUp (xs.map key)).eraseDups.flatMap (fun i => xs.filter (fun x => key x == i))

/-- Every participant in the order of the collective, by package and task (R270, R370). -/
def orderParts (pkg : Nat) (here : List CollPart) (far : List FarPart) : List CollPart :=
  match here with
  | [] => []
  | p :: _ =>
    let fs := byTask FarPart.pkg (byTask FarPart.task far)
    (fs.filter (fun x => decide (x.pkg < pkg))).map (farPart p) ++ byTask CollPart.task here ++
      (fs.filter (fun x => decide (pkg ≤ x.pkg))).map (farPart p)

/-- One element added in FP32 in an order that the spec leaves open, rounded at each addition (R270). (DEDUCED: log 68.) -/
def switchSum (fresh tag : Nat) (n : Nat) (xs : List Coded) : Coded :=
  match n with
  | 0 => xs.headD (0, 0)
  | m + 1 =>
    if xs.length ≤ 1 then xs.headD (0, 0)
    else
      let i := Config.freeNat fresh (2 * (64 * tag + n)) % xs.length
      let rest := xs.eraseIdx i
      let j := Config.freeNat fresh (2 * (64 * tag + n) + 1) % rest.length
      switchSum fresh tag m (sumNode ff32 (xs.getD i (0, 0)) (rest.getD j (0, 0)) :: rest.eraseIdx j)

/-- The values of a sum that the switches reduce (R270, R370). (DEDUCED: log 68.) -/
def switchValues (fresh : Nat) (ps : List CollPart) : List (Nat × Bool) × Flags :=
  match ps with
  | [] => ([], 0)
  | p :: _ =>
    let e : Elt := .fmt p.shape.fmt
    let cols := transposed 0 p.vals.length (ps.map (fun q => q.vals))
    let rs := cols.mapIdx (fun i xs => switchSum fresh i xs.length (xs.map (fun v =>
      let r := ff32.conv .rne .inf (e.num v)
      (r.code, r.flags))))
    let cv := rs.map (fun r => e.exit .rne .sat .f32 r.1)
    (cv.map (fun v => (v.code, false)), orFlags (rs.map Prod.snd) ||| orFlags (cv.map Conv.flags))

/-- The switches reduce a collective of the core in focus: SWRED on every member, no Troy launch, a sum of more than one
package (R370). (DEDUCED: log 68.) -/
def State.switched (s : State) (far : List FarPart) (ps : List CollPart) : Bool :=
  (match ps with | p :: _ => (match p.ins with | .areduce .sum _ => true | _ => false) | [] => false) && !far.isEmpty &&
  s.groupOf.any (fun g => wbits g.w0 55 48 == 1) && far.all FarPart.swred && !(s.launchOf s.core).any (fun l => l.lr.troy)

/-- Two packages' entries of a group disagree: in its number or in its list of packages (R370). -/
def State.groupsDiffer (s : State) (far : List FarPart) : Bool :=
  far.any (fun x => some x.gid != s.groupOf.map (fun g => wbits g.w0 31 0) || some x.list != s.groupOf.map (fun g => s.groupPkgs g))

/-- What the destinations of an instance answer: participants of this package whose destination cannot be translated yet, each with
the cause and address (R269). -/
def State.collStops (s : State) (ps : List CollPart) (vals : List (Nat × Bool)) : List (CollPart × Cause × Word) :=
  ps.filterMap (fun p =>
    let q := s.focus p.core
    (q.core.threads.find? (fun t => t.id == p.thread)).bind (fun _ => (q.destStop (q.collJobs p vals)).map (fun e => (p, e.1, e.2))))

/-- A participant's destination meets a translation fault: its thread sends a replay record, and the instance waits (R269).
(DEDUCED: log 69.) -/
def State.collDelay (s : State) (x : CollPart × Cause × Word) : State :=
  let home := s.core.id
  let s := s.focus x.1.core
  let s := match s.core.threads.find? (fun t => t.id == x.1.thread) with
    | none => s
    | some t => if t.phase = Phase.running then s.threadReplay t x.2.1 x.2.2 else s
  s.focus home

/-- The flits of a package that participants of its own need for an AREDUCE: each one's values, in ascending order of task. -/
def reduceFlits (p : CollPart) (pkg : Nat) (far : List FarPart) : List (List Sect) :=
  (byTask FarPart.task (far.filter (fun x => x.pkg == pkg && x.op.isSome && x.flt.isNone))).flatMap (fun x =>
    flitSects (packSects (farPart p x).shape.unit (List.zip x.vals x.bad)))

/-- The reduce flits of a package that are kept, in the order of their arrival (R368). -/
def State.redsOf (s : State) (pkg : Nat) : List (List Sect) := (s.ox.reds.filter (fun x => x.1 == pkg)).map (fun x => x.2.2.2)

/-- The values of the participants of other packages have arrived in reduce flits (R368). -/
def State.farCame (s : State) (sc : Scope) (parts : List CollPart) (far : List FarPart) : Bool :=
  match parts with
  | [] => true
  | p :: _ => (s.otherPkgs sc).all (fun k => (reduceFlits p k far).isPrefixOf (s.redsOf k))

/-- The first `n` reduce flits of a package are used up. -/
def dropReds (pkg n : Nat) (xs : List (Nat × Nat × Nat × List Sect)) : List (Nat × Nat × Nat × List Sect) :=
  match xs, n with
  | [], _ => []
  | x :: r, 0 => x :: r
  | x :: r, k + 1 => if x.1 = pkg then dropReds pkg k r else x :: dropReds pkg (k + 1) r

/-- An instance that ends uses up the reduce flits that its participants' values came in. -/
def State.useReds (s : State) (sc : Scope) (parts : List CollPart) (far : List FarPart) : State :=
  match parts with
  | [] => s
  | p :: _ => { s with ox := { s.ox with reds := (s.otherPkgs sc).foldl (fun xs k => dropReds k (reduceFlits p k far).length xs) s.ox.reds } }

/-- COLLECTIVE_INSTANCE_READY: every participant of a collective has joined, those of other packages as `far` gives them with the values
that their reduce flits have brought; it is
reduced or broadcast, or poisoned as a whole, once every destination can be written (R269 to R271, R368, R370).
(DESIGN CHOICE: log 67.) -/
def execCollectiveInstanceReady (sc : Scope) (k : Nat) (far : List FarPart) (s : State) : Out :=
  let c := s.collOf sc k
  let others := s.otherPkgs sc
  let far := far.filter (fun x => others.contains x.pkg)
  if c.parts = [] ∨ c.parts.length < s.sharers sc ∨ others.any (fun p => !far.any (fun x => x.pkg == p)) ||
      !s.farCame sc c.parts far then .next s
  else
    let done (t : State) : State := (t.setColl c none).useReds sc c.parts far
    let ps := orderParts s.ox.pkg.toNat c.parts far
    let differ := (match ps with | [] => false | p :: r => r.any (fun q => !sameColl p q)) || s.groupsDiffer far
    let bad : Option (Cause × Option Word) := if differ then some (Cause.operandForm, none) else ps.findSome? (fun p => p.flt)
    let v := if s.switched far ps then switchValues s.fresh ps else collValues ps
    let stops := if bad.isSome then [] else s.collStops c.parts v.1
    match stops.find? (fun x => !isReplayable x.2.1) with
    | some x => .next (done (c.parts.foldl (fun s p => s.deliverColl p [] 0 (some (x.2.1, some x.2.2))) s))
    | none =>
      if stops ≠ [] then .next (stops.foldl State.collDelay s)
      else .next (done (c.parts.foldl (fun s p => s.deliverColl p v.1 v.2 bad) s))

/-! ## Landing -/

/-- The state of a line after the thread's last sector for it: a copy leaves it FULL, an X-slot result as a core store does, a line
that the thread has poisoned stays so (R31, R197). -/
def Core.settleLine (c : Core) (t : Thread) (e : Nat × Bool) : Core :=
  if c.line e.1 == .pois && (t.isX || assoc c.plinks e.1 == some t.recIx) then c
  else if t.isX && !(e.2 && c.line e.1 == .empty) then c
  else
    let c := c.setLine e.1 .full
    { c with recs := c.recs.map (fun r => if r.1 = t.recIx then (r.1, { r.2 with filled := e.1 :: r.2.filled }) else r) }

/-- Writes one sector's bytes into the own scratchpad, and settles the lines that it ends; poisoned data leave their line POISONED
(R31, R197, R288). (DEDUCED: log 37.) -/
def Core.landScratch (c : Core) (t : Thread) (off : Nat) (j : Job) : Core :=
  let c := c.putRuns ((sectorRuns j.bytes).map (fun r => (c.scratchBase + off + r.1, r.2)))
  let hit : Core := { c with badPool := addOnce c.badPool ((c.scratchBase + off) / 32) }
  j.ends.foldl (fun c e => c.settleLine t e) (if j.bad then hit.poisonLine (off / 128) t.recIx else c)

/-- How many messages a mailbox's queue held. -/
def queuedIn (bs : List Mailbox) (pa : Nat) : Nat := ((bs.find? (fun x => x.pa == pa)).map (fun x => x.queue.length)).getD 0

/-- Messages that a thread's write has just put into the queues of mailboxes carry its number (R99). -/
def State.tagMail (s : State) (old : List Mailbox) (k : Nat × Nat) : State :=
  let tag (b : Mailbox) (i : Nat) (m : Mail) : Mail := if queuedIn old b.pa ≤ i then { m with thread := some k } else m
  { s with mboxes := s.mboxes.map (fun (b : Mailbox) => { b with queue := b.queue.mapIdx (tag b) }) }

/-- The sector of another package that a job writes, in a flit: what the job leaves out is as a write leaves it (R368). -/
def State.farJob (s : State) (pa : Nat) (j : Job) : List Byte × Bool :=
  ((sectorRuns j.bytes).foldl (fun cur r => overlay pa cur (pa + r.1) r.2) (s.farBytes pa []), j.bad)

/-- The next sector of a thread of the core in focus lands, once what it follows is performed (R93, R96, R164, R185, R264). -/
def State.landJob (s : State) (t : Thread) (j : Job) (rest : List Job) : State :=
  let done (s : State) : State := s.onC (fun c => c.onThread t.id (fun x => { x with jobs := rest, landed := x.landed + 1 }))
  let scratch (off : Nat) : State :=
    if s.core.landBlocked t peerPart true then s else done (s.onC (fun c => c.landScratch t off j))
  match j.dest with
  | .scratch off => scratch off
  | .addr va =>
    if wbits va 63 56 = 0xF9 then s.jobMeets t Cause.windowBad va
    else match s.window s.core va 32 with
      | .error e => s.jobMeets t e va
      | .ok (.scratch off) => scratch off
      | .ok (.clus _ _) => s.jobMeets t Cause.windowBad va
      | .ok (.mem a) =>
        match s.partsAt (s.asidOf s.core) a 32 .write with
        | .error e => s.jobMeets t e va
        | .ok ps =>
          let p := ps.headD peerPart
          if s.core.landBlocked t p false then s
          else if s.noRoute s.core p.pa then { s.threadFault t Cause.memUe (some va) with poison := p.pa / 32 :: s.poison }
          else if isRemote p.pa then
            let s := s.noteAcc va 32 .write
            match t.ins with
            | .mbox _ => (s.sendFlit 3 0 p.pa ((j :: rest).mapIdx (fun i x => s.farJob (p.pa + 32 * i) x)) (rest.length + 1)).onC (fun c =>
                c.onThread t.id (fun x => { x with jobs := [], landed := x.landed + rest.length + 1 }))
            | _ => done (s.sendFlit 1 0 p.pa [s.farJob p.pa j] 1)
          else
            let quiet := match t.ins with | .mbox _ => true | _ => false
            let boxes := s.mboxes
            let s := if quiet then { s with mboxes := [] } else s
            let s := (sectorRuns j.bytes).foldl (fun s r =>
              (s.writePhys s.core.id (s.troyOf s.core) (p.pa + r.1) r.2).onC (fun c => c.seeWrite (p.pa + r.1) r.2.length)) s
            let s := if quiet then { s with mboxes := boxes } else s.tagMail boxes (s.core.id, t.id)
            let s := s.noteAcc va 32 .write
            done (if j.bad then { s with poison := p.pa / 32 :: s.poison } else s)

/-- A C-slot thread of the core in focus reads, in its turn: those before it have read (R328), X-slot threads before it have ended
when it reads the own scratchpad (R90), and what it follows is performed (R93). One of zero extent takes no turn (R265, R269). -/
def State.startC (s : State) (t : Thread) : State :=
  let first := !s.core.threads.any (fun x => x.reading && decide (x.id < t.id))
  let xBefore := t.readsPool && s.core.threads.any (fun x => x.isX && decide (x.id < t.id))
  let idle := (t.coll.isSome || t.sched) && t.shape.any Shape.nothing
  if !idle && (!first || xBefore || s.core.forkBlocked t) then s
  else match cArgs t.ins, t.ins, t.shape with
    | some c, .mbox _, _ => s.startMbox t c
    | some c, _, some h => (match t.coll with
        | some (sc, k) => s.startColl t h c sc k
        | none => s.startCopy t h c)
    | _, _, _ => s

/-- COPY_SECTOR_LANDS: a thread of the core in focus reads its source, lands its next sector, or meets the fault of its read when
the sectors before it have landed (R185, R260, R264). (DEDUCED: log 30.) -/
def execCopySectorLands (id : Nat) (s : State) : Out :=
  match s.core.threads.find? (fun t => t.id == id) with
  | none => .next s
  | some t =>
    match t.phase, t.jobs, t.met with
    | .running, j :: r, _ => .next (s.landJob t j r)
    | .running, [], some f => .next (s.threadMeets t f.1 f.2)
    | .queued, _, _ => .next (s.startC t)
    | _, _, _ => .next s

/-! ## X-slot threads -/

/-- The thread runs on the die control core (R4, R5). (DEDUCED: log 36.) -/
def State.emulated (s : State) (i : Instr) : Bool :=
  s.grade == .g224L && (match xArgs i, i with
    | some x, .mma _ | some x, .mmar _ | some x, .window _ | some x, .lup _ | some x, .chol _ | some x, .qrh _
    | some x, .trsm _ | some x, .trmm _ => x.fa == .fp64
    | _, _ => false)

/-- All that ends is put at the last sector. -/
def endsLast (js : List Job) : List Job :=
  let es := js.flatMap Job.ends
  js.mapIdx (fun i j => { j with ends := if i + 1 = js.length then es else [] })

/-- The scratchpad sectors of an X-slot thread in ascending address, with the lines each ends; the lines of SPBUILD's four arrays
change state together (R31, R274, R288). -/
def xJobs (o : XOut) : List Job :=
  let js := sectorJobs JobDest.scratch (o.scr.flatMap (fun r => wbytes r.1 false r.2))
  let spans := o.scr.map (fun r => (r.1, r.2.length))
  let whole (l : Nat) : Bool := lineCover l (spans.filter (fun r => decide (r.1 < 128 * l + 128) && decide (128 * l < r.1 + r.2))) == 128
  if o.paired then endsLast (markEnds whole js) else markEnds whole js

/-- Lines of the scratchpad that an X-slot thread reads through the pairs that `ok` takes, by their consume modifier (R294). -/
def Core.sourceLines (c : Core) (t : Thread) (ok : Bool → Bool) : List Nat :=
  match xArgs t.ins with
  | none => []
  | some x =>
    let w := shapeW t.sh
    let of (o : XOpd) (p : Word × Word) : List Nat := match o with
      | .pair _ k => if !ok k then [] else
        (match t.ins with
         | .window _ => if o == x.oa then
             (winSlots w).flatMap (fun q => ((pairOf p).rowRuns x.fa (winX w * w.n) q).map (fun r => r.1 / 128))
           else []
         | _ => []) ++
        (xReads t.ins w).flatMap (fun u => if u.opd == o then c.placeLines (.pair (pairOf p)) u.fmt u.rows u.cols else [])
      | _ => []
    (of x.oa t.oa ++ of x.ob t.ob).eraseDups

/-- Lines of the operands that carry a consume modifier (R212, R294). -/
def Core.consumed (c : Core) (t : Thread) : List Nat := c.sourceLines t (fun k => k)

/-- Lines of an X-slot thread's destination in the scratchpad (R260, R274, R288). -/
def Core.xDestLines (c : Core) (t : Thread) : List Nat :=
  match xArgs t.ins with
  | none => []
  | some x =>
    let w := shapeW t.sh
    match t.ins with
    | .spbuild _ =>
      let at' (a : Nat) (f : Fmt) (r n : Nat) : List Nat := c.placeLines (.pair (spPair (pairOf t.od) a)) f r n
      (at' 0 x.fa (w.k / 2) w.n ++ at' 1 .int8 64 256 ++ at' 2 x.fa w.k (w.n / 2) ++ at' 3 .int8 64 256).eraseDups
    | i => ((xWrites i w).flatMap (fun u => match u.opd with
        | .pair _ _ => c.placeLines (.pair (pairOf t.od)) u.fmt u.rows u.cols
        | _ => [])).eraseDups

/-- Columns of row `i` of a triangle of side `n` that TRSM and TRMM reference: the first and how many (R306). -/
def TriVar.cols (v : TriVar) (n i : Nat) : Nat × Nat :=
  let d := if v.unit then 1 else 0
  if v.upper then (i + d, n - (i + d)) else (0, i + 1 - d)

/-- Runs of the pool that an X-slot thread reads of T and Z registers; of CHOL's window the lower triangle, of a triangle what is
referenced (R277, R280, R296, R304, R306, R307). -/
def Core.xReadRuns (c : Core) (t : Thread) : List (Nat × Nat) :=
  match xArgs t.ins with
  | none => []
  | some x =>
    let w := shapeW t.sh
    let rows (o : XOpd) (f : Fmt) (row col m n : Nat) : List (Nat × Nat) := match o with
      | .t _ | .z _ => (List.range m).flatMap (c.placeRuns (xPlace o (0, 0) row col) f n)
      | _ => []
    let acc := match t.ins with
      | .mma _ | .mmas _ | .mmar _ | .mmat _ | .lup _ | .qrh _ => rows x.od .fp32 w.zrow w.zcol w.m w.n
      | .chol _ => (List.range w.m).flatMap (fun i => rows x.od .fp32 (w.zrow + i) w.zcol 1 (i + 1))
      | .trsm _ | .trmm _ =>
        let n := if x.var.val % 2 = 1 then w.n else w.m
        rows x.od .fp32 w.zrow w.zcol w.m w.n ++ (List.range n).flatMap (fun i =>
          let r := (triVar x.var.val).cols n i
          if r.2 = 0 then [] else rows x.oa .fp32 (w.ext % 256 + i) (w.ext / 256 + r.1) 1 r.2)
      | _ => []
    let side := match t.ins with
      | .mmat _ | .mmas _ => xSideT t.ins x w
      | .zld _ => xSideT t.ins x w
      | _ => []
    (xReads t.ins w).flatMap (fun u => rows u.opd u.fmt w.zrow w.zcol u.rows u.cols) ++ acc ++
      side.map (fun n => (n * Config.tBytes, Config.tBytes))

/-- Runs of the pool that an X-slot thread reads through pairs of the scratchpad (R277, R294). -/
def Core.xPairRuns (c : Core) (t : Thread) : List (Nat × Nat) :=
  match xArgs t.ins with
  | none => []
  | some x =>
    let w := shapeW t.sh
    let of (o : XOpd) (p : Word × Word) : List (Nat × Nat) := match o with
      | .pair _ _ =>
        (match t.ins with
         | .window _ => if o == x.oa then (winSlots w).flatMap (c.placeRuns (.pair (pairOf p)) x.fa (winX w * w.n)) else []
         | _ => []) ++
        (xReads t.ins w).flatMap (fun u => if u.opd == o then (List.range u.rows).flatMap (c.placeRuns (.pair (pairOf p)) u.fmt u.cols) else [])
      | _ => []
    of x.oa t.oa ++ of x.ob t.ob

/-- Runs of the triple side array that an X-slot thread reads (R283, R286, R290, R291). -/
def xSideRuns (t : Thread) : List (Nat × Nat) :=
  match xArgs t.ins with
  | none => []
  | some x =>
    let w := shapeW t.sh
    let of (o : XOpd) : List (Nat × Nat) := match o with
      | .z n => [(2048 * n.val + 4 * w.zrow, 4 * w.m), (2048 * n.val + 1024 + 4 * w.zrow, 4 * w.m)]
      | _ => []
    match t.ins with
    | .mmat _ => of x.od
    | .zst _ | .zmov _ => if x.var = 1 then of x.oa else []
    | .merge _ => of x.oa ++ of x.ob
    | .softrow _ => of x.ob
    | _ => []

/-- Sectors of 32 bytes, by number, that a run meets. -/
def runsMeet (ks : List Nat) (rs : List (Nat × Nat)) : Bool :=
  ks.any (fun k => rs.any (fun r => decide (r.1 < 32 * k + 32) && decide (32 * k < r.1 + r.2)))

/-- An X-slot thread would read poisoned data: of a register, of the scratchpad, of the side array, or of a latch it holds (R197). -/
def Core.xBad (c : Core) (t : Thread) : Bool :=
  (c.badPool != [] && c.runsBad (c.xReadRuns t ++ c.xPairRuns t)) || runsMeet c.badSide (xSideRuns t) ||
  (isMma t.ins && (match xArgs t.ins with
    | some x => (x.oa == .hold && c.badLatA) || (x.ob == .hold && c.badLatB)
    | none => false))

/-- Runs an X-slot thread of the core in focus: it reads and computes, fills the latches, and consumes what it has read; poisoned
data end it, unless it is turned away before it reads (R302). A factorisation takes at most `bound` steps (R197, R274, R279, R298).
(DEDUCED: log 31.) -/
def State.runThread (s : State) (t : Thread) (bound : Nat) : State :=
  let seen := s.core.seenBy t
  let turned := isFact t.ins && (xArgs t.ins).any (fun x => factTurned s.core.arch.fprog t.ins (factSteps t.ins x (shapeW t.sh)))
  if !turned && s.core.xBad t then s.threadFault t Cause.dataPoison none
  else if isFact t.ins then s.begin t [] (runFactor seen t s.entryPc bound).2.1
  else
    let o := runX seen t s.entryPc
    let res : EngRes := { pool := o.pool, side := o.side, zkind := o.zkind, fprog := none, fstat := 0, grow := none,
                          perm := [], flags := o.flags, flt := o.flt }
    let ls := s.core.consumed t
    (s.begin t (xJobs o) res).onC (fun c =>
      ({ c with latA := o.latA.getD c.latA, latB := o.latB.getD c.latB, badLatA := c.badLatA && o.latA.isNone,
                badLatB := c.badLatB && o.latB.isNone } : Core).consume ls)

/-- The first X-slot thread that waits, when every earlier X-slot thread and every earlier thread of stream 0 has ended, those
before it have read the scratchpad, and what it follows is performed (R90, R93, R99, R212, R274). (DEDUCED: log 31.) -/
def Core.nextX (c : Core) : Option Thread :=
  match c.threads.find? Thread.isX with
  | some t =>
    if t.phase = .queued && t.res.isNone && !c.forkBlocked t && !c.filling t.id (c.sourceLines t (fun _ => true)) &&
       !c.threads.any (fun x => decide (x.id < t.id) && (x.ord.stream == 0 || (x.readsPool && x.reading))) then some t
    else none
  | none => none

/-- X_THREAD_START (R274). (DEDUCED: log 31.) -/
def execXThreadStart (s : State) : Out :=
  match s.core.nextX with
  | some t => if s.emulated t.ins then .next s else .next (s.runThread t 256)
  | none => .next s

/-- DCC_EMULATED_THREAD: the die control core serves the emulated threads of its die one at a time, in fork order (R5).
(DEDUCED: log 36.) -/
def execDccEmulatedThread (s : State) : Out :=
  match s.core.nextX with
  | some t =>
    let busy := s.cores.any (fun c => c.id != s.core.id && dieOf c.id == dieOf s.core.id &&
      c.threads.any (fun x => s.emulated x.ins && decide (x.id < t.id)))
    if s.emulated t.ins && !busy then .next (s.runThread t 256) else .next s
  | none => .next s

/-! ## Results (R185, R274, R299) -/

/-- Writes an X-slot thread's results to the registers and their shadow; what it writes whole is poisoned no longer (R197, R274).
(DEDUCED: log 31.) -/
def Core.applyRes (c : Core) (r : EngRes) : Core :=
  let c := { c.putRuns r.pool with
    side := c.side.puts r.side,
    badSide := c.badSide.filter (fun k => !r.side.any (fun x => decide (x.1 ≤ 32 * k) && decide (32 * k + 32 ≤ x.1 + x.2.length))),
    zkind := match r.zkind with | some (z, k) => c.zkind.set z.val k | none => c.zkind }
  let perm (a : Arch) : Vector Byte 256 := r.perm.foldl (fun p e => p.set! e.1 e.2) a.perm
  c.both (fun a =>
    { a with xflags := a.xflags ||| r.flags, perm := perm a, grow := r.grow.getD a.grow,
             fprog := r.fprog.getD a.fprog, fstat := if r.fprog.isSome then r.fstat else a.fstat })

/-- The record of a finished thread: freed when nothing is left to report, kept with its fault otherwise; one kept only for
lines that poisoned data landed in names DATA_POISON (R185, R197). -/
def Core.endRecord (c : Core) (t : Thread) (f : Option EngFault) (entry : Word) : Core :=
  match f with
  | some _ => { c with recs := c.recs.map (fun r => if r.1 = t.recIx then (r.1, { r.2 with flt := f }) else r) }
  | none =>
    if c.plinks.any (fun p => p.2 == t.recIx) then
      { c with recs := c.recs.map (fun r => if r.1 = t.recIx then
          (r.1, { r.2 with flt := some (plainFault Cause.dataPoison t.pc entry), retired := true }) else r) }
    else { c with recs := unbind c.recs t.recIx }

/-! ## The copy schedule (R142, R150, R156) -/

/-- The fault of an address of a schedule entry, which is checked at its release (R156, R249). -/
def State.entryBad (s : State) (va : Word) (h : Shape) : Option Cause :=
  match s.window s.core va (if h.nothing then 1 else h.unit) with
  | .error c => some c
  | .ok (.clus _ _) => some Cause.windowBad
  | .ok _ => if wbits va 63 56 = 0xF9 then some Cause.windowBad else none

/-- Forks an entry of a launch's schedule on its owner, which is in focus; a failing address poisons the thread, or sends its replay record
(R142, R156, R165). (DESIGN CHOICE: log 32.) -/
def State.forkEntry (s : State) (e : SchedEnt) : State :=
  let o : OrdF := ⟨e.stream, 0, e.scope⟩
  let id := s.uid
  let s := s.fork (.copy ⟨o, false, false, 0, 0, 0, 0, 0⟩) o [] (fun t =>
    { t with shape := some e.shape, od := (e.dst, 0), oa := (e.src, 0), pk := s.capPort 3 true, pc := s.core.arch.pc, sched := true })
  let s := s.onC (fun c => { c with ckpt := { c.ckpt.seqUp e.stream 1 with touched := true } })
  match (s.entryBad e.src e.shape).map (fun c => (c, e.src)) |>.or ((s.entryBad e.dst e.shape).map (fun c => (c, e.dst))),
      s.core.threads.find? (fun t => t.id == id) with
  | some f, some t => s.threadMeets t f.1 (some f.2)
  | _, _ => s

/-- The core that owns an entry: the one DST names, or that of slot 0 (R142). -/
def State.ownerOf (s : State) (l : Launch) (e : SchedEnt) : Nat :=
  s.physical (if wbits e.dst 63 56 = 0xF8 then wbits e.dst 55 48 else l.cores.headD 0)

/-- A core can take the thread of an entry: it holds a task of the launch, fewer than 16 schedule copies wait on it, a fault record
is free, and the stream's counter does not pass 63 (R102, R142, R150, R185). (DESIGN CHOICE: log 32.) -/
def Core.takesEntry (c : Core) (l : Nat) (e : SchedEnt) : Bool :=
  c.task.any (fun t => t.launch == l) && c.status != .saving && c.status != .stopped &&
  decide ((c.threads.filter (fun t => t.sched && t.phase == .queued)).length < Config.cQueue) &&
  decide (c.recs.length < Config.engRecs) && decide (c.cnt[e.stream.val] < Config.cntMax)

/-- Forks the released entry `i` of a launch, if its owner can take it. (DEDUCED: log 33; DESIGN CHOICE: log 101.) -/
def State.forkOne (s : State) (l i : Nat) : State :=
  match s.launch l with
  | none => s
  | some x =>
    match x.sched[i]? with
    | none => s
    | some e =>
      if !e.released || e.forked || !(s.coreAt (s.ownerOf x e)).takesEntry l e then s
      else
        let home := s.core.id
        (((s.focus (s.ownerOf x e)).forkEntry e).focus home).onLaunch l (fun y =>
          { y with sched := y.sched.set i { e with forked := true } })

/-- A slot of the launch lies on the core that owns an entry, and a task may still come to it: one of an entry of any other core is
never forked (R142). (DESIGN CHOICE: log 101.) -/
def Launch.takable (l : Launch) (e : SchedEnt) : Bool :=
  (List.range l.slots.length).any (fun i => l.slots[i]? != some .gone &&
    (if wbits e.dst 63 56 = 0xF8 then l.cores.getD i 256 == wbits e.dst 55 48 else i == 0))

/-- A released entry of the launch, which a task can take, is not forked yet. (DESIGN CHOICE: log 101.) -/
def Launch.entriesDue (l : Launch) : Bool := l.sched.any (fun e => e.released && !e.forked && l.takable e)

/-- Forks what it can of a launch's released entries, in their order. (DEDUCED: log 33.) -/
def State.forkDue (s : State) (l : Nat) : State :=
  match s.launch l with
  | none => s
  | some x => if x.entriesDue then (List.range x.sched.length).foldl (fun s i => s.forkOne l i) s else s

/-- Releases every entry of a launch whose stage the counter has reached (R142). (DEDUCED: log 33.) -/
def State.releaseStages (s : State) (l : Nat) : State :=
  (s.onLaunch l (fun x => { x with sched := x.sched.map (fun e =>
    if nth x.thr e.stage ≤ x.stage then { e with released := true } else e) })).forkDue l

/-- A STAGE thread: the counter of the launch rises, and the stages it reaches are released (R142, R267). -/
def State.countStage (s : State) : State :=
  (s.onLaunch s.core.ctx (fun l => { l with stage := min (l.stage + 1) (2 ^ 32 - 1) })).releaseStages s.core.ctx

/-! ## Completion (R97, R185, R267, R274) -/

/-- The thread leaves the core and its counter falls. -/
def Core.endThread (c : Core) (t : Thread) : Core :=
  ({ c with threads := c.threads.filter (fun x => x.id ≠ t.id) } : Core).cntDown t.ord.stream 1

/-- Completes a thread of the core in focus with the results it has. -/
def State.finish (s : State) (t : Thread) (r : EngRes) : State :=
  let bad := match r.flt with | some f => t.isX && !isElement f.cause && !isFactor f.cause | none => false
  let ls := if bad then s.core.xDestLines t else []
  let entry := s.entryPc
  let wrote := match r.flt with | some f => isElement f.cause || isFactor f.cause | none => true
  let makes := match wrote, assoc s.core.recs t.recIx with | true, some x => x.regs | _, _ => []
  let held := r.flt.any (fun f => isFactor f.cause)
  let s := s.onC (fun c => (({ (c.unmake makes).applyRes r with heldBy := if held then some t.recIx else c.heldBy } : Core).poisonLines ls
    t.recIx |>.endRecord t r.flt entry).endThread t)
  match t.ins with
  | .mbox _ =>
    if r.flt.isSome then s
    else (match s.window s.core t.od.1 64 with
      | .ok (.mem a) => (match s.translate (s.asidOf s.core) a .write with | .ok p => s.fire p.pa (some s.core.ctx) | .error _ => s)
      | _ => s)
  | _ => s

/-- A STAGE thread counts once what it follows is performed, and ends when every entry it released has been forked (R267). -/
def State.runStage (s : State) (t : Thread) : State :=
  if s.core.forkBlocked t then s
  else
    let s := (s.countStage).begin t [] (cRes t 0 [])
    if (s.launch s.core.ctx).any Launch.entriesDue then s else s.finish t (cRes t 0 [])

/-- A participant of the instance of a thread has sectors to land, so that a fault may still poison the whole of it (R269). -/
def State.instLanding (s : State) (t : Thread) : Bool :=
  match t.coll with
  | none => false
  | some (sc, k) => !t.shape.any Shape.nothing && (s.instThreads sc k).any (fun x => x.2.jobs != [])

/-- A thread of the core in focus has more to wait for than its sectors: the instance of its collective, the fault of its read, the
entries that its STAGE released. -/
def State.unfinished (s : State) (t : Thread) : Bool :=
  t.met.isSome || s.instLanding t || (t.coll.isSome && s.colls.any (fun k => k.parts.any (fun p => p.thread == t.id && !p.shape.nothing))) ||
  (match t.ins with | .stage _ => (s.launch s.core.ctx).any Launch.entriesDue | _ => false)

/-- ENGINE_THREAD_COMPLETE: once every sector has landed the completion object is set or poisoned, the results appear, and
the counter falls (R97, R274). -/
def execEngineThreadComplete (id : Nat) (s : State) : Out :=
  match s.core.threads.find? (fun t => t.id == id) with
  | none => .next s
  | some t =>
    match t.ins, t.phase, t.jobs, t.res with
    | .stage _, .queued, _, _ => .next (s.runStage t)
    | _, .running, [], some r => if s.unfinished t then .next s else .next (s.finish t r)
    | _, _, _, _ => .next s

/-! ## Verdicts on replay records (R188) -/

/-- What waited for room in the replay queue of the context of the core in focus sends its record (R171). -/
def State.retryReplay (s : State) : State :=
  let s := match s.core.status with
    | .waitRoom fs => s.replayCore fs
    | _ => s
  s.core.threads.foldl (fun s t => match t.phase with
    | .waitRoom c va => s.threadReplay t c va
    | _ => s) s

/-- REPLAY_QUEUE_ROOM: the host takes the oldest record of the context's replay queue, and what waited for room sends its
record (R171). (DEDUCED: log 46.) -/
def execReplayQueueRoom (s : State) : Out :=
  .next ((s.onCtxQ s.core.ctx (fun q => if q.replay.count = 0 then q else { q with replay := q.replay.take (q.replay.cons + 1) })).retryReplay)

/-- What a ticket of a die names: the core, and the thread where it is one. (DEDUCED: log 55.) -/
def State.ticketOf (s : State) (d : Nat) (k : Nat) : Option (Nat × Option Nat) :=
  s.cores.findSome? (fun c =>
    if dieOf c.id ≠ d then none
    else match c.status with
      | .replay t _ => if t = k then some (c.id, none) else inThreads c
      | _ => inThreads c)
where
  /-- The thread of a core that waits with the ticket. -/
  inThreads (c : Core) : Option (Nat × Option Nat) :=
    (c.threads.find? (fun t => match t.phase with | .replay x _ _ => x == k | _ => false)).map (fun t => (c.id, some t.id))

/-- Answers a replay record: `core` for a waiting core with the faults of its slots, `thread` for a waiting thread, each in focus
(R188). (DEDUCED: log 55.) -/
def State.answer (s : State) (d : Fin 8) (k : BitVec 16) (core : State → List SlotFault → State)
    (thread : State → Thread → Cause → Word → State) : State :=
  match s.ticketOf d.val k.toNat with
  | none => s
  | some (c, th) =>
    let home := s.core.id
    let s := s.focus c
    let s := match th, s.core.status with
      | none, .replay _ fs => core s fs
      | some id, _ => (match s.core.threads.find? (fun (t : Thread) => t.id == id) with
          | some t => (match t.phase with | .replay _ cause va => thread s t cause va | _ => s)
          | none => s)
      | _, _ => s
    s.focus home

/-- REPLY holds the verdict written last (R188). -/
def State.setReply (s : State) (d : Fin 8) (k : BitVec 16) (v : Nat) : State :=
  let x := s.disp[d.val]
  { s with disp := s.disp.set d.val { x with reply := BitVec.ofNat 64 (k.toNat * 2 ^ 8 + v) } }

/-- A thread goes on from its faulting sector: it reads on, or lands the sector (R185, R188). -/
def Thread.resumed (t : Thread) : Thread :=
  if t.jobs = [] && t.met.isSome then { t with phase := .queued, met := none, res := none }
  else { t with phase := if t.res.isNone then .queued else .running }

/-- REPLY_RESUME: the core re-executes from its restart point, the thread from its faulting sector (R188). -/
def execReplyResume (d : Fin 8) (k : BitVec 16) (s : State) : Out :=
  .next ((s.setReply d k 0).answer d k (fun s _ => s.onC (fun c => { c with status := .running }))
    (fun s (t : Thread) _ _ => s.onC (fun c => c.onThread t.id Thread.resumed)))

/-- The fault of a thread is delivered: it poisons the thread, and with a collective's every thread of the instance (R188, R269). -/
def State.deliverThread (s : State) (t : Thread) (cause : Cause) (va : Word) : State :=
  match t.coll, t.jobs with
  | some (sc, k), [] => s.collFault t sc k (cause, some va)
  | _, _ => s.instFault t cause (some va)

/-- REPLY_DELIVER: the cause becomes a precise trap of every slot that faulted, or the thread's poison (R188). -/
def execReplyDeliver (d : Fin 8) (k : BitVec 16) (s : State) : Out :=
  .next ((s.setReply d k 1).answer d k (fun s fs => (s.onC (fun c => { c with status := .running })).precise fs s.core.ckpt.pc)
    State.deliverThread)

/-- REPLY_KILL: the context becomes fatal with the cause (R188). -/
def execReplyKill (d : Fin 8) (k : BitVec 16) (s : State) : Out :=
  .next ((s.setReply d k 2).answer d k
    (fun s fs => let f := firstReplay fs; s.fatal f.cause 0 (tmaskOf fs) s.core.ckpt.pc f.taddr f.tinfo 0)
    (fun s t cause va => s.fatal cause 0 0 t.pc va (engInfo 0 (t.pc - s.entryPc).toNat) 0))

end Sys2Proof.Machine
end

