-- ==== Sys2Proof/Machine/Save.lean ====
section
/-! DEFINITION. The save area (R192): writing a core's full save and reading one back, and the light block (R190). -/

namespace Sys2Proof.Machine

/-! ## Regions -/

/-- Writes `n` bytes of another memory, from `lo` on, at `dst`. -/
def Mem.blit (m : Mem) (dst : Nat) (src : Mem) (lo n : Nat) : Mem :=
  m.filter (fun c => c.1 < dst) ++
    (src.filter (fun c => lo ≤ c.1 ∧ c.1 < lo + n)).map (fun c => (c.1 - lo + dst, c.2)) ++
    m.filter (fun c => dst + n ≤ c.1)

/-- Offsets of the save area (R192). -/
def offH : Nat := 0x1000
def offProg : Nat := 0x2000
def offG : Nat := 0x4000
def offHead : Nat := 0x4400
def offRec : Nat := 0x4800
def offLines : Nat := 0x8000
def offSide : Nat := 0x10000
def offLatch : Nat := 0x20000
def offLinks : Nat := 0xA0000
def offPool : Nat := 0x400000

/-- Number of lines that the bitmap and the links cover (R192). -/
def saveLines : Nat := 98304

/-! ## The register region -/

/-- A hold latch's descriptor. -/
def latchWord (l : Option Latch) : Nat :=
  match l with
  | none => 0
  | some d => d.e1 + d.e2 * 2 ^ 9 + d.fmt.code * 2 ^ 18 + b2n d.rev 22 + 2 ^ 23

/-- A hold latch from its descriptor. -/
def latchOf (v : Nat) : Option Latch :=
  if v / 2 ^ 23 % 2 = 1 then
    (Fmt.ofCode (v / 2 ^ 18 % 16)).map (fun f => ⟨v % 512, v / 2 ^ 9 % 512, f, v / 2 ^ 22 % 2 == 1⟩)
  else none

/-- The code of an accumulator kind. -/
def ZKind.num (k : ZKind) : Nat := match k with | .fp32 => 0 | .fp64 => 1 | .int32 => 6

/-- An accumulator kind from its code. -/
def ZKind.ofNum (n : Nat) : ZKind := match n with | 1 => .fp64 | 6 => .int32 | _ => .fp32

/-- Every pending GLD whose bundles have all passed becomes the register's value. -/
def Arch.settleAll (a : Arch) : Arch := (List.finRange 16).foldl (fun a g => a.settleG g) a

/-- An entry of the loop stack, 32 bytes. -/
def loopBytes (e : Option LoopEnt) : List Byte :=
  match e with
  | none => List.replicate 32 0
  | some e => le8 e.start.toNat ++ le8 e.stop.toNat ++ le8 (loopWord e).toNat ++ le8 0

/-- The control registers of the region, in its order. -/
def Core.csrWords (c : Core) : List Nat :=
  let a := c.arch
  let t := a.trap
  [t.xpc.toNat, t.tcause.toNat, t.tmask.toNat, t.taddr.toNat, t.tinfo.toNat, t.tvec.toNat, b2n t.tlock 0, a.grow.toNat,
   a.fprog.toNat, a.fstat.toNat, a.pivt.toNat, b2n a.zpol 0, a.xflags.toNat, a.seql.toNat, c.cntWord.toNat,
   (a.seqWord false).toNat, (a.seqWord true).toNat, a.linewait.toNat, c.stallc.toNat, a.gptr.toNat]

/-- The words of a cluster's barriers that a launch holds. -/
def State.barWords (s : State) (cl : Nat) (l : Launch) : List Nat :=
  (List.range 16).map (fun b =>
    if l.lr.barm.getLsbD b then
      let k := s.barrier cl b l.id
      k.epochs % 2 ^ 32 * 2 ^ 32 + k.arrivals
    else 0)

/-- The continuation of a stopped factorisation. -/
def continBytes (k : Option Contin) : List Byte :=
  match k with
  | none => List.replicate 64 0
  | some k => le8 1 ++ le8 (encX k.ins) ++ le8 k.sh.toNat ++ le8 k.pivt.toNat ++ le8 (b2n k.zpol 0) ++ le8 k.pc.toNat ++ le8 0 ++ le8 0

/-- SAVEHDR of a completed save. -/
def State.saveHdr (s : State) (c : Core) (asid : Nat) : Nat :=
  gradeCode s.grade * 2 ^ 44 + asid * 2 ^ 32 + (match c.task with | some t => t.index % 2 ^ 20 | none => 0) * 2 ^ 12 + 1

/-- Bytes 0x100 to 0xFFF of a full save, the core standing at a restart point. -/
def State.saveRegs (s : State) (c : Core) (l : Launch) : List Byte :=
  let a := c.arch
  le8 (s.saveHdr c l.lr.asid) ++ le8 a.pc.toNat ++
  (List.finRange 64).flatMap (fun r => le8 (a.rs r).toNat) ++
  (List.finRange 8).map (fun p => if a.rp p then 1 else 0) ++ le8 0 ++
  (List.range 6).flatMap (fun i => loopBytes a.loops[i]?) ++
  c.csrWords.flatMap le8 ++ a.perm.toList ++ (s.barWords (clusterOf c.id) l).flatMap le8 ++
  le8 (latchWord a.latchA) ++ le8 (latchWord a.latchB) ++
  c.zkind.toList.map (fun k => BitVec.ofNat 8 k.num) ++
  a.gpend.toList.flatMap (fun g => match g with | some v => v.1 | none => GVal.zero) ++
  a.gpend.toList.map (fun g => match g with | some v => BitVec.ofNat 8 v.2 | none => 0) ++
  a.binds.toList.map (fun b => BitVec.ofNat 8 b.val) ++ List.replicate 12 0 ++
  continBytes c.contin ++ List.replicate 1408 0

/-! ## The other regions -/

/-- A port-program slot's 128 bytes: element words, then k0 to k7. -/
def progBytes (p : Option PSlot) : List Byte :=
  match p with
  | none => List.replicate 128 0
  | some p => (List.range 16).flatMap (fun i => leBytes 4 (p.words.getD i 0).toNat) ++ p.k.toList.flatMap (fun w => le8 w.toNat)

/-- A port-program slot's header, as a record gives it (R243). -/
def progHead (p : Option PSlot) : Nat :=
  match p with
  | none => 0
  | some p => p.words.length * 2 ^ 8 + b2n p.nant 4 + p.ports.toNat

/-- The 64 bytes of an engine fault record. -/
def recBytes (r : Option EngRec) : List Byte :=
  match r with
  | some ⟨ford, st, _, _, some f, retired⟩ =>
    le8 (ford.toNat * 2 ^ 32 + st.val * 2 ^ 16 + f.cause * 2 ^ 8 + b2n retired 1 + 1) ++ le8 f.taddr.toNat ++
    le8 f.tinfo.toNat ++ List.replicate 40 0
  | _ => List.replicate 64 0

/-- A byte of the line-state bitmap: four lines. (DESIGN CHOICE: log 107.) -/
def Core.lineByte (c : Core) (k : Nat) : Byte :=
  BitVec.ofNat 8 (((List.range 4).map (fun i => lineBits (c.line (4 * k + i)) * 4 ^ i)).sum)

/-- Rows of a latch, in their place of the region; of an FP64 latch whose second extent is above 128 the rows overlap there, and the
later row stands, while the package keeps what has no place (R37, R192). (DESIGN CHOICE: log 96.) -/
def latchRuns (base : Nat) (l : Option Latch) (vs : List Nat) : List (Nat × List Byte) :=
  match l with
  | none => []
  | some d =>
    let n := if d.fmt = .fp64 then 8 else 4
    (chunks d.e2 d.e1 vs).mapIdx (fun i row => (base + 1024 * i, row.flatMap (leBytes n)))

/-- Everything of a full save but the register region and the pool: runs of bytes by offset. -/
def Core.saveRuns (c : Core) : List (Nat × List Byte) :=
  let a := c.arch
  let prog (n : Nat) : Option PSlot := if n = 0 then none else (a.progs.toList.getD n none)
  [(offH, a.h.toList.flatMap (fun h => match h with | some h => h.bytes | none => List.replicate 128 0)),
   (offProg, (List.range 64).flatMap (fun n => progBytes (prog n))),
   (offG, a.g.toList.flatten),
   (offHead, (List.range 64).flatMap (fun n => le8 (progHead (prog n)))),
   (offHead + 512, (List.range 64).flatMap (fun n => le8 (match prog n with | some p => p.q.toNat | none => 0))),
   (offRec, (List.range 64).flatMap (fun i => recBytes (assoc c.recs i))),
   (offLinks, (List.range saveLines).map (fun l => match assoc c.plinks l with | some i => BitVec.ofNat 8 i | none => 0xFF))] ++
  (sortUp (c.lines.map (fun l => l.1 / 4))).map (fun k => (offLines + k, [c.lineByte k])) ++
  latchRuns offLatch a.latchA c.latA ++ latchRuns (offLatch + 0x40000) a.latchB c.latB

/-- Bytes of the T and Z granules of a core. -/
def Core.tzBytes (c : Core) : Nat := (c.partw.tg + c.partw.zg) * Config.granule

/-- Where the sectors of a save lie that hold what a core has: offset and length of each region, with the T and Z granules of a
partition and the lines that are not EMPTY (R192). (DEDUCED: log 63.) -/
def saveSpans (tz : Nat) (lines : List Nat) : List (Nat × Nat) :=
  [(0x100, 0xF00), (offH, 0x1000), (offProg, 0x2000), (offG, 0x400), (offHead, 0x400), (offRec, 0x1000), (offLines, 0x6000),
   (offSide, 0x8000), (offLatch, 0x80000), (offLinks, 0x18000), (offPool, tz)] ++ lines.map (fun l => (offPool + tz + 128 * l, 128))

/-- A sector of memory, by number, lies in a save at `base`, in one of the spans. -/
def inSpans (base : Nat) (spans : List (Nat × Nat)) (k : Nat) : Bool :=
  spans.any (fun r => decide (base + r.1 < 32 * k + 32) && decide (32 * k < base + r.1 + r.2))

/-- Line `l` is POISONED with a record of cause DATA_POISON, which a save keeps with it (R186). -/
def Core.keptBad (c : Core) (l : Nat) : Bool := c.line l == .pois && (c.linkOf l).any (fun f => f.cause == Cause.dataPoison)

/-- The core holds data that a save cannot read, and that no kept record tells of: its save loses the context (R186, R195, R197). -/
def Core.saveBad (c : Core) : Bool :=
  c.badPool.any (fun k => decide (32 * k < c.scratchBase) || (c.line ((32 * k - c.scratchBase) / 128) != .empty &&
    !c.keptBad ((32 * k - c.scratchBase) / 128))) || c.badSide != [] || c.badLatA || c.badLatB

/-- Writes the full save of core `c` at `base` (R192): the bytes of EMPTY lines are not written, and SAVEHDR comes with the
register region. What it writes is poisoned no longer; with no route left to the save area it is all poisoned (R197, R367).
(DEDUCED: log 63.) -/
def State.saveFull (s : State) (c : Core) (l : Launch) (base : Nat) : State :=
  let spans := saveSpans c.tzBytes (c.lines.map Prod.fst)
  if s.noRoute c base then
    { s.routeError 0 base with poison := spans.flatMap (fun r =>
        (List.range ((r.2 + 31) / 32)).map (fun i => (base + r.1) / 32 + i)) ++ s.poison }
  else
  let c := { c with arch := c.arch.settleAll }
  let m := s.mem.blit (base + offLines) [] 0 (saveLines / 4)
  let m := m.blit (base + offLatch) [] 0 0x80000
  let m := m.puts (c.saveRuns.map (fun r => (base + r.1, r.2)))
  let m := m.blit (base + offSide) c.side 0 0x8000
  let m := m.blit (base + offPool) c.pool 0 c.tzBytes
  let m := c.lines.foldl (fun m x => m.blit (base + offPool + c.tzBytes + 128 * x.1) c.pool (c.scratchBase + 128 * x.1) 128) m
  { s with mem := m.put (base + 0x100) (s.saveRegs c l), poison := s.poison.filter (fun k => !inSpans base spans k) }

/-! ## Restoring -/

/-- A word of the save at `base`. -/
def State.savedWord (s : State) (base off : Nat) : Nat := leVal (s.mem.run (base + off) 8)

/-- The loop stack of a save: the entries from LS0 on that are active. -/
def State.savedLoops (s : State) (base : Nat) : List LoopEnt :=
  let ent (i : Nat) : Nat × LoopEnt :=
    let o := 0x320 + 32 * i
    let v := s.savedWord base (o + 16)
    (v, ⟨BitVec.ofNat 64 (s.savedWord base o), BitVec.ofNat 64 (s.savedWord base (o + 8)), BitVec.ofNat 31 (v / 2 ^ 32), BitVec.ofNat 32 v⟩)
  (((List.range 6).map ent).takeWhile (fun e => e.1 / 2 ^ 63 % 2 == 1)).map Prod.snd

/-- The port-program slots of a save. -/
def State.savedProg (s : State) (base n : Nat) : Option PSlot :=
  let h := s.savedWord base (offHead + 8 * n)
  if n = 0 ∨ h = 0 then none
  else some
    { words := (List.range (h / 2 ^ 8 % 32)).map (fun i => BitVec.ofNat 32 (leVal (s.mem.run (base + offProg + 128 * n + 4 * i) 4))),
      nant := h / 2 ^ 4 % 2 == 1, ports := BitVec.ofNat 4 h,
      k := Vector.ofFn (fun j => BitVec.ofNat 64 (s.savedWord base (offProg + 128 * n + 64 + 8 * j.val))),
      q := BitVec.ofNat 64 (s.savedWord base (offHead + 512 + 8 * n)) }

/-- The values of a latch of a save: those that a later row stands over come from what the package kept, where it did.
(DESIGN CHOICE: log 96.) -/
def State.savedLatch (s : State) (base : Nat) (l : Option Latch) (kept : List Nat) : List Nat :=
  match l with
  | none => []
  | some d =>
    let n := if d.fmt = .fp64 then 8 else 4
    (List.range d.e1).flatMap (fun i => ((chunks n d.e2 (s.mem.run (base + 1024 * i) (n * d.e2))).map leVal).mapIdx (fun j v =>
      if n = 8 ∧ 128 ≤ j ∧ i + 1 < d.e1 then kept.getD (d.e2 * i + j) v else v))

/-- Registers whose reading observes the thread of a saved record that nothing was kept of: those that the X slot of the bundle at its
fork produces (R99, R181, R308). -/
def State.forkMakes (s : State) (l : Launch) (a : Arch) (stream : Fin 8) (f : EngFault) : List TZ :=
  match s.translate l.lr.asid (l.lr.entry + (f.tinfo.extractLsb' 0 32).setWidth 64).toNat .fetch with
  | .error _ => []
  | .ok p => match decodeBundle (leNat (s.physBytes p.pa 32)) with
    | .error _ => []
    | .ok b => match b.x with
      | none => []
      | some i => if stream == 0 && (isFactor f.cause || b.c.isNone) then (xArgs i).elim [] (fun x => xMakes i (shapeW (a.rs x.sh))) else []

/-- An engine fault record of a save; the registers and lines that observe it come from what the package kept, or else its registers
from the bundle that forked its thread. -/
def State.savedRec (s : State) (base i : Nat) (l : Launch) (a : Arch) (kept : List (Nat × EngRec)) : Option EngRec :=
  let w := s.savedWord base (offRec + 64 * i)
  if w % 2 = 0 then none
  else
    let ford := BitVec.ofNat 32 (w / 2 ^ 32)
    let old := (assoc kept i).filter (fun r => r.ford == ford)
    let f : EngFault := ⟨w / 2 ^ 8 % 256, BitVec.ofNat 64 (s.savedWord base (offRec + 64 * i + 8)), BitVec.ofNat 64 (s.savedWord base (offRec + 64 * i + 16))⟩
    let st : Fin 8 := Fin.ofNat 8 (w / 2 ^ 16)
    some { ford := ford, stream := st, regs := (old.map EngRec.regs).getD (s.forkMakes l a st f), filled := (old.map EngRec.filled).getD [],
           flt := some f, retired := w / 2 % 2 == 1 }

/-- The record whose thread set FPROG to HELD, among saved records: of those of a factorisation's fault that are not reported, the
latest (R299). -/
def holderOf (recs : List (Nat × EngRec)) : Option Nat :=
  let mine := recs.filter (fun r => !r.2.retired && r.2.flt.any (fun f => isFactor f.cause))
  (mine.find? (fun r => mine.all (fun q => decide (q.2.ford.toNat ≤ r.2.ford.toNat)))).map Prod.fst

/-- The line states of a save: code 11 reads as POISONED (R31). -/
def State.savedLines (s : State) (base : Nat) : List (Nat × LineCode) :=
  ((s.mem.filter (fun c => decide (base + offLines ≤ c.1) && decide (c.1 < base + offLines + saveLines / 4))).flatMap (fun c =>
    (List.range 4).filterMap (fun i =>
      match c.2.toNat / 4 ^ i % 4 with
      | 0 => none
      | 1 => some (4 * (c.1 - (base + offLines)) + i, LineCode.full)
      | _ => some (4 * (c.1 - (base + offLines)) + i, LineCode.pois))))

/-- The registers of a save. -/
def State.savedArch (s : State) (base : Nat) (touched : Bool) : Arch :=
  let w (off : Nat) : Word := BitVec.ofNat 64 (s.savedWord base off)
  let b (off : Nat) : Byte := s.mem.get (base + off)
  let r (i : Nat) : Word := w (0x3E0 + 8 * i)
  { pc := w 0x108, s := Vector.ofFn (fun i => w (0x110 + 8 * i.val)), p := Vector.ofFn (fun i => (b (0x310 + i.val)).getLsbD 0),
    g := Vector.ofFn (fun i => s.mem.run (base + offG + 64 * i.val) 64),
    gpend := Vector.ofFn (fun i =>
      let n := (b (0xA20 + i.val)).toNat
      if n = 0 then none else some (s.mem.run (base + 0x620 + 64 * i.val) 64, n)),
    h := Vector.ofFn (fun i => parseShape (s.mem.run (base + offH + 128 * i.val) 128)),
    loops := s.savedLoops base, progs := Vector.ofFn (fun i => s.savedProg base i.val),
    binds := Vector.ofFn (fun i => Fin.ofNat 64 (b (0xA30 + i.val)).toNat),
    latchA := latchOf (s.savedWord base 0x600), latchB := latchOf (s.savedWord base 0x608),
    trap := ⟨r 0, r 1, r 2, r 3, r 4, r 5, (r 6).getLsbD 0⟩, grow := r 7, fprog := r 8, fstat := r 9, pivt := r 10,
    zpol := (r 11).getLsbD 0, xflags := (r 12).setWidth 6, seql := r 13, linewait := r 17, gptr := r 19,
    perm := Vector.ofFn (fun i => b (0x480 + i.val)),
    seqn := Vector.ofFn (fun i => BitVec.ofNat 16 (leVal (s.mem.run (base + 0x3E0 + 8 * 15 + 2 * i.val) 2))),
    touched := touched }

/-- The continuation that a save holds (R309). -/
def State.savedContin (s : State) (base : Nat) : Option Contin :=
  let w (i : Nat) : Word := BitVec.ofNat 64 (s.savedWord base (0xA40 + 8 * i))
  if (w 0).getLsbD 0 then
    (match decodeSlot .x (w 1).toNat with
     | some i => if isFact i then some ⟨i, w 2, w 3, (w 4).getLsbD 0, w 5⟩ else none
     | none => none)
  else none

/-- What a launch keeps of a slot, or what stands for it when the save came from elsewhere. -/
def Launch.keptOf (l : Launch) (slot : Nat) : Kept :=
  (assoc l.kept slot).getD
    { arrived := [], arvSent := [], colln := Vector.replicate 4 0, recs := [], touched := true,
      partw := (partwOf l.lr.partw).getD ⟨0, 0, 0⟩, ran := 0, heldBy := none, halted := false, latA := [],
      badPad := [] }

/-- Core `c`, wiped where R169 asks for it, with the save of a slot restored into it (R191, R192). (DEDUCED: log 49.) -/
def State.restoreCore (s : State) (c : Core) (l : Launch) (slot base : Nat) : Core :=
  let k := l.keptOf slot
  let wipe := c.lastCtx ≠ some l.id
  let a := s.savedArch base k.touched
  let n : Core := { Core.init c.id with partw := k.partw }
  let lines := s.savedLines base
  let pool := Mem.blit (if wipe then [] else c.pool) 0 s.mem (base + offPool) n.tzBytes
  let pool := lines.foldl (fun (p : Mem) x =>
    p.blit (n.scratchBase + 128 * x.1) s.mem (base + offPool + n.tzBytes + 128 * x.1) 128) pool
  let recs := (List.range 64).filterMap (fun i => (s.savedRec base i l a k.recs).map (fun r => (i, r)))
  let links := lines.filterMap (fun x =>
    let i := (s.mem.get (base + offLinks + x.1)).toNat
    if x.2 = .pois ∧ i < 64 ∧ (assoc recs i).isSome then some (x.1, i) else none)
  { n with
    arch := a, ckpt := a, src := a, pool := pool, side := Mem.blit [] 0 s.mem (base + offSide) 0x8000, lines := lines,
    plinks := links, zkind := Vector.ofFn (fun i => ZKind.ofNum (s.mem.get (base + 0x610 + i.val)).toNat),
    latA := s.savedLatch (base + offLatch) a.latchA k.latA, latB := s.savedLatch (base + offLatch + 0x40000) a.latchB [],
    recs := recs, forks := BitVec.ofNat 32 ((recs.map (fun r => r.2.ford.toNat + 1)).foldl max 0),
    stallc := BitVec.ofNat 64 (s.savedWord base (0x3E0 + 8 * 18)),
    arrived := k.arrived, arvSent := k.arvSent, colln := k.colln, past := k.ran, heldBy := if (assoc l.kept slot).isSome then k.heldBy else holderOf recs,
    badPool := k.badPad,
    task := some ⟨l.id, slot, s.savedWord base 0x100 / 2 ^ 12 % 2 ^ 20⟩, lastCtx := some l.id,
    status := if k.halted then .halted else .running, holdFor := if c.holdFor = some l.id then none else c.holdFor }

/-- The save of a slot holds poisoned data that its restore reads (R195). (DEDUCED: log 63.) -/
def State.saveLost (s : State) (l : Launch) (slot base : Nat) : Bool :=
  let p := (l.keptOf slot).partw
  s.poison.any (inSpans base (saveSpans ((p.tg + p.zg) * Config.granule) ((s.savedLines base).map Prod.fst)))

/-- What must be kept of a core that has been saved. (DEDUCED: log 49; DESIGN CHOICE: log 96.) -/
def Core.keeps (c : Core) : Kept :=
  { arrived := c.arrived, arvSent := c.arvSent, colln := c.colln, recs := c.recs, touched := c.arch.touched, partw := c.partw,
    ran := c.past + c.ran, heldBy := c.heldBy, halted := c.status == .halted, latA := c.latA,
    badPad := c.badPool.filter (fun k => decide (c.scratchBase ≤ 32 * k)) }

/-! ## The light block (R190) -/

/-- Where a dispatcher keeps the blocks of records whose SAVE is 0. (DEDUCED: log 48.) -/
def lightHome (die stream core : Nat) : Nat :=
  die * Config.dieBytes + Config.reservedBase + 0x10000 + 256 * (256 * stream + core)

/-- The 256 bytes of a light block. -/
def Carried.bytes (e : Carried) : List Byte :=
  le8 e.next.toNat ++ e.regs.toList.flatMap (fun w => le8 w.toNat) ++ e.seqn.toList.flatMap (fun v => leBytes 2 v.toNat) ++
  le8 (e.lseq % 2 ^ 32 * 2 ^ 32 + e.stream * 2 ^ 16 + e.core * 2 ^ 8 + 1) ++ List.replicate 160 0

/-- An entry is of a stream and a logical core. -/
def Carried.isOf (e : Carried) (die stream core : Nat) : Bool := e.die == die && e.stream == stream && e.core == core

/-- The sectors of a light block. -/
def Carried.sectors (e : Carried) : List Nat := (List.range 8).map (fun i => e.home / 32 + i)

/-- A core of die `d` writes a light block: its sectors are poisoned no longer, or, with no route left, all poisoned (R197, R367). -/
def State.putBlock (s : State) (d : Nat) (e : Carried) : State :=
  if s.noRouteAt d e.home then
    { s.dieRecord Cause.memUe d (s.lostLink d e.home) e.home with poison := e.sectors ++ s.poison }
  else { s with mem := s.mem.put e.home e.bytes, poison := s.poison.filter (fun k => !e.sectors.contains k) }

/-- The values that core `core` holds in place, other than those of stream `keep`, go to their light blocks.
(DEDUCED: log 48.) -/
def State.passCore (s : State) (core : Nat) (keep : Option (Nat × Nat)) : State :=
  let due (e : Carried) : Bool := e.core == core && e.block.isNone && decide (keep ≠ some (e.die, e.stream))
  { (s.carried.filter due).foldl (fun (s : State) e => s.putBlock (dieOf (s.physical core)) e) s with
           carried := s.carried.map (fun e => if due e then { e with block := some e.home } else e) }

/-- The light block that a task of a stream would read on a logical core is poisoned, or no route leads to it (R195). -/
def State.carriedLost (s : State) (die stream core : Nat) : Bool :=
  match (s.carried.find? (fun e => e.isOf die stream core)).bind Carried.block with
  | some pa => s.isPoison pa 96 || s.noRouteAt (dieOf (s.physical core)) pa
  | none => false

/-- The record of a light block that a task of a stream would read on a logical core and that no route leads to (R367). -/
def State.carriedRecord (s : State) (die stream core : Nat) : State :=
  let d := dieOf (s.physical core)
  match (s.carried.find? (fun e => e.isOf die stream core)).bind Carried.block with
  | some pa => if s.noRouteAt d pa then s.dieRecord Cause.memUe d (s.lostLink d pa) pa else s
  | none => s

/-- The values that a task of a stream takes over on a logical core, 0 where none are carried; a block is read once.
(DEDUCED: log 48.) -/
def State.takeCarried (s : State) (die stream core : Nat) : (Vector Word 8 × Vector (BitVec 16) 8) × State :=
  let zero : Vector Word 8 × Vector (BitVec 16) 8 := (Vector.replicate 8 0, Vector.replicate 8 0)
  match s.carried.find? (fun e => e.isOf die stream core) with
  | none => (zero, s)
  | some e =>
    match e.block with
    | none => ((e.regs, e.seqn), s)
    | some pa =>
      let v := s.mem.get (pa + 0x58)
      if v.getLsbD 0 then
        ((Vector.ofFn (fun i => BitVec.ofNat 64 (leVal (s.mem.run (pa + 8 + 8 * i.val) 8))),
          Vector.ofFn (fun i => BitVec.ofNat 16 (leVal (s.mem.run (pa + 0x48 + 2 * i.val) 2)))),
         { s with mem := s.mem.put (pa + 0x58) [v &&& 0xFE] })
      else (zero, s)

end Sys2Proof.Machine
end

