-- ==== Sys2Proof/Machine/Dispatcher.lean ====
section
/-! DEFINITION. The dispatchers (R131 to R148, R168, R169, R190, R191, R194, R376, R377): reading records, choosing what
runs, starting, completing, saving and restoring tasks. An event whose conditions do not hold leaves the state as it is. -/

namespace Sys2Proof.Machine

/-! ## Shared pieces -/

/-- The dispatchers work. (DESIGN CHOICE: log 6.) -/
def State.up (s : State) : Bool := s.booted && !s.inReset

/-- Changes a stream of a dispatcher. -/
def Disp.onStream (x : Disp) (k : Nat) (f : Stream → Stream) : Disp :=
  { x with streams := x.streams.mapFinIdx (fun i y _ => if i = k then f y else y) }

/-- A stream stops: its RUN bit is cleared, and CSBs moved where `csb` says (R136, R168). (DESIGN CHOICE: log 91.) -/
def State.stopStream (s : State) (die : Nat) (stream : Option Nat) (csb : Option Word) : State :=
  match stream with
  | none => s
  | some k => s.onDisp (dieIx die) (fun x => x.onStream k (fun y => { y with run := false, csb := csb.getD y.csb }))

/-- Nothing of a core's streams, threads or arrivals is outstanding (R104). (DEDUCED: log 41.) -/
def Core.quiet (c : Core) : Bool :=
  c.cnt.toList.all (fun n => n == 0) && c.loads.isEmpty && c.stores.isEmpty && c.held.isEmpty && c.threads.isEmpty &&
  c.arrivals.isEmpty

/-- A slot of a launch whose task may still run: it waits, is saved, or has not halted and drained. -/
def State.lives (s : State) (l : Launch) (slot : Nat) : Bool :=
  match l.slots[slot]? with
  | some (.running _) => let k := s.coreAt (s.physical (l.cores.getD slot 0)); !(k.status == .halted && k.quiet)
  | some (.saved _) => !(assoc l.kept slot).any Kept.halted
  | some .gone | none => false
  | some _ => true

/-- The core's task still owns entries of its launch's schedule: released ones that are not forked, or ones that another task may
still release, while no later task of the launch comes to the core (R140, R142). (DEDUCED: log 41.) -/
def State.owes (s : State) (c : Core) : Bool :=
  match s.launchOf c, c.task with
  | some l, some t =>
    let others := (List.range l.slots.length).filter (fun i => i ≠ t.slot)
    !others.any (fun i => l.cores.getD i 256 == s.logical c.id && s.lives l i) && decide (l.lr.count ≤ t.index + l.lr.npl) &&
    l.sched.any (fun e => !e.forked && s.ownerOf l e == c.id && (e.released || others.any (s.lives l)))
  | _, _ => false

/-- A peer's store that the core's bank has accepted is still on its way (R159). (DEDUCED: log 41; DEDUCED: log 97.) -/
def State.expected (s : State) (c : Core) : Bool :=
  s.cores.any (fun q => q.pending'.any (fun p => p.clus.any (fun k => q.peer k.1 == c.id)))

/-- The core's task has halted and its streams have drained, and it owes its launch and its peers nothing (R104, R139, R142,
R159). (DEDUCED: log 41.) -/
def State.drained (s : State) (c : Core) : Bool := c.status == .halted && c.quiet && !s.expected c && !s.owes c

/-- The core can be given to a task. -/
def State.free (s : State) (c : Core) : Bool := (c.status == .idle && c.task.isNone) || s.drained c

/-- What a core keeps when it is freed: its pool and the context it last held; the L1 is invalidated (R107). -/
def Core.freed (c : Core) : Core :=
  { Core.init c.id with pool := c.pool, side := c.side, partw := c.partw, lastCtx := c.lastCtx, holdFor := c.holdFor }

/-- Changes a slot of a launch. -/
def State.setSlot (s : State) (l slot : Nat) (x : SlotSt) : State := s.onLaunch l (fun y => { y with slots := y.slots.set slot x })

/-- A halted and drained task leaves its core: its slot goes on to the next wave task or is over, and the values that its
stream carries stay in place (R139, R190). -/
def State.endTask (s : State) (c : Nat) : State :=
  let k := s.coreAt c
  match k.task, s.launchOf k with
  | some t, some l =>
    if !s.drained k then s
    else
      let next := t.index + l.lr.npl
      let s := s.setSlot l.id t.slot (if next < l.lr.count then .waiting next else .gone)
      let s := s.onCore c Core.freed
      (match l.stream with
       | none => s
       | some st =>
         let e : Carried :=
           { die := l.die, stream := st, core := s.logical c, regs := Vector.ofFn (fun i => k.arch.rs (Fin.ofNat 64 (56 + i.val))),
             seqn := k.arch.seqn, block := none, lseq := l.lseq, next := ((s.disp[(dieIx l.die).val]).streams.toList.getD st ⟨false, 0, 0⟩).csb,
             home := if l.lr.save = 0 then lightHome l.die st (s.logical c) else l.lr.saveBase t.slot }
         { s with carried := e :: s.carried.filter (fun x => !x.isOf l.die st (s.logical c)) })
  | _, _ => s

/-- Every task that has halted and drained leaves its core (R139). -/
def State.settle (s : State) : State := (s.cores.filter s.drained).foldl (fun (s : State) c => s.endTask c.id) s

/-- The mailbox that a launch handles loses the message at its head: the handler has started, or is dropped (R144). -/
def State.popMail (s : State) (h : Option (Nat × List Byte × Bool)) : State :=
  match h with
  | none => s
  | some m => { s with mboxes := s.mboxes.map (fun x => if x.pa = m.1 then { x with queue := x.queue.drop 1 } else x) }

/-! ## Choosing what runs (R135, R146 to R148) -/

/-- The order of R146: class, deadline, age, stream, sequence number; a handler or an adopted launch, which no stream has, comes
after stream 7, and the die breaks what ties are left. (DESIGN CHOICE: log 90.) -/
def Launch.key (l : Launch) : List Nat :=
  [l.eff, if l.lr.deadline = 0 then 2 ^ 64 - 1 else l.lr.deadline.toNat, l.age.toNat, l.stream.getD 8, l.lseq, l.die]

/-- One list comes before another, position by position. -/
def listLt (a b : List Nat) : Bool :=
  match a, b with
  | x :: r, y :: t => decide (x < y) || (x == y && listLt r t)
  | _, _ => false

/-- A slot of a launch stands in its save and is to be restored (R191, R376). -/
def Launch.savedAt (l : Launch) (slot : Nat) : Bool :=
  (match l.slots[slot]? with | some (.saved _) => true | _ => false) && !l.holds.contains slot

/-- The slots of a launch on a logical core. -/
def Launch.slotsOn (l : Launch) (core : Nat) : List Nat := (List.range l.slots.length).filter (fun i => l.cores.getD i 256 == core)

/-- A slot that waits for its core. -/
def Launch.waitsAt (l : Launch) (slot : Nat) : Bool := match l.slots[slot]? with | some (.waiting _) => true | _ => false

/-- The core that a CONCURRENT launch reserves next: the lowest of those still to be taken (R135). -/
def Launch.nextCore (l : Launch) : Option Nat :=
  (sortUp (((List.range l.slots.length).filter l.waitsAt).map (fun i => l.cores.getD i 256))).head?

/-- The launch is still to have a task on the core: a slot of it waits there, or stands in its save (R148). -/
def Launch.needs (l : Launch) (core : Nat) : Bool :=
  l.status == .running && (l.slotsOn core).any (fun i => l.waitsAt i || l.savedAt i)

/-- The launch would take the core if it were offered. -/
def Launch.wants (l : Launch) (core : Nat) : Bool :=
  l.status == .running &&
  ((l.slotsOn core).any l.savedAt || (if l.lr.cls = 2 then l.nextCore == some core else (l.slotsOn core).any l.waitsAt))

/-- A launch has a task to restore on the core that must run before a fresh start of launch `x` (R148). (DEDUCED: log 50.) -/
def State.owed (s : State) (x : Launch) (core : Nat) : Bool :=
  s.launches.any (fun v => v.id != x.id && v.lr.cls != 0 && v.status == .running && decide (v.eff ≤ x.eff) && (v.slotsOn core).any v.savedAt)

/-- The core is held back for another launch that still needs it (R148, R194). (DEDUCED: log 50.) -/
def State.heldBack (s : State) (x : Launch) (core : Nat) : Bool :=
  match (s.coreAt (s.physical core)).holdFor with
  | none => false
  | some h => h != x.id && s.launches.any (fun v => v.id == h && v.needs core)

/-- A launch may take the core, as far as it alone is concerned. (DEDUCED: log 50.) -/
def State.mayTake (s : State) (x : Launch) (core : Nat) : Bool :=
  x.wants core && !s.heldBack x core && ((x.slotsOn core).any x.savedAt || !s.owed x core)

/-- The core is reserved for a launch other than `x` (R135). -/
def State.reservedFor (s : State) (x : Launch) (core : Nat) : Bool :=
  s.launches.any (fun v => v.id != x.id && (v.slotsOn core).any (fun i => match v.slots[i]? with | some (.reserved _) => true | _ => false))

/-- The core is free and the launch comes first among those that may take it (R146). (DEDUCED: log 50.) -/
def State.granted (s : State) (x : Launch) (core : Nat) : Bool :=
  let c := s.physical core
  s.online c && s.free (s.coreAt c) && !s.reservedFor x core && s.mayTake x core &&
  !s.launches.any (fun v => v.id != x.id && listLt v.key x.key && s.mayTake v core)

/-- Barriers that a CONCURRENT launch uses: cluster and number, ascending (R135). -/
def State.barsOf (s : State) (l : Launch) : List (Nat × Nat) :=
  (sortUp ((l.cores.take l.lr.used).map (fun c => clusterOf (s.physical c)))).flatMap (fun cl =>
    ((List.range 16).filter (fun b => l.lr.barm.getLsbD b)).map (fun b => (cl, b)))

/-- A barrier is held by a launch, or by another than it. -/
def State.barHeld (s : State) (l : Nat) (b : Nat × Nat) : Bool :=
  s.barriers.any (fun x => x.cluster == b.1 && x.num == b.2 && x.launch == l)
def State.barBusy (s : State) (l : Nat) (b : Nat × Nat) : Bool :=
  s.barriers.any (fun x => x.cluster == b.1 && x.num == b.2 && x.launch != l)

/-- CORE_RESERVE: the next core of a CONCURRENT launch is reserved once it is free, and after the last core the next barrier
(R135). (DESIGN CHOICE: log 102.) -/
def execCoreReserve (l : Nat) (s : State) : Out :=
  let q := s.settle
  match q.launch l with
  | none => .next s
  | some x =>
    if !s.up || x.lr.cls != 2 || x.status != .running then .next s
    else match x.nextCore with
      | some core =>
        if q.granted x core then
          .next (((x.slotsOn core).filter x.waitsAt).foldl (fun (s : State) i => s.setSlot l i (.reserved i)) q)
        else .next s
      | none =>
        match (q.barsOf x).find? (fun b => !q.barHeld l b) with
        | none => .next s
        | some b =>
          if q.barBusy l b || !x.unstarted then .next s
          else .next { q with barriers := ⟨b.1, b.2, l, 0, 0⟩ :: q.barriers }

/-! ## Starting a task (R22, R138, R169, R190) -/

/-- A core as a fresh task of launch `l` finds it: wiped when the context differs, and otherwise with the scratchpad bytes
that the context left; the registers as R138 lists them, and a handler's message in line 0, POISONED where the mailbox was
(R197). -/
def Core.fresh (c : Core) (l : Launch) (logical slot t : Nat) (v : Vector Word 8 × Vector (BitVec 16) 8) : Core :=
  let wipe := c.lastCtx ≠ some l.id
  let n : Core := { Core.init c.id with partw := (partwOf l.lr.partw).getD ⟨0, 0, 0⟩ }
  let s1 : Word := match l.handler with
    | none => l.lr.param
    | some _ => BitVec.ofNat 64 (0xF8 * 2 ^ 56 + logical * 2 ^ 48)
  let a : Arch :=
    { Arch.init with
      pc := if l.lr.etab = 0 then l.lr.entry else l.etab.getD slot 0, seqn := v.2,
      s := Vector.ofFn (fun (i : Fin 64) =>
        if i.val = 1 then s1 else if i.val = 2 then BitVec.ofNat 64 l.lr.count
        else if 56 ≤ i.val then v.1.toList.getD (i.val - 56) 0 else 0) }
  let pool : Mem := if wipe then [] else c.pool.filter (fun x => n.tzBytes ≤ x.1)
  let msg : List Byte := match l.handler with | some m => m.2.1 ++ List.replicate 64 0 | none => []
  let k : Core := { n with
    arch := a, ckpt := a, src := a, pool := pool.put n.scratchBase msg, lines := if msg = [] then [] else [(0, .full)],
    task := some ⟨l.id, slot, t⟩, lastCtx := some l.id, status := .running,
    preempt := l.holds.contains slot, holdFor := if c.holdFor = some l.id then none else c.holdFor }
  if l.handler.any (fun m => m.2.2) then k.strikeLine 0 else k

/-- The L1 TLB of a core holds nothing that another context left there (R169). -/
def State.wipeTlb (s : State) (c l : Nat) : State :=
  if (s.coreAt c).lastCtx = some l then s else { s with tlb := s.tlb.filter (fun t => t.home ≠ .l1 c) }

/-- Starts task `t` of a launch on a slot whose core is free. A light block that cannot be read loses the context (R195, R367). -/
def State.startTask (s : State) (l : Launch) (slot t : Nat) : State :=
  let core := l.cores.getD slot 0
  let c := s.physical core
  let own := l.stream.map (fun st => (l.die, st))
  let s := (s.wipeTlb c l.id).passCore core own
  let lost := own.any (fun k => s.carriedLost k.1 k.2 core)
  let s := own.elim s (fun k => s.carriedRecord k.1 k.2 core)
  let r := match own with
    | some k => s.takeCarried k.1 k.2 core
    | none => ((Vector.replicate 8 0, Vector.replicate 8 0), s)
  let q := (r.2.setSlot l.id slot (.running t)).onCore c (fun k => k.fresh l core slot t r.1)
  if lost then ((q.focus c).fatal Cause.saveLost 0 0 (q.coreAt c).arch.pc 0 0 0).focus q.core.id else q

/-- TASK_START: a task starts on its free core; those of a CONCURRENT launch start together once every core and barrier is
reserved. Stage 0 of the copy schedule is released (R135, R138, R142, R144). -/
def execTaskStart (l slot : Nat) (s : State) : Out :=
  let q := s.settle
  match q.launch l with
  | none => .next s
  | some x =>
    if !s.up || x.status != .running then .next s
    else
      let pop (s : State) : State := if x.unstarted then s.popMail x.handler else s
      match x.slots[slot]? with
      | some (.waiting t) =>
        if x.lr.cls = 2 || !q.granted x (x.cores.getD slot 256) then .next s
        else .next ((pop (q.startTask x slot t)).releaseStages l)
      | some (.reserved _) =>
        if x.slots.any (fun y => match y with | .reserved _ => false | _ => true) || (q.barsOf x).any (fun b => !q.barHeld l b) then .next s
        else .next ((pop ((List.range x.slots.length).foldl (fun (s : State) i => s.startTask x i i) q)).releaseStages l)
      | _ => .next s

/-! ## Completion, rejection and fatal stop (R136, R137, R140, R168) -/

/-- A completion word. -/
def doneWord (lseq status : Nat) : List Byte := le8 (lseq % 2 ^ 32 * 2 ^ 32 + status)

/-- The dispatcher of die `d` writes a completion word; the cause when the write faults and is dropped. Nothing is written when DONE is 0 or not
8-byte aligned. -/
def State.writeDone (s : State) (d : Nat) (r : LRec) (lseq status : Nat) : State × Option Cause :=
  if r.done = 0 ∨ r.done.toNat % 8 ≠ 0 then (s, none)
  else if wbits r.done 63 57 ≠ 0 then (s, some Cause.windowBad)
  else match s.writeV d r.asid r.done.toNat (doneWord lseq status) with
    | .ok s' => (s', none)
    | .error c => (s, some c)

/-- The record of a faulting completion word (R168). -/
def State.doneFault (s : State) (die : Nat) (r : LRec) (lseq : Nat) (c : Option Cause) : State :=
  match c with
  | none => s
  | some e => s.dispReplay die (s.plainRec 0x04 e r.asid die r.done 0 (lseq % 2 ^ 32))

/-- A rejected record: its completion word, and its launch-reject record (R136). (DEDUCED: log 43; DESIGN CHOICE: log 44.) -/
def State.reject (s : State) (die : Nat) (r : LRec) (lseq code : Nat) : State :=
  let w := s.writeDone die r lseq code
  (w.1.doneFault die r lseq w.2).dispReplay die (s.plainRec 0x04 code r.asid die 0 0 (lseq % 2 ^ 32))

/-- SUCC is fired by the dispatcher of die `d`: the mailbox that it names under the record's ASID (R140, R143).
(DEDUCED: log 52.) -/
def State.fireSucc (s : State) (d : Nat) (r : LRec) : State :=
  if r.succ = 0 ∨ wbits r.succ 63 57 ≠ 0 then s
  else match (s.byDisp d).translate r.asid r.succ.toNat .write with
    | .ok p => s.fire p.pa none
    | .error _ => s

/-- Frees a core that a launch's fatal fault has stopped. -/
def Core.freeIf (c : Core) (l : Nat) : Core :=
  match c.task with
  | some t => if t.launch = l then c.freed else c
  | none => c

/-- A launch leaves the package: its barriers, tags and collectives go with it. (DEDUCED: log 53.) -/
def State.dropLaunch (s : State) (l : Nat) : State :=
  { s with core := s.core.freeIf l, others := s.others.map (fun c => c.freeIf l),
           launches := s.launches.filter (fun x => x.id ≠ l), barriers := s.barriers.filter (fun b => b.launch ≠ l),
           tags := s.tags.filter (fun t => t.1 ≠ l), colls := s.colls.filter (fun c => c.launch ≠ l) }

/-- Every task of the launch has halted and drained, and what of its schedule was released is done (R140). -/
def State.allOver (s : State) (l : Launch) : Bool :=
  l.slots.mapIdx (fun i x => (i, x)) |>.all (fun p =>
    match p.2 with
    | .gone => true
    | .running t => s.drained (s.coreAt (s.physical (l.cores.getD p.1 0))) && decide (l.lr.count ≤ t + l.lr.npl)
    | _ => false)

/-- Ends a launch with a status: the completion word, then SUCC for status 0 (R140). A stream that a fatal fault stops keeps CSBs
where its reads have brought it, and launches read ahead of it run on. (DESIGN CHOICE: log 91.) -/
def State.complete (s : State) (l : Launch) (status : Nat) : State :=
  let s := if l.unstarted then s.popMail l.handler else s
  let s := s.dropLaunch l.id
  let w := s.writeDone l.die l.lr l.lseq status
  let s := w.1.doneFault l.die l.lr l.lseq w.2
  match w.2 with
  | some _ => s.stopStream l.die l.stream (some l.lr.next)
  | none =>
    if status = 1 then s.stopStream l.die l.stream none
    else if status = 0 then s.fireSucc l.die l.lr
    else s

/-- LAUNCH_COMPLETE: every task has halted and drained, or a fatal fault has stopped the launch (R137, R140).
(DEDUCED: log 52.) -/
def execLaunchComplete (l : Nat) (s : State) : Out :=
  match s.launch l with
  | none => .next s
  | some x =>
    if !s.up then .next s
    else if x.status = .failed then .next (s.complete x 1)
    else if s.allOver x then
      .next ((x.cores.foldl (fun (s : State) c => if (s.coreAt (s.physical c)).ctx = l then s.endTask (s.physical c) else s) s).complete x
        (if x.dropped then 2 else 0))
    else .next s

/-! ## Reading records (R133, R134, R168) -/

/-- A launch joins the package and its number is used up. -/
def State.addLaunch (s : State) (x : Launch) : State := { s with launches := s.launches ++ [x], uid := s.uid + 1 }

/-- The record of a read that faults while a stream's record, MAP or ETAB is read; TASKID names the stream (R168).
(DESIGN CHOICE: log 44.) -/
def State.readFault (s : State) (d stream : Fin 8) (asid : Nat) (c : Cause) (va : Word) (n : Nat) : State :=
  ((s.lostRead d.val asid va n).stopStream d.val (some stream.val) none).dispReplay d.val { s.plainRec 0x04 c asid d.val va 0 0 with taskid := stream.val }

/-- Bytes of the MAP or the ETAB that a record names. -/
def LRec.tableLen (r : LRec) (va : Word) : Nat := if va = r.etab then 8 * r.used else r.npl

/-- LAUNCH_RECORD_READ: the record that CSBs names is read, stamped and checked. At most 16 launches of the stream are read
ahead, and a SERIAL record is not read before every earlier one has completed. What lies in another package is asked for, sector by
sector (R368). (DEDUCED: log 42; DESIGN CHOICE: log 103.) -/
def execLaunchRecordRead (d stream : Fin 8) (s : State) : Out :=
  let x := (s.disp[d.val]).streams[stream.val]
  let mine := s.launches.filter (fun l => l.die == d.val && l.stream == some stream.val)
  if !s.up || !x.run || x.csb == 0 || decide (16 ≤ (mine.filter Launch.unstarted).length) ||
      s.reading (.event (.launchRecordRead d stream)) then .next s
  else if s.missRecord d.val x.sasid.toNat x.csb false ≠ [] then
    .next (s.askLater (dispNo d.val s.readUid) (.event (.launchRecordRead d stream)) (s.missRecord d.val x.sasid.toNat x.csb false))
  else match s.readG d.val x.sasid.toNat x.csb 128 with
    | .error c => .next (s.readFault d stream x.sasid.toNat c x.csb 128)
    | .ok bs =>
      let r := parseLRec bs
      if r.serial && !mine.isEmpty then .next s
      else match s.checkRec d.val r false with
        | .fault c va => .next ((s.countSeq d).readFault d stream r.asid c va (r.tableLen va))
        | .far => .next s
        | .reject code =>
          .next (((s.countSeq d).reject d.val r (s.disp[d.val]).seqno.toNat code).stopStream d.val (some stream.val) none)
        | .ok cores etab sched thr =>
          let l := mkLaunch s.uid (s.disp[d.val]).seqno.toNat s.dtime d.val (some stream.val) x.csb r cores etab sched thr none false
          .next (((s.countSeq d).onDisp d (fun y => y.onStream stream.val (fun z => { z with csb := r.next }))).addLaunch l)

/-- A mailbox's record that is turned away: the fault of its MAP or ETAB, or its rejection (R136, R145, R168). -/
def State.turnAway (s : State) (die : Nat) (msg : Mail) : State :=
  match msg.adm with
  | .fault c va =>
    (s.lostRead die msg.lr.asid va (msg.lr.tableLen va)).dispReplay die (s.plainRec 0x04 c msg.lr.asid die va 0 0)
  | .reject code => s.reject die msg.lr msg.lseq code
  | .far | .ok .. => s

/-- The engine thread that fired a message has not ended (R99). (DEDUCED: log 45.) -/
def State.mailEarly (s : State) (msg : Mail) : Bool :=
  msg.thread.any (fun k => (s.coreAt k.1).threads.any (fun t => t.id == k.2))

/-- HANDLER_LAUNCH_START: a mailbox's record that was turned away at its fire is answered; else the message at the head of the queue
gets its handler launch, from the record as its fire read and tested it, once the handler before it has started and, with SERIAL,
completed, and the engine thread that fired it has ended. A record that lies in another package is asked for, sector by sector, and
tested as soon as it is there (R99, R136, R143 to R145, R147, R368). (DEDUCED: log 45.) -/
def execHandlerLaunchStart (m : Nat) (s : State) : Out :=
  match s.mboxes.find? (fun x => x.pa == m) with
  | none => .next s
  | some b =>
    let mine := s.launches.filter (fun l => match l.handler with | some h => h.1 == m | none => false)
    match b.turned, b.queue.findIdx? (fun q => q.adm == .far), b.queue with
    | msg :: _, _, _ =>
      if !s.up then .next s
      else .next (State.turnAway { s with mboxes := s.mboxes.map (fun x => if x.pa = m then { x with turned := x.turned.drop 1 } else x) }
        b.die msg)
    | [], some k, msg :: r =>
      if !s.up || s.reading (.event (.handlerLaunchStart m)) then .next s
      else match s.missRecord b.die b.asid b.lrec false with
        | [] => .next (s.readMail b ((msg :: r).getD k msg) (fun qs x => { x with queue := x.queue.take k ++ qs ++ x.queue.drop (k + 1) }))
        | ks => .next (s.askLater (dispNo b.die s.readUid) (.event (.handlerLaunchStart m)) ks)
    | [], _, [] => .next s
    | [], none, msg :: _ =>
      if !s.up || mine.any Launch.unstarted || (msg.lr.serial && !mine.isEmpty) || s.mailEarly msg then .next s
      else match msg.adm with
        | .ok cores etab sched thr =>
          .next (s.addLaunch { mkLaunch s.uid msg.lseq msg.age b.die none b.lrec msg.lr cores etab sched thr
            (some (m, msg.data, msg.bad)) false with eff := msg.eff, waited := msg.waited })
        | _ => .next ((s.turnAway b.die msg).popMail (some (m, msg.data, msg.bad)))

/-- The records of the save areas of a record turned away with code 0x19 whose headers no route reaches (R367, R377). -/
def State.lostSaves (s : State) (d : Nat) (r : LRec) (code : Nat) : State :=
  if code ≠ 0x19 ∨ !s.savePinned r.save r.used then s
  else match ((List.range r.used).map (fun i => r.saveBase i + 0x100)).find? (s.noRouteAt d) with
    | some pa => s.dieRecord Cause.memUe d (s.lostLink d pa) pa
    | none => s

/-- Reads the record at ADOPT and starts it from saves (R377). What lies in another package is asked for (R368).
(DEDUCED: log 79.) -/
def State.adopt (s : State) (d : Fin 8) (v : Word) : State :=
  let x := s.disp[d.val]
  if s.missRecord d.val x.adoptas.toNat v true ≠ [] then
    s.askLater (dispNo d.val s.readUid) (.event (.adoptLaunch d v)) (s.missRecord d.val x.adoptas.toNat v true)
  else match s.readG d.val x.adoptas.toNat v 128 with
  | .error c => (s.lostRead d.val x.adoptas.toNat v 128).dispReplay d.val (s.plainRec 0x04 c x.adoptas.toNat d.val v 0 0)
  | .ok bs =>
    let r := parseLRec bs
    match s.checkRec d.val r true with
    | .fault c va => (s.lostRead d.val r.asid va (r.tableLen va)).dispReplay d.val (s.plainRec 0x04 c r.asid d.val v 0 0)
    | .far => s
    | .reject code => ((s.lostSaves d.val r code).countSeq d).reject d.val r x.seqno.toNat code
    | .ok cores etab sched thr =>
      (s.countSeq d).addLaunch (mkLaunch s.uid x.seqno.toNat s.dtime d.val none v r cores etab sched thr none true)

/-- ADOPT_LAUNCH: a write to ADOPT (R377). (DEDUCED: log 79.) -/
def execAdoptLaunch (d : Fin 8) (v : Word) (s : State) : Out :=
  if !s.up then .next s
  else .next ((if s.ox.again.isSome then s else s.onDisp d (fun x => { x with adopt := v })).adopt d v)

/-! ## Classes, urgency and slices (R147, R148, R194, R248) -/

/-- Some slot of the launch waits for its core, or with its core reserved for the launch's other cores and barriers (R135). -/
def Launch.waits (l : Launch) : Bool :=
  l.status == .running && (List.range l.slots.length).any (fun i => l.waitsAt i || l.savedAt i ||
    (match l.slots[i]? with | some (.reserved _) => true | _ => false))

/-- One clk of waiting is counted (R147). -/
def Launch.wait (l : Launch) : Launch := if l.waits then { l with waited := l.waited + 1 } else l

/-- One clk of a queued message's waiting is counted, and it moves up one class when it has waited its starvation window
(R147). -/
def Mail.wait (m : Mail) (starve : Nat → Word) : Mail :=
  let w := starve m.eff
  if 0 < m.eff ∧ w ≠ 0 ∧ w.toNat ≤ m.waited + 1 then { m with eff := m.eff - 1, waited := 0 } else { m with waited := m.waited + 1 }

/-- One clk of waiting is counted in a mailbox's queue (R147). -/
def State.waitMail (s : State) (b : Mailbox) : Mailbox :=
  { b with queue := b.queue.map (fun m => m.wait (fun e => (s.disp[(dieIx b.die).val]).starve.toList.getD e 0)) }

/-- LAUNCH_PROMOTE: a launch that has waited its starvation window moves up one class (R147). -/
def execLaunchPromote (l : Nat) (s : State) : Out :=
  let q := s.settle
  match q.launch l with
  | none => .next s
  | some x =>
    let w := ((s.disp[(dieIx x.die).val]).starve.toList.getD x.eff 0)
    if s.up && x.waits && decide (0 < x.eff) && w != 0 && decide (w.toNat ≤ x.waited) then
      .next (q.onLaunch l (fun y => { y with eff := y.eff - 1, waited := 0 }))
    else .next s

/-- Asks for the full pre-emption of a core's task, with its gang when its launch is CONCURRENT (R148, R191). -/
def State.requestFull (s : State) (c : Nat) : State :=
  match s.launchOf (s.coreAt c) with
  | none => s
  | some v =>
    let hit (k : Core) : Core :=
      if (k.id = c ∨ v.lr.cls = 2) ∧ k.task.map Task.launch = some v.id then { k with preempt := true } else k
    { s with core := hit s.core, others := s.others.map hit }

/-- The victim on a core that an urgent launch needs gives way: fully when waiting for its node boundary would miss the
deadline and it allows that, otherwise at that boundary (R148). (DEDUCED: log 51.) -/
def State.pressFor (s : State) (x : Launch) (core : Nat) : State :=
  let c := s.physical core
  let k := s.coreAt c
  match s.launchOf k with
  | none => s
  | some v =>
    if v.id = x.id ∨ v.eff ≤ x.eff then s
    else
      let dl := if x.lr.deadline = 0 then 2 ^ 64 - 1 else x.lr.deadline.toNat
      if decide (dl + (k.past + k.ran) < s.dtime.toNat + v.lr.cost.toNat + x.lr.cost.toNat) && v.lr.midp then s.requestFull c
      else s.onCore c (fun k => { k with holdFor := some x.id })

/-- LAUNCH_URGENT: a waiting launch whose deadline nears presses the work of higher class number on the cores it needs
(R148). -/
def execLaunchUrgent (l : Nat) (s : State) : Out :=
  let q := s.settle
  match q.launch l with
  | none => .next s
  | some x =>
    let dl := if x.lr.deadline = 0 then 2 ^ 64 - 1 else x.lr.deadline.toNat
    let lead := (s.disp[(dieIx x.die).val]).lead.toNat
    let need := ((List.range x.slots.length).filter (fun i => x.waitsAt i || x.savedAt i)).map (fun i => x.cores.getD i 0)
    let held := need.filter (fun core => match q.launchOf (q.coreAt (q.physical core)) with
      | some v => v.id != x.id && decide (x.eff < v.eff)
      | none => false)
    if s.up && x.waits && decide (dl ≤ s.dtime.toNat + x.lr.cost.toNat + lead) && !held.isEmpty then
      .next ((held.foldl (fun (s : State) core => s.pressFor x core) q).onLaunch l (fun y => { y with urgent := true }))
    else .next s

/-- The task in focus has used up its slice: by running it, when a waiting launch of the same effective class wants its core,
or by YIELD, when one of the same or a lower class number does. It is pre-empted fully when MIDP = 1 and otherwise at its next
node boundary; with no such launch nothing happens (R194, R248). (DEDUCED: log 28.) -/
def State.sliceOut (s : State) (yields : Bool) : State :=
  match s.launchOf s.core with
  | none => s
  | some v =>
    let core := s.logical s.core.id
    let want := s.settle.launches.filter (fun w => w.id != v.id && w.wants core &&
      (if yields then decide (w.eff ≤ v.eff) else w.eff == v.eff && decide (v.slice ≤ s.core.ran)))
    match want with
    | [] => s
    | w :: r =>
      if !s.up || s.core.status == .halted || s.core.preempt then s
      else if v.lr.midp then s.requestFull s.core.id
      else
        let best := r.foldl (fun (a b : Launch) => if listLt b.key a.key then b else a) w
        s.onC (fun c => { c with holdFor := some best.id })

/-- SLICE_EXPIRY (R194). -/
def execSliceExpiry (s : State) : Out := .next (s.sliceOut false)

/-- YIELD (R248). (DEDUCED: log 28.) -/
def execYield (s : State) : Out := .next (s.sliceOut true)

/-! ## Saving and restoring (R190 to R192, R309) -/

/-- LIGHT_PREEMPT: at a node boundary a core held back for another launch writes the values that its stream carries to the
light block and is free (R148, R190). (DEDUCED: log 48.) -/
def execLightPreempt (s : State) : Out :=
  match s.core.holdFor with
  | none => .next s
  | some h =>
    match s.launch h with
    | none => .next s
    | some x =>
      let core := s.logical s.core.id
      if s.free s.core && x.needs core then
        .next ((s.endTask s.core.id).passCore core (x.stream.map (fun st => (x.die, st))))
      else .next s

/-- Core `c` writes the counts of its cluster's barriers at an address of its save area; with no route left they are poisoned
(R152, R367). -/
def State.putBars (s : State) (c : Nat) (x : Launch) (pa : Nat) : State :=
  let d := dieOf c
  if s.noRouteAt d pa then
    { s.dieRecord Cause.memUe d (s.lostLink d pa) pa with poison := (List.range 4).map (fun i => pa / 32 + i) ++ s.poison }
  else { s with mem := s.mem.put pa ((s.barWords (clusterOf c) x).flatMap le8) }

/-- The last member of a gang has been saved: every member's area takes the counts of the barriers, and they are given up. What no route
leads to any more is poisoned (R152, R367). (DEDUCED: log 49.) -/
def State.saveBars (s : State) (l : Nat) : State :=
  match s.launch l with
  | none => s
  | some x =>
    if x.slots.any (fun y => match y with | .running _ => true | _ => false) then s
    else
      let s := (List.range x.slots.length).foldl (fun (s : State) i =>
        match x.slots.getD i SlotSt.gone with
        | SlotSt.saved _ => s.putBars (s.physical (x.cores.getD i 0)) x (x.lr.saveBase i + 0x580)
        | _ => s) s
      { s with barriers := s.barriers.filter (fun b => b.launch ≠ l) }

/-- FULL_SAVE: a core stopped for it writes its full save once its gate has drained and its threads and arrivals have settled,
and is free (R191, R192); so does a halted member of a gang that its launch's schedule keeps, when the gang is saved (R142, R148); a halted slot of another launch
ends as it would (R376). Data that cannot be read lose the context (R195). -/
def execFullSave (s : State) : Out :=
  match s.core.task, s.launchOf s.core with
  | some t, some l =>
    let ended := l.lr.cls == 2 && s.core.status == .halted && s.core.preempt && s.owes s.core
    if (s.core.status != .saving && !ended) || !s.core.quiet || s.expected s.core then .next s
    else if s.core.saveBad then .next (s.fatal Cause.saveLost 0 0 s.core.arch.pc 0 0 0)
    else
      let k := s.core.keeps
      let s := s.saveFull s.core l (l.lr.saveBase t.slot)
      let s := s.onC Core.freed
      let s := s.onLaunch l.id (fun (y : Launch) => { y with slots := y.slots.set t.slot (SlotSt.saved t.index), kept := bindTo y.kept t.slot k })
      .next (if l.lr.cls = 2 then s.settle.saveBars l.id else s)
  | _, _ => .next s

/-- Restores one slot on its core and forks the continuation of a factorisation; a save that no route leads to is lost (R191, R195,
R309, R367). -/
def State.restoreSlot (s : State) (l : Launch) (slot : Nat) : State :=
  let core := l.cores.getD slot 0
  let c := s.physical core
  let base := l.lr.saveBase slot
  let home := s.core.id
  let s := (s.wipeTlb c l.id).passCore core (l.stream.map (fun st => (l.die, st)))
  let n := s.restoreCore (s.coreAt c) l slot base
  let s := ((s.onCore c (fun _ => n)).setSlot l.id slot (.running (match n.task with | some t => t.index | none => slot))).focus c
  let s := if s.noRouteAt (dieOf c) base then s.dieRecord Cause.memUe (dieOf c) (s.lostLink (dieOf c) base) base else s
  let s := if s.saveLost l slot base || s.noRouteAt (dieOf c) base then s.fatal Cause.saveLost 0 0 n.arch.pc 0 0 0
    else match s.savedContin base with
      | none => s
      | some k =>
        (s.fork k.ins xOrd (xMakes k.ins (shapeW k.sh)) (fun t => { t with sh := k.sh, pivt := k.pivt, zpol := k.zpol, pc := k.pc })).onC
          (fun c => { c with ckpt := c.arch })
  s.focus home

/-- The barrier counts that a gang's saves hold come back (R152). -/
def State.restoreBars (s : State) (l : Launch) (slot : Nat) : State :=
  let cl := clusterOf (s.physical (l.cores.getD slot 0))
  let ws := (List.range 16).map (fun b => s.savedWord (l.lr.saveBase slot) (0x580 + 8 * b))
  let add := ((List.range 16).filter (fun b => l.lr.barm.getLsbD b && !s.barHeld l.id (cl, b))).map (fun b =>
    (⟨cl, b, l.id, nth ws b % 2 ^ 32, nth ws b / 2 ^ 32⟩ : Barrier))
  { s with barriers := add ++ s.barriers }

/-- FULL_RESTORE: a saved task is restored on its core; those of a CONCURRENT launch are restored together (R148, R191).
(DEDUCED: log 63.) -/
def execFullRestore (l slot : Nat) (s : State) : Out :=
  let q := s.settle
  match q.launch l with
  | none => .next s
  | some x =>
    if !s.up || x.status != .running || !x.savedAt slot then .next s
    else if x.lr.cls = 2 then
      let all := (List.range x.slots.length).filter x.savedAt
      if x.slots.any (fun y => match y with | .running _ => true | _ => false) ||
         all.any (fun i => !q.granted x (x.cores.getD i 256)) || (q.barsOf x).any (fun b => q.barBusy l b) then .next s
      else .next ((all.foldl (fun (s : State) i => (s.restoreBars x i).restoreSlot x i) q).releaseStages l)
    else if q.granted x (x.cores.getD slot 256) then .next ((q.restoreSlot x slot).releaseStages l)
    else .next s

/-! ## HOLD and DROP (R376) -/

/-- SLOT_HOLD: a write to offset 0x180 names a slot; one of a running WEAK or PARALLEL launch with MIDP = 1 and
COUNT ≤ NPL is fully pre-empted and never restored. Ignored while HELD = 1. (DEDUCED: log 79.) -/
def execSlotHold (d : Fin 8) (v : Word) (s : State) : Out :=
  if s.held d.val then .next s
  else
    let slot := wbits v 39 32
    let s := s.onDisp d (fun x => { x with holdSlot := BitVec.ofNat 8 slot, holdLseq := BitVec.ofNat 32 (wbits v 31 0) })
    match s.launchBySeq d.val (wbits v 31 0) with
    | none => .next s
    | some l =>
      if l.status == .running && l.lr.cls != 2 && l.lr.midp && decide (l.lr.count ≤ l.lr.npl) && decide (slot < l.slots.length) then
        let s := s.onLaunch l.id (fun y => { y with holds := slot :: y.holds.filter (fun i => i ≠ slot) })
        (match l.slots[slot]? with
         | some (.running _) => .next (s.requestFull (s.physical (l.cores.getD slot 0)))
         | _ => .next s)
      else .next s

/-- SLOT_DROP: the held slot is given up and counts as halted. Ignored while HELD = 0. (DEDUCED: log 79.) -/
def execSlotDrop (d : Fin 8) (s : State) : Out :=
  if !s.held d.val then .next s
  else
    let x := s.disp[d.val]
    match s.launchBySeq d.val x.holdLseq.toNat with
    | none => .next s
    | some l => .next (s.onLaunch l.id (fun y =>
        { y with slots := y.slots.set x.holdSlot.toNat .gone, dropped := true, holds := y.holds.filter (fun i => i ≠ x.holdSlot.toNat) }))

end Sys2Proof.Machine
end

