-- ==== Sys2Proof/Machine/Rsa.lean ====
section
/-! DEFINITION. RSASSA-PSS with RSA-3072, SHA-256 and a salt of 32 bytes (R173, R174), as the public standard that the spec
names defines it (PRESUMED: log 74): signing with the identity key, and checking a firmware image. -/

namespace Sys2Proof.Machine

/-- A public key in bytes: the modulus, 384 bytes, then the exponent, 4 bytes, each most significant first.
(DESIGN CHOICE: log 98.) -/
def keyModulus (key : List Byte) : Nat := beVal (key.take 384)
def keyExponent (key : List Byte) : Nat := beVal ((key.drop 384).take 4)

/-- `b` to the power `e` modulo `n`, by squares; `fuel` bits of `e` are used. -/
def powMod (n b e fuel : Nat) : Nat :=
  match fuel with
  | 0 => 1 % n
  | k + 1 => let r := powMod n (b * b % n) (e / 2) k; if e % 2 = 1 then b * r % n else r

/-- A power modulo `n` with every bit of the exponent. -/
def modExp (n b e : Nat) : Nat := powMod n (b % n) e (e.log2 + 1)

/-- The mask generation function over SHA-256: the first `n` bytes of the digests of the seed with a counter.
(PRESUMED: log 74.) -/
def mgf1 (seed : List Byte) (n : Nat) : List Byte :=
  ((List.range (n / 32 + 1)).flatMap (fun i => sha256 (seed ++ beBytes 4 i))).take n

/-- Bytes combined with a mask. -/
def maskWith (mask bs : List Byte) : List Byte := List.zipWith (· ^^^ ·) mask bs

/-- The block under the mask: zeros, a byte 01, the salt. -/
def pssBlock (salt : List Byte) : List Byte := List.replicate 318 0 ++ 1 :: salt

/-- The digest that an encoding carries: of eight zero bytes, the message's digest and the salt. -/
def pssHash (digest salt : List Byte) : List Byte := sha256 (List.replicate 8 0 ++ digest ++ salt)

/-- The top bit of an encoding, which 3,071 bits leave out, is 0. -/
def clearTop (bs : List Byte) : List Byte := match bs with | [] => [] | b :: r => (b &&& 0x7F) :: r

/-- The encoding of a message's digest with a salt: 384 bytes. -/
def pssEncode (digest salt : List Byte) : List Byte :=
  let h := pssHash digest salt
  clearTop (maskWith (mgf1 h 351) (pssBlock salt)) ++ h ++ [0xBC]

/-- An encoding belongs to a message's digest. -/
def pssCheck (digest em : List Byte) : Bool :=
  let h := (em.drop 351).take 32
  let db := clearTop (maskWith (mgf1 h 351) (em.take 351))
  let salt := db.drop 319
  decide (em.length = 384) && decide (em.take 351 = clearTop (em.take 351)) && em.drop 383 == [0xBC] &&
  db == pssBlock salt && h == pssHash digest salt

/-- The signature with secret exponent `d` over a message's digest. -/
def rsaSign (n d : Nat) (digest salt : List Byte) : List Byte := beBytes 384 (modExp n (beVal (pssEncode digest salt)) d)

/-- A signature checks under a public key, for a message's digest. -/
def rsaVerify (key digest sig : List Byte) : Bool :=
  let n := keyModulus key
  decide (sig.length = 384) && decide (beVal sig < n) &&
  pssCheck digest (beBytes 384 (modExp n (beVal sig) (keyExponent key)))

end Sys2Proof.Machine
end

