-- ==== Sys2Proof/Machine/Regs.lean ====
section
/-! DEFINITION. Writes to the package's registers (R11, R133, R145, R167, R174, R188, R198, R365 to R376) and what they start:
invalidations, mailbox commands and attestation. Each register has its behaviour in one place; the host's events and a write
that lands in region 0x2 share it. -/

namespace Sys2Proof.Machine

/-! ## Dispatcher streams (R133, R190) -/

/-- The dispatcher of die `d` gives up the reads of its streams' records that wait for another package (R368). -/
def State.dropReads (s : State) (d : Fin 8) : State :=
  let read (w : Wait) : Bool := match w.act.what with | .event (.launchRecordRead e _) => e == d | _ => false
  { s with ox := { s.ox with waits := s.ox.waits.filter (fun w => !read w) } }

/-- A write to RUN: a stream whose bit rises carries no values; what its dispatcher has begun to read of records in another package it
reads anew. -/
def State.writeRun (s : State) (d : Fin 8) (v : Word) : State :=
  let old := (s.disp[d.val]).streams
  let rises (k : Nat) : Bool := v.getLsbD k && !(old.toList.getD k ⟨false, 0, 0⟩).run
  let s := (s.onDisp d (fun x => { x with streams := x.streams.mapFinIdx (fun i y _ => { y with run := v.getLsbD i }) })).dropReads d
  { s with carried := s.carried.filter (fun e => !(e.die == d.val && rises e.stream)) }

/-- DISPATCH_RUN_WRITE (R133). -/
def execDispatchRunWrite (d : Fin 8) (v : Word) (s : State) : Out := .next (s.writeRun d v)

/-- A write to CSBs. -/
def State.writeCsb (s : State) (d stream : Fin 8) (v : Word) : State :=
  (s.onDisp d (fun x => x.onStream stream.val (fun y => { y with csb := v }))).dropReads d

/-- DISPATCH_CSB_WRITE (R133). -/
def execDispatchCsbWrite (d stream : Fin 8) (v : Word) (s : State) : Out := .next (s.writeCsb d stream v)

/-! ## Mailboxes (R143, R145) -/

/-- The translation of MBADDR under MBASID, as a write of the dispatcher of die `d`. -/
def State.mbPhys (s : State) (d : Nat) (x : Disp) : Option Phys :=
  if wbits x.mbaddr 63 57 ≠ 0 then none
  else match (s.byDisp d).translate x.mbasid.toNat x.mbaddr.toNat .write with
    | .ok p => some p
    | .error _ => none

/-- A register command: the first code that fails, or the mailbox bound to its physical line, which is the 64 bytes at the
address. (DEDUCED: log 87.) -/
def State.mbRegister (s : State) (d : Fin 8) : State × BitVec 4 :=
  let x := s.disp[d.val]
  if x.mbaddr.toNat % 64 ≠ 0 ∨ x.mblrec.toNat % 128 ≠ 0 then (s, 1)
  else match s.mbPhys d.val x with
    | none => (s, 2)
    | some p =>
      if p.cls ≠ .seq then (s, 2)
      else if s.homeDie p.pa ≠ some d.val then (s, 3)
      else if s.mboxes.any (fun m => m.pa == p.pa) then (s, 4)
      else if 4096 ≤ s.mboxes.length then (s, 5)
      else ({ s with mboxes := s.mboxes ++ [⟨p.pa, x.mbasid.toNat, x.mblrec, d.val, [], []⟩] }, 0)

/-- An unregister command: the first code that fails, or the mailbox is gone with its queued fires and the handler that has
not started. (DEDUCED: log 87.) -/
def State.mbUnregister (s : State) (d : Fin 8) : State × BitVec 4 :=
  let x := s.disp[d.val]
  if x.mbaddr.toNat % 64 ≠ 0 then (s, 1)
  else match s.mbPhys d.val x with
    | none => (s, 2)
    | some p =>
      if s.homeDie p.pa ≠ some d.val then (s, 3)
      else if !s.mboxes.any (fun m => m.pa == p.pa && m.asid == x.mbasid.toNat) then (s, 6)
      else
        let due := (s.launches.filter (fun l => l.unstarted && (match l.handler with | some h => h.1 == p.pa | none => false))).map Launch.id
        (due.foldl State.dropLaunch { s with mboxes := s.mboxes.filter (fun m => m.pa ≠ p.pa) }, 0)

/-- Runs a mailbox command unless one is in progress; MBBUSY is 1 until it is done. -/
def State.mbCommand (s : State) (d : Fin 8) (f : State → State × BitVec 4) : State :=
  if (s.disp[d.val]).mbop.isSome then s
  else
    let r := f s
    r.1.onDisp d (fun x => { x with mbop := some r.2 })

/-- MAILBOX_REGISTER: MBCMD 01 (R145). -/
def execMailboxRegister (d : Fin 8) (s : State) : Out := .next (s.mbCommand d (fun s => s.mbRegister d))
/-- MAILBOX_UNREGISTER: MBCMD 10 (R145). -/
def execMailboxUnregister (d : Fin 8) (s : State) : Out := .next (s.mbCommand d (fun s => s.mbUnregister d))
/-- MAILBOX_COMMAND_DONE: MBSTAT takes the result and MBBUSY returns to 0 (R145). -/
def execMailboxCommandDone (d : Fin 8) (s : State) : Out :=
  .next (s.onDisp d (fun x => match x.mbop with
    | some v => { x with mbstat := v, mbop := none }
    | none => x))

/-! ## Translation control (R163, R166, R167) -/

/-- The operation that GO starts. -/
def TransCtl.goOp (t : TransCtl) : Option Nat × Nat × Nat :=
  (if t.all then none else some t.iasid.toNat, t.iva.toNat / 65536, t.ilen.toNat)

/-- Starts an operation: BUSY is 1 until it is complete. -/
def State.startOp (s : State) (op : Option Nat × Nat × Nat) : State := { s with tc := { s.tc with busy := true, op := some op } }

/-- TLB_INVALIDATE: a write of 1 to GO. -/
def execTlbInvalidate (s : State) : Out := 
  if s.tc.busy then .next s else .next (({ s with tc := { s.tc with go := true } } : State).startOp s.tc.goOp)

/-- The descriptor that the three words hold; none while V is 0. Its fields are used as they stand (R163).
(DESIGN CHOICE: log 89.) -/
def descOf (d0 d1 d2 : Word) : Option Desc :=
  if d0.getLsbD 0 then some ⟨wbits d0 51 12, d1.toNat, wbits d2 5 0⟩ else none

/-- DESCRIPTOR_WRITE: a write to DWORD2 stores the descriptor of DIDX and invalidates every entry of that ASID.
(DESIGN CHOICE: log 121.) -/
def execDescriptorWrite (v : Word) (s : State) : Out :=
  if s.tc.busy then .next s
  else
    let s := { s with tc := { s.tc with dword2 := v } }
    let k := s.tc.didx.toNat
    let s := { s with descs := match descOf s.tc.dword0 s.tc.dword1 v with | some d => bindTo s.descs k d | none => unbind s.descs k }
    .next (s.startOp (some k, 0, 0))

/-- A cached entry is covered by an operation; a page covered in part is dropped whole. -/
def covered (op : Option Nat × Nat × Nat) (t : TlbEnt) : Bool :=
  (match op.1 with | none => true | some a => a == t.asid) &&
  (op.2.2 == 0 || (decide (t.vpage * t.size < (op.2.1 + op.2.2) * 65536) && decide (op.2.1 * 65536 < (t.vpage + 1) * t.size)))

/-- The core has an access of memory that is translated and not performed: in flight, held back or in its gate, or the reading of
its word that arms a WAITM. -/
def Core.accessing (c : Core) : Bool :=
  c.loads.any (fun l => l.parts != []) || c.pending'.any (fun p => p.parts != []) || c.monitor.any (fun m => !m.armed && m.cause.isNone)

/-- INVALIDATE_COMPLETE: BUSY returns to 0 once no access of an address space that the operation covers is translated and not
performed; every covered entry has been dropped. (DEDUCED: log 64.) -/
def execInvalidateComplete (s : State) : Out :=
  match s.tc.op with
  | none => .next s
  | some op =>
    let mine (c : Core) : Bool := match op.1 with | none => true | some a => s.asidOf c == a
    if s.cores.any (fun c => mine c && c.accessing) then .next s
    else .next { s with tc := { s.tc with busy := false, op := none }, tlb := s.tlb.filter (fun t => !covered op t) }

/-! ## The enumeration record (R48) -/

/-- The header of a capability record (R47). -/
def capHead (ident ver len : Nat) : List Byte := le8 (len * 2 ^ 24 + ver * 2 ^ 16 + ident)

/-- CAP_ENUM as it stands, with its header. (DEDUCED: log 76.) -/
def State.capEnum (s : State) : List Byte :=
  capHead 1 1 432 ++ leBytes 8 (gradeCode s.grade) ++
  (List.range 8).flatMap (fun d =>
    let e := s.die d
    le8 (s.enumWord d).toNat ++ leBytes 4 e.offline.toNat ++ leBytes 4 e.slices.toNat ++
    e.remap.toList.map (fun x => BitVec.ofNat 8 x.val)) ++
  (List.range 8).flatMap (fun i => leBytes 4 (((List.range 8).map (fun j => s.latency i j * 16 ^ j)).sum))

/-- The rest of the capability list: CAP_FMT, CAP_FACT, CAP_TROY, CAP_PFX (R338), CAP_LINK (R369), and the end.
(DEDUCED: log 76; DESIGN CHOICE: log 116.) -/
def State.capRest (s : State) : List Byte :=
  let emu := s.grade == .g224L
  capHead 2 1 16 ++ le8 (if emu then 0x0002FE7D else 0xFE7F) ++
  capHead 3 1 16 ++ le8 (b2n emu 18 + 128 * 2 ^ 9 + 256) ++
  capHead 4 1 16 ++ le8 1 ++
  capHead 5 1 16 ++ le8 (4096 * 2 ^ 48 + 2 ^ 32 + Config.prefixCap) ++
  capHead 6 1 144 ++ le8 s.ox.pkg.toNat ++ s.ox.ports.toList.flatMap (fun w => le8 w.toNat) ++
  capHead 0 0 8

/-- The firmware writes the capability list as it stands into the capability area (R47); what it writes whole is poisoned no longer,
and with no route left all of it is poisoned (R197, R367). (DEDUCED: log 76.) -/
def State.writeCaps (s : State) : State :=
  let a := s.capArea
  let bs := s.capEnum ++ s.capRest
  let ks := (List.range ((bs.length + 31) / 32)).map (fun i => a / 32 + i)
  if s.crownLost a then { s.dieRecord Cause.memUe ((s.homeDie a).getD 0) 76 a with poison := ks ++ s.poison }
  else { s with mem := s.mem.put a bs,
                poison := s.poison.filter (fun k => !(decide (a ≤ 32 * k) && decide (32 * k + 32 ≤ a + bs.length))) }

/-! ## Attestation (R174) -/

/-- An address that the security engine takes for `n` bytes. -/
def State.secOk (s : State) (pa n : Nat) : Bool :=
  pa % 32 == 0 && s.region pa != .none && s.region (pa + n - 1) != .none && !s.reserved pa n

/-- ATTEST_REQUEST: a write of 1 to GO. -/
def execAttestRequest (s : State) : Out :=
  if s.sec.state = .busy then .next { s with sec := { s.sec with refused := true } }
  else if s.secOk s.sec.noncepa 32 && s.secOk s.sec.outpa 544 then .next { s with sec := { s.sec with state := .busy } }
  else .next { s with sec := { s.sec with state := .fault } }

/-- A digest as bytes, its first byte the most significant. -/
def digestBytes (d : BitVec 256) : List Byte := (leBytes 32 d.toNat).reverse

/-- Bytes 0 to 159 of a report. (DEDUCED: log 75.) -/
def State.reportBody (s : State) : List Byte :=
  leBytes 4 1 ++ leBytes 4 (gradeCode s.grade) ++ le8 s.sec.svn.toNat ++ digestBytes s.sec.fwdig ++ sha256 s.capEnum ++
  s.crownBytes (flatPart s.sec.noncepa 32) ++ le8 s.dtime.toNat ++ le8 s.sec.serial.toNat ++ sha256 s.sec.idpub

/-- The signature of a report with the identity key; its salt is free. (DEDUCED: log 75.) -/
def State.reportSig (s : State) (body : List Byte) : List Byte :=
  rsaSign (keyModulus s.sec.idpub) s.sec.idpriv (sha256 body) ((List.range 32).map (Config.freeByte s.fresh))

/-- ATTEST_DONE: the report is written to the buffer with its signature, and STATE becomes DONE; the engine is of the crown die
(R170, R367, R368). (DEDUCED: log 75.) -/
def execAttestDone (s : State) : Out :=
  if s.sec.state ≠ .busy || s.reading (.event .attestDone) then .next s
  else
    let r := s.reportBody ++ s.reportSig s.reportBody
    .next (s.crownRead (.event .attestDone) [flatPart s.sec.noncepa 32] (fun t =>
      { t.crownPut [flatPart s.sec.outpa r.length] r with sec := { s.sec with state := .done } }))

/-! ## Trap queues as the host drains them (R171) -/

/-- Cores and threads of a context send the records that waited for room, each core in focus in turn. (DEDUCED: log 46.) -/
def State.retryCtx (s : State) (l : Nat) : State :=
  let home := s.core.id
  let ids := (s.cores.filter (fun c => c.task.any (fun t => t.launch == l))).map Core.id
  (ids.foldl (fun (s : State) id => (s.focus id).retryReplay) s).focus home

/-- The host writes CONS of a queue: the entries below it are free again, and what waited for room goes on.
(DEDUCED: log 46.) -/
def State.takeQueue (s : State) (q : QueueName) (cons : BitVec 32) : State :=
  match q with
  | .ctx l true => s.onCtxQ l (fun x => { x with fatal := x.fatal.take cons })
  | .ctx l false => (s.onCtxQ l (fun x => { x with replay := x.replay.take cons })).retryCtx l
  | .disp d true => s.onDispQ d (fun x => { x with fatal := x.fatal.take cons })
  | .disp d false => s.onDispQ d (fun x => { x with replay := x.replay.take cons })

/-! ## Power, package number, journal (R369, R371, R374) -/

/-- PLIM clamped. -/
def State.writePlim (s : State) (v : Word) : State :=
  { s with power := { s.power with plim := BitVec.ofNat 16 (min 3650 (max 1000 (wbits v 15 0))) } }

/-- PLIM_WRITE (R371). -/
def execPlimWrite (v : Word) (s : State) : Out := .next (s.writePlim v)

/-- The package number, written once; CAP_LINK shows it. -/
def State.writePkg (s : State) (v : Word) : State :=
  if s.ox.pkgSet then s else ({ s with ox := { s.ox with pkg := v.setWidth 11, pkgSet := true } } : State).writeCaps

/-- PKG_NUMBER_WRITE (R369). -/
def execPkgNumberWrite (v : Word) (s : State) : Out := .next (s.writePkg v)

/-- JOURNAL_CLEAR: the remembered failures and alternates are cleared; the entries stay (R374). -/
def execJournalClear (s : State) : Out := .next { s with journal := { s.journal with memory := [] } }

/-! ## Any register (R11, R365) -/

/-- The state that a step answers, or the one before it. -/
def outState (s : State) (o : Out) : State := match o with | .next t => t | _ => s

/-- A write to a register of the translation control block, ignored while BUSY. -/
def State.writeTrans (s : State) (off : Nat) (v : Word) : State :=
  if s.tc.busy then s
  else match off with
    | 0x000 => { s with tc := { s.tc with all := v.getLsbD 12, iasid := v.setWidth 12 } }
    | 0x008 => { s with tc := { s.tc with iva := BitVec.ofNat 64 (wbits v 56 16 * 2 ^ 16) } }
    | 0x010 => { s with tc := { s.tc with ilen := v.setWidth 32 } }
    | 0x018 => if v.getLsbD 0 then outState s (execTlbInvalidate s) else { s with tc := { s.tc with go := false } }
    | 0x100 => { s with tc := { s.tc with didx := v.setWidth 12 } }
    | 0x108 => { s with tc := { s.tc with dword0 := v } }
    | 0x110 => { s with tc := { s.tc with dword1 := v } }
    | 0x118 => outState s (execDescriptorWrite v s)
    | _ => s

/-- A write to a register of the security engine. -/
def State.writeSec (s : State) (off : Nat) (v : Word) : State :=
  match off with
  | 0x000 => if s.sec.state = .busy then s else { s with sec := { s.sec with noncepa := wbits v 51 0 } }
  | 0x008 => if s.sec.state = .busy then s else { s with sec := { s.sec with outpa := wbits v 51 0 } }
  | 0x010 => if v.getLsbD 0 then outState s (execAttestRequest s) else s
  | 0x018 => if v.getLsbD 8 then { s with sec := { s.sec with refused := false } } else s
  | _ => s

/-- A write to a register of the root-port block (R366). -/
def State.writePorts (s : State) (off : Nat) (v : Word) : State :=
  if 0x1000 ≤ off ∧ off < 0x5000 then
    let r : Requester := ⟨BitVec.ofNat 16 (wbits v 31 16), v.getLsbD 12, v.setWidth 12⟩
    { s with ports := { s.ports with table := bindTo s.ports.table ((off - 0x1000) / 8) r } }
  else if 0x8000 ≤ off ∧ off < 0x8040 then
    { s with ports := { s.ports with ureq := s.ports.ureq.mapFinIdx (fun i x _ => if i = (off - 0x8000) / 8 then v.setWidth 32 else x) } }
  else s

/-- A write to a word of an Oxlink group entry (R370): reserved bytes read 0. -/
def Group.put (g : Group) (i : Nat) (v : Word) : Group :=
  match i with
  | 0 => { g with w0 := BitVec.ofNat 64 (v.toNat % 2 ^ 56) }
  | 1 => { g with w1 := v }
  | 2 => { g with w2 := v }
  | _ => g

/-- A write to a register of Oxlink control. -/
def State.writeOx (s : State) (off : Nat) (v : Word) : State :=
  if off = 0 then s.writePkg v
  else if 0x100 ≤ off ∧ off < 0x900 then
    let k := (off - 0x100) / 32
    { s with ox := { s.ox with groups := bindTo s.ox.groups k (((assoc s.ox.groups k).getD ⟨0, 0, 0, 0⟩).put ((off - 0x100) % 32 / 8) v) } }
  else s

/-- A verdict written to REPLY (R188). -/
def State.writeReply (s : State) (d : Fin 8) (v : Word) : State :=
  let k : BitVec 16 := BitVec.ofNat 16 (wbits v 23 8)
  match wbits v 1 0 with
  | 0 => outState s (execReplyResume d k s)
  | 1 => outState s (execReplyDeliver d k s)
  | 2 => outState s (execReplyKill d k s)
  | n => s.setReply d k n

/-- A write to a register of a dispatcher. -/
def State.writeDisp (s : State) (d : Fin 8) (off : Nat) (v : Word) : State :=
  let busy := (s.disp[d.val]).mbop.isSome
  if off = 0 then s.writeRun d v
  else if 0x008 ≤ off ∧ off < 0x048 then s.writeCsb d (Fin.ofNat 8 ((off - 8) / 8)) v
  else if 0x048 ≤ off ∧ off < 0x068 then
    s.onDisp d (fun x => { x with starve := x.starve.mapFinIdx (fun i w _ => if i = (off - 0x48) / 8 then v else w) })
  else if off = 0x068 then s.onDisp d (fun x => { x with lead := v })
  else if 0x080 ≤ off ∧ off < 0x0C0 then
    (s.onDisp d (fun x => x.onStream ((off - 0x80) / 8) (fun y => { y with sasid := v.setWidth 12 }))).dropReads d
  else if off = 0x100 then s.writeReply d v
  else if off = 0x180 then outState s (execSlotHold d v s)
  else if off = 0x188 then (if v.getLsbD 0 then outState s (execSlotDrop d s) else s)
  else if off = 0x190 then outState s (execAdoptLaunch d v s)
  else if off = 0x198 then s.onDisp d (fun x => { x with adoptas := v.setWidth 12 })
  else if off = 0x200 then (if busy then s else s.onDisp d (fun x => { x with mbaddr := v }))
  else if off = 0x208 then (if busy then s else s.onDisp d (fun x => { x with mblrec := v }))
  else if off = 0x210 then (if busy then s else s.onDisp d (fun x => { x with mbasid := v.setWidth 12 }))
  else if off = 0x218 then
    (match wbits v 1 0 with
     | 1 => s.mbCommand d (fun s => s.mbRegister d)
     | 2 => s.mbCommand d (fun s => s.mbUnregister d)
     | _ => s)
  else s

/-- A write of 8 bytes to a register of region 0x2 (R365); a write that names no register is dropped. -/
def State.regWrite (s : State) (block off : Nat) (v : Word) : State :=
  if block = 1 then s.writeTrans off v
  else if block = 2 then s.writeSec off v
  else if block = 3 then s.writePorts off v
  else if block = 4 then (if off = 0 then s.writePlim v else s)
  else if block = 5 then (if off = 0 ∧ v.getLsbD 0 then outState s (execJournalClear s) else s)
  else if block = 6 then s.writeOx off v
  else if 0x10 ≤ block ∧ block < 0x18 then s.writeDisp (dieIx (block - 0x10)) off v
  else if 0x20 ≤ block ∧ block < 0x28 then
    (if off < 8 * 77 then { s with errs := bindTo s.errs (77 * (block - 0x20) + off / 8) v } else s)
  else s

/-- REGISTER_WRITE: a write to a register acts by its access type and its behaviour (R11). -/
def execRegisterWrite (block : BitVec 16) (off : BitVec 32) (v : Word) (s : State) : Out :=
  .next (s.regWrite block.toNat (off.toNat / 8 * 8) v)

end Sys2Proof.Machine
end

