-- ==== Sys2Proof/Machine/Boot.lean ====
section
/-! DEFINITION. Start-up, the boot journal and the power manager (R149, R173, R371 to R374). -/

namespace Sys2Proof.Machine

/-! ## Power off -/

/-- The package without power: what is fused or held in flash stays, everything else is as at reset. (DEDUCED: log 73.) -/
def State.powerOff (s : State) : State :=
  { State.reset with
    journal := s.journal, grade := s.grade, agenda := s.agenda, fresh := s.fresh, uid := s.uid,
    sec := { s.sec with noncepa := 0, outpa := 0, refused := false, state := .idle, svn := 0, fwdig := 0 },
    dies := s.dies.map (fun d => { DieEnum.init with live := d.live }) }

/-! ## Steps and units (R372) -/

/-- Units of a start-up step: dies, physical cores, slices (32 × die + slice), cube links (3 × lower die + k), ports.
(DESIGN CHOICE: log 71.) -/
def State.stepUnits (s : State) (n : Nat) : List Nat :=
  match n with
  | 4 | 5 => List.range 8
  | 6 => (List.range 256).filter (fun c => (s.die (dieOf c)).live.getLsbD (c % 32))
  | 7 => List.range 256
  | 8 => (List.range 24).filter (fun u => u / 3 / 2 ^ (u % 3) % 2 == 0)
  | 9 => List.range 16
  | _ => [0]

/-- Alternates of a step. -/
def stepAlts (n : Nat) : Nat := if n = 4 ∨ n = 5 ∨ n = 8 ∨ n = 9 then 1 else 0

/-- Steps that must pass. -/
def stepRequired (n : Nat) : Bool := decide (n ≤ 3) || decide (10 ≤ n)

/-! ## The journal (R373) -/

/-- The remembered end of a unit's step. -/
def Journal.recall (j : Journal) (k : Nat × Nat) : Option (Nat × Nat) := (j.memory.find? (fun m => m.1 == k)).map Prod.snd

/-- An entry is written; the oldest of 4,096 is overwritten, and the unit's last status is remembered. -/
def Journal.note (j : Journal) (step unit alt status : Nat) (t : Word) : Journal :=
  let es := j.entries ++ [⟨j.starts, step, unit, alt, status, t⟩]
  { j with entries := es.drop (es.length - 4096), memory := ((step, unit), (alt, status)) :: j.memory.filter (fun m => m.1 ≠ (step, unit)) }

/-- The alternate that a unit runs with at this start; none where the step is skipped. (DESIGN CHOICE: log 71.) -/
def Journal.choose (j : Journal) (step unit : Nat) : Option Nat :=
  match j.recall (step, unit) with
  | none => some 0
  | some (a, st) =>
    if st = 1 ∨ stepRequired step then some a
    else if st ≠ 3 ∧ a < stepAlts step then some (a + 1)
    else none

/-! ## What a unit's end leaves (R45, R48, R369, R372) -/

/-- Changes a die. -/
def State.onDie (s : State) (d : Nat) (f : DieEnum → DieEnum) : State := { s with dies := s.dies.mapFinIdx (fun i x _ => if i = d then f x else x) }

/-- A cube link is down at both of its ends. -/
def State.dropLink (s : State) (d k : Nat) : State :=
  let off (x : DieEnum) : DieEnum := { x with links := x.links &&& ~~~(1#3 <<< k) }
  (s.onDie d off).onDie (d ^^^ 2 ^ k) off

/-- A unit fails or is skipped: it is offline for this start. (DEDUCED: log 72.) -/
def State.failUnit (s : State) (step unit : Nat) : State :=
  match step with
  | 4 => s.onDie unit (fun x => { x with dieok := false, crown := false })
  | 5 => s.onDie unit (fun x => { x with dieok := false })
  | 6 => s.onDie (dieOf unit) (fun x => { x with offline := x.offline ||| (1#32 <<< (unit % 32)) })
  | 7 => s.onDie (dieOf unit) (fun x => { x with slices := x.slices &&& ~~~(1#32 <<< (unit % 32)) })
  | 8 => s.dropLink (unit / 3) (unit % 3)
  | 9 => { s with ox := { s.ox with ports := s.ox.ports.mapFinIdx (fun i w _ => if i = unit then 3 else w) } }
  | _ => s

/-- A unit passes: a trained Oxlink port is up with its peer, or down when nothing is connected. (DEDUCED: log 72.) -/
def State.passUnit (s : State) (step unit : Nat) : State :=
  if step = 9 then
    let w : Word := if Config.freeBool s.fresh (200 + unit) then
        BitVec.ofNat 64 (Config.freeNat s.fresh (300 + unit) % 16 * 2 ^ 16 + Config.freeNat s.fresh (200 + unit) % 2048 * 2 ^ 5 + 1)
      else 0
    { s with ox := { s.ox with ports := s.ox.ports.mapFinIdx (fun i x _ => if i = unit then w else x) } }
  else s

/-- Dead slices get a live slice of their die, which the firmware chooses; a die without one is offline (R48). -/
def State.remapSlices (s : State) : State :=
  { s with dies := s.dies.mapFinIdx (fun d x _ =>
      let live := (List.range 32).filter (fun i => x.slices.getLsbD i)
      let pick (i : Nat) : Nat := live.getD (Config.freeNat s.fresh (400 + 32 * d + i) % live.length) i
      { x with remap := Vector.ofFn (fun i => if x.slices.getLsbD i.val then i else Fin.ofNat 32 (pick i.val)),
               dieok := x.dieok && !live.isEmpty }) }

/-- Every core of an offline die is offline (R372). -/
def State.offlineDies (s : State) : State := { s with dies := s.dies.map (fun x => if x.dieok then x else { x with offline := x.live }) }

/-! ## One start -/

/-- A start under way: the state, and whether it has stopped. -/
structure Boot where
  st   : State
  stopped : Bool
  deriving DecidableEq, Repr

/-- Notes a unit's status. -/
def Boot.note (b : Boot) (step unit alt status : Nat) : Boot :=
  { b with st := { b.st with journal := b.st.journal.note step unit alt status b.st.dtime } }

/-- The firmware check on the image in flash, its four conditions in order (R173). (DESIGN CHOICE: log 98.) -/
def Security.imageOk (x : Security) : Bool :=
  sha256 x.image.key == digestBytes x.keydig && rsaVerify x.image.key (sha256 x.image.body) x.image.sig &&
  decide (x.svnFloor.toNat ≤ x.image.svn.toNat)

/-- The image runs: its version and digest are the package's, and it may have the floor raised to its version (R173). -/
def Security.load (x : Security) : Security :=
  { x with svn := x.image.svn, fwdig := BitVec.ofNat 256 (beVal (sha256 x.image.body)),
           svnFloor := if x.image.raise then x.image.svn else x.svnFloor }

/-- A unit's step fails in this start: the report says so, or the firmware check does (R173). -/
def bootFails (r : BootReport) (x : Security) (step unit : Nat) : Bool :=
  r.fails.contains (step, unit) || (step == 3 && !x.imageOk)

/-- Runs one unit of a step; at `stop` the power is lost during it. (DESIGN CHOICE: log 71.) -/
def Boot.unit (b : Boot) (r : BootReport) (stop : Option (Nat × Nat)) (step unit : Nat) : Boot :=
  if b.stopped then b
  else match b.st.journal.choose step unit with
    | none =>
      let a := ((b.st.journal.recall (step, unit)).map Prod.fst).getD 0
      let b := b.note step unit a 3
      { b with st := b.st.failUnit step unit }
    | some a =>
      let b := b.note step unit a 0
      if stop = some (step, unit) then { b with stopped := true }
      else if bootFails r b.st.sec step unit then
        let b := b.note step unit a 2
        if stepRequired step then { st := { b.st with inReset := true }, stopped := true } else { b with st := b.st.failUnit step unit }
      else
        let b := b.note step unit a 1
        { b with st := b.st.passUnit step unit }

/-- What follows a step: the running image after the firmware check, the remapping after the slices, the capability list. -/
def Boot.after (b : Boot) (step : Nat) : Boot :=
  if b.stopped then b
  else match step with
    | 3 => { b with st := { b.st with sec := b.st.sec.load } }
    | 7 => { b with st := b.st.remapSlices }
    | 9 => { b with st := b.st.offlineDies }
    | 10 => { b with st := b.st.writeCaps }
    | _ => b

/-- The package when the boot ROM begins: everything that training can find is taken as present. (DEDUCED: log 73.) -/
def State.powerOn (s : State) : State :=
  let s := s.powerOff
  { s with journal := { s.journal with starts := s.journal.starts + 1 },
           dies := s.dies.map (fun d => { d with dieok := true, crown := true, links := 7, slices := 0xFFFFFFFF }) }

/-- Runs the steps of a start (R372). -/
def State.boot (s : State) (r : BootReport) (stop : Option (Nat × Nat)) : Boot :=
  (List.range' 1 11).foldl (fun (b : Boot) n => ((b.st.stepUnits n).foldl (fun (b : Boot) u => b.unit r stop n u) b).after n)
    ⟨s.powerOn, false⟩

/-- BOOT_START: a start of a package that is off or held in reset (R173, R372, R373). -/
def execBootStart (r : BootReport) (s : State) : Out :=
  if s.booted && !s.inReset then .next s
  else .next { (s.boot r none).st with booted := true }

/-- POWER_LOSS: the package stops; during a start, in which what the report says fails, the step under way keeps STATUS 0, which
the next start counts as failed (R373). (DEDUCED: log 73.) -/
def execPowerLoss (step : Nat) (cut : PowerCut) (s : State) : Out :=
  if s.booted then .next s.powerOff
  else .next (s.boot cut.report (some (step, cut.unit))).st.powerOff

/-! ## The power manager (R149, R371) -/

/-- A batt declares a barrier. -/
def Launch.isBatt (l : Launch) : Bool := l.lr.barm != 0 || l.lr.mbar != 0

/-- The unit of a core's task: its batt, or itself. -/
def State.unitOf (s : State) (c : Core) : Option (Launch × (Nat × Option Nat)) :=
  match c.task, s.launchOf c with
  | some t, some l => some (l, (l.id, if l.isBatt then none else some t.index))
  | _, _ => none

/-- The clock factor of a unit. -/
def State.factorOf (s : State) (u : Nat × Option Nat) : Nat := ((s.power.factor.find? (fun f => f.1 == u)).map Prod.snd).getD 16

/-- The clock factor of a core. (DEDUCED: log 77.) -/
def State.coreFactor (s : State) (c : Core) : Nat := match s.unitOf c with | some u => s.factorOf u.2 | none => 16

/-- Sets the factor of a unit. -/
def State.setFactor (s : State) (u : Nat × Option Nat) (f : Nat) : State :=
  let rest := s.power.factor.filter (fun x => x.1 ≠ u)
  { s with power := { s.power with factor := if f = 16 then rest else (u, f) :: rest } }

/-- A launch's deadline, absent counting as the latest. -/
def Launch.due (l : Launch) : Nat := if l.lr.deadline = 0 then 2 ^ 64 - 1 else l.lr.deadline.toNat

/-- The first unit by an order on class and deadline. (DEDUCED: log 77.) -/
def pickUnit (lt : Nat × Nat → Nat × Nat → Bool) (us : List (Launch × (Nat × Option Nat))) : Option (Nat × Option Nat) :=
  match us with
  | [] => none
  | u :: r => some (r.foldl (fun a b => if lt (b.1.eff, b.1.due) (a.1.eff, a.1.due) then b else a) u).2

/-- POWER_MANAGER_TICK, every 65,536 clk: one unit is slowed, or one is sped up, or a thermal stop holds every die in reset.
(DESIGN CHOICE: log 71; DEDUCED: log 77.) -/
def execPowerManagerTick (pnow : BitVec 16) (tmax : BitVec 8) (s : State) : Out :=
  if !s.up || s.dtime.toNat % 65536 != 0 || s.power.acted == s.dtime then .next s
  else
    let units := s.cores.filterMap s.unitOf
    let s := { s with power := { s.power with pnow := pnow, tmax := tmax, acted := s.dtime, factor := s.power.factor.filter (fun f => units.any (fun u => u.2 == f.1)) } }
    if 110 ≤ tmax.toNat then
      let e : JEntry := ⟨s.journal.starts, 0xFF, 0, 0, Config.freeNat s.fresh 1 % 256, s.dtime⟩
      let es := s.journal.entries ++ [e]
      .next { s with inReset := true, journal := { s.journal with entries := es.drop (es.length - 4096) } }
    else if s.power.plim.toNat < pnow.toNat ∨ 100 ≤ tmax.toNat then
      match pickUnit (fun a b => decide (b.1 < a.1) || (a.1 == b.1 && decide (b.2 < a.2))) (units.filter (fun u => decide (1 < s.factorOf u.2))) with
      | some u => .next (s.setFactor u (s.factorOf u - 1))
      | none => .next s
    else if 100 * pnow.toNat < 95 * s.power.plim.toNat ∧ tmax.toNat < 95 then
      match pickUnit (fun a b => decide (a.1 < b.1) || (a.1 == b.1 && decide (a.2 < b.2))) (units.filter (fun u => decide (s.factorOf u.2 < 16))) with
      | some u => .next (s.setFactor u (s.factorOf u + 1))
      | none => .next s
    else .next s

end Sys2Proof.Machine
end

