-- ==== Sys2Proof/Machine/Pointer.lean ====
section
/-! DEFINITION. Pointers: LEA, SPTEST and SPCAST (R228 to R230). -/

namespace Sys2Proof.Machine

/-- LEA: a + b × scale, or a + imm (R228). -/
def execLea (d a : SReg) (b : LeaSrc) (s : State) : Out :=
  .next (s.ws d (match b with
    | .scaled r k => s.rs a + s.rs r * BitVec.ofNat 64 (2 ^ k.val)
    | .imm v => s.rs a + v.signExtend 64))

/-- SPTEST's code of a pointer (R229). (DEDUCED: log 38.) -/
def State.ptrClass (s : State) (va : Word) : Nat :=
  let top := wbits va 63 56
  if top = 0xF8 ∧ wbits va 47 32 = 0 ∧ wbits va 55 48 ≠ s.logical s.core.id then 3
  else if top = 0xF9 ∧ wbits va 55 51 = 0 ∧ wbits va 47 32 = 0 then
    if s.online (s.core.peer (wbits va 50 48)) then 4 else 5
  else match s.window s.core va 1 with
    | .ok (.mem _) => if top = 0xF0 then 1 else 0
    | .ok (.scratch _) => 2
    | .ok (.clus _ _) => 4
    | .error _ => 7

/-- SPTEST (R229). (DEDUCED: log 38.) -/
def execSptest (d a : SReg) (s : State) : Out := .next (s.ws d (BitVec.ofNat 64 (s.ptrClass (s.rs a))))

/-- A pointer of a window: its top byte, the byte below it, and the offset. -/
def ptrOf (top mid off : Nat) : Word := BitVec.ofNat 64 (top * 2 ^ 56 + mid * 2 ^ 48 + off)

/-- SPCAST's result, or the cause it raises (R230). (DESIGN CHOICE: log 88.) -/
def State.castPtr (s : State) (va : Word) (w : Win) : Except Cause Word :=
  let c := s.core
  let own := c.id % 8
  let off := wbits va 31 0
  match s.ptrClass va with
  | 0 =>
    (match w with
     | .global => .ok va
     | .priv =>
       (match assoc s.descs (s.asidOf c) with
        | some d =>
          let base := d.privbase + c.slotNo * 2 ^ d.psz
          if base ≤ va.toNat ∧ va.toNat < base + 2 ^ d.psz then .ok (ptrOf 0xF0 0 (va.toNat - base))
          else .error Cause.privateRange
        | none => .error Cause.privateRange)
     | _ => .error Cause.windowBad)
  | 1 =>
    (match w with
     | .global =>
       (match assoc s.descs (s.asidOf c) with
        | some d => .ok (BitVec.ofNat 64 (d.privbase + c.slotNo * 2 ^ d.psz + wbits va 55 0))
        | none => .error Cause.privateRange)
     | .priv => .ok va
     | _ => .error Cause.windowBad)
  | 2 =>
    (match w with
     | .scratch => .ok va
     | .clus => .ok (ptrOf 0xF9 own off)
     | _ => .error Cause.windowBad)
  | 3 =>
    (match w with
     | .scratch => .error Cause.scratchForeign
     | .clus =>
       let l := wbits va 55 48
       let q := s.physical l
       if l < 8 * perDie s.grade ∧ q / 8 = c.id / 8 then .ok (ptrOf 0xF9 (q % 8) off)
       else .error Cause.clusterForeign
     | _ => .error Cause.windowBad)
  | 4 =>
    (match w with
     | .scratch => if wbits va 50 48 = own then .ok (ptrOf 0xF8 (s.logical c.id) off)
         else .error Cause.scratchForeign
     | .clus => .ok va
     | _ => .error Cause.windowBad)
  | 5 =>
    (match w with
     | .scratch => .error Cause.scratchForeign
     | .clus => .error Cause.clusterForeign
     | _ => .error Cause.windowBad)
  | _ =>
    (match s.target c va 1 with
     | .error e => .error e
     | .ok _ => .error Cause.windowBad)

/-- The fault of SPCAST at issue (R230). -/
def State.faultSpcast (s : State) (a : SReg) (w : Win) : Option SlotFault :=
  match s.castPtr (s.rs a) w with
  | .ok _ => none
  | .error e => some (slotFault 0 e (s.rs a))

/-- SPCAST (R230). -/
def execSpcast (d a : SReg) (w : Win) (s : State) : Out :=
  match s.castPtr (s.rs a) w with
  | .ok v => .next (s.ws d v)
  | .error e => .next (s.raise 0 e (s.rs a))

end Sys2Proof.Machine
end

