-- ==== Sys2Proof/Machine/Prefix.lean ====
section
/-! DEFINITION. The chain hash and the table of shared prefixes (R332 to R338). A form of the table runs in an interval of its own;
its directory step, its reads of tokens and its OUT words happen together. -/

namespace Sys2Proof.Machine

/-! ## The chain hash (R332) -/

def hashIV : Word := 0x5C4E2A7193D0B68F
def hashC1 : Word := 0xA24B7D1F3C85E6B9
def hashC2 : Word := 0xD3E159A70B4F8C2D
def hashC3 : Word := 0x8F2B6C93E17DA455

/-- fold of R332. -/
def hashFold (x : Word) : Word :=
  let x := (x ^^^ (x >>> 33)) * hashC2
  let x := (x ^^^ (x >>> 29)) * hashC3
  x ^^^ (x >>> 32)

/-- H0 of R332. -/
def hashStart (ns : Word) : Word := hashFold (ns ^^^ hashIV)

/-- One token of H. -/
def hashTok (x : Word) (t : BitVec 32) : Word :=
  let x := (x ^^^ t.setWidth 64) * hashC1
  x ^^^ (x >>> 31)

/-- H of R332 over a page's tokens. -/
def hashPage (h : Word) (ts : List (BitVec 32)) : Word := hashFold (ts.foldl hashTok h ^^^ 32)

/-! ## The directory (R333) -/

/-- No page. -/
def noPage : BitVec 32 := 0xFFFFFFFF

/-- The entry of an ASID that holds a page. -/
def State.pfxPage (s : State) (asid : Nat) (page : BitVec 32) : Option PfxEnt :=
  s.pfx.find? (fun e => e.asid == asid && e.page == page)

/-- A hit: every field equal (R333). -/
def State.pfxHit (s : State) (asid : Nat) (ns : Word) (depth : Nat) (h : Word) (parent : BitVec 32)
    (ts : List (BitVec 32)) : Option PfxEnt :=
  s.pfx.find? (fun e => e.asid == asid && e.ns == ns && e.depth == depth && e.hash == h && e.parent == parent && e.tok == ts)

/-- Changes the entry of an ASID's page. -/
def State.onPfx (s : State) (asid : Nat) (page : BitVec 32) (f : PfxEnt → PfxEnt) : State :=
  { s with pfx := s.pfx.map (fun e => if e.asid = asid ∧ e.page = page then f e else e) }

/-- The largest reference count. -/
def refMax : Nat := 2 ^ 32 - 1

/-- The result word of PFXI (R336). -/
def pfxWord (status : Nat) (page : BitVec 32) : Word := BitVec.ofNat 64 (status * 2 ^ 62 + page.toNat)

/-- An entry of no other entry's parent, for one ASID (R333). -/
def State.pfxLeaf (s : State) (e : PfxEnt) : Bool := !s.pfx.any (fun x => x.asid == e.asid && x.parent == e.page)

/-- The leaf of an ASID with REF 0 and the lowest STAMP, other than the parent (R336). -/
def State.pfxVictim (s : State) (asid : Nat) (parent : BitVec 32) : Option PfxEnt :=
  (s.pfx.filter (fun e => e.asid == asid && e.ref == 0 && e.page != parent && s.pfxLeaf e)).foldl
    (fun b e => match b with
      | none => some e
      | some x => if e.stamp < x.stamp then some e else some x) none

/-- PFXI's step (R336): the directory and the result word. -/
def State.pfxInsert (s : State) (asid : Nat) (ns : Word) (ts : List (BitVec 32)) (page parent : BitVec 32) (depth : Nat) :
    State × Word :=
  let refuse := (s, pfxWord 3 noPage)
  let start : Option Word :=
    if depth = 0 then (if parent = noPage then some (hashStart ns) else none)
    else match s.pfxPage asid parent with
      | some p => if p.ns = ns ∧ p.depth + 1 = depth then some p.hash else none
      | none => none
  match start with
  | none => refuse
  | some g =>
    let g := hashPage g ts
    match s.pfxHit asid ns depth g parent ts with
    | some e =>
      if e.ref = refMax then refuse
      else (s.onPfx asid e.page (fun x => { x with ref := x.ref + 1 }), pfxWord 1 e.page)
    | none =>
      if page = noPage ∨ (s.pfxPage asid page).isSome then refuse
      else
        let put (s : State) : State :=
          { s with pfx := ⟨asid, ns, depth, g, parent, ts, page, 1, s.pfxNext⟩ :: s.pfx, pfxNext := s.pfxNext + 1 }
        if s.pfx.length < Config.prefixCap then (put s, pfxWord 0 noPage)
        else match s.pfxVictim asid parent with
          | none => (s, pfxWord 2 noPage)
          | some v =>
            (put { s with pfx := s.pfx.filter (fun e => !(e.asid == asid && e.page == v.page)) }, pfxWord 0 v.page)

/-- PFXR's step (R337). -/
def State.pfxRelease (s : State) (asid : Nat) (page : BitVec 32) : State × Word :=
  match s.pfxPage asid page with
  | none => (s, BitVec.allOnes 64)
  | some e =>
    if e.ref = 0 then (s, BitVec.allOnes 64)
    else
      let s' := s.onPfx asid page (fun x => { x with ref := x.ref - 1, stamp := if x.ref = 1 then s.pfxNext else x.stamp })
      ({ s' with pfxNext := s.pfxNext + 1 }, BitVec.ofNat 64 (e.ref - 1))

/-! ## Requests (R334 to R336) -/

/-- Parts of a range that must lie in the GLOBAL or PRIVATE window. -/
def State.spanOf (s : State) (va : Word) (n : Nat) (k : Acc) : Except Cause (List Part) :=
  match s.memOnly va n with
  | .error c => .error c
  | .ok a => s.spanParts (s.asidOf s.core) a n k 10

/-- Whether a range fails, and how. -/
def State.spanBad (s : State) (va : Word) (n : Nat) (k : Acc) : Option Cause :=
  match s.spanOf va n k with
  | .error c => some c
  | .ok _ => none

/-- Bytes of a range. -/
def State.spanBytes (s : State) (va : Word) (n : Nat) : List Byte :=
  match s.spanOf va n .read with
  | .error _ => []
  | .ok ps => s.readParts s.core s.uid ps

/-- The request block at an address. -/
def State.pfxReq (s : State) (b : SReg) (off : BitVec 22) : List Byte := s.spanBytes (s.eaG b off) 32

/-- A word of a request. -/
def reqWord (bs : List Byte) (i : Nat) : Word := BitVec.ofNat 64 (field64 bs i)

/-- Pages of 32 tokens. -/
def tokPages (bs : List Byte) (n : Nat) : List (List (BitVec 32)) :=
  (chunks 128 n bs).map (fun p => (chunks 4 32 p).map (fun t => BitVec.ofNat 32 (leVal t)))

/-- A range that a form reads holds poisoned data, or has no route to its home (R197, R367). -/
def State.spanPoison (s : State) (va : Word) (n : Nat) : Bool :=
  match s.spanOf va n .read with
  | .error _ => false
  | .ok ps => ps.any (fun p => s.isPoison p.pa p.n || storeBad (s.core.ownStores s.uid) p.pa p.n || s.noRoute s.core p.pa)

/-- A SCRATCH or CLUS address (R334). -/
def State.offMem (s : State) (va : Word) : Option Cause :=
  match s.memOnly va 0 with
  | .error c => if c = Cause.windowBad then some c else none
  | .ok _ => none

/-- The faults common to PFXL and PFXI: those of the request's address and of its bytes (R197, R334). -/
def State.faultPfxReq (s : State) (b : SReg) (off : BitVec 22) : Option SlotFault :=
  let va := s.eaG b off
  (accFault 1 va (match s.memOnly va 32 with | .error c => some c | .ok _ => none)).or
    ((faultIf (va.toNat % 32 != 0) 1 Cause.operandForm va).or
      ((accFault 1 va (s.spanBad va 32 .read)).or (faultIf (s.spanPoison va 32) 1 Cause.dataPoison va)))

/-- Parts of a range in the GLOBAL or PRIVATE window; none where it fails. -/
def State.spanList (s : State) (va : Word) (n : Nat) (k : Acc) : List Part :=
  match s.spanOf va n k with
  | .ok ps => ps
  | .error _ => []

/-- A page that PFXL is offered: where its tokens lie and where its OUT word goes, as translated at issue (R334). -/
structure PfxSlot where
  tok : List Part
  out : List Part
  va  : Word
  deriving DecidableEq, Repr

/-- The pages that a request offers (R335). -/
def State.pfxSlots (s : State) (q : List Byte) : List PfxSlot :=
  (List.range (field32 q 24)).map (fun k =>
    let va := reqWord q 16 + BitVec.ofNat 64 (4 * k)
    ⟨s.spanList (reqWord q 8 + BitVec.ofNat 64 (128 * k)) 128 .read, s.spanList va 4 .write, va⟩)

/-- The tokens of a page as the core in focus reads them. -/
def State.pfxToks (s : State) (x : PfxSlot) : List (BitVec 32) := (tokPages (s.readParts s.core s.uid x.tok) 1).headD []

/-- An OUT word is written (R335). -/
def State.putOut (s : State) (x : PfxSlot) (page : BitVec 32) : State :=
  ((x.out.flatMap (fun p => sectorsOf p 2)).foldl (fun (a : State × List Byte) p =>
    (a.1.storeAt s.uid x.va false p (a.2.take p.n), a.2.drop p.n)) (s, leBytes 4 page.toNat)).1

/-- The loop of PFXL (R335): a page's tokens are read after the OUT words before it are written; the pages hit, with each one's count
raised. -/
def State.pfxLook (s : State) (asid : Nat) (ns g : Word) (prev : BitVec 32) (k : Nat) (xs : List PfxSlot) : State × List (BitVec 32) :=
  match xs with
  | [] => (s, [])
  | x :: r =>
    let ts := s.pfxToks x
    let g := hashPage g ts
    match s.pfxHit asid ns k g prev ts with
    | none => (s, [])
    | some e =>
      if e.ref = refMax then (s, [])
      else
        let s := (s.onPfx asid e.page (fun y => { y with ref := y.ref + 1 })).putOut x e.page
        let q := s.pfxLook asid ns g e.page (k + 1) r
        (q.1, e.page :: q.2)

/-- What PFXL's loop finds and does (R335): the state afterwards, and the pages hit. -/
def State.pfxlRun (s : State) (q : List Byte) : State × List (BitVec 32) :=
  s.pfxLook (s.asidOf s.core) (reqWord q 0) (hashStart (reqWord q 0)) noPage 0 (s.pfxSlots q)

/-- Bytes of TOK that PFXL's loop reads: those of the pages hit, and of the first that is not. -/
def State.pfxlReads (s : State) (q : List Byte) : Nat := 128 * min (field32 q 24) ((s.pfxlRun q).2.length + 1)

/-- The faults of PFXL (R334, R335). -/
def State.faultPfxl (s : State) (b : SReg) (off : BitVec 22) : Option SlotFault :=
  let va := s.eaG b off
  let q := s.pfxReq b off
  let tok := reqWord q 8
  let out := reqWord q 16
  let np := field32 q 24
  (s.faultPfxReq b off).or
    ((faultIf (decide (field32 q 28 ≠ 0) || tok.toNat % 4 != 0 || out.toNat % 4 != 0 || decide (4096 < np)) 1
        Cause.operandForm va).or
      (if np = 0 then (accFault 1 tok (s.offMem tok)).or (accFault 1 out (s.offMem out))
       else (accFault 1 tok (s.spanBad tok (128 * np) .read)).or ((accFault 1 out (s.spanBad out (4 * np) .write)).or
         (faultIf (s.spanPoison tok (s.pfxlReads q)) 1 Cause.dataPoison tok))))

/-- Records the translations of a range that an instruction of the core in focus used (R166). -/
def State.noteSpan (s : State) (va : Word) (n : Nat) (k : Acc) : State :=
  (List.range ((n + 65535) / 65536)).foldl (fun (s : State) i => s.noteAcc (va + BitVec.ofNat 64 (65536 * i)) (min 65536 (n - 65536 * i)) k) s

/-- A range that an instruction of the core in focus has read at its home: its translations are recorded, and the core keeps no older
copy of its lines (R92, R166). -/
def State.readSpan (s : State) (va : Word) (n : Nat) : State :=
  let t := s.noteSpan va n .read
  match s.spanOf va n .read with
  | .ok ps => t.onC (fun c => c.dropParts ps)
  | .error _ => t

/-- PFXL Sd, [Sb+off] (R335). -/
def execPfxl (d b : SReg) (off : BitVec 22) (o : OrdF) (s : State) : Out :=
  s.guard (s.faultPfxl b off)
    (let q := s.pfxReq b off
     let np := field32 q 24
     let r := s.pfxlRun q
     .next ((r.1.ws d (BitVec.ofNat 64 r.2.length)).seqCount o 1 |>.readSpan (s.eaG b off) 32
       |>.readSpan (reqWord q 8) (128 * np) |>.noteSpan (reqWord q 16) (4 * np) .write))

/-- The faults of PFXI (R334, R336). -/
def State.faultPfxi (s : State) (b : SReg) (off : BitVec 22) : Option SlotFault :=
  let va := s.eaG b off
  let q := s.pfxReq b off
  let tok := reqWord q 8
  (s.faultPfxReq b off).or
    ((faultIf (decide (field32 q 28 ≠ 0) || tok.toNat % 4 != 0 || decide (4095 < field32 q 24)) 1 Cause.operandForm va).or
      ((accFault 1 tok (s.spanBad tok 128 .read)).or (faultIf (s.spanPoison tok 128) 1 Cause.dataPoison tok)))

/-- PFXI Sd, [Sb+off] (R336). -/
def execPfxi (d b : SReg) (off : BitVec 22) (o : OrdF) (s : State) : Out :=
  s.guard (s.faultPfxi b off)
    (let q := s.pfxReq b off
     let r := s.pfxInsert (s.asidOf s.core) (reqWord q 0) ((tokPages (s.spanBytes (reqWord q 8) 128) 1).headD [])
       (BitVec.ofNat 32 (field32 q 16)) (BitVec.ofNat 32 (field32 q 20)) (field32 q 24)
     .next ((r.1.ws d r.2).seqCount o 1 |>.readSpan (s.eaG b off) 32 |>.readSpan (reqWord q 8) 128))

/-- The fault of PFXR (R337). -/
def State.faultPfxr (s : State) (c : SReg) : Option SlotFault :=
  faultIf (wbits (s.rs c) 63 32 != 0) 1 Cause.operandForm 0

/-- PFXR Sd, Sc (R337). -/
def execPfxr (d c : SReg) (o : OrdF) (s : State) : Out :=
  s.guard (s.faultPfxr c)
    (let r := s.pfxRelease (s.asidOf s.core) (BitVec.ofNat 32 (wbits (s.rs c) 31 0))
     .next ((r.1.ws d r.2).seqCount o 1))

end Sys2Proof.Machine
end

