-- ==== Sys2Proof/Machine/Issue.lean ====
section
/-! DEFINITION. Issuing a bundle (R16 to R18, R98, R102, R116, R150, R175, R179, R199 to R203): fetching it, the waits and
the faults it is tested for, and running its slots; and the steps that stop a core at a stall or for pre-emption. -/

namespace Sys2Proof.Machine

/-! ## Fetching (R156, R164, R199) -/

/-- Sectors of another package that the fetch at the core's PC needs and that have not come back for it (R368). -/
def State.farFetch (s : State) : List Nat :=
  match s.translate (s.asidOf s.core) s.core.arch.pc.toNat .fetch with
  | .ok p => if s.noRoute s.core p.pa then [] else s.farMissing (s.core.farUid.getD s.uid) [⟨p.pa, 32, false, false, none, true⟩]
  | .error _ => []

/-- The core in focus asks another package for what its bundle reads there at issue, under a number of its own (R368). -/
def State.askAtIssue (s : State) (ks : List Nat) : State :=
  match s.core.farUid with
  | some u => s.askFar u ks
  | none => ((s.onC (fun c => { c with farUid := some s.uid })).nextUid).askFar s.uid ks

/-- The bundle at the core's PC, or the cause with which its fetch fails. (DEDUCED: log 24.) -/
def State.fetch (s : State) : Except Cause Nat :=
  let pc := s.core.arch.pc
  if wbits pc 63 57 ≠ 0 then .error Cause.windowBad
  else match s.translate (s.asidOf s.core) pc.toNat .fetch with
    | .error c => .error c
    | .ok p => if s.isPoison p.pa 32 || s.noRoute s.core p.pa then .error Cause.dataPoison else .ok (leNat (s.physBytes p.pa 32))

/-- The five slots of a mask, with one cause and address (R43, R179, R203). -/
def maskFaults (mask : Nat) (cause : Cause) (taddr : Word) : List SlotFault :=
  ((List.range 5).filter (fun b => mask / 2 ^ b % 2 == 1)).map (fun b => slotFault b cause taddr)

/-- The records of parts of memory that a core reads at issue and has no route to: the first of them sends it (R367). -/
def State.lostRecord (s : State) (va : Word) (ps : List Nat) : State :=
  match ps.find? (s.noRoute s.core) with
  | some pa => s.routeError va pa
  | none => s

/-- The record of a fetch that has no route to its bundle, or to a table on the way (R367). -/
def State.lostFetch (s : State) : State :=
  if wbits s.core.arch.pc 63 57 ≠ 0 then s
  else match s.translate (s.asidOf s.core) s.core.arch.pc.toNat .fetch with
  | .ok p => s.lostRecord s.core.arch.pc [p.pa]
  | .error _ => s.walkRecord s.core.arch.pc

/-- BUNDLE_FETCH_FAULT: the fetch at the PC fails; the fault belongs to every slot (R179, R197, R367).
(DEDUCED: log 24; DEDUCED: log 80.) -/
def execBundleFetchFault (s : State) : Out :=
  match s.fetch with
  | .error c => .next (s.lostFetch.takeTrap (maskFaults 0x1F c s.core.arch.pc))
  | .ok _ => .next s

/-- ILLEGAL: the bundle at the PC breaks R203 in the slots named, and nothing else is tested.
(DEDUCED: log 80; DEDUCED: log 82; DESIGN CHOICE: log 122.) -/
def execIllegal (slots : BitVec 5) (s : State) : Out :=
  match s.fetch with
  | .error _ => .next s
  | .ok w =>
    match decodeBundle w with
    | .error m => if m = slots.toNat then .next (s.takeTrap (maskFaults m Cause.illegal 0)) else .next s
    | .ok _ => .next s

/-! ## Registers (R18) -/

/-- The register of a second source. -/
def srcReg (b : Src) : List SReg := match b with | .reg r => [r] | .imm _ => []
/-- Both registers of a pair. -/
def pairRegs (r : SReg) : List SReg := [r, SReg.succ r]
/-- Registers of a tile address. -/
def tileRegs (a : TileAddr) : List SReg := match a with | .pair b => pairRegs b | .mem b _ => [b]
/-- Registers of an X-slot operand. -/
def opdRegs (o : XOpd) : List SReg := match o with | .pair n _ => pairRegs n | _ => []

/-- Registers of a C-slot instruction's operands and of its coordinate or index group (R213, R262, R266). -/
def cRegs (i : Instr) (c : CArgs) : List SReg :=
  let g (n : Nat) : List SReg := (List.range n).map (fun k => Fin.ofNat 64 (c.cr.val + k))
  (if c.dk then pairRegs c.dr else [c.dr]) ++ (if c.sk then pairRegs c.sr else [c.sr]) ++
  (match i with
   | .gather _ | .scatter _ => g 3
   | .areduce _ _ => []
   | _ => if c.cr = 0 then [] else g 2)

/-- The S registers that an instruction reads. -/
def sReads (i : Instr) : List SReg :=
  match i with
  | .add _ a b | .sub _ a b | .mul _ a b | .mulh _ a b | .mulhu _ a b | .div _ a b | .divu _ a b | .rem _ a b
  | .remu _ a b | .and _ a b | .or _ a b | .xor _ a b | .andn _ a b | .shl _ a b | .shr _ a b | .sha _ a b
  | .rot _ a b | .min _ a b | .minu _ a b | .max _ a b | .maxu _ a b | .cmp _ _ a b | .sel _ _ _ a b => a :: srcReg b
  | .clz _ a | .ctz _ a | .popc _ a | .bfx _ a _ _ | .bfi _ a _ _ | .sext _ a _ | .fcvt _ _ _ a | .fclass _ _ a
  | .sptest _ a | .spcast _ a _ | .jmpr _ a | .ret a | .csrw _ a | .partn a | .kset _ _ a | .ppld _ a _ => [a]
  | .lih d _ => [d]
  | .fadd _ _ _ a b | .fsub _ _ _ a b | .fmul _ _ _ a b | .fmin _ _ a b | .fmax _ _ a b | .fcmp _ _ _ a b => [a, b]
  | .ffma _ _ d a b => [d, a, b]
  | .lea _ a (.scaled r _) => [a, r]
  | .lea _ a (.imm _) => [a]
  | .loop (.reg a) _ => [a]
  | .waitm _ a _ b c => [a, b, c]
  | .ld _ _ b _ _ | .pref b _ _ | .hld _ b _ _ | .seqld _ _ b _ _ _ | .pfxl _ b _ _ | .pfxi _ b _ _ | .lineq _ b _ => [b]
  | .st _ b _ v _ => [b, v]
  | .ldt _ _ ad _ _ | .stt _ ad _ _ => tileRegs ad
  | .stp _ b c _ _ => pairRegs b ++ pairRegs c
  | .aadd _ _ b _ c _ | .amin _ _ b _ c _ | .amax _ _ b _ c _ | .aminu _ _ b _ c _ | .amaxu _ _ b _ c _ | .aand _ _ b _ c _
  | .aor _ _ b _ c _ | .axor _ _ b _ c _ | .aswp _ _ b _ c _ | .afadd _ _ b _ c _ | .line _ b _ c => [b, c]
  | .acas _ _ b _ c e _ | .asubf _ _ b _ c e _ _ => [b, c, e]
  | .pfxr _ c _ => [c]
  | i =>
    match xArgs i, cArgs i with
    | some x, _ => x.sh :: (opdRegs x.oa ++ opdRegs x.ob ++ opdRegs x.od)
    | none, some c => cRegs i c
    | none, none => []

/-- The P registers that an instruction reads. -/
def pReads (i : Instr) : List PReg :=
  match i with
  | .pand _ a b | .por _ a b => [a, b]
  | .pnot _ a => [a]
  | .sel _ p _ _ _ | .br p _ _ | .brkl p _ => [p]
  | _ => []

/-- The registers that an instruction reads or writes, as condition 1 of R150 counts them. (DEDUCED: log 17.) -/
def regUses (i : Instr) : List Dest :=
  (sReads i).flatMap Dest.ofS ++ (pReads i).flatMap Dest.ofP ++ i.dests ++
  (match i with
   | .loop .seql _ | .csrr _ .seql => [.csr .seql]
   | _ => [])

/-- Registers that a load or atomic in flight still produces. -/
def PLoad.makes (l : PLoad) : List Dest :=
  if l.dropped then []
  else match l.dest with
    | .s d => Dest.ofS d
    | .t d _ => [.t d]
    | .seql d _ => .csr .seql :: Dest.ofS d
    | .atom op _ _ => Dest.ofS (atomicDest op).1 ++ Dest.ofP (atomicDest op).2
    | .none => []

/-- A register is still being produced by a load of the core (R18). -/
def Core.pending (c : Core) (d : Dest) : Bool := c.loads.any (fun l => l.makes.contains d)

/-- The control registers of a factorisation (R298). (DEDUCED: log 20.) -/
def isFactCsr (c : Csr) : Bool := match c with | .grow | .fprog | .fstat | .perm _ => true | _ => false

/-- T and Z registers that an X-slot instruction reads with its shape word (R277 to R293, R303 to R307). -/
def xTakes (i : Instr) (w : ShapeW) : List TZ :=
  match xArgs i with
  | none => []
  | some x =>
    let z (o : XOpd) : List TZ := match o with | .z n => [TZ.z n.val] | _ => []
    let side := match i with
      | .mmat _ => [TZ.t x.aux.val]
      | .zld _ => if x.var = 1 then [TZ.t x.aux.val] else []
      | .mmas _ => [TZ.t (w.ext % 64)]
      | _ => []
    let acc := match i with
      | .mma _ | .mmas _ | .mmar _ | .mmat _ | .lup _ | .chol _ | .qrh _ => z x.od
      | .trsm _ | .trmm _ => z x.oa ++ z x.od
      | .softrow _ => z x.ob
      | _ => []
    (xReads i w).flatMap (fun u => match u.opd with
      | .t n => (List.range ((u.rows - 1) / tileRows u.fmt + 1)).map (fun k => TZ.t (n.val + k))
      | .z n => [TZ.z n.val]
      | _ => []) ++ side ++ acc

/-- The instructions of a bundle's present slots, with their slot numbers, in the order of the slots. -/
def slotsOf (b : Bundle) : List (Nat × Instr) :=
  [(0, b.s), (1, b.m), (2, b.x), (3, b.c), (4, b.g)].filterMap (fun p => p.2.map (fun i => (p.1, i)))

/-- The state in which the X and the C slot see this bundle's own KSET or BIND (R247). -/
def State.withBind (s : State) (b : Bundle) : State :=
  match b.s with
  | some (.bind n p) => (match s.faultBind n p with | none => outState s (execBind n p s) | some _ => s)
  | some (.kset n j a) => (match s.faultKset n with | none => outState s (execKset n j a s) | some _ => s)
  | _ => s

/-- The T and Z registers, and a factorisation's control registers, that an instruction reads. (DEDUCED: log 20.) -/
def State.takes (s : State) (i : Instr) : List TZ :=
  match i with
  | .stt _ _ t _ | .stp _ _ _ t _ => [TZ.t t.val]
  | .csrr _ c => if isFactCsr c then [TZ.csr] else []
  | i =>
    match xArgs i with
    | some x => xTakes i (s.shapeOf x) ++ (s.qldRegs (xPorts i x)).map TZ.t
    | none => []

/-- Those that it writes. (DEDUCED: log 17; DEDUCED: log 20.) -/
def State.makes (s : State) (i : Instr) : List TZ :=
  match i with
  | .ldt _ t _ _ _ => [TZ.t t.val]
  | .csrw c _ => if isFactCsr c then [TZ.csr] else []
  | i =>
    match xArgs i with
    | some x => xMakes i (s.shapeOf x)
    | none => []

/-- Some of the registers are still being produced: by a thread that has not ended, or by a tile load (R18, R298).
(DEDUCED: log 20.) -/
def Core.busyTZ (c : Core) (rs : List TZ) : Bool :=
  c.recs.any (fun r => r.2.flt.isNone && r.2.regs.any (fun z => rs.contains z)) ||
  c.loads.any (fun l => match l.dest with | .t d _ => !l.dropped && rs.contains (TZ.t d.val) | _ => false)

/-- An X-slot thread that has not read its sources yet reads a T register that a tile load would write. (DEDUCED: log 17.) -/
def Core.unread (c : Core) (i : Instr) : Bool :=
  match i with
  | .ldt _ t _ _ _ => c.threads.any (fun x => x.isX && x.res.isNone && (xTakes x.ins (shapeW x.sh)).contains (TZ.t t.val))
  | _ => false

/-! ## The accesses of a bundle -/

/-- An M-slot access: its ordering fields, and the address, size and kind where it names memory. -/
def State.mAcc (s : State) (i : Instr) : Option (OrdF × Option (Word × Nat × Acc)) :=
  match i with
  | .ld z _ b off o => some (o, some (s.eaG b off, sizeBytes z, .read))
  | .st z b off _ o => some (o, some (s.eaG b off, sizeBytes z, .write))
  | .seqld dbl _ b off _ o => some (o, some (s.eaG b off, if dbl then 8 else 4, .read))
  | .ldt _ _ (.mem b off) _ o => some (o, some (s.eaT b off, Config.tBytes, .read))
  | .stt _ (.mem b off) _ o => some (o, some (s.eaT b off, Config.tBytes, .write))
  | .ldt _ _ _ _ o | .stt _ _ _ o | .stp _ _ _ _ o | .pfxr _ _ o => some (o, none)
  | .hld _ b off o => some (o, some (s.eaG b off, 128, .read))
  | .pref b off o => some (o, some (s.eaG b off, 1, .read))
  | .pfxl _ b off o | .pfxi _ b off o => some (o, some (s.eaG b off, 32, .read))
  | .aadd _ _ b off _ o | .amin _ _ b off _ o | .amax _ _ b off _ o | .aminu _ _ b off _ o | .amaxu _ _ b off _ o
  | .aand _ _ b off _ o | .aor _ _ b off _ o | .axor _ _ b off _ o | .aswp _ _ b off _ o | .acas _ _ b off _ _ o
  | .asubf _ _ b off _ _ _ o | .afadd _ _ b off _ o => some (o, some (s.eaA b off, atomicBytes i, .rmw))
  | _ => none

/-- Parts of memory that an access names; none where it fails or leads to a scratchpad. -/
def State.partsOf (s : State) (a : Option (Word × Nat × Acc)) : List Part :=
  match a with
  | none => []
  | some (va, n, k) =>
    match s.route va n k with
    | .ok (.mem ps) => ps
    | _ => []

/-- A part on each page that the elements of a copy reach on its memory side. -/
def State.sideParts (s : State) (base : Word) (unit : Nat) (els : List CEl) (k : Acc) : List Part :=
  (sortUp (els.flatMap (fun e => match e.off with
    | none => []
    | some o => [(base + o).toNat / 65536, (base + o + BitVec.ofNat 64 (unit - 1)).toNat / 65536]))).flatMap (fun p =>
      s.partsOf (some (BitVec.ofNat 64 (65536 * p), 1, k)))

/-- The pages of memory that the thread of a C-slot instruction reads and writes, those of the tables that it reads through among them
(R97, R105). (DEDUCED: log 29.) -/
def State.cParts (s : State) (i : Instr) : List Part :=
  match cArgs i with
  | none => []
  | some c =>
    let n := match i with | .mbox _ => 64 | _ => 1
    let named := (if c.dk then [] else s.partsOf (some ((s.cDst c).1, n, .write))) ++
      (if c.sk then [] else s.partsOf (some ((s.cSrc c).1, n, .read)))
    match i, s.core.src.h[c.hs.val] with
    | .mbox _, _ => named
    | _, none => named
    | _, some h =>
      let els := s.elsNow i c h
      let tables := onePerPage (s.tableWords ⟨s.uid, none⟩ i c (s.cGroup i c) h)
      named ++ (if c.dk then [] else s.sideParts (s.cDst c).1 h.unit els .write) ++
        (if c.sk then [] else s.sideParts (s.cSrc c).1 h.unit els .read) ++ tables.flatMap (fun a => s.partsOf (some (a, 4, .read)))

/-- What a form of the table of shared prefixes reads and writes in memory: its request, tokens and OUT words (R334). -/
def State.pfxParts (s : State) (i : Instr) : List Part :=
  match i with
  | .pfxl _ b off _ =>
    let q := s.pfxReq b off
    s.spanList (s.eaG b off) 32 .read ++ s.spanList (reqWord q 8) (128 * field32 q 24) .read ++ s.spanList (reqWord q 16) (4 * field32 q 24) .write
  | .pfxi _ b off _ => s.spanList (s.eaG b off) 32 .read ++ s.spanList (reqWord (s.pfxReq b off) 8) 128 .read
  | _ => []

/-- A fork of the X or the C slot. -/
def forks (i : Instr) : Bool := i.slot == .x || i.slot == .c

/-- Atomics of the M slot. -/
def isAtomic (i : Instr) : Bool :=
  match i with
  | .aadd .. | .amin .. | .amax .. | .aminu .. | .amaxu .. | .aand .. | .aor .. | .axor .. | .aswp .. | .acas .. | .asubf ..
  | .afadd .. => true
  | _ => false
/-- Forms of the table of shared prefixes, which count as atomics (R334). -/
def isPfx (i : Instr) : Bool := match i with | .pfxl .. | .pfxi .. | .pfxr .. => true | _ => false
/-- Tile accesses. -/
def isTile (i : Instr) : Bool := match i with | .ldt .. | .stt .. | .stp .. => true | _ => false
/-- The ordering fields of PPLD's load (R244). -/
def ppldOrd : OrdF := ⟨0, 0, .core⟩

/-- The streams that a slot's instruction joins; none for a slot without ordering fields (R98, R212, R244).
(DEDUCED: log 29.) -/
def State.joinMask (s : State) (i : Instr) : BitVec 8 :=
  if i.slot == .c then followed (cOrd i) (s.cParts i)
  else match i with
    | .ppld _ a v => followed ppldOrd (s.partsOf (some (s.eaP a v, 72, .read)))
    | i => (match s.mAcc i with
      | some (o, a) => followed o (if isPfx i then s.pfxParts i else s.partsOf a)
      | none => 0)

/-! ## Restart points (R175, R116, R177) -/

/-- A restart point lies before a bundle by its contents alone (R175, R202). (DEDUCED: log 15.) -/
def fixedBefore (b : Bundle) : Bool :=
  b.rm || (slotsOf b).any (fun p => isAtomic p.2 || isPfx p.2 || isTile p.2 ||
    (match p.2 with | .barArv _ | .waitm .. | .partn _ | .halt => true | _ => false))

/-- A slot's instruction accesses a device page. -/
def State.atDevice (s : State) (i : Instr) : Bool :=
  match i, s.mAcc i with
  | .ppld _ a v, _ => s.onDevice (s.eaP a v) 72 .read
  | _, some (_, some (va, n, k)) => s.onDevice va n k
  | _, _ => false

/-- The ordering fields and parts of a load that R116 looks at. (DEDUCED: log 16.) -/
def State.loadOf (s : State) (i : Instr) : Option (OrdF × List Part) :=
  match i with
  | .ppld _ a v => some (ppldOrd, s.partsOf (some (s.eaP a v, 72, .read)))
  | .ld .. | .seqld .. | .hld .. => (s.mAcc i).map (fun a => (a.1, s.partsOf a.2))
  | _ => none

/-- An access of the M slot leads to a peer's scratchpad. -/
def State.atPeer (s : State) (i : Instr) : Bool :=
  match s.mAcc i with
  | some (_, some (va, n, k)) => (match s.route va n k with | .ok (.clus _ _) => true | _ => false)
  | _ => false

/-- An access of the M slot leads to the own scratchpad. -/
def State.atPad (s : State) (i : Instr) : Bool :=
  match s.mAcc i with
  | some (_, some (va, n, k)) => (match s.route va n k with | .ok (.scratch _) => true | _ => false)
  | _ => false

/-- Stores held in the gate: ordering fields and parts. (DEDUCED: log 16.) -/
def Core.gated (c : Core) : List (OrdF × Part) :=
  c.gate.flatMap (fun e => match e with
    | .store p => p.rest.map (fun x => (p.ord, x))
    | _ => [])

/-- A load wider than CORE follows a store still in the gate (R116). (DEDUCED: log 16.) -/
def State.afterGated (s : State) (i : Instr) : Bool :=
  match s.loadOf i with
  | none => false
  | some (o, ps) =>
    let ps := if ps = [] then [peerPart] else ps
    ps.any (fun p => effScope o p (s.atPeer i) != .core && s.core.gated.any (fun g => edge g.1 g.2 o p))

/-- Sectors that a store would take of the gate (R177). -/
def State.gateNeeds (s : State) (i : Instr) : Nat :=
  match i with
  | .st z b off _ _ => if wbits (s.eaG b off) 4 0 + sizeBytes z ≤ 32 then 1 else 2
  | _ => 0

/-- A restart point lies before a bundle for what its registers and the gate hold. (DEDUCED: log 15.) -/
def State.heldBefore (s : State) (b : Bundle) : Bool :=
  (slotsOf b).any (fun p => s.atDevice p.2 || s.afterGated p.2 ||
    (decide (0 < s.gateNeeds p.2) && decide (Config.gateSectors < s.core.gateUse + s.gateNeeds p.2 + 2)))

/-- A restart point lies after a bundle that executes (R175, R334). -/
def State.closesAfter (s : State) (b : Bundle) : Bool :=
  (slotsOf b).any (fun p => isAtomic p.2 || isPfx p.2 || isTile p.2 || forks p.2 || s.atDevice p.2)

/-! ## The conditions of R150 -/

/-- Condition 1: a register that the bundle reads or writes is not free (R18). (DEDUCED: log 17.) -/
def State.regsBusy (s : State) (b : Bundle) : Bool :=
  (slotsOf b).any (fun p => (regUses p.2).any s.core.pending) ||
  (slotsOf b).any (fun p => s.core.busyTZ ((s.withBind b).takes p.2 ++ s.makes p.2) || s.core.unread p.2)

/-- The predicate's register is not free (R202). -/
def State.predBusy (s : State) (b : Bundle) : Bool := (Dest.ofP b.bpi).any s.core.pending

/-- Sectors of another package that the bundle reads at issue and that have not come back for it (R368). -/
def State.farParts (s : State) (b : Bundle) : List Nat :=
  let ps := (slotsOf b).flatMap (fun p => match p.2 with
    | .ppld _ a v => s.partsOf (some (s.eaP a v, 72, .read))
    | .hld .. => (s.mAcc p.2).elim [] (fun x => s.partsOf x.2)
    | .pfxl .. | .pfxi .. => s.pfxParts p.2
    | _ => [])
  if ps.any (fun p => s.noRoute s.core p.pa) then [] else s.farMissing (s.core.farUid.getD s.uid) ps

/-- Condition 2: a queue is full, a factorisation is in the way, or no fault record is free (R150, R185, R298).
(DESIGN CHOICE: log 32.) -/
def State.queuesFull (s : State) (b : Bundle) : Bool :=
  let waiting (f : Thread → Bool) : Nat := (s.core.threads.filter (fun t => f t && t.phase == .queued)).length
  let xq := waiting Thread.isX
  let n := ((slotsOf b).filter (fun p => forks p.2)).length
  (match b.x with
   | some i => i.slot == .x && (decide (Config.xQueue ≤ xq) || s.core.threads.any (fun t => isFact t.ins) || (isFact i && decide (0 < xq)))
   | none => false) ||
  (match b.c with
   | some i => i.slot == .c && decide (Config.cQueue ≤ waiting (fun t => !t.isX && !t.sched))
   | none => false) ||
  (decide (0 < n) && decide (Config.engRecs < s.core.recs.length + n))

/-- What a slot adds to a stream's counter at issue: the stream and how often (R101, R106). -/
def State.counts (s : State) (i : Instr) : Option (Fin 8 × Nat) :=
  match i with
  | .st .. => none
  | .ppld _ a v => some (0, (Route.mem (s.partsOf (some (s.eaP a v, 72, .read)))).count)
  | i =>
    if i.slot == .x then some (0, 1)
    else if i.slot == .c then some ((cOrd i).stream, 1)
    else match s.mAcc i with
      | some (o, some (va, n, k)) => (match s.route va n k with
          | .ok (.scratch _) => none
          | .ok r => some (o.stream, r.count)
          | .error _ => none)
      | some (o, none) => if isPfx i then some (o.stream, 1) else none
      | none => none

/-- Some counter would pass 63, or committed stores still wait for theirs to fall (R102). (DEDUCED: log 21.) -/
def State.exhausted (s : State) (b : Bundle) : Bool :=
  let adds := (slotsOf b).filterMap (fun p => s.counts p.2)
  (s.core.held != []) ||
  adds.any (fun a => decide (Config.cntMax < s.core.cnt[a.1.val] + ((adds.filter (fun x => x.1 == a.1)).map Prod.snd).sum))

/-- A join by stream waits for a thread that has not ended (R98, R380). -/
def State.joinWaits (s : State) (b : Bundle) : Bool :=
  !s.core.threads.isEmpty && (slotsOf b).any (fun p =>
    let m := s.joinMask p.2
    s.core.threads.any (fun t => m.getLsbD t.ord.stream.val))

/-- A load that is read at issue. (DEDUCED: log 19.) -/
def State.nowLoad (s : State) (o : OrdF) (ps : List Part) : PLoad :=
  { uid := s.uid, dest := .s 0, ord := o, parts := ps, got := [], width := 0, va := 0, committed := false, dropped := false }

/-- A store to a scratchpad that is performed at issue. (DEDUCED: log 19.) -/
def State.nowStore (s : State) (o : OrdF) (r : Route) : PStore :=
  { uid := s.uid, ord := o, parts := [], bytes := [], va := 0,
    clus := (match r with | .clus p off => some (p, off) | _ => none),
    scratch := (match r with | .scratch off => some off | _ => none), bad := [] }

/-- What an access at issue does to a scratchpad: its ordering fields, where it goes, and whether it writes. Scalar stores go
through the gate, and a tile store to a peer leaves as a store (R176, R177). (DEDUCED: log 19.) -/
def State.padNow (s : State) (i : Instr) : Option (OrdF × Route × Bool) :=
  match i with
  | .ldt _ _ (.pair _) _ o => some (o, .scratch 0, false)
  | .stt _ (.pair _) _ o | .stp _ _ _ _ o => some (o, .scratch 0, true)
  | .st .. | .pref .. => none
  | i => match s.mAcc i with
    | some (o, some (va, n, k)) => (match i, s.route va n k with
      | .stt .., .ok (.scratch off) => some (o, .scratch off, true)
      | .stt .., _ => none
      | i, .ok (.scratch off) => some (o, .scratch off, isAtomic i)
      | i, .ok (.clus pos off) => some (o, .clus pos off, isAtomic i)
      | _, _ => none)
    | _ => none

/-- Some store to the own scratchpad has left the gate and is not performed. -/
def Core.padStores (c : Core) : Bool := (c.stores ++ c.held).any (fun p => p.scratch.isSome)

/-- An access that is performed at issue still follows one that is not; the directory step of a form of the table of shared prefixes
is an access of its own, on no page (R90 to R93, R96, R108, R334). (DEDUCED: log 19.) -/
def State.nowBlocked (s : State) (i : Instr) : Bool :=
  let c := s.core
  if isPfx i then
    match s.mAcc i with
    | none => false
    | some (o, _) =>
      let ps := peerPart :: s.pfxParts i
      !c.ordLoads.isEmpty || ps.any (fun p => (c.stores ++ c.held).any (fun x => x.rest.any (fun q => q.meets p || edge x.ord q o p)))
  else match s.padNow i with
    | some (o, r, true) => c.storeBlocked (s.nowStore o r) peerPart
    | some (o, _, false) =>
      c.loadBlocked (s.nowLoad o []) peerPart || (c.padStores && (match i with | .ldt _ _ (.pair _) _ _ => true | _ => false))
    | none =>
      (match i, s.loadOf i with
       | .hld .., some (o, ps) | .ppld .., some (o, ps) => ps.any (fun p => c.loadBlocked (s.nowLoad o ps) p)
       | _, _ => false)

/-- An X-slot thread that has not ended uses the scratchpad. (DEDUCED: log 18.) -/
def Core.xScratch (c : Core) : Bool :=
  c.threads.any (fun t => match xArgs t.ins with
    | some x => [x.oa, x.ob, x.od].any (fun o => match o with | .pair _ _ => true | _ => false)
    | none => false)

/-- The instruction reads or writes the own scratchpad outside an engine thread. (DEDUCED: log 18.) -/
def State.onScratch (s : State) (i : Instr) : Bool :=
  match i with
  | .gld .. | .stp .. | .ldt _ _ (.pair _) _ _ | .stt _ (.pair _) _ _ => true
  | i => s.atPad i

/-- It writes bytes of the own scratchpad, or empties its lines. (DEDUCED: log 18.) -/
def State.writesScratch (s : State) (i : Instr) : Bool :=
  s.onScratch i && (match i with | .st .. | .stt .. | .stp .. => true | .ldt _ _ _ cons _ => cons | i => isAtomic i)

/-- A barrier instruction waits for an epoch that is still open, unless its arrival has been sent before (R152, R241).
(DEDUCED: log 27.) -/
def State.barBlocked (s : State) (b : Bundle) : Bool :=
  match b.s with
  | some (.barArv k) => s.barOpen k.val && !s.core.arvSent.contains s.core.ckpt.pc
  | some (.barWt k) => s.barOpen k.val
  | _ => false

/-! ## Faults at issue (R179) -/

/-- The fault of an S-slot instruction at issue. -/
def State.faultS (s : State) (i : Instr) : Option SlotFault :=
  match i with
  | .loop src _ =>
    let n := s.trips src
    faultIf (decide (2 ^ 31 ≤ n) || (n != 0 && decide (6 ≤ s.core.src.loops.length))) 0 Cause.operandForm 0
  | .brkl p inv => faultIf ((s.rp p != inv) && s.core.src.loops.isEmpty) 0 Cause.operandForm 0
  | .waitm _ a off _ _ => s.faultWaitm a off
  | .barArv b | .barWt b => s.faultBar b
  | .partn a => s.faultPartn a
  | .bind n p => s.faultBind n p
  | .kset n _ _ => s.faultKset n
  | .ppld n a v => s.faultPpld n a v
  | .spcast _ a w => s.faultSpcast a w
  | _ => none

/-- The fault of an M-slot instruction at issue. -/
def State.faultM (s : State) (i : Instr) : Option SlotFault :=
  match i with
  | .ld z _ b off _ => s.faultLd z b off
  | .st z b off _ _ => s.faultSt z b off
  | .ldt f t ad _ _ => s.faultLdt f t ad
  | .stt f ad t _ => s.faultStt f t ad
  | .stp f b c t _ => s.faultStp f b c t
  | .line _ b off c => s.faultLine b off c
  | .lineq _ b off => s.faultLineq b off
  | .hld _ b off _ => s.faultHld b off
  | .seqld dbl _ b off _ _ => s.faultSeqld dbl b off
  | .pfxl _ b off _ => s.faultPfxl b off
  | .pfxi _ b off _ => s.faultPfxi b off
  | .pfxr _ c _ => s.faultPfxr c
  | .aadd _ _ b off _ _ | .amin _ _ b off _ _ | .amax _ _ b off _ _ | .aminu _ _ b off _ _ | .amaxu _ _ b off _ _
  | .aand _ _ b off _ _ | .aor _ _ b off _ _ | .axor _ _ b off _ _ | .aswp _ _ b off _ _ | .acas _ _ b off _ _ _
  | .asubf _ _ b off _ _ _ _ | .afadd _ _ b off _ _ => s.faultAtom i b off
  | _ => none

/-- The fault of a slot's instruction at issue, other than a join. -/
def State.ownFault (s : State) (i : Instr) : Option SlotFault :=
  match i.slot with
  | .s => s.faultS i
  | .m => s.faultM i
  | .x => s.faultX i
  | .c => s.faultC i
  | .g => (match i with | .gld .. => s.faultGld | _ => none)
  | .event => none

/-- Scratchpad lines of the core that a slot fetches at issue (R32). -/
def State.fetchLines (s : State) (i : Instr) : List Nat :=
  match i with
  | .gld .. => [wbits s.core.src.gptr 31 0 / 128]
  | .ldt f _ ad _ _ => s.tileAccLines f ad
  | .ld z _ b off _ => s.accLines (s.eaG b off) (sizeBytes z)
  | .seqld dbl _ b off _ _ => s.accLines (s.eaG b off) (if dbl then 8 else 4)
  | .hld _ b off _ => s.accLines (s.eaG b off) 128
  | i =>
    if i.slot == .x then s.xLines i
    else if i.slot == .c then s.cLines i
    else if isAtomic i then (match s.mAcc i with | some (_, some (va, n, _)) => s.accLines va n | _ => [])
    else []

/-- A thread's read or write of the scratchpad, which takes its bundle's place in program order, is still to be made; or a line
that the bundle fetches is about to be consumed by an X-slot thread before it, or stands FULL by a thread that it must
follow (R33, R90, R99, R260, R274). (DEDUCED: log 18.) -/
def State.scratchBlocked (s : State) (b : Bundle) : Bool :=
  !s.core.threads.isEmpty &&
  (let gone := (s.core.threads.filter (fun t => t.isX && t.res.isNone)).flatMap s.core.consumed
   (slotsOf b).any (fun p => (s.onScratch p.2 && s.core.xScratch) ||
     (s.writesScratch p.2 && s.core.threads.any (fun t => t.readsPool && t.reading)) ||
     (!gone.isEmpty && (s.fetchLines p.2).any (fun l => gone.contains l && s.core.line l == .full)) ||
     s.core.filling s.uid (s.fetchLines p.2)))

/-- A load from a peer's scratchpad finds a line FULL by a thread of the peer that has not ended (R99). -/
def State.peerFilling (s : State) (i : Instr) : Bool :=
  match s.mAcc i with
  | some (_, some (va, n, k)) => (match s.route va n k with
    | .ok (.clus pos off) => k != .write && (s.coreAt (s.core.peer pos)).filling s.uid (rangeLines off n)
    | _ => false)
  | _ => false

/-- PARTN waits for the peers' stores that the bank has accepted (R159, R242). -/
def State.partnWaits (s : State) (b : Bundle) : Bool := match b.s with | some (.partn _) => s.expected s.core | _ => false

/-- The bundle waits at issue under a condition before the last. -/
def State.mustWait (s : State) (b : Bundle) : Bool :=
  s.queuesFull b || s.exhausted b || s.joinWaits b || s.barBlocked b || s.scratchBlocked b || s.partnWaits b ||
  (slotsOf b).any (fun p => s.nowBlocked p.2 || s.peerFilling p.2)

/-- The slot's access joins the thread of a record: by its stream, by a register, or by a line that the thread filled (R98,
R99). (DEDUCED: log 29.) -/
def State.joins (s : State) (i : Instr) (r : EngRec) : Bool :=
  (s.joinMask i).getLsbD r.stream.val || r.regs.any (fun z => (s.takes i).contains z) ||
  (!r.filled.isEmpty && (s.fetchLines i).any (fun l => r.filled.contains l && s.core.line l == .full))

/-- The poisoned threads of a peer that an M-slot load joins, which finds a line of the peer FULL by them (R99, R100, R159).
(DESIGN CHOICE: log 113.) -/
def State.peerJoins (s : State) (i : Instr) : List ((Nat × Nat) × EngRec) :=
  match s.mAcc i with
  | some (_, some (va, n, k)) => (match s.route va n k with
    | .ok (.clus pos off) =>
      let q := s.coreAt (s.core.peer pos)
      if k = .write then []
      else (q.recs.filter (fun r => r.2.flt.isSome && !r.2.retired &&
        (rangeLines off n).any (fun l => r.2.filled.contains l && q.line l == .full))).map (fun r => ((q.id, r.1), r.2))
    | _ => [])
  | _ => []

/-- A poisoned thread that a slot joins: the slot, the core and the number of its record, and the record. -/
structure JoinOf where
  slot : Nat
  core : Nat
  ix   : Nat
  rec' : EngRec
  deriving DecidableEq, Repr

/-- The poisoned threads of the own core that a bundle joins. -/
def State.joined (s : State) (b : Bundle) : List JoinOf :=
  (slotsOf b).flatMap (fun p => (s.core.recs.filter (fun r => r.2.flt.isSome && !r.2.retired && (s.withBind b).joins p.2 r.2)).map
    (fun r => ⟨p.1, s.core.id, r.1, r.2⟩))

/-- The poisoned threads of peers that a bundle joins. (DESIGN CHOICE: log 113.) -/
def State.joinedFar (s : State) (b : Bundle) : List JoinOf :=
  (slotsOf b).flatMap (fun p => (s.peerJoins p.2).map (fun r => ⟨p.1, r.1.1, r.1.2, r.2⟩))

/-- The age of a record: how many forks ago its thread was forked. -/
def Core.age (c : Core) (r : EngRec) : Nat := (c.forks - r.ford).toNat

/-- POISON_JOIN faults: of the threads joined only the one forked first is reported, by every slot that joins it (R100, R186); one of
the own core before one of a peer. (DESIGN CHOICE: log 113.) -/
def State.joinFaults (s : State) (b : Bundle) : List SlotFault :=
  let own := s.joined b
  let js := if own = [] then s.joinedFar b else own
  let age (j : JoinOf) : Nat := (s.coreAt j.core).age j.rec'
  let best := (js.map age).foldl max 0
  (js.filter (fun j => age j == best)).map (fun j => match j.rec'.flt with
    | some f => ⟨j.slot, Cause.poisonJoin, f.taddr, f.tinfo, some (j.core, j.ix)⟩
    | none => slotFault j.slot Cause.poisonJoin 0)

/-- The fault comes from a POISONED line or from poisoned data, which an access only meets once its lines are there.
(DEDUCED: log 22.) -/
def isLate (f : SlotFault) : Bool := f.cause == Cause.poisonLine || f.cause == Cause.dataPoison

/-- Every fault of the bundle at issue: a slot's own, else its join, else that of a POISONED line (R179, R186).
(DEDUCED: log 22.) -/
def State.allFaults (s : State) (b : Bundle) : List SlotFault :=
  let sb := s.withBind b
  let own := (slotsOf b).filterMap (fun p => if p.1 = 2 ∨ p.1 = 3 then sb.ownFault p.2 else s.ownFault p.2)
  let early := own.filter (fun f => !isLate f)
  let js := (s.joinFaults b).filter (fun f => !early.any (fun g => g.slot == f.slot))
  early ++ js ++ (own.filter isLate).filter (fun f => !js.any (fun g => g.slot == f.slot))

/-- The first line of a peer's scratchpad in a state among those that an M-slot load or atomic reads there (R159).
(DEDUCED: log 97.) -/
def State.peerFetch (s : State) (i : Instr) : Option Nat :=
  match s.mAcc i with
  | some (_, some (va, n, k)) => if k = .write then none else s.peerLine .empty va n
  | _ => none

/-- EMPTY lines that slots of the bundle wait for, of the own scratchpad or of a peer's: slot and line (R32, R159).
(DEDUCED: log 22; DEDUCED: log 93.) -/
def State.emptyLines (s : State) (b : Bundle) : List (Nat × Nat) :=
  (slotsOf b).flatMap (fun p => (((s.core.lineIn .empty (s.fetchLines p.2)).or (s.peerFetch p.2)).map (fun l => (p.1, l))).toList)

/-! ## Testing a bundle -/

/-- What comes of testing a bundle at issue. -/
inductive Plan where
  | go
  /-- Its predicate is false (R202). -/
  | skip
  /-- Conditions 1 to 3 hold it. -/
  | wait
  /-- It waits for sectors of another package. -/
  | far (ks : List Nat)
  /-- Condition 4 holds it: the slots and lines that wait. -/
  | lines (ws : List (Nat × Nat))
  | trap (fs : List SlotFault)
  deriving DecidableEq, Repr

/-- The bundle's predicate (R202). -/
def State.bundlePred (s : State) (b : Bundle) : Bool := s.rp b.bpi != b.bpn

/-- The core in focus prepared to test the bundle at its PC: pending G registers that have come due hold their values, the
sources are the registers as they stand, and nothing of a bundle is under way. -/
def State.poised (s : State) : State :=
  s.onC (fun c =>
    let a := (List.finRange 16).foldl (fun a g => a.settleG g) c.arch
    { c with arch := a, ckpt := (if c.atRp then a else c.ckpt), src := a, npc := none, closes := false, ended := false })

/-- The restart point before the bundle is reached when it is not there already (R175). (DEDUCED: log 15.) -/
def State.startRp (s : State) (here : Bool) : State := if here && !s.core.atRp then s.onC (fun c => c.commit) else s

/-- Tests a bundle in the order of R150, on a core that is poised. Bundles issue in order and wait as R32 says, so that a line that
an earlier bundle waits for is there before a later bundle reads (R122). (DEDUCED: log 22; DEDUCED: log 93.) -/
def State.plan (s : State) (b : Bundle) : Plan :=
  if s.predBusy b then .wait
  else if !s.bundlePred b then .skip
  else if s.regsBusy b then .wait
  else if s.mustWait b then .wait
  else if s.farParts b ≠ [] then .far (s.farParts b)
  else
    let fs := s.allFaults b
    let ls := s.emptyLines b
    if fs.any (fun f => !isLate f) then .trap (if ls = [] then fs else fs.filter (fun f => !isLate f))
    else if ls ≠ [] then .lines ls
    else if fs ≠ [] then .trap fs
    else .go

/-- The core in focus at its next bundle: poised, with the restart points before the bundle in place, whatever its predicate
(R175, R202). (DEDUCED: log 15.) -/
def State.ready (s : State) (b : Bundle) : State :=
  let s := (s.poised).startRp (fixedBefore b)
  if s.predBusy b || (s.bundlePred b && s.regsBusy b) then s else s.startRp (s.heldBefore b)

/-- The bundle at the PC, when it can be fetched and is legal. -/
def State.bundleHere (s : State) : Option Bundle :=
  if s.farFetch ≠ [] then none
  else match s.fetch with
  | .error _ => none
  | .ok w => match decodeBundle w with | .ok b => some b | .error _ => none

/-! ## Waiting -/

/-- The next clk of device time is one of the core's own clk (R10, R149). (DESIGN CHOICE: log 7; DEDUCED: log 77.) -/
def State.ownClk (s : State) (c : Core) : Bool :=
  let f := s.coreFactor c
  (s.dtime.toNat + 1) * f / 16 != s.dtime.toNat * f / 16

/-- A stall has reached LINEWAIT (R32). (DEDUCED: log 23.) -/
def Core.atLimit (c : Core) : Bool := c.arch.linewait != 0 && decide (c.arch.linewait.toNat ≤ c.stall)

/-- STALL_LIMIT's faults: every slot that waits for an EMPTY line; TADDR is the first such line's offset (R179).
(DEDUCED: log 23.) -/
def limitFaults (ws : List (Nat × Nat)) : List SlotFault :=
  ws.map (fun w => slotFault w.1 Cause.stallLimit (BitVec.ofNat 64 (128 * w.2)))

/-- STALL_LIMIT: a stall on EMPTY lines that has reached LINEWAIT raises the replayable trap (R32, R179).
(DEDUCED: log 23; DEDUCED: log 80.) -/
def execStallLimit (s : State) : Out :=
  match s.core.status, s.bundleHere with
  | .running, some b =>
    let s' := s.ready b
    (match s'.plan b with
     | .lines ws => if s.core.atLimit then .next (s'.takeTrap (limitFaults ws)) else .next s
     | _ => .next s)
  | _, _ => .next s

/-- A trap record waits for the host in the context's queues (R110). -/
def State.recordWaits (s : State) : Bool :=
  (s.ctxQ s.core.ctx).fatal.count != 0 || (s.ctxQ s.core.ctx).replay.count != 0

/-- A look at an armed or arming WAITM: a pre-emption request or a pending record ends an armed wait with cause 2 (R110). -/
def State.lookWait (s : State) (m : Monitor) : State :=
  let m := if m.armed && m.cause.isNone && (s.core.preempt || s.recordWaits) then { m with cause := some 2 } else m
  s.onC (fun c => { c with monitor := some m })

/-- The core waits in a WAITM whose cause is not known. -/
def Core.watching (c : Core) : Option Monitor := c.monitor.filter (fun m => m.cause.isNone)

/-- The core stops at its restart point for pre-emption: not while an armed WAITM has still to commit (R110, R191). -/
def Core.stopsHere (c : Core) : Bool := c.preempt && c.atRp && !(c.monitor.any (fun m => m.armed))

/-- The core in focus stalls on EMPTY lines before its next bundle (R32, R150). -/
def State.stalls (s : State) : Bool :=
  s.core.status == .running && (match s.bundleHere with
    | none => false
    | some b =>
      let t := s.ready b
      !t.core.stopsHere && t.core.watching.isNone && (match t.plan b with | .lines _ => true | _ => false))

/-- A clk of its own passes at the core: a stall and a wait that have not ended count it (R10, R32, R110).
(DESIGN CHOICE: log 7; DEDUCED: log 23; DESIGN CHOICE: log 100.) -/
def Core.passClk (c : Core) (stalls : Bool) : Core :=
  { c with ran := c.ran + 1, stallc := if stalls then c.stallc + 1 else c.stallc, stall := if stalls then c.stall + 1 else c.stall,
           monitor := c.monitor.map (fun m => if m.cause.isNone then { m with waited := m.waited + 1 } else m) }

/-- A clk of device time passes at a core: one that runs a task counts it where it is one of its own, whichever agent acts in the step
(R10, R32, R110, R149, R194). (DESIGN CHOICE: log 7.) -/
def State.clk (s : State) (c : Core) : Core :=
  if c.status == .running && s.ownClk c then c.passClk (s.focus c.id).stalls else c

/-! ## Running a bundle -/

/-- Runs the slots of a bundle in order. After the last the bundle completes, unless a slot has trapped, waits, or has
completed it. (DEDUCED: log 12.) -/
def runSlots (run : Instr → State → Out) (is : List Instr) (s : State) : Out :=
  match is with
  | [] => .next (if s.core.ended then s else s.onC (fun c => c.complete true))
  | i :: r =>
    if s.core.ended then .next s
    else match run i s with
      | .next t => runSlots run r t
      | o => o

/-- The order in which the slots' effects are put into the state: S, M, X, C, G. An X slot that reads T registers goes before an
LDT that writes them (R17). An S slot that ends the bundle, and PPLD, which the bundle's own forks do not see, come last.
(DEDUCED: log 12.) -/
def slotOrder (b : Bundle) : List Instr :=
  let last := match b.s with | some .halt | some (.trap _) | some .tret | some (.ppld ..) => true | _ => false
  let mx := match b.m with | some (.ldt ..) => b.x.toList ++ b.m.toList | _ => b.m.toList ++ b.x.toList
  let rest := mx ++ b.c.toList ++ b.g.toList
  if last then rest ++ b.s.toList else b.s.toList ++ rest

/-- A bundle whose predicate is false only moves on (R202, R234). (DEDUCED: log 25.) -/
def State.skipBundle (s : State) : State := s.onC (fun c => ({ c with stall := 0, farUid := none } : Core).complete true)

/-- The record of what a bundle would read at issue from a home that has no route left (R367). -/
def State.lostReads (s : State) (b : Bundle) : State :=
  (slotsOf b).foldl (fun (s : State) p =>
    match p.2, s.mAcc p.2 with
    | .ppld _ a v, _ => s.lostRecord (s.eaP a v) ((s.partsOf (some (s.eaP a v, 72, .read))).map Part.pa)
    | .hld .., some (_, some (va, n, k)) => s.lostRecord va ((s.partsOf (some (va, n, k))).map Part.pa)
    | .pfxl .., some (_, some (va, _, _)) | .pfxi .., some (_, some (va, _, _)) => s.lostRecord va ((s.pfxParts p.2).map Part.pa)
    | _, _ => s) s

/-- The records of lost routes behind the DATA_POISON of a bundle: of what it would read, and of the walks to it (R367). -/
def State.lostFor (s : State) (b : Bundle) (fs : List SlotFault) : State :=
  match fs.filter (fun f => f.cause == Cause.dataPoison) with
  | [] => s
  | ds => ds.foldl (fun (s : State) f => s.walkRecord f.taddr) (s.lostReads b)

/-- What was read ahead is no longer read after the accesses of the bundle that issues; a wait or a barrier ends it (R93, R110,
R152). (DESIGN CHOICE: log 118.) -/
def State.passBundle (s : State) (b : Bundle) : State :=
  if s.core.ahead = [] then s
  else if (match b.s with | some (.waitm ..) | some (.barArv _) | some (.barWt _) => true | _ => false) then
    s.onC (fun c => { c with ahead := [] })
  else
    let streams := (slotsOf b).filterMap (fun p => match p.2 with
      | .ppld .. => some 0
      | i => if i.slot == .x then some 0 else if i.slot == .c then some (cOrd i).stream else (s.mAcc i).map (fun x => x.1.stream))
    s.onC (fun c => streams.foldl (fun (c : Core) (st : Fin 8) => c.passAhead st s.uid) c)

/-- The core in focus issues a legal bundle, or waits with it, or stops at the restart point before it (R191).
(DESIGN CHOICE: log 14.) -/
def State.issueBundle (run : Instr → State → Out) (b : Bundle) (s : State) : Out :=
  let s := s.ready b
  if s.core.stopsHere then .next s
  else match s.core.watching with
  | some m => .next (s.lookWait m)
  | none =>
    match s.plan b with
    | .wait => .next s
    | .far ks => .next (s.askAtIssue ks)
    | .skip => .next s.skipBundle
    | .trap fs => .next ((s.lostFor b fs).takeTrap fs)
    | .lines _ => if s.core.atLimit then run .stallLimit s else .next s
    | .go => runSlots run (slotOrder b) ((s.passBundle b).onC (fun c => { c with stall := 0, farUid := none, closes := s.closesAfter b }))

/-- The core in focus issues its next bundle: its fetch may fail, its encoding may be ILLEGAL (R179, R203).
(DESIGN CHOICE: log 122.) -/
def State.issue (run : Instr → State → Out) (s : State) : Out :=
  if s.core.status != .running || s.core.stopsHere then .next s
  else
    let s := s.noteTlb (s.asidOf s.core) s.core.arch.pc.toNat .fetch
    if s.farFetch ≠ [] then .next (s.askAtIssue s.farFetch)
    else match s.fetch with
    | .error _ => run .bundleFetchFault s
    | .ok w =>
      match decodeBundle w with
      | .error m => run (.illegal (BitVec.ofNat 5 m)) s
      | .ok b => s.issueBundle run b

/-! ## Full pre-emption (R191, R309) -/

/-- A running factorisation stops at its next step commit, after `n` steps more; its continuation is kept for the save
(R309). (DEDUCED: log 34.) -/
def State.stopFactor (s : State) (n : Nat) : State :=
  match s.core.threads.find? (fun t => isFact t.ins && t.phase == .running) with
  | none => s
  | some t =>
    if s.core.contin.isSome then s
    else
      let r := runFactor (s.core.seenBy t) t s.entryPc n
      if r.2.2 then (s.runThread t n).onC (fun c => { c with contin := some ⟨t.ins, t.sh, t.pivt, t.zpol, t.pc⟩ }) else s

/-- The core stops issuing for its full save. -/
def State.stopCore (s : State) : State := s.onC (fun c => { c with status := .saving, monitor := none, stall := 0 })

/-- FULL_PREEMPT_REQUEST: a core asked to give way stops at its restart point; one that stalls under R150 rolls back to its
last restart point first; one that waits for a verdict is there already. A factorisation in flight stops after `steps` further
steps, at least one (R191, R309). (DEDUCED: log 34.) -/
def execFullPreemptRequest (steps : Nat) (s : State) : Out :=
  if !s.core.preempt then .next s
  else
    let n := max 1 steps
    match s.core.status with
    | .running =>
      if s.core.stopsHere then .next (s.stopCore.stopFactor n)
      else match s.bundleHere with
        | none => .next s
        | some b =>
          let s' := s.ready b
          (match s'.core.monitor, s'.plan b with
           | none, .wait | none, .far _ | none, .lines _ => .next (((s'.onC Core.rollback).stopCore).stopFactor n)
           | _, _ => .next s)
    | .replay .. | .waitRoom .. => .next (s.stopCore.stopFactor n)
    | .saving => .next (s.stopFactor n)
    | _ => .next s

end Sys2Proof.Machine
end

