-- ==== Sys2Proof/Machine/Links.lean ====
section
/-! DEFINITION. What arrives over the links: die-link flits (R367), Oxlink flits (R368 to R370), and root-port requests
(R366). -/

namespace Sys2Proof.Machine

/-! ## The crown die's own accesses (R170, R367) -/

/-- An application core of the crown die writes physical memory, wherever it lies (R170). -/
def State.appWrite (s : State) (pa : Nat) (data : List Byte) : State := s.crownPut [flatPart pa data.length] data

/-- An application core of the crown die reads physical memory, wherever it lies (R170, R368). -/
def State.appRead (s : State) (pa n : Nat) : State :=
  s.crownRead (.appRead pa n) [flatPart pa n] (fun t => { t with appOut := t.appOut ++ [s.crownBytes (flatPart pa n)] })

/-! ## Die links (R367) -/

/-- CUBE_FLIT_RECEIVE: links 0 to 2 are the die's cube links, 3 its crown link. A flit that fails its check is resent; when the
sixteenth resend in a row fails the link goes down, and CAP_ENUM shows it. -/
def execCubeFlitReceive (d : Fin 8) (link : Fin 4) (good : Bool) (s : State) : Out :=
  let n := (s.die d.val).resends.toList.getD link.val 0
  let set (s : State) (v : Nat) : State := s.onDie d.val (fun x => { x with resends := x.resends.set link.val v })
  if good then .next (set s 0)
  else if n < 16 then .next (set s (n + 1))
  else
    let s := set s 0
    let s := if link.val < 3 then s.dropLink d.val link.val else s.onDie d.val (fun x => { x with crown := false })
    .next s.writeCaps

/-! ## Oxlink flits (R368) -/

/-- A flit's fields. -/
structure Flit where
  kind : Nat
  src  : Nat
  dst  : Nat
  nsec : Nat
  tag  : Nat
  seq  : Nat
  addr : Nat
  scrc : List Nat
  fcrc : Nat
  secs : List (List Byte)
  crcOk : Bool
  deriving DecidableEq, Repr

/-- The fields of 256 bytes; the CRC-32 covers bytes 0 to 27 and 32 to 255. -/
def parseFlit (f : BitVec 2048) : Flit :=
  let bs := leBytes 256 f.toNat
  let w := BitVec.ofNat 64 (leVal (bs.take 8))
  let sect := chunks 32 7 (bs.drop 32)
  let crc := leVal ((bs.drop 28).take 4)
  { kind := wbits w 63 61, src := wbits w 60 50, dst := wbits w 49 39, nsec := wbits w 38 36, tag := wbits w 35 24, seq := wbits w 23 0,
    addr := leVal ((bs.drop 8).take 5), scrc := (chunks 2 7 (bs.drop 14)).map leVal, fcrc := crc, secs := sect.take (wbits w 38 36),
    crcOk := (crc32 (bs.take 28 ++ bs.drop 32)).toNat == crc }

/-- The flit that a port accepts: its check holds, it is the next of the port, of the kind named, for this package, and the port
is up. Any other is resent or dropped. -/
def State.takeFlit (s : State) (port : Fin 16) (f : BitVec 2048) (kind : Nat) : Option (Flit × State) :=
  let x := parseFlit f
  if s.booted && x.crcOk && x.kind == kind && x.seq == (s.ox.seqIn[port.val]).toNat && x.dst == s.ox.pkg.toNat &&
     wbits (s.ox.ports[port.val]) 2 0 == 1 then
    some (x, { s with ox := { s.ox with seqIn := s.ox.seqIn.set port.val (s.ox.seqIn[port.val] + 1) } })
  else none

/-- Sector `i` of a flit passes its check (R196). -/
def Flit.secOk (x : Flit) (i : Nat) : Bool := (crc16 (x.secs.getD i [])).toNat == nth x.scrc i

/-- The sectors of a flit with their poison. (DEDUCED: log 61.) -/
def Flit.taken (x : Flit) : List Sect := x.secs.mapIdx (fun i b => ⟨b, !x.secOk i⟩)

/-- The records of a flit's sectors that fail their checks at receive, on the port's die. (DEDUCED: log 61.) -/
def State.flitChecks (s : State) (port : Fin 16) (x : Flit) : State :=
  (List.range x.secs.length).foldl (fun (s : State) i => if x.secOk i then s else s.dieRecord Cause.checkFail (port.val / 2) 72 (x.addr + 32 * i)) s

/-- The sectors of a flit that a port has taken are written to local memory from its address on; one that fails its check, or whose
home no route leads to, is poisoned (R367). (DEDUCED: log 61.) -/
def State.flitSectors (s : State) (port : Fin 16) (x : Flit) : State :=
  (List.range x.secs.length).foldl (fun (s : State) i =>
    let pa := x.addr + 32 * i
    let s := s.dieWrite (port.val / 2) pa (x.secs.getD i [])
    if x.secOk i then s else { s with poison := pa / 32 :: s.poison }) s

/-- Runs what a flit does when the port accepts it, after the checks of the sectors that it brings; a read request brings none. -/
def State.onFlit (s : State) (port : Fin 16) (f : BitVec 2048) (kind : Nat) (k : Flit → State → State) : Out :=
  match s.takeFlit port f kind with
  | none => .next s
  | some r => .next (k r.1 (if kind = 0 then r.2 else r.2.flitChecks port r.1))

/-- The sector at an address as a port reads it, with its poison; with no route left to its home, bytes of no meaning, poisoned
(R367). -/
def State.portSector (s : State) (port : Fin 16) (pa : Nat) : List Byte × Bool :=
  if s.noRouteAt (port.val / 2) pa then ((List.range 32).map (fun i => Config.freeByte s.fresh (pa + i)), true)
  else (s.physBytes pa 32, s.isPoison pa 32)

/-- OXLINK_READ: NSEC sectors of local memory go back in a completion with the request's tag. -/
def execOxlinkRead (port : Fin 16) (f : BitVec 2048) (s : State) : Out :=
  s.onFlit port f 0 (fun x s =>
    let pas := (List.range x.nsec).map (fun i => x.addr + 32 * i)
    let secs := pas.map (s.portSector port)
    let s := pas.foldl (fun (s : State) pa =>
      if s.noRouteAt (port.val / 2) pa then s.dieRecord Cause.memUe (port.val / 2) (s.lostLink (port.val / 2) pa) pa else s) s
    let n := s.ox.seqOut[port.val]
    let g := buildFlit 2 s.ox.pkg.toNat x.src x.tag n.toNat 0 secs x.nsec
    { s with ox := { s.ox with seqOut := s.ox.seqOut.set port.val (n + 1), out := s.ox.out ++ [(port.val, g)] } })

/-- OXLINK_WRITE: the sectors are written to local memory. -/
def execOxlinkWrite (port : Fin 16) (f : BitVec 2048) (s : State) : Out := s.onFlit port f 1 (fun x s => s.flitSectors port x)

/-- The sector of a completion answers the read request of its tag, and waits for the access that asked; the tag is free again. What
waits for sectors of other packages is served again. One that answers no request is dropped. -/
def State.answerFar (s : State) (x : Flit) : State :=
  match s.ox.asks.find? (fun a => a.tag == x.tag && a.pa / 2 ^ 40 % 2 ^ 11 == x.src), x.taken with
  | some a, sect :: _ =>
    { s with ox := { s.ox with asks := s.ox.asks.filter (fun b => b.tag ≠ a.tag), got := s.ox.got ++ [⟨a.core, a.uid, a.pa, sect⟩] },
             agenda := s.ox.waits.map (fun w => ⟨w.act.core, .again w.uid⟩) ++ s.agenda }
  | _, _ => s

/-- OXLINK_COMPLETION: the data of a tag have returned to the access that asked for them. -/
def execOxlinkCompletion (port : Fin 16) (f : BitVec 2048) (s : State) : Out := s.onFlit port f 2 (fun x s => s.answerFar x)

/-- OXLINK_MAILBOX: the message is written to the mailbox, which fires once. -/
def execOxlinkMailbox (port : Fin 16) (f : BitVec 2048) (s : State) : Out :=
  s.onFlit port f 3 (fun x s =>
    let boxes := s.mboxes
    let t := State.flitSectors { s with mboxes := [] } port x
    State.fire { t with mboxes := boxes } x.addr none)

/-- OXLINK_REDUCE: another package's contribution to a collective is kept for it. -/
def execOxlinkReduce (port : Fin 16) (f : BitVec 2048) (s : State) : Out :=
  s.onFlit port f 4 (fun x s => { s with ox := { s.ox with reds := s.ox.reds ++ [(x.src, x.tag, x.addr, x.taken)] } })

/-- OXLINK_BROADCAST: collective data are delivered to local memory. -/
def execOxlinkBroadcast (port : Fin 16) (f : BitVec 2048) (s : State) : Out := s.onFlit port f 5 (fun x s => s.flitSectors port x)

/-! ## Root ports (R366) -/

/-- The address space of a requester at a port. -/
def State.requester (s : State) (port : Fin 8) (rid : BitVec 16) : Option Nat :=
  (s.ports.table.find? (fun e => e.1 / 256 == port.val && e.2.v && e.2.rid == rid)).map (fun e => e.2.asid.toNat)

/-- The parts of an inbound request; none where it is refused. -/
def State.inbound (s : State) (port : Fin 8) (rid : BitVec 16) (va : Word) (n : Nat) (k : Acc) : Option (List Part) :=
  if 2 ^ 57 < va.toNat + n ∨ !s.booted then none
  else match s.requester port rid with
    | none => none
    | some a => (match (s.as (crownNo s.readUid)).spanParts a va.toNat n k (n / 65536 + 2) with | .ok ps => some ps | .error _ => none)

/-- A refusal counts in the port's UREQ. -/
def State.refuse (s : State) (port : Fin 8) : State :=
  { s with ports := { s.ports with ureq := s.ports.ureq.set port.val (s.ports.ureq[port.val] + 1) } }

/-- The record of a refused request whose walk no route leads on (R367). -/
def State.refusedWalk (s : State) (port : Fin 8) (rid : BitVec 16) (va : Word) (n : Nat) : State :=
  match (s.requester port rid).bind (fun a => (s.as (crownNo s.readUid)).pageLost a va.toNat n) with
  | some pa => s.dieRecord Cause.memUe ((s.homeDie pa).getD 0) 76 pa
  | none => s

/-- INBOUND_WRITE: an accepted write is performed at SYS scope, a refused one dropped. (DEDUCED: log 70.) -/
def execInboundWrite (port : Fin 8) (rid : BitVec 16) (va : Word) (data : List Byte) (s : State) : Out :=
  match s.inbound port rid va data.length .write with
  | none => .next ((s.refusedWalk port rid va data.length).refuse port)
  | some ps => .next (s.crownPut ps data)

/-- INBOUND_READ: an accepted read answers with its data, once those of another package have come back, a refused one with Unsupported
Request (R366, R368). (DEDUCED: log 70.) -/
def execInboundRead (port : Fin 8) (rid : BitVec 16) (va : Word) (n : Nat) (s : State) : Out :=
  let reply (s : State) (r : Option (List Byte)) : State := { s with ports := { s.ports with out := s.ports.out ++ [(port.val, r)] } }
  match s.inbound port rid va n .read with
  | none => .next (reply ((s.refusedWalk port rid va n).refuse port) none)
  | some ps => .next (s.crownRead (.event (.inboundRead port rid va n)) ps (fun t => reply t (some (ps.flatMap s.crownBytes))))

end Sys2Proof.Machine
end

