-- ==== Sys2Proof/Machine/Predicate.lean ====
section
/-! DEFINITION. Predicates and selection (R206, R222). -/

namespace Sys2Proof.Machine

/-- The condition of CMP on a and b (R206). -/
def cmpHolds (cc : CmpCond) (a b : Word) : Bool :=
  match cc with
  | .eq => a == b
  | .ne => a != b
  | .lt => a.slt b
  | .ge => !a.slt b
  | .ltu => a.ult b
  | .geu => !a.ult b
  | .le => !b.slt a
  | .gt => b.slt a
  | .leu => !b.ult a
  | .gtu => b.ult a

/-- CMP.cc (R222). -/
def execCmp (cc : CmpCond) (d : PReg) (a : SReg) (b : Src) (s : State) : Out :=
  .next (s.wp d (cmpHolds cc (s.rs a) (s.src b)))
/-- PAND (R222). -/
def execPand (d a b : PReg) (s : State) : Out := .next (s.wp d (s.rp a && s.rp b))
/-- POR (R222). -/
def execPor (d a b : PReg) (s : State) : Out := .next (s.wp d (s.rp a || s.rp b))
/-- PNOT (R222). -/
def execPnot (d a : PReg) (s : State) : Out := .next (s.wp d (!s.rp a))
/-- SEL: a when P[p] XOR invert, otherwise b (R222). -/
def execSel (d : SReg) (p : PReg) (inv : Bool) (a : SReg) (b : Src) (s : State) : Out :=
  .next (s.ws d (if s.rp p != inv then s.rs a else s.src b))

end Sys2Proof.Machine
end

