-- ==== Sys2Proof/Machine/Scalar.lean ====
section
/-! DEFINITION. The integer forms of the S slot (R219 to R221) and the no-op (R201). -/

namespace Sys2Proof.Machine

/-- A two-source integer form: `f` of the sources, to Sd (R219). -/
def State.int2 (s : State) (f : Word → Word → Word) (d a : SReg) (b : Src) : Out :=
  .next (s.ws d (f (s.rs a) (s.src b)))

/-- Bits [127:64] of the signed product (R219). -/
def mulHigh (a b : Word) : Word := BitVec.ofInt 64 (a.toInt * b.toInt / 2 ^ 64)
/-- Bits [127:64] of the unsigned product (R219). -/
def mulHighU (a b : Word) : Word := BitVec.ofNat 64 (a.toNat * b.toNat / 2 ^ 64)
/-- DIV: −1 for a zero divisor; −2^63 by −1 gives −2^63; otherwise truncated (R219). -/
def divS (a b : Word) : Word := if b = 0 then BitVec.ofInt 64 (-1) else BitVec.ofInt 64 (a.toInt.tdiv b.toInt)
/-- DIVU: 2^64 − 1 for a zero divisor (R219). -/
def divU (a b : Word) : Word := if b = 0 then BitVec.ofInt 64 (-1) else BitVec.ofNat 64 (a.toNat / b.toNat)
/-- REM: the dividend for a zero divisor; otherwise the sign of the dividend (R219). -/
def remS (a b : Word) : Word := if b = 0 then a else BitVec.ofInt 64 (a.toInt.tmod b.toInt)
/-- REMU: the dividend for a zero divisor (R219). -/
def remU (a b : Word) : Word := if b = 0 then a else BitVec.ofNat 64 (a.toNat % b.toNat)
/-- A shift count: b[5:0] (R219). -/
def shAmt (b : Word) : Nat := b.toNat % 64

/-- NOP: the no-op changes nothing (R201). -/
def execNop (s : State) : Out := .next s
/-- ADD (R219). -/
def execAdd (d a : SReg) (b : Src) (s : State) : Out := s.int2 (fun x y => x + y) d a b
/-- SUB (R219). -/
def execSub (d a : SReg) (b : Src) (s : State) : Out := s.int2 (fun x y => x - y) d a b
/-- MUL: bits [63:0] of the product (R219). -/
def execMul (d a : SReg) (b : Src) (s : State) : Out := s.int2 (fun x y => x * y) d a b
/-- MULH (R219). -/
def execMulh (d a : SReg) (b : Src) (s : State) : Out := s.int2 mulHigh d a b
/-- MULHU (R219). -/
def execMulhu (d a : SReg) (b : Src) (s : State) : Out := s.int2 mulHighU d a b
/-- DIV (R219). -/
def execDiv (d a : SReg) (b : Src) (s : State) : Out := s.int2 divS d a b
/-- DIVU (R219). -/
def execDivu (d a : SReg) (b : Src) (s : State) : Out := s.int2 divU d a b
/-- REM (R219). -/
def execRem (d a : SReg) (b : Src) (s : State) : Out := s.int2 remS d a b
/-- REMU (R219). -/
def execRemu (d a : SReg) (b : Src) (s : State) : Out := s.int2 remU d a b
/-- AND (R219). -/
def execAnd (d a : SReg) (b : Src) (s : State) : Out := s.int2 (fun x y => x &&& y) d a b
/-- OR (R219). -/
def execOr (d a : SReg) (b : Src) (s : State) : Out := s.int2 (fun x y => x ||| y) d a b
/-- XOR (R219). -/
def execXor (d a : SReg) (b : Src) (s : State) : Out := s.int2 (fun x y => x ^^^ y) d a b
/-- ANDN: a AND NOT b (R219). -/
def execAndn (d a : SReg) (b : Src) (s : State) : Out := s.int2 (fun x y => x &&& ~~~y) d a b
/-- SHL (R219). -/
def execShl (d a : SReg) (b : Src) (s : State) : Out := s.int2 (fun x y => x <<< shAmt y) d a b
/-- SHR: filled with zeros (R219). -/
def execShr (d a : SReg) (b : Src) (s : State) : Out := s.int2 (fun x y => x >>> shAmt y) d a b
/-- SHA: filled with a[63] (R219). -/
def execSha (d a : SReg) (b : Src) (s : State) : Out := s.int2 (fun x y => x.sshiftRight (shAmt y)) d a b
/-- ROT: rotates right (R219). -/
def execRot (d a : SReg) (b : Src) (s : State) : Out := s.int2 (fun x y => x.rotateRight (shAmt y)) d a b
/-- MIN: the signed smaller (R219). -/
def execMin (d a : SReg) (b : Src) (s : State) : Out := s.int2 (fun x y => if x.slt y then x else y) d a b
/-- MINU: the unsigned smaller (R219). -/
def execMinu (d a : SReg) (b : Src) (s : State) : Out := s.int2 (fun x y => if x.ult y then x else y) d a b
/-- MAX: the signed larger (R219). -/
def execMax (d a : SReg) (b : Src) (s : State) : Out := s.int2 (fun x y => if x.slt y then y else x) d a b
/-- MAXU: the unsigned larger (R219). -/
def execMaxu (d a : SReg) (b : Src) (s : State) : Out := s.int2 (fun x y => if x.ult y then y else x) d a b

/-- The number of leading zero bits among the low `n` (R220). -/
def leadingZeros (a : Word) (n : Nat) : Nat :=
  match n with
  | 0 => 0
  | k + 1 => if a.getLsbD k then 0 else 1 + leadingZeros a k
/-- The number of trailing zero bits from bit `i` on, among `n` (R220). -/
def trailingZeros (a : Word) (i n : Nat) : Nat :=
  match n with
  | 0 => 0
  | k + 1 => if a.getLsbD i then 0 else 1 + trailingZeros a (i + 1) k
/-- The number of 1 bits among the low `n` (R220). -/
def popCount (a : Word) (n : Nat) : Nat :=
  match n with
  | 0 => 0
  | k + 1 => (if a.getLsbD k then 1 else 0) + popCount a k
/-- A word of `w` ones (R220). -/
def onesWord (w : Nat) : Word := BitVec.ofNat 64 (2 ^ w - 1)
/-- (a >> pos) AND (2^width − 1) (R220). -/
def fieldOf (a : Word) (pos width : Nat) : Word := (a >>> pos) &&& onesWord width
/-- `x` with bits [pos + width − 1 : pos] replaced by the low bits of `a` (R220). -/
def insertField (x a : Word) (pos width : Nat) : Word :=
  (x &&& ~~~(onesWord width <<< pos)) ||| ((a &&& onesWord width) <<< pos)
/-- a[n − 1 : 0] sign-extended from bit n − 1 (R220). -/
def sextFrom (a : Word) (n : Nat) : Word := (a <<< (64 - n)).sshiftRight (64 - n)

/-- CLZ (R220). -/
def execClz (d a : SReg) (s : State) : Out := .next (s.ws d (BitVec.ofNat 64 (leadingZeros (s.rs a) 64)))
/-- CTZ (R220). -/
def execCtz (d a : SReg) (s : State) : Out := .next (s.ws d (BitVec.ofNat 64 (trailingZeros (s.rs a) 0 64)))
/-- POPC (R220). -/
def execPopc (d a : SReg) (s : State) : Out := .next (s.ws d (BitVec.ofNat 64 (popCount (s.rs a) 64)))
/-- BFX (R220). -/
def execBfx (d a : SReg) (pos width : Nat) (s : State) : Out := .next (s.ws d (fieldOf (s.rs a) pos width))
/-- BFI (R220). -/
def execBfi (d a : SReg) (pos width : Nat) (s : State) : Out :=
  .next (s.ws d (insertField (s.rs d) (s.rs a) pos width))
/-- SEXT (R220). -/
def execSext (d a : SReg) (n : Nat) (s : State) : Out := .next (s.ws d (sextFrom (s.rs a) n))
/-- LI: the immediate sign-extended (R221). -/
def execLi (d : SReg) (v : BitVec 32) (s : State) : Out := .next (s.ws d (v.signExtend 64))
/-- LIH: the immediate to bits [63:32], the low half kept (R221). -/
def execLih (d : SReg) (v : BitVec 32) (s : State) : Out :=
  .next (s.ws d ((s.rs d &&& 0xFFFFFFFF#64) ||| (v.setWidth 64 <<< 32)))

end Sys2Proof.Machine
end

