-- ==== Sys2Proof/Machine/ScalarFloat.lean ====
section
/-! DEFINITION. Scalar floating point (R223 to R227). -/

namespace Sys2Proof.Machine

/-- The bits of a scalar float format. -/
def fBits (f : SFmt) : Nat :=
  match f with
  | .f32 => 32
  | .f64 => 64

/-- An operand of a scalar float form: FP32 reads bits [31:0] (R223). -/
def fRead (f : SFmt) (w : Word) : Num := f.ff.read (w.toNat % 2 ^ fBits f)
/-- A result word: an FP32 result leaves bits [63:32] 0 (R223). -/
def fWord (f : SFmt) (c : Nat) : Word := BitVec.ofNat 64 (c % 2 ^ fBits f)

/-- Writes a coded result to Sd and ORs its flags into XFLAGS (R223). -/
def State.wf (s : State) (f : SFmt) (d : SReg) (r : Coded) : Out := .next ((s.ws d (fWord f r.1)).flag r.2)

/-- FADD: round(a + b) (R224). -/
def execFadd (f : SFmt) (rm : Rm) (d a b : SReg) (s : State) : Out :=
  s.wf f d (f.ff.add rm (fRead f (s.rs a)) (fRead f (s.rs b)))
/-- FSUB: round(a − b) (R224). -/
def execFsub (f : SFmt) (rm : Rm) (d a b : SReg) (s : State) : Out :=
  s.wf f d (f.ff.sub rm (fRead f (s.rs a)) (fRead f (s.rs b)))
/-- FMUL: round(a × b) (R224). -/
def execFmul (f : SFmt) (rm : Rm) (d a b : SReg) (s : State) : Out :=
  s.wf f d (f.ff.mul rm (fRead f (s.rs a)) (fRead f (s.rs b)))
/-- FFMA: round(a × b + S[SD]), one rounding, operand order a, b, S[SD] (R224). -/
def execFfma (f : SFmt) (rm : Rm) (d a b : SReg) (s : State) : Out :=
  let x := fRead f (s.rs a)
  let y := fRead f (s.rs b)
  let z := fRead f (s.rs d)
  s.wf f d (f.ff.fma rm x y z [x, y, z])
/-- FMIN (R76, R224). -/
def execFmin (f : SFmt) (d a b : SReg) (s : State) : Out :=
  let r := numMin (fRead f (s.rs a)) (fRead f (s.rs b))
  s.wf f d ((f.ff.put .rne r.1).1, r.2)
/-- FMAX (R76, R224). -/
def execFmax (f : SFmt) (d a b : SReg) (s : State) : Out :=
  let r := numMax (fRead f (s.rs a)) (fRead f (s.rs b))
  s.wf f d ((f.ff.put .rne r.1).1, r.2)

/-- The condition of FCMP: EQ, LT, LE, GT and GE are false, NE and UN true, when an operand is NaN (R225). -/
def fcmpHolds (cc : FCond) (x y : Num) : Bool :=
  let un := x.isNan || y.isNan
  match cc with
  | .eq => numEq x y
  | .ne => !numEq x y
  | .lt => !un && numLt x y
  | .le => !un && !numLt y x
  | .gt => !un && numLt y x
  | .ge => !un && !numLt x y
  | .un => un

/-- FCMP: NV only for a signalling NaN (R225). -/
def execFcmp (cc : FCond) (f : SFmt) (d : PReg) (a b : SReg) (s : State) : Out :=
  let x := fRead f (s.rs a)
  let y := fRead f (s.rs b)
  .next ((s.wp d (fcmpHolds cc x y)).flag (sigFlags [x, y]))

/-- A conversion to a 64-bit integer: out of range gives the bound with OF and NX, ±∞ the bound with NV, NaN 0 with NV
(R226). -/
def toI64 (rm : Rm) (x : Num) : Coded := let c := convInt 64 rm .sat x; (c.code, c.flags)

/-- A conversion between float formats with IEEE default overflow; a NaN keeps sign and payload (R63, R226). -/
def fToF (f : SFmt) (rm : Rm) (x : Num) : Coded :=
  let c := f.ff.put rm x
  (c.1, c.2 ||| sigFlags [x])

/-- FCVT (R226). -/
def execFcvt (k : FcvtPair) (rm : Rm) (d a : SReg) (s : State) : Out :=
  let w := s.rs a
  match k with
  | .f64f32 => s.wf .f64 d (fToF .f64 rm (fRead .f32 w))
  | .f32f64 => s.wf .f32 d (fToF .f32 rm (fRead .f64 w))
  | .i64f32 => s.wf .f64 d (toI64 rm (fRead .f32 w))
  | .i64f64 => s.wf .f64 d (toI64 rm (fRead .f64 w))
  | .f32i64 => s.wf .f32 d (ff32.put rm (Num.ofInt w.toInt))
  | .f64i64 => s.wf .f64 d (ff64.put rm (Num.ofInt w.toInt))

/-- The class bit of a value (R227). -/
def classBit (f : FF) (x : Num) : Nat :=
  match x with
  | .nan _ _ g => if g then 8 else 9
  | .inf s => if s then 0 else 7
  | .fin s m e =>
    if m = 0 then (if s then 3 else 4)
    else if (Nat.log2 m : Int) + e < f.emin then (if s then 2 else 5)
    else (if s then 1 else 6)

/-- FCLASS: one bit set, no flag (R227). -/
def execFclass (f : SFmt) (d a : SReg) (s : State) : Out :=
  .next (s.ws d (BitVec.ofNat 64 (2 ^ classBit f.ff (fRead f (s.rs a)))))

end Sys2Proof.Machine
end

