-- ==== Sys2Proof/Machine/Dispatch.lean ====
section
/-! DEFINITION. The dispatch: one arm per instruction, each one direct call of its meaning. -/

namespace Sys2Proof.Machine

/-- What each instruction does. -/
def exec (i : Instr) (s : State) : Host.Outcome State Fault Refusal :=
  match i with
  | .nop => Sys2Proof.Machine.execNop s
  | .add d a b => Sys2Proof.Machine.execAdd d a b s
  | .sub d a b => Sys2Proof.Machine.execSub d a b s
  | .mul d a b => Sys2Proof.Machine.execMul d a b s
  | .mulh d a b => Sys2Proof.Machine.execMulh d a b s
  | .mulhu d a b => Sys2Proof.Machine.execMulhu d a b s
  | .div d a b => Sys2Proof.Machine.execDiv d a b s
  | .divu d a b => Sys2Proof.Machine.execDivu d a b s
  | .rem d a b => Sys2Proof.Machine.execRem d a b s
  | .remu d a b => Sys2Proof.Machine.execRemu d a b s
  | .and d a b => Sys2Proof.Machine.execAnd d a b s
  | .or d a b => Sys2Proof.Machine.execOr d a b s
  | .xor d a b => Sys2Proof.Machine.execXor d a b s
  | .andn d a b => Sys2Proof.Machine.execAndn d a b s
  | .shl d a b => Sys2Proof.Machine.execShl d a b s
  | .shr d a b => Sys2Proof.Machine.execShr d a b s
  | .sha d a b => Sys2Proof.Machine.execSha d a b s
  | .rot d a b => Sys2Proof.Machine.execRot d a b s
  | .min d a b => Sys2Proof.Machine.execMin d a b s
  | .minu d a b => Sys2Proof.Machine.execMinu d a b s
  | .max d a b => Sys2Proof.Machine.execMax d a b s
  | .maxu d a b => Sys2Proof.Machine.execMaxu d a b s
  | .clz d a => Sys2Proof.Machine.execClz d a s
  | .ctz d a => Sys2Proof.Machine.execCtz d a s
  | .popc d a => Sys2Proof.Machine.execPopc d a s
  | .bfx d a pos width => Sys2Proof.Machine.execBfx d a pos width s
  | .bfi d a pos width => Sys2Proof.Machine.execBfi d a pos width s
  | .sext d a n => Sys2Proof.Machine.execSext d a n s
  | .li d v => Sys2Proof.Machine.execLi d v s
  | .lih d v => Sys2Proof.Machine.execLih d v s
  | .cmp cc d a b => Sys2Proof.Machine.execCmp cc d a b s
  | .pand d a b => Sys2Proof.Machine.execPand d a b s
  | .por d a b => Sys2Proof.Machine.execPor d a b s
  | .pnot d a => Sys2Proof.Machine.execPnot d a s
  | .sel d p inv a b => Sys2Proof.Machine.execSel d p inv a b s
  | .fadd f rm d a b => Sys2Proof.Machine.execFadd f rm d a b s
  | .fsub f rm d a b => Sys2Proof.Machine.execFsub f rm d a b s
  | .fmul f rm d a b => Sys2Proof.Machine.execFmul f rm d a b s
  | .ffma f rm d a b => Sys2Proof.Machine.execFfma f rm d a b s
  | .fmin f d a b => Sys2Proof.Machine.execFmin f d a b s
  | .fmax f d a b => Sys2Proof.Machine.execFmax f d a b s
  | .fcmp cc f d a b => Sys2Proof.Machine.execFcmp cc f d a b s
  | .fcvt k rm d a => Sys2Proof.Machine.execFcvt k rm d a s
  | .fclass f d a => Sys2Proof.Machine.execFclass f d a s
  | .lea d a b => Sys2Proof.Machine.execLea d a b s
  | .sptest d a => Sys2Proof.Machine.execSptest d a s
  | .spcast d a w => Sys2Proof.Machine.execSpcast d a w s
  | .br p inv off => Sys2Proof.Machine.execBr p inv off s
  | .jmp off => Sys2Proof.Machine.execJmp off s
  | .call d off => Sys2Proof.Machine.execCall d off s
  | .jmpr d a => Sys2Proof.Machine.execJmpr d a s
  | .ret a => Sys2Proof.Machine.execRet a s
  | .loop src len => Sys2Proof.Machine.execLoop src len s
  | .brkl p inv => Sys2Proof.Machine.execBrkl p inv s
  | .halt => Sys2Proof.Machine.execHalt s
  | .trap v => Sys2Proof.Machine.execTrap v s
  | .tack => Sys2Proof.Machine.execTack s
  | .tret => Sys2Proof.Machine.execTret s
  | .csrr d c => Sys2Proof.Machine.execCsrr d c s
  | .csrw c a => Sys2Proof.Machine.execCsrw c a s
  | .waitm d a off b c => Sys2Proof.Machine.execWaitm d a off b c s
  | .waitmArm => Sys2Proof.Machine.execWaitmArm s
  | .waitmWakeWrite => Sys2Proof.Machine.execWaitmWakeWrite s
  | .waitmMonitorLost => Sys2Proof.Machine.execWaitmMonitorLost s
  | .waitmTimeout => Sys2Proof.Machine.execWaitmTimeout s
  | .waitmSpurious => Sys2Proof.Machine.execWaitmSpurious s
  | .barArv b => Sys2Proof.Machine.execBarArv b s
  | .barWt b => Sys2Proof.Machine.execBarWt b s
  | .barrierArrivalCounted b => Sys2Proof.Machine.execBarrierArrivalCounted b s
  | .partn a => Sys2Proof.Machine.execPartn a s
  | .bind n p => Sys2Proof.Machine.execBind n p s
  | .kset n j a => Sys2Proof.Machine.execKset n j a s
  | .ppld n a v => Sys2Proof.Machine.execPpld n a v s
  | .yield => Sys2Proof.Machine.execYield s
  | .ld z d b off o => Sys2Proof.Machine.execLd z d b off o s
  | .st z b off src o => Sys2Proof.Machine.execSt z b off src o s
  | .ldt f t ad cons o => Sys2Proof.Machine.execLdt f t ad cons o s
  | .stt f ad t o => Sys2Proof.Machine.execStt f ad t o s
  | .stp f sb sc t o => Sys2Proof.Machine.execStp f sb sc t o s
  | .aadd z d b off c o => Sys2Proof.Machine.execAadd z d b off c o s
  | .amin z d b off c o => Sys2Proof.Machine.execAmin z d b off c o s
  | .amax z d b off c o => Sys2Proof.Machine.execAmax z d b off c o s
  | .aminu z d b off c o => Sys2Proof.Machine.execAminu z d b off c o s
  | .amaxu z d b off c o => Sys2Proof.Machine.execAmaxu z d b off c o s
  | .aand z d b off c o => Sys2Proof.Machine.execAand z d b off c o s
  | .aor z d b off c o => Sys2Proof.Machine.execAor z d b off c o s
  | .axor z d b off c o => Sys2Proof.Machine.execAxor z d b off c o s
  | .aswp z d b off c o => Sys2Proof.Machine.execAswp z d b off c o s
  | .acas z d b off c e o => Sys2Proof.Machine.execAcas z d b off c e o s
  | .asubf z d b off c e pd o => Sys2Proof.Machine.execAsubf z d b off c e pd o s
  | .afadd f d b off c o => Sys2Proof.Machine.execAfadd f d b off c o s
  | .line st b off c => Sys2Proof.Machine.execLine st b off c s
  | .lineq d b off => Sys2Proof.Machine.execLineq d b off s
  | .pref b off o => Sys2Proof.Machine.execPref b off o s
  | .hld h b off o => Sys2Proof.Machine.execHld h b off o s
  | .hev h => Sys2Proof.Machine.execHev h s
  | .hget c h w => Sys2Proof.Machine.execHget c h w s
  | .seqld dbl d b off sh o => Sys2Proof.Machine.execSeqld dbl d b off sh o s
  | .pfxl d b off o => Sys2Proof.Machine.execPfxl d b off o s
  | .pfxi d b off o => Sys2Proof.Machine.execPfxi d b off o s
  | .pfxr d c o => Sys2Proof.Machine.execPfxr d c o s
  | .mma x => Sys2Proof.Machine.execMma x s
  | .mmas x => Sys2Proof.Machine.execMmas x s
  | .mmar x => Sys2Proof.Machine.execMmar x s
  | .mmat x => Sys2Proof.Machine.execMmat x s
  | .zclr x => Sys2Proof.Machine.execZclr x s
  | .zld x => Sys2Proof.Machine.execZld x s
  | .zst x => Sys2Proof.Machine.execZst x s
  | .zmov x => Sys2Proof.Machine.execZmov x s
  | .trans x => Sys2Proof.Machine.execTrans x s
  | .spbuild x => Sys2Proof.Machine.execSpbuild x s
  | .rowred x => Sys2Proof.Machine.execRowred x s
  | .colred x => Sys2Proof.Machine.execColred x s
  | .softrow x => Sys2Proof.Machine.execSoftrow x s
  | .merge x => Sys2Proof.Machine.execMerge x s
  | .topk x => Sys2Proof.Machine.execTopk x s
  | .window x => Sys2Proof.Machine.execWindow x s
  | .lup x => Sys2Proof.Machine.execLup x s
  | .chol x => Sys2Proof.Machine.execChol x s
  | .qrh x => Sys2Proof.Machine.execQrh x s
  | .trsm x => Sys2Proof.Machine.execTrsm x s
  | .trmm x => Sys2Proof.Machine.execTrmm x s
  | .copy c => Sys2Proof.Machine.execCopy c s
  | .gather c => Sys2Proof.Machine.execGather c s
  | .scatter c => Sys2Proof.Machine.execScatter c s
  | .stage o => Sys2Proof.Machine.execStage o s
  | .mbox c => Sys2Proof.Machine.execMbox c s
  | .areduce op c => Sys2Proof.Machine.execAreduce op c s
  | .bcast c => Sys2Proof.Machine.execBcast c s
  | .gld g inc => Sys2Proof.Machine.execGld g inc s
  | .gzero g => Sys2Proof.Machine.execGzero g s
  | .gldValueVisible g => Sys2Proof.Machine.execGldValueVisible g s
  | .xThreadStart => Sys2Proof.Machine.execXThreadStart s
  | .dccEmulatedThread => Sys2Proof.Machine.execDccEmulatedThread s
  | .engineThreadComplete id => Sys2Proof.Machine.execEngineThreadComplete id s
  | .copySectorLands id => Sys2Proof.Machine.execCopySectorLands id s
  | .collectiveInstanceReady sc k far => Sys2Proof.Machine.execCollectiveInstanceReady sc k far s
  | .loadReturn uid => Sys2Proof.Machine.execLoadReturn uid s
  | .storePerformed uid => Sys2Proof.Machine.execStorePerformed uid s
  | .gatedStoreRelease => Sys2Proof.Machine.execGatedStoreRelease s
  | .stallLimit => Sys2Proof.Machine.execStallLimit s
  | .replayQueueRoom => Sys2Proof.Machine.execReplayQueueRoom s
  | .replyResume die ticket => Sys2Proof.Machine.execReplyResume die ticket s
  | .replyDeliver die ticket => Sys2Proof.Machine.execReplyDeliver die ticket s
  | .replyKill die ticket => Sys2Proof.Machine.execReplyKill die ticket s
  | .launchRecordRead die stream => Sys2Proof.Machine.execLaunchRecordRead die stream s
  | .coreReserve l => Sys2Proof.Machine.execCoreReserve l s
  | .taskStart l slot => Sys2Proof.Machine.execTaskStart l slot s
  | .launchComplete l => Sys2Proof.Machine.execLaunchComplete l s
  | .launchPromote l => Sys2Proof.Machine.execLaunchPromote l s
  | .launchUrgent l => Sys2Proof.Machine.execLaunchUrgent l s
  | .sliceExpiry => Sys2Proof.Machine.execSliceExpiry s
  | .fullPreemptRequest steps => Sys2Proof.Machine.execFullPreemptRequest steps s
  | .fullSave => Sys2Proof.Machine.execFullSave s
  | .fullRestore l slot => Sys2Proof.Machine.execFullRestore l slot s
  | .lightPreempt => Sys2Proof.Machine.execLightPreempt s
  | .handlerLaunchStart m => Sys2Proof.Machine.execHandlerLaunchStart m s
  | .clusAccessArrive uid => Sys2Proof.Machine.execClusAccessArrive uid s
  | .dispatchRunWrite die v => Sys2Proof.Machine.execDispatchRunWrite die v s
  | .dispatchCsbWrite die stream v => Sys2Proof.Machine.execDispatchCsbWrite die stream v s
  | .mailboxRegister die => Sys2Proof.Machine.execMailboxRegister die s
  | .mailboxUnregister die => Sys2Proof.Machine.execMailboxUnregister die s
  | .tlbInvalidate => Sys2Proof.Machine.execTlbInvalidate s
  | .descriptorWrite v => Sys2Proof.Machine.execDescriptorWrite v s
  | .invalidateComplete => Sys2Proof.Machine.execInvalidateComplete s
  | .attestRequest => Sys2Proof.Machine.execAttestRequest s
  | .attestDone => Sys2Proof.Machine.execAttestDone s
  | .slotHold die v => Sys2Proof.Machine.execSlotHold die v s
  | .slotDrop die => Sys2Proof.Machine.execSlotDrop die s
  | .adoptLaunch die v => Sys2Proof.Machine.execAdoptLaunch die v s
  | .plimWrite v => Sys2Proof.Machine.execPlimWrite v s
  | .pkgNumberWrite v => Sys2Proof.Machine.execPkgNumberWrite v s
  | .journalClear => Sys2Proof.Machine.execJournalClear s
  | .registerWrite block off v => Sys2Proof.Machine.execRegisterWrite block off v s
  | .powerManagerTick pnow tmax => Sys2Proof.Machine.execPowerManagerTick pnow tmax s
  | .bootStart r => Sys2Proof.Machine.execBootStart r s
  | .cubeFlitReceive die link good => Sys2Proof.Machine.execCubeFlitReceive die link good s
  | .oxlinkRead port flit => Sys2Proof.Machine.execOxlinkRead port flit s
  | .oxlinkWrite port flit => Sys2Proof.Machine.execOxlinkWrite port flit s
  | .oxlinkCompletion port flit => Sys2Proof.Machine.execOxlinkCompletion port flit s
  | .oxlinkMailbox port flit => Sys2Proof.Machine.execOxlinkMailbox port flit s
  | .oxlinkReduce port flit => Sys2Proof.Machine.execOxlinkReduce port flit s
  | .oxlinkBroadcast port flit => Sys2Proof.Machine.execOxlinkBroadcast port flit s
  | .inboundWrite port rid va data => Sys2Proof.Machine.execInboundWrite port rid va data s
  | .inboundRead port rid va n => Sys2Proof.Machine.execInboundRead port rid va n s
  | .illegal slots => Sys2Proof.Machine.execIllegal slots s
  | .bundleFetchFault => Sys2Proof.Machine.execBundleFetchFault s
  | .mailboxCommandDone die => Sys2Proof.Machine.execMailboxCommandDone die s
  | .powerLoss step cut => Sys2Proof.Machine.execPowerLoss step cut s

end Sys2Proof.Machine
end

