-- ==== Sys2Proof/Machine/Silicon.lean ====
section
/-! DEFINITION. Errors of the silicon (R189, R195 to R198, R253, R288): what a corrected and an uncorrectable error do. When they
occur is an input from outside. -/

namespace Sys2Proof.Machine

/-! ## Counting and recording -/

/-- Counts an error in a unit of a die: UECNT or CECNT goes up, up to 0xFFFFFFFF (R198). (DESIGN CHOICE: log 60.) -/
def State.countErr (s : State) (die unit : Nat) (lost : Bool) : State :=
  let k := 77 * die + unit
  let w := (assoc s.errs k).getD 0
  let up (n : Nat) : Nat := min (n + 1) 0xFFFFFFFF
  let v := if lost then up (wbits w 63 32) * 2 ^ 32 + wbits w 31 0 else wbits w 63 32 * 2 ^ 32 + up (wbits w 31 0)
  { s with errs := bindTo s.errs k (BitVec.ofNat 64 v) }

/-- The hardware-error record of the core in focus: on the lane of its context, or on the dispatcher's without a task (R198). -/
def State.coreRecord (s : State) (cause : Cause) : State :=
  let c := s.core
  if c.task.isNone then s.dieRecord cause (dieOf c.id) (c.id % 32) 0
  else s.sendFatal c (s.coreRec c 0x02 cause 0 0 c.ckpt.pc 0 0 (BitVec.ofNat 64 (c.id % 32)) 0)

/-- An uncorrectable error in the core in focus: it is counted, and a record of MEM_UE is sent (R197). -/
def State.coreLost (s : State) : State := (s.countErr (dieOf s.core.id) (s.core.id % 32) true).coreRecord Cause.memUe

/-! ## Poison -/

/-- A sector of memory is poisoned. -/
def State.spoil (s : State) (pa : Nat) : State := { s with poison := addOnce s.poison (pa / 32) }

/-- An uncorrectable error in a sector of memory: it is counted, recorded in the dispatcher's queue, and the sector is
poisoned (R197, R198). (DESIGN CHOICE: log 60.) -/
def State.strikeMemory (s : State) (unit pa : Nat) : State :=
  match s.region pa with
  | .dram d _ => ((s.countErr d unit true).dieRecord Cause.memUe d unit pa).spoil pa
  | _ => s

/-- A sector of memory fails its check value at a boundary that a unit of a die guards (R196). -/
def State.strikeCheck (s : State) (die unit pa : Nat) : State :=
  match s.region pa with
  | .dram _ _ => (s.dieRecord Cause.checkFail die unit pa).spoil pa
  | _ => s

/-- A sector of a core's pool is poisoned: its scratchpad line, or the sector of a T or Z register, which its use reports (R197). -/
def Core.spoilPool (c : Core) (off : Nat) : Core :=
  if c.task.isSome && decide (c.scratchBase ≤ off) then c.strikeLine (off - c.scratchBase)
  else { c with badPool := addOnce c.badPool (off / 32) }

/-- The bytes of a core's pool (R28). -/
def poolBytes : Nat := 48 * Config.granule

/-! ## Stores in the gate (R102, R177, R189, R196) -/

/-- What stands at the gate: committed stores held back there, then the entries of the interval. -/
def Core.atGate (c : Core) : List GateEnt := c.held.map GateEnt.store ++ c.gate

/-- The address of a sector of the gate: the store's, or that of its second sector. -/
def GateEnt.sectorAt (e : GateEnt) (second : Bool) : Option Word :=
  match e with
  | .store p =>
    let a := BitVec.ofNat 64 (p.va.toNat / 32 * 32 + (if second then 32 else 0))
    if second && e.sectors < 2 then none else some a
  | _ => none

/-- The sector of a store that is poisoned: its number in memory, or in the scratchpad that the store goes to. -/
def PStore.sectorNo (p : PStore) (second : Bool) : Option Nat :=
  match (p.clus.map Prod.snd).or p.scratch with
  | some off => some (off / 32 + (if second then 1 else 0))
  | none => (p.parts[if second then 1 else 0]?).map (fun x => x.pa / 32)

/-- Entry `n` at the gate moves a poisoned sector on (R197). -/
def Core.spoilGate (c : Core) (n : Nat) (second : Bool) : Core :=
  let f (p : PStore) : PStore := { p with bad := (p.sectorNo second).toList ++ p.bad }
  { c with held := c.held.mapIdx (fun i p => if i = n then f p else p),
           gate := c.gate.mapIdx (fun i e => match e with
             | .store p => if i + c.held.length = n then .store (f p) else e
             | _ => e) }

/-! ## Commits that are lost (R189, R253, R288) -/

/-- The SCRATCH address of an offset in the own scratchpad. -/
def State.padAddr (s : State) (off : Nat) : Word := ptrOf 0xF8 (s.logical s.core.id) off

/-- What the core in focus was committing is lost: TADDR names the sector, AUX the other half (R189). -/
def State.commitLost (s : State) (pc taddr aux : Word) : State := s.coreLost.fatal Cause.commitLost 0 0 pc taddr 0 aux

/-- The offsets of the sectors of a tile in a pair, ascending (R253). -/
def tileSectors (f : Fmt) (p : PairV) : List Nat :=
  (sortUp (((List.range (tileRows f)).flatMap (fun i => p.rowRuns f 256 i)).flatMap (fun r =>
    (List.range ((r.1 + r.2 - 1) / 32 + 1 - r.1 / 32)).map (fun k => r.1 / 32 + k)))).map (fun k => 32 * k)

/-- The STP that the core in focus issues next, where nothing holds its bundle: the format and its two pairs. -/
def State.stpNext (s : State) : Option (Fmt × PairV × PairV) :=
  if s.core.status != .running then none
  else match s.bundleHere with
    | none => none
    | some b =>
      let t := s.ready b
      match b.m, t.plan b with
      | some (.stp f sb sc _ _), .go => some (f, pairOf (t.pair sb), pairOf (t.pair sc))
      | _, _ => none

/-- An STP's commit is lost at the `n`-th sector of a half: AUX names the other half by the address of its first byte (R189, R253). -/
def State.stpLost (s : State) (second : Bool) (n : Nat) : State :=
  match s.stpNext with
  | none => s
  | some (f, p, q) =>
    let (one, other) := if second then (q, p) else (p, q)
    match (tileSectors f one)[n]? with
    | some off => s.commitLost s.core.arch.pc (s.padAddr off) (s.padAddr other.base)
    | none => s

/-- An SPBUILD thread's commit is lost at the sector that it writes next: AUX names array 0 by the address of its first byte
(R189, R288). -/
def State.buildLost (s : State) : State :=
  match s.core.threads.find? (fun t => (match t.ins with | .spbuild _ => true | _ => false) && t.phase == .running && t.jobs != []) with
  | none => s
  | some t => match t.jobs with
    | ⟨.scratch off, _, _, _⟩ :: _ => s.commitLost t.pc (s.padAddr off) (s.padAddr (pairOf t.od).base)
    | _ => s

/-- An error of the silicon on the core in focus. (DESIGN CHOICE: log 60.) -/
def State.strike (s : State) (k : Strike) : State :=
  let lost (f : Core → Core) : State := s.coreLost.onC f
  let fails (f : Core → Core) : State := (s.coreRecord Cause.checkFail).onC f
  let side (off : Nat) (c : Core) : Core := { c with badSide := addOnce c.badSide (off / 32) }
  let latch (b : Bool) (c : Core) : Core := if b then { c with badLatB := true } else { c with badLatA := true }
  let l1 (line : Nat) (c : Core) : Core := if (assoc c.l1 line).isSome then { c with badL1 := addOnce c.badL1 line } else c
  let at' (n : Nat) (second : Bool) : Option Word := (s.core.atGate[n]?).bind (fun e => e.sectorAt second)
  match k with
  | .corrected d u => s.countErr d.val u.val false
  | .memory u pa => s.strikeMemory u.val pa
  | .check d u pa => s.strikeCheck d.val u.val pa
  | .pool off => if off < poolBytes then lost (fun c => c.spoilPool off) else s
  | .poolCheck off => if off < poolBytes then fails (fun c => c.spoilPool off) else s
  | .side off => lost (side off)
  | .sideCheck off => fails (side off)
  | .latch b => lost (latch b)
  | .latchCheck b => fails (latch b)
  | .l1 line => lost (l1 line)
  | .l1Check line => fails (l1 line)
  | .gate n second => (match at' n second with | some a => s.commitLost s.core.ckpt.pc a 0 | none => s)
  | .gateCheck n second => if (at' n second).isSome then fails (fun c => c.spoilGate n second) else s
  | .stpWrite second n => s.stpLost second n
  | .buildWrite => s.buildLost
  | .save =>
    if s.core.status == .saving then s.coreLost.fatal Cause.saveLost 0 0 s.core.ckpt.pc 0 0 0
    else s

end Sys2Proof.Machine
end

