-- ==== Sys2Proof/Machine/Run.lean ====
section
/-! DEFINITION. What a step of the package does around an instruction: the passing of a clk, the agenda, and the order in
which the package goes on by itself while the agenda is empty. -/

namespace Sys2Proof.Machine

/-- One clk passes: device time advances, launches and queued messages that wait count it, free values are taken anew, and what came
back from another package for an access that is gone is dropped (R10, R43, R147).
(DESIGN CHOICE: log 2; DESIGN CHOICE: log 7.) -/
def State.tick (s : State) : State :=
  { s with dtime := s.dtime + 1, fresh := s.fresh + 1, core := s.clk s.core, others := s.others.map s.clk,
           launches := s.launches.map Launch.wait, mboxes := s.mboxes.map s.waitMail,
           ox := { s.ox with got := s.ox.got.filter s.farAlive } }

/-- Released entries of copy schedules are forked as soon as their owners can take them (R142). (DEDUCED: log 33.) -/
def State.forkAll (s : State) : State :=
  ((s.launches.filter Launch.entriesDue).map Launch.id).foldl State.forkDue s

/-! ## The default order -/

/-- A start in which nothing fails. -/
def goodBoot : BootReport := ⟨[]⟩

/-- The core in focus issues its next bundle in this step, or traps. (DESIGN CHOICE: log 10.) -/
def State.canIssue (s : State) : Bool :=
  s.core.status == .running && !s.core.stopsHere && s.farFetch == [] &&
  (match s.bundleHere with
   | none => true
   | some b =>
     let t := s.ready b
     t.core.watching.isNone && (match t.plan b with
       | .go | .skip | .trap _ => true
       | .lines _ => t.core.atLimit
       | .wait | .far _ => false))

/-- The events of core `c` that may be due. -/
def Core.dueActs (c : Core) (s : State) : List Act :=
  let loads : List Instr := c.loads.map (fun (l : PLoad) => .loadReturn l.uid)
  let stores : List Instr := c.stores.flatMap (fun (p : PStore) => [.storePerformed p.uid, .clusAccessArrive p.uid])
  let threads : List Instr := c.threads.flatMap (fun (t : Thread) => [.copySectorLands t.id, .engineThreadComplete t.id])
  let colls : List Instr := s.colls.map (fun (k : Coll) => .collectiveInstanceReady k.scope k.k [])
  let arrivals : List Instr := c.arrivals.map (fun (a : Nat × Nat) => .barrierArrivalCounted (Fin.ofNat 16 a.1))
  let rest : List Instr := [.gatedStoreRelease, .xThreadStart, .dccEmulatedThread, .waitmArm, .waitmWakeWrite, .waitmTimeout,
    .fullPreemptRequest 1, .fullSave, .lightPreempt, .sliceExpiry]
  (loads ++ stores ++ threads ++ colls ++ arrivals ++ rest).map (fun i => ⟨c.id, .event i⟩)

/-- The events of a launch that may be due. -/
def Launch.dueActs (l : Launch) (core : Nat) : List Act :=
  let slots : List Instr := (List.range l.slots.length).flatMap (fun (i : Nat) => [.taskStart l.id i, .fullRestore l.id i])
  let is : List Instr := [.launchComplete l.id, .coreReserve l.id] ++ slots ++ [.launchPromote l.id, .launchUrgent l.id]
  is.map (fun i => ⟨core, .event i⟩)

/-- Every event that the package may go on with by itself, in the order in which it is tried. (DESIGN CHOICE: log 10.) -/
def State.dueActs (s : State) : List Act :=
  let reads : List Instr := (List.finRange 8).flatMap (fun d => (List.finRange 8).map (fun k => .launchRecordRead d k))
  let mail : List Instr := s.mboxes.map (fun (m : Mailbox) => .handlerLaunchStart m.pa)
  let done : List Instr := (List.finRange 8).map (fun d => .mailboxCommandDone d)
  s.cores.flatMap (fun c => c.dueActs s) ++ s.launches.flatMap (fun l => l.dueActs s.core.id) ++
  (reads ++ mail ++ done ++ [Instr.invalidateComplete, Instr.attestDone]).map (fun i => ⟨s.core.id, .event i⟩)

/-- A step that a package held in reset can still take: a start, or a loss of power (R371). (DESIGN CHOICE: log 6.) -/
def startsPower (i : Instr) : Bool := match i with | .bootStart _ | .powerLoss .. => true | _ => false

/-- An entry of the agenda is performed: an event, a core's next bundle, an error of the silicon, what the application cores do, or a
core's reading ahead. A slot instruction is no event. Held in reset, the package does nothing (R371). -/
def State.perform (run : Instr → State → Out) (a : Act) (s : State) : Out :=
  match a.what with
  | .event i => if i.slot != .event then .fault .agendaSlot
      else if s.inReset && !startsPower i then .next s
      else run i (s.focus a.core)
  | .bundle => if s.inReset then .next s else (s.focus a.core).issue run
  | .strike k => if s.inReset then .next s else .next ((s.focus a.core).strike k)
  | .appWrite pa data => if s.inReset then .next s else .next (s.appWrite pa data)
  | .appRead pa n => if s.inReset then .next s else .next (s.appRead pa n)
  | .taken q cons => if s.inReset then .next s else .next (s.takeQueue q cons)
  | .readAhead pa => if s.inReset then .next s else .next ((s.focus a.core).lookAhead pa)
  | .again _ => .next s

/-- An entry of the agenda is taken up: a read that has waited for another package is served again under its number (R368).
(DESIGN CHOICE: log 1; DESIGN CHOICE: log 6; DESIGN CHOICE: log 14.) -/
def State.act (run : Instr → State → Out) (a : Act) (s : State) : Out :=
  match a.what with
  | .again u => (match s.ox.waits.find? (fun w => w.uid == u) with
    | none => .next s
    | some w =>
      (match State.perform run w.act
          { s with ox := { s.ox with waits := s.ox.waits.filter (fun x => x.uid ≠ u), again := some u } } with
       | .next t => .next { t with ox := { t.ox with again := none } }
       | o => o))
  | _ => s.perform run a

/-- An event leaves the state other than it was. -/
def State.changes (run : Instr → State → Out) (a : Act) (s : State) : Bool :=
  match s.act run a with
  | .next t => t != s.focus a.core
  | _ => true

/-- The package goes on by itself: it boots; a core that can issue does; else the first event that is due happens; else a
waiting core waits one clk more. (DESIGN CHOICE: log 6; DESIGN CHOICE: log 10.) -/
def State.auto (run : Instr → State → Out) (s : State) : Out :=
  if !s.booted then run (.bootStart goodBoot) s
  else if s.inReset then .next s
  else if s.canIssue then s.issue run
  else match s.others.find? (fun c => (s.focus c.id).canIssue) with
    | some c => (s.focus c.id).issue run
    | none =>
      match s.dueActs.find? (fun a => s.changes run a) with
      | some a => s.act run a
      | none => match s.cores.find? (fun c => c.status == .running) with
        | some c => (s.focus c.id).issue run
        | none => .next s

/-- A step: one clk passes, and the first entry of the agenda is performed, or with none the package goes on by itself.
(DESIGN CHOICE: log 1.) -/
def State.stepWith (run : Instr → State → Out) (s : State) : Out :=
  let s := s.tick.forkAll
  match s.agenda with
  | [] => s.auto run
  | a :: r => ({ s with agenda := r } : State).act run a

/-! ## A bundle placed where the core in focus fetches -/

/-- Tables at physical address `b` that map the 64 KiB page at GLOBAL address 0 to `b` + 0x10000, readable, writable and executable
(R162). (DESIGN CHOICE: log 8.) -/
def demoTables (b : Nat) : List (Nat × Nat) :=
  [(b + 0x1000, b + 0x2001), (b + 0x2000, b + 0x3001), (b + 0x3000, b + 0x4001), (b + 0x4000, b + 0x5001),
   (b + 0x5000, b + 0x10003 + 7 * 2 ^ 53)]

/-- The launch of a task placed from outside: one task under ASID 1. (DESIGN CHOICE: log 8.) -/
def demoLaunch (id die core : Nat) : Launch :=
  { id := id, die := die, stream := none, lseq := 0, addr := 0,
    lr := { asid := 1, barm := 0, count := 1, serial := false, mapped := false, midp := false, troy := false, prio := 0, cls := 0,
            entry := 0, stride := 1, base := core, npl := 1, map := 0, partw := 0, deadline := 0, cost := 0, param := 0, done := 0,
            succ := 0, save := 0, sched := 0, mbar := 0, mbarn := 0, sliceq := 0, next := 0, etab := 0, bad := false },
    cores := [core], etab := [], sched := [], thr := [], age := 0, eff := 0, waited := 0, urgent := false, slots := [.running 0],
    stage := 0, status := .running, handler := none, adopted := false, dropped := false, holds := [], kept := [] }

/-- A booted package whose core in focus runs a task with the bundle `w` at its PC. (DESIGN CHOICE: log 8.) -/
def State.placeBundle (s : State) (w : Nat) : State :=
  let die := dieIx (dieOf s.core.id)
  let b := die.val * Config.dieBytes
  let m := (demoTables b).foldl (fun (m : Mem) e => m.put e.1 (leBytes 8 e.2)) s.mem
  let line := wbits s.core.arch.gptr 31 0 / 128
  { s with
    mem := m.put (b + 0x10000) (natLE 32 w), booted := true, inReset := false, agenda := [],
    dies := s.dies.set die.val { s.dies[die.val] with dieok := true }, descs := bindTo s.descs 1 ⟨b / 4096 + 1, 0, 16⟩, tlb := [],
    poison := s.poison.filter (fun k => !((b + 0x10000) :: (demoTables b).map Prod.fst).any (fun a => a / 32 == k)),
    launches := demoLaunch s.uid (dieOf s.core.id) (s.logical s.core.id) :: s.launches, uid := s.uid + 1,
    core := { s.core with
      arch := { s.core.arch with pc := 0 }, ckpt := { s.core.arch with pc := 0 }, atRp := true, preempt := false, monitor := none,
      task := some ⟨s.uid, 0, 0⟩, lastCtx := some s.uid, status := .running,
      lines := bindTo s.core.lines line .full } }

end Sys2Proof.Machine
end

