-- ==== Sys2Proof/Machine/Step.lean ====
section
/-! DEFINITION. The step of the package. -/

namespace Sys2Proof.Machine

/-- One step. -/
def step (s : State) : Host.Outcome State Fault Refusal := s.stepWith exec

/-- The state with an instruction of the opcode table placed where its core in focus fetches next. (DESIGN CHOICE: log 8.) -/
def State.withFetchWord (s : State) (nbits w : Nat) : State := s.placeBundle ((tableBundle nbits w).getD w)

end Sys2Proof.Machine
end

