-- ==== Sys2Proof/Safety.lean ====
section
/-! DEFINITION. What claims about the machine are stated in: canonical storage, what a register write leaves alone, and what an
instruction answers. -/

namespace Sys2Proof.Machine

/-- The value of a finite number; an infinity and a NaN have none, and count as 0. -/
def Num.val (x : Num) : ℚ :=
  match x with
  | .fin g m e => (if g then -1 else 1) * (m : ℚ) * (2 : ℚ) ^ e
  | _ => 0

/-- The number is neither a NaN nor an infinity. -/
def Num.IsFinite (x : Num) : Prop := x.isNan = false ∧ x.isInf = false

/-- Main memory is in canonical form. -/
def State.MemOk (s : State) : Prop := s.mem.wf = true

/-- A core's pool and side array are in canonical form. -/
def Core.PoolOk (c : Core) : Prop := c.pool.wf = true ∧ c.side.wf = true

/-- `t` is `s` but for S register `d` of the core in focus, which holds `v`; S0 reads 0 whatever is written to it. -/
def State.WroteS (s t : State) (d : SReg) (v : Word) : Prop :=
  t.core.arch.rs d = (if d = 0 then 0 else v) ∧ (∀ r, r ≠ d → t.core.arch.rs r = s.core.arch.rs r) ∧
  t = { s with core := { s.core with arch := { s.core.arch with s := t.core.arch.s } } }

/-- `t` is `s` but for P register `d` of the core in focus, which holds `v`; P0 reads true whatever is written to it. -/
def State.WroteP (s t : State) (d : PReg) (v : Bool) : Prop :=
  t.core.arch.rp d = (if d = 0 then true else v) ∧ (∀ r, r ≠ d → t.core.arch.rp r = s.core.arch.rp r) ∧
  t = { s with core := { s.core with arch := { s.core.arch with p := t.core.arch.p } } }

/-- `t` is `s` but for S register `d`, which holds `v`, and the flags `fl` ORed into XFLAGS. -/
def State.WroteSF (s t : State) (d : SReg) (v : Word) (fl : Flags) : Prop :=
  t.core.arch.rs d = (if d = 0 then 0 else v) ∧ (∀ r, r ≠ d → t.core.arch.rs r = s.core.arch.rs r) ∧
  t = { s with core := { s.core with arch := { s.core.arch with s := t.core.arch.s, xflags := s.core.arch.xflags ||| fl } } }

/-- The instruction completes, and only S register `d` changes, to `v`. -/
def State.GivesS (s : State) (i : Instr) (d : SReg) (v : Word) : Prop := ∃ t, exec i s = .next t ∧ s.WroteS t d v

/-- The instruction completes, and only P register `d` changes, to `v`. -/
def State.GivesP (s : State) (i : Instr) (d : PReg) (v : Bool) : Prop := ∃ t, exec i s = .next t ∧ s.WroteP t d v

/-- The instruction completes; only S register `d` changes, to `v`, and XFLAGS takes `fl` by OR. -/
def State.GivesSF (s : State) (i : Instr) (d : SReg) (v : Word) (fl : Flags) : Prop :=
  ∃ t, exec i s = .next t ∧ s.WroteSF t d v fl

/-- The instruction completes, and `f` says what becomes of the core in focus; nothing outside that core changes. -/
def State.GivesCore (s : State) (i : Instr) (f : Core → Core) : Prop := exec i s = .next { s with core := f s.core }

/-- `t` is `s` with one load or atomic of memory more in flight, in the parts `ps`: `n` bytes at `va`, with what its value does
and its ordering fields. Its stream's counter and sequence number rise, and `touch` says whether the pool counts as used. -/
def State.SentLoad (s t : State) (ps : List Part) (n : Nat) (dest : LoadDest) (o : OrdF) (va : Word) (touch : Bool) : Prop :=
  ∃ l : PLoad, l.uid = s.uid ∧ l.dest = dest ∧ l.ord = o ∧ l.width = n ∧ l.va = va ∧ l.got = [] ∧ l.committed = false ∧
    l.dropped = false ∧ l.parts = ps ∧
    t = { s with
      uid := s.uid + 1, tlb := t.tlb,
      core := { s.core with
        loads := s.core.loads ++ [l],
        cnt := s.core.cnt.set o.stream.val (s.core.cnt[o.stream.val] + (Route.mem ps).count),
        arch := { s.core.arch.seqUp o.stream (Route.mem ps).count with touched := s.core.arch.touched || touch } } }

/-- No line of the own scratchpad that `n` bytes at offset `a` touch is POISONED, none of the bytes is poisoned, and no store of its own
still to be performed brings poisoned data there. -/
def Core.PadClean (c : Core) (a n : Nat) : Prop :=
  (∀ l, a / 128 ≤ l → l ≤ (a + n - 1) / 128 → c.lineView l ≠ .pois) ∧ c.padSpoilt a n = false

/-- No line of the scratchpad of the peer at position `pos` that `n` bytes at offset `a` touch is POISONED, and none of the bytes is
poisoned. -/
def State.PeerClean (s : State) (pos a n : Nat) : Prop :=
  (∀ l, a / 128 ≤ l → l ≤ (a + n - 1) / 128 → (s.coreAt (s.core.peer pos)).line l ≠ .pois) ∧
  (s.coreAt (s.core.peer pos)).runsBad [((s.coreAt (s.core.peer pos)).scratchBase + a, n)] = false

/-- The `n` bytes at offset `a` of the peer at position `pos`, as the core in focus reads them. -/
def State.peerRead (s : State) (pos a n : Nat) : List Byte := s.core.peerBytes (s.coreAt (s.core.peer pos)) pos a n

/-- The core `k` is `c` after an atomic has taken the old value `old` to `d`, and its outcome to `p` where it names one; the
shadow takes the value too, and no other register changes but XFLAGS. -/
def Core.TookAtomic (c k : Core) (d : SReg) (p : Option PReg) (old : Nat) (ok : Bool) : Prop :=
  k.arch.rs d = (if d = 0 then 0 else BitVec.ofNat 64 old) ∧ k.ckpt.rs d = k.arch.rs d ∧
  (∀ r, r ≠ d → k.arch.rs r = c.arch.rs r ∧ k.ckpt.rs r = c.ckpt.rs r) ∧
  (∀ q, p ≠ some q → k.arch.rp q = c.arch.rp q) ∧ (∀ q, p = some q → q ≠ 0 → k.arch.rp q = ok) ∧ k.arch.pc = c.arch.pc

/-- The scratchpad offset of byte `b` of row `i` of an operand of format `f` at a pair, rotation included (R35, R67, R68). -/
def padPlace (p : PairV) (f : Fmt) (i b : Nat) : Nat :=
  let o := if p.lay = 0 then p.base + i * p.rpitch + b
    else p.base + (if p.lay = 2 then zIndex (b / f.size) i else zIndex i (b / f.size)) * f.size + b % f.size
  o / 8192 * 8192 + (o / 128 % 64 + i * p.rot) % 64 * 128 + o % 128

/-- Bytes of a tile row of `f`, and the distance of tile rows in a T register (R251). -/
def tileRowLen (f : Fmt) : Nat := if f.isBfp then 32 * f.bw else 256 * f.size
def tileRowStep (f : Fmt) : Nat := if f.isBfp then 256 else 256 * f.size

/-- A store of `bytes` at `va` on route `r`, numbered as the state's next access. -/
def State.IsStore (s : State) (p : PStore) (r : Route) (bytes : List Byte) (o : OrdF) (va : Word) : Prop :=
  p.uid = s.uid ∧ p.ord = o ∧ p.bytes = bytes ∧ p.va = va ∧ p.bad = [] ∧ (∀ ps, r = .mem ps → p.parts = ps ∧ p.clus = none ∧ p.scratch = none) ∧
  (∀ off, r = .scratch off → p.parts = [] ∧ p.clus = none ∧ p.scratch = some off) ∧
  (∀ q off, r = .clus q off → p.parts = [] ∧ p.clus = some (q, off) ∧ p.scratch = none)

/-- `t` is `s` with the engine thread `th` forked for `i`: queued, numbered, on its stream, with a record of its own; the
core's latches and its count of collectives are left to the statement. -/
def State.Forked (s t : State) (i : Instr) (o : OrdF) (th : Thread) : Prop :=
  th.id = s.uid ∧ th.ins = i ∧ th.ord = o ∧ th.phase = .queued ∧ th.jobs = [] ∧ th.res = none ∧ th.ford = s.core.forks ∧
  th.pc = s.core.src.pc ∧ th.g = s.core.src.g ∧
  (∃ r : EngRec, r.stream = o.stream ∧ r.flt = none ∧ r.retired = false ∧ r.ford = s.core.forks ∧
    t.core.recs = bindTo s.core.recs th.recIx r) ∧
  ((∃ k < 64, assoc s.core.recs k = none) → assoc s.core.recs th.recIx = none) ∧
  t = { s with
    uid := s.uid + 1,
    core := { s.core with
      threads := s.core.threads ++ [th], forks := s.core.forks + 1, recs := t.core.recs, colln := t.core.colln,
      cnt := s.core.cnt.set o.stream.val (s.core.cnt[o.stream.val] + 1),
      arch := { s.core.arch.seqUp o.stream 1 with touched := true, latchA := t.core.arch.latchA, latchB := t.core.arch.latchB } } }

/-- Every byte of main memory outside `[a, a + n)` reads as before. -/
def State.MemSameBut (s t : State) (a n : Nat) : Prop := ∀ k, (k < a ∨ a + n ≤ k) → t.mem.get k = s.mem.get k

/-! ## What the rules of the matrix slot say -/

/-- `rows` are `m` rows of `n` words, word (i, j) being `f i j`. -/
def IsGrid (rows : List (List Nat)) (m n : Nat) (f : Nat → Nat → Nat) : Prop :=
  rows.length = m ∧ ∀ i < m, (rows.getD i []).length = n ∧ ∀ j < n, tileAt rows i j = f i j

/-- The results `o` write the rows at the destination: a register's runs and then `extra` into the pool, a pair's runs into the
scratchpad (R277). -/
def XOut.Writes (o : XOut) (c : Core) (d : XOpd) (w : Word × Word) (f : Fmt) (row col : Nat) (rows : List (List Nat))
    (extra : List (Nat × List Byte)) : Prop :=
  let runs := c.writeRuns (xPlace d w row col) f rows
  match d with
  | .pair _ _ => o.scr = runs.map (fun r => (r.1 - c.scratchBase, r.2)) ∧ o.pool = extra
  | _ => o.scr = [] ∧ o.pool = runs ++ extra

/-- Where the words of registers lie (R192, R251, R277): row `i` of a T run at tile row `i`, of a Z window at row `row + i` and
column `col`; a row written there is its words little-endian, and the words read are those. -/
def PlacesWords : Prop :=
  ∀ (c : Core) (f : Fmt) (rows : List (List Nat)) (n z row col k m : Nat), f.isBfp = false → c.pool.wf = true →
    let size := (c.kindOf z).size
    let tAt (i j : Nat) : Nat := 16384 * (n + i / tileRows f) + tileRowStep f * (i % tileRows f) + f.size * j
    let zAt (i j : Nat) : Nat := 0x40000 * (c.partw.tg + z) + size * ((if c.kindOf z = .fp64 then 128 else 256) * (row + i) + col + j)
    c.writeRuns (.t n) f rows = rows.mapIdx (fun i vs => (tAt i 0, vs.flatMap (leBytes f.size))) ∧
    c.writeRuns (.z z row col) f rows = rows.mapIdx (fun i vs => (zAt i 0, vs.flatMap (leBytes size))) ∧
    IsGrid (c.readPlace (.t n) f m k) m k (fun i j => leVal (c.pool.bytes (tAt i j) f.size)) ∧
    IsGrid (c.readPlace (.z z row col) f m k) m k (fun i j => leVal (c.pool.bytes (zAt i j) size))

/-- An exact group sum (R73, R74, R77): of finite products their sum, −0 only where every term is −0, with no flag; infinities
of one sign give that infinity, of both the canonical NaN with NV; the first NaN operand after finite terms comes back quiet. -/
def SumsExactly : Prop :=
  ∀ (ts : List (Option (Num × Num))),
    let terms := ts.filterMap id
    let fine (p : Num × Num) : Prop := p.1.IsFinite ∧ p.2.IsFinite
    let infs (g : Bool) (p : Num × Num) : Prop := p.1.isNan = false ∧ p.2.isNan = false ∧ (p.1.isInf = true ∨ p.2.isInf = true) ∧
      p.1.isZero = false ∧ p.2.isZero = false ∧ xor p.1.sign p.2.sign = g
    ((∀ p ∈ terms, fine p) → (groupSum ts).flags = 0 ∧ (groupSum ts).value.IsFinite ∧
      (groupSum ts).value.val = (terms.map (fun p => p.1.val * p.2.val)).sum ∧
      ((groupSum ts).value.val = 0 → ((groupSum ts).value.sign = true ↔
        terms ≠ [] ∧ ∀ p ∈ terms, p.1.val * p.2.val = 0 ∧ xor p.1.sign p.2.sign = true))) ∧
    (∀ g, (∀ p ∈ terms, fine p ∨ infs g p) → (∃ p ∈ terms, infs g p) → (groupSum ts).value = .inf g ∧ (groupSum ts).flags = 0) ∧
    ((∀ p ∈ terms, fine p ∨ infs true p ∨ infs false p) → (∃ p ∈ terms, infs true p) → (∃ p ∈ terms, infs false p) →
      (groupSum ts).value = .nan false 0 false ∧ (groupSum ts).flags = fNV) ∧
    (∀ a x y b, ts = a ++ some (x, y) :: b → (∀ p ∈ a.filterMap id, fine p) →
      (x.isNan = true → (groupSum ts).value = x.quiet) ∧ (x.isNan = false → y.isNan = true → (groupSum ts).value = y.quiet))

/-- What accumulating one more group does to an element, by class (R71, R72): NARROW rounds the exact group sum to FP32 and then
its addition, WIDE and BLOCK the addition alone, INT adds modulo 2^32 with IOV where the exact sum leaves INT32, and CHAIN
takes one fused step in FP64 per term. -/
def AccumulatesByClass : Prop :=
  ∀ (k : AccClass) (z : Nat) (ts g : List (Option (Num × Num))),
    let n := match k with | .chain => 1 | .wide => 4 | _ => 32
    let old := accumulate k z ts
    let s := groupSum g
    let r := ff32.put .rne s.value
    let one := ff32.add .rne (ff32.read old.1) s.value
    let two := ff32.add .rne (ff32.read old.1) (ff32.read r.1)
    let v := signedOf 32 old.1 + (g.map (fun t => match t with | some (x, y) => x.toInt * y.toInt | none => 0)).sum
    accumulate k z [] = (z, 0) ∧
    (ts.length % n = 0 → 1 ≤ g.length → g.length ≤ n → accumulate k z (ts ++ g) = match k, g with
      | .narrow, _ => (two.1, old.2 ||| s.flags ||| r.2 ||| two.2)
      | .wide, _ | .block, _ => (one.1, old.2 ||| s.flags ||| one.2)
      | .int, _ => (wrapTo 32 v, old.2 ||| (if v < -(2 ^ 31) ∨ 2 ^ 31 - 1 < v then fIOV else 0))
      | .chain, some (x, y) :: _ =>
        let f := ff64.fma .rne x y (ff64.read old.1) [ff64.read old.1, x, y]
        (f.1, old.2 ||| f.2)
      | .chain, _ => old)

/-- The results of MMA, MMAR, MMAS and MMAT with no port program bound (R277, R279, R281 to R283): each element of the window
accumulates the products of its row of A and its column of B in ascending k. B is stored K × N, or N × K for MMAR, MMAS.REV
and BFP; a held operand is its latch. MMAS takes the compressed row that the metadata keep for k, and no term elsewhere;
one invalid nibble ends it with OPERAND_FORM and no result. MMAT starts from the rescaled row. -/
def MultipliesOperands : Prop :=
  ∀ (c : Core) (t : Thread) (x : XArgs) (e : Word) (z : ZReg), ∀ w : ShapeW, w = shapeW t.sh → x.od = .z z →
    t.ins ∈ [Instr.mma x, .mmar x, .mmas x, .mmat x] → t.pa.prog = none → t.pb.prog = none →
    (x.oa = .hold → c.latA.length = w.m * w.k) → (x.ob = .hold → c.latB.length = w.k * w.n) → (t.ins = .mmas x → x.ob ≠ .hold ∧ w.k % 4 = 0) →
    let cls := accClass x.fa x.fb
    let depth := if t.ins = .mmas x then w.k / 2 else w.k
    let byCol := decide (t.ins = .mmar x) || (decide (t.ins = .mmas x) && x.var == 1) || x.fb.isBfp
    let aRows := scaled t.g x.fa x.aux.val (c.readPlace (xPlace x.oa t.oa 0 0) x.fa w.m w.k)
    let bRows := scaled t.g x.fb (x.aux.val + (if x.fa.isBfp then scaleRegs w.m w.k else 0))
      (c.readPlace (xPlace x.ob t.ob 0 0) x.fb (if byCol then w.n else depth) (if byCol then depth else w.n))
    let a (i k : Nat) : Num := (Elt.fmt x.fa).num (if x.oa = .hold then nth c.latA (w.k * i + k) else tileAt aRows i k)
    let b (k j : Nat) : Num := (Elt.fmt x.fb).num (if x.ob = .hold then nth c.latB (w.n * k + j) else
      if byCol then tileAt bRows j k else tileAt bRows k j)
    let nib (g j : Nat) : Nat := metaAt (c.tImage (w.ext % 64)) (256 * g + j)
    let okNib : Prop := ∀ g < w.k / 4, ∀ j < w.n, nib g j % 4 < nib g j / 4
    let term (i j k : Nat) : Option (Num × Num) :=
      if t.ins = .mmas x then
        (if nib (k / 4) j % 4 = k % 4 then some (a i k, b (2 * (k / 4)) j)
         else if nib (k / 4) j / 4 = k % 4 then some (a i k, b (2 * (k / 4) + 1) j) else none)
      else some (a i k, b k j)
    let z0 := c.readPlace (.z z.val w.zrow w.zcol) .fp32 w.m w.n
    let st := c.tImage x.aux.val
    let tri (i : Nat) : Triple × Flags :=
      let p := c.sideRow z.val (w.zrow + i)
      mmatRow ⟨z0.getD i [], p.1, p.2⟩ (leVal ((st.drop (4 * i)).take 4)) (leVal ((st.drop (1024 + 4 * i)).take 4))
    let old (i j : Nat) : Nat := if t.ins = .mmat x then nth (tri i).1.acc j else tileAt z0 i j
    let r (i j : Nat) : Coded := accumulate cls (old i j) ((List.range w.k).map (term i j))
    (t.ins = .mmas x → ¬ okNib → ∃ f, (runX c t e).flt = some f ∧ f.cause = Cause.operandForm ∧ f.taddr = t.pc ∧
      (runX c t e).pool = [] ∧ (runX c t e).side = []) ∧
    ((t.ins = .mmas x → okNib) → (runX c t e).flt = none ∧ (runX c t e).scr = [] ∧
      (∃ rows, (runX c t e).pool = c.writeRuns (.z z.val w.zrow w.zcol) .fp32 rows ∧ IsGrid rows w.m w.n (fun i j => (r i j).1)) ∧
      (runX c t e).flags = orFlags ((List.range w.m).flatMap (fun i => (List.range w.n).map (fun j => (r i j).2))) |||
        (if t.ins = .mmat x then orFlags ((List.range w.m).map (fun i => (tri i).2)) else 0) ∧
      (runX c t e).side = (if t.ins = .mmat x then (List.range w.m).flatMap (fun i =>
        [(2048 * z.val + 4 * (w.zrow + i), leBytes 4 (tri i).1.m), (2048 * z.val + 1024 + 4 * (w.zrow + i), leBytes 4 (tri i).1.l)]) else [])) ∧
    (runX c t e).latA = (if x.oa = .hold then none else some aRows.flatten) ∧
    (t.ins ≠ .mmas x → byCol = false → (runX c t e).latB = (if x.ob = .hold then none else some bRows.flatten))

/-- The rescale of a row by MMAT (R86, R283): equal maxima leave the row; an empty row becomes +0; otherwise accumulators and sum
are multiplied by exp2 of the difference; the sum takes the row's new sum. A NaN maximum, the old one first, makes the accumulators
and the sum it, quiet, and the maximum too, as in R85 (log 94); otherwise the maximum becomes the new one. -/
def RescalesRows : Prop :=
  ∀ (x : Triple) (mn rs : Nat),
    let o := ff32.read x.m
    let n := ff32.read mn
    let al := (exp2Arch (ff32.read (ff32.sub .rne o n).1)).1
    let by' (v : Nat) : Nat := (ff32.mul .rne (ff32.read al) (ff32.read v)).1
    let plus (v : Nat) : Nat := (ff32.add .rne (ff32.read v) (ff32.read rs)).1
    let num : Prop := o.isNan = false ∧ n.isNan = false
    let nan (v : Nat) : Prop := (mmatRow x mn rs).1 = ⟨x.acc.map (fun _ => v), v, plus v⟩
    (numEq o n = true → (mmatRow x mn rs).1 = { x with l := plus x.l }) ∧
    (num → numEq o n = false → x.m = 0xFF800000 → (mmatRow x mn rs).1 = ⟨x.acc.map (fun _ => 0), mn, plus 0⟩) ∧
    (num → numEq o n = false → x.m ≠ 0xFF800000 → (mmatRow x mn rs).1 = ⟨x.acc.map by', mn, plus (by' x.l)⟩) ∧
    (o.isNan = true → nan (ff32.put .rne o.quiet).1) ∧ (o.isNan = false → n.isNan = true → nan (ff32.put .rne n.quiet).1)

/-- MERGE of two triples (R85, R291): an empty one gives the other bit for bit; of two others each accumulator and the sum are
round(β·b + round(α·a)), α and β being 1 for the larger maximum and exp2 of the difference else; a NaN maximum, the first
operand's first, fills the row. -/
def MergesTriples : Prop :=
  ∀ (x y : Triple),
    let a := ff32.read x.m
    let b := ff32.read y.m
    let m := (ff32.put .rne (numMax a b).1).1
    let scale (v : Nat) : Nat := if numEq (ff32.read v) (ff32.read m) then 0x3F800000 else
      (exp2Arch (ff32.read (ff32.sub .rne (ff32.read v) (ff32.read m)).1)).1
    let f (u v : Nat) : Nat :=
      let p := ff32.read (ff32.mul .rne (ff32.read (scale x.m)) (ff32.read u)).1
      (ff32.fma .rne (ff32.read (scale y.m)) (ff32.read v) p [ff32.read (scale y.m), ff32.read v, p]).1
    let nan (v : Nat) : Prop := (mergeRow x y).1 = ⟨x.acc.map (fun _ => v), v, v⟩
    (a.isNan = true → nan (ff32.put .rne a.quiet).1) ∧ (a.isNan = false → b.isNan = true → nan (ff32.put .rne b.quiet).1) ∧
    (a.isNan = false → b.isNan = false →
      (x.m = 0xFF800000 → mergeRow x y = (y, 0)) ∧ (x.m ≠ 0xFF800000 → y.m = 0xFF800000 → mergeRow x y = (x, 0)) ∧
      (x.m ≠ 0xFF800000 → y.m ≠ 0xFF800000 → (mergeRow x y).1 = ⟨List.zipWith f x.acc y.acc, m, f x.l y.l⟩))

/-- The code that a value of element type `e` takes in the destination format, by RND and OVF, and whether it is an element fault
(R60, R62, R285, R287). -/
def drainCode (x : XArgs) (e : Elt) (v : Nat) : Conv := convTo x.fd x.rnd x.ovf (laneVal e.lane (e.entry v).1)

/-- Rows of words drained with no port program bound: their codes at the destination, with the `extra` runs after them, and an
element fault of kind overflow exactly where a conversion faults (R285, R287, R327). -/
def XOut.Drains (o : XOut) (c : Core) (t : Thread) (x : XArgs) (e : Elt) (m n : Nat) (f : Nat → Nat → Nat) (extra : List (Nat × List Byte)) : Prop :=
  (∃ rows, o.Writes c x.od t.od x.fd 0 0 rows extra ∧ IsGrid rows m n (fun i j => (drainCode x e (f i j)).code)) ∧
  ((∀ i < m, ∀ j < n, (drainCode x e (f i j)).fault = false) → o.flt = none) ∧
  ((∃ i < m, ∃ j < n, (drainCode x e (f i j)).fault = true) → ∃ g, o.flt = some g ∧ g.cause = Cause.elemOverflow ∧ g.taddr = t.pc)

/-- The results of ZLD, ZST and TRANS with no port program bound (R284, R285, R287). ZLD converts each source element to the
kind, by RNE, and with STATS copies the side rows from the statistics register; ZST drains the window, with STATS the side rows
too, and with a BFP target block by block, the exponents at byte 8i + b; TRANS drains element (i, j) to (j, i). -/
def MovesOperands : Prop :=
  ∀ (c : Core) (t : Thread) (x : XArgs) (e : Word), ∀ w : ShapeW, w = shapeW t.sh → t.pa.prog = none → t.pd.prog = none →
    let o := runX c t e
    let src (row col : Nat) := scaled t.g x.fa x.aux.val (c.readPlace (xPlace x.oa t.oa row col) x.fa w.m w.n)
    let elt : Elt := match x.oa with | .z _ => (if x.fa = .int8 then .i32 else .fmt x.fa) | _ => .fmt x.fa
    let tAt := 16384 * x.aux.val
    (∀ z : ZReg, t.ins = .zld x → x.od = .z z →
      let code (v : Nat) : Nat := match x.fd with
        | .int8 => (convInt 32 .rne .sat ((Elt.fmt x.fa).num v)).code
        | .fp64 => (ff64.conv .rne .inf ((Elt.fmt x.fa).num v)).code
        | _ => (ff32.conv .rne .inf ((Elt.fmt x.fa).num v)).code
      let st := c.tImage x.aux.val
      o.flt = none ∧ (∃ rows, o.Writes c x.od t.od .fp32 w.zrow w.zcol rows [] ∧ IsGrid rows w.m w.n (fun i j => code (tileAt (src 0 0) i j))) ∧
      o.side = (if x.var = 1 then (List.range w.m).flatMap (fun i =>
        [(2048 * z.val + 4 * (w.zrow + i), leBytes 4 (leVal ((st.drop (4 * i)).take 4))),
         (2048 * z.val + 1024 + 4 * (w.zrow + i), leBytes 4 (leVal ((st.drop (1024 + 4 * i)).take 4)))]) else [])) ∧
    (∀ z : ZReg, t.ins = .zst x → x.oa = .z z → x.fa ∈ [Fmt.fp32, .fp64, .int8] → o.side = [] ∧
      (x.fd.isBfp = false → o.Drains c t x elt w.m w.n (tileAt (c.readPlace (.z z.val w.zrow w.zcol) .fp32 w.m w.n))
        (if x.var = 1 then (List.range w.m).flatMap (fun i => let s := c.sideRow z.val (w.zrow + i)
          [(tAt + 4 * i, leBytes 4 s.1), (tAt + (1024 + 4 * i), leBytes 4 s.2)]) else [])) ∧
      (x.fd.isBfp = true → x.var = 0 →
        let nums (i : Nat) : List Num := (List.range w.n).map (fun j =>
          laneVal elt.lane (elt.entry (tileAt (c.readPlace (.z z.val w.zrow w.zcol) .fp32 w.m w.n) i j)).1)
        let blk (i b : Nat) : BfpBlock := bfpBlock x.fd.bw x.rnd x.ovf (((nums i).drop (32 * b)).take 32)
        ∃ rows, o.Writes c x.od t.od x.fd 0 0 rows ((List.range w.m).map (fun i =>
            (tAt + 8 * i, (List.range ((w.n + 31) / 32)).map (fun b => BitVec.ofNat 8 (blk i b).x)))) ∧
          IsGrid rows w.m w.n (fun i j => wrapTo 8 ((blk i (j / 32)).ms.getD (j % 32) 0)))) ∧
    (t.ins = .trans x → x.fd.isBfp = false → o.side = [] ∧ o.Drains c t x elt w.n w.m (fun j i => tileAt (src w.zrow w.zcol) i j) [])

/-- The results of SPBUILD (R288): where every aligned group of four of each column and of each row keeps exactly two elements, the
kept values and the nibbles of both planes lie in the four arrays, whose lines change state together; where some group does not,
the thread ends with OPERAND_FORM and writes nothing. -/
def BuildsPlanes : Prop :=
  ∀ (c : Core) (t : Thread) (x : XArgs) (e : Word), ∀ w : ShapeW, w = shapeW t.sh → t.ins = .spbuild x → w.k % 4 = 0 → w.n % 4 = 0 →
    w.k ≤ 256 → w.n ≤ 256 →
    let o := runX c t e
    let d := tileAt (c.readPlace (xPlace x.oa t.oa 0 0) x.fa w.k w.n)
    let mask := tileAt (c.readPlace (xPlace x.ob t.ob 0 0) .int8 w.k w.n)
    let colKept (g j : Nat) : List Nat := [0, 1, 2, 3].filter (fun u => mask (4 * g + u) j ≠ 0)
    let rowKept (g i : Nat) : List Nat := [0, 1, 2, 3].filter (fun u => mask i (4 * g + u) ≠ 0)
    let two : Prop := (∀ g < w.k / 4, ∀ j < w.n, (colKept g j).length = 2) ∧ (∀ g < w.n / 4, ∀ i < w.k, (rowKept g i).length = 2)
    let runs (a : Nat) (f : Fmt) (rows : List (List Nat)) : List (Nat × List Byte) :=
      (c.writeRuns (.pair { pairOf t.od with base := (pairOf t.od).base + a * (pairOf t.od).tpitch }) f rows).map
        (fun r => (r.1 - c.scratchBase, r.2))
    let nibAt (rows : List (List Nat)) (g j : Nat) : Nat := tileAt rows ((128 * g + j / 2) / 256) ((128 * g + j / 2) % 256) / 16 ^ (j % 2) % 16
    o.pool = [] ∧
    (two → ∃ r0 r1 r2 r3 : List (List Nat), o.scr = runs 0 x.fa r0 ++ runs 1 .int8 r1 ++ runs 2 x.fa r2 ++ runs 3 .int8 r3 ∧
      o.flt = none ∧ o.paired = true ∧
      IsGrid r0 (w.k / 2) w.n (fun q j => d (4 * (q / 2) + nth (colKept (q / 2) j) (q % 2)) j) ∧
      IsGrid r2 w.k (w.n / 2) (fun i q => d i (4 * (q / 2) + nth (rowKept (q / 2) i) (q % 2))) ∧
      (r1.length = 64 ∧ r3.length = 64 ∧ ∀ i < 64, (r1.getD i []).length = 256 ∧ (r3.getD i []).length = 256) ∧
      (∀ g < w.k / 4, ∀ j < w.n, nibAt r1 g j = nth (colKept g j) 0 + 4 * nth (colKept g j) 1) ∧
      (∀ g < w.n / 4, ∀ i < w.k, nibAt r3 g i = nth (rowKept g i) 0 + 4 * nth (rowKept g i) 1)) ∧
    (¬ two → o.scr = [] ∧ ∃ f, o.flt = some f ∧ f.cause = Cause.operandForm ∧ f.taddr = t.pc)

/-- The tree of R75 and R76: one value is itself; of more, the first 2^j (the largest power below their number) and the rest are
reduced apart and meet in one node, which adds with one rounding, or modulo 2^32 with IOV, or takes the larger or smaller. -/
def ReducesByTree : Prop :=
  ∀ (k : LaneKind) (op : RedOp) (j : Nat) (xs ys : List Coded), j ≤ 15 → xs.length = 2 ^ j → 1 ≤ ys.length → ys.length ≤ 2 ^ j →
    (∀ x, reduce k op [x] = x) ∧ reduce k op [] = (0, 0) ∧
    let x := reduce k op xs
    let y := reduce k op ys
    let ff := if k = .f64 then ff64 else ff32
    let u := signedOf 32 x.1
    let v := signedOf 32 y.1
    let num (r : Num × Flags) : Coded := ((ff.put .rne r.1).1, x.2 ||| y.2 ||| r.2)
    reduce k op (xs ++ ys) = match k, op with
      | .i32, .sum => (wrapTo 32 (u + v), x.2 ||| y.2 ||| (if u + v < -(2 ^ 31) ∨ 2 ^ 31 - 1 < u + v then fIOV else 0))
      | .i32, .max => (wrapTo 32 (max u v), x.2 ||| y.2)
      | .i32, .min => (wrapTo 32 (min u v), x.2 ||| y.2)
      | _, .sum => let r := ff.add .rne (ff.read x.1) (ff.read y.1); (r.1, x.2 ||| y.2 ||| r.2)
      | _, .max => num (numMax (ff.read x.1) (ff.read y.1))
      | _, .min => num (numMin (ff.read x.1) (ff.read y.1))

/-- The larger and the smaller of two numbers (R76, R77): a NaN operand is returned quiet, the first one first; −0 lies below +0. -/
def PicksExtremes : Prop :=
  ∀ x y : Num,
    (x.isNan = true → (numMax x y).1 = x.quiet ∧ (numMin x y).1 = x.quiet) ∧
    (x.isNan = false → y.isNan = true → (numMax x y).1 = y.quiet ∧ (numMin x y).1 = y.quiet) ∧
    (x.isNan = false → y.isNan = false →
      (numLt x y = true → (numMax x y).1 = y ∧ (numMin x y).1 = x) ∧ (numLt y x = true → (numMax x y).1 = x ∧ (numMin x y).1 = y)) ∧
    (numMax x y).2 = (if x.isSig || y.isSig then fNV else 0) ∧ (numMin x y).2 = (if x.isSig || y.isSig then fNV else 0) ∧
    (∀ a b : Int, (numMax (.fin true 0 a) (.fin false 0 b)).1.sign = false ∧ (numMax (.fin false 0 a) (.fin true 0 b)).1.sign = false ∧
      (numMin (.fin true 0 a) (.fin false 0 b)).1.sign = true ∧ (numMin (.fin false 0 a) (.fin true 0 b)).1.sign = true)

/-- The results of ROWRED, COLRED, SOFTROW, MERGE, TOPK and WINDOW with no port program bound (R289 to R293). -/
def ReducesOperands : Prop :=
  ∀ (c : Core) (t : Thread) (x : XArgs) (e : Word), ∀ w : ShapeW, w = shapeW t.sh → t.pa.prog = none → t.pd.prog = none →
    let o := runX c t e
    let elt : Elt := match x.oa with | .z _ => (if x.fa = .int8 then .i32 else .fmt x.fa) | _ => .fmt x.fa
    let src := tileAt (c.readPlace (xPlace x.oa t.oa w.zrow w.zcol) x.fa w.m w.n)
    let out (v : Coded) : Conv := convTo x.fd x.rnd x.ovf (laneVal elt.working (laneCode elt.working v.1))
    let op : RedOp := if x.var = 1 then .max else if x.var = 2 then .min else .sum
    let row (i : Nat) : Coded := reduce elt.working op ((List.range w.n).map (fun j => elt.widen (src i j)))
    let col (j : Nat) : Coded := reduce elt.working op ((List.range w.m).map (fun i => elt.widen (src i j)))
    let tAt := 16384 * x.aux.val
    (x.fd.isBfp = false →
      (t.ins = .rowred x → o.side = [] ∧ ∃ rows, o.Writes c x.od t.od x.fd 0 0 rows [] ∧ IsGrid rows 1 w.m (fun _ i => (out (row i)).code)) ∧
      (t.ins = .colred x → o.side = [] ∧ ∃ rows, o.Writes c x.od t.od x.fd 0 0 rows [] ∧ IsGrid rows 1 w.n (fun _ j => (out (col j)).code)) ∧
      (∀ z : ZReg, t.ins = .softrow x → x.ob = .z z →
        let sc (i j : Nat) : Nat := (elt.widen (src i j)).1
        let mo (i : Nat) : Nat := if c.partw.trip.getLsbD z.val then (c.sideRow z.val (w.zrow + i)).1 else 0xFF800000
        let ms (i : Nat) : Nat := (reduce .f32 .max ((List.range w.n).map (fun j => (sc i j, 0)))).1
        let mn (i : Nat) : Nat := (ff32.put .rne (numMax (ff32.read (mo i)) (ff32.read (ms i))).1).1
        let p (i j : Nat) : Nat := if mn i = 0xFF800000 then 0 else
          (exp2Arch (ff32.read (ff32.sub .rne (ff32.read (sc i j)) (ff32.read (mn i))).1)).1
        let y (i j : Nat) : Nat := (convTo x.fd x.rnd x.ovf (ff32.read (p i j % 2 ^ 32))).code
        let rs (i : Nat) : Nat := (reduce .f32 .sum ((List.range w.n).map (fun j => (Elt.fmt x.fd).widen (y i j)))).1
        o.side = [] ∧ ∃ rows, o.Writes c x.od t.od x.fd 0 0 rows ((List.range w.m).flatMap (fun i =>
          [(tAt + 4 * i, leBytes 4 (mn i)), (tAt + (1024 + 4 * i), leBytes 4 (rs i))])) ∧ IsGrid rows w.m w.n y)) ∧
    (∀ a b z : ZReg, t.ins = .merge x → x.oa = .z a → x.ob = .z b → x.od = .z z →
      let tri (r : ZReg) (i : Nat) : Triple :=
        ⟨(c.readPlace (.z r.val w.zrow w.zcol) .fp32 w.m w.n).getD i [], (c.sideRow r.val (w.zrow + i)).1, (c.sideRow r.val (w.zrow + i)).2⟩
      let res (i : Nat) : Triple := (mergeRow (tri a i) (tri b i)).1
      o.flt = none ∧ o.pool = c.writeRuns (.z z.val w.zrow w.zcol) .fp32 ((List.range w.m).map (fun i => (res i).acc)) ∧
      o.side = (List.range w.m).flatMap (fun i =>
        [(2048 * z.val + 4 * (w.zrow + i), leBytes 4 (res i).m), (2048 * z.val + 1024 + 4 * (w.zrow + i), leBytes 4 (res i).l)])) ∧
    (t.ins = .topk x → w.k ≤ w.n → o.flt = none ∧ ∃ (idx : Nat → Nat → Nat) (rows : List (List Nat)), o.Writes c x.od t.od .fp64 0 0 rows [] ∧
      IsGrid rows w.m w.k (fun i q => idx i q + (ff32.conv .rne .inf (elt.num (src i (idx i q)))).code * 2 ^ 32) ∧
      ∀ i < w.m, ∀ q < w.k, idx i q < w.n ∧ (∀ p < q, idx i p ≠ idx i q) ∧
        ∀ j < w.n, (∀ p < q, idx i p ≠ j) →
          let u := elt.num (src i (idx i q))
          let v := elt.num (src i j)
          let better (a b : Num) : Prop := a.isNan = false ∧ (b.isNan = true ∨ (if x.var = 1 then numLt a b else numLt b a) = true)
          better u v ∨ (¬ better v u ∧ idx i q ≤ j)) ∧
    (∀ (r : SReg) (k : Bool), t.ins = .window x → x.oa = .pair r k → x.fd.isBfp = false → x.fa.isBfp = false →
      let nx := w.ext % 256
      let pad := w.ext / 256 % 8
      let cls := accClass x.fa x.fb
      let slot (q : Nat) : List Nat := rowElems x.fa x.fa.size (nx * w.n)
        (c.runsBytes (((pairOf t.oa).rowRuns x.fa (nx * w.n) q).map (fun v => (c.scratchBase + v.1, v.2))))
      let ring (q s j : Nat) : Nat := if pad ≤ s ∧ s < pad + nx then nth (slot q) ((s - pad) * w.n + j) else 0
      let wt (k j : Nat) : Nat := tileAt (c.readPlace (xPlace x.ob t.ob 0 0) x.fb w.k w.n) k j
      let acc (i s j : Nat) : Coded := accumulate cls 0 ((List.range w.k).map (fun k =>
        some ((Elt.fmt x.fa).num (ring ((w.zrow + i + k) % w.zcol) s j), (Elt.fmt x.fb).num (wt k j))))
      let kind : Elt := match cls.kind with | .int32 => .i32 | .fp64 => .fmt .fp64 | .fp32 => .fmt .fp32
      let y (i q : Nat) : Nat := (drainCode x kind (acc i (q / w.n + 2 * pad) (q % w.n)).1).code
      let per := (nx * w.n + 255) / 256
      ∃ rows, o.Writes c x.od t.od x.fd 0 0 rows [] ∧ ((∀ n, x.od ≠ .t n) → IsGrid rows w.m (nx * w.n) y) ∧
        (∀ n, x.od = .t n → rows.length = w.m * per ∧ ∀ i < w.m, ∀ q < nx * w.n,
          q % 256 < (rows.getD (i * per + q / 256) []).length ∧ tileAt rows (i * per + q / 256) (q % 256) = y i q))

/-! ## What the factorisation rules say (R298 to R308) -/

/-- −x in a fused step: the sign of a number changes, a NaN operand stays as it is (R77). -/
def facNeg (ff : FF) (v : Nat) : Num := if (ff.read v).isNan then ff.read v else (ff.read v).neg

/-- rnd(x · y + z) of codes, `x` given as a number. -/
def facStep (ff : FF) (x : Num) (y z : Nat) : Nat := (ff.fma .rne x (ff.read y) (ff.read z) [x, ff.read y, ff.read z]).1

/-- One step of LUP (R303): the pivot is the first row of the greatest magnitude from the diagonal down, a NaN above every number;
one at or below PIVT faults or, under ZPOL, records the first such column and leaves the tile; otherwise rows and PERM entries
are exchanged, the column is divided, and the rest takes one fused step. -/
def StepsLup : Prop :=
  ∀ (ff : FF) (m n : Nat) (pivt : Word) (zpol : Bool) (f : Fac) (k : Nat), ff = ff32 ∨ ff = ff64 → k < m → k < n → f.a.length = m →
    (∀ i < m, (f.a.getD i []).length = n ∧ ∀ j < n, tileAt f.a i j < 2 ^ (ff.eb + ff.fb + 1)) → f.perm.length = 256 → m ≤ 256 →
    let mag (i : Nat) : Num := (ff.read (tileAt f.a i k)).abs
    let above (i p : Nat) : Prop := (mag p).isNan = false ∧ ((mag i).isNan = true ∨ numLt (mag p) (mag i) = true)
    ∃ p, k ≤ p ∧ p < m ∧ (∀ i, k ≤ i → i < m → ¬ above i p) ∧ (∀ i, k ≤ i → i < p → above p i) ∧
      let lim := ff64.read pivt.toNat
      let low : Prop := (mag p).isNan = false ∧ lim.isNan = false ∧ numLt lim (mag p) = false
      let r := stepLup ff m n pivt zpol f k
      (low → zpol = false → r = .fault Cause.zeroPivot k f.flags) ∧
      (low → zpol = true → r = .commit { f with fstat := if f.fstat.getLsbD 16 then f.fstat else BitVec.ofNat 64 (2 ^ 16 + k % 256) }) ∧
      (¬ low → ∃ g, r = .commit g ∧ g.tau = f.tau ∧ g.fstat = f.fstat ∧ g.imax = f.imax ∧ g.pmax = f.pmax ∧
        (let sw (i : Nat) : Nat := if i = k then p else if i = p then k else i
         let a (i j : Nat) : Nat := tileAt f.a (sw i) j
         let q (i : Nat) : Nat := (ff.div .rne (ff.read (a i k)) (ff.read (a k k))).1
         IsGrid g.a m n (fun i j => if i ≤ k then a i j else if j < k then a i j else if j = k then q i
           else facStep ff (facNeg ff (q i)) (a k j) (a i j)) ∧
         ∀ i < 256, g.perm.getD i 0 = f.perm.getD (sw i) 0))

/-- One step of CHOL (R304): d is the diagonal less the squares of its row, a fused step each; below or at zero, or NaN, it faults;
otherwise the diagonal is its root and each element below is divided by it after its own fused steps. A signalling NaN that the test
of d reads sets NV (R53, log 112). -/
def StepsChol : Prop :=
  ∀ (ff : FF) (m : Nat) (f : Fac) (k : Nat), ff = ff32 ∨ ff = ff64 → k < m → f.a.length = m → (∀ i < m, (f.a.getD i []).length = m) →
    let a := tileAt f.a
    let less (i : Nat) : Nat := (List.range k).foldl (fun v l => facStep ff (facNeg ff (a i l)) (a k l) v) (a i k)
    let d := ff.read (less k)
    let r := stepChol ff m f k
    (d.isNan = true ∨ numLt Num.zero d = false → ∃ fl, r = .fault Cause.notPd k fl ∧ (k = 0 → d.isSig = true → fl &&& fNV = fNV)) ∧
    (d.isNan = false → numLt Num.zero d = true → ∃ g, r = .commit g ∧ g.tau = f.tau ∧ g.perm = f.perm ∧ g.fstat = f.fstat ∧
      g.imax = f.imax ∧ g.pmax = f.pmax ∧
      (let root := (ff.sqrt .rne d).1
       IsGrid g.a m m (fun i j => if j ≠ k ∨ i < k then a i j else if i = k then root
         else (ff.div .rne (ff.read (less i)) (ff.read root)).1)))

/-- One step of QRH (R305): a column that is zero below the diagonal gives τ = +0 and nothing else; otherwise the reflector, τ and
the trailing columns are formed by the rule's roundings. -/
def StepsQrh : Prop :=
  ∀ (ff : FF) (m n : Nat) (f : Fac) (k : Nat), ff = ff32 ∨ ff = ff64 → k < m → k < n → f.a.length = m → (∀ i < m, (f.a.getD i []).length = n) →
    let a := tileAt f.a
    let low : List Nat := (List.range m).filter (fun i => k < i)
    let rd (v : Nat) : Num := ff.read v
    let r := stepQrh ff m n f k
    ((∀ i ∈ low, (rd (a i k)).isZero = true) → r = .commit { f with tau := f.tau ++ [(k, 0)] }) ∧
    ((∃ i ∈ low, (rd (a i k)).isZero = false) →
      let sq := (k :: low).foldl (fun v i => facStep ff (rd (a i k)) (a i k) v) 0
      let nrm := (ff.sqrt .rne (rd sq)).1
      let beta := if (rd (a k k)).sign then nrm else negK ff nrm
      let tau := (ff.div .rne (rd (ff.sub .rne (rd beta) (rd (a k k))).1) (rd beta)).1
      let den := (ff.sub .rne (rd (a k k)) (rd beta)).1
      let v (i : Nat) : Nat := (ff.div .rne (rd (a i k)) (rd den)).1
      let dot (j : Nat) : Nat := low.foldl (fun w i => facStep ff (rd (v i)) (a i j) w) (a k j)
      let t (j : Nat) : Nat := (ff.mul .rne (rd tau) (rd (dot j))).1
      ∃ g, r = .commit g ∧ g.tau = f.tau ++ [(k, tau)] ∧ g.perm = f.perm ∧ g.fstat = f.fstat ∧ g.imax = f.imax ∧ g.pmax = f.pmax ∧
        IsGrid g.a m n (fun i j =>
          if i < k ∨ j < k then a i j
          else if j = k then (if i = k then beta else v i)
          else if i = k then (ff.sub .rne (rd (a k j)) (rd (t j))).1
          else facStep ff (facNeg ff (t j)) (v i) (a i j)))

/-- One step of TRSM and of TRMM (R306, R307), on the left, for every row and column of B: TRSM solves index r from the indices
already solved and divides by the diagonal, unless UNIT; a zero diagonal faults. TRMM multiplies and adds the terms in
ascending order. With RIGHT the roles of rows and columns are exchanged. -/
def StepsTriangles : Prop :=
  ∀ (ff : FF) (v : TriVar) (tr : Tile) (n len : Nat) (f : Fac) (s : Nat), ff = ff32 ∨ ff = ff64 → s < n →
    (if v.right then f.a.length = len ∧ ∀ i < len, (f.a.getD i []).length = n else f.a.length = n ∧ ∀ i < n, (f.a.getD i []).length = len) →
    let el (i k : Nat) : Nat := if v.trn then tileAt tr k i else tileAt tr i k
    let lower : Prop := v.upper = v.trn
    let b (k q : Nat) : Nat := if v.right then tileAt f.a q k else tileAt f.a k q
    let Puts (g : Fac) (r : Nat) (y : Nat → Nat) : Prop := g.tau = f.tau ∧ g.perm = f.perm ∧ g.fstat = f.fstat ∧ g.imax = f.imax ∧ g.pmax = f.pmax ∧
      (if v.right then IsGrid g.a len n (fun q k => if k = r then y q else tileAt f.a q k)
       else IsGrid g.a n len (fun k q => if k = r then y q else tileAt f.a k q))
    (∀ r, (lower → (if v.right then r = n - 1 - s else r = s)) → (¬ lower → (if v.right then r = s else r = n - 1 - s)) →
      let ks := (List.range n).filter (fun k => if (if v.right then ¬ lower else lower) then k < r else r < k)
      let x (q : Nat) : Nat := ks.foldl (fun u k => if v.right then facStep ff (facNeg ff (b k q)) (el k r) u
        else facStep ff (facNeg ff (el r k)) (b k q) u) (b r q)
      let z := stepTrsm ff v tr n len f s
      (v.unit = false → (ff.read (el r r)).isZero = true → z = .fault Cause.zeroDiag r f.flags) ∧
      (v.unit = true ∨ (ff.read (el r r)).isZero = false →
        ∃ g, z = .commit g ∧ Puts g r (fun q => if v.unit then x q else (ff.div .rne (ff.read (x q)) (ff.read (el r r))).1))) ∧
    (∀ r, (lower → (if v.right then r = s else r = n - 1 - s)) → (¬ lower → (if v.right then r = n - 1 - s else r = s)) →
      let ms := (List.range n).filter (fun k => if (if v.right then ¬ lower else lower) then k ≤ r else r ≤ k)
      let one (q k : Nat) : Nat := if v.unit = true ∧ k = r then b r q else if v.right then (ff.mul .rne (ff.read (b k q)) (ff.read (el k r))).1
        else (ff.mul .rne (ff.read (el r k)) (ff.read (b k q))).1
      let more (q u k : Nat) : Nat := if v.unit = true ∧ k = r then (ff.add .rne (ff.read (b r q)) (ff.read u)).1
        else if v.right then facStep ff (ff.read (b k q)) (el k r) u else facStep ff (ff.read (el r k)) (b k q) u
      ∃ g, stepTrmm ff v tr n len f s = .commit g ∧ Puts g r (fun q => match ms with | [] => 0 | k :: rest => rest.foldl (more q) (one q k)))

/-- A factorisation thread (R298 to R302, R308): a HELD position, or one of another form or past the last step, ends it with
OPERAND_FORM and nothing written. Otherwise it takes its steps in order, from 0 afresh or from NEXT, up to the last, or to one
that faults, which writes nothing but flags (log 112); of Zd, CHOL writes its lower triangle alone. Zd, τ, PERM and FSTAT are those of
the steps committed; PMAX has risen with what they wrote, and GROW follows it; FPROG is 0 at the end, and HELD at the faulting step otherwise, with the index as the fault's address. -/
def RunsFactorisations : Prop :=
  ∀ (c : Core) (t : Thread) (x : XArgs) (e : Word) (z : ZReg), ∀ w : ShapeW, w = shapeW t.sh → x.od = .z z → w.m ≤ 256 → w.n ≤ 256 →
    t.ins ∈ [Instr.lup x, .chol x, .qrh x, .trsm x, .trmm x] → (t.ins = .chol x → w.n = w.m) →
    let ff := if x.fa = .fp64 then ff64 else ff32
    let v : TriVar := ⟨x.var.val.testBit 0, x.var.val.testBit 1, x.var.val.testBit 2, x.var.val.testBit 3⟩
    let isTri : Prop := t.ins = .trsm x ∨ t.ins = .trmm x
    (isTri → ∃ y, x.oa = .z y) →
    let n := if isTri then (if v.right then w.n else w.m) else if t.ins = .chol x then w.m else min w.m w.n
    let op := if t.ins = .lup x then 0x18 else if t.ins = .chol x then 0x19 else if t.ins = .qrh x then 0x1A else if t.ins = .trsm x then 0x1B else 0x1C
    let state := wbits c.arch.fprog 17 16
    let next := wbits c.arch.fprog 8 0
    let off := (t.pc - e).toNat
    let len := if v.right then w.m else w.n
    let a := c.readPlace (.z z.val w.zrow w.zcol) .fp32 w.m w.n
    let tr := c.readPlace (xPlace x.oa t.oa (w.ext % 256) (w.ext / 256)) .fp32 n n
    let step : Fac → Nat → StepEnd := if t.ins = .lup x then stepLup ff w.m w.n t.pivt t.zpol else if t.ins = .chol x then stepChol ff w.m
      else if t.ins = .qrh x then stepQrh ff w.m w.n else if t.ins = .trsm x then stepTrsm ff v tr n len else stepTrmm ff v tr n len
    let refs : List Nat := (List.range n).flatMap (fun i => (List.range n).filterMap (fun j =>
      if (if v.upper then i ≤ j else j ≤ i) ∧ ¬ (v.unit = true ∧ i = j) then some (tileAt tr i j) else none))
    let read : List Nat := if t.ins = .chol x then (List.range w.m).flatMap (fun i => (a.getD i []).take (i + 1)) else a.flatten ++ (if isTri then refs else [])
    let imax := if state = 0 then read.foldl (growMax ff) 0 else wbits c.arch.grow 63 32
    let first := if state = 0 then 0 else next
    let bytes := if x.fa = .fp64 then 8 else 4
    let q := (runFactor c t e 256).2.1
    (2 ≤ state ∨ (state = 1 ∧ (wbits c.arch.fprog 31 26 ≠ op ∨ n ≤ next)) →
      q.pool = [] ∧ q.fprog = none ∧ q.grow = none ∧ q.perm = [] ∧ ∃ f, q.flt = some f ∧ f.cause = Cause.operandForm ∧ f.taddr = t.pc) ∧
    (state = 0 ∨ (state = 1 ∧ wbits c.arch.fprog 31 26 = op ∧ next < n) →
      ∃ (fs : Nat → Fac) (k : Nat), first + k ≤ n ∧
        (fs 0).a = a ∧ (fs 0).tau = [] ∧ (fs 0).fstat = c.arch.fstat ∧ (fs 0).imax = imax ∧ (fs 0).flags = 0 ∧ (fs 0).wrote = [] ∧
        (fs 0).pmax = (if state = 0 then imax else wbits c.arch.fprog 63 32) ∧
        (∀ i < 256, (fs 0).perm.getD i 0 = (if state = 0 ∧ t.ins = .lup x ∧ i < w.m then BitVec.ofNat 8 i else c.arch.perm.toList.getD i 0)) ∧
        (∀ s < k, ∃ g, step (fs s) (first + s) = .commit g ∧ fs (s + 1) = { g with pmax := g.wrote.foldl (growMax ff) g.pmax, wrote := [] }) ∧
        (let g := fs k
         let word (st : Nat) : Word := BitVec.ofNat 64 (g.pmax * 2 ^ 32 + op * 2 ^ 26 + st * 2 ^ 16 + (first + k))
         let rows := if t.ins = .chol x then (g.a.mapIdx (fun i r => c.writeRuns (.z z.val (w.zrow + i) w.zcol) .fp32 [r.take (i + 1)])).flatten
           else c.writeRuns (.z z.val w.zrow w.zcol) .fp32 g.a
         q.pool = rows ++ g.tau.map (fun p => (16384 * x.aux.val + bytes * p.1, leBytes bytes p.2)) ∧
         q.perm = g.perm.mapIdx (fun i b => (i, b)) ∧ q.fstat = g.fstat ∧
         q.grow = some (BitVec.ofNat 64 (g.imax * 2 ^ 32 + (if k = 0 then (if state = 0 then (if imax = 0 then 0 else 0x3F800000) else wbits c.arch.grow 31 0)
           else if g.imax = 0 then (if g.pmax = 0 then 0 else 0x7F800000) else (ff32.div .rup (ff32.read g.pmax) (ff32.read g.imax)).1))) ∧
         ((first + k = n ∧ q.flags = g.flags ∧ q.flt = none ∧ q.fprog = some 0) ∨
          (first + k < n ∧ ∃ cause i, step g (first + k) = .fault cause i q.flags ∧ q.flt = some ⟨cause, BitVec.ofNat 64 i, engInfo cause off⟩ ∧
            q.fprog = some (word 2)))))

/-! ## What the rules of copies say (R40, R41, R261 to R266) -/

/-- Where the element at coordinates `x` lies on the memory side (R40, R41): at Σ xd × STRd from the base when every coordinate is
inside its extent, nowhere otherwise; a ragged row begins at its table entry and has its own extent. -/
def PlacesElements : Prop :=
  (∀ (h : Shape) (row : Nat → Nat × Nat) (x0 x1 x2 x3 x4 : Int),
    let e (d : Fin 5) : Int := h.ext[d.val]
    let st (d : Fin 5) : Word := h.str[d.val]
    let high := BitVec.ofInt 64 x2 * st 2 + BitVec.ofInt 64 x3 * st 3 + BitVec.ofInt 64 x4 * st 4
    let inUpper : Prop := 0 ≤ x1 ∧ x1 < e 1 ∧ 0 ≤ x2 ∧ x2 < e 2 ∧ 0 ≤ x3 ∧ x3 < e 3 ∧ 0 ≤ x4 ∧ x4 < e 4
    (h.ragged = false → inUpper → 0 ≤ x0 → x0 < e 0 →
      h.offsetAt row [x0, x1, x2, x3, x4] = some (BitVec.ofInt 64 x0 * st 0 + BitVec.ofInt 64 x1 * st 1 + high)) ∧
    (h.ragged = false → ¬ (inUpper ∧ 0 ≤ x0 ∧ x0 < e 0) → h.offsetAt row [x0, x1, x2, x3, x4] = none) ∧
    (h.ragged = true → inUpper → 0 ≤ x0 → x0 < (row x1.toNat).2 → h.offsetAt row [x0, x1, x2, x3, x4] =
      some ((BitVec.ofNat 64 (row x1.toNat).1 + BitVec.ofInt 64 x0) * st 0 + high)) ∧
    (h.ragged = true → ¬ (inUpper ∧ 0 ≤ x0 ∧ x0 < (row x1.toNat).2) → h.offsetAt row [x0, x1, x2, x3, x4] = none)) ∧
  (∀ (h : Shape) (t p i1 i0 : Nat), p < h.planes → i1 < h.bx 1 → i0 < h.bx 0 →
    (h.elems t).length = h.planes * h.bx 1 * h.bx 0 ∧
    (h.elems t)[(p * h.bx 1 + i1) * h.bx 0 + i0]? =
      some ⟨h.planes * t + p, [i0, i1, p % h.bx 2, p / h.bx 2 % h.bx 3, p / (h.bx 2 * h.bx 3)]⟩) ∧
  (∀ (q : PairV) (h : Shape) (n i1 i0 : Nat) (ix : List Nat), ix = i0 :: i1 :: ix.drop 2 →
    let unit := if h.fmt.isBfp then 4 * h.fmt.bw else h.fmt.size
    let side := side4 (max (h.bx 0) (h.bx 1))
    let tp := if q.tpitch ≠ 0 then q.tpitch else if q.lay = 0 then h.bx 1 * q.rpitch else unit * side ^ 2
    let turn (r o : Nat) : Nat := o / 8192 * 8192 + (o / 128 % 64 + r * q.rot) % 64 * 128 + o % 128
    q.elemAt h ⟨n, ix⟩ = (if q.lay = 0 then turn (n * h.bx 1 + i1) (q.base + n * tp + i1 * q.rpitch + i0 * unit)
      else turn i1 (q.base + n * tp + unit * (if q.lay = 2 then zIndex i0 i1 else zIndex i1 i0))) ∧
    (max (h.bx 0) (h.bx 1) ≤ 256 → (∃ k, side = 2 ^ k) ∧ 4 ≤ side ∧ max (h.bx 0) (h.bx 1) ≤ side ∧ (side = 4 ∨ side / 2 < max (h.bx 0) (h.bx 1))))

/-- The sectors `js` hold exactly the bytes `ws`, each at its place. -/
def JobsHold (js : List Job) (mk : Nat → JobDest) (ws : List (Nat × Byte)) : Prop :=
  (∀ w ∈ ws, ∃ j ∈ js, j.dest = mk (32 * (w.1 / 32)) ∧ (w.1 % 32, w.2) ∈ j.bytes) ∧
  (∀ j ∈ js, ∃ q, j.dest = mk (32 * q) ∧ ∀ b ∈ j.bytes, b.1 < 32 ∧ (32 * q + b.1, b.2) ∈ ws)

/-- What COPY, GATHER and SCATTER move with no port program bound (R41, R262 to R266). The elements of a COPY are those of its box at
the anchor its coordinate registers give; a GATHER or SCATTER moves one box per index, direct or through the block table. A
thread whose turn it is reads every element (a byte string of the pair's scratchpad, or of the memory side; zeros out of
bounds) and begins on the sectors that put each element's bytes at its place: the pair side for every element, the memory
side for those in bounds alone; a COPY's sectors in ascending address. -/
def CopiesElements : Prop :=
  (∀ (s : State) (r : Reader) (c : CArgs) (cr : Word × Word × Word) (h : Shape), h.nothing = false → h.ragged = false →
    let lo (w : Word) (k : Nat) : Int := (w.extractLsb' (32 * k) 32).toInt
    let hi (w : Word) (k : Nat) : Int := (w.extractLsb' (21 * k) 21).toInt
    (cr.2.1.getLsbD 63 = false →
      s.copyEls r (.copy c) c cr h = .ok ((h.elems 0).map (fun e => ⟨0, e, h.offsetAt (fun _ => (0, 0))
        (List.zipWith (fun (a : Int) (i : Nat) => a + i) [lo cr.1 0, lo cr.1 1, hi cr.2.1 0, hi cr.2.1 1, hi cr.2.1 2] e.ix)⟩))) ∧
    (cr.2.1.getLsbD 63 = true → s.copyEls r (.copy c) c cr h = .error (.fault Cause.operandForm none)) ∧
    (∀ i ∈ [Instr.gather c, .scatter c], ∀ (n m : Nat) (xs : Nat → Nat) (ys : Nat → Nat), n = (cr.2.1.extractLsb' 0 32).toNat →
      m = (cr.2.1.extractLsb' 32 32).toNat → c.cr.val ≤ 13 → n ≤ 65536 → cr.1.toNat % 4 = 0 → cr.2.2.toNat % 4 = 0 →
      (∀ k < n, s.engWord r (cr.1 + BitVec.ofNat 64 (4 * k)) = .ok (xs k)) →
      (cr.2.2 ≠ 0 → ∀ k < n, xs k < m → s.engWord r (cr.2.2 + BitVec.ofNat 64 (4 * xs k)) = .ok (ys (xs k))) →
      let at' (v : Nat) : List Int := (List.range 5).map (fun d => if d + 1 = h.rank.val then (v : Int) else 0)
      let box (k : Nat) : Option (List Int) := if cr.2.2 = 0 then some (at' (xs k)) else if m ≤ xs k then none
        else if ys (xs k) = 0xFFFFFFFF then none else some (at' (ys (xs k)))
      s.copyEls r i c cr h = .ok ((List.range n).flatMap (fun k => (h.elems k).map (fun e => ⟨k, e, (box k).bind (fun a =>
        h.offsetAt (fun _ => (0, 0)) (List.zipWith (fun (a : Int) (i : Nat) => a + i) a e.ix))⟩))))) ∧
  (∀ (s : State) (t : Thread) (h : Shape) (c : CArgs) (els : List CEl) (vs : List (Nat × Bool)), t.ins ∈ [Instr.copy c, .gather c, .scatter c] →
    s.core.threads.find? (fun y => y.id == t.id) = some t → t.phase = .queued → t.shape = some h → t.coll = none → t.vals = [] →
    t.landed = 0 → t.sched = false → t.pk.prog = none → s.core.forkBlocked t = false →
    (∀ y ∈ s.core.threads, y.id < t.id → y.reading = false ∧ (t.readsPool = true → y.isX = false)) →
    s.copyEls t.reader t.ins c t.cr h = .ok els → vs.length = els.length →
    (∀ i < els.length, ∀ e v, els[i]? = some e → vs[i]? = some v →
      match e.off with
      | none => v = (0, false)
      | some o =>
        if c.sk then
          s.core.padBlocked t.reader ((pairOf t.oa).elemAt h e.el) h.unit = false ∧
          v = (leVal (s.core.pool.bytes (s.core.scratchBase + (pairOf t.oa).elemAt h e.el) h.unit), false)
        else ∃ bs, s.engRead t.reader (t.oa.1 + o) h.unit = .ok (bs, v.2) ∧ v.1 = leVal bs) →
    ∃ (u : State) (js : List Job) (r : EngRes), exec (.copySectorLands t.id) s = .next u ∧ r.flags = 0 ∧ r.flt = none ∧ r.pool = [] ∧ r.side = [] ∧
      u = { s with tlb := u.tlb, core := { s.core with threads := s.core.threads.map (fun y =>
        if y.id = t.id then { y with phase := .running, jobs := js, res := some r, vals := vs, met := none } else y) } } ∧
      (let bytes (a : Nat) (v : Nat) : List (Nat × Byte) := (leBytes h.unit v).mapIdx (fun k b => (a + k, b))
       let pad := (List.zip els vs).flatMap (fun x => bytes ((pairOf t.od).elemAt h x.1.el) x.2.1)
       let mem := (List.zip els vs).flatMap (fun x => match x.1.off with | none => [] | some o => bytes (t.od.1 + o).toNat x.2.1)
       (c.dk = true → JobsHold js JobDest.scratch pad) ∧
       (c.dk = false → JobsHold js (fun a => JobDest.addr (BitVec.ofNat 64 a)) mem) ∧
       (t.ins = .copy c → (els.all (fun e => e.box == 0)) = true → ∃ qs : List Nat, qs.Pairwise (· < ·) ∧
         js.map Job.dest = qs.map (fun q => if c.dk then JobDest.scratch (32 * q) else JobDest.addr (BitVec.ofNat 64 (32 * q)))))) ∧
  (∀ (s : State) (r : Reader) (va : Word) (a : Nat) (ps : List Part) (n : Nat), (va.extractLsb' 56 8).toNat ≠ 0xF9 → s.window s.core va n = .ok (.mem a) →
    s.partsAt (s.asidOf s.core) a n .read = .ok ps → (∀ p ∈ ps, s.core.readBlocked r p = false ∧ s.noRoute s.core p.pa = false) → s.core.ahead = [] →
    (s.farMissing r.uid ps = [] → s.engRead r va n = .ok (s.readParts s.core r.uid ps,
      ps.any (fun p => s.isPoison p.pa p.n || storeBad (s.core.ownStores r.uid) p.pa p.n))) ∧
    ((∀ p ∈ ps, isRemote p.pa = false) → s.farMissing r.uid ps = []))

/-! ## What the element instructions say (R216, R315, R318 to R327) -/

/-- What an element word may hold, row by row of the spec's tables: an assigned opcode, in each field what its form takes
there, and 0 in every field that its form does not use (R216, R217, R319 to R326). -/
def WordAdmitted (w : BitVec 32) : Prop :=
  let op := (w.extractLsb' 26 6).toNat
  let d := (w.extractLsb' 21 5).toNat
  let a := (w.extractLsb' 16 5).toNat
  let b := (w.extractLsb' 11 5).toNat
  let c := (w.extractLsb' 6 5).toNat
  let m := (w.extractLsb' 0 6).toNat
  let sel (x : Nat) : Prop := x < 0x1A
  let reg (x : Nat) : Prop := x < 8
  let carry (x : Nat) : Prop := 0x11 ≤ x ∧ x < 0x15
  let one : Prop := reg d ∧ sel a ∧ b = 0 ∧ c = 0
  let two : Prop := reg d ∧ sel a ∧ sel b ∧ c = 0
  let three : Prop := reg d ∧ sel a ∧ sel b ∧ sel c
  let rows : Nat := match a with | 0 => 16 | 1 => 8 | 2 => 32 | 3 => 32 | _ => 64
  (op ∈ [0x01, 0x02, 0x03, 0x11] ∧ two ∧ m < 4) ∨ (op = 0x04 ∧ three ∧ m < 4) ∨ (op ∈ [0x05, 0x06] ∧ two ∧ m = 0) ∨
  (op ∈ [0x07, 0x08, 0x09, 0x0A, 0x0B, 0x0C, 0x0D] ∧ one ∧ m = 0) ∨ (op = 0x0E ∧ three ∧ m = 0) ∨ (op = 0x0F ∧ two ∧ m < 7) ∨
  (op = 0x10 ∧ ((three ∧ m = 0) ∨ (two ∧ m = 1))) ∨
  (op = 0x12 ∧ reg d ∧ sel a ∧ b < 16 ∧ c = 0 ∧ m % 16 < 7 ∧ (8 ≤ b → m % 16 = 0)) ∨
  (op ∈ [0x18, 0x19, 0x1A, 0x1D, 0x1E, 0x1F, 0x20] ∧ two ∧ m = 0) ∨ (op ∈ [0x1B, 0x1C, 0x21] ∧ two ∧ m < 2) ∨ (op = 0x22 ∧ two ∧ m < 4) ∨
  (op = 0x23 ∧ one ∧ m < 63) ∨ (op = 0x28 ∧ one ∧ m = 0) ∨ (op = 0x29 ∧ reg d ∧ reg a ∧ b = 0 ∧ c = 0 ∧ 1 ≤ m ∧ m < 5) ∨
  (op = 0x2A ∧ reg d ∧ reg a ∧ 8 ≤ b ∧ b < 16 ∧ c = 0 ∧ m = 0) ∨ (op = 0x2B ∧ d = 0x10 ∧ a < 7 ∧ c < 2 ∧ b + 32 * c < rows) ∨
  (op ∈ [0x30, 0x31, 0x32, 0x33] ∧ carry d ∧ sel a ∧ b = 0 ∧ c = 0 ∧ m < 2) ∨ (op = 0x34 ∧ reg d ∧ carry a ∧ sel b ∧ c = 0 ∧ m = 0) ∨
  (op = 0x38 ∧ d = 0 ∧ sel a ∧ sel b ∧ sel c ∧ m < 2) ∨ (op = 0x39 ∧ three ∧ m < 4)

/-- One element instruction of an accepted program (R319 to R326), in a lane whose registers e0 to e7 and carries c0 to c3 are
those of `st`: what it writes, and the flags it raises. `n` is a number's rounded code in the lane's float view. -/
def RunsElements : Prop :=
  (∀ (v : LaneEnv) (st : LaneSt) (k : Fin 8) (j : Fin 4), v.sel st k.val = nth st.e k.val ∧ v.sel st (8 + k.val) = v.slot.k[k.val].toNat ∧
    v.sel st 0x10 = v.q ∧ v.sel st (0x11 + j.val) = nth st.c j.val ∧ v.sel st (0x15 + j.val) = nth v.past j.val ∧
    (v.lane = 0 → v.sel st 0x19 = v.slot.k[7].toNat) ∧ (v.lane ≠ 0 → v.sel st 0x19 = (v.left.map Prod.fst).getD 0)) ∧
  (∀ (v : LaneEnv) (i : Nat) (w : BitVec 32) (st : LaneSt), wordOk w = true → st.e.length = 8 → st.c.length = 4 → v.slot.nant = false →
    let op := (w.extractLsb' 26 6).toNat
    let d := (w.extractLsb' 21 5).toNat
    let ea := (w.extractLsb' 16 5).toNat
    let eb := (w.extractLsb' 11 5).toNat
    let m := (w.extractLsb' 0 6).toNat
    let wide := decide (v.kind = .f64)
    let ff := if wide then ff64 else ff32
    let bits := if wide then 64 else 32
    let a := v.sel st ea
    let b := v.sel st eb
    let c := v.sel st (w.extractLsb' 6 5).toNat
    let x := ff.read (a % 2 ^ bits)
    let y := ff.read (b % 2 ^ bits)
    let z := ff.read (c % 2 ^ bits)
    let rm : Rm := match m % 4 with | 0 => .rne | 1 => .rtz | 2 => .rup | _ => .rdn
    let ia := signedOf 32 a
    let ib := signedOf 32 b
    let ua := a % 2 ^ 32
    let ub := b % 2 ^ 32
    let n (r : Num) : Nat := (ff.put .rne r).1
    let int (r : Int) : Nat := wrapTo 64 (signedOf 32 (wrapTo 32 r))
    let t := runWord v i w st
    let Same : Prop := t.c = st.c ∧ t.flt = st.flt
    let F (r : Coded) : Prop := Same ∧ t.e = st.e.set d r.1 ∧ t.flags = st.flags ||| r.2
    let E (r : Nat) : Prop := Same ∧ t.e = st.e.set d r ∧ t.flags = st.flags
    let C (r : Nat) (fl : Flags) : Prop := t.e = st.e ∧ t.flt = st.flt ∧ t.c = st.c.set (d - 0x11) r ∧ t.flags = st.flags ||| fl
    let cv := nth st.c (d - 0x11)
    let cx := ff.read (cv % 2 ^ bits)
    let Check (ok : Prop) (cause : Cause) (fl : Flags) : Prop := t.e = st.e ∧ t.c = st.c ∧ t.flags = st.flags ||| fl ∧
      (ok → t.flt = st.flt) ∧ (¬ ok → t.flt = st.flt.or (some (i, cause)))
    let f32 (f : Num → Coded) : Coded := if wide then
        let u := ff32.put .rne x
        let r := f (ff32.read u.1)
        ((ff64.put .rne (ff32.read r.1)).1, (if x.isSig then fNV else 0) ||| u.2 ||| r.2)
      else f x
    let sig (l : List Num) : Flags := if l.any Num.isSig then fNV else 0
    (op = 0x01 → F (ff.add rm x y)) ∧ (op = 0x02 → F (ff.sub rm x y)) ∧ (op = 0x03 → F (ff.mul rm x y)) ∧ (op = 0x04 → F (ff.fma rm x y z [x, y, z])) ∧
    (op = 0x05 → F (n (numMin x y).1, (numMin x y).2)) ∧ (op = 0x06 → F (n (numMax x y).1, (numMax x y).2)) ∧
    (op = 0x07 → E (a % 2 ^ (bits - 1))) ∧ (op = 0x08 → E (a % 2 ^ (bits - 1) + (if a.testBit (bits - 1) then 0 else 2 ^ (bits - 1)))) ∧
    (op = 0x09 → F (f32 exp2Arch)) ∧ (op = 0x0A → F (f32 log2Arch)) ∧ (op = 0x0B → F (f32 rcpArch)) ∧ (op = 0x0C → F (f32 rsqArch)) ∧
    (op = 0x0D → F (f32 tanhArch)) ∧ (op = 0x0E → E (if ua ≠ 0 then b else c)) ∧
    (op = 0x0F →
      let un : Prop := x.isNan = true ∨ y.isNan = true
      let h : Prop := match m with
        | 0 => numEq x y = true
        | 1 => numEq x y = false
        | 2 => ¬ un ∧ numLt x y = true
        | 3 => ¬ un ∧ numLt y x = false
        | 4 => ¬ un ∧ numLt y x = true
        | 5 => ¬ un ∧ numLt x y = false
        | _ => un
      Same ∧ t.flags = st.flags ||| sig [x, y] ∧ (h → t.e = st.e.set d 1) ∧ (¬ h → t.e = st.e.set d 0)) ∧
    (op = 0x10 → m = 0 → x.isNan = false → y.isNan = false → z.isNan = false → F (n (numMin (numMax x y).1 z).1, 0)) ∧
    (op = 0x10 → m = 1 → x.isNan = false → y.isNan = false → F (n (numMin (numMax x y.abs.neg).1 y.abs).1, 0)) ∧
    (op = 0x10 → x.isNan = true → Same ∧ t.e = st.e.set d (n x.quiet)) ∧
    (op = 0x11 → (∀ s p q, x = .fin s p q → F (ff.put rm (.fin s p (q + ib)))) ∧ (∀ s, x = .inf s → F (ff.infCode s, 0)) ∧
      (x.isNan = true → F (n x.quiet, sig [x]))) ∧
    (op = 0x12 →
      let r : Rm := match m / 16 % 4 with | 0 => .rne | 1 => .rtz | 2 => .rup | _ => .rdn
      let pol : Ovf := match eb % 4 with | 0 => .sat | 1 => .inf | 2 => .nan | _ => .trap
      let u := if eb.testBit 2 then Num.ofInt ia else x
      let f : Fmt := match m % 16 with | 0 => .fp32 | 1 => .fp64 | 2 => .fp16 | 3 => .bf16 | 4 => .e4m3 | 5 => .e5m2 | _ => .int8
      let Done (q : Conv) (val : Nat) : Prop := t.c = st.c ∧ t.e = st.e.set d val ∧ t.flags = st.flags ||| q.flags ∧
        (q.fault = false → t.flt = st.flt) ∧ (q.fault = true → t.flt = st.flt.or (some (i, Cause.elemOverflow)))
      (eb.testBit 3 = true → Done (convInt 32 r pol u) (int (signedOf 32 (convInt 32 r pol u).code))) ∧
      (eb.testBit 3 = false → f = .int8 → Done (convInt 8 r pol u) (int (signedOf 8 (convInt 8 r pol u).code))) ∧
      (eb.testBit 3 = false → f ≠ .int8 → (f = .fp64 → wide = true) → Done (f.ff.conv r pol u) (n (f.ff.read (f.ff.conv r pol u).code))) ∧
      (eb.testBit 3 = false → f = .fp64 → wide = false → Done (ff32.conv r pol u) (ff32.conv r pol u).code)) ∧
    (op = 0x18 → E (int (ia + ib))) ∧ (op = 0x19 → E (int (ia - ib))) ∧ (op = 0x1A → E (int (ia * ib))) ∧
    (op = 0x1B → E (int (if m = 1 then min (ua : Int) ub else min ia ib))) ∧ (op = 0x1C → E (int (if m = 1 then max (ua : Int) ub else max ia ib))) ∧
    (op = 0x1D → E (int (ua &&& ub : Nat))) ∧ (op = 0x1E → E (int (ua ||| ub : Nat))) ∧ (op = 0x1F → E (int (ua ^^^ ub : Nat))) ∧
    (op = 0x20 → E (int (ua * 2 ^ (ub % 32) : Nat))) ∧ (op = 0x21 → E (int (if m = 1 then ia / 2 ^ (ub % 32) else (ua / 2 ^ (ub % 32) : Nat)))) ∧
    (op = 0x22 → ∃ r : Int, E (int r) ∧ r = (let q : Int := ia / 2 ^ (ub % 32)
      let rest : Int := ia % 2 ^ (ub % 32)
      match rm with
      | .rdn => q
      | .rup => if rest = 0 then q else q + 1
      | .rtz => if rest = 0 ∨ 0 ≤ ia then q else q + 1
      | .rne => if 2 * rest < 2 ^ (ub % 32) ∨ (2 * rest = 2 ^ (ub % 32) ∧ q % 2 = 0) then q else q + 1)) ∧
    (op = 0x23 →
      let lo : Int := if m.testBit 5 then 0 else -(2 ^ (m % 32))
      let hi : Int := if m.testBit 5 then 2 ^ (m % 32 + 1) - 1 else 2 ^ (m % 32) - 1
      E (int (max lo (min ia hi)))) ∧
    (op = 0x28 → E a) ∧ (op = 0x29 → E (nth (v.pastTr.getD (m - 1) []) i)) ∧
    (op = 0x2A → (v.lane = 0 → E b) ∧ (v.lane ≠ 0 → E ((v.left.map (fun l => nth l.2 i)).getD 0))) ∧
    (op = 0x2B → Same ∧ t.e = st.e ∧ t.flags = st.flags) ∧
    (op = 0x30 → if m = 1 then C (int (max (signedOf 32 cv) ia)) 0 else C (n (numMax cx x).1) (numMax cx x).2) ∧
    (op = 0x31 → if m = 1 then C (int (min (signedOf 32 cv) ia)) 0 else C (n (numMin cx x).1) (numMin cx x).2) ∧
    (op = 0x32 → if m = 1 then C (int (signedOf 32 cv + ia)) 0 else C (ff.add .rne cx x).1 (ff.add .rne cx x).2) ∧
    (op = 0x33 → (m = 0 ∨ v.el.seg = true → C a 0) ∧ (m = 1 → v.el.seg = false → Same ∧ t.e = st.e ∧ t.flags = st.flags)) ∧
    (op = 0x34 → t.e = st.e.set d a ∧ t.c = st.c.set (ea - 0x11) b ∧ t.flags = st.flags ∧ t.flt = st.flt) ∧
    (op = 0x38 → m = 1 → Check (ib ≤ ia ∧ ia ≤ signedOf 32 c) Cause.elemRange 0) ∧
    (op = 0x38 → m = 0 → Check (x.isNan = false ∧ y.isNan = false ∧ z.isNan = false ∧ numLt x y = false ∧ numLt z x = false) Cause.elemRange (sig [x, y, z])) ∧
    (op = 0x39 →
      let dl : Int := (v.el.col : Int) - v.el.row
      let h : Prop := match m with | 0 => ib < dl | 1 => ib ≤ dl | 2 => dl < ib | _ => dl ≤ ib
      (h → E c) ∧ (¬ h → E a))) ∧
  (∀ (v : LaneEnv) (i : Nat) (w : BitVec 32) (ws : List (BitVec 32)) (st : LaneSt),
    runWords v i [] st = st ∧ runWords v i (w :: ws) st = runWords v (i + 1) ws (runWord v i w st) ∧
    (v.slot.nant = true →
      let op := (w.extractLsb' 26 6).toNat
      let t := runWord { v with slot := { v.slot with nant := false } } i w st
      let val := nth t.e (w.extractLsb' 21 5).toNat
      let r := (if v.kind = .f64 then ff64 else ff32).read (val % (if v.kind = .f64 then 2 ^ 64 else 2 ^ 32))
      ((1 ≤ op ∧ op ≤ 0x0D) ∨ op = 0x10 ∨ op = 0x11 → runWord v i w st = (if r.isNan then { t with flt := t.flt.or (some (i, Cause.elemNan)) } else t)) ∧
      (op = 0 ∨ (0x0D < op ∧ op < 0x10) ∨ 0x12 < op → runWord v i w st = t)))

end Sys2Proof.Machine
end

