-- ==== Sys2Proof/Certificates/Slice0/Obligations.lean ====
section
/-! DEFINITION. The statements for the provers, each from the numbered rules of the spec that its docstring names. -/

open Sys2Proof Sys2Proof.Machine

/-- ADD, SUB, MUL, MULH, MULHU, DIV, DIVU, REM, REMU, AND, OR, XOR, ANDN, SHL, SHR, SHA, ROT, MIN, MINU, MAX and MAXU
complete in every state; Sd takes the 64-bit result of R219 (a zero divisor and the signed overflow included), a write
to S0 leaves it 0, and nothing else changes: no other register, no flag, no byte of memory, no trap. (R219.) -/
def Obligations.IntegerFormsResult : Prop :=
  ∀ (s : State) (d a : SReg) (b : Src), ∀ x y : Word, s.rs a = x → s.src b = y →
    s.GivesS (.add d a b) d (x + y) ∧ s.GivesS (.sub d a b) d (x - y) ∧ s.GivesS (.mul d a b) d (x * y) ∧
    s.GivesS (.mulh d a b) d ((x.signExtend 128 * y.signExtend 128).extractLsb' 64 64) ∧
    s.GivesS (.mulhu d a b) d ((x.setWidth 128 * y.setWidth 128).extractLsb' 64 64) ∧
    s.GivesS (.div d a b) d (if y = 0 then BitVec.allOnes 64 else x.sdiv y) ∧
    s.GivesS (.divu d a b) d (if y = 0 then BitVec.allOnes 64 else x.udiv y) ∧
    s.GivesS (.rem d a b) d (if y = 0 then x else x.srem y) ∧
    s.GivesS (.remu d a b) d (if y = 0 then x else x.umod y) ∧
    s.GivesS (.and d a b) d (x &&& y) ∧ s.GivesS (.or d a b) d (x ||| y) ∧ s.GivesS (.xor d a b) d (x ^^^ y) ∧
    s.GivesS (.andn d a b) d (x &&& ~~~y) ∧
    s.GivesS (.shl d a b) d (x <<< (y &&& 63#64)) ∧ s.GivesS (.shr d a b) d (x >>> (y &&& 63#64)) ∧
    s.GivesS (.sha d a b) d (x.sshiftRight' (y &&& 63#64)) ∧
    s.GivesS (.rot d a b) d ((x >>> (y.toNat % 64)) ||| (x <<< ((64 - y.toNat % 64) % 64))) ∧
    s.GivesS (.min d a b) d (if x.toInt < y.toInt then x else y) ∧
    s.GivesS (.minu d a b) d (if x.toNat < y.toNat then x else y) ∧
    s.GivesS (.max d a b) d (if x.toInt < y.toInt then y else x) ∧
    s.GivesS (.maxu d a b) d (if x.toNat < y.toNat then y else x)

/-- CLZ, CTZ and POPC give the counts of R220 (64 for an all-zero source of CLZ and CTZ); BFX, BFI and SEXT, for every
position and width their encoding admits, give the bits of R220; each completes and changes Sd alone. (R220.) -/
def Obligations.BitCountAndFieldResults : Prop :=
  ∀ (s : State) (d a : SReg) (x : Word), s.rs a = x →
    (∃ n ≤ 64, s.GivesS (.clz d a) d (BitVec.ofNat 64 n) ∧ (∀ k, 64 - n ≤ k → x.getLsbD k = false) ∧
      (n < 64 → x.getLsbD (63 - n) = true)) ∧
    (∃ n ≤ 64, s.GivesS (.ctz d a) d (BitVec.ofNat 64 n) ∧ (∀ k < n, x.getLsbD k = false) ∧
      (n < 64 → x.getLsbD n = true)) ∧
    s.GivesS (.popc d a) d (BitVec.ofNat 64 ((List.range 64).countP (fun k => x.getLsbD k))) ∧
    (∀ pos width, 1 ≤ width → pos + width ≤ 64 →
      (∃ v, s.GivesS (.bfx d a pos width) d v ∧ ∀ k, v.getLsbD k = (decide (k < width) && x.getLsbD (pos + k))) ∧
      (∃ v, s.GivesS (.bfi d a pos width) d v ∧ ∀ k < 64, v.getLsbD k =
        if pos ≤ k ∧ k < pos + width then x.getLsbD (k - pos) else (s.rs d).getLsbD k)) ∧
    (∀ n, 1 ≤ n → n ≤ 64 → ∃ v, s.GivesS (.sext d a n) d v ∧ ∀ k < 64, v.getLsbD k = x.getLsbD (min k (n - 1)))

/-- LI gives Sd the immediate sign-extended; LIH puts it in bits 63 to 32 and keeps bits 31 to 0 of Sd as the bundle found
it; NOP completes and changes nothing at all. (R221, R201.) -/
def Obligations.LoadImmediateResults : Prop :=
  ∀ (s : State) (d : SReg) (v : BitVec 32),
    (∃ w : Word, w.toInt = v.toInt ∧ s.GivesS (.li d v) d w) ∧
    (∃ w : Word, w.extractLsb' 32 32 = v ∧ w.extractLsb' 0 32 = (s.rs d).extractLsb' 0 32 ∧ s.GivesS (.lih d v) d w) ∧
    exec .nop s = .next s

/-- The ten CMP conditions decide on the two sources as signed or unsigned integers; PAND, POR and PNOT combine
predicates; each writes Pd alone and P0 still reads true. SEL gives Sd the first source when P[p] XOR invert holds and
the second otherwise, changing Sd alone. (R222.) -/
def Obligations.PredicateFormsResult : Prop :=
  (∀ (s : State) (d : PReg) (a : SReg) (b : Src), ∀ x y : Word, s.rs a = x → s.src b = y →
    s.GivesP (.cmp .eq d a b) d (decide (x = y)) ∧ s.GivesP (.cmp .ne d a b) d (decide (x ≠ y)) ∧
    s.GivesP (.cmp .lt d a b) d (decide (x.toInt < y.toInt)) ∧ s.GivesP (.cmp .ge d a b) d (decide (y.toInt ≤ x.toInt)) ∧
    s.GivesP (.cmp .ltu d a b) d (decide (x.toNat < y.toNat)) ∧ s.GivesP (.cmp .geu d a b) d (decide (y.toNat ≤ x.toNat)) ∧
    s.GivesP (.cmp .le d a b) d (decide (x.toInt ≤ y.toInt)) ∧ s.GivesP (.cmp .gt d a b) d (decide (y.toInt < x.toInt)) ∧
    s.GivesP (.cmp .leu d a b) d (decide (x.toNat ≤ y.toNat)) ∧ s.GivesP (.cmp .gtu d a b) d (decide (y.toNat < x.toNat))) ∧
  (∀ (s : State) (d a b : PReg),
    s.GivesP (.pand d a b) d (s.rp a && s.rp b) ∧ s.GivesP (.por d a b) d (s.rp a || s.rp b) ∧
    s.GivesP (.pnot d a) d (!s.rp a)) ∧
  (∀ (s : State) (d : SReg) (p : PReg) (inv : Bool) (a : SReg) (b : Src),
    s.GivesS (.sel d p inv a b) d (if xor (s.rp p) inv then s.rs a else s.src b))

/-- Whatever is in the register file, S0 reads 0 and P0 reads true; a write to S0 or P0 leaves the state as it was; a
write to any other S or P register reads back and leaves every other register, and everything outside the register
file, alone. (R42, R17.) -/
def Obligations.RegisterZeroHardWired : Prop :=
  (∀ (s : State) (v : Word) (b : Bool), s.core.arch.rs 0 = 0 ∧ s.core.arch.rp 0 = true ∧ s.ws 0 v = s ∧ s.wp 0 b = s) ∧
  (∀ (s : State) (d : SReg) (v : Word), s.WroteS (s.ws d v) d v) ∧
  (∀ (s : State) (d : PReg) (v : Bool), s.WroteP (s.wp d v) d v)

/-- FADD, FSUB, FMUL and FFMA give Sd the rounded result of the exact sum, difference, product or product-sum of their
sources; FMIN and FMAX the smaller or larger; FCVT the converted value; an FP32 result leaves bits 63 to 32 zero. Each
completes in every state, ORs its flags into XFLAGS and changes nothing else. Of finite operands the value rounded is
exact, and rounded once; a zero one is −0 when every term is −0, or by the signs of a product's factors; ∞ − ∞ and 0 × ∞
are the canonical NaN with NV, and a NaN operand comes back quiet with its sign and payload. The rounding itself is
what ScalarRoundingIsCorrect states. A conversion to I64 gives the value rounded to an integer in the named direction, NX
set exactly when that changes it; out of range −2^63 or 2^63 − 1 with OF and NX; an infinity the same bounds with NV; a
NaN 0 with NV. (R223, R224, R226, R66, R73.) -/
def Obligations.ScalarFloatComplete : Prop :=
  (∀ (s : State) (f : SFmt) (rm : Rm) (d a b : SReg), ∀ x y z : Machine.Num,
    fRead f (s.rs a) = x → fRead f (s.rs b) = y → fRead f (s.rs d) = z →
    s.GivesSF (.fadd f rm d a b) d (fWord f (f.ff.add rm x y).1) (f.ff.add rm x y).2 ∧
    s.GivesSF (.fsub f rm d a b) d (fWord f (f.ff.sub rm x y).1) (f.ff.sub rm x y).2 ∧
    s.GivesSF (.fmul f rm d a b) d (fWord f (f.ff.mul rm x y).1) (f.ff.mul rm x y).2 ∧
    s.GivesSF (.ffma f rm d a b) d (fWord f (f.ff.fma rm x y z [x, y, z]).1) (f.ff.fma rm x y z [x, y, z]).2 ∧
    s.GivesSF (.fmin f d a b) d (fWord f (f.ff.put .rne (numMin x y).1).1) (numMin x y).2 ∧
    s.GivesSF (.fmax f d a b) d (fWord f (f.ff.put .rne (numMax x y).1).1) (numMax x y).2 ∧
    s.GivesSF (.fcvt .f64f32 rm d a) d (fWord .f64 (ff64.put rm (fRead .f32 (s.rs a))).1)
      ((ff64.put rm (fRead .f32 (s.rs a))).2 ||| sigFlags [fRead .f32 (s.rs a)]) ∧
    s.GivesSF (.fcvt .f32f64 rm d a) d (fWord .f32 (ff32.put rm (fRead .f64 (s.rs a))).1)
      ((ff32.put rm (fRead .f64 (s.rs a))).2 ||| sigFlags [fRead .f64 (s.rs a)]) ∧
    s.GivesSF (.fcvt .i64f32 rm d a) d (fWord .f64 (convInt 64 rm .sat (fRead .f32 (s.rs a))).code)
      (convInt 64 rm .sat (fRead .f32 (s.rs a))).flags ∧
    s.GivesSF (.fcvt .i64f64 rm d a) d (fWord .f64 (convInt 64 rm .sat (fRead .f64 (s.rs a))).code)
      (convInt 64 rm .sat (fRead .f64 (s.rs a))).flags ∧
    s.GivesSF (.fcvt .f32i64 rm d a) d (fWord .f32 (ff32.put rm (Machine.Num.ofInt (s.rs a).toInt)).1)
      (ff32.put rm (Machine.Num.ofInt (s.rs a).toInt)).2 ∧
    s.GivesSF (.fcvt .f64i64 rm d a) d (fWord .f64 (ff64.put rm (Machine.Num.ofInt (s.rs a).toInt)).1)
      (ff64.put rm (Machine.Num.ofInt (s.rs a).toInt)).2) ∧
  (∀ (f : FF) (rm : Rm) (x y z : Machine.Num), x.IsFinite → y.IsFinite → z.IsFinite →
    let Rounds (c : Coded) (v : ℚ) (g : Bool) : Prop := ∃ (h : Bool) (m : Nat) (e : Int), (Machine.Num.fin h m e).val = v ∧
      (v = 0 → h = g) ∧ c = f.fin rm h m e false
    Rounds (f.add rm x y) (x.val + y.val) (x.sign && y.sign) ∧ Rounds (f.sub rm x y) (x.val - y.val) (x.sign && !y.sign) ∧
    Rounds (f.mul rm x y) (x.val * y.val) (xor x.sign y.sign) ∧
    Rounds (f.fma rm x y z [x, y, z]) (x.val * y.val + z.val) ((xor x.sign y.sign) && z.sign)) ∧
  (∀ (f : FF) (rm : Rm) (g h : Bool) (p : Nat) (q : Bool) (x : Machine.Num),
    (x.IsFinite → f.add rm (.inf g) x = (f.infCode g, 0) ∧ f.add rm x (.inf g) = (f.infCode g, 0)) ∧
    f.add rm (.inf g) (.inf h) = (if g = h then (f.infCode g, 0) else (f.canon, fNV)) ∧
    (x.IsFinite → f.mul rm (.inf g) x = (if x.val = 0 then (f.canon, fNV) else (f.infCode (xor g x.sign), 0))) ∧
    f.mul rm (.inf g) (.inf h) = (f.infCode (xor g h), 0) ∧
    f.add rm (.nan g p q) x = (f.nanCode g p, if q || x.isSig then fNV else 0) ∧
    (x.isNan = false → f.add rm x (.nan g p q) = (f.nanCode g p, if q then fNV else 0)) ∧
    f.mul rm (.nan g p q) x = (f.nanCode g p, if q || x.isSig then fNV else 0)) ∧
  (∀ (rm : Rm) (x : Machine.Num), ∀ (c : Nat) (fl : Flags), (convInt 64 rm .sat x).code = c → (convInt 64 rm .sat x).flags = fl →
    (x.isNan = true → c = 0 ∧ fl = fNV) ∧ (∀ g, x = .inf g → c = (if g then 2 ^ 63 else 2 ^ 63 - 1) ∧ fl = fNV) ∧
    (x.IsFinite → ∃ n : Int,
      (match rm with
        | .rne => |x.val - n| ≤ 1 / 2 ∧ (|x.val - n| = 1 / 2 → n % 2 = 0)
        | .rtz => |(n : ℚ)| ≤ |x.val| ∧ |x.val| < |(n : ℚ)| + 1 ∧ 0 ≤ n * x.val
        | .rup => x.val ≤ n ∧ (n : ℚ) < x.val + 1
        | .rdn => (n : ℚ) ≤ x.val ∧ x.val < n + 1) ∧
      (-(2 ^ 63) ≤ n → n < 2 ^ 63 → c < 2 ^ 64 ∧ (BitVec.ofNat 64 c).toInt = n ∧ fl = if (n : ℚ) = x.val then 0 else fNX) ∧
      (n < -(2 ^ 63) → c = 2 ^ 63 ∧ fl = fOF ||| fNX) ∧ (2 ^ 63 ≤ n → c = 2 ^ 63 - 1 ∧ fl = fOF ||| fNX)))

/-- A finite nonzero value ±m × 2^e that does not overflow FP32 or FP64 rounds to a code of the format, of its sign, whose
value is nearest under RNE (on a tie the one with an even mantissa bit), the largest in magnitude not beyond it under
RTZ, the least not below it under RUP and the greatest not above it under RDN, among all the finite values of the
format; NX is set exactly when the value changes, and UF exactly when it changes and, rounded with an unbounded exponent,
lies below the smallest normal value in magnitude. One that overflows is larger than every finite value; it gives the
infinity of its sign under RNE and in the direction of RUP or RDN, the largest finite value of its sign otherwise, with
OF and NX. (R224, R60, R61, R64.) -/
def Obligations.ScalarRoundingIsCorrect : Prop :=
  ∀ (f : SFmt) (rm : Rm) (g : Bool) (m : Nat) (e : Int), m ≠ 0 →
    ∀ (x y : ℚ) (c : Nat) (fl : Flags), f.ff.fin rm g m e false = (c, fl) → x = (Machine.Num.fin g m e).val → y = (f.ff.read c).val →
    let least : ℚ := (match f with | .f32 => 2 ^ (-126 : Int) | .f64 => 2 ^ (-1022 : Int))
    let gap : ℚ := (match f with | .f32 => least / 2 ^ 24 | .f64 => least / 2 ^ 53)
    let tiny : Prop := |x| < least ∧ (match rm with
      | .rne => |x| < least - gap / 2
      | .rtz => True
      | .rup => g = true ∨ |x| ≤ least - gap
      | .rdn => g = false ∨ |x| ≤ least - gap)
    c < 2 ^ fBits f ∧ (f.ff.read c).sign = g ∧
    ((f.ff.round rm g m e false).past = false → (f.ff.read c).IsFinite ∧ (fl &&& fNX = 0 ↔ y = x) ∧ (fl &&& fUF ≠ 0 ↔ y ≠ x ∧ tiny) ∧
      ∀ k < 2 ^ fBits f, (f.ff.read k).IsFinite →
        match rm with
        | .rne => |x - y| ≤ |x - (f.ff.read k).val| ∧ (|x - y| = |x - (f.ff.read k).val| → (f.ff.read k).val ≠ y → c % 2 = 0)
        | .rtz => |y| ≤ |x| ∧ (|(f.ff.read k).val| ≤ |x| → |(f.ff.read k).val| ≤ |y|)
        | .rup => x ≤ y ∧ (x ≤ (f.ff.read k).val → y ≤ (f.ff.read k).val)
        | .rdn => y ≤ x ∧ ((f.ff.read k).val ≤ x → (f.ff.read k).val ≤ y)) ∧
    ((f.ff.round rm g m e false).past = true → fl = fOF ||| fNX ∧
      (∀ k < 2 ^ fBits f, (f.ff.read k).IsFinite → |(f.ff.read k).val| < |x|) ∧
      ((rm = .rne ∨ (rm = .rup ∧ g = false) ∨ (rm = .rdn ∧ g = true)) → f.ff.read c = .inf g) ∧
      ((rm = .rtz ∨ (rm = .rup ∧ g = true) ∨ (rm = .rdn ∧ g = false)) → (f.ff.read c).IsFinite ∧
        ∀ k < 2 ^ fBits f, (f.ff.read k).IsFinite → |(f.ff.read k).val| ≤ |y|))

/-- FCMP completes in every state and writes Pd alone: with a NaN operand EQ, LT, LE, GT and GE are false and NE and UN
true; without one each of EQ, NE, LT, LE, GT and GE is fixed by the two values, finite ones compared exactly (+0 equals
−0), −∞ below and +∞ above every finite one, and UN is false; NV is raised for a signalling NaN alone. FCLASS completes
and sets exactly one bit, the class of its operand, and no flag. (R225, R227.) -/
def Obligations.FloatCompareAndClass : Prop :=
  (∀ (s : State) (f : SFmt) (d : PReg) (a b : SReg) (cc : FCond), ∀ x y : Machine.Num, fRead f (s.rs a) = x → fRead f (s.rs b) = y →
    let nan : Prop := x.isNan = true ∨ y.isNan = true
    let eq : Prop := match x, y with
      | .fin .., .fin .. => x.val = y.val
      | .inf g, .inf h => g = h
      | _, _ => False
    let lt : Prop := match x, y with
      | .fin .., .fin .. => x.val < y.val
      | .inf g, .inf h => g = true ∧ h = false
      | .inf g, .fin .. => g = true
      | .fin .., .inf h => h = false
      | _, _ => False
    ∃ t : State, exec (.fcmp cc f d a b) s = .next t ∧
      (t.core.arch.rp d = true ↔ d = 0 ∨ match cc with
        | .eq => ¬ nan ∧ eq
        | .ne => nan ∨ ¬ eq
        | .lt => ¬ nan ∧ lt
        | .le => ¬ nan ∧ (lt ∨ eq)
        | .gt => ¬ nan ∧ ¬ lt ∧ ¬ eq
        | .ge => ¬ nan ∧ ¬ lt
        | .un => nan) ∧
      (∀ q, q ≠ d → t.core.arch.rp q = s.core.arch.rp q) ∧
      t = { s with core := { s.core with arch := { s.core.arch with
        p := t.core.arch.p,
        xflags := s.core.arch.xflags ||| (if x.isSig || y.isSig then fNV else 0) } } }) ∧
  (∀ (s : State) (f : SFmt) (d a : SReg), ∃ k < 10, s.GivesS (.fclass f d a) d (BitVec.ofNat 64 (2 ^ k)) ∧
    (match fRead f (s.rs a) with
      | .inf true => k = 0 | .inf false => k = 7
      | .nan _ _ true => k = 8 | .nan _ _ false => k = 9
      | .fin true 0 _ => k = 3 | .fin false 0 _ => k = 4
      | .fin true _ _ => k = (if (s.rs a).toNat / 2 ^ f.ff.fb % 2 ^ f.ff.eb = 0 then 2 else 1)
      | .fin false _ _ => k = (if (s.rs a).toNat / 2 ^ f.ff.fb % 2 ^ f.ff.eb = 0 then 5 else 6)))

/-- LEA gives Sd the sum of Sa and Sb times 1, 2, 4 or 8, or of Sa and the sign-extended immediate, modulo 2^64, in every
state and for every value; it raises nothing and changes Sd alone. SPTEST completes in every state with the code of R229:
0 GLOBAL, 1 PRIVATE below 2^PSZ, 2 the own scratchpad below its size, 3 another core's, 4 a live, online CLUS position (at
the own position too, whatever the offset: log 38 deduces that), 5 another one, 7 the rest. SPCAST gives, for every code
and every target window, the pointer or the trap at the S slot of R230's table. (R228, R229, R230, R157.) -/
def Obligations.PointerForms : Prop :=
  (∀ (s : State) (d a r : SReg) (k : Fin 4) (v : BitVec 23),
    s.GivesS (.lea d a (.scaled r k)) d (s.rs a + (s.rs r <<< k.val)) ∧
    s.GivesS (.lea d a (.imm v)) d (s.rs a + v.signExtend 64)) ∧
  (∀ (s : State) (d a : SReg) (va : Word), s.rs a = va → s.GivesS (.sptest d a) d (BitVec.ofNat 64 (s.ptrClass va)) ∧
    s.ptrClass va =
      (if wbits va 63 57 = 0 then 0
      else if wbits va 63 56 = 0xF0 then
        (match assoc s.descs (s.asidOf s.core) with
         | some x => if wbits va 55 0 < 2 ^ x.psz then 1 else 7
         | none => 7)
      else if wbits va 63 56 = 0xF8 ∧ wbits va 47 32 = 0 then
        (if wbits va 55 48 ≠ s.logical s.core.id then 3 else if wbits va 31 0 < s.core.scratchSize then 2 else 7)
      else if wbits va 63 56 = 0xF9 ∧ wbits va 55 51 = 0 ∧ wbits va 47 32 = 0 then
        (if s.online (s.core.id / 8 * 8 + wbits va 50 48) = true then 4 else 5)
      else 7)) ∧
  (∀ (s : State) (d a : SReg) (va : Word), s.rs a = va →
    let gives (w : Win) (v : Word) : Prop := s.GivesS (.spcast d a w) d v
    let raises (w : Win) (c : Cause) : Prop := exec (.spcast d a w) s = .next (s.takeTrap [⟨0, c, va, 0, none⟩])
    let ptr (top mid off : Nat) : Word := BitVec.ofNat 64 (top * 2 ^ 56 + mid * 2 ^ 48 + off)
    let off : Nat := va.toNat % 2 ^ 32
    (s.ptrClass va = 0 → gives .global va ∧ raises .scratch Cause.windowBad ∧ raises .clus Cause.windowBad ∧
      ∀ x, assoc s.descs (s.asidOf s.core) = some x → ∀ base, base = x.privbase + s.core.slotNo * 2 ^ x.psz →
        (base ≤ va.toNat → va.toNat < base + 2 ^ x.psz → gives .priv (ptr 0xF0 0 (va.toNat - base))) ∧
        ((va.toNat < base ∨ base + 2 ^ x.psz ≤ va.toNat) → raises .priv Cause.privateRange)) ∧
    (s.ptrClass va = 1 → gives .priv va ∧ raises .scratch Cause.windowBad ∧ raises .clus Cause.windowBad ∧
      ∀ x, assoc s.descs (s.asidOf s.core) = some x →
        gives .global (BitVec.ofNat 64 (x.privbase + s.core.slotNo * 2 ^ x.psz + wbits va 55 0))) ∧
    ((s.ptrClass va = 2 ∨ s.ptrClass va = 3 ∨ s.ptrClass va = 4 ∨ s.ptrClass va = 5) →
      raises .global Cause.windowBad ∧ raises .priv Cause.windowBad) ∧
    (s.ptrClass va = 2 → gives .scratch va ∧ gives .clus (ptr 0xF9 (s.core.id % 8) off)) ∧
    (s.ptrClass va = 3 → raises .scratch Cause.scratchForeign ∧ ∀ l q, l = wbits va 55 48 → q = s.physical l →
      (l < 8 * perDie s.grade → q / 8 = s.core.id / 8 → gives .clus (ptr 0xF9 (q % 8) off)) ∧
      ((8 * perDie s.grade ≤ l ∨ q / 8 ≠ s.core.id / 8) → raises .clus Cause.clusterForeign)) ∧
    (s.ptrClass va = 4 → gives .clus va ∧
      (wbits va 50 48 = s.core.id % 8 → gives .scratch (ptr 0xF8 (s.logical s.core.id) off)) ∧
      (wbits va 50 48 ≠ s.core.id % 8 → raises .scratch Cause.scratchForeign)) ∧
    (s.ptrClass va = 5 → raises .scratch Cause.scratchForeign ∧ raises .clus Cause.clusterForeign) ∧
    (s.ptrClass va = 7 → ∃ c, s.window s.core va 1 = .error c ∧ ∀ w, raises w c))

/-- A taken BR, JMP, CALL, JMPR or RET sets the core to go on at its target: PC + 32 × OFF, or the register with bits 4 to
0 cleared; CALL and JMPR link PC + 32; a BR whose predicate does not hold changes nothing. BR, JMP and JMPR to a
target at or below their own PC end the restart interval, CALL and RET do not. Nothing but the core in focus changes.
(R231, R175.) -/
def Obligations.TransfersTarget : Prop :=
  (∀ (s : State) (p : PReg) (inv : Bool) (off : BitVec 31),
    exec (.br p inv off) s = .next (if xor (s.rp p) inv then
      { s with core := { s.core with
          npc := some (s.core.src.pc + off.signExtend 64 * 32),
          closes := s.core.closes || decide ((s.core.src.pc + off.signExtend 64 * 32) ≤ s.core.src.pc) } } else s)) ∧
  (∀ (s : State) (off : BitVec 31), exec (.jmp off) s = .next
      { s with core := { s.core with
          npc := some (s.core.src.pc + off.signExtend 64 * 32),
          closes := s.core.closes || decide ((s.core.src.pc + off.signExtend 64 * 32) ≤ s.core.src.pc) } }) ∧
  (∀ (s : State) (d : SReg) (off : BitVec 31), ∃ u, s.WroteS u d (s.core.src.pc + 32) ∧ exec (.call d off) s = .next
      { u with core := { u.core with npc := some (s.core.src.pc + off.signExtend 64 * 32) } }) ∧
  (∀ (s : State) (d a : SReg), ∃ u, s.WroteS u d (s.core.src.pc + 32) ∧ exec (.jmpr d a) s = .next
      { u with core := { u.core with
          npc := some (s.rs a &&& ~~~31#64),
          closes := s.core.closes || decide ((s.rs a &&& ~~~31#64) ≤ s.core.src.pc) } }) ∧
  (∀ (s : State) (a : SReg), exec (.ret a) s = .next { s with core := { s.core with npc := some (s.rs a &&& ~~~31#64) } })

/-- With a trip count of 0 LOOP pushes no entry and the core goes on at LOOP PC + 32 × (END + 1); with a count below 2^31
and fewer than six active entries it pushes start, end, the count and INDEX 0 on top of the stack; otherwise it raises
OPERAND_FORM at the S slot. The count is CNT, S[SA] or SEQL. When P[SA] XOR invert holds BRKL pops the innermost entry
and the core goes on at its end PC + 32; with no entry active it raises OPERAND_FORM; when the predicate does not hold
it changes nothing. (R233, R235.) -/
def Obligations.LoopOpensAndBreaks : Prop :=
  (∀ (s : State) (src : TripSrc) (len : Nat) (n : Nat),
    n = (match src with | .cnt v => v.toNat | .reg a => (s.rs a).toNat | .seql => s.core.src.seql.toNat) →
    (n = 0 → exec (.loop src len) s = .next
      { s with core := { s.core with npc := some (s.core.src.pc + BitVec.ofNat 64 (32 * (len + 1))) } }) ∧
    (n ≠ 0 → n < 2 ^ 31 → s.core.src.loops.length < 6 → exec (.loop src len) s = .next
      { s with core := { s.core with arch := { s.core.arch with loops := s.core.arch.loops ++
        [⟨s.core.src.pc + 32, s.core.src.pc + BitVec.ofNat 64 (32 * len), BitVec.ofNat 31 n, 0⟩] } } }) ∧
    (n ≠ 0 → (2 ^ 31 ≤ n ∨ 6 ≤ s.core.src.loops.length) → exec (.loop src len) s =
      .next (s.takeTrap [⟨0, Cause.operandForm, 0, 0, none⟩]))) ∧
  (∀ (s : State) (p : PReg) (inv : Bool),
    (xor (s.rp p) inv = false → exec (.brkl p inv) s = .next s) ∧
    (xor (s.rp p) inv = true → ∀ ls e, s.core.src.loops = ls ++ [e] → s.core.arch.loops = s.core.src.loops →
      exec (.brkl p inv) s = .next { s with core := { s.core with arch := { s.core.arch with loops := ls }, npc := some (e.stop + 32) } }) ∧
    (xor (s.rp p) inv = true → s.core.src.loops = [] →
      exec (.brkl p inv) s = .next (s.takeTrap [⟨0, Cause.operandForm, 0, 0, none⟩])))

/-- A bundle at the innermost entry's end PC that completes without a transfer of its own adds 1 to INDEX; while INDEX + 1
is below TRIP the core goes on at the entry's start and a restart point follows; otherwise the entry is popped, and the
outer entries that end on the same bundle take their turns: however many are exhausted are popped, and the first that
is not goes on at its start; when none is left or the next ends elsewhere the core goes on at PC + 32, which is a
restart point too. A bundle elsewhere leaves the stack and moves on by 32. HALT and TRAP replace the step: the bundle
ends with what they do. A bundle takes the step when its slots are done. The model's own readings: a bundle whose
predicate is false takes it too and ends its stall (log 25), and a taken transfer, a LOOP of count 0 among them,
replaces it and goes to its target (log 26). (R234, R236, R237.) -/
def Obligations.BackEdgeStep : Prop :=
  (∀ (c : Core) (e : LoopEnt) (ls es : List LoopEnt), c.arch.loops = ls ++ e :: es → e.stop = c.arch.pc → c.npc = none →
    (∀ x ∈ es, x.stop = c.arch.pc ∧ x.trip.toNat ≤ x.index.toNat + 1) → e.index.toNat + 1 < e.trip.toNat →
    (c.complete true).arch.pc = e.start ∧ (c.complete true).arch.loops = ls ++ [{ e with index := e.index + 1 }] ∧
    (c.complete true).atRp = true ∧ (c.complete true).ckpt = (c.complete true).arch) ∧
  (∀ (c : Core) (ls es : List LoopEnt), c.arch.loops = ls ++ es → es ≠ [] → c.npc = none →
    (∀ x ∈ es, x.stop = c.arch.pc ∧ x.trip.toNat ≤ x.index.toNat + 1) → (∀ f, ls.getLast? = some f → f.stop ≠ c.arch.pc) →
    (c.complete true).arch.pc = c.arch.pc + 32 ∧ (c.complete true).arch.loops = ls ∧ (c.complete true).atRp = true ∧
    (c.complete true).ckpt = (c.complete true).arch) ∧
  (∀ (c : Core) (b : Bool), (b = false ∨ c.npc ≠ none ∨ ∀ e, c.arch.loops.getLast? = some e → e.stop ≠ c.arch.pc) →
    (c.complete b).arch.loops = c.arch.loops ∧ (c.complete b).arch.pc = c.npc.getD (c.arch.pc + 32)) ∧
  (∀ (s : State), s.skipBundle.core = ({ s.core with stall := 0, farUid := none } : Core).complete true) ∧
  (∀ (s t : State), s.core.ended = false → runSlots exec [] s = .next t → t.core = s.core.complete true) ∧
  (∀ (s : State) (i : Instr), s.core.ended = false → (i = .halt ∨ ∃ v, i = .trap v) →
    ∃ t, exec i s = .next t ∧ runSlots exec [i] s = .next t)

/-- HALT completes in every state: the PC moves on, the gate empties in order into the core, the loop stack is discarded,
the shadow becomes the registers, the core is halted, and nothing outside the core changes. A gated store to memory
joins the stores under way; with an empty gate the pool, the lines and the stores under way stay as they were. Every
other shadowed register keeps its value but for the count of pending GLD values. (R236, R176.) -/
def Obligations.HaltEndsTheTask : Prop :=
  ∀ (s : State), ∃ t, exec .halt s = .next t ∧ t = { s with core := t.core } ∧ t.core.status = .halted ∧ t.core.gate = [] ∧
    t.core.arch.loops = [] ∧ t.core.ckpt = t.core.arch ∧ t.core.atRp = true ∧
    t.core.arch = { s.core.arch with
      pc := s.core.npc.getD (s.core.arch.pc + 32),
      loops := [],
      gpend := s.core.arch.gpend.map (fun p => p.map (fun x => (x.1, x.2 - 1))) } ∧
    t.core.task = s.core.task ∧ t.core.threads = s.core.threads ∧
    (s.core.gate = [] → t.core.pool = s.core.pool ∧ t.core.stores = s.core.stores ∧ t.core.lines = s.core.lines) ∧
    (∀ p, s.core.gate = [.store p] → p.scratch = none → s.core.held = [] → s.core.cnt[p.ord.stream.val] + p.count ≤ 63 →
      t.core.stores = s.core.stores ++ [p])

/-- TACK completes in every state and changes TLOCK alone, to 0. TRET completes in every state, whatever TLOCK was: TLOCK
becomes 0, the core goes on at XPC as the bundle found it, a restart point lies there, and no other shadowed register
changes but the count of pending GLD values. (R184, R238, R175.) -/
def Obligations.TackAndTretUnlock : Prop :=
  (∀ (s : State), exec .tack s = .next { s with core := { s.core with arch := { s.core.arch with
      trap := { s.core.arch.trap with tlock := false } } } }) ∧
  (∀ (s : State), ∃ t, exec .tret s = .next t ∧ t = { s with core := t.core } ∧ t.core.atRp = true ∧ t.core.ended = true ∧
    t.core.ckpt = t.core.arch ∧ t.core.gate = [] ∧
    t.core.arch = { s.core.arch with
      pc := s.core.src.trap.xpc,
      trap := { s.core.arch.trap with tlock := false },
      gpend := s.core.arch.gpend.map (fun p => p.map (fun x => (x.1, x.2 - 1))) })

/-- With TLOCK 0 and TVEC not 0 TRAP writes XPC = PC + 32, TCAUSE = 0x01, TMASK = 0x01, TADDR the code sign-extended and
TINFO 0, sets TLOCK, and goes on at TVEC; the interval has committed, a restart point lies at the handler, every other
shadowed register keeps its value but for the count of pending GLD values, and nothing outside the core changes. With
TVEC 0 or TLOCK 1 the context stops instead, and the core of the task with it. (R237, R183, R184, R180, R181.) -/
def Obligations.TrapInstructionEntersHandler : Prop :=
  ∀ (s : State) (v : BitVec 23),
    (s.core.arch.trap.tlock = false → s.core.arch.trap.tvec ≠ 0 → s.core.src.pc = s.core.arch.pc →
      ∃ t, exec (.trap v) s = .next t ∧ t = { s with core := t.core } ∧ t.core.gate = [] ∧ t.core.ckpt = t.core.arch ∧ t.core.atRp = true ∧
        t.core.status = s.core.status ∧
        t.core.arch = { s.core.arch with
          pc := s.core.arch.trap.tvec,
          trap := ⟨s.core.arch.pc + 32, 0x01, 0x01, v.signExtend 64, 0, s.core.arch.trap.tvec, true⟩,
          gpend := s.core.arch.gpend.map (fun p => p.map (fun x => (x.1, x.2 - 1))) }) ∧
    (s.core.arch.trap.tlock = true ∨ s.core.arch.trap.tvec = 0 → ∃ t, exec (.trap v) s = .next t ∧ t.core.status = .stopped ∧
      t.mem = s.mem)

/-- A bundle whose slots fault with precise causes, none of them fatal or replayable and none a join, while the restart
point holds TLOCK 0 and a TVEC other than 0, rolls back; TCAUSE holds each faulting slot's cause in its byte, TMASK
one bit for each, TADDR and TINFO the fields of the first in the order S, M, X, C, G, XPC the PC of the restart point;
TLOCK is 1, the core goes on at TVEC with every other shadowed register as the rollback left it, a restart point lies
there, and nothing outside the core changes. (R183, R179, R180, R181, R178.) -/
def Obligations.PreciseTrapEntry : Prop :=
  ∀ (s : State) (fs : List SlotFault), fs ≠ [] → (∀ f ∈ fs, f.slot < 5 ∧ f.cause < 256 ∧ f.join = none ∧ isFatal f.cause = false ∧ isReplayable f.cause = false) →
    (fs.map SlotFault.slot).Nodup → s.core.ckpt.trap.tlock = false → s.core.ckpt.trap.tvec ≠ 0 →
    ∃ g ∈ fs, (∀ f ∈ fs, g.slot ≤ f.slot) ∧
      ∃ t, s.takeTrap fs = t ∧ t = { s with core := t.core } ∧
        t.core.arch = { s.core.ckpt with
          pc := s.core.ckpt.trap.tvec,
          trap := ⟨s.core.ckpt.pc, t.core.arch.trap.tcause, t.core.arch.trap.tmask, g.taddr, g.tinfo, s.core.ckpt.trap.tvec, true⟩ } ∧
        (∀ k < 5, t.core.arch.trap.tmask.getLsbD k = fs.any (fun f => f.slot == k)) ∧
        (∀ f ∈ fs, t.core.arch.trap.tcause.toNat / 256 ^ f.slot % 256 = f.cause) ∧
        (∀ k < 5, (∀ f ∈ fs, f.slot ≠ k) → t.core.arch.trap.tcause.toNat / 256 ^ k % 256 = 0) ∧
        t.core.ckpt = t.core.arch ∧ t.core.atRp = true ∧ t.core.gate = [] ∧ t.core.status = s.core.status

/-- When the restart point holds TLOCK 1, any trap, a replayable or a fatal one too, stops the core, and one record is put
on the fatal lane of its context, with cause DOUBLE_TRAP, CAUSE2 and AUX the new cause and address, and XPC, TMASK,
TADDR and TINFO those of the trap registers; no byte of memory changes. (R184, R189.) -/
def Obligations.DoubleTrapIsFatal : Prop :=
  ∀ (s : State) (fs : List SlotFault), s.core.ckpt.trap.tlock = true →
    ∀ t, s.takeTrap fs = t →
      t.mem = s.mem ∧ t.core.status = .stopped ∧ t.core.arch = s.core.ckpt ∧
      ∃ r : LaneRec, r.kind = 0x01 ∧ r.cause = Cause.doubleTrap ∧ r.cause2 = (firstFault fs).cause ∧ r.aux = (firstFault fs).taddr ∧
        r.xpc = s.core.ckpt.trap.xpc ∧ r.taddr = s.core.ckpt.trap.taddr ∧ r.tinfo = s.core.ckpt.trap.tinfo ∧
        BitVec.ofNat 64 r.tmask = s.core.ckpt.trap.tmask ∧
        ((s.ctxQ s.core.ctx).fatal.count < 64 → (s.ctxQ s.core.ctx).fatal.count ≤ (s.ctxQ s.core.ctx).fatal.ring.length →
          (t.ctxQ s.core.ctx).fatal.recs = (s.ctxQ s.core.ctx).fatal.recs ++ [r])

/-- A rollback restores every shadowed register, the PC and the stream sequence numbers to the restart point, empties the
gate, drops the loads in flight that have not committed (each stays until its value returns, when its counter falls),
and leaves the stream counters, the threads, the stores that have left the gate, the pool of T registers and
scratchpad bytes, the line states and STALLC as they are. (R178.) -/
def Obligations.RollbackRestoresTheShadow : Prop :=
  ∀ (c : Core), c.rollback.arch = c.ckpt ∧ c.rollback.ckpt = c.ckpt ∧ c.rollback.gate = [] ∧ c.rollback.cnt = c.cnt ∧
    c.rollback.threads = c.threads ∧ c.rollback.recs = c.recs ∧ c.rollback.stores = c.stores ∧ c.rollback.held = c.held ∧
    c.rollback.pool = c.pool ∧ c.rollback.side = c.side ∧ c.rollback.lines = c.lines ∧ c.rollback.stallc = c.stallc ∧
    c.rollback.loads.length = c.loads.length ∧
    (∀ l ∈ c.loads, l.committed = true → l ∈ c.rollback.loads) ∧
    (∀ l ∈ c.loads, l.committed = false → { l with dropped := true } ∈ c.rollback.loads) ∧
    (∀ (l : PLoad) (bs : List Byte), l.dropped = true → (c.endLoad l bs).arch = c.arch ∧ (c.endLoad l bs).pool = c.pool) ∧
    (∀ (s : State) (l : PLoad) (p : Part), s.core.loads.find? (fun x => x.uid == l.uid) = some l → l.dropped = true → l.parts = [p] →
      p.ends = true → s.core.loadBlocked l p = false → s.noRoute s.core p.pa = false → (∀ op v e, l.dest ≠ .atom op v e) →
      ∃ t, exec (.loadReturn l.uid) s = .next t ∧ t.core.arch = s.core.arch ∧ t.core.ckpt = s.core.ckpt ∧
        t.core.cnt = s.core.cnt.set l.ord.stream.val (s.core.cnt[l.ord.stream.val] - 1)) ∧
    (∀ (s : State), (s.onC Core.rollback).dtime = s.dtime ∧ (s.onC Core.rollback).mem = s.mem)

/-- A commit leaves an empty gate, the shadow equal to the registers and every load in flight committed. A single gated
store to the own scratchpad that no earlier access holds back has its bytes in the scratchpad and every other byte of
the pool as before; one that is held back joins the stores under way, and the pool stays (log 84). A gated store to
memory joins the stores under way after those before it and raises its stream's counter while the counter has room. A
gated LINE sets its lines and no others, and a gated consume read empties its line when that is FULL. The registers
themselves do not change. (R176, R31, R89.) -/
def Obligations.CommitReleasesTheGate : Prop :=
  (∀ (c : Core), c.commit.gate = [] ∧ c.commit.ckpt = c.arch ∧ c.commit.arch = c.arch ∧ c.commit.atRp = true ∧ (∀ l ∈ c.commit.loads, l.committed = true)) ∧
  (∀ (c : Core) (p : PStore) (off : Nat), c.gate = [.store p] → p.scratch = some off → c.held = [] →
    (c.storeBlocked p peerPart = false →
      (∀ i < p.bytes.length, c.commit.pool.get (c.scratchBase + off + i) = p.bytes.getD i 0) ∧
      (∀ a, (a < c.scratchBase + off ∨ c.scratchBase + off + p.bytes.length ≤ a) → c.commit.pool.get a = c.pool.get a) ∧
      c.commit.stores = c.stores ∧ c.commit.cnt = c.cnt) ∧
    (c.storeBlocked p peerPart = true → c.cnt[p.ord.stream.val] + p.count ≤ 63 →
      c.commit.pool = c.pool ∧ c.commit.stores = c.stores ++ [p] ∧ c.commit.cnt[p.ord.stream.val] = c.cnt[p.ord.stream.val] + p.count)) ∧
  (∀ (c : Core) (p q : PStore), c.held = [] → c.gate = [.store p, .store q] → p.scratch = none → q.scratch = none → p.ord.stream ≠ q.ord.stream →
    c.cnt[p.ord.stream.val] + p.count ≤ 63 → c.cnt[q.ord.stream.val] + q.count ≤ 63 →
    c.commit.stores = c.stores ++ [p, q] ∧ c.commit.cnt[p.ord.stream.val] = c.cnt[p.ord.stream.val] + p.count ∧ c.commit.pool = c.pool) ∧
  (∀ (c : Core) (first n : Nat) (st : LineCode), c.gate = [.line first n st] →
    ∀ l, c.commit.line l = if first ≤ l ∧ l < first + n then st else c.line l) ∧
  (∀ (c : Core) (k : Nat), c.gate = [.consume k] → ∀ l, c.commit.line l = if l = k ∧ c.line k = .full then .empty else c.line l)

/-- CSRR of each register of R43 completes in every state and changes Sd alone: the trap registers, TLOCK in bit 0, LSn as
1, TRIP and INDEX of an active entry and 0 of an inactive one, GROW, FPROG, FSTAT, PIVT, ZPOL, XFLAGS, SEQL, LINEWAIT,
STALLC, GPTR and DTIME as they stand; PARTW's four fields; in STRMST the eight counters and the eight sequence numbers;
the launch's SLICE, or the default for 0, with its floor, and its Troy bit; CORID, TASKID, CAPP; the fields of ENUMd;
and eight entries of PERM. (R239, R43, R232, R28, R45, R103, R194.) -/
def Obligations.ControlRegisterReads : Prop :=
  ∀ (s : State) (d : SReg), ∀ a : Arch, s.core.src = a →
    (∀ c : Csr, ∃ v, s.GivesS (.csrr d c) d v) ∧
    s.GivesS (.csrr d .xpc) d a.trap.xpc ∧ s.GivesS (.csrr d .tcause) d a.trap.tcause ∧ s.GivesS (.csrr d .tmask) d a.trap.tmask ∧
    s.GivesS (.csrr d .taddr) d a.trap.taddr ∧ s.GivesS (.csrr d .tinfo) d a.trap.tinfo ∧ s.GivesS (.csrr d .tvec) d a.trap.tvec ∧
    s.GivesS (.csrr d .tlock) d (if a.trap.tlock then 1 else 0) ∧
    (∀ (n : Fin 6) (e : LoopEnt), a.loops[n.val]? = some e →
      s.GivesS (.csrr d (.ls n)) d ((1#1 ++ e.trip ++ e.index : BitVec 64))) ∧
    (∀ n : Fin 6, a.loops.length ≤ n.val → s.GivesS (.csrr d (.ls n)) d 0) ∧
    s.GivesS (.csrr d .grow) d a.grow ∧ s.GivesS (.csrr d .fprog) d a.fprog ∧ s.GivesS (.csrr d .fstat) d a.fstat ∧
    s.GivesS (.csrr d .pivt) d a.pivt ∧ s.GivesS (.csrr d .zpol) d (if a.zpol then 1 else 0) ∧
    s.GivesS (.csrr d .xflags) d (a.xflags.setWidth 64) ∧ s.GivesS (.csrr d .seql) d a.seql ∧
    s.GivesS (.csrr d .linewait) d a.linewait ∧ s.GivesS (.csrr d .gptr) d a.gptr ∧
    s.GivesS (.csrr d .stallc) d s.core.stallc ∧ s.GivesS (.csrr d .dtime) d s.dtime ∧
    s.GivesS (.csrr d .partw) d
      (BitVec.ofNat 64 (s.core.partw.trip.toNat * 2 ^ 24 + s.core.partw.zg * 2 ^ 16 + s.core.partw.tg * 2 ^ 8 + s.core.partw.sg)) ∧
    (∃ v, s.GivesS (.csrr d (.strmst 0)) d v ∧ v.toNat / 2 ^ 48 = 0 ∧ ∀ k : Fin 8, v.toNat / 2 ^ (6 * k.val) % 64 = s.core.cnt[k.val] % 64) ∧
    (∃ v, s.GivesS (.csrr d (.strmst 1)) d v ∧ ∀ k : Fin 4, v.extractLsb' (16 * k.val) 16 = a.seqn[k.val]) ∧
    (∃ v, s.GivesS (.csrr d (.strmst 2)) d v ∧ ∀ k : Fin 4, v.extractLsb' (16 * k.val) 16 = a.seqn[k.val + 4]) ∧
    (∀ l, s.launchOf s.core = some l →
      s.GivesS (.csrr d .slice) d (BitVec.ofNat 64 (if l.lr.sliceq = 0 then 1048576 else max l.lr.sliceq 55296)) ∧
      s.GivesS (.csrr d .troy) d (if l.lr.troy then 1 else 0)) ∧
    (∀ t, s.core.task = some t → s.GivesS (.csrr d .taskid) d (BitVec.ofNat 64 (t.index % 2 ^ 20))) ∧
    s.GivesS (.csrr d .corid) d (BitVec.ofNat 64 (s.logical s.core.id)) ∧
    s.GivesS (.csrr d .capp) d (BitVec.ofNat 64 s.capArea) ∧
    (∀ k : Fin 8, ∃ v, s.GivesS (.csrr d (.enumd k)) d v ∧ v.extractLsb' 0 32 = (s.die k.val).live ∧
      wbits v 39 32 = k.val * perDie s.grade ∧ wbits v 45 40 = (List.range 32).countP (fun p => (s.die k.val).live.getLsbD p) ∧
      v.extractLsb' 46 3 = (s.die k.val).links ∧ v.getLsbD 49 = (s.die k.val).crown ∧ v.getLsbD 50 = (s.die k.val).dieok ∧
      v.getLsbD 51 = (s.grade != .g224L) ∧
      wbits v 57 52 = (List.range 32).countP (fun p => (s.die k.val).slices.getLsbD p) ∧ wbits v 63 58 = 0) ∧
    (∀ w : Fin 32, ∃ v, s.GivesS (.csrr d (.perm w)) d v ∧
      ∀ i : Fin 256, i.val / 8 = w.val → v.extractLsb' (8 * (i.val % 8)) 8 = a.perm[i.val])

/-- CSRW completes in every state. It stores PIVT, SEQL, LINEWAIT, GPTR, STALLC and bit 0 of ZPOL; clears the flags of
XFLAGS whose bits are 1 and the W1C bit of FSTAT; stores FPROG with its reserved bits 0 and STATE 11 as 10; stores TVEC
with bits 4 to 0 cleared while TLOCK is 0, and not while it is 1; replaces TRIP and INDEX of an active loop entry and
nothing of an inactive one; writes the eight entries of a PERM word; and a CSRW of a read-only register changes
nothing. Memory and every S and P register stay as they were. (R239, R11, R43, R232, R299.) -/
def Obligations.ControlRegisterWrites : Prop :=
  ∀ (s : State) (a : SReg), ∀ (v : Word) (r : Arch), s.rs a = v → s.core.arch = r →
    (∀ c : Csr, ∃ t, exec (.csrw c a) s = .next t ∧ t.mem = s.mem ∧ t.core.arch.s = r.s ∧ t.core.arch.p = r.p ∧ t.core.arch.pc = r.pc ∧
      t.core.pool = s.core.pool) ∧
    s.GivesCore (.csrw .pivt a) (fun c => { c with arch := { r with pivt := v } }) ∧
    s.GivesCore (.csrw .seql a) (fun c => { c with arch := { r with seql := v } }) ∧
    s.GivesCore (.csrw .linewait a) (fun c => { c with arch := { r with linewait := v } }) ∧
    s.GivesCore (.csrw .gptr a) (fun c => { c with arch := { r with gptr := v } }) ∧
    s.GivesCore (.csrw .stallc a) (fun c => { c with stallc := v }) ∧
    s.GivesCore (.csrw .zpol a) (fun c => { c with arch := { r with zpol := v.getLsbD 0 } }) ∧
    s.GivesCore (.csrw .xflags a) (fun c => { c with arch := { r with xflags := r.xflags &&& ~~~(v.extractLsb' 0 6) } }) ∧
    s.GivesCore (.csrw .fstat a) (fun c => { c with arch := { r with fstat := r.fstat &&& ~~~(v &&& 0x10000#64) } }) ∧
    (∃ w : Word, s.GivesCore (.csrw .fprog a) (fun c => { c with arch := { r with fprog := w } }) ∧
      ∀ k < 64, w.getLsbD k = if k = 16 then v.getLsbD 16 && !v.getLsbD 17
        else if (9 ≤ k ∧ k < 16) ∨ (18 ≤ k ∧ k < 26) then false else v.getLsbD k) ∧
    s.GivesCore (.csrw .tvec a) (fun c => { c with arch := { r with
      trap := { r.trap with tvec := if r.trap.tlock then r.trap.tvec else v &&& 0xFFFFFFFFFFFFFFE0#64 } } }) ∧
    (∀ (n : Fin 6) (e : LoopEnt), r.loops[n.val]? = some e → s.GivesCore (.csrw (.ls n) a) (fun c => { c with arch := { r with
      loops := r.loops.set n.val { e with trip := v.extractLsb' 32 31, index := v.extractLsb' 0 32 } } })) ∧
    (∀ n : Fin 6, r.loops.length ≤ n.val → exec (.csrw (.ls n) a) s = .next s) ∧
    (∀ w : Fin 32, ∃ p : Vector Byte 256, s.GivesCore (.csrw (.perm w) a) (fun c => { c with arch := { r with perm := p } }) ∧
      ∀ i : Fin 256, p[i.val] = if i.val / 8 = w.val then v.extractLsb' (8 * (i.val % 8)) 8 else r.perm[i.val]) ∧
    (∀ c ∈ [Csr.xpc, .tcause, .tmask, .taddr, .tinfo, .tlock, .grow, .partw, .strmst 0, .strmst 1, .strmst 2, .slice, .corid, .taskid,
      .troy, .capp, .dtime], exec (.csrw c a) s = .next s) ∧
    (∀ k : Fin 8, exec (.csrw (.enumd k) a) s = .next s)

/-- With an address that passes WAITM's checks and no monitor set, WAITM sets one for the watched word with the expected
value and the timeout, and the bundle waits; while no cause is known it goes on waiting; once a cause is known it
gives Sd the cause's code, drops the monitor and lets the bundle go on. A misaligned address raises OPERAND_FORM. Only
the core in focus changes, and the translations kept, as the watched word is translated. (R240, R110.) -/
def Obligations.MonitoredWaitRuns : Prop :=
  ∀ (s : State) (d a : SReg) (off : BitVec 17) (b c : SReg),
    ((s.rs a + off.signExtend 64).toNat % 8 ≠ 0 →
      exec (.waitm d a off b c) s = .next (s.takeTrap [⟨0, Cause.operandForm, s.rs a + off.signExtend 64, 0, none⟩])) ∧
    (s.faultWaitm a off = none →
      (s.core.monitor = none → ∃ g : List TlbEnt, exec (.waitm d a off b c) s = .next { s with
        tlb := g,
        core := { s.core with
          monitor := some ⟨false, false, s.watched (s.rs a + off.signExtend 64), s.rs a + off.signExtend 64, s.rs b, (s.rs c).toNat, 0, none⟩,
          ended := true } }) ∧
      (∀ m, s.core.monitor = some m → m.cause = none → s.GivesCore (.waitm d a off b c) (fun k => { k with ended := true })) ∧
      (∀ m v, s.core.monitor = some m → m.cause = some v → ∃ u, s.WroteS u d (BitVec.ofNat 64 v) ∧
        exec (.waitm d a off b c) s = .next { u with core := { u.core with monitor := none } }))

/-- For a monitor not yet armed whose line no own store is still to reach, WAITM_ARM arms it and compares the word with
the value expected: a difference is cause 0; where the word is poisoned, or no route leads to it any more, it stops the
context instead and memory stays (R197, R367); that an own atomic in flight is no store to wait for is log 115's reading.
For an armed monitor without a cause: WAITM_WAKE_WRITE gives cause 0 once another agent has written the line,
WAITM_MONITOR_LOST cause 1, WAITM_TIMEOUT cause 3 once a timeout other than 0 has passed, WAITM_SPURIOUS cause 4. Only the
monitor of the core in focus changes; with no monitor nothing does. (R110, R197, R367.) -/
def Obligations.MonitorEvents : Prop :=
  (∀ (s : State) (m : Monitor), s.core.monitor = some m →
    (m.armed = false → s.core.storeOn (m.word / 128) = false →
      (s.noRoute s.core m.word = false → s.isPoison m.word 8 = false →
        s.GivesCore .waitmArm (fun c => { c with monitor := some { m with
          armed := true, cause := if leVal (s.physBytes m.word 8) = m.expect.toNat then none else some 0 } })) ∧
      ((s.noRoute s.core m.word = true ∨ s.isPoison m.word 8 = true) →
        ∃ t, exec .waitmArm s = .next t ∧ t.core.status = .stopped ∧ t.mem = s.mem)) ∧
    (m.armed = true → m.cause = none →
      s.GivesCore .waitmMonitorLost (fun c => { c with monitor := some { m with cause := some 1 } }) ∧
      s.GivesCore .waitmSpurious (fun c => { c with monitor := some { m with cause := some 4 } }) ∧
      (m.hit = true → s.GivesCore .waitmWakeWrite (fun c => { c with monitor := some { m with cause := some 0 } })) ∧
      (m.timeout ≠ 0 → m.timeout ≤ m.waited → s.GivesCore .waitmTimeout (fun c => { c with monitor := some { m with cause := some 3 } })) ∧
      (m.timeout = 0 ∨ m.waited < m.timeout → exec .waitmTimeout s = .next s))) ∧
  (∀ (s : State), s.core.monitor = none → ∀ i ∈ [Instr.waitmArm, .waitmWakeWrite, .waitmMonitorLost, .waitmTimeout, .waitmSpurious],
    exec i s = .next s)

/-- BAR.ARV of a barrier the launch holds sends one arrival, tagged with the restart point before it, and awaits the next
epoch; executed again with that tag it changes nothing; BAR.WT completes and ends the wait it stands for; both raise
BARRIER_ABSENT for a barrier the launch does not hold. BARRIER_ARRIVAL_COUNTED, once every earlier access and thread
of the task is performed, takes the arrival and adds one to the barrier's count, or, for the last member, sets the
count to 0, completes the epoch and clears the launch's Troy tags; before that it changes nothing. (R152, R241, R112.) -/
def Obligations.BarrierArriveAndWait : Prop :=
  (∀ (s : State) (b : Fin 16), s.holdsBar b = false →
    exec (.barArv b) s = .next (s.takeTrap [⟨0, Cause.barrierAbsent, 0, 0, none⟩]) ∧
    exec (.barWt b) s = .next (s.takeTrap [⟨0, Cause.barrierAbsent, 0, 0, none⟩])) ∧
  (∀ (s : State) (b : Fin 16), s.holdsBar b = true →
    (s.core.ckpt.pc ∈ s.core.arvSent → exec (.barArv b) s = .next s) ∧
    (s.core.ckpt.pc ∉ s.core.arvSent → exec (.barArv b) s = .next { s with
      uid := s.uid + 1,
      core := { s.core with
        arvSent := s.core.arvSent ++ [s.core.ckpt.pc],
        arrivals := s.core.arrivals ++ [(b.val, s.uid)],
        arrived := bindTo s.core.arrived b.val ((s.myBar b.val).epochs + 1) } }) ∧
    s.GivesCore (.barWt b) (fun c => { c with arrived := unbind c.arrived b.val })) ∧
  (∀ (s : State) (b : Fin 16) (u : Nat) (l : Launch), assoc s.core.arrivals b.val = some u → s.launchOf s.core = some l →
    (s.core.settledBelow u = false → exec (.barrierArrivalCounted b) s = .next s) ∧
    (s.core.settledBelow u = true → ∃ t, exec (.barrierArrivalCounted b) s = .next t ∧
      t = { s with core := { s.core with arrivals := unbind s.core.arrivals b.val }, barriers := t.barriers, tags := t.tags } ∧
      (let k := s.myBar b.val
       let last := s.members l k.cluster ≤ k.arrivals + 1
       (¬ last → t.tags = s.tags ∧ t.barriers.head? = some { k with arrivals := k.arrivals + 1 }) ∧
       (last → t.tags = s.tags.filter (fun x => x.1 ≠ k.launch) ∧ t.barriers.head? = some { k with arrivals := 0, epochs := k.epochs + 1 }))))

/-- With every stream counter 0, no earlier use of the pool recorded, and a word that fits, PARTN sets TG, ZG and TRIP
from it, zeroes the pool and the side array, makes every line EMPTY and the hold latches empty, and leaves every other
register, counter and byte of memory alone. With an outstanding counter, a recorded use or a word that does not fit it
raises OPERAND_FORM at the S slot. (R242, R28.) -/
def Obligations.PartitionInstalls : Prop :=
  ∀ (s : State) (a : SReg), ∀ w : Word, s.rs a = w →
    ((∀ i : Fin 8, s.core.cnt[i.val] = 0) → s.core.src.touched = false →
      wbits w 10 8 ≤ 4 → wbits w 20 16 ≤ 16 → wbits w 39 24 < 2 ^ wbits w 20 16 → wbits w 63 40 = 0 → wbits w 23 21 = 0 → wbits w 15 11 = 0 →
      s.GivesCore (.partn a) (fun c => { c with
        partw := ⟨wbits w 10 8, wbits w 20 16, BitVec.ofNat 16 (wbits w 39 24)⟩,
        pool := [], side := [], lines := [], plinks := [], latA := [], latB := [],
        badPool := [], badSide := [], badLatA := false, badLatB := false,
        arch := { c.arch with latchA := none, latchB := none } })) ∧
    ((∃ i : Fin 8, s.core.cnt[i.val] ≠ 0) ∨ s.core.src.touched = true ∨ 4 < wbits w 10 8 ∨ 16 < wbits w 20 16 ∨
        2 ^ wbits w 20 16 ≤ wbits w 39 24 ∨ wbits w 63 40 ≠ 0 ∨ wbits w 23 21 ≠ 0 ∨ wbits w 15 11 ≠ 0 →
      exec (.partn a) s = .next (s.takeTrap [⟨0, Cause.operandForm, 0, 0, none⟩]))

/-- BIND of slot 0 or of a slot whose PORTS has the port binds it; KSET of a filled slot other than 0 sets parameter kj to
Sa; each changes nothing else, and raises PPROG_BAD otherwise. PPLD of an accepted record fills the slot with its
words, NANT and PORTS, with all parameters and q zero, counts its accesses on stream 0, one per page, and changes no
other shadowed register and no byte of memory. Of a record that it can read it refuses exactly these: any for slot 0; a
header with a reserved bit, N not 1 to 16, or no port; a word among the first N that its form does not admit, or a later
one that is not 0; a second qld; q or qld where PORTS has K; and one for a slot bound to a port that PORTS has not. It
then raises PPROG_BAD at the S slot, and the slots stay as the restart point has them. A step of an accepted program reads its
selectors by R315 and does what R319 to R326 give its opcode, each step seeing what the earlier ones wrote; with NANT
a float step whose destination receives a NaN is an element fault as well. (R245, R246, R243, R244, R216, R217, R312,
R315, R319, R321, R323, R326.) -/
def Obligations.PortProgramSlots : Prop :=
  (∀ (s : State) (n : Fin 64) (p : Port), ∀ k : Fin 4, k = (match p with | .a => 0 | .b => 1 | .d => 2 | .k => 3) →
    ((n = 0 ∨ ∃ x, s.core.src.progs[n.val] = some x ∧ x.ports.getLsbD k.val = true) →
      s.GivesCore (.bind n p) (fun c => { c with arch := { c.arch with binds := c.arch.binds.set k.val n } })) ∧
    (n ≠ 0 → (∀ x, s.core.src.progs[n.val] = some x → x.ports.getLsbD k.val = false) →
      exec (.bind n p) s = .next (s.takeTrap [⟨0, Cause.pprogBad, 0, 0, none⟩]))) ∧
  (∀ (s : State) (n : Fin 64) (j : Fin 8) (a : SReg),
    (∀ x, n ≠ 0 → s.core.src.progs[n.val] = some x → s.core.arch.progs[n.val] = some x →
      s.GivesCore (.kset n j a) (fun c => { c with arch := { c.arch with
        progs := c.arch.progs.set n.val (some { x with k := x.k.set j.val (s.rs a) }) } })) ∧
    (n = 0 ∨ s.core.src.progs[n.val] = none → exec (.kset n j a) s = .next (s.takeTrap [⟨0, Cause.pprogBad, 0, 0, none⟩]))) ∧
  (∀ (s : State) (n : Fin 64) (a : SReg) (v : BitVec 23), s.faultPpld n a v = none →
    n ≠ 0 ∧ ∃ (t : State) (x : PSlot) (r : Route), exec (.ppld n a v) s = .next t ∧ s.route (s.eaP a v) 72 .read = .ok r ∧
      (let bs := s.readRoute r 72
       let h := leVal (bs.take 8)
       x.words = (List.range (h / 256 % 32)).map (fun i => BitVec.ofNat 32 (leVal ((bs.drop (8 + 4 * i)).take 4))) ∧ (∀ w ∈ x.words, wordOk w = true) ∧
       x.nant = h.testBit 4 ∧ x.ports = BitVec.ofNat 4 h ∧ x.k = Vector.replicate 8 0 ∧ x.q = 0 ∧ 1 ≤ x.words.length ∧ x.words.length ≤ 16) ∧
      t = { s with
        tlb := t.tlb,
        core := { s.core with
          arch := { s.core.arch with
            progs := s.core.arch.progs.set n.val (some x),
            seqn := s.core.arch.seqn.set 0 (s.core.arch.seqn[0] + BitVec.ofNat 16 r.count) },
          l1 := t.core.l1, ahead := t.core.ahead, badL1 := t.core.badL1 } }) ∧
  (∀ (s : State) (n : Fin 64) (a : SReg) (v : BitVec 23) (r : Route), ∀ va : Word, s.rs a + v.signExtend 64 = va → va.toNat % 8 = 0 →
    (∃ g, s.memOnly va 72 = .ok g) → s.route va 72 .read = .ok r → s.faultRead 0 va 72 = none →
    let bs := s.readRoute r 72
    let h := leVal (bs.take 8)
    let len := h / 256 % 32
    let w (i : Nat) : BitVec 32 := BitVec.ofNat 32 (leVal ((bs.drop (8 + 4 * i)).take 4))
    let qld (i : Nat) : Prop := (w i).extractLsb' 26 6 = 0x2B#6
    let readsQ (i : Nat) : Prop := (w i).extractLsb' 16 5 = 0x10#5 ∨ (w i).extractLsb' 11 5 = 0x10#5 ∨ (w i).extractLsb' 6 5 = 0x10#5
    let refused : Prop := n = 0 ∨ h / 2 ^ 13 ≠ 0 ∨ h / 2 ^ 5 % 8 ≠ 0 ∨ len = 0 ∨ 16 < len ∨ h % 16 = 0 ∨ (∃ i < len, ¬ WordAdmitted (w i)) ∨
      (∃ i < 16, len ≤ i ∧ w i ≠ 0) ∨ (∃ i < len, ∃ j < i, qld i ∧ qld j) ∨ (h.testBit 3 = true ∧ ∃ i < len, qld i ∨ readsQ i) ∨
      ∃ k : Fin 4, s.core.src.binds[k.val] = n ∧ h.testBit k.val = false
    (refused → s.faultPpld n a v = some ⟨0, Cause.pprogBad, va, 0, none⟩ ∧
      exec (.ppld n a v) s = .next (s.takeTrap [⟨0, Cause.pprogBad, va, 0, none⟩]) ∧
      (s.takeTrap [⟨0, Cause.pprogBad, va, 0, none⟩]).core.arch.progs = s.core.ckpt.progs) ∧
    (¬ refused → s.faultPpld n a v = none)) ∧
  RunsElements

/-- With no launch waiting for the core whose effective class number is the task's or lower, YIELD changes nothing. With
one, in a running package, a task that allows mid-node pre-emption is asked to give way at a restart point, with its
core alone; one that does not is held back at its next node boundary for the launch that comes first: in the order of R146, where
handlers and adopted launches come after every stream and the die breaks ties by log 90's choice, and by log 50's reading the
core waits for that launch. No register, no
byte of memory and no launch changes. (R248, R194, R146.) -/
def Obligations.YieldGivesWay : Prop :=
  ∀ (s : State),
    (s.launchOf s.core = none → exec .yield s = .next s) ∧
    (∀ v, s.launchOf s.core = some v →
      let want := s.settle.launches.filter (fun w => w.id ≠ v.id ∧ w.wants (s.logical s.core.id) = true ∧ w.eff ≤ v.eff)
      (want = [] → exec .yield s = .next s) ∧
      (want ≠ [] → s.booted = true → s.inReset = false → s.core.status = .running → s.core.preempt = false → v.lr.midp = false →
        ∃ w ∈ want, (∀ u ∈ want, listLt u.key w.key = false) ∧
          exec .yield s = .next { s with core := { s.core with holdFor := some w.id } }) ∧
      (want ≠ [] → s.booted = true → s.inReset = false → s.core.status = .running → s.core.preempt = false → v.lr.midp = true → v.lr.cls ≠ 2 →
        (∀ c ∈ s.others, c.id ≠ s.core.id) → s.core.task.map Task.launch = some v.id →
        exec .yield s = .next { s with core := { s.core with preempt := true } }))

/-- LD from the own scratchpad or from a peer's, with no POISONED line among those it touches, gives Sd the n bytes there
little-endian, zero-extended, the core's own pending stores included, and counts one access on its stream; LD from
memory, unless unaligned on a device page, puts one load for Sd in flight and changes no register; an address that
fails its checks traps at the M slot with the failing cause and the address. No byte of memory changes. (R250, R89,
R101, R159, R249.) -/
def Obligations.ScalarLoadIssues : Prop :=
  ∀ (s : State) (z : Sz) (d b : SReg) (off : BitVec 22) (o : OrdF), ∀ (va : Word) (n : Nat), s.rs b + off.signExtend 64 = va → sizeBytes z = n →
    (∀ a, s.route va n .read = .ok (.scratch a) → s.core.PadClean a n →
      ∃ u, s.WroteS u d (BitVec.ofNat 64 (leVal (s.core.scratchBytes a n))) ∧ exec (.ld z d b off o) s = .next
        { u with core := { u.core with arch := { u.core.arch.seqUp o.stream 1 with touched := true } } }) ∧
    (∀ pos a, s.route va n .read = .ok (.clus pos a) → s.PeerClean pos a n →
      ∃ u, s.WroteS u d (BitVec.ofNat 64 (leVal (s.peerRead pos a n))) ∧ exec (.ld z d b off o) s = .next
        { u with core := { u.core with arch := u.core.arch.seqUp o.stream 1 } }) ∧
    (∀ ps, s.route va n .read = .ok (.mem ps) → (va.toNat % n = 0 ∨ s.onDevice va n .read = false) →
      ∃ t, exec (.ld z d b off o) s = .next t ∧ s.SentLoad t ps n (.s d) o va false) ∧
    (∀ c, s.route va n .read = .error c → exec (.ld z d b off o) s = .next (s.takeTrap [⟨1, c, va, 0, none⟩]))

/-- ST with an address that passes its checks, unless unaligned on a device page, adds one entry to the gate: the low n
bytes of Sd, little-endian, for the own scratchpad or for memory or a peer; it counts on its stream's sequence number,
and no byte of memory or of the scratchpad, no line and no register changes. An address that fails its checks traps at
the M slot with the failing cause and the address. (R250, R176, R249.) -/
def Obligations.ScalarStoreEntersTheGate : Prop :=
  ∀ (s : State) (z : Sz) (b : SReg) (off : BitVec 22) (d : SReg) (o : OrdF), ∀ (va : Word) (n : Nat), s.rs b + off.signExtend 64 = va → sizeBytes z = n →
    (∀ r, s.route va n .write = .ok r → (va.toNat % n = 0 ∨ s.onDevice va n .write = false) →
      ∃ t p, exec (.st z b off d o) s = .next t ∧ s.IsStore p r ((List.range n).map (fun k => (s.rs d).extractLsb' (8 * k) 8)) o va ∧
        t = { s with
          uid := s.uid + 1, tlb := t.tlb,
          core := { s.core with
            gate := s.core.gate ++ [.store p],
            arch := { s.core.arch.seqUp o.stream r.count with touched := t.core.arch.touched } } } ∧
        (t.core.arch.touched = true ↔ s.core.arch.touched = true ∨ ∃ a, r = .scratch a)) ∧
    (∀ c, s.route va n .write = .error c → exec (.st z b off d o) s = .next (s.takeTrap [⟨1, c, va, 0, none⟩]))

/-- SEQLD raises OPERAND_FORM for an address that is not naturally aligned; from the own scratchpad or a peer's, with no
POISONED line, Sd takes the value and SEQL the value divided by 2^sh, rounded up; from memory the load is put in flight
to do so. PREF of an address in GLOBAL or PRIVATE that translates puts a prefetch in flight; any other address counts
one access and drops it; it never traps, and writes no S or P register. (R331, R258.) -/
def Obligations.SequenceLoadAndPrefetch : Prop :=
  (∀ (s : State) (dbl : Bool) (d b : SReg) (off : BitVec 22) (sh : Fin 32) (o : OrdF), ∀ (va : Word) (n : Nat),
    s.rs b + off.signExtend 64 = va → n = (if dbl then 8 else 4) →
    (va.toNat % n ≠ 0 → exec (.seqld dbl d b off sh o) s = .next (s.takeTrap [⟨1, Cause.operandForm, va, 0, none⟩])) ∧
    (∀ r v, va.toNat % n = 0 → s.route va n .read = .ok r →
      ((∃ a, r = .scratch a ∧ s.core.PadClean a n ∧ v = leVal (s.core.scratchBytes a n)) ∨
        (∃ pos a, r = .clus pos a ∧ s.PeerClean pos a n ∧ v = leVal (s.peerRead pos a n))) →
      ∃ u q, s.WroteS u d (BitVec.ofNat 64 v) ∧ q * 2 ^ sh.val < v + 2 ^ sh.val ∧ v ≤ q * 2 ^ sh.val ∧ ∃ g,
        exec (.seqld dbl d b off sh o) s = .next { u with core := { u.core with
          arch := { u.core.arch.seqUp o.stream 1 with seql := BitVec.ofNat 64 q, touched := g } } } ∧
        (g = true ↔ s.core.arch.touched = true ∨ ∃ a, r = .scratch a)) ∧
    (∀ ps, va.toNat % n = 0 → s.route va n .read = .ok (.mem ps) →
      ∃ t, exec (.seqld dbl d b off sh o) s = .next t ∧ s.SentLoad t ps n (.seql d sh.val) o va false)) ∧
  (∀ (s : State) (b : SReg) (off : BitVec 22) (o : OrdF), ∀ va : Word, s.rs b + off.signExtend 64 = va →
    (∀ ps, s.route va 1 .read = .ok (.mem ps) → ∃ t, exec (.pref b off o) s = .next t ∧ s.SentLoad t ps 1 .none o va false) ∧
    ((∀ ps, s.route va 1 .read ≠ .ok (.mem ps)) → exec (.pref b off o) s = .next { s with core := { s.core with arch := s.core.arch.seqUp o.stream 1 } }))

/-- LDT and STT of a T register outside the partition raise REG_ABSENT, and a memory operand that is not 32-byte aligned
raises OPERAND_FORM. With its checks passed, LDT from memory puts the 16 KiB image in flight to Td; from the own
scratchpad window or a peer's it takes the image at once; through a pair it writes Td alone in the pool, tile row by
tile row from the places of R35, R67 and R68, and with CONS each FULL line read becomes EMPTY. STT, of a register whose
data are not poisoned, sends the image of Td to memory as one store that is not gated; to the own scratchpad window
the image lands at once; through a pair, as STP through both, tile row by tile row at the same places and nowhere
else. None of them changes an S or P register or a byte of main memory, and each counts on its stream. (R251, R252,
R253, R177, R35, R36, R67, R68.) -/
def Obligations.TileAccessesIssue : Prop :=
  (∀ (s : State) (f : Fmt) (t : TReg) (ad : TileAddr) (cons : Bool) (o : OrdF), s.core.hasT t.val = false →
    exec (.ldt f t ad cons o) s = .next (s.takeTrap [⟨1, Cause.regAbsent, 0, 0, none⟩]) ∧
    exec (.stt f ad t o) s = .next (s.takeTrap [⟨1, Cause.regAbsent, 0, 0, none⟩])) ∧
  (∀ (s : State) (f : Fmt) (t : TReg) (b : SReg) (off : BitVec 20) (cons : Bool) (o : OrdF), ∀ va : Word, s.rs b + off.signExtend 64 = va →
    s.core.hasT t.val = true →
    (va.toNat % 32 ≠ 0 →
      exec (.ldt f t (.mem b off) cons o) s = .next (s.takeTrap [⟨1, Cause.operandForm, va, 0, none⟩]) ∧
      exec (.stt f (.mem b off) t o) s = .next (s.takeTrap [⟨1, Cause.operandForm, va, 0, none⟩])) ∧
    (va.toNat % 32 = 0 → ∀ k : Core, k = (s.core.unmake [TZ.t t.val]).keepT t.val →
      (∀ ps, s.route va 16384 .read = .ok (.mem ps) →
        ∃ u, exec (.ldt f t (.mem b off) cons o) s = .next u ∧ ({ s with core := k } : State).SentLoad u ps 16384 (.t t f) o va true) ∧
      (∀ r bs, s.route va 16384 .read = .ok r →
        ((∃ a, r = .scratch a ∧ s.core.PadClean a 16384 ∧ bs = s.core.scratchBytes a 16384) ∨
          (∃ pos a, r = .clus pos a ∧ s.PeerClean pos a 16384 ∧ bs = s.peerRead pos a 16384)) →
        exec (.ldt f t (.mem b off) cons o) s = .next { s with core := { k.putRuns [(16384 * t.val, bs)] with
          arch := { s.core.arch.seqUp o.stream 1 with touched := true } } }) ∧
      (∀ r, s.route va 16384 .write = .ok r → (∀ a, r ≠ .scratch a) → s.core.runsBad [(16384 * t.val, 16384)] = false → s.core.held = [] →
        s.core.cnt[o.stream.val] + r.count ≤ 63 →
        ∃ u p, exec (.stt f (.mem b off) t o) s = .next u ∧ s.IsStore p r (s.core.tImage t.val) o va ∧ p.count = r.count ∧
          u = { s with
            uid := s.uid + 1, tlb := u.tlb,
            core := { s.core with
              stores := s.core.stores ++ [p],
              cnt := s.core.cnt.set o.stream.val (s.core.cnt[o.stream.val] + r.count),
              arch := { s.core.arch.seqUp o.stream r.count with touched := true } } }) ∧
      (∀ a, s.route va 16384 .write = .ok (.scratch a) → s.core.runsBad [(16384 * t.val, 16384)] = false →
        exec (.stt f (.mem b off) t o) s = .next { s with core := { s.core.storeScratch a (s.core.tImage t.val) with
          arch := { s.core.arch.seqUp o.stream 1 with touched := true } } }))) ∧
  (∀ (s : State) (f : Fmt) (t : TReg) (b : SReg) (cons : Bool) (o : OrdF), s.faultLdt f t (.pair b) = none → s.core.pool.wf = true →
    ∃ u, exec (.ldt f t (.pair b) cons o) s = .next u ∧
      u = { s with core := { s.core with
        pool := u.core.pool, badPool := u.core.badPool, lines := u.core.lines, plinks := u.core.plinks, recs := u.core.recs, threads := u.core.threads,
        arch := { s.core.arch.seqUp o.stream 1 with touched := true } } } ∧
      (∀ i < tileRows f, ∀ k < tileRowLen f,
        u.core.pool.get (16384 * t.val + tileRowStep f * i + k) = s.core.pool.get (s.core.scratchBase + padPlace (pairOf (s.pair b)) f i k)) ∧
      (∀ k, (∀ i < tileRows f, ∀ j < tileRowLen f, k ≠ 16384 * t.val + tileRowStep f * i + j) → u.core.pool.get k = s.core.pool.get k) ∧
      (∀ l, (cons = false ∨ l ∉ s.tileLines f b ∨ s.core.line l ≠ .full) → u.core.line l = s.core.line l) ∧
      (∀ l ∈ s.tileLines f b, cons = true → s.core.line l = .full → u.core.line l = .empty)) ∧
  (∀ (s : State) (f : Fmt) (b c : SReg) (t : TReg) (o : OrdF),
    (s.faultStt f t (.pair b) = none → exec (.stt f (.pair b) t o) s =
      .next { s with core := { s.core.tileOut f t.val (pairOf (s.pair b)) with arch := { s.core.arch.seqUp o.stream 1 with touched := true } } }) ∧
    (s.faultStp f b c t = none → exec (.stp f b c t o) s =
      .next { s with core := { (s.core.tileOut f t.val (pairOf (s.pair b))).tileOut f t.val (pairOf (s.pair c)) with
        arch := { s.core.arch.seqUp o.stream 1 with touched := true } } }) ∧
    (s.core.hasT t.val = true → (pairOf (s.pair b)).lay = 2 ∨ (pairOf (s.pair c)).lay ≠ 2 ∨ f.isBfp = true →
      exec (.stp f b c t o) s = .next (s.takeTrap [⟨1, Cause.operandForm, 0, 0, none⟩]))) ∧
  (∀ (c : Core) (f : Fmt) (t : TReg) (p : PairV), c.pool.wf = true → c.hasT t.val = true → p.formOk = true → (f.isBfp = true → p.lay = 0) →
    (∀ i < tileRows f, ∀ b < tileRowLen f, (∀ j < tileRows f, ∀ k < tileRowLen f, padPlace p f j k = padPlace p f i b → j = i ∧ k = b) →
      (c.tileOut f t.val p).pool.get (c.scratchBase + padPlace p f i b) = c.pool.get (16384 * t.val + tileRowStep f * i + b)) ∧
    (∀ a, (∀ i < tileRows f, ∀ b < tileRowLen f, a ≠ c.scratchBase + padPlace p f i b) → (c.tileOut f t.val p).pool.get a = c.pool.get a) ∧
    (c.tileOut f t.val p).arch = c.arch) ∧
  (∀ i j : Nat, i < 256 → j < 256 → zIndex i j < 65536 ∧
    (∀ k < 2, (zIndex i j).testBit k = j.testBit k ∧ (zIndex i j).testBit (k + 2) = i.testBit k) ∧
    (∀ k < 6, (zIndex i j).testBit (2 * k + 4) = j.testBit (k + 2) ∧ (zIndex i j).testBit (2 * k + 5) = i.testBit (k + 2)))

/-- Of an old value and operands below 2^(8n): AADD writes the sum modulo 2^(8n); AMIN and AMAX the smaller and larger as
n-byte signed numbers, AMINU and AMAXU unsigned; AAND, AOR and AXOR the bitwise results; ASWP the operand; ACAS the
second operand when the old value equals the first, and nothing otherwise; ASUBF old − v when old ≥ v and the
difference is at least the second operand, and nothing otherwise; AFADD the sum rounded to nearest even in FP32 or
FP64. (R254.) -/
def Obligations.AtomicArithmetic : Prop :=
  ∀ (z : Sz) (d b c e : SReg) (p : PReg) (off : BitVec 13) (o : OrdF) (n old v x : Nat), n = sizeBytes z → old < 2 ^ (8 * n) → v < 2 ^ (8 * n) → x < 2 ^ (8 * n) →
    let sg (w : Nat) : Int := if 2 * w < 2 ^ (8 * n) then w else (w : Int) - 2 ^ (8 * n)
    let val (i : Instr) : Option Nat := (atomicValue i n old v x).1
    let ok (i : Instr) : Bool := (atomicValue i n old v x).2.1
    val (.aadd z d b off c o) = some ((old + v) % 2 ^ (8 * n)) ∧
    (∃ w, val (.amin z d b off c o) = some w ∧ (w = old ∨ w = v) ∧ sg w = min (sg old) (sg v)) ∧
    (∃ w, val (.amax z d b off c o) = some w ∧ (w = old ∨ w = v) ∧ sg w = max (sg old) (sg v)) ∧
    val (.aminu z d b off c o) = some (min old v) ∧ val (.amaxu z d b off c o) = some (max old v) ∧
    val (.aand z d b off c o) = some (old &&& v) ∧ val (.aor z d b off c o) = some (old ||| v) ∧ val (.axor z d b off c o) = some (old ^^^ v) ∧
    val (.aswp z d b off c o) = some v ∧
    (old = v → val (.acas z d b off c e o) = some x) ∧ (old ≠ v → val (.acas z d b off c e o) = none) ∧
    (v ≤ old → x ≤ old - v → val (.asubf z d b off c e p o) = some (old - v) ∧ ok (.asubf z d b off c e p o) = true) ∧
    ((old < v ∨ old - v < x) → val (.asubf z d b off c e p o) = none ∧ ok (.asubf z d b off c e p o) = false) ∧
    (∀ f : SFmt, n = fBits f / 8 → val (.afadd f d b off c o) = some (f.ff.add .rne (f.ff.read old) (f.ff.read v)).1)

/-- An atomic on an address that is not a multiple of its size raises OPERAND_FORM. On the own scratchpad or a peer's, with
no POISONED line, it reads and writes its n bytes at once, Sd takes the old value and ASUBF's Pd the outcome, in the
registers and their shadow; a failing ACAS or ASUBF writes nothing; every other byte of either pool and all of main
memory stay. In memory it is put in flight with its operands and changes no register. (R255, R254, R159.) -/
def Obligations.AtomicsIssue : Prop :=
  ∀ (s : State) (z : Sz) (f : SFmt) (d b c e : SReg) (p : PReg) (off : BitVec 13) (o : OrdF),
    ∀ i ∈ [Instr.aadd z d b off c o, .amin z d b off c o, .amax z d b off c o, .aminu z d b off c o, .amaxu z d b off c o, .aand z d b off c o,
        .aor z d b off c o, .axor z d b off c o, .aswp z d b off c o, .acas z d b off c e o, .asubf z d b off c e p o, .afadd f d b off c o],
      ∀ (va : Word) (n v x : Nat), s.rs b + off.signExtend 64 = va → n = (if i = .afadd f d b off c o then fBits f / 8 else sizeBytes z) →
        v = (s.rs c).toNat % 2 ^ (8 * n) → x = (if i = .acas z d b off c e o ∨ i = .asubf z d b off c e p o then (s.rs e).toNat % 2 ^ (8 * n) else 0) →
        (va.toNat % n ≠ 0 → exec i s = .next (s.takeTrap [⟨1, Cause.operandForm, va, 0, none⟩])) ∧
        (va.toNat % n = 0 → (i = .afadd f d b off c o → s.troyOn = false) →
          let pd : Option PReg := if i = .asubf z d b off c e p o then some p else none
          (∀ ps, s.route va n .rmw = .ok (.mem ps) →
            ∃ t, exec i s = .next t ∧ s.SentLoad t ps n (.atom i (BitVec.ofNat 64 v) (BitVec.ofNat 64 x)) o va false) ∧
          (∀ a, s.route va n .rmw = .ok (.scratch a) → s.core.PadClean a n →
            ∃ t, exec i s = .next t ∧ t.mem = s.mem ∧ ∀ old, old = leVal (s.core.scratchBytes a n) →
              s.core.TookAtomic t.core d pd old (atomicValue i n old v x).2.1 ∧ t.core.cnt = s.core.cnt ∧ t.core.gate = s.core.gate ∧
              (∀ w, (atomicValue i n old v x).1 = some w → ∀ k < n, t.core.pool.get (s.core.scratchBase + a + k) = BitVec.ofNat 8 (w / 256 ^ k)) ∧
              ((atomicValue i n old v x).1 = none → t.core.pool = s.core.pool) ∧
              (∀ k, (k < s.core.scratchBase + a ∨ s.core.scratchBase + a + n ≤ k) → t.core.pool.get k = s.core.pool.get k)) ∧
          (∀ pos a, s.route va n .rmw = .ok (.clus pos a) → s.PeerClean pos a n →
            ∃ t, exec i s = .next t ∧ t.mem = s.mem ∧ ∀ (old base : Nat) (q q' : Core), old = leVal (s.peerRead pos a n) →
              q = s.coreAt (s.core.peer pos) → q' = t.coreAt (s.core.peer pos) → base = q.scratchBase →
              s.core.TookAtomic t.core d pd old (atomicValue i n old v x).2.1 ∧ t.core.cnt = s.core.cnt ∧ t.core.gate = s.core.gate ∧
              t.core.pool = s.core.pool ∧
              (∀ w, (atomicValue i n old v x).1 = some w → ∀ k < n, q'.pool.get (base + a + k) = BitVec.ofNat 8 (w / 256 ^ k)) ∧
              ((atomicValue i n old v x).1 = none → q'.pool = q.pool) ∧
              (∀ k, (k < base + a ∨ base + a + n ≤ k) → q'.pool.get k = q.pool.get k)))

/-- LINE in the own scratchpad, aligned and in range, adds one entry to the gate for S[SC] lines from the offset on, or
nothing when S[SC] is 0; LINEQ gives Sd two bits for each of 32 lines, its own uncommitted changes seen and lines past
the end 00. Outside the own SCRATCH window they raise WINDOW_BAD, in another core's SCRATCH_FOREIGN, on an offset that
is not a multiple of 128 OPERAND_FORM, past the end SCRATCH_RANGE. No line and no byte changes at issue. (R256, R257,
R31.) -/
def Obligations.LineStatesIssue : Prop :=
  ∀ (s : State) (st : LineSt) (d b c : SReg) (off : BitVec 22), ∀ (va : Word) (k : Nat), s.rs b + off.signExtend 64 = va → k = va.toNat % 2 ^ 32 →
    ((wbits va 63 56 ≠ 0xF8 ∨ wbits va 47 32 ≠ 0) →
      exec (.line st b off c) s = .next (s.takeTrap [⟨1, Cause.windowBad, va, 0, none⟩]) ∧
      exec (.lineq d b off) s = .next (s.takeTrap [⟨1, Cause.windowBad, va, 0, none⟩])) ∧
    (wbits va 63 56 = 0xF8 → wbits va 47 32 = 0 → wbits va 55 48 ≠ s.logical s.core.id →
      exec (.line st b off c) s = .next (s.takeTrap [⟨1, Cause.scratchForeign, va, 0, none⟩]) ∧
      exec (.lineq d b off) s = .next (s.takeTrap [⟨1, Cause.scratchForeign, va, 0, none⟩])) ∧
    (wbits va 63 56 = 0xF8 → wbits va 47 32 = 0 → wbits va 55 48 = s.logical s.core.id →
      (k % 128 ≠ 0 →
        exec (.line st b off c) s = .next (s.takeTrap [⟨1, Cause.operandForm, va, 0, none⟩]) ∧
        exec (.lineq d b off) s = .next (s.takeTrap [⟨1, Cause.operandForm, va, 0, none⟩])) ∧
      (k % 128 = 0 →
        (s.rs c = 0 → exec (.line st b off c) s = .next s) ∧
        (s.rs c ≠ 0 → k + 128 * (s.rs c).toNat ≤ s.core.scratchSize → exec (.line st b off c) s = .next { s with core := { s.core with
          gate := s.core.gate ++ [.line (k / 128) (s.rs c).toNat (match st with | .empty => .empty | .full => .full | .pois => .pois)],
          arch := { s.core.arch with touched := true } } }) ∧
        (s.rs c ≠ 0 → s.core.scratchSize < k + 128 * (s.rs c).toNat →
          exec (.line st b off c) s = .next (s.takeTrap [⟨1, Cause.scratchRange, va, 0, none⟩])) ∧
        (k < s.core.scratchSize → ∃ u v, s.WroteS u d v ∧
          exec (.lineq d b off) s = .next { u with core := { u.core with arch := { u.core.arch with touched := true } } } ∧
          ∀ t < 32, v.extractLsb' (2 * t) 2 = if k + 128 * t < s.core.scratchSize then
            (match s.core.lineView (k / 128 + t) with | .empty => 0#2 | .full => 1#2 | .pois => 2#2) else 0#2) ∧
        (s.core.scratchSize ≤ k → exec (.lineq d b off) s = .next (s.takeTrap [⟨1, Cause.scratchRange, va, 0, none⟩]))))

/-- HLD of an aligned, readable, accepted record installs it in Hn, counts one access on its stream and changes no other
shadowed register and no memory; from the own scratchpad the pool counts as used. It raises OPERAND_FORM for an address
that is not 128-byte aligned and SHAPE_BAD for a readable record that is refused. The records refused are those of R39 and
R69: a reserved byte or bit that is not 0, RANK 0 or above 5, LAYOUT 11, FMT 0x7 or 0x8, a BFP FMT with a LAYOUT other than
row-major, an extent below RANK that is 0, and a ragged record with RANK below 2, STR1 not 0 or RAGT not 8-byte aligned;
an accepted one gives the slot its fields, with extent 1, stride 0 and box 1 at or above RANK. HEV completes and empties the slot.
HGET completes and gives Sc the named one of the sixteen words of the record's 128 bytes (the effective extents,
strides and boxes of dimensions at or above RANK), or 0 for an empty slot, changing nothing else. (R259, R39, R69, R49.) -/
def Obligations.ShapeSlotForms : Prop :=
  (∀ (s : State) (h : HReg) (b : SReg) (off : BitVec 22) (o : OrdF), ∀ va : Word, s.rs b + off.signExtend 64 = va →
    (va.toNat % 128 ≠ 0 → exec (.hld h b off o) s = .next (s.takeTrap [⟨1, Cause.operandForm, va, 0, none⟩])) ∧
    (va.toNat % 128 = 0 → s.faultRead 1 va 128 = none →
      (parseShape (s.hldRecord b off) = none → exec (.hld h b off o) s = .next (s.takeTrap [⟨1, Cause.shapeBad, va, 0, none⟩])) ∧
      (∀ x, parseShape (s.hldRecord b off) = some x → ∃ t, exec (.hld h b off o) s = .next t ∧
        t = { s with
          tlb := t.tlb,
          core := { s.core with
            arch := { s.core.arch.seqUp o.stream 1 with h := s.core.arch.h.set h.val (some x), touched := t.core.arch.touched },
            l1 := t.core.l1, ahead := t.core.ahead, badL1 := t.core.badL1 } } ∧
        (t.core.arch.touched = true ↔ s.core.arch.touched = true ∨ ∃ a, s.route va 128 .read = .ok (.scratch a))))) ∧
  (∀ bs : List Byte,
    let f4 (i : Nat) : Nat := leVal ((bs.drop i).take 4)
    let f8 (i : Nat) : Nat := leVal ((bs.drop i).take 8)
    let w := f8 0
    let rank := w / 2 ^ 6 % 8
    let refused : Prop := w / 2 ^ 10 ≠ 0 ∨ f4 28 ≠ 0 ∨ f4 92 ≠ 0 ∨ f8 104 ≠ 0 ∨ f8 112 ≠ 0 ∨ f8 120 ≠ 0 ∨ rank = 0 ∨ 5 < rank ∨
      w / 2 ^ 4 % 4 = 3 ∨ w % 16 = 7 ∨ w % 16 = 8 ∨ (9 ≤ w % 16 ∧ w / 2 ^ 4 % 4 ≠ 0) ∨ (∃ d < rank, f4 (8 + 4 * d) = 0) ∨
      (w.testBit 9 = true ∧ (rank < 2 ∨ f8 40 ≠ 0 ∨ f8 96 % 8 ≠ 0))
    (parseShape bs = none ↔ refused) ∧
    (∀ x, parseShape bs = some x → x.fmt.code = w % 16 ∧ x.layout.val = w / 2 ^ 4 % 4 ∧ x.rank.val = rank ∧ x.ragged = w.testBit 9 ∧
      x.ragt.toNat = f8 96 ∧ ∀ d : Fin 5, x.ext[d.val] = (if d.val < rank then f4 (8 + 4 * d.val) else 1) ∧
        x.str[d.val].toNat = (if d.val < rank then f8 (32 + 8 * d.val) else 0) ∧ x.box[d.val] = (if d.val < rank then f4 (72 + 4 * d.val) else 1))) ∧
  (∀ (s : State) (h : HReg), s.GivesCore (.hev h) (fun c => { c with arch := { c.arch with h := c.arch.h.set h.val none } })) ∧
  (∀ (s : State) (c : SReg) (h : HReg) (w : Fin 16),
    (s.core.src.h[h.val] = none → s.GivesS (.hget c h w) c 0) ∧
    (∀ x, s.core.src.h[h.val] = some x → ∃ v, s.GivesS (.hget c h w) c v ∧ v.toNat =
      let two (a b : Nat) : Nat := a % 2 ^ 32 + b % 2 ^ 32 * 2 ^ 32
      (match w.val with
      | 0 => x.fmt.code + x.layout.val * 16 + x.rank.val * 64 + (if x.ragged then 512 else 0)
      | 1 => two x.ext[0] x.ext[1]
      | 2 => two x.ext[2] x.ext[3]
      | 3 => two x.ext[4] 0
      | 4 => x.str[0].toNat
      | 5 => x.str[1].toNat
      | 6 => x.str[2].toNat
      | 7 => x.str[3].toNat
      | 8 => x.str[4].toNat
      | 9 => two x.box[0] x.box[1]
      | 10 => two x.box[2] x.box[3]
      | 11 => two x.box[4] 0
      | 12 => x.ragt.toNat
      | _ => 0)))

/-- H0 of a namespace word and H of a page's tokens are the folds of R332 with the four constants of hash version 1, all
modulo 2^64. (R332.) -/
def Obligations.ChainHashIsTheRules : Prop :=
  ∀ (ns h : Word) (ts : List (BitVec 32)),
    let fold (x : Word) : Word :=
      let x := x ^^^ (x >>> 33)
      let x := x * 0xD3E159A70B4F8C2D#64
      let x := x ^^^ (x >>> 29)
      let x := x * 0x8F2B6C93E17DA455#64
      x ^^^ (x >>> 32)
    hashStart ns = fold (ns ^^^ 0x5C4E2A7193D0B68F#64) ∧
    hashPage h [] = fold (h ^^^ 32#64) ∧
    (∀ t, hashPage h (t :: ts) =
      hashPage (((h ^^^ t.setWidth 64) * 0xA24B7D1F3C85E6B9#64) ^^^ (((h ^^^ t.setWidth 64) * 0xA24B7D1F3C85E6B9#64) >>> 31)) ts)

/-- PFXR with bits 63 to 32 of Sc zero completes: for an entry of the task's ASID with that page and a count above 0 the
count falls by 1, Sd takes it, and a count that reaches 0 stamps the entry; otherwise Sd is 2^64 − 1 and the directory
stays. With those bits set it raises OPERAND_FORM. PFXI with a checked request completes, at any DEPTH: a parent that the
rule does not admit refuses with status 11; a page already held raises the count of exactly its entry and answers status
01 with the page; a page number in use is refused with status 11; a new page below capacity joins with count 1 and answers
status 00; at capacity the leaf of the ASID with count 0 and the lowest stamp, other than the parent, makes way and is
answered, and with none the answer is status 10. PFXL with a checked request completes: Sd takes the number of pages of
the sequence's prefix that are hit one after the other, each one's count rises by 1, and OUT takes their page numbers, a
page's tokens being read after the OUT words of the pages before it are written; the search ends at the first page with no
entry or with a full count, and a request of no page changes nothing but Sd. (R334, R335, R336, R337, R333, R338.) -/
def Obligations.PrefixTableForms : Prop :=
  (∀ (s : State) (d c : SReg) (o : OrdF),
    (wbits (s.rs c) 63 32 ≠ 0 → exec (.pfxr d c o) s = .next (s.takeTrap [⟨1, Cause.operandForm, 0, 0, none⟩])) ∧
    (wbits (s.rs c) 63 32 = 0 → ∃ (t u : State) (v : Word), exec (.pfxr d c o) s = .next t ∧ s.WroteS u d v ∧
      t = { u with pfx := t.pfx, pfxNext := t.pfxNext, core := { u.core with arch := u.core.arch.seqUp o.stream 1 } } ∧
      ((∀ e, s.pfxPage (s.asidOf s.core) ((s.rs c).extractLsb' 0 32) = some e → e.ref = 0) →
        v = BitVec.allOnes 64 ∧ t.pfx = s.pfx ∧ t.pfxNext = s.pfxNext) ∧
      (∀ e, s.pfxPage (s.asidOf s.core) ((s.rs c).extractLsb' 0 32) = some e → e.ref ≠ 0 → v = BitVec.ofNat 64 (e.ref - 1) ∧ t.pfxNext = s.pfxNext + 1 ∧
        { e with ref := e.ref - 1, stamp := if e.ref = 1 then s.pfxNext else e.stamp } ∈ t.pfx ∧
        (∀ x ∈ s.pfx, (x.asid ≠ e.asid ∨ x.page ≠ e.page) → x ∈ t.pfx) ∧ t.pfx.length = s.pfx.length))) ∧
  (∀ (s : State) (d b : SReg) (off : BitVec 22) (o : OrdF), s.faultPfxi b off = none →
    ∃ (t u : State) (v : Word), exec (.pfxi d b off o) s = .next t ∧ s.WroteS u d v ∧
      t = { u with tlb := t.tlb, pfx := t.pfx, pfxNext := t.pfxNext, core := { u.core with
        arch := u.core.arch.seqUp o.stream 1, l1 := t.core.l1, ahead := t.core.ahead, badL1 := t.core.badL1 } } ∧
      ∀ (q : List Byte) (asid depth : Nat) (ns : Word) (ts : List (BitVec 32)) (page parent : BitVec 32),
        q = s.pfxReq b off → asid = s.asidOf s.core → ns = reqWord q 0 → depth = field32 q 24 → page = BitVec.ofNat 32 (field32 q 16) →
        parent = BitVec.ofNat 32 (field32 q 20) → ts = (tokPages (s.spanBytes (reqWord q 8) 128) 1).headD [] →
        let refused : Prop := v = BitVec.ofNat 64 (3 * 2 ^ 62 + 0xFFFFFFFF) ∧ t.pfx = s.pfx ∧ t.pfxNext = s.pfxNext
        let start (g : Word) : Prop := (depth = 0 ∧ parent = 0xFFFFFFFF#32 ∧ g = hashStart ns) ∨
          (depth ≠ 0 ∧ ∃ p, s.pfxPage asid parent = some p ∧ p.ns = ns ∧ p.depth + 1 = depth ∧ g = p.hash)
        let free (e : PfxEnt) : Prop := e.asid = asid ∧ e.ref = 0 ∧ e.page ≠ parent ∧ ∀ x ∈ s.pfx, x.asid = asid → x.parent ≠ e.page
        ((∀ g, ¬ start g) → refused) ∧
        (∀ g0 g, start g0 → g = hashPage g0 ts →
          (∀ e, s.pfxHit asid ns depth g parent ts = some e →
            (e.ref = 2 ^ 32 - 1 → refused) ∧
            (e.ref ≠ 2 ^ 32 - 1 → v = BitVec.ofNat 64 (2 ^ 62 + e.page.toNat) ∧ t.pfxNext = s.pfxNext ∧
              t.pfx = s.pfx.map (fun x => if x.asid = asid ∧ x.page = e.page then { x with ref := x.ref + 1 } else x))) ∧
          (s.pfxHit asid ns depth g parent ts = none →
            ((page = 0xFFFFFFFF#32 ∨ (s.pfxPage asid page).isSome) → refused) ∧
            (page ≠ 0xFFFFFFFF#32 → s.pfxPage asid page = none →
              (s.pfx.length < 1048576 → v = BitVec.ofNat 64 0xFFFFFFFF ∧ t.pfxNext = s.pfxNext + 1 ∧
                t.pfx = ⟨asid, ns, depth, g, parent, ts, page, 1, s.pfxNext⟩ :: s.pfx) ∧
              (1048576 ≤ s.pfx.length → (∀ e ∈ s.pfx, ¬ free e) →
                v = BitVec.ofNat 64 (2 * 2 ^ 62 + 0xFFFFFFFF) ∧ t.pfx = s.pfx ∧ t.pfxNext = s.pfxNext) ∧
              (1048576 ≤ s.pfx.length → (∃ e ∈ s.pfx, free e) → ∃ e ∈ s.pfx, free e ∧ (∀ x ∈ s.pfx, free x → e.stamp ≤ x.stamp) ∧
                v = BitVec.ofNat 64 e.page.toNat ∧ t.pfxNext = s.pfxNext + 1 ∧
                t.pfx = ⟨asid, ns, depth, g, parent, ts, page, 1, s.pfxNext⟩ :: s.pfx.filter (fun x => ¬(x.asid = asid ∧ x.page = e.page))))))) ∧
  (∀ (s : State) (d b : SReg) (off : BitVec 22) (o : OrdF), s.faultPfxl b off = none →
    (∃ (t : State) (hs : List (BitVec 32)) (us : Nat → State), exec (.pfxl d b off o) s = .next t ∧
      t.core.arch = (s.core.arch.ws d (BitVec.ofNat 64 hs.length)).seqUp o.stream 1 ∧ t.pfxNext = s.pfxNext ∧
      ∀ (q : List Byte) (asid n : Nat) (ns : Word) (ts : Nat → List (BitVec 32)) (g : Nat → Word) (pg : Nat → PfxSlot),
        q = s.pfxReq b off → asid = s.asidOf s.core → ns = reqWord q 0 → n = field32 q 24 → (∀ k, pg k = (s.pfxSlots q).getD k ⟨[], [], 0⟩) →
        (∀ k, ts k = (us k).pfxToks (pg k)) → g 0 = hashStart ns → (∀ k, g (k + 1) = hashPage (g k) (ts k)) →
        let fits (k : Nat) (e : PfxEnt) : Prop := e ∈ s.pfx ∧ e.asid = asid ∧ e.ns = ns ∧ e.depth = k ∧ e.hash = g (k + 1) ∧
          e.parent = (if k = 0 then 0xFFFFFFFF#32 else hs.getD (k - 1) 0) ∧ e.tok = ts k
        us 0 = s ∧ (∀ k < hs.length, ∃ w : State, w = { us k with pfx := w.pfx } ∧ us (k + 1) = w.putOut (pg k) (hs.getD k 0)) ∧ t.mem = (us hs.length).mem ∧
        (∀ k < n, pg k = ⟨s.spanList (reqWord q 8 + BitVec.ofNat 64 (128 * k)) 128 .read, s.spanList (reqWord q 16 + BitVec.ofNat 64 (4 * k)) 4 .write,
          reqWord q 16 + BitVec.ofNat 64 (4 * k)⟩) ∧
        hs.length ≤ n ∧ (∀ k < hs.length, ∃ e, fits k e ∧ hs.getD k 0 = e.page) ∧
        (hs.length < n → (∀ e, ¬ fits hs.length e) ∨ ∃ e, fits hs.length e ∧ e.ref + hs.count e.page = 2 ^ 32 - 1) ∧
        t.pfx = s.pfx.map (fun x => if x.asid = asid then { x with ref := x.ref + hs.count x.page } else x)) ∧
    (∀ (x : PfxSlot) (p : Part) (page : BitVec 32) (k j : Nat), x.out = [p] → p.n = 4 → p.pa % 32 ≤ 28 → s.noRoute s.core p.pa = false →
      s.troyOf s.core = none → s.region p.pa = .dram k j →
      s.MemSameBut (s.putOut x page) p.pa 4 ∧ (s.putOut x page).mem.bytes p.pa 4 = leBytes 4 page.toNat) ∧
    (field32 (s.pfxReq b off) 24 = 0 → ∃ (t u : State), exec (.pfxl d b off o) s = .next t ∧ s.WroteS u d 0 ∧
      t = { u with tlb := t.tlb, core := { u.core with
        arch := u.core.arch.seqUp o.stream 1, l1 := t.core.l1, ahead := t.core.ahead, badL1 := t.core.badL1 } }))

/-- The last part of a load, when no earlier access of its core holds it back, its home has a route and its data are not
poisoned, gives its register the bytes read, little-endian, in the shadow too once its interval has committed; SEQLD
also gives SEQL the value divided by 2^sh, rounded up, and a tile load its T register the bytes. An atomic reads its
bytes at their home, writes what AtomicArithmetic says there or nothing, and gives Sd the old value and ASUBF's Pd the
outcome. The access leaves the list and its stream's counter falls by one. A load that a rollback dropped leaves
without writing. An access number that no load has changes nothing. But for an atomic's bytes main memory stays as it
was. What a load from another package reads is the sector that came back for its core (R161, R368, by log 66's choice of one
sector a flit), without earlier stores of its own in the way. (R101, R161, R250, R252, R255, R331, R178, R368.) -/
def Obligations.LoadsReturn : Prop :=
  (∀ (s : State) (u : Nat), (∀ l ∈ s.core.loads, l.uid ≠ u) → exec (.loadReturn u) s = .next s) ∧
  (∀ (s : State) (l : PLoad) (p : Part), s.core.loads.find? (fun x => x.uid == l.uid) = some l → l.parts = [p] → p.ends = true →
    s.core.loadBlocked l p = false → s.noRoute s.core p.pa = false → s.farWaits l p = false → s.partBad l p = false →
    (∀ op v e, l.dest ≠ .atom op v e) →
    ∃ t, exec (.loadReturn l.uid) s = .next t ∧ t = { s with core := t.core, ox := t.ox } ∧ (isRemote p.pa = false → s.farWaits l p = false) ∧ t.core.loads = s.core.loads.filter (fun x => x.uid ≠ l.uid) ∧
      t.core.cnt = s.core.cnt.set l.ord.stream.val (s.core.cnt[l.ord.stream.val] - 1) ∧ ∀ bs : List Byte, bs = l.got ++ s.loadBytes l p →
      (l.dropped = true → t.core.arch = s.core.arch ∧ t.core.ckpt = s.core.ckpt ∧ t.core.pool = s.core.pool) ∧
      (l.dropped = false → ∀ a : Arch → Arch,
        ((∃ d, l.dest = .s d ∧ a = fun r => r.ws d (BitVec.ofNat 64 (leVal bs))) ∨
          (∃ d sh q, l.dest = .seql d sh ∧ q * 2 ^ sh < leVal bs + 2 ^ sh ∧ leVal bs ≤ q * 2 ^ sh ∧
            a = fun r => { r.ws d (BitVec.ofNat 64 (leVal bs)) with seql := BitVec.ofNat 64 q }) ∨
          (l.dest = .none ∧ a = fun r => r)) →
        t.core.arch = a s.core.arch ∧ t.core.ckpt = (if l.committed then a s.core.ckpt else s.core.ckpt) ∧ t.core.pool = s.core.pool) ∧
      (l.dropped = false → ∀ d f, l.dest = .t d f → t.core.arch = s.core.arch ∧ t.core.ckpt = s.core.ckpt ∧
        (∀ i < bs.length, t.core.pool.get (16384 * d.val + i) = bs.getD i 0) ∧
        (∀ k, (k < 16384 * d.val ∨ 16384 * d.val + bs.length ≤ k) → t.core.pool.get k = s.core.pool.get k))) ∧
  (∀ (s : State) (l : PLoad) (p : Part) (i : Instr) (z : Sz) (f : SFmt) (d b c e : SReg) (pd : PReg) (off : BitVec 13) (o : OrdF) (v x : Word) (k j n : Nat),
    i ∈ [Instr.aadd z d b off c o, .amin z d b off c o, .amax z d b off c o, .aminu z d b off c o, .amaxu z d b off c o, .aand z d b off c o,
      .aor z d b off c o, .axor z d b off c o, .aswp z d b off c o, .acas z d b off c e o, .asubf z d b off c e pd o, .afadd f d b off c o] →
    n = (if i = .afadd f d b off c o then fBits f / 8 else sizeBytes z) →
    s.core.loads.find? (fun x => x.uid == l.uid) = some l → l.parts = [p] → p.n = n → l.dest = .atom i v x → l.dropped = false →
    s.core.loadBlocked l p = false → s.noRoute s.core p.pa = false → s.partBad l p = false → s.region p.pa = .dram k j →
    ∃ t, exec (.loadReturn l.uid) s = .next t ∧ t.core.loads = s.core.loads.filter (fun y => y.uid ≠ l.uid) ∧
      t.core.cnt = s.core.cnt.set l.ord.stream.val (s.core.cnt[l.ord.stream.val] - 1) ∧ t.core.pool = s.core.pool ∧
      ∀ old, old = leVal ((List.range n).map (fun q => s.physByte (p.pa + q))) →
      s.core.TookAtomic t.core d (if i = .asubf z d b off c e pd o then some pd else none) old (atomicValue i n old v.toNat x.toNat).2.1 ∧
      s.MemSameBut t p.pa n ∧
      (∀ w, (atomicValue i n old v.toNat x.toNat).1 = some w → ∀ q < n, t.mem.get (p.pa + q) = BitVec.ofNat 8 (w / 256 ^ q)) ∧
      ((atomicValue i n old v.toNat x.toNat).1 = none → t.mem = s.mem)) ∧
  (∀ (s : State) (l : PLoad) (p : Part), assoc s.core.l1 (p.pa / 128) = none → s.core.ahead = [] → s.loadBytes l p = s.readParts s.core l.uid [p]) ∧
  (∀ (s : State) (u : Nat) (p : Part) (x : FarSect), s.core.stores = [] → s.core.held = [] → s.core.gate = [] → isRemote p.pa = true →
    p.pa % 32 + p.n ≤ 32 → s.ox.got.find? (fun y => y.core == s.core.id && y.pa == p.pa / 32 * 32) = some x →
    s.readParts s.core u [p] = (List.range p.n).map (fun i => x.sect.bytes.getD (p.pa % 32 + i) 0)) ∧
  (∀ (s : State) (u : Nat) (p : Part), s.core.stores = [] → s.core.held = [] → s.core.gate = [] →
    (∀ a, p.pa ≤ a → a < p.pa + p.n → ∃ d k, s.region a = .dram d k) → s.readParts s.core u [p] = (List.range p.n).map (fun i => s.mem.get (p.pa + i)))

/-- The last part of a store to a die's memory, when no earlier access holds it back, a route is left and its task is not
in Troy mode, writes its bytes from the part's physical address on; every byte of main memory outside them reads as
before; the store leaves the list, its stream's counter falls by one, and the core's registers stay. With no route left
its sector is poisoned and memory stays. A store to the own scratchpad that was held back at its commit lands its bytes
there when nothing holds it any more; that such a store waits here is log 84's reading of R90 and R176. A store held back
by a full counter leaves the hold as soon as the counter has room, raising it, and not before. (R101, R102, R197, R110,
R367.) -/
def Obligations.StoresPerform : Prop :=
  (∀ (s : State) (u : Nat), (∀ y ∈ s.core.stores, y.uid ≠ u) → exec (.storePerformed u) s = .next s) ∧
  (∀ (s : State) (y : PStore) (p : Part) (d k : Nat), s.core.stores.find? (fun x => x.uid == y.uid) = some y → y.clus = none → y.parts = [p] → p.ends = true →
    s.core.storeBlocked y p = false → s.region p.pa = .dram d k → y.bytes.length = p.n → p.n ≠ 0 →
    ∃ t, exec (.storePerformed y.uid) s = .next t ∧
      t.core.stores = s.core.stores.filter (fun x => x.uid ≠ y.uid) ∧ t.core.arch = s.core.arch ∧ t.core.ckpt = s.core.ckpt ∧ t.core.pool = s.core.pool ∧
      t.core.cnt = s.core.cnt.set y.ord.stream.val (s.core.cnt[y.ord.stream.val] - 1) ∧
      (s.noRoute s.core p.pa = false → s.troyOf s.core = none → (∀ i < p.n, t.mem.get (p.pa + i) = y.bytes.getD i 0) ∧ s.MemSameBut t p.pa p.n) ∧
      (s.noRoute s.core p.pa = true → t.mem = s.mem ∧ t.poison = p.pa / 32 :: s.poison)) ∧
  (∀ (s : State) (y : PStore) (off : Nat), s.core.stores.find? (fun x => x.uid == y.uid) = some y → y.clus = none → y.parts = [] → y.scratch = some off →
    (s.core.storeBlocked y peerPart = true → exec (.storePerformed y.uid) s = .next s) ∧
    (s.core.storeBlocked y peerPart = false → ∃ t, exec (.storePerformed y.uid) s = .next t ∧ t = { s with core := t.core } ∧
      t.core.arch = s.core.arch ∧ t.core.stores = s.core.stores.filter (fun x => x.uid ≠ y.uid) ∧
      t.core.cnt = s.core.cnt.set y.ord.stream.val (s.core.cnt[y.ord.stream.val] - 1) ∧
      (∀ i < y.bytes.length, t.core.pool.get (s.core.scratchBase + off + i) = y.bytes.getD i 0) ∧
      (∀ a, (a < s.core.scratchBase + off ∨ s.core.scratchBase + off + y.bytes.length ≤ a) → t.core.pool.get a = s.core.pool.get a))) ∧
  (∀ (s : State) (y : PStore) (r : List PStore), s.core.held = y :: r →
    (s.core.cnt[y.ord.stream.val] + y.count ≤ 63 → s.GivesCore .gatedStoreRelease (fun c => { c with
      held := r, stores := c.stores ++ [y], cnt := c.cnt.set y.ord.stream.val (c.cnt[y.ord.stream.val] + y.count) })) ∧
    (63 < s.core.cnt[y.ord.stream.val] + y.count → exec .gatedStoreRelease s = .next s)) ∧
  (∀ s : State, s.core.held = [] → exec .gatedStoreRelease s = .next s)

/-- An access to a peer's scratchpad is checked when it is issued, which the model takes for its arrival at the peer's bank
(logs 58 and 97; R159 checks it as it arrives, R249 at issue): at a position that names no live, online core with a task
of the same launch CLUSTER_FOREIGN, past the peer's size SCRATCH_RANGE, at the M slot; a line that is EMPTY at the peer
makes a load's bundle wait for it; with its checks passed a load takes the peer's bytes at once, and a store goes
through the gate. A store that has left the gate, that nothing holds back and whose peer still holds its task, lands
its bytes in the peer's scratchpad and changes no other byte of it; it then waits only for its own return, and one whose
peer has been stopped has no effect (log 97). Main memory stays as it was. (R159, R160, R32, R31, R249.) -/
def Obligations.PeerAccessesArrive : Prop :=
  (∀ (s : State) (z : Sz) (d b : SReg) (off : BitVec 22) (o : OrdF), ∀ (va : Word) (n pos a : Nat), s.rs b + off.signExtend 64 = va → sizeBytes z = n →
    s.window s.core va n = .ok (.clus pos a) →
    ∀ q : Core, q = s.coreAt (s.core.peer pos) →
    (s.peerOk s.core pos = false → exec (.ld z d b off o) s = .next (s.takeTrap [⟨1, Cause.clusterForeign, va, 0, none⟩]) ∧
      exec (.st z b off d o) s = .next (s.takeTrap [⟨1, Cause.clusterForeign, va, 0, none⟩])) ∧
    (s.peerOk s.core pos = true → q.scratchSize < a + n →
      exec (.ld z d b off o) s = .next (s.takeTrap [⟨1, Cause.scratchRange, va, 0, none⟩]) ∧
      exec (.st z b off d o) s = .next (s.takeTrap [⟨1, Cause.scratchRange, va, 0, none⟩])) ∧
    (s.peerOk s.core pos = true → a + n ≤ q.scratchSize →
      s.route va n .read = .ok (.clus pos a) ∧ s.route va n .write = .ok (.clus pos a) ∧
      (∀ (x : Bundle) (l : Nat), x.single = some (.ld z d b off o) → a / 128 ≤ l → l ≤ (a + n - 1) / 128 → q.line l = .empty →
        (∀ k, a / 128 ≤ k → k < l → q.line k ≠ .empty) → s.emptyLines x = [(1, l)]) ∧
      (s.core.pending' = [] → s.PeerClean pos a n → ∃ t, exec (.ld z d b off o) s = .next t ∧ t.mem = s.mem ∧
        (d ≠ 0 → t.core.arch.rs d = BitVec.ofNat 64 (leVal (q.pool.bytes (q.scratchBase + a) n)))))) ∧
  (∀ (s : State) (y : PStore) (pos off : Nat), s.core.stores.find? (fun x => x.uid == y.uid) = some y →
    y.clus = some (pos, off) →
    (s.core.storeBlocked y peerPart = true → exec (.clusAccessArrive y.uid) s = .next s) ∧
    (s.core.storeBlocked y peerPart = false → s.core.peer pos ≠ s.core.id →
      ∃ t, exec (.clusAccessArrive y.uid) s = .next t ∧ t.mem = s.mem ∧ t.core.arch = s.core.arch ∧ t.core.pool = s.core.pool ∧
        t.core.stores = s.core.stores.map (fun x => if x.uid = y.uid then { x with clus := none } else x) ∧
        ∀ q q' : Core, q = s.coreAt (s.core.peer pos) → q' = t.coreAt (s.core.peer pos) →
        (q.task.map Task.launch = s.core.task.map Task.launch → q.status ≠ .stopped →
          (∀ i < y.bytes.length, q'.pool.get (q.scratchBase + off + i) = y.bytes.getD i 0) ∧
          (∀ k, (k < q.scratchBase + off ∨ q.scratchBase + off + y.bytes.length ≤ k) → q'.pool.get k = q.pool.get k)) ∧
        ((q.task.map Task.launch ≠ s.core.task.map Task.launch ∨ q.status = .stopped) → q'.pool = q.pool))) ∧
  (∀ (s : State) (u : Nat), (∀ y ∈ s.core.stores, y.uid = u → y.clus = none) → exec (.clusAccessArrive u) s = .next s)

/-- An X-slot instruction whose operands pass the checks of R274 completes by forking one thread on stream 0, which
captures the shape word, the pairs, PIVT and ZPOL as the bundle found them; it takes an engine record that was free
and counts on the stream. A form of the MMA family leaves in each hold latch that its operand is not taken from the
extents and format of that operand; every other form leaves the latches. A failing check traps at the X slot with its
cause, an absent Z destination with REG_ABSENT before any other. No S or P register, no byte of memory, pool or
scratchpad changes. (R274, R97, R212, R279, R185.) -/
def Obligations.XSlotForks : Prop :=
  ∀ (s : State) (x : XArgs), ∀ i ∈ [Instr.mma x, .mmas x, .mmar x, .mmat x, .zclr x, .zld x, .zst x, .zmov x, .trans x, .spbuild x, .rowred x,
      .colred x, .softrow x, .merge x, .topk x, .window x, .lup x, .chol x, .qrh x, .trsm x, .trmm x],
    (s.faultX i = none → ∃ (t : State) (th : Thread), exec i s = .next t ∧ s.Forked t i ⟨0, 0, .core⟩ th ∧ th.sh = s.rs x.sh ∧
      th.pivt = s.core.src.pivt ∧ th.zpol = s.core.src.zpol ∧ t.core.colln = s.core.colln ∧
      (∀ n k, x.oa = .pair n k → th.oa = (s.rs n, s.rs (n + 1))) ∧ (∀ n k, x.ob = .pair n k → th.ob = (s.rs n, s.rs (n + 1))) ∧
      (∀ n k, x.od = .pair n k → th.od = (s.rs n, s.rs (n + 1))) ∧
      (i ∈ [Instr.mma x, .mmas x, .mmar x, .mmat x] →
        t.core.arch.latchA = (if x.oa = .hold then s.core.arch.latchA else some ⟨wbits (s.rs x.sh) 8 0, wbits (s.rs x.sh) 17 9, x.fa, false⟩) ∧
        t.core.arch.latchB = (if x.ob = .hold then s.core.arch.latchB else
          some ⟨wbits (s.rs x.sh) 17 9, wbits (s.rs x.sh) 26 18, x.fb, decide (i = .mmar x ∨ (i = .mmas x ∧ x.var = 1))⟩)) ∧
      (i ∉ [Instr.mma x, .mmas x, .mmar x, .mmat x] → t.core.arch.latchA = s.core.arch.latchA ∧ t.core.arch.latchB = s.core.arch.latchB)) ∧
    (∀ f, s.faultX i = some f → exec i s = .next (s.takeTrap [f]) ∧ f.slot = 2) ∧
    (∀ n, x.od = .z n → s.core.hasZ n.val = false → exec i s = .next (s.takeTrap [⟨2, Cause.regAbsent, 0, 0, none⟩]))

/-- The class of a pair of formats is that of R71. An INT8 accumulation is the exact sum of products added to the
accumulator, modulo 2^32, however it is cut into groups; an FP64 one is a chain of fused steps in order. A thread of
MMA over INT8 in T registers with both ports unbound leaves in every element of its window the old value plus the
exact product sum, modulo 2^32, and meets no fault. ZCLR leaves a granule of zeros and the kind of its format; ZMOV
leaves its source window at its destination window. Every other form leaves at its destination what its rule gives, with
no port program bound: the multiplies by class, dense, sparse or rescaled; ZLD, ZST, TRANS and SPBUILD; the reductions,
softmax rows, merged triples, ranked scores and windowed sums; and the factorisations, step by step, with PERM, GROW,
FPROG and FSTAT. Of a row rescaled with a NaN maximum the accumulators, the sum and m become the NaN, which is log 94's
reading of R86 and R283. (R71, R72, R74, R75, R280, R281, R282, R285, R289, R290, R303, R306.) -/
def Obligations.ArrayResults : Prop :=
  (∀ a b : Fmt, a.pairOk b = true → accClass a b = (if a = .fp64 then .chain else if a = .fp32 ∨ b = .fp32 then .wide
    else if a = .int8 ∧ b = .int8 then .int else if a.isBfp = true ∨ b.isBfp = true then .block else .narrow)) ∧
  (∀ (z : Nat) (ts : List (Option (Machine.Num × Machine.Num))), z < 2 ^ 32 → (accumulate .int z ts).1 = wrapTo 32 (signedOf 32 z +
    (ts.map (fun t => match t with | some (x, y) => x.toInt * y.toInt | none => 0)).sum)) ∧
  (∀ (z : Nat) (ts : List (Option (Machine.Num × Machine.Num))) (x y : Machine.Num), ∀ v : Nat, v = (accumulate .chain z ts).1 →
    (accumulate .chain z (ts ++ [some (x, y)])).1 = (ff64.fma .rne x y (ff64.read v) [ff64.read v, x, y]).1 ∧
    (accumulate .chain z (ts ++ [none])).1 = v) ∧
  (∀ (c : Core) (t : Thread) (x : XArgs) (e : Word) (a b : TReg) (z : ZReg), ∀ w : ShapeW, w = shapeW t.sh → t.ins = .mma x →
    x.fa = .int8 → x.fb = .int8 → x.oa = .t a → x.ob = .t b → x.od = .z z → t.pa.prog = none → t.pb.prog = none → 1 ≤ w.k →
    ∃ rows : List (List Nat), (runX c t e).pool = c.writeRuns (.z z.val w.zrow w.zcol) .fp32 rows ∧ (runX c t e).flt = none ∧ rows.length = w.m ∧
      ∀ i < w.m, ∀ j < w.n, nth (rows.getD i []) j = wrapTo 32 (signedOf 32 (nth ((c.readPlace (.z z.val w.zrow w.zcol) .fp32 w.m w.n).getD i []) j) +
        ((List.range w.k).map (fun k => signedOf 8 (nth ((c.readPlace (.t a.val) .int8 w.m w.k).getD i []) k) *
          signedOf 8 (nth ((c.readPlace (.t b.val) .int8 w.k w.n).getD k []) j))).sum)) ∧
  (∀ (c : Core) (t : Thread) (x : XArgs) (e : Word) (z : ZReg), x.od = .z z →
    (t.ins = .zclr x → (runX c t e).pool = [((c.partw.tg + z.val) * 0x40000, List.replicate 0x40000 0)] ∧ (runX c t e).flt = none ∧
      (runX c t e).zkind = some (z, match x.fd with | .fp64 => .fp64 | .int8 => .int32 | _ => .fp32)) ∧
    (∀ y : ZReg, t.ins = .zmov x → x.oa = .z y → (runX c t e).flt = none ∧
      (runX c t e).pool = c.writeRuns (.z z.val ((shapeW t.sh).ext % 256) ((shapeW t.sh).ext / 256)) .fp32
        (c.readPlace (.z y.val (shapeW t.sh).zrow (shapeW t.sh).zcol) .fp32 (shapeW t.sh).m (shapeW t.sh).n))) ∧
  PlacesWords ∧ SumsExactly ∧ AccumulatesByClass ∧ MultipliesOperands ∧ RescalesRows ∧ MovesOperands ∧ BuildsPlanes ∧
  ReducesByTree ∧ PicksExtremes ∧ ReducesOperands ∧ MergesTriples ∧
  StepsLup ∧ StepsChol ∧ StepsQrh ∧ StepsTriangles ∧ RunsFactorisations

/-- STAGE completes in every state by forking a thread on its stream. COPY, GATHER, SCATTER, MBOX, AREDUCE and BCAST whose
operands pass the checks at issue complete by forking a thread that captures the shape slot, both operands (OFF counts in
units of 128 bytes), and the coordinate or index group; AREDUCE and BCAST also take the next collective number of their
scope. A failing check traps at the C slot with its cause; a form other than MBOX whose operands are pairs and whose shape
slot is empty raises SHAPE_BAD. No S or P register and no byte of memory or of the pool changes. A copy of a box of zero
extent, and a GATHER or SCATTER of no boxes, counts on its stream and is complete at once, whatever its coordinate or
index registers hold, but for an index count of 0 in a malformed group: this is log 109's choice between R265 and R262,
R266. The elements of a copy, their places on both sides, and the bytes that its thread then puts there are those of R40
and R261 to R264. That the thread reads all its elements in one step and holds its sectors from then on is log 30's
reading. (R260, R97, R213, R247, R269, R259, R40, R261, R262, R264, R265, R266.) -/
def Obligations.CSlotForks : Prop :=
  (∀ (s : State) (o : OrdF), ∃ (t : State) (th : Thread), exec (.stage o) s = .next t ∧ s.Forked t (.stage o) o th ∧ th.coll = none ∧
    t.core.colln = s.core.colln ∧ t.core.arch.latchA = s.core.arch.latchA ∧ t.core.arch.latchB = s.core.arch.latchB) ∧
  (∀ (s : State) (op : RedOp) (c : CArgs), ∀ i ∈ [Instr.copy c, .gather c, .scatter c, .mbox c, .areduce op c, .bcast c],
    let idle : Prop := i ∈ [Instr.copy c, .gather c, .scatter c] ∧ ∃ h, s.core.src.h[c.hs.val] = some h ∧
      ((∃ d : Fin 5, h.box[d.val] = 0) ∨ (i ≠ .copy c ∧ c.cr.val ≤ 13 ∧ (s.rs (Fin.ofNat 64 c.cr.val)).toNat % 4 = 0 ∧
        wbits (s.rs (Fin.ofNat 64 (c.cr.val + 1))) 31 0 = 0 ∧ (s.rs (Fin.ofNat 64 (c.cr.val + 2))).toNat % 4 = 0))
    (s.faultC i = none → idle → exec i s = .next { s with
      uid := s.uid + 1, core := { s.core with forks := s.core.forks + 1, arch := { s.core.arch.seqUp c.ord.stream 1 with touched := true } } }) ∧
    (s.faultC i = none → ¬ idle → ∃ (t : State) (th : Thread), exec i s = .next t ∧ s.Forked t i c.ord th ∧
      t.core.arch.latchA = s.core.arch.latchA ∧ t.core.arch.latchB = s.core.arch.latchB ∧ th.shape = s.core.src.h[c.hs.val] ∧
      th.od = (if c.dk then (s.rs c.dr, s.rs (c.dr + 1)) else (s.rs c.dr + BitVec.ofNat 64 (128 * c.off.val), 0)) ∧
      th.oa = (if c.sk then (s.rs c.sr, s.rs (c.sr + 1)) else (s.rs c.sr + BitVec.ofNat 64 (if c.dk then 128 * c.off.val else 0), 0)) ∧
      (i ∈ [Instr.gather c, .scatter c] → th.cr = (s.rs (Fin.ofNat 64 c.cr.val), s.rs (Fin.ofNat 64 (c.cr.val + 1)), s.rs (Fin.ofNat 64 (c.cr.val + 2)))) ∧
      (i = .copy c → c.cr ≠ 0 → th.cr = (s.rs (Fin.ofNat 64 c.cr.val), s.rs (Fin.ofNat 64 (c.cr.val + 1)), 0)) ∧
      (i ∈ [Instr.areduce op c, .bcast c] → ∀ k : Fin 4, k = (match c.ord.scope with | .core => 0 | .clus => 1 | .pkg => 2 | .sys => 3) →
        th.coll = some (c.ord.scope, s.core.colln[k.val]) ∧ t.core.colln = s.core.colln.set k.val (s.core.colln[k.val] + 1)) ∧
      (i ∉ [Instr.areduce op c, .bcast c] → th.coll = none ∧ t.core.colln = s.core.colln)) ∧
    (∀ f, s.faultC i = some f → exec i s = .next (s.takeTrap [f]) ∧ f.slot = 3) ∧
    (i ≠ .mbox c → c.dk = true → c.sk = true → s.core.src.h[c.hs.val] = none →
      exec i s = .next (s.takeTrap [⟨3, Cause.shapeBad, 0, 0, none⟩]))) ∧
  PlacesElements ∧ CopiesElements

/-- GLD at a GPTR that is a multiple of 64, inside the scratchpad and not on poisoned data, takes the 64 bytes there, the
core's own gated stores included, as the pending value of Gd with five bundles to pass, and adds 64 × inc to GPTR;
otherwise it raises OPERAND_FORM, SCRATCH_RANGE, DATA_POISON or POISON_LINE (whose TADDR for a line that no thread
poisoned is log 124's choice). GZERO makes Gd zero and drops its pending value. Every executed bundle lowers each pending
count by one; a pending value whose count is 0 becomes the register's value and no other does. (R272, R273, R32, R197.) -/
def Obligations.ScaleRegisters : Prop :=
  (∀ (s : State) (g : GReg) (inc : Fin 1024), ∀ o : Nat, o = s.core.src.gptr.toNat % 2 ^ 32 →
    (o % 64 = 0 → o < s.core.scratchSize → s.core.lineView (o / 128) ≠ .pois → s.core.padSpoilt o 64 = false →
      s.GivesCore (.gld g inc) (fun c => { c with arch := { c.arch with
        gpend := c.arch.gpend.set g.val (some (s.core.scratchBytes o 64, 5)),
        gptr := s.core.src.gptr + BitVec.ofNat 64 (64 * inc.val),
        touched := true } })) ∧
    (o % 64 ≠ 0 → exec (.gld g inc) s = .next (s.takeTrap [⟨4, Cause.operandForm, 0, 0, none⟩])) ∧
    (o % 64 = 0 → s.core.scratchSize ≤ o → exec (.gld g inc) s = .next (s.takeTrap [⟨4, Cause.scratchRange, 0, 0, none⟩])) ∧
    (o % 64 = 0 → o < s.core.scratchSize → s.core.lineView (o / 128) = .pois → s.core.linkOf (o / 128) = none →
      exec (.gld g inc) s = .next (s.takeTrap [⟨4, if s.core.lineBad (o / 128) then Cause.dataPoison else Cause.poisonLine,
        BitVec.ofNat 64 (128 * (o / 128)), 0, none⟩])) ∧
    (o % 64 = 0 → o < s.core.scratchSize → s.core.lineView (o / 128) ≠ .pois → s.core.padSpoilt o 64 = true →
      exec (.gld g inc) s = .next (s.takeTrap [⟨4, Cause.dataPoison, 0, 0, none⟩]))) ∧
  (∀ (s : State) (g : GReg), s.GivesCore (.gzero g) (fun c => { c with arch := { c.arch with
    g := c.arch.g.set g.val (List.replicate 64 0), gpend := c.arch.gpend.set g.val none, touched := true } })) ∧
  (∀ (s : State) (g : GReg),
    (∀ v, s.core.arch.gpend[g.val] = some (v, 0) → s.GivesCore (.gldValueVisible g) (fun c => { c with arch := { c.arch with
      g := c.arch.g.set g.val v, gpend := c.arch.gpend.set g.val none } })) ∧
    ((∀ v, s.core.arch.gpend[g.val] ≠ some (v, 0)) → exec (.gldValueVisible g) s = .next s)) ∧
  (∀ (c : Core) (b : Bool), (c.complete b).arch.gpend = c.arch.gpend.map (fun p => p.map (fun x => (x.1, x.2 - 1))))

/-- The thread that the X slot may start next begins to run with its results computed, on the core itself or, for a form
that Scenil 224L emulates, on the die control core once no earlier emulated thread of its die is left; with none to
start nothing changes. Its results are those that ArrayResults gives for it, from the registers as it sees them: a
factorisation's, or another form's with its scratchpad bytes cut into sectors, the latches it fills and the lines it
consumes; poisoned data end it, but a factorisation that FPROG turns away has read nothing and ends by
OPERAND_FORM. The next sector of a running thread for the own scratchpad or for a die's memory, when
no earlier access holds it back, lands its bytes and leaves every other byte. A thread with no sector left completes: it
leaves the core, its counter falls by one, its pool results and its flags appear in the registers and their shadow; its
record is freed, or keeps its fault. A STAGE thread raises its launch's stage counter. (R274, R5, R97, R264, R185, R31,
R197, R212, R279, R302.) -/
def Obligations.EngineThreads : Prop :=
  (∀ (s : State), (s.core.nextX = none → exec .xThreadStart s = .next s ∧ exec .dccEmulatedThread s = .next s) ∧
    (∀ t, s.core.nextX = some t →
      let seen : Core := { s.core with pool := t.olds.foldl (fun p o => withT p o.1 o.2) s.core.pool }
      let o := runX seen t s.entryPc
      let with' (js : List Job) (r : EngRes) : List Thread :=
        s.core.threads.map (fun y => if y.id = t.id then { y with phase := .running, jobs := js, res := some r } else y)
      let turned : Prop := ∃ x, t.ins ∈ [Instr.lup x, .chol x, .qrh x, .trsm x, .trmm x] ∧
        ∀ (w : ShapeW) (op n st : Nat), w = shapeW t.sh → st = wbits s.core.arch.fprog 17 16 →
          op = (if t.ins = .lup x then 0x18 else if t.ins = .chol x then 0x19 else if t.ins = .qrh x then 0x1A else if t.ins = .trsm x then 0x1B else 0x1C) →
          n = (if t.ins = .lup x ∨ t.ins = .qrh x then min w.m w.n else if t.ins ≠ .chol x ∧ x.var.val.testBit 0 = true then w.n else w.m) →
          2 ≤ st ∨ (st = 1 ∧ (wbits s.core.arch.fprog 31 26 ≠ op ∨ n ≤ wbits s.core.arch.fprog 8 0))
      let Runs (i : Instr) : Prop :=
        (s.core.xBad t = true → ¬ turned → exec i s = .next (s.threadFault t Cause.dataPoison none)) ∧
        (turned → ∃ f, (runFactor seen t s.entryPc 256).2.1.flt = some f ∧ f.cause = Cause.operandForm) ∧
        ((s.core.xBad t = false ∨ turned) → isFact t.ins = true → exec i s = .next { s with core := { s.core with threads := with' [] (runFactor seen t s.entryPc 256).2.1 } }) ∧
        (s.core.xBad t = false → isFact t.ins = false → ∃ (u : State) (js : List Job), exec i s = .next u ∧
          JobsHold js JobDest.scratch (o.scr.flatMap (fun r => r.2.mapIdx (fun i b => (r.1 + i, b)))) ∧
          (∀ l, u.core.line l = if l ∈ s.core.consumed t ∧ s.core.line l = .full then .empty else s.core.line l) ∧
          u = { s with core := { s.core with
            threads := with' js { pool := o.pool, side := o.side, zkind := o.zkind, fprog := none, fstat := 0, grow := none, perm := [], flags := o.flags, flt := o.flt },
            latA := o.latA.getD s.core.latA, latB := o.latB.getD s.core.latB,
            badLatA := s.core.badLatA && o.latA.isNone, badLatB := s.core.badLatB && o.latB.isNone,
            lines := u.core.lines, plinks := u.core.plinks, recs := u.core.recs } })
      (s.emulated t.ins = false → Runs .xThreadStart ∧ exec .dccEmulatedThread s = .next s) ∧
      (s.emulated t.ins = true → exec .xThreadStart s = .next s ∧
        ((∀ c ∈ s.others, c.id ≠ s.core.id → dieOf c.id = dieOf s.core.id → ∀ y ∈ c.threads, s.emulated y.ins = true → t.id ≤ y.id) →
          Runs .dccEmulatedThread)))) ∧
  (∀ (s : State) (t : Thread) (j : Job) (r : List Job), s.core.threads.find? (fun y => y.id == t.id) = some t → t.phase = .running → t.jobs = j :: r →
    (j.bytes.map Prod.fst).Nodup → (∀ b ∈ j.bytes, b.1 < 32) →
    let landed : List Thread := s.core.threads.map (fun y => if y.id = t.id then { y with jobs := r, landed := y.landed + 1 } else y)
    (∀ off, j.dest = .scratch off → s.core.landBlocked t peerPart true = true → exec (.copySectorLands t.id) s = .next s) ∧
    (∀ off, j.dest = .scratch off → s.core.landBlocked t peerPart true = false → ∃ u, exec (.copySectorLands t.id) s = .next u ∧
      u = { s with core := u.core } ∧ u.core.arch = s.core.arch ∧ u.core.threads = landed ∧
      (∀ b ∈ j.bytes, u.core.pool.get (s.core.scratchBase + off + b.1) = b.2) ∧
      (∀ a, (∀ b ∈ j.bytes, a ≠ s.core.scratchBase + off + b.1) → u.core.pool.get a = s.core.pool.get a)) ∧
    (∀ va a p, j.dest = .addr va → s.window s.core va 32 = .ok (.mem a) → s.partsAt (s.asidOf s.core) a 32 .write = .ok [p] →
      s.core.landBlocked t p false = false → s.noRoute s.core p.pa = false → s.troyOf s.core = none → (∀ k < 32, ∃ d o, s.region (p.pa + k) = .dram d o) → (∀ c, t.ins ≠ .mbox c) →
      ∃ u, exec (.copySectorLands t.id) s = .next u ∧ u.core.arch = s.core.arch ∧ u.core.pool = s.core.pool ∧ u.core.threads = landed ∧
        (∀ b ∈ j.bytes, u.mem.get (p.pa + b.1) = b.2) ∧ (∀ k, (∀ b ∈ j.bytes, k ≠ p.pa + b.1) → u.mem.get k = s.mem.get k))) ∧
  (∀ (s : State) (t : Thread) (r : EngRes), s.core.threads.find? (fun y => y.id == t.id) = some t → t.phase = .running → t.jobs = [] → t.res = some r →
    s.unfinished t = false → (∀ c, t.ins ≠ .mbox c) →
    ∃ u, exec (.engineThreadComplete t.id) s = .next u ∧ u = { s with core := u.core } ∧ u.core.threads = s.core.threads.filter (fun y => y.id ≠ t.id) ∧
      u.core.cnt = s.core.cnt.set t.ord.stream.val (s.core.cnt[t.ord.stream.val] - 1) ∧ u.core.pool = s.core.pool.puts r.pool ∧
      u.core.side = s.core.side.puts r.side ∧ u.core.arch.s = s.core.arch.s ∧ u.core.arch.p = s.core.arch.p ∧ u.core.arch.pc = s.core.arch.pc ∧
      u.core.arch.xflags = s.core.arch.xflags ||| r.flags ∧ u.core.ckpt.xflags = s.core.ckpt.xflags ||| r.flags ∧
      (r.flt = none → (∀ p ∈ s.core.plinks, p.2 ≠ t.recIx) → assoc u.core.recs t.recIx = none) ∧
      (∀ f e, r.flt = some f → assoc u.core.recs t.recIx = some e → e.flt = some f)) ∧
  (∀ (s : State) (t : Thread) (o : OrdF) (l : Launch), s.core.threads.find? (fun y => y.id == t.id) = some t → t.ins = .stage o → t.phase = .queued →
    s.core.forkBlocked t = false → s.launchOf s.core = some l → l.sched = [] → (∀ y ∈ s.launches, y.id = l.id → y = l) →
    ∃ u, exec (.engineThreadComplete t.id) s = .next u ∧ u = { s with core := u.core, launches := u.launches } ∧
      u.core.threads = s.core.threads.filter (fun y => y.id ≠ t.id) ∧ u.core.arch = s.core.arch ∧
      u.core.cnt = s.core.cnt.set t.ord.stream.val (s.core.cnt[t.ord.stream.val] - 1) ∧
      u.launches = s.launches.map (fun y => if y.id = l.id then { y with stage := min (y.stage + 1) (2 ^ 32 - 1) } else y))

/-- COLLECTIVE_INSTANCE_READY of a collective that a participant has still to join, here or in another package of its
group (log 67's choice: one participant at least must have come from each, and what it brings in the reduce flits of its
package), changes nothing; once all have
joined and every destination can be written, it is gone and main memory is as it was. A BCAST gives every participant the
values of the first participant with their poison, an AREDUCE the tree's result over the participants in order, converted
to the format; an AREDUCE sum over INT8 is the exact sum, saturated to INT8, for up to 256 participants. A participant's
thread then runs on the sectors that put each value at its place. (R269, R270, R271, R75, R368, R370, R197.) -/
def Obligations.Collectives : Prop :=
  (∀ (s : State) (sc : Scope) (k : Nat) (far : List FarPart),
    let came : Bool := s.farCame sc (s.collOf sc k).parts (far.filter (fun x => (s.otherPkgs sc).contains x.pkg))
    ((s.collOf sc k).parts = [] ∨ (s.collOf sc k).parts.length < s.sharers sc ∨ (∃ p ∈ s.otherPkgs sc, ∀ x ∈ far, x.pkg ≠ p) ∨ came = false →
      exec (.collectiveInstanceReady sc k far) s = .next s) ∧
    (s.otherPkgs sc = [] → came = true) ∧
    ((s.collOf sc k).parts ≠ [] → s.sharers sc ≤ (s.collOf sc k).parts.length → (∀ p ∈ s.otherPkgs sc, ∃ x ∈ far, x.pkg = p) → came = true →
      (∀ p ∈ (s.collOf sc k).parts, ∀ vs, (s.focus p.core).destStop ((s.focus p.core).collJobs p vs) = none) →
      ∃ t, exec (.collectiveInstanceReady sc k far) s = .next t ∧ t.mem = s.mem ∧ t.core.id = s.core.id ∧
        ∀ y ∈ t.colls, ¬ (y.launch = (s.collOf sc k).launch ∧ y.cluster = (s.collOf sc k).cluster ∧ y.scope = (s.collOf sc k).scope ∧
          y.k = (s.collOf sc k).k))) ∧
  (∀ (p : CollPart) (r : List CollPart) (c : CArgs), p.ins = .bcast c → (collValues (p :: r)).1 = List.zip p.vals p.bad) ∧
  (∀ (p : CollPart) (r : List CollPart) (c : CArgs) (op : RedOp) (n : Nat), p.ins = .areduce op c → p.vals.length = n →
    let e : Elt := .fmt p.shape.fmt
    (collValues (p :: r)).1 = (List.range n).map (fun i =>
      ((e.exit .rne (if op = .sum then .sat else .inf) e.working (laneCode e.working
        (reduce e.working op ((p :: r).map (fun q => e.widen (nth q.vals i)))).1)).code, false))) ∧
  (∀ (s : State) (p : CollPart) (t : Thread) (h : Shape) (c : CArgs) (els : List CEl) (vs : List (Nat × Bool)),
    s.core.threads.find? (fun y => y.id == p.thread) = some t → t.shape = some h → cArgs t.ins = some c →
    s.copyEls ⟨t.id, none⟩ t.ins c t.cr h = .ok els → vs.length = els.length →
    let bytes (a : Nat) (v : Nat) : List (Nat × Byte) := (leBytes h.unit v).mapIdx (fun k b => (a + k, b))
    (c.dk = true → JobsHold (s.collJobs p vs) JobDest.scratch
      ((List.zip els vs).flatMap (fun x => bytes ((pairOf t.od).elemAt h x.1.el) x.2.1))) ∧
    (c.dk = false → JobsHold (s.collJobs p vs) (fun a => JobDest.addr (BitVec.ofNat 64 a))
      ((List.zip els vs).flatMap (fun x => match x.1.off with | none => [] | some o => bytes (t.od.1 + o).toNat x.2.1))) ∧
    (p.core = s.core.id → (s.deliverColl p vs 0 none).core.threads = s.core.threads.map (fun y => if y.id = t.id then
      { y with phase := .running, jobs := s.collJobs p vs, res := some (t.res.getD (cRes t 0 [])) } else y))) ∧
  (∀ (p : CollPart) (r : List CollPart) (c : CArgs) (n : Nat), p.ins = .areduce .sum c → p.shape.fmt = .int8 → r.length < 256 →
    (∀ q ∈ p :: r, q.vals.length = n) →
    (collValues (p :: r)).1.length = n ∧
    ∀ i < n, nth ((collValues (p :: r)).1.map Prod.fst) i =
      wrapTo 8 (max (-128) (min 127 ((p :: r).map (fun (q : CollPart) => signedOf 8 (nth q.vals i))).sum)))

/-- BUNDLE_FETCH_FAULT, when the fetch at the PC fails, traps with its cause in all five slots and the PC as address, after
the record of a home, or of a table on the way, that no route leads to any more; that every cause has this mask is log 24's
reading, since R179 does not name PTE_BAD and DATA_POISON; with a bundle that can be fetched it changes nothing. ILLEGAL traps
with cause ILLEGAL in exactly the slots that the decoder names for the bundle at the PC. A bundle that waits for EMPTY
lines below LINEWAIT only waits, and each clk that is one of its core's own counts in STALLC and the stall, whichever agent
acts; which clks those are is log 7's choice. STALL_LIMIT, for a running core whose
stall has reached LINEWAIT, traps in the waiting slots with cause STALL_LIMIT and the first such line's offset, and below
LINEWAIT changes nothing. (R179, R203, R164, R32, R150, R367.) -/
def Obligations.WholeBundleFaults : Prop :=
  (∀ (s : State),
    (∀ c, s.fetch = .error c → ∀ found : Except Cause Phys, found = s.translate (s.asidOf s.core) s.core.arch.pc.toNat .fetch →
      let way (a : Nat) : Option Nat := (s.walkLost (s.asidOf s.core) a).or (s.walkLost (s.asidOf s.core) (a + 127))
      ∃ u, exec .bundleFetchFault s = .next (u.takeTrap ([0, 1, 2, 3, 4].map (fun k => ⟨k, c, s.core.arch.pc, 0, none⟩))) ∧
        (wbits s.core.arch.pc 63 57 ≠ 0 → u = s) ∧
        (∀ p, found = .ok p → s.noRoute s.core p.pa = false → u = s) ∧
        (∀ e, found = .error e → (∀ a, s.window s.core s.core.arch.pc 1 = .ok (.mem a) → way a = none) → u = s) ∧
        (wbits s.core.arch.pc 63 57 = 0 →
          (∀ p, found = .ok p → s.noRoute s.core p.pa = true → u = s.routeError s.core.arch.pc p.pa) ∧
          (∀ e a pa, found = .error e → s.window s.core s.core.arch.pc 1 = .ok (.mem a) → way a = some pa → u = s.routeError s.core.arch.pc pa))) ∧
    (∀ w, s.fetch = .ok w → exec .bundleFetchFault s = .next s)) ∧
  (∀ (s : State) (w : Nat) (m : BitVec 5), s.fetch = .ok w → decodeBundle w = .error m.toNat →
    exec (.illegal m) s = .next (s.takeTrap (([0, 1, 2, 3, 4].filter (fun k => m.getLsbD k)).map (fun k => ⟨k, Cause.illegal, 0, 0, none⟩)))) ∧
  (∀ (s : State) (b : Bundle) (ws : List (Nat × Nat)), ∀ r : State, r = s.ready b → r.core.stopsHere = false → r.core.watching = none →
    r.plan b = .lines ws → (r.core.arch.linewait = 0 ∨ r.core.stall < r.core.arch.linewait.toNat) →
    s.issueBundle exec b = .next r) ∧
  (∀ (s : State), s.core.status = .running → s.core.watching = none →
    (s.ownClk s.core = false → s.tick.core = s.core) ∧
    (s.ownClk s.core = true → ∀ b ws, s.bundleHere = some b → (s.ready b).core.stopsHere = false → (s.ready b).core.watching = none →
      ((s.ready b).plan b = .lines ws → s.tick.core = { s.core with ran := s.core.ran + 1, stallc := s.core.stallc + 1, stall := s.core.stall + 1 }) ∧
      ((s.ready b).plan b = .go → s.tick.core = { s.core with ran := s.core.ran + 1 }))) ∧
  (∀ (s : State) (b : Bundle) (ws : List (Nat × Nat)), s.core.status = .running → s.bundleHere = some b → (s.ready b).plan b = .lines ws →
    (s.core.arch.linewait ≠ 0 → s.core.arch.linewait.toNat ≤ s.core.stall →
      exec .stallLimit s = .next ((s.ready b).takeTrap (ws.map (fun w => ⟨w.1, Cause.stallLimit, BitVec.ofNat 64 (128 * w.2), 0, none⟩)))) ∧
    ((s.core.arch.linewait = 0 ∨ s.core.stall < s.core.arch.linewait.toNat) → exec .stallLimit s = .next s))

/-- A verdict is kept in REPLY. For a ticket that nothing waits with, nothing else changes. RESUME lets the waiting core
run again from its restart point, and a waiting thread go on from the sector that faulted; DELIVER makes the faults of
the bundle's slots, each with its own cause, a precise trap of the core, and a thread's fault its poison, or with a
collective that of every thread of the instance; KILL makes the cause of the first replayable fault fatal to the context; that the
record and KILL carry that one, where a bundle holds faults of other kinds too, is log 56's reading.
REPLAY_QUEUE_ROOM takes the oldest record of the context's replay queue; a core that waited for room then sends its
record with a ticket and waits for the verdict. (R188, R171, R179, R183, R185, R269.) -/
def Obligations.ReplayVerdicts : Prop :=
  (∀ (s : State) (d : Fin 8) (k : BitVec 16),
    let kept (v : Nat) : State := { s with disp := s.disp.set d.val { s.disp[d.val] with reply := BitVec.ofNat 64 (k.toNat * 256 + v) } }
    (s.ticketOf d.val k.toNat = none →
      exec (.replyResume d k) s = .next (kept 0) ∧ exec (.replyDeliver d k) s = .next (kept 1) ∧ exec (.replyKill d k) s = .next (kept 2)) ∧
    (∀ fs, s.ticketOf d.val k.toNat = some (s.core.id, none) → s.core.status = .replay k.toNat fs →
      exec (.replyResume d k) s = .next { kept 0 with core := { s.core with status := .running } } ∧
      exec (.replyDeliver d k) s = .next (({ kept 1 with core := { s.core with status := .running } } : State).precise fs s.core.ckpt.pc) ∧
      ∀ f ∈ fs, isReplayable f.cause = true → f.slot < 5 → (∀ g ∈ fs, isReplayable g.cause = true → g = f ∨ f.slot < g.slot) →
        exec (.replyKill d k) s = .next ((kept 2).fatal f.cause 0 (tmaskOf fs) s.core.ckpt.pc f.taddr f.tinfo 0)) ∧
    (∀ th n c va, s.ticketOf d.val k.toNat = some (s.core.id, some th.id) → s.core.threads.find? (fun y => y.id == th.id) = some th →
      th.phase = .replay n c va →
      exec (.replyResume d k) s = .next { kept 0 with core := { s.core with threads := s.core.threads.map (fun y =>
        if y.id = th.id then
          (if y.jobs = [] ∧ y.met.isSome = true then { y with phase := .queued, met := none, res := none }
           else { y with phase := if y.res.isNone then .queued else .running })
        else y) } } ∧
      (∀ sc n, th.coll = some (sc, n) → th.jobs ≠ [] → isFatal c = false → c ≠ Cause.memUe → exec (.replyDeliver d k) s = .next
        ((((kept 1).instThreads sc n).foldl (fun (u : State) x => (u.focus x.1).threadFault x.2 c (some va)) (kept 1)).focus s.core.id)) ∧
      (th.coll = none → exec (.replyDeliver d k) s = .next ((kept 1).threadFault th c (some va)) ∧
        (isFatal c = false → c ≠ Cause.memUe → ∃ t, exec (.replyDeliver d k) s = .next t ∧ ∀ y ∈ t.core.threads, y.id = th.id →
          y.phase = .running ∧ y.jobs = [] ∧ ∃ r f, y.res = some r ∧ r.flt = some f ∧ f.cause = c ∧ f.taddr = va)) ∧
      (∀ sc n, th.coll = some (sc, n) → th.jobs = [] → exec (.replyDeliver d k) s = .next ((kept 1).collFault th sc n (c, some va))) ∧
      exec (.replyKill d k) s = .next ((kept 2).fatal c 0 0 th.pc va (engInfo 0 (th.pc - s.entryPc).toNat) 0))) ∧
  (∀ (s : State), ∀ q : Queue, q = (s.ctxQ s.core.ctx).replay → (∀ y ∈ s.core.threads, ∀ c va, y.phase ≠ .waitRoom c va) →
    ((∀ fs, s.core.status ≠ .waitRoom fs) → ∃ t, exec .replayQueueRoom s = .next t ∧ t = { s with ctxQueues := t.ctxQueues } ∧
      (t.ctxQ s.core.ctx).replay = (if q.count = 0 then q else { q with cons := q.cons + 1 }) ∧
      (t.ctxQ s.core.ctx).fatal = (s.ctxQ s.core.ctx).fatal ∧
      (q.count ≤ q.ring.length → (t.ctxQ s.core.ctx).replay.recs = q.recs.drop 1)) ∧
    (∀ fs, s.core.status = .waitRoom fs → 0 < q.count → q.count ≤ q.ring.length → q.ring.length ≤ 256 →
      ∃ t k y, exec .replayQueueRoom s = .next t ∧ t.mem = s.mem ∧
      t.core = { s.core with status := .replay k fs } ∧ (t.ctxQ s.core.ctx).replay.recs = q.recs.drop 1 ++ [y] ∧
      y.kind = 3 ∧ y.ticket = k ∧ y.tmask = tmaskOf fs ∧ y.xpc = s.core.ckpt.pc ∧
      ∀ f ∈ fs, isReplayable f.cause = true → f.slot < 5 → (∀ g ∈ fs, isReplayable g.cause = true → g = f ∨ f.slot < g.slot) →
        y.cause = f.cause ∧ y.taddr = f.taddr ∧ y.tinfo = f.tinfo))

/-- A running stream of a working package whose CSB names a readable record that passes the checks of R134 gets a launch:
with the record's fields, numbered by SEQNO as it stands before the record is counted (log 43) and stamped with device
time, its first min(COUNT, NPL) slots waiting; SEQNO rises by one and CSB takes the record's NEXT. A record that a check
rejects makes no launch, counts in SEQNO, has its code written to DONE and stops its stream, and one that cannot be read,
its data poisoned or lost among them (log 44), stops it uncounted. A stream that is stopped, whose CSB is 0 or that has
read 16 launches ahead reads nothing, and a SERIAL record is not read before all before it have completed (log 42).
HANDLER_LAUNCH_START makes a launch of the message at the head of a mailbox, with the record as its fire read, tested and
stamped it, once the engine thread that fired it has ended and the handler before it has started and, with SERIAL,
completed; a record that its fire rejected never joins the queue, and the next event of the mailbox answers it (log 45).
A write to ADOPT makes one whose slots stand in their saves. What a record or a table it names still lacks of sectors of
another package is asked for, and the same read goes on when they have come (R368; the numbers of such reads and the route
they take are log 120's choice). (R133, R134, R136, R131, R143, R144, R145, R368, R377.) -/
def Obligations.LaunchRecords : Prop :=
  (∀ (s : State) (d k : Fin 8) (bs : List Byte), ∀ (x : Disp) (y : Stream) (r : LRec), x = s.disp[d.val] → y = x.streams[k.val] → r = parseLRec bs →
    let lacks : List Nat := s.missRecord d.val y.sasid.toNat y.csb false
    let asking : Bool := s.reading (.event (.launchRecordRead d k))
    (∀ e es, lacks = e :: es → asking = false → y.run = true → y.csb ≠ 0 → s.booted = true → s.inReset = false →
      (s.launches.filter (fun l => decide (l.die = d.val ∧ l.stream = some k.val) && l.unstarted)).length < 16 →
      ∃ o : Oxlink, exec (.launchRecordRead d k) s = .next { s with uid := s.uid + 1, ox := o } ∧
        o = { s.ox with asks := o.asks, out := o.out, seqOut := o.seqOut, waits := s.ox.waits ++ [⟨s.readUid, s.core.id, .event (.launchRecordRead d k)⟩] } ∧
        (s.ox.asks = [] → s.ox.got = [] → o.asks = [⟨0, dispNo d.val s.readUid, s.readUid, e⟩])) ∧
    (asking = true → exec (.launchRecordRead d k) s = .next s) ∧
    ((y.run = false ∨ y.csb = 0 ∨ s.booted = false ∨
      16 ≤ (s.launches.filter (fun l => decide (l.die = d.val ∧ l.stream = some k.val) && l.unstarted)).length) →
      exec (.launchRecordRead d k) s = .next s) ∧
    (y.run = true → y.csb ≠ 0 → s.booted = true → s.inReset = false →
      (s.launches.filter (fun l => decide (l.die = d.val ∧ l.stream = some k.val) && l.unstarted)).length < 16 →
      lacks = [] → asking = false → ∀ c, s.readG d.val y.sasid.toNat y.csb 128 = .error c → ∃ t, exec (.launchRecordRead d k) s = .next t ∧ t.launches = s.launches ∧
        (t.disp[d.val]).seqno = x.seqno ∧ ((t.disp[d.val]).streams[k.val]).run = false ∧ ((t.disp[d.val]).streams[k.val]).csb = y.csb) ∧
    (lacks = [] → s.readG d.val y.sasid.toNat y.csb 128 = .ok bs → r.serial = true → (∃ l ∈ s.launches, l.die = d.val ∧ l.stream = some k.val) →
      exec (.launchRecordRead d k) s = .next s) ∧
    (lacks = [] → asking = false → s.booted = true → s.inReset = false → y.run = true → y.csb ≠ 0 → s.readG d.val y.sasid.toNat y.csb 128 = .ok bs →
      (s.launches.filter (fun l => decide (l.die = d.val ∧ l.stream = some k.val) && l.unstarted)).length < 16 →
      (r.serial = true → ∀ l ∈ s.launches, ¬ (l.die = d.val ∧ l.stream = some k.val)) →
      (∀ cores etab sched thr, s.checkRec d.val r false = .ok cores etab sched thr → ∃ t l, exec (.launchRecordRead d k) s = .next t ∧
        t = { s with launches := s.launches ++ [l], uid := s.uid + 1, disp := t.disp } ∧
        (t.disp[d.val]).seqno = x.seqno + 1 ∧ ((t.disp[d.val]).streams[k.val]).csb = r.next ∧ ((t.disp[d.val]).streams[k.val]).run = true ∧
        l.id = s.uid ∧ l.lr = r ∧ l.die = d.val ∧ l.stream = some k.val ∧ l.lseq = x.seqno.toNat ∧ l.age = s.dtime ∧ l.cores = cores ∧ l.eff = r.prio ∧
        l.waited = 0 ∧
        l.slots = (List.range (min r.count r.npl)).map SlotSt.waiting ∧ l.status = .running ∧ l.handler = none) ∧
      (∀ code, s.checkRec d.val r false = .reject code → ∃ t, exec (.launchRecordRead d k) s = .next t ∧ t.launches = s.launches ∧
        (s.mboxes = [] → (t.disp[d.val]).seqno = x.seqno + 1) ∧ ((t.disp[d.val]).streams[k.val]).run = false ∧
        ((t.disp[d.val]).streams[k.val]).csb = y.csb ∧
        (∀ p, r.done ≠ 0 → r.done.toNat % 8 = 0 → wbits r.done 63 57 = 0 → s.partsAt r.asid r.done.toNat 8 .write = .ok [p] → p.n = 8 →
          p.pa % 32 ≤ 24 → (∃ d o, s.region p.pa = .dram d o) → s.noRouteAt d.val p.pa = false → leVal (t.mem.bytes p.pa 8) = x.seqno.toNat % 2 ^ 32 * 2 ^ 32 + code)))) ∧
  (∀ (s : State) (m : Nat) (b : Mailbox) (msg : Mail) (q : List Mail), s.mboxes.find? (fun x => x.pa == m) = some b →
    let here : Prop := b.turned = [] ∧ ∀ x ∈ b.queue, x.adm ≠ .far
    (b.turned = [] → b.queue = [] → exec (.handlerLaunchStart m) s = .next s) ∧
    (∀ pre x, b.turned = [] → b.queue = pre ++ x :: q → (∀ y ∈ pre, y.adm ≠ .far) → x.adm = .far → s.booted = true → s.inReset = false →
      s.reading (.event (.handlerLaunchStart m)) = false →
      (∀ e es, s.missRecord b.die b.asid b.lrec false = e :: es → ∃ o : Oxlink, exec (.handlerLaunchStart m) s = .next { s with uid := s.uid + 1, ox := o } ∧
        o.waits = s.ox.waits ++ [⟨s.readUid, s.core.id, .event (.handlerLaunchStart m)⟩] ∧
        (s.ox.asks = [] → s.ox.got = [] → o.asks = [⟨0, dispNo b.die s.readUid, s.readUid, e⟩])) ∧
      (s.missRecord b.die b.asid b.lrec false = [] → ∀ bs cores etab sched thr, s.readG b.die b.asid b.lrec 128 = .ok bs →
        s.checkRec b.die (parseLRec bs) false = .ok cores etab sched thr →
        ∃ t y, exec (.handlerLaunchStart m) s = .next t ∧ t.launches = s.launches ∧ t.mem = s.mem ∧
          t.mboxes.find? (fun z => z.pa == m) = some { b with queue := pre ++ y :: q } ∧
          y = { x with lr := parseLRec bs, adm := .ok cores etab sched thr, lseq := y.lseq, age := s.dtime, eff := (parseLRec bs).prio, waited := 0 })) ∧
    (here → (∃ l ∈ s.launches, ∃ h, l.handler = some h ∧ h.1 = m ∧ l.unstarted = true) → exec (.handlerLaunchStart m) s = .next s) ∧
    (here → b.queue = msg :: q → s.mailEarly msg = true → exec (.handlerLaunchStart m) s = .next s) ∧
    (here → b.queue = msg :: q → msg.lr.serial = true → (∃ l ∈ s.launches, ∃ h, l.handler = some h ∧ h.1 = m) →
      exec (.handlerLaunchStart m) s = .next s) ∧
    (here → b.queue = msg :: q → s.booted = true → s.inReset = false → s.mailEarly msg = false → (∀ l ∈ s.launches, ∀ h, l.handler = some h → h.1 = m → l.unstarted = false) →
      (msg.lr.serial = true → ∀ l ∈ s.launches, ∀ h, l.handler = some h → h.1 ≠ m) →
      (∀ cores etab sched thr, msg.adm = .ok cores etab sched thr →
        ∃ t l, exec (.handlerLaunchStart m) s = .next t ∧ t = { s with launches := s.launches ++ [l], uid := s.uid + 1 } ∧
          l.id = s.uid ∧ l.lr = msg.lr ∧ l.stream = none ∧ l.handler = some (m, msg.data, msg.bad) ∧ l.die = b.die ∧ l.lseq = msg.lseq ∧
          l.age = msg.age ∧ l.cores = cores ∧ l.eff = msg.eff ∧ l.waited = msg.waited)) ∧
    (b.turned = msg :: q → s.booted = true → s.inReset = false → ∀ code, msg.adm = .reject code → msg.lr.done = 0 →
      ∃ t, exec (.handlerLaunchStart m) s = .next t ∧ t.launches = s.launches ∧ t.mem = s.mem ∧
        t.mboxes.find? (fun x => x.pa == m) = some { b with turned := q })) ∧
  (∀ (s : State) (d : Fin 8) (v : Word) (bs : List Byte) (cores : List Nat) (etab : List Word) (sched : List SchedEnt) (thr : List Nat),
    ∀ q : State, q = { s with disp := s.disp.set d.val { s.disp[d.val] with adopt := v } } → s.booted = true → s.inReset = false →
    s.ox.again = none → q.missRecord d.val (s.disp[d.val]).adoptas.toNat v true = [] →
    q.readG d.val (s.disp[d.val]).adoptas.toNat v 128 = .ok bs → q.checkRec d.val (parseLRec bs) true = .ok cores etab sched thr →
    ∃ t l, exec (.adoptLaunch d v) s = .next t ∧ t = { s with launches := s.launches ++ [l], uid := s.uid + 1, disp := t.disp } ∧
      (t.disp[d.val]).adopt = v ∧ l.adopted = true ∧ l.lr = parseLRec bs ∧
      l.slots = (List.range (min (parseLRec bs).count (parseLRec bs).npl)).map SlotSt.saved)

/-- CORE_RESERVE reserves the next core of a CONCURRENT launch once it is granted, and after the last core the next
barrier (that barriers come after the last core is log 102's choice). TASK_START of a waiting slot whose core is granted
starts its task there, running at its entry with S1 the record's parameter, S2 its count, S3 to S55 zero, no gate and its
own shadow, unless the values that its stream carries there are poisoned or lost, which stops its context (R195, R197,
R367, with the readings of logs 62 and 63); for a CONCURRENT launch all slots start at once. LAUNCH_COMPLETE ends a failed
launch, and one whose tasks are all over: it leaves the list of launches, and no other does. Its completion word holds its
sequence number and status 1 when it failed, 2 when a slot was given up, 0 otherwise. With no such launch nothing changes.
(R135, R137, R138, R139, R140, R195, R197, R367, R376.) -/
def Obligations.TasksRunAndEnd : Prop :=
  (∀ (s : State) (l : Nat), s.settle.launch l = none → exec (.coreReserve l) s = .next s ∧ ∀ i, exec (.taskStart l i) s = .next s) ∧
  (∀ (s : State) (l : Nat), s.launch l = none → exec (.launchComplete l) s = .next s) ∧
  (∀ (s : State) (l : Nat) (x : Launch), ∀ q : State, q = s.settle → q.launch l = some x → s.booted = true → s.inReset = false → x.status = .running → x.lr.cls = 2 →
    (∀ c, x.nextCore = some c → q.granted x c = true → ∃ t y, exec (.coreReserve l) s = .next t ∧ t = { q with launches := t.launches } ∧ t.launch l = some y ∧
      y.slots.length = x.slots.length ∧ ∀ i < x.slots.length, y.slots[i]? =
        if x.cores.getD i 256 = c ∧ x.waitsAt i = true then some (.reserved i) else x.slots[i]?) ∧
    (∀ b, x.nextCore = none → (q.barsOf x).find? (fun b => !q.barHeld l b) = some b → q.barBusy l b = false → x.unstarted = true →
      exec (.coreReserve l) s = .next { q with barriers := ⟨b.1, b.2, l, 0, 0⟩ :: q.barriers }) ∧
    (x.sched = [] → (∀ i < x.slots.length, ∃ k, x.slots[i]? = some (.reserved k)) → (∀ b ∈ q.barsOf x, q.barHeld l b = true) →
      ∀ i < x.slots.length, ∃ t y, exec (.taskStart l i) s = .next t ∧ t.launch l = some y ∧
        ∀ j < x.slots.length, y.slots[j]? = some (.running j))) ∧
  (∀ (s : State) (l slot k : Nat) (x : Launch), ∀ q : State, q = s.settle → q.launch l = some x → s.booted = true → s.inReset = false → x.status = .running →
    x.lr.cls ≠ 2 → x.slots[slot]? = some (.waiting k) → q.granted x (x.cores.getD slot 256) = true → x.sched = [] →
    ∀ (core : Nat) (lost : Prop), core = x.cores.getD slot 256 → (lost ↔ ∃ st, x.stream = some st ∧
      ((q.wipeTlb (q.physical core) x.id).passCore core (some (x.die, st))).carriedLost x.die st core = true) →
    ∃ t y, exec (.taskStart l slot) s = .next t ∧ t.launch l = some y ∧ y.slots[slot]? = some (.running k) ∧
      (lost → (t.coreAt (q.physical core)).status = .stopped ∧ y.status = .failed) ∧
      ∀ c : Core, ¬ lost → c = t.coreAt (q.physical core) →
        c.status = .running ∧ c.task = some ⟨l, slot, k⟩ ∧ c.arch.pc = (if x.lr.etab = 0 then x.lr.entry else x.etab.getD slot 0) ∧
        (x.handler = none → c.arch.rs 1 = x.lr.param) ∧ c.arch.rs 2 = BitVec.ofNat 64 x.lr.count ∧
        (∀ r : SReg, 3 ≤ r.val → r.val < 56 → c.arch.rs r = 0) ∧ c.arch.trap = TrapRegs.init ∧ c.gate = [] ∧ c.ckpt = c.arch ∧ c.atRp = true) ∧
  (∀ (s : State) (l : Nat) (x : Launch), s.launch l = some x → s.booted = true → s.inReset = false →
    (x.status = .failed ∨ s.allOver x = true → ∃ t, exec (.launchComplete l) s = .next t ∧ t.launches = s.launches.filter (fun y => y.id ≠ l) ∧
      (∀ p, x.lr.done ≠ 0 → x.lr.done.toNat % 8 = 0 → wbits x.lr.done 63 57 = 0 → s.partsAt x.lr.asid x.lr.done.toNat 8 .write = .ok [p] → p.n = 8 →
        p.pa % 32 ≤ 24 → (∃ d o, s.region p.pa = .dram d o) → s.noRouteAt x.die p.pa = false → leVal (t.mem.bytes p.pa 8) = x.lseq % 2 ^ 32 * 2 ^ 32 +
          (if x.status = .failed then 1 else if x.dropped = true then 2 else 0))) ∧
    (x.status = .running → s.allOver x = false → exec (.launchComplete l) s = .next s))

/-- LAUNCH_PROMOTE moves a launch that has waited its class's starvation window up one class, from which its waiting time
starts anew, and no other. LAUNCH_URGENT acts for a waiting launch once DTIME + COST + LEAD reaches its deadline and a
core that it needs is held by work of a higher class number: it marks the launch urgent, and on each such core asks for
a full pre-emption where DTIME + the victim's COST less the clk it has run + COST passes the deadline and the victim's
MIDP is 1, and otherwise holds the core back for the launch; a CONCURRENT victim is pre-empted on all its cores.
SLICE_EXPIRY of a task whose slice is used up asks a launch that allows mid-node pre-emption to give way, and holds
the core back for the launch that comes first otherwise (the order of R146, where handlers and adopted launches come after
every stream and the die breaks ties by log 90's choice; that the core waits for that launch is log 50's reading); with no
launch of the class waiting it changes nothing. That the clk run of a victim counts over its saves is log 51's reading. HOLD,
not ignored, names its slot, and for a running WEAK or PARALLEL launch with MIDP = 1 and COUNT at most NPL it holds it;
where it names no such slot nothing else changes. DROP gives the held slot up; both are ignored as R376 says. A
deadline of 0 counts as 2^64 - 1. (R131, R146, R147, R148, R194, R376.) -/
def Obligations.LaunchesArePressed : Prop :=
  (∀ (s : State) (l : Nat) (x : Launch), ∀ q : State, q = s.settle → q.launch l = some x → s.booted = true → s.inReset = false → x.waits = true →
    (∀ w : Word, w = ((s.disp[x.die % 8]'(Nat.mod_lt _ (by decide))).starve.toList.getD x.eff 0) →
      (0 < x.eff → w ≠ 0 → w.toNat ≤ x.waited → exec (.launchPromote l) s = .next { q with launches := q.launches.map (fun y =>
        if y.id = l then { y with eff := y.eff - 1, waited := 0 } else y) }) ∧
      ((x.eff = 0 ∨ w = 0 ∨ x.waited < w.toNat) → exec (.launchPromote l) s = .next s)) ∧
    (∀ dl lead : Nat, dl = (if x.lr.deadline = 0 then 2 ^ 64 - 1 else x.lr.deadline.toNat) →
      lead = ((s.disp[x.die % 8]'(Nat.mod_lt _ (by decide))).lead).toNat →
      let needs (i : Nat) : Prop := i < x.slots.length ∧ (x.waitsAt i = true ∨ x.savedAt i = true)
      let victim (i : Nat) (v : Launch) : Prop := q.launchOf (q.coreAt (q.physical (x.cores.getD i 0))) = some v ∧ v.id ≠ l ∧ x.eff < v.eff
      ((s.dtime.toNat + x.lr.cost.toNat + lead < dl ∨ ∀ i, needs i → ∀ v, ¬ victim i v) → exec (.launchUrgent l) s = .next s) ∧
      (dl ≤ s.dtime.toNat + x.lr.cost.toNat + lead → (∃ i v, needs i ∧ victim i v) →
        ∃ t y, exec (.launchUrgent l) s = .next t ∧ t.mem = q.mem ∧ t.launch l = some y ∧ y = { x with urgent := true } ∧
          ∀ i v, needs i → victim i v → ∀ c : Nat, c = q.physical (x.cores.getD i 0) →
            (dl < s.dtime.toNat + v.lr.cost.toNat + x.lr.cost.toNat - ((q.coreAt c).past + (q.coreAt c).ran) → v.lr.midp = true →
              (t.coreAt c).preempt = true ∧
              (v.lr.cls = 2 → ∀ k ∈ t.cores, k.task.map Task.launch = some v.id → k.preempt = true)) ∧
            ((s.dtime.toNat + v.lr.cost.toNat + x.lr.cost.toNat - ((q.coreAt c).past + (q.coreAt c).ran) ≤ dl ∨ v.lr.midp = false) →
              (t.coreAt c).holdFor = some l)))) ∧
  (∀ (s : State),
    (s.launchOf s.core = none → exec .sliceExpiry s = .next s) ∧
    (∀ v, s.launchOf s.core = some v →
      let want := s.settle.launches.filter (fun w => w.id ≠ v.id ∧ w.wants (s.logical s.core.id) = true ∧ w.eff = v.eff ∧ v.slice ≤ s.core.ran)
      (want = [] → exec .sliceExpiry s = .next s) ∧
      (want ≠ [] → s.booted = true → s.inReset = false → s.core.status = .running → s.core.preempt = false → v.lr.midp = false →
        ∃ w ∈ want, (∀ u ∈ want, listLt u.key w.key = false) ∧
          exec .sliceExpiry s = .next { s with core := { s.core with holdFor := some w.id } }) ∧
      (want ≠ [] → s.booted = true → s.inReset = false → s.core.status = .running → s.core.preempt = false → v.lr.midp = true → v.lr.cls ≠ 2 →
        (∀ c ∈ s.others, c.id ≠ s.core.id) → s.core.task.map Task.launch = some v.id →
        exec .sliceExpiry s = .next { s with core := { s.core with preempt := true } }))) ∧
  (∀ (s : State) (d : Fin 8) (v : Word), ∀ slot : Nat, slot = wbits v 39 32 →
    (s.held d.val = true → exec (.slotHold d v) s = .next s) ∧
    (s.held d.val = false → ∃ t, exec (.slotHold d v) s = .next t ∧ t.mem = s.mem ∧
      t.disp = s.disp.set d.val { s.disp[d.val] with holdSlot := v.extractLsb' 32 8, holdLseq := v.extractLsb' 0 32 } ∧
      ((∀ l, s.launchBySeq d.val (wbits v 31 0) = some l →
          l.status ≠ .running ∨ l.lr.cls = 2 ∨ l.lr.midp = false ∨ l.lr.npl < l.lr.count ∨ l.slots.length ≤ slot) →
        t = { s with disp := t.disp }) ∧
      (∀ l, s.launchBySeq d.val (wbits v 31 0) = some l → l.status = .running → l.lr.cls ≠ 2 → l.lr.midp = true → l.lr.count ≤ l.lr.npl →
        slot < l.slots.length → (∀ y ∈ s.launches, y.id = l.id → y = l) → ∃ y, t.launch l.id = some y ∧ slot ∈ y.holds ∧ y.slots = l.slots ∧
        (∀ k, l.slots[slot]? = some (.running k) → s.core.id = s.physical (l.cores.getD slot 0) → s.core.task.map Task.launch = some l.id →
          s.launchOf s.core = some l → t.core.preempt = true)))) ∧
  (∀ (s : State) (d : Fin 8),
    (s.held d.val = false → exec (.slotDrop d) s = .next s) ∧
    (s.held d.val = true → ∃ l, s.launchBySeq d.val (s.disp[d.val]).holdLseq.toNat = some l ∧
      exec (.slotDrop d) s = .next { s with launches := s.launches.map (fun y => if y.id = l.id then
        { y with
          slots := y.slots.set (s.disp[d.val]).holdSlot.toNat .gone,
          dropped := true,
          holds := y.holds.filter (fun i => i ≠ (s.disp[d.val]).holdSlot.toNat) } else y) }))

/-- FULL_PREEMPT_REQUEST stops a running core that stands at a restart point, or one that waits for a verdict, and rolls one
that waits at issue back to its last one first; without a request it changes nothing. FULL_SAVE of a stopped core whose
streams, threads and arrivals have settled, or of a halted one of a gang whose schedule keeps its slot when it is asked to give
way, writes the save within its area of 2^24 bytes, with the valid bit, the PC and the T and Z bytes in their places, and
frees the core; before that it changes nothing, data that cannot be read lose the context, and with no route to the area
what it should hold is poisoned. FULL_RESTORE puts a saved slot back on its granted core, running or halted as it was, at
the saved PC with the saved S registers at a restart point with a new slice; where it reads poisoned data or finds no route
the context is lost. LIGHT_PREEMPT at a node boundary frees the core and
puts S56 to S63 of its stream into the light block. Of these the home of a light block without SAVE is log 48's reading, the
save of a halted core logs 33 and 49's, what a lost route does logs 62 and 63's (R367), and the wait for accepted stores of
peers log 97's. (R190, R191, R192, R195, R148, R309, R367.) -/
def Obligations.PreemptionSavesAndRestores : Prop :=
  (∀ (s : State) (n : Nat), s.core.preempt = false → exec (.fullPreemptRequest n) s = .next s) ∧
  (∀ (s : State) (n : Nat), s.core.preempt = true → s.core.status = .running → (∀ t ∈ s.core.threads, isFact t.ins = false) →
    (s.core.stopsHere = true → s.GivesCore (.fullPreemptRequest n) (fun c => { c with status := .saving, monitor := none, stall := 0 })) ∧
    (∀ b, s.core.stopsHere = false → s.bundleHere = some b → (s.ready b).core.monitor = none →
      ((s.ready b).plan b = .wait ∨ (∃ ks, (s.ready b).plan b = .far ks) ∨ ∃ ws, (s.ready b).plan b = .lines ws) →
      exec (.fullPreemptRequest n) s = .next { s.ready b with core := { (s.ready b).core.rollback with status := .saving, monitor := none, stall := 0 } })) ∧
  (∀ (s : State) (n : Nat), s.core.preempt = true → ((∃ k fs, s.core.status = .replay k fs) ∨ ∃ fs, s.core.status = .waitRoom fs) →
    (∀ t ∈ s.core.threads, isFact t.ins = false) →
    s.GivesCore (.fullPreemptRequest n) (fun c => { c with status := .saving, monitor := none, stall := 0 })) ∧
  (∀ (s : State) (t : Task) (l : Launch), s.core.task = some t → s.launchOf s.core = some l →
    let ready : Prop := (s.core.status = .saving ∨ (l.lr.cls = 2 ∧ s.core.status = .halted ∧ s.core.preempt = true ∧ s.owes s.core = true)) ∧
      s.core.quiet = true ∧ s.expected s.core = false
    let lost : Bool := s.noRoute s.core (l.lr.save + t.slot * 2 ^ 24)
    (¬ ready → exec .fullSave s = .next s) ∧
    (ready → s.core.saveBad = true → exec .fullSave s = .next (s.fatal Cause.saveLost 0 0 s.core.arch.pc 0 0 0)) ∧
    (ready → s.core.saveBad = false → l.lr.cls ≠ 2 → lost = true → ∃ u, exec .fullSave s = .next u ∧ u.mem = s.mem ∧ u.core.status = .idle ∧
      u.core.task = none ∧ (l.lr.save + t.slot * 2 ^ 24 + 0x100) / 32 ∈ u.poison) ∧
    (ready → s.core.saveBad = false → l.lr.cls ≠ 2 → lost = false → s.core.partw.tg + s.core.partw.zg ≤ 48 →
      (∀ p ∈ s.core.lines, 128 * p.1 + 128 ≤ s.core.scratchSize) →
      (∀ d, s.core.arch.latchA = some d ∨ s.core.arch.latchB = some d → d.e1 ≤ 256 ∧ d.e2 * (if d.fmt = .fp64 then 8 else 4) ≤ 1024) →
      (∀ g : GReg, (s.core.arch.g[g.val]).length = 64 ∧ ∀ v, s.core.arch.gpend[g.val] = some v → v.1.length = 64) →
      ∃ u, ∀ base, base = l.lr.save + t.slot * 2 ^ 24 → exec .fullSave s = .next u ∧ s.MemSameBut u base (2 ^ 24) ∧ u.core = s.core.freed ∧ u.others = s.others ∧
        (u.mem.get (base + 0x100)).getLsbD 0 = true ∧ leVal (u.mem.bytes (base + 0x108) 8) = s.core.arch.pc.toNat ∧
        (∀ k < (s.core.partw.tg + s.core.partw.zg) * 0x40000, u.mem.get (base + 0x400000 + k) = s.core.pool.get k) ∧
        ∀ y, u.launch l.id = some y → y.slots = l.slots.set t.slot (.saved t.index))) ∧
  (∀ (s : State) (l slot : Nat) (x : Launch), ∀ q : State, q = s.settle → q.launch l = some x → s.booted = true → s.inReset = false → x.status = .running →
    x.lr.cls ≠ 2 → x.savedAt slot = true → q.granted x (x.cores.getD slot 256) = true → x.sched = [] → q.carried = [] →
    ∀ base, base = x.lr.save + slot * 2 ^ 24 → 
    (q.saveLost x slot base = true ∨ q.noRouteAt (dieOf (q.physical (x.cores.getD slot 256))) base = true → ∃ t y, exec (.fullRestore l slot) s = .next t ∧ (t.coreAt (q.physical (x.cores.getD slot 256))).status = .stopped ∧
      t.launch l = some y ∧ y.status = .failed) ∧
    (q.saveLost x slot base = false → q.noRouteAt (dieOf (q.physical (x.cores.getD slot 256))) base = false → q.savedContin base = none →
    ∃ t y, exec (.fullRestore l slot) s = .next t ∧ t.mem = q.mem ∧ t.launch l = some y ∧ (∃ k, y.slots[slot]? = some (.running k)) ∧
      ∀ c : Core, c = t.coreAt (q.physical (x.cores.getD slot 256)) →
        c.status = (if (x.keptOf slot).halted then .halted else .running) ∧ c.atRp = true ∧ c.ckpt = c.arch ∧ c.ran = 0 ∧
        c.arch.pc = BitVec.ofNat 64 (leVal (q.mem.run (base + 0x108) 8)) ∧
        ∀ r : SReg, r ≠ 0 → c.arch.rs r = BitVec.ofNat 64 (leVal (q.mem.run (base + (0x110 + 8 * r.val)) 8)))) ∧
  (∀ (s : State) (l slot : Nat), s.settle.launch l = none → exec (.fullRestore l slot) s = .next s) ∧
  (∀ s : State, s.core.holdFor = none → exec .lightPreempt s = .next s) ∧
  (∀ (s : State) (h st : Nat) (x l : Launch) (t : Task), s.core.holdFor = some h → s.launch h = some x → x.needs (s.logical s.core.id) = true →
    s.drained s.core = true → s.core.task = some t → s.launchOf s.core = some l → l.stream = some st → (x.die, x.stream) ≠ (l.die, some st) → s.carried = [] →
    ∀ home, home = (if l.lr.save = 0 then lightHome l.die st (s.logical s.core.id) else l.lr.save + t.slot * 2 ^ 24) →
    s.noRouteAt (dieOf (s.physical (s.logical s.core.id))) home = false → ∃ u, exec .lightPreempt s = .next u ∧
      u.core.status = .idle ∧ u.core.task = none ∧ s.MemSameBut u home 256 ∧
      ∀ i < 8, leVal (u.mem.bytes (home + 8 + 8 * i) 8) = (s.core.arch.rs (Fin.ofNat 64 (56 + i))).toNat)

/-- A write to RUN sets the eight RUN bits and drops what a starting stream carried, one to CSB its stream's CSB, and either
ends the reads of records that wait for another package (log 66's choice). MBCMD
starts a command unless one is in progress: a good register binds the mailbox (beside one in the other half of its 128
bytes too: log 87's choice), a good unregister removes it, and its end moves the result to MBSTAT. GO starts an
invalidation and a write to DWORD2 stores the descriptor and starts one, unless BUSY; once no access of an address space
that the operation covers is translated and not performed (log 64's reading of R166), it drops every covered translation, of a
range each page that the range meets, and clears BUSY; the fields of a descriptor are stored as they stand (log 89's choice),
and that it acts while BUSY is 1 is log 121's. GO of the security engine starts a report, refuses while one runs, or faults on a bad
address; the report holds what its layout says, signed with the identity key, and leaves memory outside its buffer (a free
salt, log 75; the layout of the keys, log 98; the steps of FIPS 180-4 and PKCS #1, log 74: the model's). PLIM is clamped
to 1,000 to 3,650; the package number is written once; clearing the journal forgets what it remembers. A write to any
register acts as its own event does: of translation control, the security engine, the root ports, the power manager, the
journal, Oxlink with its group entries (of a word only the bytes that the entry gives a field), the dispatchers and the error
counters; one to a block or an Oxlink register that takes no write does nothing. (R11, R133, R145, R163, R167, R168, R174,
R198, R365, R366, R370, R376.) -/
def Obligations.HostRegisterWrites : Prop :=
  (∀ (s : State) (d k : Fin 8) (v : Word),
    let left : Oxlink := { s.ox with waits := s.ox.waits.filter (fun w => decide (∀ i : Fin 8, w.act.what ≠ .event (.launchRecordRead d i))) }
    (∃ t, exec (.dispatchRunWrite d v) s = .next t ∧ t = { s with disp := t.disp, carried := t.carried, ox := left } ∧
      (∀ i : Fin 8, (t.disp[d.val]).streams[i.val] = { (s.disp[d.val]).streams[i.val] with run := v.getLsbD i.val }) ∧
      (∀ e : Fin 8, e ≠ d → t.disp[e.val] = s.disp[e.val]) ∧
      t.carried = s.carried.filter (fun c => !(c.die == d.val && decide (c.stream < 8) && v.getLsbD c.stream &&
        !((s.disp[d.val]).streams.toList.getD c.stream ⟨true, 0, 0⟩).run))) ∧
    (∃ t, exec (.dispatchCsbWrite d k v) s = .next t ∧ t = { s with disp := t.disp, ox := left } ∧
      (t.disp[d.val]).streams[k.val] = { (s.disp[d.val]).streams[k.val] with csb := v } ∧
      (∀ i : Fin 8, i ≠ k → (t.disp[d.val]).streams[i.val] = (s.disp[d.val]).streams[i.val]))) ∧
  (∀ (s : State) (d : Fin 8), ∀ x : Disp, x = s.disp[d.val] →
    (x.mbop.isSome = true → exec (.mailboxRegister d) s = .next s ∧ exec (.mailboxUnregister d) s = .next s) ∧
    (∀ p, x.mbop = none → x.mbaddr.toNat % 64 = 0 → s.mbPhys d.val x = some p → s.homeDie p.pa = some d.val →
      (x.mblrec.toNat % 128 = 0 → p.cls = .seq → (∀ m ∈ s.mboxes, m.pa ≠ p.pa) → s.mboxes.length < 4096 →
        exec (.mailboxRegister d) s = .next { s with
          mboxes := s.mboxes ++ [⟨p.pa, x.mbasid.toNat, x.mblrec, d.val, [], []⟩],
          disp := s.disp.set d.val { x with mbop := some 0 } }) ∧
      ((∃ m ∈ s.mboxes, m.pa = p.pa ∧ m.asid = x.mbasid.toNat) → (∀ l ∈ s.launches, ∀ h, l.handler = some h → h.1 ≠ p.pa) →
        exec (.mailboxUnregister d) s = .next { s with
          mboxes := s.mboxes.filter (fun m => m.pa ≠ p.pa),
          disp := s.disp.set d.val { x with mbop := some 0 } })) ∧
    (x.mbop = none → x.mbaddr.toNat % 64 ≠ 0 →
      exec (.mailboxRegister d) s = .next { s with disp := s.disp.set d.val { x with mbop := some 1 } } ∧
      exec (.mailboxUnregister d) s = .next { s with disp := s.disp.set d.val { x with mbop := some 1 } }) ∧
    (∀ v, x.mbop = some v → exec (.mailboxCommandDone d) s = .next { s with disp := s.disp.set d.val { x with mbstat := v, mbop := none } }) ∧
    (x.mbop = none → exec (.mailboxCommandDone d) s = .next s)) ∧
  (∀ (s : State) (v : Word),
    (s.tc.busy = true → exec .tlbInvalidate s = .next s ∧ exec (.descriptorWrite v) s = .next s) ∧
    (s.tc.busy = false →
      exec .tlbInvalidate s = .next { s with tc := { s.tc with
        go := true,
        busy := true,
        op := some (if s.tc.all then none else some s.tc.iasid.toNat, s.tc.iva.toNat / 65536, s.tc.ilen.toNat) } } ∧
      ∃ t, exec (.descriptorWrite v) s = .next t ∧ t = { s with descs := t.descs, tc := t.tc } ∧
        t.tc = { s.tc with dword2 := v, busy := true, op := some (some s.tc.didx.toNat, 0, 0) } ∧
        assoc t.descs s.tc.didx.toNat = (if s.tc.dword0.getLsbD 0 then some ⟨wbits s.tc.dword0 51 12, s.tc.dword1.toNat, wbits v 5 0⟩ else none) ∧
        ∀ k, k ≠ s.tc.didx.toNat → assoc t.descs k = assoc s.descs k) ∧
    (s.tc.op = none → exec .invalidateComplete s = .next s) ∧
    (∀ (who : Option Nat) (first n : Nat), s.tc.op = some (who, first, n) →
      ((∃ c ∈ s.cores, (who = none ∨ who = some (s.asidOf c)) ∧ c.accessing = true) → exec .invalidateComplete s = .next s) ∧
      ((∀ c ∈ s.cores, (who = none ∨ who = some (s.asidOf c)) → c.accessing = false) →
        ∃ t, exec .invalidateComplete s = .next t ∧ t = { s with tc := { s.tc with busy := false, op := none }, tlb := t.tlb } ∧
          ∀ e, e ∈ t.tlb ↔ e ∈ s.tlb ∧ ¬ ((who = none ∨ who = some e.asid) ∧
            (n = 0 ∨ (e.vpage * e.size < (first + n) * 65536 ∧ first * 65536 < (e.vpage + 1) * e.size)))))) ∧
  (∀ (s : State),
    (s.sec.state = .busy → exec .attestRequest s = .next { s with sec := { s.sec with refused := true } }) ∧
    (s.sec.state ≠ .busy → exec .attestDone s = .next s ∧
      (s.secOk s.sec.noncepa 32 = true → s.secOk s.sec.outpa 544 = true → exec .attestRequest s = .next { s with sec := { s.sec with state := .busy } }) ∧
      ((s.secOk s.sec.noncepa 32 = false ∨ s.secOk s.sec.outpa 544 = false) →
        exec .attestRequest s = .next { s with sec := { s.sec with state := .fault } })) ∧
    (s.reading (.event .attestDone) = true → exec .attestDone s = .next s) ∧
    (∀ e es, s.sec.state = .busy → s.reading (.event .attestDone) = false → s.crownMissing [flatPart s.sec.noncepa 32] = e :: es →
      ∃ o : Oxlink, exec .attestDone s = .next { s with uid := s.uid + 1, ox := o } ∧
        o.waits = s.ox.waits ++ [⟨s.readUid, s.core.id, .event .attestDone⟩]) ∧
    (s.sec.state = .busy → s.reading (.event .attestDone) = false → s.crownMissing [flatPart s.sec.noncepa 32] = [] → s.sec.outpa % 32 = 0 → (∀ k < 544, (∃ d o, s.region (s.sec.outpa + k) = .dram d o) ∧ s.crownLost (s.sec.outpa + k) = false) →
      s.crownLost s.sec.noncepa = false → ∃ t, exec .attestDone s = .next t ∧ t.sec = { s.sec with state := .done } ∧ s.MemSameBut t s.sec.outpa 544 ∧
        t.mem.bytes s.sec.outpa 8 = leBytes 4 1 ++ leBytes 4 (gradeCode s.grade) ∧ leVal (t.mem.bytes (s.sec.outpa + 8) 8) = s.sec.svn.toNat ∧
        t.mem.bytes (s.sec.outpa + 16) 32 = digestBytes s.sec.fwdig ∧ t.mem.bytes (s.sec.outpa + 48) 32 = sha256 s.capEnum ∧
        t.mem.bytes (s.sec.outpa + 80) 32 = (s.as (crownNo s.readUid)).physBytes s.sec.noncepa 32 ∧
        (∀ i < 32, isRemote (s.sec.noncepa + i) = false → t.mem.get (s.sec.outpa + 80 + i) = s.physByte (s.sec.noncepa + i)) ∧
        leVal (t.mem.bytes (s.sec.outpa + 112) 8) = s.dtime.toNat ∧ leVal (t.mem.bytes (s.sec.outpa + 120) 8) = s.sec.serial.toNat ∧
        t.mem.bytes (s.sec.outpa + 128) 32 = sha256 s.sec.idpub ∧
        t.mem.bytes (s.sec.outpa + 160) 384 = rsaSign (keyModulus s.sec.idpub) s.sec.idpriv (sha256 (t.mem.bytes s.sec.outpa 160))
          ((List.range 32).map (Config.freeByte s.fresh)))) ∧
  (∀ (s : State) (v : Word),
    exec (.plimWrite v) s = .next { s with power := { s.power with plim :=
      if v.toNat % 65536 < 1000 then 1000 else if 3650 < v.toNat % 65536 then 3650 else v.extractLsb' 0 16 } } ∧
    (s.ox.pkgSet = true → exec (.pkgNumberWrite v) s = .next s) ∧
    (s.ox.pkgSet = false → ∃ t, exec (.pkgNumberWrite v) s = .next t ∧
      t = { s with mem := t.mem, poison := t.poison, dispQueues := t.dispQueues, ox := { s.ox with pkg := v.extractLsb' 0 11, pkgSet := true } } ∧
      s.MemSameBut t s.capArea 648) ∧
    exec .journalClear s = .next { s with journal := { s.journal with memory := [] } } ∧
    exec (.registerWrite 4 0 v) s = exec (.plimWrite v) s ∧ exec (.registerWrite 6 0 v) s = exec (.pkgNumberWrite v) s ∧
    (v.getLsbD 0 = true → exec (.registerWrite 1 0x18 v) s = exec .tlbInvalidate s ∧ exec (.registerWrite 2 0x10 v) s = exec .attestRequest s ∧
      exec (.registerWrite 5 0 v) s = exec .journalClear s) ∧
    exec (.registerWrite 1 0x118 v) s = exec (.descriptorWrite v) s ∧
    (s.tc.busy = true → ∀ off, exec (.registerWrite 1 off v) s = .next s) ∧
    (s.tc.busy = false →
      exec (.registerWrite 1 0 v) s = .next { s with tc := { s.tc with all := v.getLsbD 12, iasid := v.extractLsb' 0 12 } } ∧
      exec (.registerWrite 1 8 v) s = .next { s with tc := { s.tc with iva := v &&& 0x01FFFFFFFFFF0000 } } ∧
      exec (.registerWrite 1 0x10 v) s = .next { s with tc := { s.tc with ilen := v.extractLsb' 0 32 } } ∧
      (v.getLsbD 0 = false → exec (.registerWrite 1 0x18 v) s = .next { s with tc := { s.tc with go := false } }) ∧
      exec (.registerWrite 1 0x100 v) s = .next { s with tc := { s.tc with didx := v.extractLsb' 0 12 } } ∧
      exec (.registerWrite 1 0x108 v) s = .next { s with tc := { s.tc with dword0 := v } } ∧
      exec (.registerWrite 1 0x110 v) s = .next { s with tc := { s.tc with dword1 := v } }) ∧
    (s.sec.state ≠ .busy →
      exec (.registerWrite 2 0 v) s = .next { s with sec := { s.sec with noncepa := v.toNat % 2 ^ 52 } } ∧
      exec (.registerWrite 2 8 v) s = .next { s with sec := { s.sec with outpa := v.toNat % 2 ^ 52 } }) ∧
    exec (.registerWrite 2 0x18 v) s = .next (if v.getLsbD 8 then { s with sec := { s.sec with refused := false } } else s) ∧
    (∀ k < 2048, ∃ t, exec (.registerWrite 3 (BitVec.ofNat 32 (0x1000 + 8 * k)) v) s = .next t ∧ t = { s with ports := { s.ports with table := t.ports.table } } ∧
      assoc t.ports.table k = some ⟨v.extractLsb' 16 16, v.getLsbD 12, v.extractLsb' 0 12⟩ ∧
      ∀ j, j ≠ k → assoc t.ports.table j = assoc s.ports.table j) ∧
    (∀ k : Fin 8, exec (.registerWrite 3 (BitVec.ofNat 32 (0x8000 + 8 * k.val)) v) s =
      .next { s with ports := { s.ports with ureq := s.ports.ureq.set k.val (v.extractLsb' 0 32) } }) ∧
    (∀ (d : Fin 8) (k : Fin 77), ∃ t, exec (.registerWrite (BitVec.ofNat 16 (32 + d.val)) (BitVec.ofNat 32 (8 * k.val)) v) s = .next t ∧
      t = { s with errs := t.errs } ∧ assoc t.errs (77 * d.val + k.val) = some v ∧
      ∀ j, j ≠ 77 * d.val + k.val → assoc t.errs j = assoc s.errs j) ∧
    (∀ g : Fin 64, ∀ (old : Group) (w : Nat → Out), old = (assoc s.ox.groups g.val).getD ⟨0, 0, 0, 0⟩ →
      w = (fun i => exec (.registerWrite 6 (BitVec.ofNat 32 (0x100 + 32 * g.val + 8 * i)) v) s) →
      ∀ (i : Nat) (new : Group), (i, new) ∈ [(0, { old with w0 := v &&& 0x00FFFFFFFFFFFFFF }), (1, { old with w1 := v }), (2, { old with w2 := v }), (3, old)] →
        ∃ t, w i = .next t ∧ t = { s with ox := { s.ox with groups := t.ox.groups } } ∧ assoc t.ox.groups g.val = some new ∧
          ∀ j, j ≠ g.val → assoc t.ox.groups j = assoc s.ox.groups j) ∧
    (∀ off : BitVec 32, (8 ≤ off.toNat ∧ off.toNat < 0x100 ∨ 0x900 ≤ off.toNat) → exec (.registerWrite 6 off v) s = .next s) ∧
    (∀ d : Fin 8, ∀ (x : Disp) (put : Disp → State), x = s.disp[d.val] → put = (fun y => { s with disp := s.disp.set d.val y }) →
      let w (off : BitVec 32) : Out := exec (.registerWrite (BitVec.ofNat 16 (16 + d.val)) off v) s
      w 0 = exec (.dispatchRunWrite d v) s ∧
      (∀ k : Fin 8, w (BitVec.ofNat 32 (8 + 8 * k.val)) = exec (.dispatchCsbWrite d k v) s ∧
        w (BitVec.ofNat 32 (0x80 + 8 * k.val)) = .next { put { x with
            streams := x.streams.set k.val { x.streams[k.val] with sasid := v.extractLsb' 0 12 } } with
          ox := { s.ox with waits := s.ox.waits.filter (fun w => decide (∀ i : Fin 8, w.act.what ≠ .event (.launchRecordRead d i))) } }) ∧
      (∀ k : Fin 4, w (BitVec.ofNat 32 (0x48 + 8 * k.val)) = .next (put { x with starve := x.starve.set k.val v })) ∧
      w 0x68 = .next (put { x with lead := v }) ∧
      (v.extractLsb' 0 2 = 0 → w 0x100 = exec (.replyResume d (v.extractLsb' 8 16)) s) ∧
      (v.extractLsb' 0 2 = 1 → w 0x100 = exec (.replyDeliver d (v.extractLsb' 8 16)) s) ∧
      (v.extractLsb' 0 2 = 2 → w 0x100 = exec (.replyKill d (v.extractLsb' 8 16)) s) ∧
      w 0x180 = exec (.slotHold d v) s ∧ w 0x188 = (if v.getLsbD 0 then exec (.slotDrop d) s else .next s) ∧
      w 0x190 = exec (.adoptLaunch d v) s ∧ w 0x198 = .next (put { x with adoptas := v.extractLsb' 0 12 }) ∧
      (x.mbop = none → w 0x200 = .next (put { x with mbaddr := v }) ∧ w 0x208 = .next (put { x with mblrec := v }) ∧
        w 0x210 = .next (put { x with mbasid := v.extractLsb' 0 12 })) ∧
      (x.mbop.isSome = true → w 0x200 = .next s ∧ w 0x208 = .next s ∧ w 0x210 = .next s) ∧
      (v.extractLsb' 0 2 = 1 → w 0x218 = exec (.mailboxRegister d) s) ∧ (v.extractLsb' 0 2 = 2 → w 0x218 = exec (.mailboxUnregister d) s)) ∧
    (∀ (b : BitVec 16) (off : BitVec 32), (b = 0 ∨ 7 ≤ b.toNat ∧ b.toNat < 16 ∨ 24 ≤ b.toNat ∧ b.toNat < 32 ∨ 40 ≤ b.toNat) →
      exec (.registerWrite b off v) s = .next s))

/-- BOOT_START of a package that is off or held in reset counts one start and boots it: every die stays in reset exactly
when a step that must pass fails, or the image in flash fails one of its checks: its key against the fused digest, its
signature, its version against the floor; otherwise the image runs, and may raise the floor. A core whose test fails is
offline. A package at work ignores it. POWER_LOSS leaves the journal, the security floor, the fuses and the keys, and
everything else as at reset, memory empty and device time 0 (log 73's reading); the step that it cuts off stays in the
journal as begun. That a package is booted or not and held in reset or not is log 6's. POWER_MANAGER_TICK acts on every
65,536th clk once: at 110 degrees it holds every die in reset and journals a thermal stop; over the limit or at 100
degrees it lowers the clock factor of its unit by one, down to 1; well below both it raises it by one, up to 16. (R173,
R371, R372, R373, R374.) -/
def Obligations.BootAndPower : Prop :=
  (∀ (s : State) (r : BootReport),
    (s.booted = true → s.inReset = false → exec (.bootStart r) s = .next s) ∧
    ((s.booted = false ∨ s.inReset = true) → ∃ t, exec (.bootStart r) s = .next t ∧ t.booted = true ∧ t.journal.starts = s.journal.starts + 1 ∧
      t.core = Core.init 0 ∧ t.others = [] ∧ t.launches = [] ∧
      (t.inReset = true ↔ ((∃ n, (n, 0) ∈ r.fails ∧ 1 ≤ n ∧ n ≤ 11 ∧ (n ≤ 3 ∨ 10 ≤ n)) ∨
        ¬ (sha256 s.sec.image.key = digestBytes s.sec.keydig ∧ rsaVerify s.sec.image.key (sha256 s.sec.image.body) s.sec.image.sig = true ∧
          s.sec.svnFloor.toNat ≤ s.sec.image.svn.toNat))) ∧
      (t.inReset = false → t.sec.svn = s.sec.image.svn ∧ digestBytes t.sec.fwdig = sha256 s.sec.image.body ∧
        t.sec.svnFloor = (if s.sec.image.raise then s.sec.image.svn else s.sec.svnFloor) ∧
        ∀ d c, d < 8 → c < 32 → (s.die d).live.getLsbD c = true → (6, 32 * d + c) ∈ r.fails → s.journal.memory = [] →
          (t.die d).offline.getLsbD c = true))) ∧
  (∀ (s : State) (n u : Nat) (r : BootReport), ∃ t, exec (.powerLoss n ⟨u, r⟩) s = .next t ∧ t.booted = false ∧ t.inReset = false ∧ t.mem = [] ∧
    t.core = Core.init 0 ∧ t.others = [] ∧ t.launches = [] ∧ t.dtime = 0 ∧ t.sec.serial = s.sec.serial ∧ t.sec.keydig = s.sec.keydig ∧
    t.sec.idpriv = s.sec.idpriv ∧ t.sec.idpub = s.sec.idpub ∧ t.sec.idcert = s.sec.idcert ∧ t.sec.image = s.sec.image ∧ t.grade = s.grade ∧
    (s.booted = true → t.journal = s.journal ∧ t.sec.svnFloor = s.sec.svnFloor) ∧
    (s.booted = false → t.journal.starts = s.journal.starts + 1 ∧
      (s.journal.memory = [] → r.fails = [] → s.sec.imageOk = true → 1 ≤ n → n ≤ 11 → u ∈ s.stepUnits n → t.journal.recall (n, u) = some (0, 0)))) ∧
  (∀ (s : State) (p : BitVec 16) (m : BitVec 8),
    ((s.booted = false ∨ s.inReset = true ∨ s.dtime.toNat % 65536 ≠ 0) → exec (.powerManagerTick p m) s = .next s) ∧
    (s.booted = true → s.inReset = false → s.dtime.toNat % 65536 = 0 → s.power.acted ≠ s.dtime →
      ∃ t, exec (.powerManagerTick p m) s = .next t ∧ t.power.pnow = p ∧ t.power.tmax = m ∧ t.power.plim = s.power.plim ∧ t.power.acted = s.dtime ∧
        t.mem = s.mem ∧ t.core = s.core ∧
        (110 ≤ m.toNat → t.inReset = true ∧ ∃ e, t.journal.entries.getLast? = some e ∧ e.step = 0xFF ∧ e.dtime = s.dtime) ∧
        (m.toNat < 110 → t.inReset = false ∧ t.journal = s.journal) ∧
        (∀ l u, s.cores.filterMap s.unitOf = [(l, u)] →
          (m.toNat < 110 → (s.power.plim.toNat < p.toNat ∨ 100 ≤ m.toNat) → t.factorOf u = (if 1 < s.factorOf u then s.factorOf u - 1 else s.factorOf u)) ∧
          (100 * p.toNat < 95 * s.power.plim.toNat → m.toNat < 95 →
            t.factorOf u = (if s.factorOf u < 16 then s.factorOf u + 1 else s.factorOf u)))))

/-- A good cube flit ends a run of resends, a bad one counts, and when the sixteenth resend in a row fails the link is
down at both ends. A sector that a flit brings is poisoned when it fails its own check. An Oxlink flit is accepted when
its check holds, it is the port's next, of its kind, for this package, on a port that is up; otherwise it changes nothing.
An accepted read answers with one completion of the same tag for the requester; a write, a broadcast and a mailbox message
put their sectors into local memory and nowhere else, and the message joins its mailbox's queue with the handler record as
it then stands, or is turned away when a test rejects the record. A load from another package sends a read request for one
sector under a free tag, the completion of that tag brings the sector to the load, and what waits for other packages is
served again, and a store sends a write; that a flit carries one sector, its tag and its port are log 66's choices, how a
contribution to a collective is kept is log 67's, and that every flit's sectors are checked log 61's reading. A root-port
write that is accepted writes its bytes and no others, or with no route to their home left poisons them; a read answers
with its bytes, once those of another package have come back; a refused one counts in UREQ, and changes no memory. Under
which numbers and over which links the crown die reads, and the records of lost routes, are logs 62 and 120's. (R143,
R145, R196, R366, R367, R368.) -/
def Obligations.LinksAndPorts : Prop :=
  (∀ (s : State) (d : Fin 8) (k : Fin 4), ∀ n : Nat, n = (s.die d.val).resends[k.val] →
    (∃ t, exec (.cubeFlitReceive d k true) s = .next t ∧ t = { s with dies := t.dies } ∧ t.die d.val = { s.die d.val with resends := (s.die d.val).resends.set k.val 0 }) ∧
    (n < 16 → ∃ t, exec (.cubeFlitReceive d k false) s = .next t ∧ t = { s with dies := t.dies } ∧
      t.die d.val = { s.die d.val with resends := (s.die d.val).resends.set k.val (n + 1) }) ∧
    (16 ≤ n → ∃ t, exec (.cubeFlitReceive d k false) s = .next t ∧ t = { s with dies := t.dies, mem := t.mem, poison := t.poison, dispQueues := t.dispQueues } ∧ s.MemSameBut t s.capArea 648 ∧
      (k.val < 3 → (t.die d.val).links.getLsbD k.val = false ∧ (t.die (d.val ^^^ 2 ^ k.val)).links.getLsbD k.val = false) ∧
      (k.val = 3 → (t.die d.val).crown = false))) ∧
  (∀ (s : State) (p : Fin 16) (f : BitVec 2048),
    (∀ n, s.takeFlit p f n = (if s.booted = true ∧ (parseFlit f).crcOk = true ∧ (parseFlit f).kind = n ∧
        (parseFlit f).seq = (s.ox.seqIn[p.val]).toNat ∧ (parseFlit f).dst = s.ox.pkg.toNat ∧ wbits (s.ox.ports[p.val]) 2 0 = 1
      then some (parseFlit f, { s with ox := { s.ox with seqIn := s.ox.seqIn.set p.val (s.ox.seqIn[p.val] + 1) } }) else none)) ∧
    (s.takeFlit p f 0 = none → exec (.oxlinkRead p f) s = .next s) ∧ (s.takeFlit p f 1 = none → exec (.oxlinkWrite p f) s = .next s) ∧
    (s.takeFlit p f 2 = none → exec (.oxlinkCompletion p f) s = .next s) ∧ (s.takeFlit p f 3 = none → exec (.oxlinkMailbox p f) s = .next s) ∧
    (s.takeFlit p f 4 = none → exec (.oxlinkReduce p f) s = .next s) ∧ (s.takeFlit p f 5 = none → exec (.oxlinkBroadcast p f) s = .next s) ∧
    (∀ x u, s.takeFlit p f 0 = some (x, u) → ∃ t g, exec (.oxlinkRead p f) s = .next t ∧ t = { u with dispQueues := t.dispQueues, ox := { u.ox with
        seqOut := u.ox.seqOut.set p.val (u.ox.seqOut[p.val] + 1),
        out := u.ox.out ++ [(p.val, g)] } } ∧
      ((∀ k < x.nsec, s.noRouteAt (p.val / 2) (x.addr + 32 * k) = false) → t.dispQueues = s.dispQueues) ∧
      (parseFlit g).kind = 2 ∧ (parseFlit g).tag = x.tag ∧ (parseFlit g).dst = x.src ∧ (parseFlit g).src = s.ox.pkg.toNat ∧ (parseFlit g).crcOk = true) ∧
    (∀ x u, (s.takeFlit p f 2 = some (x, u) ∨ s.takeFlit p f 4 = some (x, u)) →
      ∀ (fails : Nat → Bool) (brought : List Sect), fails = (fun i => decide ((crc16 (x.secs.getD i [])).toNat ≠ nth x.scrc i)) →
      brought = (List.range x.secs.length).map (fun i => ⟨x.secs.getD i [], fails i⟩) →
      (s.takeFlit p f 2 = some (x, u) → ∃ t, exec (.oxlinkCompletion p f) s = .next t ∧
        (∀ a sect r, u.ox.asks.find? (fun a => a.tag == x.tag && a.pa / 2 ^ 40 % 2 ^ 11 == x.src) = some a → brought = sect :: r →
          t = { u with dispQueues := t.dispQueues, agenda := s.ox.waits.map (fun w => ⟨w.act.core, .again w.uid⟩) ++ s.agenda, ox := { u.ox with
            asks := u.ox.asks.filter (fun b => b.tag ≠ x.tag), got := u.ox.got ++ [⟨a.core, a.uid, a.pa, sect⟩] } }) ∧
        ((brought = [] ∨ ∀ a ∈ u.ox.asks, ¬ (a.tag = x.tag ∧ a.pa / 2 ^ 40 % 2 ^ 11 = x.src)) → t = { u with dispQueues := t.dispQueues }) ∧
        ((∀ i < x.secs.length, fails i = false) → t.dispQueues = u.dispQueues)) ∧
      (s.takeFlit p f 4 = some (x, u) → ∃ t, exec (.oxlinkReduce p f) s = .next t ∧
        t = { u with ox := { u.ox with reds := u.ox.reds ++ [(x.src, x.tag, x.addr, brought)] }, dispQueues := t.dispQueues } ∧
        ((∀ i < x.secs.length, fails i = false) → t.dispQueues = u.dispQueues))) ∧
    (∀ n i, (n, i) ∈ [(1, Instr.oxlinkWrite p f), (3, .oxlinkMailbox p f), (5, .oxlinkBroadcast p f)] → ∀ x u, s.takeFlit p f n = some (x, u) →
      (∀ k < x.secs.length, (∃ d o, s.region (x.addr + 32 * k) = .dram d o) ∧ s.noRouteAt (p.val / 2) (x.addr + 32 * k) = false) →
      ∃ t, exec i s = .next t ∧ t.core.arch = s.core.arch ∧ s.MemSameBut t x.addr (32 * x.secs.length) ∧
        (∀ k < x.secs.length, ∀ j < 32, t.mem.get (x.addr + 32 * k + j) = (x.secs.getD k []).getD j 0) ∧
        (∀ k < x.secs.length, (x.addr + 32 * k) / 32 ∈ t.poison ↔ (crc16 (x.secs.getD k [])).toNat ≠ nth x.scrc k) ∧
        (n = 3 → ∀ m bs, s.mboxes.find? (fun b => b.pa == x.addr) = some m → m.queue.length < 16 →
          ∀ w : State, w = { t with mboxes := s.mboxes, disp := s.disp } → w.missRecord m.die m.asid m.lrec false = [] → w.readG m.die m.asid m.lrec 128 = .ok bs →
          ∃ q : Mail, q.adm = w.checkRec m.die q.lr false ∧
            ((∃ cores etab sched thr, q.adm = .ok cores etab sched thr) → { m with queue := m.queue ++ [q] } ∈ t.mboxes) ∧
            ((∀ cores etab sched thr, q.adm ≠ .ok cores etab sched thr) → { m with turned := m.turned ++ [q] } ∈ t.mboxes) ∧ q.data = t.mem.bytes x.addr 64 ∧ q.lr = parseLRec bs ∧ q.owner = none))) ∧
  (∀ (s : State) (p : Fin 8) (rid : BitVec 16) (va : Word) (data : List Byte) (n : Nat),
    let unread (k : Nat) : Prop := ∀ a, s.requester p rid = some a → (s.as (crownNo s.readUid)).pageLost a va.toNat k = none
    (s.inbound p rid va data.length .write = none → ∃ q, exec (.inboundWrite p rid va data) s = .next
      { s with dispQueues := q, ports := { s.ports with ureq := s.ports.ureq.set p.val (s.ports.ureq[p.val] + 1) } } ∧
      (unread data.length → q = s.dispQueues)) ∧
    (∀ q, s.inbound p rid va data.length .write = some [q] → q.n = data.length → (∀ k < q.n, ∃ d o, s.region (q.pa + k) = .dram d o) →
      ((∀ k < q.n, s.crownLost (q.pa + k) = false) →
        ∃ t, exec (.inboundWrite p rid va data) s = .next t ∧ s.MemSameBut t q.pa q.n ∧ (∀ k < q.n, t.mem.get (q.pa + k) = data.getD k 0) ∧
          t.core.arch = s.core.arch ∧ t.ports = s.ports) ∧
      ((∀ k < q.n, s.crownLost (q.pa + k) = true) →
        ∃ t, exec (.inboundWrite p rid va data) s = .next t ∧ t.mem = s.mem ∧ ∀ k < q.n, (q.pa + k) / 32 ∈ t.poison)) ∧
    (s.inbound p rid va n .read = none → ∃ q, exec (.inboundRead p rid va n) s = .next
      { s with dispQueues := q, ports := { s.ports with ureq := s.ports.ureq.set p.val (s.ports.ureq[p.val] + 1), out := s.ports.out ++ [(p.val, none)] } } ∧
      (unread n → q = s.dispQueues)) ∧
    (∀ ps, s.inbound p rid va n .read = some ps → (∀ x ∈ ps, s.crownLost x.pa = false) →
      (s.crownMissing ps = [] → exec (.inboundRead p rid va n) s = .next { s with ports := { s.ports with
        out := s.ports.out ++ [(p.val, some (ps.flatMap (fun x => (s.as (crownNo s.readUid)).physBytes x.pa x.n)))] } }) ∧
      (∀ e es, s.crownMissing ps = e :: es → ∃ o : Oxlink, exec (.inboundRead p rid va n) s = .next { s with uid := s.uid + 1, ox := o } ∧
        o.waits = s.ox.waits ++ [⟨s.readUid, s.core.id, .event (.inboundRead p rid va n)⟩]))) ∧
  (∀ (s : State) (l : PLoad) (p : Part) (r : List Part) (k : Nat) (ks : List Nat) (tag : Nat),
    s.core.loads.find? (fun x => x.uid == l.uid) = some l → l.parts = p :: r → s.core.loadBlocked l p = false → s.noRoute s.core p.pa = false →
    isRemote p.pa = true → s.farWaits l p = true → s.farMissing l.uid [p] = k :: ks → tag < 4096 → (∀ a ∈ s.ox.asks, a.tag ≠ tag) →
    (∀ b < tag, ∃ a ∈ s.ox.asks, a.tag = b) → (∀ a ∈ s.ox.asks, a.core = s.core.id → a.pa ≠ k) → (∀ x ∈ s.ox.got, x.core = s.core.id → x.pa ≠ k) →
    ∃ (t : State) (q : Fin 16) (g : BitVec 2048), exec (.loadReturn l.uid) s = .next t ∧ q.val ∈ s.portsOf s.core.id ∧
      t = { s with ox := { s.ox with
        seqOut := s.ox.seqOut.set q.val (s.ox.seqOut[q.val] + 1),
        out := s.ox.out ++ [(q.val, g)],
        asks := s.ox.asks ++ [⟨tag, s.core.id, l.uid, k⟩] } } ∧
      (parseFlit g).kind = 0 ∧ (parseFlit g).tag = tag ∧ (parseFlit g).nsec = 1 ∧ (parseFlit g).src = s.ox.pkg.toNat ∧
      (parseFlit g).dst = k / 2 ^ 40 % 2 ^ 11 ∧ (parseFlit g).addr = k % 2 ^ 40 ∧ (parseFlit g).seq = (s.ox.seqOut[q.val]).toNat ∧ (parseFlit g).crcOk = true) ∧
  (∀ (s : State) (y : PStore) (p : Part), s.core.stores.find? (fun x => x.uid == y.uid) = some y → y.clus = none → y.parts = [p] → p.ends = true →
    s.core.storeBlocked y p = false → s.farBusy y.uid p = false → s.noRoute s.core p.pa = false → isRemote p.pa = true → y.bytes.length = p.n → p.n ≠ 0 →
    p.pa % 32 + p.n ≤ 32 →
    ∃ (t : State) (q : Fin 16) (g : BitVec 2048) (sec : List Byte), exec (.storePerformed y.uid) s = .next t ∧ q.val ∈ s.portsOf s.core.id ∧
      t.mem = s.mem ∧ t.core.arch = s.core.arch ∧ t.core.stores = s.core.stores.filter (fun x => x.uid ≠ y.uid) ∧ t.ox.asks = s.ox.asks ∧
      t.ox.out = s.ox.out ++ [(q.val, g)] ∧ t.ox.seqOut = s.ox.seqOut.set q.val (s.ox.seqOut[q.val] + 1) ∧
      (parseFlit g).kind = 1 ∧ (parseFlit g).nsec = 1 ∧ (parseFlit g).src = s.ox.pkg.toNat ∧ (parseFlit g).dst = p.pa / 2 ^ 40 % 2 ^ 11 ∧
      (parseFlit g).addr = p.pa / 32 * 32 % 2 ^ 40 ∧ (parseFlit g).crcOk = true ∧ (parseFlit g).secs = [sec] ∧ sec.length = 32 ∧
      (∀ i < p.n, sec.getD (p.pa % 32 + i) 0 = y.bytes.getD i 0) ∧
      ((crc16 sec).toNat = nth (parseFlit g).scrc 0 ↔ p.pa / 32 ∉ y.bad))

/-- For every slot kind and every well-formed instruction of that slot other than NOP, with every operand at every value
its encoding admits, the slot decoder reads the encoder's word back as that instruction; NOP is the word 0 in every
slot; and the bundle decoder reads the encoder's 256 bits of a well-formed bundle back as that bundle. (R199, R203,
R204, R207, R209, R213.) -/
def Obligations.DecodeEncodeAgree : Prop :=
  (∀ (k : SlotKind) (i : Instr), k ≠ .event → i.slot = k → i.wf = true → i ≠ .nop → decodeSlot k (encodeSlot k i) = some i) ∧
  (∀ k : SlotKind, k ≠ .event → encodeSlot k .nop = 0 ∧ decodeSlot k 0 = some .nop) ∧
  (∀ b : Bundle, b.wf = true → decodeBundle (encodeBundle b) = .ok b) ∧
  (∀ w b, decodeBundle w = .ok b → w < 2 ^ 256 → b.wf = true ∧ encodeBundle b = w)

/-- In every state in which main memory and the pool and side array of every core are in canonical form (addresses
strictly rising, no byte that an unlisted address reads as), a step that answers a next state leaves them in canonical
form; so equal storage stays equal data. The canonical form is the model's own. (R23, R28, R161.) -/
def Obligations.StepKeepsStorageCanonical : Prop :=
  ∀ (s t : State), s.MemOk → (∀ c ∈ s.cores, c.PoolOk) → step s = .next t → t.MemOk ∧ ∀ c ∈ t.cores, c.PoolOk

/-- After reset nothing is booted, memory and every pool are empty and canonical, PC, the S registers, GPTR, SEQL and
XFLAGS read 0, P0 reads true and the other P registers false, LINEWAIT is 0x00100000, PERM is the identity, every T, Z
and G byte is 0, every counter and sequence number is 0, the loop stack is empty, every port-program slot is empty and
every port bound to slot 0, PLIM is 3,650, the dispatchers' windows and lead time hold their reset values and every
stream is stopped. The zeros that the spec does not state are the model's (log entry 3). (R43, R133, R371, R22, R42,
R101.) -/
def Obligations.ResetState : Prop :=
  State.reset.MemOk ∧ (∀ c ∈ State.reset.cores, c.PoolOk) ∧ State.reset.booted = false ∧ State.reset.mem = [] ∧ State.reset.agenda = [] ∧
  (∀ a : Arch, a = State.reset.core.arch → a.pc = 0 ∧ (∀ r, a.rs r = 0) ∧ (∀ p : PReg, a.rp p = decide (p = 0)) ∧ a.linewait = 0x00100000 ∧
    (∀ i : Fin 256, a.perm[i.val] = BitVec.ofNat 8 i.val) ∧ (∀ g : GReg, a.g[g.val] = List.replicate 64 0) ∧ a.loops = [] ∧
    (∀ i : Fin 64, a.progs[i.val] = none) ∧ (∀ i : Fin 4, a.binds[i.val] = 0) ∧ (∀ i : Fin 8, a.seqn[i.val] = 0) ∧ a.gptr = 0 ∧ a.seql = 0 ∧
    a.xflags = 0 ∧ a.trap.tlock = false ∧ a.trap.tvec = 0 ∧ a.latchA = none ∧ a.latchB = none ∧ State.reset.core.ckpt = a) ∧
  (∀ i : Fin 8, State.reset.core.cnt[i.val] = 0) ∧ State.reset.core.gate = [] ∧ State.reset.core.threads = [] ∧
  State.reset.power.plim = 3650 ∧ State.reset.power.pnow = 0 ∧ State.reset.dtime = 0 ∧
  (∀ d : Fin 8, (State.reset.disp[d.val]).lead = 0x10000 ∧ (State.reset.disp[d.val]).seqno = 0 ∧
    (∀ i : Fin 4, (State.reset.disp[d.val]).starve[i.val] = 0x1000000) ∧ ∀ k : Fin 8, (State.reset.disp[d.val]).streams[k.val] = ⟨false, 0, 0⟩)

/-- With nothing on the agenda, a step of a working package whose core in focus can issue, once the clk has passed,
fetches the bundle at the PC and issues it. A bundle that is ready runs its slots' instructions in one order, S, M, X, C,
G, but X before an LDT that would write what it reads, and HALT, TRAP, TRET and PPLD last; each on the core made ready for
it, and the bundle then completes unless an instruction has ended it itself. So an addition and a store in one bundle both
read the registers as they stood before it. The first entry of the agenda is performed on the core it names, instead: an
event, the core's next bundle, an error of the silicon, what an application core reads or writes, what the host takes from
a trap queue, a line that the core reads ahead, or a read that has waited for another package (R368) and is served again;
held in reset only a start and a loss of power are, by log 6's choice. One that names a slot instruction is the fault
agendaSlot. That with nothing on the agenda the core in focus issues is log 10's choice. That a bundle's effects go in by
slots, the agenda, and reading ahead are the model's choice (log entries 1, 11, 12, 14). (R199, R150, R201, R17.) -/
def Obligations.StepRunsTheDecodedBundle : Prop :=
  (∀ (s : State) (w : Nat) (b : Bundle), ∀ q : State, q = s.tick.forkAll → q.agenda = [] → q.booted = true → q.inReset = false →
    q.core.status = .running → q.core.stopsHere = false → q.canIssue = true →
    (q.noteTlb (q.asidOf q.core) q.core.arch.pc.toNat .fetch).farFetch = [] →
    (q.noteTlb (q.asidOf q.core) q.core.arch.pc.toNat .fetch).fetch = .ok w → decodeBundle w = .ok b →
    step s = (q.noteTlb (q.asidOf q.core) q.core.arch.pc.toNat .fetch).issueBundle exec b) ∧
  (∀ (s : State) (b : Bundle), ∀ r u : State, r = s.ready b → r.core.stopsHere = false → r.core.watching = none → r.plan b = .go →
    u = { (r.passBundle b) with core := { (r.passBundle b).core with stall := 0, farUid := none, closes := r.closesAfter b } } → r.core.ended = false →
    s.issueBundle exec b = runSlots exec (slotOrder b) u ∧
    (∀ i, b.single = some i → i ≠ .nop → s.issueBundle exec b = (match exec i u with
      | .next t => .next (if t.core.ended then t else { t with core := t.core.complete true })
      | o => o)) ∧
    (∀ z d a c base off v o, b.s = some (.add d a (.reg c)) → b.m = some (.st z base off v o) → b.x = none → b.c = none → b.g = none →
      r.closesAfter b = false → atLoopEnd r.core.arch = false →
      ∃ t p, s.issueBundle exec b = .next t ∧ (d ≠ 0 → t.core.arch.rs d = r.rs a + r.rs c) ∧ t.core.gate = r.core.gate ++ [.store p] ∧
        p.va = r.rs base + off.signExtend 64 ∧ p.ord = o ∧
        p.bytes = (List.range (sizeBytes z)).map (fun k => (r.rs v).extractLsb' (8 * k) 8))) ∧
  (∀ b : Bundle, (slotOrder b).Perm ((slotsOf b).map Prod.snd) ∧
    slotOrder b =
      let ends : Bool := match b.s with | some .halt | some (.trap _) | some .tret | some (.ppld ..) => true | _ => false
      let tile : Bool := match b.m with | some (.ldt ..) => true | _ => false
      (if ends then [] else b.s.toList) ++ (if tile then b.x.toList ++ b.m.toList else b.m.toList ++ b.x.toList) ++ b.c.toList ++ b.g.toList ++
        (if ends then b.s.toList else [])) ∧
  (∀ (s : State) (c : Nat) (w : Deed) (r : List Act), ∀ q p : State, q = s.tick.forkAll → q.agenda = ⟨c, w⟩ :: r → p = { q with agenda := r } →
    (∀ i, w = .event i → i.slot ≠ .event → step s = .fault .agendaSlot) ∧
    (∀ i, w = .event i → i.slot = .event → step s = (if q.inReset = true ∧ startsPower i = false then .next p else exec i (p.focus c))) ∧
    ((∀ i, w ≠ .event i) → (∀ u, w ≠ .again u) → q.inReset = true → step s = .next p) ∧
    (∀ u, w = .again u → (∀ x ∈ p.ox.waits, x.uid ≠ u) → step s = .next p) ∧
    (∀ u x i t, w = .again u → p.ox.waits.find? (fun y => y.uid == u) = some x → x.act.what = .event i → i.slot = .event → q.inReset = false →
      exec i (({ p with ox := { p.ox with waits := p.ox.waits.filter (fun y => y.uid ≠ u), again := some u } } : State).focus x.act.core) = .next t →
      step s = .next { t with ox := { t.ox with again := none } }) ∧
    (q.inReset = false →
      (w = .bundle → step s = (p.focus c).issue exec) ∧
      (∀ k, w = .strike k → step s = .next ((p.focus c).strike k)) ∧
      (∀ pa data, w = .appWrite pa data → step s = .next (p.appWrite pa data)) ∧
      (∀ pa n, w = .appRead pa n → step s = .next (p.appRead pa n)) ∧
      (∀ pa, w = .readAhead pa → step s = .next ((p.focus c).lookAhead pa)) ∧
      (∀ n cons, w = .taken n cons → step s = .next (p.takeQueue n cons))))

/-- One word or more of each slot, written out field by field from the tables of the spec, reads back as the instruction
it stands for; a word with a reserved bit set is refused. (R199, R204, R207, R209, R213, R215.) -/
def Obligations.DecodedWords : Prop :=
  decodeSlot .s 0x021860800010 = some (.add 3 3 (.imm 16)) ∧
  decodeSlot .s 0x7A8800000005 = some (.loop (.reg 4) 5) ∧
  decodeSlot .m 0x04406C1430000008 = some (.st .d 3 8 5 ⟨1, 1, .pkg⟩) ∧
  decodeSlot .x 0x04CC01200600D000 = some (.mma ⟨.bf16, .bf16, .fp32, .rne, .sat, .pair 8 false, .t 1, .z 0, 13, 0, 0⟩) ∧
  decodeSlot .c 0x240088104000 = some (.copy ⟨⟨1, 0, .core⟩, true, false, 8, 4, 2, 0, 0⟩) ∧
  decodeSlot .g 0x8400 = some (.gzero 1) ∧
  decodeSlot .g 0x8401 = none ∧ decodeSlot .c 0x000088104000 = none
end

