-- ==== Sys2Proof/Laws/Mem.lean ====
section
/-! SUPPORT. Memory: reading after writing, and that every operation over memory keeps the canonical form (R23). -/

namespace Sys2Proof.Machine

/-! ## The canonical form -/

/-- The canonical form, said of all cells at once. -/
theorem Mem.wf_iff (m : Mem) : m.wf = true ↔ (∀ c ∈ m, c.2 ≠ 0) ∧ List.Pairwise (fun a b : Host.Cell => a.1 < b.1) m := by
  match m with
  | [] => simp [Mem.wf]
  | [c] => simp [Mem.wf]
  | c :: d :: r =>
    have ih := Mem.wf_iff (d :: r)
    simp only [Mem.wf, Bool.and_eq_true, bne_iff_ne, decide_eq_true_eq, ih]
    constructor
    · rintro ⟨⟨h1, h2⟩, h3, h4⟩
      refine ⟨fun x hx => ?_, List.pairwise_cons.mpr ⟨fun x hx => ?_, h4⟩⟩
      · rcases List.mem_cons.mp hx with rfl | hx
        · exact h1
        · exact h3 x hx
      · rcases List.mem_cons.mp hx with rfl | hx
        · exact h2
        · exact Nat.lt_trans h2 ((List.pairwise_cons.mp h4).1 x hx)
    · rintro ⟨h1, h2⟩
      have h3 := List.pairwise_cons.mp h2
      exact ⟨⟨h1 c (List.mem_cons_self ..), h3.1 d (List.mem_cons_self ..)⟩, fun x hx => h1 x (List.mem_cons_of_mem _ hx), h3.2⟩

/-- Empty memory is canonical. -/
@[simp] theorem Mem.wf_nil : Mem.wf [] = true := rfl

/-- Leaving cells out keeps the form. -/
theorem Mem.wf_filter (m : Mem) (p : Host.Cell → Bool) (h : m.wf = true) : Mem.wf (m.filter p) = true := by
  rw [Mem.wf_iff] at h ⊢
  exact ⟨fun c hc => h.1 c (List.mem_filter.mp hc).1, h.2.filter p⟩

/-- The cells of a run: none is a zero byte, and each lies within it. -/
theorem Mem.mem_cells (bs : List Byte) (base : Nat) (c : Host.Cell) (h : c ∈ Mem.cells base bs) :
    c.2 ≠ 0 ∧ base ≤ c.1 ∧ c.1 < base + bs.length := by
  induction bs generalizing base with
  | nil => simp [Mem.cells] at h
  | cons b r ih =>
    simp only [Mem.cells] at h
    split at h
    · have := ih (base + 1) h; simp only [List.length_cons]; exact ⟨this.1, by omega, by omega⟩
    · rcases List.mem_cons.mp h with rfl | h
      · simp only [List.length_cons]; exact ⟨‹_›, Nat.le_refl _, by omega⟩
      · have := ih (base + 1) h; simp only [List.length_cons]; exact ⟨this.1, by omega, by omega⟩

/-- The cells of a run stand in rising order. -/
theorem Mem.cells_sorted (bs : List Byte) (base : Nat) : List.Pairwise (fun a b : Host.Cell => a.1 < b.1) (Mem.cells base bs) := by
  induction bs generalizing base with
  | nil => simp [Mem.cells]
  | cons b r ih =>
    simp only [Mem.cells]
    split
    · exact ih (base + 1)
    · refine List.pairwise_cons.mpr ⟨fun c hc => ?_, ih (base + 1)⟩
      have := Mem.mem_cells r (base + 1) c hc
      show base < c.1
      omega

/-- A write keeps the form. -/
theorem Mem.wf_put (m : Mem) (base : Nat) (bs : List Byte) (h : m.wf = true) : (m.put base bs).wf = true := by
  rw [Mem.wf_iff] at h ⊢
  unfold Mem.put
  constructor
  · intro c hc
    simp only [List.append_assoc, List.mem_append, List.mem_filter] at hc
    rcases hc with hc | hc | hc
    · exact h.1 c hc.1
    · exact (Mem.mem_cells bs base c hc).1
    · exact h.1 c hc.1
  · refine List.pairwise_append.mpr ⟨List.pairwise_append.mpr ⟨h.2.filter _, Mem.cells_sorted bs base, ?_⟩, h.2.filter _, ?_⟩
    · intro a ha b hb
      have h1 := (List.mem_filter.mp ha).2
      have h2 := Mem.mem_cells bs base b hb
      simp only [decide_eq_true_eq] at h1
      omega
    · intro a ha b hb
      have h3 := (List.mem_filter.mp hb).2
      simp only [decide_eq_true_eq] at h3
      rcases List.mem_append.mp ha with ha | ha
      · have h1 := (List.mem_filter.mp ha).2
        simp only [decide_eq_true_eq] at h1
        omega
      · have h2 := Mem.mem_cells bs base a ha
        omega

/-- Several writes keep the form. -/
theorem Mem.wf_puts (rs : List (Nat × List Byte)) (m : Mem) (h : m.wf = true) : (m.puts rs).wf = true := by
  unfold Mem.puts
  induction rs generalizing m with
  | nil => exact h
  | cons r t ih => exact ih (m.put r.1 r.2) (Mem.wf_put m r.1 r.2 h)

/-- Moving the cells of another memory in keeps the form. -/
theorem Mem.wf_blit (m src : Mem) (dst lo n : Nat) (h : m.wf = true) (hs : src.wf = true) : (m.blit dst src lo n).wf = true := by
  rw [Mem.wf_iff] at h hs ⊢
  unfold Mem.blit
  have hm : ∀ c ∈ (src.filter (fun c => lo ≤ c.1 ∧ c.1 < lo + n)).map (fun c : Host.Cell => (c.1 - lo + dst, c.2)), c.2 ≠ 0 ∧ dst ≤ c.1 ∧ c.1 < dst + n := by
    intro c hc
    obtain ⟨d, hd, rfl⟩ := List.mem_map.mp hc
    have h1 := (List.mem_filter.mp hd).2
    simp only [decide_eq_true_eq] at h1
    exact ⟨hs.1 d (List.mem_filter.mp hd).1, by show dst ≤ d.1 - lo + dst; omega, by show d.1 - lo + dst < dst + n; omega⟩
  constructor
  · intro c hc
    simp only [List.append_assoc, List.mem_append] at hc
    rcases hc with hc | hc | hc
    · exact h.1 c (List.mem_filter.mp hc).1
    · exact (hm c hc).1
    · exact h.1 c (List.mem_filter.mp hc).1
  · refine List.pairwise_append.mpr ⟨List.pairwise_append.mpr ⟨h.2.filter _, ?_, ?_⟩, h.2.filter _, ?_⟩
    · refine List.pairwise_map.mpr (List.Pairwise.imp_of_mem ?_ (hs.2.filter _))
      intro a b ha hb hab
      have h1 := (List.mem_filter.mp ha).2
      have h2 := (List.mem_filter.mp hb).2
      simp only [decide_eq_true_eq] at h1 h2
      show a.1 - lo + dst < b.1 - lo + dst
      omega
    · intro a ha b hb
      have h1 := (List.mem_filter.mp ha).2
      have h2 := hm b hb
      simp only [decide_eq_true_eq] at h1
      omega
    · intro a ha b hb
      have h3 := (List.mem_filter.mp hb).2
      simp only [decide_eq_true_eq] at h3
      rcases List.mem_append.mp ha with ha | ha
      · have h1 := (List.mem_filter.mp ha).2
        simp only [decide_eq_true_eq] at h1
        omega
      · have h2 := hm a ha
        omega

/-! ## Reading -/

/-- An address that no cell has reads 0. -/
theorem Mem.get_absent (m : Mem) (a : Nat) (h : ∀ c ∈ m, c.1 ≠ a) : m.get a = 0 := by
  induction m with
  | nil => rfl
  | cons c r ih =>
    simp only [Mem.get, h c (List.mem_cons_self ..), if_false]
    exact ih (fun d hd => h d (List.mem_cons_of_mem _ hd))

/-- A read past cells that do not have the address. -/
theorem Mem.get_append_right (m n : Mem) (a : Nat) (h : ∀ c ∈ m, c.1 ≠ a) : Mem.get (m ++ n) a = n.get a := by
  induction m with
  | nil => rfl
  | cons c r ih =>
    simp only [List.cons_append, Mem.get, h c (List.mem_cons_self ..), if_false]
    exact ih (fun d hd => h d (List.mem_cons_of_mem _ hd))

/-- A read of cells before others that do not have the address. -/
theorem Mem.get_append_left (m n : Mem) (a : Nat) (h : ∀ c ∈ n, c.1 ≠ a) : Mem.get (m ++ n) a = m.get a := by
  induction m with
  | nil => exact Mem.get_absent n a h
  | cons c r ih => simp only [List.cons_append, Mem.get, ih]

/-- Leaving out cells that do not have the address changes no read of it. -/
theorem Mem.get_filter (m : Mem) (p : Host.Cell → Bool) (a : Nat) (h : ∀ c, c.1 = a → p c = true) : Mem.get (m.filter p) a = m.get a := by
  induction m with
  | nil => rfl
  | cons c r ih =>
    by_cases hp : p c = true
    · simp only [List.filter_cons, hp, if_true, Mem.get, ih]
    · have hc : c.1 ≠ a := fun e => hp (h c e)
      simp only [List.filter_cons, hp, Mem.get, hc, if_false]
      exact ih

/-- A read of a run's cells. -/
theorem Mem.get_cells (bs : List Byte) (base a : Nat) : (Mem.cells base bs).get a = if base ≤ a then bs.getD (a - base) 0 else 0 := by
  induction bs generalizing base with
  | nil => simp [Mem.cells, Mem.get]
  | cons b r ih =>
    have hsub : ∀ h : base < a, a - base = (a - (base + 1)) + 1 := fun h => by omega
    simp only [Mem.cells]
    split
    · rename_i hb
      rw [ih]
      by_cases h1 : base + 1 ≤ a
      · have h2 : base ≤ a := by omega
        simp only [h1, h2, if_true, hsub (by omega), List.getD_cons_succ]
      · by_cases h3 : base = a
        · subst h3; simp [hb, h1]
        · have h2 : ¬ base ≤ a := by omega
          simp only [h1, h2, if_false]
    · simp only [Mem.get]
      by_cases h3 : base = a
      · subst h3; simp
      · simp only [h3, if_false]
        rw [ih]
        by_cases h1 : base + 1 ≤ a
        · have h2 : base ≤ a := by omega
          simp only [h1, h2, if_true, hsub (by omega), List.getD_cons_succ]
        · have h2 : ¬ base ≤ a := by omega
          simp only [h1, h2, if_false]

/-- What a write leaves at every address: the bytes written within the run, and the old byte elsewhere. -/
theorem Mem.get_put (m : Mem) (base : Nat) (bs : List Byte) (a : Nat) :
    (m.put base bs).get a = if base ≤ a ∧ a < base + bs.length then bs.getD (a - base) 0 else m.get a := by
  unfold Mem.put
  by_cases h1 : a < base
  · rw [List.append_assoc, Mem.get_append_left, Mem.get_filter]
    · simp [show ¬ (base ≤ a) by omega]
    · intro c hc; simp [hc, h1]
    · intro c hc
      rcases List.mem_append.mp hc with hc | hc
      · have := Mem.mem_cells bs base c hc; omega
      · have := (List.mem_filter.mp hc).2; simp only [decide_eq_true_eq] at this; omega
  · rw [List.append_assoc, Mem.get_append_right _ _ _ (by
      intro c hc
      have := (List.mem_filter.mp hc).2
      simp only [decide_eq_true_eq] at this
      omega)]
    by_cases h2 : a < base + bs.length
    · rw [Mem.get_append_left, Mem.get_cells]
      · simp [show base ≤ a by omega, h2]
      · intro c hc
        have := (List.mem_filter.mp hc).2
        simp only [decide_eq_true_eq] at this
        omega
    · rw [Mem.get_append_right, Mem.get_filter]
      · simp [h2]
      · intro c hc; simp [hc]; omega
      · intro c hc
        have := Mem.mem_cells bs base c hc
        omega

/-- A byte written reads back. -/
theorem Mem.get_put_same (m : Mem) (base : Nat) (bs : List Byte) (i : Nat) (h : i < bs.length) : (m.put base bs).get (base + i) = bs.getD i 0 := by
  rw [Mem.get_put, if_pos ⟨by omega, by omega⟩, Nat.add_sub_cancel_left]

/-- A byte outside the run reads as before. -/
theorem Mem.get_put_other (m : Mem) (base : Nat) (bs : List Byte) (a : Nat) (h : a < base ∨ base + bs.length ≤ a) : (m.put base bs).get a = m.get a := by
  rw [Mem.get_put, if_neg (by omega)]

/-- A byte outside every run of several writes reads as before. -/
theorem Mem.get_puts_other (rs : List (Nat × List Byte)) (m : Mem) (a : Nat) (h : ∀ r ∈ rs, a < r.1 ∨ r.1 + r.2.length ≤ a) : (m.puts rs).get a = m.get a := by
  unfold Mem.puts
  induction rs generalizing m with
  | nil => rfl
  | cons r t ih =>
    rw [List.foldl_cons, ih (m.put r.1 r.2) (fun x hx => h x (List.mem_cons_of_mem _ hx)),
      Mem.get_put_other m r.1 r.2 a (h r (List.mem_cons_self ..))]

/-- Reading `n` bytes gives `n` bytes. -/
@[simp] theorem Mem.length_bytes (m : Mem) (a n : Nat) : (m.bytes a n).length = n := by simp [Mem.bytes]

/-! ## Byte order -/

/-- `n` bytes of a number are `n`. -/
@[simp] theorem length_leBytes (n v : Nat) : (leBytes n v).length = n := by
  induction n generalizing v with
  | zero => rfl
  | succ k ih => simp [leBytes, ih]

/-- The bytes of a number hold it, modulo 2^(8n). -/
theorem leVal_leBytes (n v : Nat) : leVal (leBytes n v) = v % 256 ^ n := by
  induction n generalizing v with
  | zero => simp [leBytes, leVal, Nat.mod_one]
  | succ k ih =>
    have h : v % (256 * 256 ^ k) = v % 256 + 256 * (v / 256 % 256 ^ k) := Nat.mod_mul
    have h2 : 256 ^ (k + 1) = 256 * 256 ^ k := by rw [Nat.pow_succ, Nat.mul_comm]
    rw [leBytes, leVal, ih, BitVec.toNat_ofNat, h2, h]

/-- Bytes hold a number below 2^(8n). -/
theorem leVal_lt (bs : List Byte) : leVal bs < 256 ^ bs.length := by
  induction bs with
  | nil => simp [leVal]
  | cons b r ih =>
    have hb := b.isLt
    simp only [leVal, List.length_cons, Nat.pow_succ]
    omega

end Sys2Proof.Machine
end

