-- ==== Sys2Proof/Laws/State.lean ====
section
/-! SUPPORT. What the updates of State, Core and Arch leave in each field: one lemma per field per update, true by unfolding. -/

namespace Sys2Proof.Machine

/-! ## State.onC -/

@[simp] theorem State.onC_core (s : State) (f : Core → Core) : (s.onC f).core = f s.core := rfl
@[simp] theorem State.onC_others (s : State) (f : Core → Core) : (s.onC f).others = s.others := rfl
@[simp] theorem State.onC_mem (s : State) (f : Core → Core) : (s.onC f).mem = s.mem := rfl
@[simp] theorem State.onC_endpoint (s : State) (f : Core → Core) : (s.onC f).endpoint = s.endpoint := rfl
@[simp] theorem State.onC_appOut (s : State) (f : Core → Core) : (s.onC f).appOut = s.appOut := rfl
@[simp] theorem State.onC_descs (s : State) (f : Core → Core) : (s.onC f).descs = s.descs := rfl
@[simp] theorem State.onC_tlb (s : State) (f : Core → Core) : (s.onC f).tlb = s.tlb := rfl
@[simp] theorem State.onC_tc (s : State) (f : Core → Core) : (s.onC f).tc = s.tc := rfl
@[simp] theorem State.onC_sec (s : State) (f : Core → Core) : (s.onC f).sec = s.sec := rfl
@[simp] theorem State.onC_ports (s : State) (f : Core → Core) : (s.onC f).ports = s.ports := rfl
@[simp] theorem State.onC_power (s : State) (f : Core → Core) : (s.onC f).power = s.power := rfl
@[simp] theorem State.onC_journal (s : State) (f : Core → Core) : (s.onC f).journal = s.journal := rfl
@[simp] theorem State.onC_ox (s : State) (f : Core → Core) : (s.onC f).ox = s.ox := rfl
@[simp] theorem State.onC_disp (s : State) (f : Core → Core) : (s.onC f).disp = s.disp := rfl
@[simp] theorem State.onC_carried (s : State) (f : Core → Core) : (s.onC f).carried = s.carried := rfl
@[simp] theorem State.onC_launches (s : State) (f : Core → Core) : (s.onC f).launches = s.launches := rfl
@[simp] theorem State.onC_mboxes (s : State) (f : Core → Core) : (s.onC f).mboxes = s.mboxes := rfl
@[simp] theorem State.onC_barriers (s : State) (f : Core → Core) : (s.onC f).barriers = s.barriers := rfl
@[simp] theorem State.onC_colls (s : State) (f : Core → Core) : (s.onC f).colls = s.colls := rfl
@[simp] theorem State.onC_tags (s : State) (f : Core → Core) : (s.onC f).tags = s.tags := rfl
@[simp] theorem State.onC_ctxQueues (s : State) (f : Core → Core) : (s.onC f).ctxQueues = s.ctxQueues := rfl
@[simp] theorem State.onC_dispQueues (s : State) (f : Core → Core) : (s.onC f).dispQueues = s.dispQueues := rfl
@[simp] theorem State.onC_errs (s : State) (f : Core → Core) : (s.onC f).errs = s.errs := rfl
@[simp] theorem State.onC_poison (s : State) (f : Core → Core) : (s.onC f).poison = s.poison := rfl
@[simp] theorem State.onC_pfx (s : State) (f : Core → Core) : (s.onC f).pfx = s.pfx := rfl
@[simp] theorem State.onC_pfxNext (s : State) (f : Core → Core) : (s.onC f).pfxNext = s.pfxNext := rfl
@[simp] theorem State.onC_grade (s : State) (f : Core → Core) : (s.onC f).grade = s.grade := rfl
@[simp] theorem State.onC_dies (s : State) (f : Core → Core) : (s.onC f).dies = s.dies := rfl
@[simp] theorem State.onC_dtime (s : State) (f : Core → Core) : (s.onC f).dtime = s.dtime := rfl
@[simp] theorem State.onC_booted (s : State) (f : Core → Core) : (s.onC f).booted = s.booted := rfl
@[simp] theorem State.onC_inReset (s : State) (f : Core → Core) : (s.onC f).inReset = s.inReset := rfl
@[simp] theorem State.onC_agenda (s : State) (f : Core → Core) : (s.onC f).agenda = s.agenda := rfl
@[simp] theorem State.onC_fresh (s : State) (f : Core → Core) : (s.onC f).fresh = s.fresh := rfl
@[simp] theorem State.onC_uid (s : State) (f : Core → Core) : (s.onC f).uid = s.uid := rfl

/-! ## State.onA -/

@[simp] theorem State.onA_core (s : State) (f : Arch → Arch) : (s.onA f).core = { s.core with arch := f s.core.arch } := rfl
@[simp] theorem State.onA_others (s : State) (f : Arch → Arch) : (s.onA f).others = s.others := rfl
@[simp] theorem State.onA_mem (s : State) (f : Arch → Arch) : (s.onA f).mem = s.mem := rfl
@[simp] theorem State.onA_endpoint (s : State) (f : Arch → Arch) : (s.onA f).endpoint = s.endpoint := rfl
@[simp] theorem State.onA_appOut (s : State) (f : Arch → Arch) : (s.onA f).appOut = s.appOut := rfl
@[simp] theorem State.onA_descs (s : State) (f : Arch → Arch) : (s.onA f).descs = s.descs := rfl
@[simp] theorem State.onA_tlb (s : State) (f : Arch → Arch) : (s.onA f).tlb = s.tlb := rfl
@[simp] theorem State.onA_tc (s : State) (f : Arch → Arch) : (s.onA f).tc = s.tc := rfl
@[simp] theorem State.onA_sec (s : State) (f : Arch → Arch) : (s.onA f).sec = s.sec := rfl
@[simp] theorem State.onA_ports (s : State) (f : Arch → Arch) : (s.onA f).ports = s.ports := rfl
@[simp] theorem State.onA_power (s : State) (f : Arch → Arch) : (s.onA f).power = s.power := rfl
@[simp] theorem State.onA_journal (s : State) (f : Arch → Arch) : (s.onA f).journal = s.journal := rfl
@[simp] theorem State.onA_ox (s : State) (f : Arch → Arch) : (s.onA f).ox = s.ox := rfl
@[simp] theorem State.onA_disp (s : State) (f : Arch → Arch) : (s.onA f).disp = s.disp := rfl
@[simp] theorem State.onA_carried (s : State) (f : Arch → Arch) : (s.onA f).carried = s.carried := rfl
@[simp] theorem State.onA_launches (s : State) (f : Arch → Arch) : (s.onA f).launches = s.launches := rfl
@[simp] theorem State.onA_mboxes (s : State) (f : Arch → Arch) : (s.onA f).mboxes = s.mboxes := rfl
@[simp] theorem State.onA_barriers (s : State) (f : Arch → Arch) : (s.onA f).barriers = s.barriers := rfl
@[simp] theorem State.onA_colls (s : State) (f : Arch → Arch) : (s.onA f).colls = s.colls := rfl
@[simp] theorem State.onA_tags (s : State) (f : Arch → Arch) : (s.onA f).tags = s.tags := rfl
@[simp] theorem State.onA_ctxQueues (s : State) (f : Arch → Arch) : (s.onA f).ctxQueues = s.ctxQueues := rfl
@[simp] theorem State.onA_dispQueues (s : State) (f : Arch → Arch) : (s.onA f).dispQueues = s.dispQueues := rfl
@[simp] theorem State.onA_errs (s : State) (f : Arch → Arch) : (s.onA f).errs = s.errs := rfl
@[simp] theorem State.onA_poison (s : State) (f : Arch → Arch) : (s.onA f).poison = s.poison := rfl
@[simp] theorem State.onA_pfx (s : State) (f : Arch → Arch) : (s.onA f).pfx = s.pfx := rfl
@[simp] theorem State.onA_pfxNext (s : State) (f : Arch → Arch) : (s.onA f).pfxNext = s.pfxNext := rfl
@[simp] theorem State.onA_grade (s : State) (f : Arch → Arch) : (s.onA f).grade = s.grade := rfl
@[simp] theorem State.onA_dies (s : State) (f : Arch → Arch) : (s.onA f).dies = s.dies := rfl
@[simp] theorem State.onA_dtime (s : State) (f : Arch → Arch) : (s.onA f).dtime = s.dtime := rfl
@[simp] theorem State.onA_booted (s : State) (f : Arch → Arch) : (s.onA f).booted = s.booted := rfl
@[simp] theorem State.onA_inReset (s : State) (f : Arch → Arch) : (s.onA f).inReset = s.inReset := rfl
@[simp] theorem State.onA_agenda (s : State) (f : Arch → Arch) : (s.onA f).agenda = s.agenda := rfl
@[simp] theorem State.onA_fresh (s : State) (f : Arch → Arch) : (s.onA f).fresh = s.fresh := rfl
@[simp] theorem State.onA_uid (s : State) (f : Arch → Arch) : (s.onA f).uid = s.uid := rfl

/-! ## State.ws -/

@[simp] theorem State.ws_core (s : State) (r : SReg) (v : Word) : (s.ws r v).core = { s.core with arch := s.core.arch.ws r v } := rfl
@[simp] theorem State.ws_others (s : State) (r : SReg) (v : Word) : (s.ws r v).others = s.others := rfl
@[simp] theorem State.ws_mem (s : State) (r : SReg) (v : Word) : (s.ws r v).mem = s.mem := rfl
@[simp] theorem State.ws_endpoint (s : State) (r : SReg) (v : Word) : (s.ws r v).endpoint = s.endpoint := rfl
@[simp] theorem State.ws_appOut (s : State) (r : SReg) (v : Word) : (s.ws r v).appOut = s.appOut := rfl
@[simp] theorem State.ws_descs (s : State) (r : SReg) (v : Word) : (s.ws r v).descs = s.descs := rfl
@[simp] theorem State.ws_tlb (s : State) (r : SReg) (v : Word) : (s.ws r v).tlb = s.tlb := rfl
@[simp] theorem State.ws_tc (s : State) (r : SReg) (v : Word) : (s.ws r v).tc = s.tc := rfl
@[simp] theorem State.ws_sec (s : State) (r : SReg) (v : Word) : (s.ws r v).sec = s.sec := rfl
@[simp] theorem State.ws_ports (s : State) (r : SReg) (v : Word) : (s.ws r v).ports = s.ports := rfl
@[simp] theorem State.ws_power (s : State) (r : SReg) (v : Word) : (s.ws r v).power = s.power := rfl
@[simp] theorem State.ws_journal (s : State) (r : SReg) (v : Word) : (s.ws r v).journal = s.journal := rfl
@[simp] theorem State.ws_ox (s : State) (r : SReg) (v : Word) : (s.ws r v).ox = s.ox := rfl
@[simp] theorem State.ws_disp (s : State) (r : SReg) (v : Word) : (s.ws r v).disp = s.disp := rfl
@[simp] theorem State.ws_carried (s : State) (r : SReg) (v : Word) : (s.ws r v).carried = s.carried := rfl
@[simp] theorem State.ws_launches (s : State) (r : SReg) (v : Word) : (s.ws r v).launches = s.launches := rfl
@[simp] theorem State.ws_mboxes (s : State) (r : SReg) (v : Word) : (s.ws r v).mboxes = s.mboxes := rfl
@[simp] theorem State.ws_barriers (s : State) (r : SReg) (v : Word) : (s.ws r v).barriers = s.barriers := rfl
@[simp] theorem State.ws_colls (s : State) (r : SReg) (v : Word) : (s.ws r v).colls = s.colls := rfl
@[simp] theorem State.ws_tags (s : State) (r : SReg) (v : Word) : (s.ws r v).tags = s.tags := rfl
@[simp] theorem State.ws_ctxQueues (s : State) (r : SReg) (v : Word) : (s.ws r v).ctxQueues = s.ctxQueues := rfl
@[simp] theorem State.ws_dispQueues (s : State) (r : SReg) (v : Word) : (s.ws r v).dispQueues = s.dispQueues := rfl
@[simp] theorem State.ws_errs (s : State) (r : SReg) (v : Word) : (s.ws r v).errs = s.errs := rfl
@[simp] theorem State.ws_poison (s : State) (r : SReg) (v : Word) : (s.ws r v).poison = s.poison := rfl
@[simp] theorem State.ws_pfx (s : State) (r : SReg) (v : Word) : (s.ws r v).pfx = s.pfx := rfl
@[simp] theorem State.ws_pfxNext (s : State) (r : SReg) (v : Word) : (s.ws r v).pfxNext = s.pfxNext := rfl
@[simp] theorem State.ws_grade (s : State) (r : SReg) (v : Word) : (s.ws r v).grade = s.grade := rfl
@[simp] theorem State.ws_dies (s : State) (r : SReg) (v : Word) : (s.ws r v).dies = s.dies := rfl
@[simp] theorem State.ws_dtime (s : State) (r : SReg) (v : Word) : (s.ws r v).dtime = s.dtime := rfl
@[simp] theorem State.ws_booted (s : State) (r : SReg) (v : Word) : (s.ws r v).booted = s.booted := rfl
@[simp] theorem State.ws_inReset (s : State) (r : SReg) (v : Word) : (s.ws r v).inReset = s.inReset := rfl
@[simp] theorem State.ws_agenda (s : State) (r : SReg) (v : Word) : (s.ws r v).agenda = s.agenda := rfl
@[simp] theorem State.ws_fresh (s : State) (r : SReg) (v : Word) : (s.ws r v).fresh = s.fresh := rfl
@[simp] theorem State.ws_uid (s : State) (r : SReg) (v : Word) : (s.ws r v).uid = s.uid := rfl

/-! ## State.wp -/

@[simp] theorem State.wp_core (s : State) (r : PReg) (v : Bool) : (s.wp r v).core = { s.core with arch := s.core.arch.wp r v } := rfl
@[simp] theorem State.wp_others (s : State) (r : PReg) (v : Bool) : (s.wp r v).others = s.others := rfl
@[simp] theorem State.wp_mem (s : State) (r : PReg) (v : Bool) : (s.wp r v).mem = s.mem := rfl
@[simp] theorem State.wp_endpoint (s : State) (r : PReg) (v : Bool) : (s.wp r v).endpoint = s.endpoint := rfl
@[simp] theorem State.wp_appOut (s : State) (r : PReg) (v : Bool) : (s.wp r v).appOut = s.appOut := rfl
@[simp] theorem State.wp_descs (s : State) (r : PReg) (v : Bool) : (s.wp r v).descs = s.descs := rfl
@[simp] theorem State.wp_tlb (s : State) (r : PReg) (v : Bool) : (s.wp r v).tlb = s.tlb := rfl
@[simp] theorem State.wp_tc (s : State) (r : PReg) (v : Bool) : (s.wp r v).tc = s.tc := rfl
@[simp] theorem State.wp_sec (s : State) (r : PReg) (v : Bool) : (s.wp r v).sec = s.sec := rfl
@[simp] theorem State.wp_ports (s : State) (r : PReg) (v : Bool) : (s.wp r v).ports = s.ports := rfl
@[simp] theorem State.wp_power (s : State) (r : PReg) (v : Bool) : (s.wp r v).power = s.power := rfl
@[simp] theorem State.wp_journal (s : State) (r : PReg) (v : Bool) : (s.wp r v).journal = s.journal := rfl
@[simp] theorem State.wp_ox (s : State) (r : PReg) (v : Bool) : (s.wp r v).ox = s.ox := rfl
@[simp] theorem State.wp_disp (s : State) (r : PReg) (v : Bool) : (s.wp r v).disp = s.disp := rfl
@[simp] theorem State.wp_carried (s : State) (r : PReg) (v : Bool) : (s.wp r v).carried = s.carried := rfl
@[simp] theorem State.wp_launches (s : State) (r : PReg) (v : Bool) : (s.wp r v).launches = s.launches := rfl
@[simp] theorem State.wp_mboxes (s : State) (r : PReg) (v : Bool) : (s.wp r v).mboxes = s.mboxes := rfl
@[simp] theorem State.wp_barriers (s : State) (r : PReg) (v : Bool) : (s.wp r v).barriers = s.barriers := rfl
@[simp] theorem State.wp_colls (s : State) (r : PReg) (v : Bool) : (s.wp r v).colls = s.colls := rfl
@[simp] theorem State.wp_tags (s : State) (r : PReg) (v : Bool) : (s.wp r v).tags = s.tags := rfl
@[simp] theorem State.wp_ctxQueues (s : State) (r : PReg) (v : Bool) : (s.wp r v).ctxQueues = s.ctxQueues := rfl
@[simp] theorem State.wp_dispQueues (s : State) (r : PReg) (v : Bool) : (s.wp r v).dispQueues = s.dispQueues := rfl
@[simp] theorem State.wp_errs (s : State) (r : PReg) (v : Bool) : (s.wp r v).errs = s.errs := rfl
@[simp] theorem State.wp_poison (s : State) (r : PReg) (v : Bool) : (s.wp r v).poison = s.poison := rfl
@[simp] theorem State.wp_pfx (s : State) (r : PReg) (v : Bool) : (s.wp r v).pfx = s.pfx := rfl
@[simp] theorem State.wp_pfxNext (s : State) (r : PReg) (v : Bool) : (s.wp r v).pfxNext = s.pfxNext := rfl
@[simp] theorem State.wp_grade (s : State) (r : PReg) (v : Bool) : (s.wp r v).grade = s.grade := rfl
@[simp] theorem State.wp_dies (s : State) (r : PReg) (v : Bool) : (s.wp r v).dies = s.dies := rfl
@[simp] theorem State.wp_dtime (s : State) (r : PReg) (v : Bool) : (s.wp r v).dtime = s.dtime := rfl
@[simp] theorem State.wp_booted (s : State) (r : PReg) (v : Bool) : (s.wp r v).booted = s.booted := rfl
@[simp] theorem State.wp_inReset (s : State) (r : PReg) (v : Bool) : (s.wp r v).inReset = s.inReset := rfl
@[simp] theorem State.wp_agenda (s : State) (r : PReg) (v : Bool) : (s.wp r v).agenda = s.agenda := rfl
@[simp] theorem State.wp_fresh (s : State) (r : PReg) (v : Bool) : (s.wp r v).fresh = s.fresh := rfl
@[simp] theorem State.wp_uid (s : State) (r : PReg) (v : Bool) : (s.wp r v).uid = s.uid := rfl

/-! ## State.flag -/

@[simp] theorem State.flag_core (s : State) (f : BitVec 6) : (s.flag f).core = { s.core with arch := { s.core.arch with xflags := s.core.arch.xflags ||| f } } := rfl
@[simp] theorem State.flag_others (s : State) (f : BitVec 6) : (s.flag f).others = s.others := rfl
@[simp] theorem State.flag_mem (s : State) (f : BitVec 6) : (s.flag f).mem = s.mem := rfl
@[simp] theorem State.flag_endpoint (s : State) (f : BitVec 6) : (s.flag f).endpoint = s.endpoint := rfl
@[simp] theorem State.flag_appOut (s : State) (f : BitVec 6) : (s.flag f).appOut = s.appOut := rfl
@[simp] theorem State.flag_descs (s : State) (f : BitVec 6) : (s.flag f).descs = s.descs := rfl
@[simp] theorem State.flag_tlb (s : State) (f : BitVec 6) : (s.flag f).tlb = s.tlb := rfl
@[simp] theorem State.flag_tc (s : State) (f : BitVec 6) : (s.flag f).tc = s.tc := rfl
@[simp] theorem State.flag_sec (s : State) (f : BitVec 6) : (s.flag f).sec = s.sec := rfl
@[simp] theorem State.flag_ports (s : State) (f : BitVec 6) : (s.flag f).ports = s.ports := rfl
@[simp] theorem State.flag_power (s : State) (f : BitVec 6) : (s.flag f).power = s.power := rfl
@[simp] theorem State.flag_journal (s : State) (f : BitVec 6) : (s.flag f).journal = s.journal := rfl
@[simp] theorem State.flag_ox (s : State) (f : BitVec 6) : (s.flag f).ox = s.ox := rfl
@[simp] theorem State.flag_disp (s : State) (f : BitVec 6) : (s.flag f).disp = s.disp := rfl
@[simp] theorem State.flag_carried (s : State) (f : BitVec 6) : (s.flag f).carried = s.carried := rfl
@[simp] theorem State.flag_launches (s : State) (f : BitVec 6) : (s.flag f).launches = s.launches := rfl
@[simp] theorem State.flag_mboxes (s : State) (f : BitVec 6) : (s.flag f).mboxes = s.mboxes := rfl
@[simp] theorem State.flag_barriers (s : State) (f : BitVec 6) : (s.flag f).barriers = s.barriers := rfl
@[simp] theorem State.flag_colls (s : State) (f : BitVec 6) : (s.flag f).colls = s.colls := rfl
@[simp] theorem State.flag_tags (s : State) (f : BitVec 6) : (s.flag f).tags = s.tags := rfl
@[simp] theorem State.flag_ctxQueues (s : State) (f : BitVec 6) : (s.flag f).ctxQueues = s.ctxQueues := rfl
@[simp] theorem State.flag_dispQueues (s : State) (f : BitVec 6) : (s.flag f).dispQueues = s.dispQueues := rfl
@[simp] theorem State.flag_errs (s : State) (f : BitVec 6) : (s.flag f).errs = s.errs := rfl
@[simp] theorem State.flag_poison (s : State) (f : BitVec 6) : (s.flag f).poison = s.poison := rfl
@[simp] theorem State.flag_pfx (s : State) (f : BitVec 6) : (s.flag f).pfx = s.pfx := rfl
@[simp] theorem State.flag_pfxNext (s : State) (f : BitVec 6) : (s.flag f).pfxNext = s.pfxNext := rfl
@[simp] theorem State.flag_grade (s : State) (f : BitVec 6) : (s.flag f).grade = s.grade := rfl
@[simp] theorem State.flag_dies (s : State) (f : BitVec 6) : (s.flag f).dies = s.dies := rfl
@[simp] theorem State.flag_dtime (s : State) (f : BitVec 6) : (s.flag f).dtime = s.dtime := rfl
@[simp] theorem State.flag_booted (s : State) (f : BitVec 6) : (s.flag f).booted = s.booted := rfl
@[simp] theorem State.flag_inReset (s : State) (f : BitVec 6) : (s.flag f).inReset = s.inReset := rfl
@[simp] theorem State.flag_agenda (s : State) (f : BitVec 6) : (s.flag f).agenda = s.agenda := rfl
@[simp] theorem State.flag_fresh (s : State) (f : BitVec 6) : (s.flag f).fresh = s.fresh := rfl
@[simp] theorem State.flag_uid (s : State) (f : BitVec 6) : (s.flag f).uid = s.uid := rfl

/-! ## State.onCtxQ -/

@[simp] theorem State.onCtxQ_core (s : State) (l : Nat) (f : QueuePair → QueuePair) : (s.onCtxQ l f).core = s.core := rfl
@[simp] theorem State.onCtxQ_others (s : State) (l : Nat) (f : QueuePair → QueuePair) : (s.onCtxQ l f).others = s.others := rfl
@[simp] theorem State.onCtxQ_mem (s : State) (l : Nat) (f : QueuePair → QueuePair) : (s.onCtxQ l f).mem = s.mem := rfl
@[simp] theorem State.onCtxQ_endpoint (s : State) (l : Nat) (f : QueuePair → QueuePair) : (s.onCtxQ l f).endpoint = s.endpoint := rfl
@[simp] theorem State.onCtxQ_appOut (s : State) (l : Nat) (f : QueuePair → QueuePair) : (s.onCtxQ l f).appOut = s.appOut := rfl
@[simp] theorem State.onCtxQ_descs (s : State) (l : Nat) (f : QueuePair → QueuePair) : (s.onCtxQ l f).descs = s.descs := rfl
@[simp] theorem State.onCtxQ_tlb (s : State) (l : Nat) (f : QueuePair → QueuePair) : (s.onCtxQ l f).tlb = s.tlb := rfl
@[simp] theorem State.onCtxQ_tc (s : State) (l : Nat) (f : QueuePair → QueuePair) : (s.onCtxQ l f).tc = s.tc := rfl
@[simp] theorem State.onCtxQ_sec (s : State) (l : Nat) (f : QueuePair → QueuePair) : (s.onCtxQ l f).sec = s.sec := rfl
@[simp] theorem State.onCtxQ_ports (s : State) (l : Nat) (f : QueuePair → QueuePair) : (s.onCtxQ l f).ports = s.ports := rfl
@[simp] theorem State.onCtxQ_power (s : State) (l : Nat) (f : QueuePair → QueuePair) : (s.onCtxQ l f).power = s.power := rfl
@[simp] theorem State.onCtxQ_journal (s : State) (l : Nat) (f : QueuePair → QueuePair) : (s.onCtxQ l f).journal = s.journal := rfl
@[simp] theorem State.onCtxQ_ox (s : State) (l : Nat) (f : QueuePair → QueuePair) : (s.onCtxQ l f).ox = s.ox := rfl
@[simp] theorem State.onCtxQ_disp (s : State) (l : Nat) (f : QueuePair → QueuePair) : (s.onCtxQ l f).disp = s.disp := rfl
@[simp] theorem State.onCtxQ_carried (s : State) (l : Nat) (f : QueuePair → QueuePair) : (s.onCtxQ l f).carried = s.carried := rfl
@[simp] theorem State.onCtxQ_launches (s : State) (l : Nat) (f : QueuePair → QueuePair) : (s.onCtxQ l f).launches = s.launches := rfl
@[simp] theorem State.onCtxQ_mboxes (s : State) (l : Nat) (f : QueuePair → QueuePair) : (s.onCtxQ l f).mboxes = s.mboxes := rfl
@[simp] theorem State.onCtxQ_barriers (s : State) (l : Nat) (f : QueuePair → QueuePair) : (s.onCtxQ l f).barriers = s.barriers := rfl
@[simp] theorem State.onCtxQ_colls (s : State) (l : Nat) (f : QueuePair → QueuePair) : (s.onCtxQ l f).colls = s.colls := rfl
@[simp] theorem State.onCtxQ_tags (s : State) (l : Nat) (f : QueuePair → QueuePair) : (s.onCtxQ l f).tags = s.tags := rfl
@[simp] theorem State.onCtxQ_ctxQueues (s : State) (l : Nat) (f : QueuePair → QueuePair) : (s.onCtxQ l f).ctxQueues = bindTo s.ctxQueues l (f (s.ctxQ l)) := rfl
@[simp] theorem State.onCtxQ_dispQueues (s : State) (l : Nat) (f : QueuePair → QueuePair) : (s.onCtxQ l f).dispQueues = s.dispQueues := rfl
@[simp] theorem State.onCtxQ_errs (s : State) (l : Nat) (f : QueuePair → QueuePair) : (s.onCtxQ l f).errs = s.errs := rfl
@[simp] theorem State.onCtxQ_poison (s : State) (l : Nat) (f : QueuePair → QueuePair) : (s.onCtxQ l f).poison = s.poison := rfl
@[simp] theorem State.onCtxQ_pfx (s : State) (l : Nat) (f : QueuePair → QueuePair) : (s.onCtxQ l f).pfx = s.pfx := rfl
@[simp] theorem State.onCtxQ_pfxNext (s : State) (l : Nat) (f : QueuePair → QueuePair) : (s.onCtxQ l f).pfxNext = s.pfxNext := rfl
@[simp] theorem State.onCtxQ_grade (s : State) (l : Nat) (f : QueuePair → QueuePair) : (s.onCtxQ l f).grade = s.grade := rfl
@[simp] theorem State.onCtxQ_dies (s : State) (l : Nat) (f : QueuePair → QueuePair) : (s.onCtxQ l f).dies = s.dies := rfl
@[simp] theorem State.onCtxQ_dtime (s : State) (l : Nat) (f : QueuePair → QueuePair) : (s.onCtxQ l f).dtime = s.dtime := rfl
@[simp] theorem State.onCtxQ_booted (s : State) (l : Nat) (f : QueuePair → QueuePair) : (s.onCtxQ l f).booted = s.booted := rfl
@[simp] theorem State.onCtxQ_inReset (s : State) (l : Nat) (f : QueuePair → QueuePair) : (s.onCtxQ l f).inReset = s.inReset := rfl
@[simp] theorem State.onCtxQ_agenda (s : State) (l : Nat) (f : QueuePair → QueuePair) : (s.onCtxQ l f).agenda = s.agenda := rfl
@[simp] theorem State.onCtxQ_fresh (s : State) (l : Nat) (f : QueuePair → QueuePair) : (s.onCtxQ l f).fresh = s.fresh := rfl
@[simp] theorem State.onCtxQ_uid (s : State) (l : Nat) (f : QueuePair → QueuePair) : (s.onCtxQ l f).uid = s.uid := rfl

/-! ## State.onDispQ -/

@[simp] theorem State.onDispQ_core (s : State) (d : Fin 8) (f : QueuePair → QueuePair) : (s.onDispQ d f).core = s.core := rfl
@[simp] theorem State.onDispQ_others (s : State) (d : Fin 8) (f : QueuePair → QueuePair) : (s.onDispQ d f).others = s.others := rfl
@[simp] theorem State.onDispQ_mem (s : State) (d : Fin 8) (f : QueuePair → QueuePair) : (s.onDispQ d f).mem = s.mem := rfl
@[simp] theorem State.onDispQ_endpoint (s : State) (d : Fin 8) (f : QueuePair → QueuePair) : (s.onDispQ d f).endpoint = s.endpoint := rfl
@[simp] theorem State.onDispQ_appOut (s : State) (d : Fin 8) (f : QueuePair → QueuePair) : (s.onDispQ d f).appOut = s.appOut := rfl
@[simp] theorem State.onDispQ_descs (s : State) (d : Fin 8) (f : QueuePair → QueuePair) : (s.onDispQ d f).descs = s.descs := rfl
@[simp] theorem State.onDispQ_tlb (s : State) (d : Fin 8) (f : QueuePair → QueuePair) : (s.onDispQ d f).tlb = s.tlb := rfl
@[simp] theorem State.onDispQ_tc (s : State) (d : Fin 8) (f : QueuePair → QueuePair) : (s.onDispQ d f).tc = s.tc := rfl
@[simp] theorem State.onDispQ_sec (s : State) (d : Fin 8) (f : QueuePair → QueuePair) : (s.onDispQ d f).sec = s.sec := rfl
@[simp] theorem State.onDispQ_ports (s : State) (d : Fin 8) (f : QueuePair → QueuePair) : (s.onDispQ d f).ports = s.ports := rfl
@[simp] theorem State.onDispQ_power (s : State) (d : Fin 8) (f : QueuePair → QueuePair) : (s.onDispQ d f).power = s.power := rfl
@[simp] theorem State.onDispQ_journal (s : State) (d : Fin 8) (f : QueuePair → QueuePair) : (s.onDispQ d f).journal = s.journal := rfl
@[simp] theorem State.onDispQ_ox (s : State) (d : Fin 8) (f : QueuePair → QueuePair) : (s.onDispQ d f).ox = s.ox := rfl
@[simp] theorem State.onDispQ_disp (s : State) (d : Fin 8) (f : QueuePair → QueuePair) : (s.onDispQ d f).disp = s.disp := rfl
@[simp] theorem State.onDispQ_carried (s : State) (d : Fin 8) (f : QueuePair → QueuePair) : (s.onDispQ d f).carried = s.carried := rfl
@[simp] theorem State.onDispQ_launches (s : State) (d : Fin 8) (f : QueuePair → QueuePair) : (s.onDispQ d f).launches = s.launches := rfl
@[simp] theorem State.onDispQ_mboxes (s : State) (d : Fin 8) (f : QueuePair → QueuePair) : (s.onDispQ d f).mboxes = s.mboxes := rfl
@[simp] theorem State.onDispQ_barriers (s : State) (d : Fin 8) (f : QueuePair → QueuePair) : (s.onDispQ d f).barriers = s.barriers := rfl
@[simp] theorem State.onDispQ_colls (s : State) (d : Fin 8) (f : QueuePair → QueuePair) : (s.onDispQ d f).colls = s.colls := rfl
@[simp] theorem State.onDispQ_tags (s : State) (d : Fin 8) (f : QueuePair → QueuePair) : (s.onDispQ d f).tags = s.tags := rfl
@[simp] theorem State.onDispQ_ctxQueues (s : State) (d : Fin 8) (f : QueuePair → QueuePair) : (s.onDispQ d f).ctxQueues = s.ctxQueues := rfl
@[simp] theorem State.onDispQ_dispQueues (s : State) (d : Fin 8) (f : QueuePair → QueuePair) : (s.onDispQ d f).dispQueues = s.dispQueues.set d.val (f s.dispQueues[d.val]) := rfl
@[simp] theorem State.onDispQ_errs (s : State) (d : Fin 8) (f : QueuePair → QueuePair) : (s.onDispQ d f).errs = s.errs := rfl
@[simp] theorem State.onDispQ_poison (s : State) (d : Fin 8) (f : QueuePair → QueuePair) : (s.onDispQ d f).poison = s.poison := rfl
@[simp] theorem State.onDispQ_pfx (s : State) (d : Fin 8) (f : QueuePair → QueuePair) : (s.onDispQ d f).pfx = s.pfx := rfl
@[simp] theorem State.onDispQ_pfxNext (s : State) (d : Fin 8) (f : QueuePair → QueuePair) : (s.onDispQ d f).pfxNext = s.pfxNext := rfl
@[simp] theorem State.onDispQ_grade (s : State) (d : Fin 8) (f : QueuePair → QueuePair) : (s.onDispQ d f).grade = s.grade := rfl
@[simp] theorem State.onDispQ_dies (s : State) (d : Fin 8) (f : QueuePair → QueuePair) : (s.onDispQ d f).dies = s.dies := rfl
@[simp] theorem State.onDispQ_dtime (s : State) (d : Fin 8) (f : QueuePair → QueuePair) : (s.onDispQ d f).dtime = s.dtime := rfl
@[simp] theorem State.onDispQ_booted (s : State) (d : Fin 8) (f : QueuePair → QueuePair) : (s.onDispQ d f).booted = s.booted := rfl
@[simp] theorem State.onDispQ_inReset (s : State) (d : Fin 8) (f : QueuePair → QueuePair) : (s.onDispQ d f).inReset = s.inReset := rfl
@[simp] theorem State.onDispQ_agenda (s : State) (d : Fin 8) (f : QueuePair → QueuePair) : (s.onDispQ d f).agenda = s.agenda := rfl
@[simp] theorem State.onDispQ_fresh (s : State) (d : Fin 8) (f : QueuePair → QueuePair) : (s.onDispQ d f).fresh = s.fresh := rfl
@[simp] theorem State.onDispQ_uid (s : State) (d : Fin 8) (f : QueuePair → QueuePair) : (s.onDispQ d f).uid = s.uid := rfl

/-! ## State.onLaunch -/

@[simp] theorem State.onLaunch_core (s : State) (l : Nat) (f : Launch → Launch) : (s.onLaunch l f).core = s.core := rfl
@[simp] theorem State.onLaunch_others (s : State) (l : Nat) (f : Launch → Launch) : (s.onLaunch l f).others = s.others := rfl
@[simp] theorem State.onLaunch_mem (s : State) (l : Nat) (f : Launch → Launch) : (s.onLaunch l f).mem = s.mem := rfl
@[simp] theorem State.onLaunch_endpoint (s : State) (l : Nat) (f : Launch → Launch) : (s.onLaunch l f).endpoint = s.endpoint := rfl
@[simp] theorem State.onLaunch_appOut (s : State) (l : Nat) (f : Launch → Launch) : (s.onLaunch l f).appOut = s.appOut := rfl
@[simp] theorem State.onLaunch_descs (s : State) (l : Nat) (f : Launch → Launch) : (s.onLaunch l f).descs = s.descs := rfl
@[simp] theorem State.onLaunch_tlb (s : State) (l : Nat) (f : Launch → Launch) : (s.onLaunch l f).tlb = s.tlb := rfl
@[simp] theorem State.onLaunch_tc (s : State) (l : Nat) (f : Launch → Launch) : (s.onLaunch l f).tc = s.tc := rfl
@[simp] theorem State.onLaunch_sec (s : State) (l : Nat) (f : Launch → Launch) : (s.onLaunch l f).sec = s.sec := rfl
@[simp] theorem State.onLaunch_ports (s : State) (l : Nat) (f : Launch → Launch) : (s.onLaunch l f).ports = s.ports := rfl
@[simp] theorem State.onLaunch_power (s : State) (l : Nat) (f : Launch → Launch) : (s.onLaunch l f).power = s.power := rfl
@[simp] theorem State.onLaunch_journal (s : State) (l : Nat) (f : Launch → Launch) : (s.onLaunch l f).journal = s.journal := rfl
@[simp] theorem State.onLaunch_ox (s : State) (l : Nat) (f : Launch → Launch) : (s.onLaunch l f).ox = s.ox := rfl
@[simp] theorem State.onLaunch_disp (s : State) (l : Nat) (f : Launch → Launch) : (s.onLaunch l f).disp = s.disp := rfl
@[simp] theorem State.onLaunch_carried (s : State) (l : Nat) (f : Launch → Launch) : (s.onLaunch l f).carried = s.carried := rfl
@[simp] theorem State.onLaunch_launches (s : State) (l : Nat) (f : Launch → Launch) : (s.onLaunch l f).launches = s.launches.map (fun x => if x.id = l then f x else x) := rfl
@[simp] theorem State.onLaunch_mboxes (s : State) (l : Nat) (f : Launch → Launch) : (s.onLaunch l f).mboxes = s.mboxes := rfl
@[simp] theorem State.onLaunch_barriers (s : State) (l : Nat) (f : Launch → Launch) : (s.onLaunch l f).barriers = s.barriers := rfl
@[simp] theorem State.onLaunch_colls (s : State) (l : Nat) (f : Launch → Launch) : (s.onLaunch l f).colls = s.colls := rfl
@[simp] theorem State.onLaunch_tags (s : State) (l : Nat) (f : Launch → Launch) : (s.onLaunch l f).tags = s.tags := rfl
@[simp] theorem State.onLaunch_ctxQueues (s : State) (l : Nat) (f : Launch → Launch) : (s.onLaunch l f).ctxQueues = s.ctxQueues := rfl
@[simp] theorem State.onLaunch_dispQueues (s : State) (l : Nat) (f : Launch → Launch) : (s.onLaunch l f).dispQueues = s.dispQueues := rfl
@[simp] theorem State.onLaunch_errs (s : State) (l : Nat) (f : Launch → Launch) : (s.onLaunch l f).errs = s.errs := rfl
@[simp] theorem State.onLaunch_poison (s : State) (l : Nat) (f : Launch → Launch) : (s.onLaunch l f).poison = s.poison := rfl
@[simp] theorem State.onLaunch_pfx (s : State) (l : Nat) (f : Launch → Launch) : (s.onLaunch l f).pfx = s.pfx := rfl
@[simp] theorem State.onLaunch_pfxNext (s : State) (l : Nat) (f : Launch → Launch) : (s.onLaunch l f).pfxNext = s.pfxNext := rfl
@[simp] theorem State.onLaunch_grade (s : State) (l : Nat) (f : Launch → Launch) : (s.onLaunch l f).grade = s.grade := rfl
@[simp] theorem State.onLaunch_dies (s : State) (l : Nat) (f : Launch → Launch) : (s.onLaunch l f).dies = s.dies := rfl
@[simp] theorem State.onLaunch_dtime (s : State) (l : Nat) (f : Launch → Launch) : (s.onLaunch l f).dtime = s.dtime := rfl
@[simp] theorem State.onLaunch_booted (s : State) (l : Nat) (f : Launch → Launch) : (s.onLaunch l f).booted = s.booted := rfl
@[simp] theorem State.onLaunch_inReset (s : State) (l : Nat) (f : Launch → Launch) : (s.onLaunch l f).inReset = s.inReset := rfl
@[simp] theorem State.onLaunch_agenda (s : State) (l : Nat) (f : Launch → Launch) : (s.onLaunch l f).agenda = s.agenda := rfl
@[simp] theorem State.onLaunch_fresh (s : State) (l : Nat) (f : Launch → Launch) : (s.onLaunch l f).fresh = s.fresh := rfl
@[simp] theorem State.onLaunch_uid (s : State) (l : Nat) (f : Launch → Launch) : (s.onLaunch l f).uid = s.uid := rfl

/-! ## Core.both -/

@[simp] theorem Core.both_id (c : Core) (f : Arch → Arch) : (c.both f).id = c.id := rfl
@[simp] theorem Core.both_arch (c : Core) (f : Arch → Arch) : (c.both f).arch = f c.arch := rfl
@[simp] theorem Core.both_ckpt (c : Core) (f : Arch → Arch) : (c.both f).ckpt = f c.ckpt := rfl
@[simp] theorem Core.both_src (c : Core) (f : Arch → Arch) : (c.both f).src = c.src := rfl
@[simp] theorem Core.both_npc (c : Core) (f : Arch → Arch) : (c.both f).npc = c.npc := rfl
@[simp] theorem Core.both_closes (c : Core) (f : Arch → Arch) : (c.both f).closes = c.closes := rfl
@[simp] theorem Core.both_ended (c : Core) (f : Arch → Arch) : (c.both f).ended = c.ended := rfl
@[simp] theorem Core.both_atRp (c : Core) (f : Arch → Arch) : (c.both f).atRp = c.atRp := rfl
@[simp] theorem Core.both_gate (c : Core) (f : Arch → Arch) : (c.both f).gate = c.gate := rfl
@[simp] theorem Core.both_held (c : Core) (f : Arch → Arch) : (c.both f).held = c.held := rfl
@[simp] theorem Core.both_pool (c : Core) (f : Arch → Arch) : (c.both f).pool = c.pool := rfl
@[simp] theorem Core.both_side (c : Core) (f : Arch → Arch) : (c.both f).side = c.side := rfl
@[simp] theorem Core.both_lines (c : Core) (f : Arch → Arch) : (c.both f).lines = c.lines := rfl
@[simp] theorem Core.both_plinks (c : Core) (f : Arch → Arch) : (c.both f).plinks = c.plinks := rfl
@[simp] theorem Core.both_zkind (c : Core) (f : Arch → Arch) : (c.both f).zkind = c.zkind := rfl
@[simp] theorem Core.both_partw (c : Core) (f : Arch → Arch) : (c.both f).partw = c.partw := rfl
@[simp] theorem Core.both_latA (c : Core) (f : Arch → Arch) : (c.both f).latA = c.latA := rfl
@[simp] theorem Core.both_latB (c : Core) (f : Arch → Arch) : (c.both f).latB = c.latB := rfl
@[simp] theorem Core.both_cnt (c : Core) (f : Arch → Arch) : (c.both f).cnt = c.cnt := rfl
@[simp] theorem Core.both_loads (c : Core) (f : Arch → Arch) : (c.both f).loads = c.loads := rfl
@[simp] theorem Core.both_stores (c : Core) (f : Arch → Arch) : (c.both f).stores = c.stores := rfl
@[simp] theorem Core.both_threads (c : Core) (f : Arch → Arch) : (c.both f).threads = c.threads := rfl
@[simp] theorem Core.both_recs (c : Core) (f : Arch → Arch) : (c.both f).recs = c.recs := rfl
@[simp] theorem Core.both_forks (c : Core) (f : Arch → Arch) : (c.both f).forks = c.forks := rfl
@[simp] theorem Core.both_stallc (c : Core) (f : Arch → Arch) : (c.both f).stallc = c.stallc := rfl
@[simp] theorem Core.both_stall (c : Core) (f : Arch → Arch) : (c.both f).stall = c.stall := rfl
@[simp] theorem Core.both_l1 (c : Core) (f : Arch → Arch) : (c.both f).l1 = c.l1 := rfl
@[simp] theorem Core.both_ahead (c : Core) (f : Arch → Arch) : (c.both f).ahead = c.ahead := rfl
@[simp] theorem Core.both_farUid (c : Core) (f : Arch → Arch) : (c.both f).farUid = c.farUid := rfl
@[simp] theorem Core.both_monitor (c : Core) (f : Arch → Arch) : (c.both f).monitor = c.monitor := rfl
@[simp] theorem Core.both_arrivals (c : Core) (f : Arch → Arch) : (c.both f).arrivals = c.arrivals := rfl
@[simp] theorem Core.both_arrived (c : Core) (f : Arch → Arch) : (c.both f).arrived = c.arrived := rfl
@[simp] theorem Core.both_arvSent (c : Core) (f : Arch → Arch) : (c.both f).arvSent = c.arvSent := rfl
@[simp] theorem Core.both_colln (c : Core) (f : Arch → Arch) : (c.both f).colln = c.colln := rfl
@[simp] theorem Core.both_heldBy (c : Core) (f : Arch → Arch) : (c.both f).heldBy = c.heldBy := rfl
@[simp] theorem Core.both_badPool (c : Core) (f : Arch → Arch) : (c.both f).badPool = c.badPool := rfl
@[simp] theorem Core.both_badSide (c : Core) (f : Arch → Arch) : (c.both f).badSide = c.badSide := rfl
@[simp] theorem Core.both_badLatA (c : Core) (f : Arch → Arch) : (c.both f).badLatA = c.badLatA := rfl
@[simp] theorem Core.both_badLatB (c : Core) (f : Arch → Arch) : (c.both f).badLatB = c.badLatB := rfl
@[simp] theorem Core.both_badL1 (c : Core) (f : Arch → Arch) : (c.both f).badL1 = c.badL1 := rfl
@[simp] theorem Core.both_task (c : Core) (f : Arch → Arch) : (c.both f).task = c.task := rfl
@[simp] theorem Core.both_lastCtx (c : Core) (f : Arch → Arch) : (c.both f).lastCtx = c.lastCtx := rfl
@[simp] theorem Core.both_status (c : Core) (f : Arch → Arch) : (c.both f).status = c.status := rfl
@[simp] theorem Core.both_preempt (c : Core) (f : Arch → Arch) : (c.both f).preempt = c.preempt := rfl
@[simp] theorem Core.both_ran (c : Core) (f : Arch → Arch) : (c.both f).ran = c.ran := rfl
@[simp] theorem Core.both_past (c : Core) (f : Arch → Arch) : (c.both f).past = c.past := rfl
@[simp] theorem Core.both_contin (c : Core) (f : Arch → Arch) : (c.both f).contin = c.contin := rfl
@[simp] theorem Core.both_holdFor (c : Core) (f : Arch → Arch) : (c.both f).holdFor = c.holdFor := rfl

/-! ## Core.cntUp -/

@[simp] theorem Core.cntUp_id (c : Core) (st : Fin 8) (n : Nat) : (c.cntUp st n).id = c.id := rfl
@[simp] theorem Core.cntUp_arch (c : Core) (st : Fin 8) (n : Nat) : (c.cntUp st n).arch = c.arch := rfl
@[simp] theorem Core.cntUp_ckpt (c : Core) (st : Fin 8) (n : Nat) : (c.cntUp st n).ckpt = c.ckpt := rfl
@[simp] theorem Core.cntUp_src (c : Core) (st : Fin 8) (n : Nat) : (c.cntUp st n).src = c.src := rfl
@[simp] theorem Core.cntUp_npc (c : Core) (st : Fin 8) (n : Nat) : (c.cntUp st n).npc = c.npc := rfl
@[simp] theorem Core.cntUp_closes (c : Core) (st : Fin 8) (n : Nat) : (c.cntUp st n).closes = c.closes := rfl
@[simp] theorem Core.cntUp_ended (c : Core) (st : Fin 8) (n : Nat) : (c.cntUp st n).ended = c.ended := rfl
@[simp] theorem Core.cntUp_atRp (c : Core) (st : Fin 8) (n : Nat) : (c.cntUp st n).atRp = c.atRp := rfl
@[simp] theorem Core.cntUp_gate (c : Core) (st : Fin 8) (n : Nat) : (c.cntUp st n).gate = c.gate := rfl
@[simp] theorem Core.cntUp_held (c : Core) (st : Fin 8) (n : Nat) : (c.cntUp st n).held = c.held := rfl
@[simp] theorem Core.cntUp_pool (c : Core) (st : Fin 8) (n : Nat) : (c.cntUp st n).pool = c.pool := rfl
@[simp] theorem Core.cntUp_side (c : Core) (st : Fin 8) (n : Nat) : (c.cntUp st n).side = c.side := rfl
@[simp] theorem Core.cntUp_lines (c : Core) (st : Fin 8) (n : Nat) : (c.cntUp st n).lines = c.lines := rfl
@[simp] theorem Core.cntUp_plinks (c : Core) (st : Fin 8) (n : Nat) : (c.cntUp st n).plinks = c.plinks := rfl
@[simp] theorem Core.cntUp_zkind (c : Core) (st : Fin 8) (n : Nat) : (c.cntUp st n).zkind = c.zkind := rfl
@[simp] theorem Core.cntUp_partw (c : Core) (st : Fin 8) (n : Nat) : (c.cntUp st n).partw = c.partw := rfl
@[simp] theorem Core.cntUp_latA (c : Core) (st : Fin 8) (n : Nat) : (c.cntUp st n).latA = c.latA := rfl
@[simp] theorem Core.cntUp_latB (c : Core) (st : Fin 8) (n : Nat) : (c.cntUp st n).latB = c.latB := rfl
@[simp] theorem Core.cntUp_cnt (c : Core) (st : Fin 8) (n : Nat) : (c.cntUp st n).cnt = c.cnt.set st.val (c.cnt[st.val] + n) := rfl
@[simp] theorem Core.cntUp_loads (c : Core) (st : Fin 8) (n : Nat) : (c.cntUp st n).loads = c.loads := rfl
@[simp] theorem Core.cntUp_stores (c : Core) (st : Fin 8) (n : Nat) : (c.cntUp st n).stores = c.stores := rfl
@[simp] theorem Core.cntUp_threads (c : Core) (st : Fin 8) (n : Nat) : (c.cntUp st n).threads = c.threads := rfl
@[simp] theorem Core.cntUp_recs (c : Core) (st : Fin 8) (n : Nat) : (c.cntUp st n).recs = c.recs := rfl
@[simp] theorem Core.cntUp_forks (c : Core) (st : Fin 8) (n : Nat) : (c.cntUp st n).forks = c.forks := rfl
@[simp] theorem Core.cntUp_stallc (c : Core) (st : Fin 8) (n : Nat) : (c.cntUp st n).stallc = c.stallc := rfl
@[simp] theorem Core.cntUp_stall (c : Core) (st : Fin 8) (n : Nat) : (c.cntUp st n).stall = c.stall := rfl
@[simp] theorem Core.cntUp_l1 (c : Core) (st : Fin 8) (n : Nat) : (c.cntUp st n).l1 = c.l1 := rfl
@[simp] theorem Core.cntUp_ahead (c : Core) (st : Fin 8) (n : Nat) : (c.cntUp st n).ahead = c.ahead := rfl
@[simp] theorem Core.cntUp_farUid (c : Core) (st : Fin 8) (n : Nat) : (c.cntUp st n).farUid = c.farUid := rfl
@[simp] theorem Core.cntUp_monitor (c : Core) (st : Fin 8) (n : Nat) : (c.cntUp st n).monitor = c.monitor := rfl
@[simp] theorem Core.cntUp_arrivals (c : Core) (st : Fin 8) (n : Nat) : (c.cntUp st n).arrivals = c.arrivals := rfl
@[simp] theorem Core.cntUp_arrived (c : Core) (st : Fin 8) (n : Nat) : (c.cntUp st n).arrived = c.arrived := rfl
@[simp] theorem Core.cntUp_arvSent (c : Core) (st : Fin 8) (n : Nat) : (c.cntUp st n).arvSent = c.arvSent := rfl
@[simp] theorem Core.cntUp_colln (c : Core) (st : Fin 8) (n : Nat) : (c.cntUp st n).colln = c.colln := rfl
@[simp] theorem Core.cntUp_heldBy (c : Core) (st : Fin 8) (n : Nat) : (c.cntUp st n).heldBy = c.heldBy := rfl
@[simp] theorem Core.cntUp_badPool (c : Core) (st : Fin 8) (n : Nat) : (c.cntUp st n).badPool = c.badPool := rfl
@[simp] theorem Core.cntUp_badSide (c : Core) (st : Fin 8) (n : Nat) : (c.cntUp st n).badSide = c.badSide := rfl
@[simp] theorem Core.cntUp_badLatA (c : Core) (st : Fin 8) (n : Nat) : (c.cntUp st n).badLatA = c.badLatA := rfl
@[simp] theorem Core.cntUp_badLatB (c : Core) (st : Fin 8) (n : Nat) : (c.cntUp st n).badLatB = c.badLatB := rfl
@[simp] theorem Core.cntUp_badL1 (c : Core) (st : Fin 8) (n : Nat) : (c.cntUp st n).badL1 = c.badL1 := rfl
@[simp] theorem Core.cntUp_task (c : Core) (st : Fin 8) (n : Nat) : (c.cntUp st n).task = c.task := rfl
@[simp] theorem Core.cntUp_lastCtx (c : Core) (st : Fin 8) (n : Nat) : (c.cntUp st n).lastCtx = c.lastCtx := rfl
@[simp] theorem Core.cntUp_status (c : Core) (st : Fin 8) (n : Nat) : (c.cntUp st n).status = c.status := rfl
@[simp] theorem Core.cntUp_preempt (c : Core) (st : Fin 8) (n : Nat) : (c.cntUp st n).preempt = c.preempt := rfl
@[simp] theorem Core.cntUp_ran (c : Core) (st : Fin 8) (n : Nat) : (c.cntUp st n).ran = c.ran := rfl
@[simp] theorem Core.cntUp_past (c : Core) (st : Fin 8) (n : Nat) : (c.cntUp st n).past = c.past := rfl
@[simp] theorem Core.cntUp_contin (c : Core) (st : Fin 8) (n : Nat) : (c.cntUp st n).contin = c.contin := rfl
@[simp] theorem Core.cntUp_holdFor (c : Core) (st : Fin 8) (n : Nat) : (c.cntUp st n).holdFor = c.holdFor := rfl

/-! ## Core.cntDown -/

@[simp] theorem Core.cntDown_id (c : Core) (st : Fin 8) (n : Nat) : (c.cntDown st n).id = c.id := rfl
@[simp] theorem Core.cntDown_arch (c : Core) (st : Fin 8) (n : Nat) : (c.cntDown st n).arch = c.arch := rfl
@[simp] theorem Core.cntDown_ckpt (c : Core) (st : Fin 8) (n : Nat) : (c.cntDown st n).ckpt = c.ckpt := rfl
@[simp] theorem Core.cntDown_src (c : Core) (st : Fin 8) (n : Nat) : (c.cntDown st n).src = c.src := rfl
@[simp] theorem Core.cntDown_npc (c : Core) (st : Fin 8) (n : Nat) : (c.cntDown st n).npc = c.npc := rfl
@[simp] theorem Core.cntDown_closes (c : Core) (st : Fin 8) (n : Nat) : (c.cntDown st n).closes = c.closes := rfl
@[simp] theorem Core.cntDown_ended (c : Core) (st : Fin 8) (n : Nat) : (c.cntDown st n).ended = c.ended := rfl
@[simp] theorem Core.cntDown_atRp (c : Core) (st : Fin 8) (n : Nat) : (c.cntDown st n).atRp = c.atRp := rfl
@[simp] theorem Core.cntDown_gate (c : Core) (st : Fin 8) (n : Nat) : (c.cntDown st n).gate = c.gate := rfl
@[simp] theorem Core.cntDown_held (c : Core) (st : Fin 8) (n : Nat) : (c.cntDown st n).held = c.held := rfl
@[simp] theorem Core.cntDown_pool (c : Core) (st : Fin 8) (n : Nat) : (c.cntDown st n).pool = c.pool := rfl
@[simp] theorem Core.cntDown_side (c : Core) (st : Fin 8) (n : Nat) : (c.cntDown st n).side = c.side := rfl
@[simp] theorem Core.cntDown_lines (c : Core) (st : Fin 8) (n : Nat) : (c.cntDown st n).lines = c.lines := rfl
@[simp] theorem Core.cntDown_plinks (c : Core) (st : Fin 8) (n : Nat) : (c.cntDown st n).plinks = c.plinks := rfl
@[simp] theorem Core.cntDown_zkind (c : Core) (st : Fin 8) (n : Nat) : (c.cntDown st n).zkind = c.zkind := rfl
@[simp] theorem Core.cntDown_partw (c : Core) (st : Fin 8) (n : Nat) : (c.cntDown st n).partw = c.partw := rfl
@[simp] theorem Core.cntDown_latA (c : Core) (st : Fin 8) (n : Nat) : (c.cntDown st n).latA = c.latA := rfl
@[simp] theorem Core.cntDown_latB (c : Core) (st : Fin 8) (n : Nat) : (c.cntDown st n).latB = c.latB := rfl
@[simp] theorem Core.cntDown_cnt (c : Core) (st : Fin 8) (n : Nat) : (c.cntDown st n).cnt = c.cnt.set st.val (c.cnt[st.val] - n) := rfl
@[simp] theorem Core.cntDown_loads (c : Core) (st : Fin 8) (n : Nat) : (c.cntDown st n).loads = c.loads := rfl
@[simp] theorem Core.cntDown_stores (c : Core) (st : Fin 8) (n : Nat) : (c.cntDown st n).stores = c.stores := rfl
@[simp] theorem Core.cntDown_threads (c : Core) (st : Fin 8) (n : Nat) : (c.cntDown st n).threads = c.threads := rfl
@[simp] theorem Core.cntDown_recs (c : Core) (st : Fin 8) (n : Nat) : (c.cntDown st n).recs = c.recs := rfl
@[simp] theorem Core.cntDown_forks (c : Core) (st : Fin 8) (n : Nat) : (c.cntDown st n).forks = c.forks := rfl
@[simp] theorem Core.cntDown_stallc (c : Core) (st : Fin 8) (n : Nat) : (c.cntDown st n).stallc = c.stallc := rfl
@[simp] theorem Core.cntDown_stall (c : Core) (st : Fin 8) (n : Nat) : (c.cntDown st n).stall = c.stall := rfl
@[simp] theorem Core.cntDown_l1 (c : Core) (st : Fin 8) (n : Nat) : (c.cntDown st n).l1 = c.l1 := rfl
@[simp] theorem Core.cntDown_ahead (c : Core) (st : Fin 8) (n : Nat) : (c.cntDown st n).ahead = c.ahead := rfl
@[simp] theorem Core.cntDown_farUid (c : Core) (st : Fin 8) (n : Nat) : (c.cntDown st n).farUid = c.farUid := rfl
@[simp] theorem Core.cntDown_monitor (c : Core) (st : Fin 8) (n : Nat) : (c.cntDown st n).monitor = c.monitor := rfl
@[simp] theorem Core.cntDown_arrivals (c : Core) (st : Fin 8) (n : Nat) : (c.cntDown st n).arrivals = c.arrivals := rfl
@[simp] theorem Core.cntDown_arrived (c : Core) (st : Fin 8) (n : Nat) : (c.cntDown st n).arrived = c.arrived := rfl
@[simp] theorem Core.cntDown_arvSent (c : Core) (st : Fin 8) (n : Nat) : (c.cntDown st n).arvSent = c.arvSent := rfl
@[simp] theorem Core.cntDown_colln (c : Core) (st : Fin 8) (n : Nat) : (c.cntDown st n).colln = c.colln := rfl
@[simp] theorem Core.cntDown_heldBy (c : Core) (st : Fin 8) (n : Nat) : (c.cntDown st n).heldBy = c.heldBy := rfl
@[simp] theorem Core.cntDown_badPool (c : Core) (st : Fin 8) (n : Nat) : (c.cntDown st n).badPool = c.badPool := rfl
@[simp] theorem Core.cntDown_badSide (c : Core) (st : Fin 8) (n : Nat) : (c.cntDown st n).badSide = c.badSide := rfl
@[simp] theorem Core.cntDown_badLatA (c : Core) (st : Fin 8) (n : Nat) : (c.cntDown st n).badLatA = c.badLatA := rfl
@[simp] theorem Core.cntDown_badLatB (c : Core) (st : Fin 8) (n : Nat) : (c.cntDown st n).badLatB = c.badLatB := rfl
@[simp] theorem Core.cntDown_badL1 (c : Core) (st : Fin 8) (n : Nat) : (c.cntDown st n).badL1 = c.badL1 := rfl
@[simp] theorem Core.cntDown_task (c : Core) (st : Fin 8) (n : Nat) : (c.cntDown st n).task = c.task := rfl
@[simp] theorem Core.cntDown_lastCtx (c : Core) (st : Fin 8) (n : Nat) : (c.cntDown st n).lastCtx = c.lastCtx := rfl
@[simp] theorem Core.cntDown_status (c : Core) (st : Fin 8) (n : Nat) : (c.cntDown st n).status = c.status := rfl
@[simp] theorem Core.cntDown_preempt (c : Core) (st : Fin 8) (n : Nat) : (c.cntDown st n).preempt = c.preempt := rfl
@[simp] theorem Core.cntDown_ran (c : Core) (st : Fin 8) (n : Nat) : (c.cntDown st n).ran = c.ran := rfl
@[simp] theorem Core.cntDown_past (c : Core) (st : Fin 8) (n : Nat) : (c.cntDown st n).past = c.past := rfl
@[simp] theorem Core.cntDown_contin (c : Core) (st : Fin 8) (n : Nat) : (c.cntDown st n).contin = c.contin := rfl
@[simp] theorem Core.cntDown_holdFor (c : Core) (st : Fin 8) (n : Nat) : (c.cntDown st n).holdFor = c.holdFor := rfl

/-! ## Core.rollback -/

@[simp] theorem Core.rollback_id (c : Core) : (c.rollback).id = c.id := rfl
@[simp] theorem Core.rollback_arch (c : Core) : (c.rollback).arch = c.ckpt := rfl
@[simp] theorem Core.rollback_ckpt (c : Core) : (c.rollback).ckpt = c.ckpt := rfl
@[simp] theorem Core.rollback_src (c : Core) : (c.rollback).src = c.src := rfl
@[simp] theorem Core.rollback_npc (c : Core) : (c.rollback).npc = none := rfl
@[simp] theorem Core.rollback_closes (c : Core) : (c.rollback).closes = false := rfl
@[simp] theorem Core.rollback_ended (c : Core) : (c.rollback).ended = true := rfl
@[simp] theorem Core.rollback_atRp (c : Core) : (c.rollback).atRp = true := rfl
@[simp] theorem Core.rollback_gate (c : Core) : (c.rollback).gate = [] := rfl
@[simp] theorem Core.rollback_held (c : Core) : (c.rollback).held = c.held := rfl
@[simp] theorem Core.rollback_pool (c : Core) : (c.rollback).pool = c.pool := rfl
@[simp] theorem Core.rollback_side (c : Core) : (c.rollback).side = c.side := rfl
@[simp] theorem Core.rollback_lines (c : Core) : (c.rollback).lines = c.lines := rfl
@[simp] theorem Core.rollback_plinks (c : Core) : (c.rollback).plinks = c.plinks := rfl
@[simp] theorem Core.rollback_zkind (c : Core) : (c.rollback).zkind = c.zkind := rfl
@[simp] theorem Core.rollback_partw (c : Core) : (c.rollback).partw = c.partw := rfl
@[simp] theorem Core.rollback_latA (c : Core) : (c.rollback).latA = c.latA := rfl
@[simp] theorem Core.rollback_latB (c : Core) : (c.rollback).latB = c.latB := rfl
@[simp] theorem Core.rollback_cnt (c : Core) : (c.rollback).cnt = c.cnt := rfl
@[simp] theorem Core.rollback_loads (c : Core) : (c.rollback).loads = c.loads.map (fun l => if l.committed then l else { l with dropped := true }) := rfl
@[simp] theorem Core.rollback_stores (c : Core) : (c.rollback).stores = c.stores := rfl
@[simp] theorem Core.rollback_threads (c : Core) : (c.rollback).threads = c.threads := rfl
@[simp] theorem Core.rollback_recs (c : Core) : (c.rollback).recs = c.recs := rfl
@[simp] theorem Core.rollback_forks (c : Core) : (c.rollback).forks = c.forks := rfl
@[simp] theorem Core.rollback_stallc (c : Core) : (c.rollback).stallc = c.stallc := rfl
@[simp] theorem Core.rollback_stall (c : Core) : (c.rollback).stall = 0 := rfl
@[simp] theorem Core.rollback_l1 (c : Core) : (c.rollback).l1 = c.l1 := rfl
@[simp] theorem Core.rollback_ahead (c : Core) : (c.rollback).ahead = c.ahead := rfl
@[simp] theorem Core.rollback_farUid (c : Core) : (c.rollback).farUid = none := rfl
@[simp] theorem Core.rollback_monitor (c : Core) : (c.rollback).monitor = none := rfl
@[simp] theorem Core.rollback_arrivals (c : Core) : (c.rollback).arrivals = c.arrivals := rfl
@[simp] theorem Core.rollback_arrived (c : Core) : (c.rollback).arrived = c.arrived := rfl
@[simp] theorem Core.rollback_arvSent (c : Core) : (c.rollback).arvSent = c.arvSent := rfl
@[simp] theorem Core.rollback_colln (c : Core) : (c.rollback).colln = c.colln := rfl
@[simp] theorem Core.rollback_heldBy (c : Core) : (c.rollback).heldBy = c.heldBy := rfl
@[simp] theorem Core.rollback_badPool (c : Core) : (c.rollback).badPool = c.badPool := rfl
@[simp] theorem Core.rollback_badSide (c : Core) : (c.rollback).badSide = c.badSide := rfl
@[simp] theorem Core.rollback_badLatA (c : Core) : (c.rollback).badLatA = c.badLatA := rfl
@[simp] theorem Core.rollback_badLatB (c : Core) : (c.rollback).badLatB = c.badLatB := rfl
@[simp] theorem Core.rollback_badL1 (c : Core) : (c.rollback).badL1 = c.badL1 := rfl
@[simp] theorem Core.rollback_task (c : Core) : (c.rollback).task = c.task := rfl
@[simp] theorem Core.rollback_lastCtx (c : Core) : (c.rollback).lastCtx = c.lastCtx := rfl
@[simp] theorem Core.rollback_status (c : Core) : (c.rollback).status = c.status := rfl
@[simp] theorem Core.rollback_preempt (c : Core) : (c.rollback).preempt = c.preempt := rfl
@[simp] theorem Core.rollback_ran (c : Core) : (c.rollback).ran = c.ran := rfl
@[simp] theorem Core.rollback_past (c : Core) : (c.rollback).past = c.past := rfl
@[simp] theorem Core.rollback_contin (c : Core) : (c.rollback).contin = c.contin := rfl
@[simp] theorem Core.rollback_holdFor (c : Core) : (c.rollback).holdFor = c.holdFor := rfl

/-! ## Core.writeScratch -/

@[simp] theorem Core.writeScratch_id (c : Core) (off : Nat) (bs : List Byte) : (c.writeScratch off bs).id = c.id := rfl
@[simp] theorem Core.writeScratch_arch (c : Core) (off : Nat) (bs : List Byte) : (c.writeScratch off bs).arch = c.arch := rfl
@[simp] theorem Core.writeScratch_ckpt (c : Core) (off : Nat) (bs : List Byte) : (c.writeScratch off bs).ckpt = c.ckpt := rfl
@[simp] theorem Core.writeScratch_src (c : Core) (off : Nat) (bs : List Byte) : (c.writeScratch off bs).src = c.src := rfl
@[simp] theorem Core.writeScratch_npc (c : Core) (off : Nat) (bs : List Byte) : (c.writeScratch off bs).npc = c.npc := rfl
@[simp] theorem Core.writeScratch_closes (c : Core) (off : Nat) (bs : List Byte) : (c.writeScratch off bs).closes = c.closes := rfl
@[simp] theorem Core.writeScratch_ended (c : Core) (off : Nat) (bs : List Byte) : (c.writeScratch off bs).ended = c.ended := rfl
@[simp] theorem Core.writeScratch_atRp (c : Core) (off : Nat) (bs : List Byte) : (c.writeScratch off bs).atRp = c.atRp := rfl
@[simp] theorem Core.writeScratch_gate (c : Core) (off : Nat) (bs : List Byte) : (c.writeScratch off bs).gate = c.gate := rfl
@[simp] theorem Core.writeScratch_held (c : Core) (off : Nat) (bs : List Byte) : (c.writeScratch off bs).held = c.held := rfl
@[simp] theorem Core.writeScratch_pool (c : Core) (off : Nat) (bs : List Byte) : (c.writeScratch off bs).pool = c.pool.put (c.scratchBase + off) bs := rfl
@[simp] theorem Core.writeScratch_side (c : Core) (off : Nat) (bs : List Byte) : (c.writeScratch off bs).side = c.side := rfl
@[simp] theorem Core.writeScratch_lines (c : Core) (off : Nat) (bs : List Byte) : (c.writeScratch off bs).lines = c.lines := rfl
@[simp] theorem Core.writeScratch_plinks (c : Core) (off : Nat) (bs : List Byte) : (c.writeScratch off bs).plinks = c.plinks := rfl
@[simp] theorem Core.writeScratch_zkind (c : Core) (off : Nat) (bs : List Byte) : (c.writeScratch off bs).zkind = c.zkind := rfl
@[simp] theorem Core.writeScratch_partw (c : Core) (off : Nat) (bs : List Byte) : (c.writeScratch off bs).partw = c.partw := rfl
@[simp] theorem Core.writeScratch_latA (c : Core) (off : Nat) (bs : List Byte) : (c.writeScratch off bs).latA = c.latA := rfl
@[simp] theorem Core.writeScratch_latB (c : Core) (off : Nat) (bs : List Byte) : (c.writeScratch off bs).latB = c.latB := rfl
@[simp] theorem Core.writeScratch_cnt (c : Core) (off : Nat) (bs : List Byte) : (c.writeScratch off bs).cnt = c.cnt := rfl
@[simp] theorem Core.writeScratch_loads (c : Core) (off : Nat) (bs : List Byte) : (c.writeScratch off bs).loads = c.loads := rfl
@[simp] theorem Core.writeScratch_stores (c : Core) (off : Nat) (bs : List Byte) : (c.writeScratch off bs).stores = c.stores := rfl
@[simp] theorem Core.writeScratch_threads (c : Core) (off : Nat) (bs : List Byte) : (c.writeScratch off bs).threads = c.threads := rfl
@[simp] theorem Core.writeScratch_recs (c : Core) (off : Nat) (bs : List Byte) : (c.writeScratch off bs).recs = c.recs := rfl
@[simp] theorem Core.writeScratch_forks (c : Core) (off : Nat) (bs : List Byte) : (c.writeScratch off bs).forks = c.forks := rfl
@[simp] theorem Core.writeScratch_stallc (c : Core) (off : Nat) (bs : List Byte) : (c.writeScratch off bs).stallc = c.stallc := rfl
@[simp] theorem Core.writeScratch_stall (c : Core) (off : Nat) (bs : List Byte) : (c.writeScratch off bs).stall = c.stall := rfl
@[simp] theorem Core.writeScratch_l1 (c : Core) (off : Nat) (bs : List Byte) : (c.writeScratch off bs).l1 = c.l1 := rfl
@[simp] theorem Core.writeScratch_ahead (c : Core) (off : Nat) (bs : List Byte) : (c.writeScratch off bs).ahead = c.ahead := rfl
@[simp] theorem Core.writeScratch_farUid (c : Core) (off : Nat) (bs : List Byte) : (c.writeScratch off bs).farUid = c.farUid := rfl
@[simp] theorem Core.writeScratch_monitor (c : Core) (off : Nat) (bs : List Byte) : (c.writeScratch off bs).monitor = c.monitor := rfl
@[simp] theorem Core.writeScratch_arrivals (c : Core) (off : Nat) (bs : List Byte) : (c.writeScratch off bs).arrivals = c.arrivals := rfl
@[simp] theorem Core.writeScratch_arrived (c : Core) (off : Nat) (bs : List Byte) : (c.writeScratch off bs).arrived = c.arrived := rfl
@[simp] theorem Core.writeScratch_arvSent (c : Core) (off : Nat) (bs : List Byte) : (c.writeScratch off bs).arvSent = c.arvSent := rfl
@[simp] theorem Core.writeScratch_colln (c : Core) (off : Nat) (bs : List Byte) : (c.writeScratch off bs).colln = c.colln := rfl
@[simp] theorem Core.writeScratch_heldBy (c : Core) (off : Nat) (bs : List Byte) : (c.writeScratch off bs).heldBy = c.heldBy := rfl
@[simp] theorem Core.writeScratch_badPool (c : Core) (off : Nat) (bs : List Byte) : (c.writeScratch off bs).badPool = healed c.badPool [(c.scratchBase + off, bs)] := rfl
@[simp] theorem Core.writeScratch_badSide (c : Core) (off : Nat) (bs : List Byte) : (c.writeScratch off bs).badSide = c.badSide := rfl
@[simp] theorem Core.writeScratch_badLatA (c : Core) (off : Nat) (bs : List Byte) : (c.writeScratch off bs).badLatA = c.badLatA := rfl
@[simp] theorem Core.writeScratch_badLatB (c : Core) (off : Nat) (bs : List Byte) : (c.writeScratch off bs).badLatB = c.badLatB := rfl
@[simp] theorem Core.writeScratch_badL1 (c : Core) (off : Nat) (bs : List Byte) : (c.writeScratch off bs).badL1 = c.badL1 := rfl
@[simp] theorem Core.writeScratch_task (c : Core) (off : Nat) (bs : List Byte) : (c.writeScratch off bs).task = c.task := rfl
@[simp] theorem Core.writeScratch_lastCtx (c : Core) (off : Nat) (bs : List Byte) : (c.writeScratch off bs).lastCtx = c.lastCtx := rfl
@[simp] theorem Core.writeScratch_status (c : Core) (off : Nat) (bs : List Byte) : (c.writeScratch off bs).status = c.status := rfl
@[simp] theorem Core.writeScratch_preempt (c : Core) (off : Nat) (bs : List Byte) : (c.writeScratch off bs).preempt = c.preempt := rfl
@[simp] theorem Core.writeScratch_ran (c : Core) (off : Nat) (bs : List Byte) : (c.writeScratch off bs).ran = c.ran := rfl
@[simp] theorem Core.writeScratch_past (c : Core) (off : Nat) (bs : List Byte) : (c.writeScratch off bs).past = c.past := rfl
@[simp] theorem Core.writeScratch_contin (c : Core) (off : Nat) (bs : List Byte) : (c.writeScratch off bs).contin = c.contin := rfl
@[simp] theorem Core.writeScratch_holdFor (c : Core) (off : Nat) (bs : List Byte) : (c.writeScratch off bs).holdFor = c.holdFor := rfl

/-! ## Arch.seqUp -/

@[simp] theorem Arch.seqUp_pc (a : Arch) (st : Fin 8) (n : Nat) : (a.seqUp st n).pc = a.pc := rfl
@[simp] theorem Arch.seqUp_s (a : Arch) (st : Fin 8) (n : Nat) : (a.seqUp st n).s = a.s := rfl
@[simp] theorem Arch.seqUp_p (a : Arch) (st : Fin 8) (n : Nat) : (a.seqUp st n).p = a.p := rfl
@[simp] theorem Arch.seqUp_g (a : Arch) (st : Fin 8) (n : Nat) : (a.seqUp st n).g = a.g := rfl
@[simp] theorem Arch.seqUp_gpend (a : Arch) (st : Fin 8) (n : Nat) : (a.seqUp st n).gpend = a.gpend := rfl
@[simp] theorem Arch.seqUp_h (a : Arch) (st : Fin 8) (n : Nat) : (a.seqUp st n).h = a.h := rfl
@[simp] theorem Arch.seqUp_loops (a : Arch) (st : Fin 8) (n : Nat) : (a.seqUp st n).loops = a.loops := rfl
@[simp] theorem Arch.seqUp_progs (a : Arch) (st : Fin 8) (n : Nat) : (a.seqUp st n).progs = a.progs := rfl
@[simp] theorem Arch.seqUp_binds (a : Arch) (st : Fin 8) (n : Nat) : (a.seqUp st n).binds = a.binds := rfl
@[simp] theorem Arch.seqUp_latchA (a : Arch) (st : Fin 8) (n : Nat) : (a.seqUp st n).latchA = a.latchA := rfl
@[simp] theorem Arch.seqUp_latchB (a : Arch) (st : Fin 8) (n : Nat) : (a.seqUp st n).latchB = a.latchB := rfl
@[simp] theorem Arch.seqUp_trap (a : Arch) (st : Fin 8) (n : Nat) : (a.seqUp st n).trap = a.trap := rfl
@[simp] theorem Arch.seqUp_grow (a : Arch) (st : Fin 8) (n : Nat) : (a.seqUp st n).grow = a.grow := rfl
@[simp] theorem Arch.seqUp_fprog (a : Arch) (st : Fin 8) (n : Nat) : (a.seqUp st n).fprog = a.fprog := rfl
@[simp] theorem Arch.seqUp_fstat (a : Arch) (st : Fin 8) (n : Nat) : (a.seqUp st n).fstat = a.fstat := rfl
@[simp] theorem Arch.seqUp_pivt (a : Arch) (st : Fin 8) (n : Nat) : (a.seqUp st n).pivt = a.pivt := rfl
@[simp] theorem Arch.seqUp_zpol (a : Arch) (st : Fin 8) (n : Nat) : (a.seqUp st n).zpol = a.zpol := rfl
@[simp] theorem Arch.seqUp_xflags (a : Arch) (st : Fin 8) (n : Nat) : (a.seqUp st n).xflags = a.xflags := rfl
@[simp] theorem Arch.seqUp_seql (a : Arch) (st : Fin 8) (n : Nat) : (a.seqUp st n).seql = a.seql := rfl
@[simp] theorem Arch.seqUp_linewait (a : Arch) (st : Fin 8) (n : Nat) : (a.seqUp st n).linewait = a.linewait := rfl
@[simp] theorem Arch.seqUp_gptr (a : Arch) (st : Fin 8) (n : Nat) : (a.seqUp st n).gptr = a.gptr := rfl
@[simp] theorem Arch.seqUp_perm (a : Arch) (st : Fin 8) (n : Nat) : (a.seqUp st n).perm = a.perm := rfl
@[simp] theorem Arch.seqUp_seqn (a : Arch) (st : Fin 8) (n : Nat) : (a.seqUp st n).seqn = a.seqn.set st.val (a.seqn[st.val] + BitVec.ofNat 16 n) := rfl
@[simp] theorem Arch.seqUp_touched (a : Arch) (st : Fin 8) (n : Nat) : (a.seqUp st n).touched = a.touched := rfl

/-! ## Arch.countG -/

@[simp] theorem Arch.countG_pc (a : Arch) : (a.countG).pc = a.pc := rfl
@[simp] theorem Arch.countG_s (a : Arch) : (a.countG).s = a.s := rfl
@[simp] theorem Arch.countG_p (a : Arch) : (a.countG).p = a.p := rfl
@[simp] theorem Arch.countG_g (a : Arch) : (a.countG).g = a.g := rfl
@[simp] theorem Arch.countG_gpend (a : Arch) : (a.countG).gpend = a.gpend.map (fun p => p.map (fun x => (x.1, x.2 - 1))) := rfl
@[simp] theorem Arch.countG_h (a : Arch) : (a.countG).h = a.h := rfl
@[simp] theorem Arch.countG_loops (a : Arch) : (a.countG).loops = a.loops := rfl
@[simp] theorem Arch.countG_progs (a : Arch) : (a.countG).progs = a.progs := rfl
@[simp] theorem Arch.countG_binds (a : Arch) : (a.countG).binds = a.binds := rfl
@[simp] theorem Arch.countG_latchA (a : Arch) : (a.countG).latchA = a.latchA := rfl
@[simp] theorem Arch.countG_latchB (a : Arch) : (a.countG).latchB = a.latchB := rfl
@[simp] theorem Arch.countG_trap (a : Arch) : (a.countG).trap = a.trap := rfl
@[simp] theorem Arch.countG_grow (a : Arch) : (a.countG).grow = a.grow := rfl
@[simp] theorem Arch.countG_fprog (a : Arch) : (a.countG).fprog = a.fprog := rfl
@[simp] theorem Arch.countG_fstat (a : Arch) : (a.countG).fstat = a.fstat := rfl
@[simp] theorem Arch.countG_pivt (a : Arch) : (a.countG).pivt = a.pivt := rfl
@[simp] theorem Arch.countG_zpol (a : Arch) : (a.countG).zpol = a.zpol := rfl
@[simp] theorem Arch.countG_xflags (a : Arch) : (a.countG).xflags = a.xflags := rfl
@[simp] theorem Arch.countG_seql (a : Arch) : (a.countG).seql = a.seql := rfl
@[simp] theorem Arch.countG_linewait (a : Arch) : (a.countG).linewait = a.linewait := rfl
@[simp] theorem Arch.countG_gptr (a : Arch) : (a.countG).gptr = a.gptr := rfl
@[simp] theorem Arch.countG_perm (a : Arch) : (a.countG).perm = a.perm := rfl
@[simp] theorem Arch.countG_seqn (a : Arch) : (a.countG).seqn = a.seqn := rfl
@[simp] theorem Arch.countG_touched (a : Arch) : (a.countG).touched = a.touched := rfl

/-! ## Arch.ws and Arch.wp -/

@[simp] theorem Arch.ws_pc (a : Arch) (r : SReg) (v : Word) : (a.ws r v).pc = a.pc := by unfold Arch.ws; split <;> rfl
@[simp] theorem Arch.wp_pc (a : Arch) (r : PReg) (v : Bool) : (a.wp r v).pc = a.pc := by unfold Arch.wp; split <;> rfl
@[simp] theorem Arch.wp_s (a : Arch) (r : PReg) (v : Bool) : (a.wp r v).s = a.s := by unfold Arch.wp; split <;> rfl
@[simp] theorem Arch.ws_p (a : Arch) (r : SReg) (v : Word) : (a.ws r v).p = a.p := by unfold Arch.ws; split <;> rfl
@[simp] theorem Arch.ws_g (a : Arch) (r : SReg) (v : Word) : (a.ws r v).g = a.g := by unfold Arch.ws; split <;> rfl
@[simp] theorem Arch.wp_g (a : Arch) (r : PReg) (v : Bool) : (a.wp r v).g = a.g := by unfold Arch.wp; split <;> rfl
@[simp] theorem Arch.ws_gpend (a : Arch) (r : SReg) (v : Word) : (a.ws r v).gpend = a.gpend := by unfold Arch.ws; split <;> rfl
@[simp] theorem Arch.wp_gpend (a : Arch) (r : PReg) (v : Bool) : (a.wp r v).gpend = a.gpend := by unfold Arch.wp; split <;> rfl
@[simp] theorem Arch.ws_h (a : Arch) (r : SReg) (v : Word) : (a.ws r v).h = a.h := by unfold Arch.ws; split <;> rfl
@[simp] theorem Arch.wp_h (a : Arch) (r : PReg) (v : Bool) : (a.wp r v).h = a.h := by unfold Arch.wp; split <;> rfl
@[simp] theorem Arch.ws_loops (a : Arch) (r : SReg) (v : Word) : (a.ws r v).loops = a.loops := by unfold Arch.ws; split <;> rfl
@[simp] theorem Arch.wp_loops (a : Arch) (r : PReg) (v : Bool) : (a.wp r v).loops = a.loops := by unfold Arch.wp; split <;> rfl
@[simp] theorem Arch.ws_progs (a : Arch) (r : SReg) (v : Word) : (a.ws r v).progs = a.progs := by unfold Arch.ws; split <;> rfl
@[simp] theorem Arch.wp_progs (a : Arch) (r : PReg) (v : Bool) : (a.wp r v).progs = a.progs := by unfold Arch.wp; split <;> rfl
@[simp] theorem Arch.ws_binds (a : Arch) (r : SReg) (v : Word) : (a.ws r v).binds = a.binds := by unfold Arch.ws; split <;> rfl
@[simp] theorem Arch.wp_binds (a : Arch) (r : PReg) (v : Bool) : (a.wp r v).binds = a.binds := by unfold Arch.wp; split <;> rfl
@[simp] theorem Arch.ws_latchA (a : Arch) (r : SReg) (v : Word) : (a.ws r v).latchA = a.latchA := by unfold Arch.ws; split <;> rfl
@[simp] theorem Arch.wp_latchA (a : Arch) (r : PReg) (v : Bool) : (a.wp r v).latchA = a.latchA := by unfold Arch.wp; split <;> rfl
@[simp] theorem Arch.ws_latchB (a : Arch) (r : SReg) (v : Word) : (a.ws r v).latchB = a.latchB := by unfold Arch.ws; split <;> rfl
@[simp] theorem Arch.wp_latchB (a : Arch) (r : PReg) (v : Bool) : (a.wp r v).latchB = a.latchB := by unfold Arch.wp; split <;> rfl
@[simp] theorem Arch.ws_trap (a : Arch) (r : SReg) (v : Word) : (a.ws r v).trap = a.trap := by unfold Arch.ws; split <;> rfl
@[simp] theorem Arch.wp_trap (a : Arch) (r : PReg) (v : Bool) : (a.wp r v).trap = a.trap := by unfold Arch.wp; split <;> rfl
@[simp] theorem Arch.ws_grow (a : Arch) (r : SReg) (v : Word) : (a.ws r v).grow = a.grow := by unfold Arch.ws; split <;> rfl
@[simp] theorem Arch.wp_grow (a : Arch) (r : PReg) (v : Bool) : (a.wp r v).grow = a.grow := by unfold Arch.wp; split <;> rfl
@[simp] theorem Arch.ws_fprog (a : Arch) (r : SReg) (v : Word) : (a.ws r v).fprog = a.fprog := by unfold Arch.ws; split <;> rfl
@[simp] theorem Arch.wp_fprog (a : Arch) (r : PReg) (v : Bool) : (a.wp r v).fprog = a.fprog := by unfold Arch.wp; split <;> rfl
@[simp] theorem Arch.ws_fstat (a : Arch) (r : SReg) (v : Word) : (a.ws r v).fstat = a.fstat := by unfold Arch.ws; split <;> rfl
@[simp] theorem Arch.wp_fstat (a : Arch) (r : PReg) (v : Bool) : (a.wp r v).fstat = a.fstat := by unfold Arch.wp; split <;> rfl
@[simp] theorem Arch.ws_pivt (a : Arch) (r : SReg) (v : Word) : (a.ws r v).pivt = a.pivt := by unfold Arch.ws; split <;> rfl
@[simp] theorem Arch.wp_pivt (a : Arch) (r : PReg) (v : Bool) : (a.wp r v).pivt = a.pivt := by unfold Arch.wp; split <;> rfl
@[simp] theorem Arch.ws_zpol (a : Arch) (r : SReg) (v : Word) : (a.ws r v).zpol = a.zpol := by unfold Arch.ws; split <;> rfl
@[simp] theorem Arch.wp_zpol (a : Arch) (r : PReg) (v : Bool) : (a.wp r v).zpol = a.zpol := by unfold Arch.wp; split <;> rfl
@[simp] theorem Arch.ws_xflags (a : Arch) (r : SReg) (v : Word) : (a.ws r v).xflags = a.xflags := by unfold Arch.ws; split <;> rfl
@[simp] theorem Arch.wp_xflags (a : Arch) (r : PReg) (v : Bool) : (a.wp r v).xflags = a.xflags := by unfold Arch.wp; split <;> rfl
@[simp] theorem Arch.ws_seql (a : Arch) (r : SReg) (v : Word) : (a.ws r v).seql = a.seql := by unfold Arch.ws; split <;> rfl
@[simp] theorem Arch.wp_seql (a : Arch) (r : PReg) (v : Bool) : (a.wp r v).seql = a.seql := by unfold Arch.wp; split <;> rfl
@[simp] theorem Arch.ws_linewait (a : Arch) (r : SReg) (v : Word) : (a.ws r v).linewait = a.linewait := by unfold Arch.ws; split <;> rfl
@[simp] theorem Arch.wp_linewait (a : Arch) (r : PReg) (v : Bool) : (a.wp r v).linewait = a.linewait := by unfold Arch.wp; split <;> rfl
@[simp] theorem Arch.ws_gptr (a : Arch) (r : SReg) (v : Word) : (a.ws r v).gptr = a.gptr := by unfold Arch.ws; split <;> rfl
@[simp] theorem Arch.wp_gptr (a : Arch) (r : PReg) (v : Bool) : (a.wp r v).gptr = a.gptr := by unfold Arch.wp; split <;> rfl
@[simp] theorem Arch.ws_perm (a : Arch) (r : SReg) (v : Word) : (a.ws r v).perm = a.perm := by unfold Arch.ws; split <;> rfl
@[simp] theorem Arch.wp_perm (a : Arch) (r : PReg) (v : Bool) : (a.wp r v).perm = a.perm := by unfold Arch.wp; split <;> rfl
@[simp] theorem Arch.ws_seqn (a : Arch) (r : SReg) (v : Word) : (a.ws r v).seqn = a.seqn := by unfold Arch.ws; split <;> rfl
@[simp] theorem Arch.wp_seqn (a : Arch) (r : PReg) (v : Bool) : (a.wp r v).seqn = a.seqn := by unfold Arch.wp; split <;> rfl
@[simp] theorem Arch.ws_touched (a : Arch) (r : SReg) (v : Word) : (a.ws r v).touched = a.touched := by unfold Arch.ws; split <;> rfl
@[simp] theorem Arch.wp_touched (a : Arch) (r : PReg) (v : Bool) : (a.wp r v).touched = a.touched := by unfold Arch.wp; split <;> rfl

/-- What a write to an S register leaves in every S register (R42). -/
theorem Arch.rs_ws (a : Arch) (r q : SReg) (v : Word) : (a.ws r v).rs q = if q = 0 then 0 else if q = r then v else a.rs q := by
  unfold Arch.ws Arch.rs
  by_cases hq : q = 0
  · simp [hq]
  · by_cases hr : r = 0
    · subst hr; simp [hq]
    · simp only [hq, hr, if_false]
      by_cases h : q = r
      · subst h; simp
      · have : r.val ≠ q.val := fun e => h (Fin.ext e.symm)
        simp [h, this]

/-- What a write to a P register leaves in every P register (R42). -/
theorem Arch.rp_wp (a : Arch) (r q : PReg) (v : Bool) : (a.wp r v).rp q = if q = 0 then true else if q = r then v else a.rp q := by
  unfold Arch.wp Arch.rp
  by_cases hq : q = 0
  · simp [hq]
  · by_cases hr : r = 0
    · subst hr; simp [hq]
    · simp only [hq, hr, if_false]
      by_cases h : q = r
      · subst h; simp
      · have : r.val ≠ q.val := fun e => h (Fin.ext e.symm)
        simp [h, this]

@[simp] theorem Arch.rs_zero (a : Arch) : a.rs 0 = 0 := rfl
@[simp] theorem Arch.rp_zero (a : Arch) : a.rp 0 = true := rfl
@[simp] theorem Arch.ws_zero (a : Arch) (v : Word) : a.ws 0 v = a := rfl
@[simp] theorem Arch.wp_zero (a : Arch) (v : Bool) : a.wp 0 v = a := rfl

end Sys2Proof.Machine
end

