-- ==== Sys2Proof/Laws/Ops.lean ====
section
/-! SUPPORT. What each shared operation of a core can do: the gate and its commit, completing a bundle, taking a trap, forking
a thread; each keeps the canonical form of the pool and the side array. -/

namespace Sys2Proof.Machine

/-! ## A slot's check -/

@[simp] theorem State.guard_none (s : State) (k : Out) : s.guard none k = k := rfl
@[simp] theorem State.guard_some (s : State) (f : SlotFault) (k : Out) : s.guard (some f) k = .next (s.takeTrap [f]) := rfl

/-- A guarded meaning that answers a next state has trapped, or has passed its check and gone on. -/
theorem State.guard_next {s t : State} {f : Option SlotFault} {k : Out} (h : s.guard f k = .next t) :
    (∃ g, f = some g ∧ t = s.takeTrap [g]) ∨ (f = none ∧ k = .next t) := by
  cases f with
  | none => exact .inr ⟨rfl, h⟩
  | some g => exact .inl ⟨g, rfl, (Host.Outcome.next.inj h).symm⟩

/-! ## Scratchpad lines and the gate -/

@[simp] theorem Core.unfill_arch (c : Core) (l : Nat) : (c.unfill l).arch = c.arch := rfl
@[simp] theorem Core.gcRecs_arch (c : Core) : c.gcRecs.arch = c.arch := rfl
@[simp] theorem Core.unmake_arch (c : Core) (ms : List TZ) : (c.unmake ms).arch = c.arch := rfl
@[simp] theorem Core.setLine_arch (c : Core) (l : Nat) (st : LineCode) : (c.setLine l st).arch = c.arch := rfl
@[simp] theorem Core.setLine_ckpt (c : Core) (l : Nat) (st : LineCode) : (c.setLine l st).ckpt = c.ckpt := rfl
@[simp] theorem Core.setLine_pool (c : Core) (l : Nat) (st : LineCode) : (c.setLine l st).pool = c.pool := rfl
@[simp] theorem Core.setLine_side (c : Core) (l : Nat) (st : LineCode) : (c.setLine l st).side = c.side := rfl
@[simp] theorem Core.setLine_stores (c : Core) (l : Nat) (st : LineCode) : (c.setLine l st).stores = c.stores := rfl
@[simp] theorem Core.setLine_held (c : Core) (l : Nat) (st : LineCode) : (c.setLine l st).held = c.held := rfl
@[simp] theorem Core.setLine_cnt (c : Core) (l : Nat) (st : LineCode) : (c.setLine l st).cnt = c.cnt := rfl

/-- A loop over a core keeps what each pass keeps. -/
theorem Core.foldl_keeps {α β : Type} (f : Core → α → Core) (p : Core → β) (h : ∀ c x, p (f c x) = p c) (xs : List α) (c : Core) :
    p (xs.foldl f c) = p c := by
  induction xs generalizing c with
  | nil => rfl
  | cons x r ih => rw [List.foldl_cons, ih, h]

/-- A loop over a core keeps an invariant that each pass keeps. -/
theorem Core.foldl_inv {α : Type} (f : Core → α → Core) (P : Core → Prop) (h : ∀ c x, P c → P (f c x)) (xs : List α) (c : Core) (hc : P c) : P (xs.foldl f c) := by
  induction xs generalizing c with
  | nil => exact hc
  | cons x r ih => exact ih (f c x) (h c x hc)

/-- What a store to the own scratchpad leaves in the pool. -/
@[simp] theorem Core.storeScratch_pool (c : Core) (off : Nat) (bs : List Byte) : (c.storeScratch off bs).pool = c.pool.put (c.scratchBase + off) bs := by
  unfold Core.storeScratch
  rw [Core.foldl_keeps _ Core.pool (fun c i => by dsimp only; split <;> rfl)]
  rfl

@[simp] theorem Core.storeScratch_arch (c : Core) (off : Nat) (bs : List Byte) : (c.storeScratch off bs).arch = c.arch := by
  unfold Core.storeScratch
  rw [Core.foldl_keeps _ Core.arch (fun c i => by dsimp only; split <;> rfl)]
  rfl

@[simp] theorem Core.storeScratch_side (c : Core) (off : Nat) (bs : List Byte) : (c.storeScratch off bs).side = c.side := by
  unfold Core.storeScratch
  rw [Core.foldl_keeps _ Core.side (fun c i => by dsimp only; split <;> rfl)]
  rfl

/-- A poisoned sector of a store changes a line's state, an engine record and the poisoned sectors alone (R197). -/
@[simp] theorem Core.strikeLine_arch (c : Core) (off : Nat) : (c.strikeLine off).arch = c.arch := by unfold Core.strikeLine; dsimp only; split <;> rfl
@[simp] theorem Core.strikeLine_pool (c : Core) (off : Nat) : (c.strikeLine off).pool = c.pool := by unfold Core.strikeLine; dsimp only; split <;> rfl
@[simp] theorem Core.strikeLine_side (c : Core) (off : Nat) : (c.strikeLine off).side = c.side := by unfold Core.strikeLine; dsimp only; split <;> rfl

@[simp] theorem Core.landStore_arch (c : Core) (off : Nat) (p : PStore) : (c.landStore off p).arch = c.arch :=
  (Core.foldl_keeps _ Core.arch (fun c _ => Core.strikeLine_arch c _) _ _).trans (Core.storeScratch_arch c off p.bytes)
@[simp] theorem Core.landStore_pool (c : Core) (off : Nat) (p : PStore) :
    (c.landStore off p).pool = c.pool.put (c.scratchBase + off) p.bytes :=
  (Core.foldl_keeps _ Core.pool (fun c _ => Core.strikeLine_pool c _) _ _).trans (Core.storeScratch_pool c off p.bytes)
@[simp] theorem Core.landStore_side (c : Core) (off : Nat) (p : PStore) : (c.landStore off p).side = c.side :=
  (Core.foldl_keeps _ Core.side (fun c _ => Core.strikeLine_side c _) _ _).trans (Core.storeScratch_side c off p.bytes)

@[simp] theorem Core.release_arch (c : Core) (p : PStore) : (c.release p).arch = c.arch := by unfold Core.release; split <;> rfl
@[simp] theorem Core.release_pool (c : Core) (p : PStore) : (c.release p).pool = c.pool := by unfold Core.release; split <;> rfl
@[simp] theorem Core.release_side (c : Core) (p : PStore) : (c.release p).side = c.side := by unfold Core.release; split <;> rfl

/-- A store leaves the gate for the stores under way while the counter has room and none is held back. -/
theorem Core.release_room (c : Core) (p : PStore) (h : c.held = []) (h2 : c.cnt[p.ord.stream.val] + p.count ≤ Config.cntMax) :
    c.release p = ({ c with stores := c.stores ++ [p] } : Core).cntUp p.ord.stream p.count := by
  unfold Core.release
  rw [if_neg]
  rintro (h3 | h3)
  · exact h3 h
  · omega

/-- No entry of the gate touches a register. -/
@[simp] theorem Core.applyGate_arch (c : Core) (e : GateEnt) : (c.applyGate e).arch = c.arch := by
  cases e with
  | store p =>
    simp only [Core.applyGate]
    split
    · split
      · exact Core.landStore_arch c _ _
      · exact Core.release_arch c p
    · exact Core.release_arch c p
  | line first n st => exact Core.foldl_keeps (fun (c : Core) i => c.setLine (first + i) st) Core.arch (fun _ _ => rfl) _ _
  | consume l => simp only [Core.applyGate]; split <;> rfl

@[simp] theorem Core.applyGate_side (c : Core) (e : GateEnt) : (c.applyGate e).side = c.side := by
  cases e with
  | store p =>
    simp only [Core.applyGate]
    split
    · split
      · exact Core.landStore_side c _ _
      · exact Core.release_side c p
    · exact Core.release_side c p
  | line first n st => exact Core.foldl_keeps (fun (c : Core) i => c.setLine (first + i) st) Core.side (fun _ _ => rfl) _ _
  | consume l => simp only [Core.applyGate]; split <;> rfl

/-- What an entry of the gate does to the pool: a store to the own scratchpad that nothing holds back writes its bytes, any other
entry nothing (R90). -/
theorem Core.applyGate_pool (c : Core) (e : GateEnt) :
    (∃ p off, e = .store p ∧ p.scratch = some off ∧ c.held = [] ∧ c.storeBlocked p peerPart = false ∧
      (c.applyGate e).pool = c.pool.put (c.scratchBase + off) p.bytes) ∨ (c.applyGate e).pool = c.pool := by
  cases e with
  | store p =>
    simp only [Core.applyGate]
    split
    · rename_i off ho
      split
      · rename_i h
        simp only [Bool.and_eq_true, decide_eq_true_eq, Bool.not_eq_true'] at h
        exact .inl ⟨p, off, rfl, ho, h.1, h.2, Core.landStore_pool c off p⟩
      · exact .inr (Core.release_pool c p)
    · exact .inr (Core.release_pool c p)
  | line first n st => exact .inr (Core.foldl_keeps (fun (c : Core) i => c.setLine (first + i) st) Core.pool (fun _ _ => rfl) _ _)
  | consume l => simp only [Core.applyGate]; split <;> exact .inr rfl

/-! ## Commit, rollback, completion -/

@[simp] theorem Core.commit_arch (c : Core) : c.commit.arch = c.arch := Core.foldl_keeps _ Core.arch Core.applyGate_arch _ _
@[simp] theorem Core.commit_gate (c : Core) : c.commit.gate = [] := rfl
@[simp] theorem Core.commit_atRp (c : Core) : c.commit.atRp = true := rfl
@[simp] theorem Core.commit_side (c : Core) : c.commit.side = c.side := Core.foldl_keeps _ Core.side Core.applyGate_side _ _

/-- The shadow becomes the registers (R176). -/
@[simp] theorem Core.commit_ckpt (c : Core) : c.commit.ckpt = c.arch := Core.foldl_keeps _ Core.arch Core.applyGate_arch _ _

/-- The pool and the side array stay canonical when an entry of the gate takes effect. -/
theorem Core.PoolOk.applyGate {c : Core} (h : c.PoolOk) (e : GateEnt) : (c.applyGate e).PoolOk := by
  refine ⟨?_, by rw [Core.applyGate_side]; exact h.2⟩
  rcases Core.applyGate_pool c e with ⟨p, off, -, -, -, -, he⟩ | he <;> rw [he]
  · exact Mem.wf_put _ _ _ h.1
  · exact h.1

/-- A commit keeps the canonical form. -/
theorem Core.PoolOk.commit {c : Core} (h : c.PoolOk) : c.commit.PoolOk :=
  Core.foldl_inv Core.applyGate Core.PoolOk (fun _ e hc => Core.PoolOk.applyGate hc e) c.gate c h

/-- A rollback keeps the canonical form. -/
theorem Core.PoolOk.rollback {c : Core} (h : c.PoolOk) : c.rollback.PoolOk := h

/-- Completing a bundle keeps the canonical form. -/
theorem Core.PoolOk.complete {c : Core} (h : c.PoolOk) (b : Bool) : (c.complete b).PoolOk := by
  unfold Core.complete
  dsimp only
  split
  · exact Core.PoolOk.commit h
  · exact h

/-! ## Stopping and trapping -/

/-- A core that stops keeps its pool. -/
theorem Core.PoolOk.halt {c : Core} (h : c.PoolOk) (l : Nat) : (c.halt l).PoolOk := by
  unfold Core.halt
  split
  · split <;> exact h
  · exact h

@[simp] theorem State.sendFatal_mem (s : State) (c : Core) (r : LaneRec) : (s.sendFatal c r).mem = s.mem := rfl
@[simp] theorem State.sendFatal_core (s : State) (c : Core) (r : LaneRec) : (s.sendFatal c r).core = s.core := rfl
@[simp] theorem State.stopCtx_mem (s : State) (l : Nat) : (s.stopCtx l).mem = s.mem := rfl
@[simp] theorem State.fatal_mem (s : State) (a b m : Nat) (x t i u : Word) : (s.fatal a b m x t i u).mem = s.mem := rfl

/-- A report that retires a record changes no memory. -/
@[simp] theorem State.retire_mem (s : State) (r : Option (Nat × Nat)) : (s.retire r).mem = s.mem := by
  unfold State.retire State.onCore
  split
  · rfl
  · split <;> rfl

/-- Reports that retire records change no memory. -/
theorem State.retires_mem (fs : List SlotFault) (s : State) : (fs.foldl (fun (s : State) g => s.retire g.join) s).mem = s.mem := by
  induction fs generalizing s with
  | nil => rfl
  | cons g r ih => exact (ih _).trans (State.retire_mem _ _)

/-- A trap at a restart point changes no memory. -/
@[simp] theorem State.precise_mem (s : State) (fs : List SlotFault) (x : Word) : (s.precise fs x).mem = s.mem := by
  unfold State.precise
  dsimp only
  split
  · rfl
  · split
    · rfl
    · exact State.retires_mem fs _

/-- A replay record changes no memory. -/
@[simp] theorem State.replayCore_mem (s : State) (fs : List SlotFault) : (s.replayCore fs).mem = s.mem := by
  unfold State.replayCore
  split <;> rfl

/-- A trap changes no memory. -/
@[simp] theorem State.takeTrap_mem (s : State) (fs : List SlotFault) : (s.takeTrap fs).mem = s.mem := by
  unfold State.takeTrap
  dsimp only
  split
  · exact State.precise_mem _ _ _
  · split
    · rfl
    · split
      · exact State.replayCore_mem _ _
      · exact State.precise_mem _ _ _

/-- Which of its ways a trap takes: of any kind a double trap while TLOCK is 1, else fatal, replayable or precise by its kind
(R182, R184). -/
theorem State.takeTrap_cases (s : State) (fs : List SlotFault) : let u := s.onC Core.rollback
    (s.core.ckpt.trap.tlock = true ∧ s.takeTrap fs = u.precise fs s.core.ckpt.pc) ∨
    (s.core.ckpt.trap.tlock = false ∧
      ((∃ g ∈ fs, isFatal g.cause = true ∧ s.takeTrap fs = u.fatal g.cause 0 (tmaskOf fs) s.core.ckpt.pc g.taddr g.tinfo 0) ∨
       ((∀ g ∈ fs, isFatal g.cause = false) ∧ (∃ g ∈ fs, isReplayable g.cause = true) ∧ s.takeTrap fs = u.replayCore fs) ∨
       ((∀ g ∈ fs, isFatal g.cause = false ∧ isReplayable g.cause = false) ∧ s.takeTrap fs = u.precise fs s.core.ckpt.pc))) := by
  intro u
  unfold State.takeTrap
  dsimp only
  split
  · exact .inl ⟨‹_›, rfl⟩
  · rename_i hl
    refine .inr ⟨by simpa using hl, ?_⟩
    split
    · rename_i g h
      exact .inl ⟨g, List.mem_of_find?_eq_some h, List.find?_some (p := fun g : SlotFault => isFatal g.cause) h, rfl⟩
    · rename_i h
      have h1 : ∀ g ∈ fs, isFatal g.cause = false := fun g hg => by simpa using List.find?_eq_none.mp h g hg
      split
      · rename_i h2
        exact .inr (.inl ⟨h1, by simpa using h2, rfl⟩)
      · rename_i h2
        simp only [List.any_eq_true, not_exists, not_and, Bool.not_eq_true] at h2
        exact .inr (.inr ⟨fun g hg => ⟨h1 g hg, h2 g hg⟩, rfl⟩)

/-! ## Forking -/

/-- What forking an engine thread can change: it joins the threads with a record, the fork count and its stream's counts
rise, and the pool counts as used (R97, R185). -/
theorem State.fork_eq (s : State) (i : Instr) (o : OrdF) (ms : List TZ) (f : Thread → Thread) :
    s.fork i o ms f = { s with
      uid := s.uid + 1,
      core := { s.core with
        threads := s.core.threads ++ [f (s.bareThread i o s.core.freeRec)], forks := s.core.forks + 1,
        recs := bindTo s.core.recs s.core.freeRec ⟨s.core.forks, o.stream, ms, [], none, false⟩,
        cnt := s.core.cnt.set o.stream.val (s.core.cnt[o.stream.val] + 1),
        arch := { s.core.arch.seqUp o.stream 1 with touched := true } } } := rfl

/-! ## Writes to physical memory -/

/-- The record of a lost read changes no memory and no core (R367). -/
theorem State.lostRead_keeps (s : State) (d asid : Nat) (va : Word) (n : Nat) :
    (s.lostRead d asid va n).mem = s.mem ∧ (s.lostRead d asid va n).core = s.core ∧ (s.lostRead d asid va n).others = s.others := by
  unfold State.lostRead
  dsimp only
  split <;> exact ⟨rfl, rfl, rfl⟩

/-- Reading the record of a mailbox's message changes no memory and no core. -/
theorem State.readMail_keeps (s : State) (m : Mailbox) (q : Mail) (put : List Mail → Mailbox → Mailbox) :
    (s.readMail m q put).mem = s.mem ∧ (s.readMail m q put).core = s.core ∧ (s.readMail m q put).others = s.others := by
  unfold State.readMail
  dsimp only
  split
  · exact State.lostRead_keeps _ _ _ _ _
  · split <;> exact ⟨rfl, rfl, rfl⟩

/-- A flit that goes out changes no memory and no core (R368). -/
theorem State.sendFlit_keeps (s : State) (kind tag pa : Nat) (secs : List (List Byte × Bool)) (n : Nat) :
    (s.sendFlit kind tag pa secs n).mem = s.mem ∧ (s.sendFlit kind tag pa secs n).core = s.core := by
  unfold State.sendFlit
  dsimp only
  split <;> exact ⟨rfl, rfl⟩

/-- A flit that goes out changes the Oxlink state alone (R368). -/
theorem State.sendFlit_ox (s : State) (kind tag pa : Nat) (secs : List (List Byte × Bool)) (n : Nat) :
    s.sendFlit kind tag pa secs n = { s with ox := (s.sendFlit kind tag pa secs n).ox } := by
  unfold State.sendFlit
  dsimp only
  split <;> rfl

/-- A request to another package changes the Oxlink state alone (R368). -/
theorem State.askFar_ox (s : State) (uid : Nat) (ks : List Nat) : s.askFar uid ks = { s with ox := (s.askFar uid ks).ox } := by
  unfold State.askFar
  split
  · split
    · rfl
    · rw [State.sendFlit_ox]
  · rfl

/-- A read that waits for another package changes the Oxlink state and the next number alone (R368). -/
theorem State.askLater_keeps (s : State) (n : Nat) (act : Deed) (ks : List Nat) :
    s.askLater n act ks = { s with uid := s.uid + 1, ox := (s.askLater n act ks).ox } := rfl

/-- So does taking what has come back, and showing a store to later reads. -/
@[simp] theorem State.tookFar_core (s : State) (uid : Nat) (p : Part) : (s.tookFar uid p).core = s.core := rfl
@[simp] theorem State.tookFar_mem (s : State) (uid : Nat) (p : Part) : (s.tookFar uid p).mem = s.mem := rfl
@[simp] theorem State.patchFar_core (s : State) (uid pa : Nat) (bs : List Byte) : (s.patchFar uid pa bs).core = s.core := rfl
@[simp] theorem State.patchFar_mem (s : State) (uid pa : Nat) (bs : List Byte) : (s.patchFar uid pa bs).mem = s.mem := rfl

/-- A line read ahead changes what the core keeps of such lines alone (R93). -/
theorem State.lookAhead_core (s : State) (pa : Nat) :
    s.lookAhead pa = { s with core := { s.core with ahead := (s.lookAhead pa).core.ahead } } := by
  unfold State.lookAhead
  dsimp only
  split
  · split <;> rfl
  · rfl

/-- A mailbox fire changes no memory and no core. -/
theorem State.fire_keeps (s : State) (pa : Nat) (w : Option Nat) :
    (s.fire pa w).mem = s.mem ∧ (s.fire pa w).core = s.core ∧ (s.fire pa w).others = s.others := by
  unfold State.fire
  split
  · exact ⟨rfl, rfl, rfl⟩
  · dsimp only
    split
    · exact ⟨rfl, rfl, rfl⟩
    · split
      · exact State.readMail_keeps _ _ _ _
      · exact ⟨rfl, rfl, rfl⟩

/-- Fires change no memory and no core. -/
theorem State.fireIn_keeps (s : State) (pa n : Nat) (w : Option Nat) :
    (s.fireIn pa n w).mem = s.mem ∧ (s.fireIn pa n w).core = s.core ∧ (s.fireIn pa n w).others = s.others := by
  unfold State.fireIn
  generalize s.mboxes.filter _ = ms
  induction ms generalizing s with
  | nil => exact ⟨rfl, rfl, rfl⟩
  | cons m r ih =>
    have h1 := ih (s.fire m.pa w)
    have h2 := State.fire_keeps s m.pa w
    exact ⟨h1.1.trans h2.1, h1.2.1.trans h2.2.1, h1.2.2.trans h2.2.2⟩

/-- A write to a region that is memory, from no Troy task, writes its bytes, and nothing else of memory (R161). -/
theorem State.writePhys_mem (s : State) (w : Nat) (pa d k : Nat) (bs : List Byte) (h : s.region pa = .dram d k) :
    (s.writePhys w none pa bs).mem = if bs = [] then s.mem else s.mem.put pa bs := by
  unfold State.writePhys
  by_cases hb : bs = []
  · simp [hb]
  · simp only [hb, if_false, h]
    rw [(State.fireIn_keeps _ _ _ _).1]
    split <;> rfl

/-- A write keeps the canonical form of memory. -/
theorem State.writePhys_memOk (s : State) (w : Nat) (tr : Option (Nat × Nat)) (pa : Nat) (bs : List Byte) (h : s.MemOk) : (s.writePhys w tr pa bs).MemOk := by
  unfold State.MemOk at h ⊢
  unfold State.writePhys
  split
  · exact h
  · split
    · exact h
    · exact h
    · exact h
    · exact h
    · rw [(State.fireIn_keeps _ _ _ _).1]
      cases tr with
      | none => dsimp only; split <;> exact Mem.wf_put _ _ _ h
      | some t => dsimp only; split <;> exact Mem.wf_puts _ _ h

/-- What a write leaves of a core: what it sees of the write changes its copies of lines and its monitor alone. -/
theorem State.writePhys_core (s : State) (w : Nat) (tr : Option (Nat × Nat)) (pa : Nat) (bs : List Byte) :
    ∃ (l : List (Nat × List Byte)) (a : List Ahead) (m : Option Monitor),
      (s.writePhys w tr pa bs).core = { s.core with l1 := l, ahead := a, monitor := m } := by
  unfold State.writePhys
  split
  · exact ⟨_, _, _, rfl⟩
  · split
    · exact ⟨_, _, _, rfl⟩
    · exact ⟨_, _, _, rfl⟩
    · exact ⟨_, _, _, rfl⟩
    · exact ⟨_, _, _, rfl⟩
    · rw [(State.fireIn_keeps _ _ _ _).2.1]
      have hc : ∀ u : State, u.core = s.core → ∃ (l : List (Nat × List Byte)) (a : List Ahead) (m : Option Monitor),
          (if w = u.core.id then u.core.l1Write pa bs else u.core.seeWrite pa bs.length) =
            { s.core with l1 := l, ahead := a, monitor := m } := by
        intro u hu
        rw [hu]
        split
        · exact ⟨_, _, _, rfl⟩
        · unfold Core.seeWrite
          split
          · split <;> exact ⟨_, _, _, rfl⟩
          · exact ⟨_, _, _, rfl⟩
      cases tr with
      | none => dsimp only; split <;> exact hc _ rfl
      | some t => dsimp only; split <;> exact hc _ rfl

end Sys2Proof.Machine
end

