-- ==== Sys2Proof/Tests/Slice0.lean ====
section
/-! SUPPORT. The model's own tests: ill-formed terms that are refused, words written out from the encodings, one step of an
instruction, and for each statement that has hypotheses a state that meets them. -/

namespace Sys2Proof.Tests

open Sys2Proof Sys2Proof.Machine

set_option Elab.async false

/-! ## Small states -/

/-- A booted package whose core in focus runs a task with an empty bundle at its PC. -/
def base : State := State.reset.placeBundle 0

/-- A change of the registers, of their shadow and of what the bundle found. -/
def regs (s : State) (f : Arch → Arch) : State :=
  s.onC (fun c => { c with arch := f c.arch, ckpt := f c.ckpt, src := f c.src })

/-- S register `r` set to `v`. -/
def withS (s : State) (r : SReg) (v : Word) : State := regs s (fun a => a.ws r v)

/-- Two granules of T registers, four of Z registers, Z0 in triple mode. -/
def parted : State := base.onC (fun c => { c with partw := ⟨2, 4, 1⟩ })

/-- What a step answers, as a test looks at it. -/
def after {α : Type} (o : Out) (f : State → α) (z : α) : α := match o with | .next t => f t | _ => z

/-- An ordering field. -/
def o0 : OrdF := ⟨0, 0, .core⟩

/-- The own scratchpad of logical core 0, from an offset on. -/
def scr (off : Nat) : Word := BitVec.ofNat 64 (0xF8 * 2 ^ 56 + off)

/-- S register `r` after a step. -/
def rS (o : Out) (r : SReg) : Word := after o (fun t => t.core.arch.rs r) 0xBAD

/-- P register `r` after a step. -/
def rP (o : Out) (r : PReg) : Nat := after o (fun t => if t.core.arch.rp r then 1 else 0) 2

/-- Cause byte of the S slot, TMASK and PC after a step. -/
def trapped (o : Out) : Word × Word × Word := after o (fun t => (t.core.arch.trap.tcause, t.core.arch.trap.tmask, t.core.arch.pc)) (0, 0, 0)

/-- A handler at 0x400, and the restart point's PC at 0x200. -/
def handled (s : State) : State := regs s (fun a => { a with pc := 0x200, trap := { a.trap with tvec := 0x400 } })

/-- S1 and S2 set. -/
def two (x y : Word) : State := withS (withS base 1 x) 2 y

theorem ok_of {α : Type} [DecidableEq α] {x : Except Cause α} {v : α} (h : (match x with | .ok w => decide (w = v) | .error _ => false) = true) : x = .ok v := by
  cases x <;> simp_all

theorem ok_nat {x : Except Nat Bundle} {v : Bundle} (h : (match x with | .ok w => decide (w = v) | .error _ => false) = true) : x = .ok v := by
  cases x <;> simp_all

theorem err_of {α : Type} {x : Except Cause α} {c : Cause} (h : (match x with | .ok _ => false | .error e => decide (e = c)) = true) : x = .error c := by
  cases x <;> simp_all

theorem ok_ex {α ε : Type} {x : Except ε α} (p : α → Bool) (h : (match x with | .ok w => p w | .error _ => false) = true) : ∃ v, x = .ok v ∧ p v = true := by
  cases x <;> simp_all

/-- The lines and the stores still to be performed that an access meets are clean: a test over a list. -/
theorem padClean {c : Core} {a n : Nat} (h : ((List.range ((a + n - 1) / 128 + 1)).all (fun l => decide (c.lineView l ≠ .pois)) && !c.padSpoilt a n) = true) :
    c.PadClean a n := by
  simp only [Bool.and_eq_true, List.all_eq_true, List.mem_range, decide_eq_true_eq, Bool.not_eq_true'] at h
  exact ⟨fun l _ h2 => h.1 l (by omega), h.2⟩

theorem some_ex {α : Type} {x : Option α} (p : α → Bool) (h : (match x with | some w => p w | none => false) = true) : ∃ v, x = some v ∧ p v = true := by
  cases x <;> simp_all

/-- An answer is that one. -/
def okIs {ε α : Type} [DecidableEq α] (x : Except ε α) (v : α) : Bool := match x with | .ok w => decide (w = v) | .error _ => false

/-- An empty bundle. -/
def nob : Bundle := ⟨false, 0, false, none, none, none, none, none⟩

/-! ## Ill-formed terms (R203) -/

/-- Arguments of an X-slot form, all fields 0 but those given. -/
def xa (fa fb fd : Fmt) (oa ob od : XOpd) : XArgs := ⟨fa, fb, fd, .rne, .sat, oa, ob, od, 0, 0, 0⟩

/-- Arguments of a C-slot form between two addresses. -/
def ca : CArgs := ⟨o0, false, false, 1, 2, 0, 0, 0⟩

theorem test_wf_scalar_fields : Instr.wf (.bfx 1 1 64 1) = false ∧ Instr.wf (.bfx 1 1 0 0) = false ∧ Instr.wf (.bfi 1 1 33 32) = false ∧
    Instr.wf (.sext 1 1 0) = false ∧ Instr.wf (.sext 1 1 65) = false ∧ Instr.wf (.fcvt .f64f32 .rtz 1 1) = false ∧
    Instr.wf (.loop .seql 0) = false ∧ Instr.wf (.loop .seql 65536) = false := by decide

theorem test_wf_tile_and_copy : Instr.wf (.ldt .fp32 0 (.pair 3) false o0) = false ∧ Instr.wf (.ldt .fp32 0 (.mem 2 0) true o0) = false ∧
    Instr.wf (.stt .fp32 (.pair 3) 0 o0) = false ∧ Instr.wf (.stp .fp32 1 2 0 o0) = false ∧ Instr.wf (.stp .fp32 2 1 0 o0) = false ∧
    Instr.wf (.copy { ca with dk := true }) = false ∧ Instr.wf (.bcast { ca with sk := true, sr := 1 }) = false ∧
    Instr.wf (.copy { ca with dk := true, sk := true, dr := 2, off := 1 }) = false ∧
    Instr.wf (.gather ca) = false ∧ Instr.wf (.scatter ca) = false ∧ Instr.wf (.mbox { ca with dk := true, dr := 2 }) = false ∧
    Instr.wf (.mbox { ca with hs := 1 }) = false ∧ Instr.wf (.mbox { ca with cr := 1 }) = false ∧ Instr.wf (.areduce .max ca) = false := by decide

theorem test_wf_multiplies : Instr.wf (.mma (xa .fp64 .fp32 .fp32 (.t 0) (.t 1) (.z 0))) = false ∧
    Instr.wf (.mma (xa .fp32 .fp32 .fp64 (.t 0) (.t 1) (.z 0))) = false ∧ Instr.wf (.mma (xa .fp32 .fp32 .fp32 (.z 0) (.t 1) (.z 0))) = false ∧
    Instr.wf (.mmar (xa .fp32 .fp32 .fp32 (.t 0) (.t 1) (.t 2))) = false ∧
    Instr.wf (.mma { xa .fp32 .fp32 .fp32 (.t 0) (.t 1) (.z 0) with aux := 1 }) = false ∧
    Instr.wf (.mma { xa .fp32 .fp32 .fp32 (.t 0) (.t 1) (.z 0) with rnd := .rtz }) = false ∧
    Instr.wf (.mmas (xa .fp32 .fp32 .fp32 (.t 0) (.t 1) (.z 0))) = false ∧ Instr.wf (.mmas (xa .bf16 .bf16 .fp32 (.t 0) .hold (.z 0))) = false ∧
    Instr.wf (.mmat (xa (.bfp 0) .fp32 .fp32 (.t 0) (.t 1) (.z 0))) = false ∧ Instr.wf (.mma (xa .fp32 .fp32 .fp32 (.pair 3 false) (.t 1) (.z 0))) = false := by
  decide

theorem test_wf_moves : Instr.wf (.zclr (xa .fp32 .fp32 .fp16 (.t 0) (.t 0) (.z 0))) = false ∧
    Instr.wf (.zld (xa .fp32 .fp32 .fp32 (.z 0) (.t 0) (.z 0))) = false ∧ Instr.wf (.zst (xa .fp16 .fp32 .fp32 (.z 0) (.t 0) (.t 1))) = false ∧
    Instr.wf (.zst (xa .fp32 .fp32 .fp32 (.z 0) (.t 0) (.pair 2 true))) = false ∧ Instr.wf (.zmov (xa .fp32 .fp32 .fp64 (.z 0) (.t 0) (.z 1))) = false ∧
    Instr.wf (.trans (xa .fp32 .fp32 (.bfp 0) (.t 0) (.t 0) (.t 1))) = false ∧ Instr.wf (.spbuild (xa .fp32 .int8 .fp32 (.t 0) (.t 1) (.pair 2 false))) = false ∧
    Instr.wf (.spbuild (xa .bf16 .int8 .fp32 (.t 0) (.t 1) (.t 2))) = false := by decide

theorem test_wf_reductions : Instr.wf (.rowred (xa (.bfp 0) .fp32 .fp32 (.t 0) (.t 0) (.t 1))) = false ∧
    Instr.wf (.colred { xa .fp32 .fp32 .fp32 (.t 0) (.t 0) (.t 1) with var := 3 }) = false ∧
    Instr.wf (.softrow (xa .fp64 .fp32 .fp32 (.t 0) (.z 0) (.t 1))) = false ∧ Instr.wf (.merge (xa .fp32 .fp32 .fp32 (.t 0) (.z 0) (.z 1))) = false ∧
    Instr.wf (.topk { xa .fp32 .fp32 .fp32 (.t 0) (.t 0) (.t 1) with var := 2 }) = false ∧
    Instr.wf (.window (xa .fp32 .fp32 .fp32 (.t 0) (.t 0) (.t 1))) = false ∧ Instr.wf (.lup (xa .fp16 .fp32 .fp16 (.t 0) (.t 0) (.z 0))) = false ∧
    Instr.wf (.chol (xa .fp32 .fp32 .fp64 (.t 0) (.t 0) (.z 0))) = false ∧ Instr.wf (.qrh (xa .fp32 .fp32 .fp32 (.t 1) (.t 0) (.z 0))) = false ∧
    Instr.wf (.trsm (xa .fp32 .fp32 .fp32 (.t 0) (.t 0) (.z 0))) = false ∧ Instr.wf (.trmm (xa .fp32 .fp32 .fp32 (.z 0) (.t 1) (.z 0))) = false := by decide

theorem test_wf_bundle : nob.wf = true ∧ Bundle.wf { nob with s := some (.hev 1) } = false ∧ Bundle.wf { nob with m := some .tack } = false ∧
    Bundle.wf { nob with x := some .tack } = false ∧ Bundle.wf { nob with c := some .tack } = false ∧ Bundle.wf { nob with g := some .tack } = false ∧
    Bundle.wf { nob with s := some (.li 1 0), m := some (.ld .d 1 2 0 o0) } = false ∧
    Bundle.wf { nob with s := some (.li 2 0), m := some (.ld .d 1 2 0 o0) } = true := by decide

/-! ## Words written out from the encodings (R199 to R217) -/

theorem test_decode_add : decodeSlot .s 0x021860800010 = some (.add 3 3 (.imm 16)) := by decide
theorem test_decode_li : decodeSlot .s 0x385000004000 = some (.li 10 0x4000) := by decide
theorem test_decode_loop : decodeSlot .s 0x7A8800000005 = some (.loop (.reg 4) 5) := by decide
theorem test_decode_brkl : decodeSlot .s 0x7C0020000000 = some (.brkl 1 false) := by decide
theorem test_decode_waitm : decodeSlot .s 0x8A11E9000000 = some (.waitm 2 15 0 18 0) := by decide
theorem test_decode_bind : decodeSlot .s 0x902000000000 = some (.bind 4 .a) := by decide
theorem test_decode_kset : decodeSlot .s 0x922161000000 = some (.kset 4 1 11) := by decide
theorem test_decode_ld : decodeSlot .m 0x03022C2C60000000 = some (.ld .d 11 6 0 ⟨4, 8, .pkg⟩) := by decide
theorem test_decode_st : decodeSlot .m 0x04406C1430000008 = some (.st .d 3 8 5 ⟨1, 1, .pkg⟩) := by decide
theorem test_decode_mma : decodeSlot .x 0x04CC01200600D000 =
    some (.mma ⟨.bf16, .bf16, .fp32, .rne, .sat, .pair 8 false, .t 1, .z 0, 13, 0, 0⟩) := by decide
theorem test_decode_lup : decodeSlot .x 0x604040000200D000 = some (.lup ⟨.fp64, .fp32, .fp64, .rne, .sat, .t 0, .t 0, .z 0, 13, 0, 0⟩) := by decide
theorem test_decode_copy : decodeSlot .c 0x240088104000 = some (.copy ⟨⟨1, 0, .core⟩, true, false, 8, 4, 2, 0, 0⟩) := by decide
theorem test_decode_asubf : decodeSlot .m 0x24402C1831054000 = some (.asubf .d 6 3 0 4 5 2 ⟨1, 0, .pkg⟩) := by decide
theorem test_decode_seqld : decodeSlot .m 0x4080281C31400040 = some (.seqld false 7 3 64 5 ⟨2, 0, .pkg⟩) := by decide
theorem test_decode_pfxr : decodeSlot .m 0x4C40206C06800000 = some (.pfxr 27 26 ⟨1, 0, .pkg⟩) := by decide
theorem test_decode_zst : decodeSlot .x 0x28010E000014D000 = some (.zst ⟨.fp32, .fp32, .e4m3, .rne, .trap, .z 0, .t 0, .t 5, 13, 0, 0⟩) := by decide
theorem test_decode_window : decodeSlot .x 0x559981200128E000 =
    some (.window ⟨.int8, .int8, .int8, .rne, .sat, .pair 8 false, .t 0, .pair 10 false, 14, 0, 0⟩) := by decide
theorem test_decode_gather : decodeSlot .c 0x4800880C3820 = some (.gather ⟨⟨2, 0, .core⟩, true, false, 8, 3, 1, 12, 32⟩) := by decide
theorem test_decode_mbox : decodeSlot .c 0xA80204040000 = some (.mbox ⟨⟨2, 0, .pkg⟩, false, false, 4, 1, 0, 0, 0⟩) := by decide
theorem test_decode_gzero : decodeSlot .g 0x8400 = some (.gzero 1) ∧ decodeSlot .g 0x47FF = some (.gld 1 1023) := by decide
theorem test_decode_reserved : decodeSlot .g 0x8401 = none ∧ decodeSlot .c 0x000088104000 = none ∧ decodeSlot .s 0xFFFFFFFFFFFF = none := by decide
theorem test_decode_reserved_header : decodeBundle (2 ^ 240) = .error 0x1F := rfl
theorem test_decode_absent_slot : decodeBundle 1 = .error 0x10 := rfl
theorem test_decode_clash : (match decodeBundle (0x00C0385000004000 * 2 ^ 192 + 0x03022C2860000000 * 2 ^ 128) with | .error m => m | .ok _ => 0) = 3 := by
  decide +kernel
theorem test_table_word : decodeTableWord 16 0x8400 = some (.gzero 1) ∧ decodeTableWord 16 0x4000 = some (.gld 0 0) ∧ decodeTableWord 8 0 = none := by decide


/-! ## One step of an instruction -/

-- R219: all ones + 1 wraps to 0.
theorem test_add_wraps : rS (exec (.add 3 1 (.imm 1)) (withS base 1 (BitVec.allOnes 64))) 3 = 0 := by decide +kernel
-- R42: a write to S0 is lost.
theorem test_add_s0 : rS (exec (.add 0 1 (.imm 1)) (withS base 1 5)) 0 = 0 := by decide +kernel
theorem test_sub_reg : rS (exec (.sub 3 1 (.reg 2)) (two 5 7)) 3 = 0xFFFFFFFFFFFFFFFE := by decide +kernel
-- R219: -1 times -1 signed has high half 0; unsigned it is 2^64 - 2.
theorem test_mulh : rS (exec (.mulh 3 1 (.reg 2)) (two (BitVec.allOnes 64) (BitVec.allOnes 64))) 3 = 0 := by decide +kernel
theorem test_mulhu : rS (exec (.mulhu 3 1 (.reg 2)) (two (BitVec.allOnes 64) (BitVec.allOnes 64))) 3 = 0xFFFFFFFFFFFFFFFE := by decide +kernel
-- R219: division by zero and the signed overflow.
theorem test_div_zero : rS (exec (.div 3 1 (.reg 2)) (two 5 0)) 3 = BitVec.allOnes 64 := by decide +kernel
theorem test_div_overflow : rS (exec (.div 3 1 (.reg 2)) (two 0x8000000000000000 (BitVec.allOnes 64))) 3 = 0x8000000000000000 := by decide +kernel
theorem test_rem_zero : rS (exec (.rem 3 1 (.reg 2)) (two 5 0)) 3 = 5 := by decide +kernel
theorem test_rem_sign : rS (exec (.rem 3 1 (.reg 2)) (two (-7) 2)) 3 = -1 := by decide +kernel
-- Shift amounts are the low six bits.
theorem test_sha : rS (exec (.sha 3 1 (.imm 4)) (withS base 1 0x8000000000000000)) 3 = 0xF800000000000000 := by decide +kernel
theorem test_shl_64 : rS (exec (.shl 3 1 (.imm 64)) (withS base 1 9)) 3 = 9 := by decide +kernel
theorem test_rot : rS (exec (.rot 3 1 (.imm 4)) (withS base 1 0x0123456789ABCDEF)) 3 = 0xF0123456789ABCDE := by decide +kernel
theorem test_clz_zero : rS (exec (.clz 3 1) base) 3 = 64 := by decide +kernel
theorem test_ctz : rS (exec (.ctz 3 1) (withS base 1 0x100)) 3 = 8 := by decide +kernel
theorem test_bfi : rS (exec (.bfi 3 1 8 8) (withS (withS base 1 0xAB) 3 0x11111111)) 3 = 0x1111AB11 := by decide +kernel
theorem test_sext : rS (exec (.sext 3 1 8) (withS base 1 0x180)) 3 = 0xFFFFFFFFFFFFFF80 := by decide +kernel
theorem test_li_negative : rS (exec (.li 3 0x80000000) base) 3 = 0xFFFFFFFF80000000 := by decide +kernel
theorem test_lih : rS (exec (.lih 3 0x12345678) (withS base 3 0xAAAAAAAABBBBBBBB)) 3 = 0x12345678BBBBBBBB := by decide +kernel
theorem test_cmp_signs : rP (exec (.cmp .lt 3 1 (.reg 2)) (two (-1) 1)) 3 = 1 ∧ rP (exec (.cmp .ltu 3 1 (.reg 2)) (two (-1) 1)) 3 = 0 := by decide +kernel
theorem test_sel_inverted : rS (exec (.sel 3 0 true 1 (.reg 2)) (two 5 7)) 3 = 7 := by decide +kernel
-- R223: 1.0 + 1.0 in FP32 is 2.0; R66: 1.0 + 2^-53 in FP64 is inexact.
theorem test_fadd : rS (exec (.fadd .f32 .rne 3 1 2) (two 0x3F800000 0x3F800000)) 3 = 0x40000000 := by decide +kernel
theorem test_fadd_inexact : after (exec (.fadd .f64 .rup 3 1 2) (two 0x3FF0000000000000 0x3CA0000000000000)) (fun t => (t.core.arch.rs 3, t.core.arch.xflags)) (0, 0) =
    (0x3FF0000000000001, 1) := by decide +kernel
theorem test_fcmp_nan : rP (exec (.fcmp .un .f32 3 1 2) (two 0x7FC00000 0)) 3 = 1 := by decide +kernel
theorem test_fclass_minus_zero : rS (exec (.fclass .f32 3 1) (withS base 1 0x80000000)) 3 = 8 := by decide +kernel
theorem test_fcvt_int : rS (exec (.fcvt .i64f64 .rtz 3 1) (withS base 1 0xC004000000000000)) 3 = -2 := by decide +kernel
theorem test_lea : rS (exec (.lea 3 1 (.scaled 2 3)) (two 0x100 2)) 3 = 0x110 := by decide +kernel
-- R230: the own scratchpad seen as cluster position 0.
theorem test_spcast : rS (exec (.spcast 3 1 .clus) (withS base 1 (scr 0x80))) 3 = 0xF900000000000080 := by decide +kernel
-- R231: a branch 2 bundles back; R175: it ends the interval.
theorem test_br_back : after (exec (.br 0 false (BitVec.ofInt 31 (-2))) (handled base)) (fun t => (t.core.npc, t.core.closes)) (none, false) =
    (some 0x1C0, true) := by decide +kernel
theorem test_call_links : rS (exec (.call 9 4) (handled base)) 9 = 0x220 := by decide +kernel
-- R233: a zero count skips the body.
theorem test_loop_zero : after (exec (.loop (.cnt 0) 3) (handled base)) (fun t => (t.core.npc, t.core.arch.loops.length)) (none, 9) = (some 0x280, 0) := by
  decide +kernel
theorem test_brkl_empty : trapped (exec (.brkl 0 false) (handled base)) = (BitVec.ofNat 64 Cause.operandForm, 1, 0x400) := by decide +kernel
-- R237: TRAP has cause 0x01 and XPC after it; R238: TRET goes to XPC.
theorem test_trap : after (exec (.trap 7) (handled base)) (fun t => (t.core.arch.trap.xpc, t.core.arch.trap.tcause, t.core.arch.trap.taddr)) (0, 0, 0) =
    (0x220, 1, 7) := by decide +kernel
theorem test_tret : after (exec .tret (regs base (fun a => { a with trap := { a.trap with xpc := 0x600, tlock := true } })))
    (fun t => (t.core.arch.pc, t.core.arch.trap.tlock)) (0, true) = (0x600, false) := by decide +kernel
theorem test_halt : after (exec .halt base) (fun t => t.core.status) .idle = .halted := by decide +kernel
-- R11: W1C, and TVEC keeps its low five bits 0.
theorem test_csrw_xflags : after (exec (.csrw .xflags 1) (regs (withS base 1 0x05) (fun a => { a with xflags := 0x3F }))) (fun t => t.core.arch.xflags) 0 =
    0x3A := by decide +kernel
theorem test_csrw_tvec : after (exec (.csrw .tvec 1) (withS base 1 0x47F)) (fun t => t.core.arch.trap.tvec) 0 = 0x460 := by decide +kernel
-- R110: a write of another agent after arming is cause 0; a lost monitor cause 1.
theorem test_waitm_arms : after (exec (.waitm 9 1 0 0 0) (withS base 1 0x1000)) (fun t => t.core.monitor.map (fun m => (m.armed, m.word))) none =
    some (false, 0x11000) := by decide +kernel
theorem test_waitm_lost : after (exec .waitmMonitorLost (base.onC (fun c => { c with monitor := some ⟨true, false, 0x11000, 0x1000, 0, 0, 0, none⟩ })))
    (fun t => t.core.monitor.bind Monitor.cause) none = some 1 := by decide +kernel
theorem test_partn : after (exec (.partn 1) (withS base 1 0x0000000003020100)) (fun t => t.core.partw) ⟨0, 0, 0⟩ = ⟨1, 2, 3⟩ := by decide +kernel
theorem test_bind_empty_slot : trapped (exec (.bind 4 .a) (handled base)) = (BitVec.ofNat 64 Cause.pprogBad, 1, 0x400) := by decide +kernel
-- R250: little-endian and zero-extended.
theorem test_ld : rS (exec (.ld .h 3 1 0 o0) ((withS base 1 (scr 0x80)).onC (fun c => { c with pool := c.pool.put (c.scratchBase + 0x80) [0x34, 0xF2] }))) 3 =
    0xF234 := by decide +kernel
-- R176: a store waits in the gate.
theorem test_st : after (exec (.st .w 1 4 2 o0) (two (scr 0x80) 0x11223344)) (fun t => (t.core.gate.map (fun g => match g with
      | .store p => (p.scratch, p.bytes)
      | _ => (none, [])), t.core.pool.get (t.core.scratchBase + 0x84))) ([], 9) = ([(some 0x84, [0x44, 0x33, 0x22, 0x11])], 0) := by decide +kernel
theorem test_ld_window_bad : trapped (exec (.ld .d 3 1 0 o0) (handled (withS base 1 0xFF00000000000000))) = (BitVec.ofNat 64 (Cause.windowBad * 256), 2, 0x400) := by
  decide +kernel
theorem test_asubf : after (exec (.asubf .d 3 1 0 2 4 5 o0) ((withS (two (scr 0) 3) 4 2).onC (fun c => { c with pool := c.pool.put c.scratchBase [6] })))
    (fun t => (t.core.arch.rs 3, t.core.arch.rp 5, t.core.pool.get t.core.scratchBase)) (0, false, 0) = (6, true, 3) := by decide +kernel
theorem test_line_gate : after (exec (.line .empty 1 0 2) (two (scr 0x100) 2)) (fun t => t.core.gate) [] = [.line 2 2 .empty] := by decide +kernel
-- R257: two bits a line, own uncommitted changes seen.
theorem test_lineq : rS (exec (.lineq 3 1 0) ((withS base 1 (scr 0)).onC (fun c => { c with gate := [.line 1 1 .pois, .line 0 1 .full] }))) 3 = 9 := by
  decide +kernel
theorem test_seqld_rounds_up : after (exec (.seqld false 3 1 0 5 o0) ((withS base 1 (scr 0)).onC (fun c => { c with pool := c.pool.put c.scratchBase [33] })))
    (fun t => (t.core.arch.rs 3, t.core.arch.seql)) (0, 0) = (33, 2) := by decide +kernel
theorem test_pfxr_absent : rS (exec (.pfxr 3 1 o0) (withS base 1 9)) 3 = BitVec.allOnes 64 := by decide +kernel
theorem test_hget_empty : rS (exec (.hget 3 4 0) (withS base 3 7)) 3 = 0 := by decide +kernel
-- R71: INT8 products summed exactly: 3 + 2 * 5 + (-1) * 7.
theorem test_int8_sum : (accumulate .int 3 [some (.ofInt 2, .ofInt 5), none, some (.ofInt (-1), .ofInt 7)]).1 = 6 := by decide +kernel
theorem test_mma_absent_z : trapped (exec (.mma (xa .int8 .int8 .fp32 (.t 0) (.t 1) (.z 9))) (handled parted)) = (BitVec.ofNat 64 (Cause.regAbsent * 65536), 4, 0x400) := by
  decide +kernel
-- R274, R279: a 1 by 1 by 1 product forks one thread and leaves A's extents and format in the latch.
theorem test_mma_forks : after (exec (.mma { xa .bf16 .bf16 .fp32 (.t 0) (.t 1) (.z 1) with sh := 1 }) (withS parted 1 0x40201))
    (fun t => (t.core.threads.length, t.core.cnt[0], t.core.arch.latchA)) (0, 0, none) = (1, 1, some ⟨1, 1, .bf16, false⟩) := by
  decide +kernel
theorem test_stage_forks : after (exec (.stage o0) base) (fun t => (t.core.threads.length, t.core.cnt[0])) (0, 0) = (1, 1) := by decide +kernel
-- R273: GLD takes five bundles; R272: GZERO drops it.
theorem test_gld_pends : after (exec (.gld 2 1) base) (fun t => (t.core.arch.gptr, (t.core.arch.gpend[2]).map Prod.snd)) (0, none) = (64, some 5) := by
  decide +kernel
theorem test_gzero_drops : after (exec (.gzero 2) (regs base (fun a => { a with gpend := a.gpend.set 2 (some (List.replicate 64 7, 3)) })))
    (fun t => t.core.arch.gpend[2]) (some ([], 0)) = none := by decide +kernel
-- R197: a performed store is in memory.
theorem test_store_performed : after (exec (.storePerformed 5) (base.onC (fun c => { c with
    stores := [⟨5, o0, [⟨0x11000, 2, true, false, none, true⟩], [0xAA, 0xBB], none, none, 0x1000, []⟩], cnt := c.cnt.set 0 1 })))
    (fun t => (t.mem.get 0x11000, t.mem.get 0x11001, t.core.cnt[0], t.core.stores.length)) (0, 0, 9, 9) = (0xAA, 0xBB, 0, 0) := by decide +kernel
theorem test_load_returns : after (exec (.loadReturn 5) (base.onC (fun c => { c with
    loads := [⟨5, .s 3, o0, [⟨0x10FFF, 2, true, false, none, true⟩], [], 2, 0xFFF, true, false⟩], cnt := c.cnt.set 0 1 })))
    (fun t => (t.core.arch.rs 3, t.core.cnt[0], t.core.loads.length)) (9, 9, 9) = (0, 0, 0) := by decide +kernel
-- R371: PLIM is clamped; R367: after sixteen resends a bad flit takes link 0 down.
theorem test_plim_clamps : after (exec (.plimWrite 5) base) (fun t => t.power.plim) 0 = 1000 := by decide +kernel
theorem test_cube_link_fails : after (exec (.cubeFlitReceive 1 0 false) { base with dies := base.dies.set 1 { DieEnum.init with links := 7, resends := Vector.replicate 4 16 } })
    (fun t => (t.die 1).links) 0 = 6 := by decide +kernel
-- R173: an image that fails its check leaves every die in reset.
theorem test_boot_bad_image : after (exec (.bootStart ⟨[]⟩) State.reset) (fun t => (t.booted, t.inReset, t.journal.starts)) (false, false, 0) =
    (true, true, 1) := by decide +kernel
theorem test_power_loss : after (exec (.powerLoss 0 ⟨0, ⟨[]⟩⟩) base) (fun t => (t.booted, t.mem.length, t.core.status)) (true, 1, .running) = (false, 0, .idle) := by
  decide +kernel
-- R43: register block 4, offset 0 is PLIM.
theorem test_register_write : after (exec (.registerWrite 4 0 2000) base) (fun t => t.power.plim) 0 = 2000 := by decide +kernel

/-! ## Steps of the package -/

-- R221: LI S10, 0x4000 runs as the next step, and the PC moves on.
theorem test_step_runs_li : after (step (State.reset.withFetchWord 256 (0x0040385000004000 * 2 ^ 192)))
    (fun t => (t.core.arch.rs 10, t.core.arch.pc)) (0, 0) = (0x4000, 0x20) := by decide +kernel
theorem test_step_runs_gzero : after (step (State.reset.withFetchWord 16 0x8400)) (fun t => (t.core.arch.pc, t.core.arch.touched)) (0, false) =
    (0x20, true) := by decide +kernel
-- R203: a reserved header bit traps in all five slots; with no handler the core stops.
theorem test_step_illegal : after (step (State.reset.withFetchWord 256 (2 ^ 240))) (fun t => t.core.status) .idle = .stopped := by decide +kernel
-- R234: the last bundle of a loop goes back to its start.
theorem test_back_edge : ((base.onC (fun c => { c with arch := { c.arch with pc := 0x40, loops := [⟨0x20, 0x40, 3, 0⟩] } })).core.complete true).arch.pc = 0x20 := by
  decide +kernel
theorem test_step_boots : after (step State.reset) (fun t => t.booted) false = true := by decide +kernel


/-! ## States that meet the hypotheses of the statements

Each theorem `wit_<statement>` shows, clause by clause, a state and operands that meet that clause's hypotheses together. -/

/-- S1 names virtual address 0x1000, on an ordinary page. -/
def g1 : State := withS base 1 0x1000

/-- S1 names the own scratchpad at an offset. -/
def sp (off : Nat) : State := withS base 1 (scr off)

/-- The core in focus changed. -/
def withC (s : State) (f : Core → Core) : State := s.onC f

/-- A cached ordinary part of memory. -/
def prt (pa n : Nat) : Part := ⟨pa, n, false, true, none, true⟩

theorem wit_IntegerFormsResult : (two 5 7).rs 1 = 5 ∧ (two 5 7).src (.reg 2) = 7 ∧ (two 5 7).src (.imm 3) = 3 := by decide +kernel

theorem wit_BitCountAndFieldResults : (two 5 7).rs 1 = 5 ∧ (1 ≤ 1 ∧ 63 + 1 ≤ 64) ∧ (1 ≤ 64 ∧ 0 + 64 ≤ 64) := by decide +kernel

theorem wit_PredicateFormsResult : (two 5 7).rs 1 = 5 ∧ (two 5 7).src (.reg 2) = 7 := by decide +kernel

theorem wit_ScalarFloatComplete : fRead .f32 ((two 0x3F800000 0).rs 1) = .fin false 0x800000 (-23) ∧ fRead .f32 ((two 0x3F800000 0).rs 2) = .fin false 0 (-149) := by
  decide +kernel

theorem wit_ScalarFloatComplete_values : (Num.fin false 3 0).IsFinite ∧ (Num.fin true 0 5).IsFinite ∧ (Num.inf true).isNan = false := by
  simp [Num.IsFinite, Num.isNan, Num.isInf]

/-- Conversions to I64: a tie, the bounds and what lies beyond them, an infinity and a NaN (R226). -/
theorem wit_ScalarFloatComplete_int : (∀ x ∈ [(Machine.Num.fin false 3 (-1)), .fin true 1 63, .fin false 1 63, .fin true 3 62], x.isNan = false ∧ x.isInf = false) ∧
    (convInt 64 .rne .sat (.fin false 3 (-1))).code = 2 ∧ (convInt 64 .rne .sat (.fin false 3 (-1))).flags = fNX ∧
    (convInt 64 .rne .sat (.fin true 1 63)).code = 2 ^ 63 ∧ (convInt 64 .rne .sat (.fin true 1 63)).flags = 0 ∧
    (convInt 64 .rtz .sat (.fin false 1 63)).code = 2 ^ 63 - 1 ∧ (convInt 64 .rtz .sat (.fin false 1 63)).flags = (fOF ||| fNX) ∧
    (convInt 64 .rup .sat (.fin true 3 62)).code = 2 ^ 63 ∧ (convInt 64 .rup .sat (.inf false)).flags = fNV ∧ (Machine.Num.nan true 5 false).isNan = true := by
  decide +kernel

/-- Next to the least normal FP32 value: half a step below it is not tiny under RNE, a whole step is (R64). -/
theorem wit_ScalarRoundingIsCorrect_tiny : ff32.fin .rne false 0x1FFFFFF (-151) false = (0x800000, fNX) ∧
    ff32.fin .rne false 0x1FFFFFE (-151) false = (0x800000, fUF ||| fNX) ∧ (SFmt.f32.ff.round .rne false 0x1FFFFFE (-151) false).past = false := by
  decide +kernel

/-- 2^24 + 1 lies midway between two FP32 values: the one with an even mantissa bit is taken. -/
theorem wit_ScalarRoundingIsCorrect_tie : ff32.fin .rne false 0x1000001 0 false = (0x4B800000, fNX) ∧ ff32.read 0x4B800000 = .fin false 0x800000 1 ∧
    ff32.read 0x4B800001 = .fin false 0x800001 1 ∧ (2 : Nat) * (0x1000001 - 0x800000 * 2) = 0x800001 * 2 - 0x800000 * 2 := by decide +kernel

theorem wit_ScalarRoundingIsCorrect_past : (SFmt.f32.ff.round .rne false 1 200 false).past = true ∧ (SFmt.f64.ff.round .rtz true 1 2000 false).past = true ∧
    (SFmt.f32.ff.round .rne false 0x1FFFFFF 103 false).past = true ∧ (SFmt.f32.ff.round .rne false 0x1FFFFFE 103 false).past = false := by decide +kernel

theorem wit_ScalarRoundingIsCorrect : (3 : Nat) ≠ 0 ∧ (SFmt.f32.ff.round .rne false 3 (-1) false).past = false ∧
    (SFmt.f64.ff.round .rdn true 3 (-2000) false).past = false := by decide +kernel

theorem wit_FloatCompareAndClass : (fRead .f32 ((two 0x7FC00000 0x3F800000).rs 1)).isNan = true ∧
    fRead .f32 ((two 0x3F800000 0xBF800000).rs 1) = .fin false 0x800000 (-23) ∧ fRead .f32 ((two 0x3F800000 0xBF800000).rs 2) = .fin true 0x800000 (-23) ∧
    fRead .f32 ((two 0xFF800000 0).rs 1) = .inf true ∧ fRead .f32 ((two 0xFF800000 0).rs 2) ≠ .inf true ∧ fRead .f32 ((two 0 0x7F800000).rs 2) = .inf false ∧
    fRead .f32 ((two 0 0x7F800000).rs 1) ≠ .inf false := by decide +kernel

theorem wit_PointerForms_sptest : ((sp 0x80).rs 1 = scr 0x80 ∧ (sp 0x80).window (sp 0x80).core (scr 0x80) 1 = .ok (.scratch 0x80) ∧ wbits (scr 0x80) 63 56 = 0xF8 ∧
      wbits (scr 0x80) 47 32 = 0 ∧ wbits (scr 0x80) 55 48 = (sp 0x80).logical (sp 0x80).core.id) ∧
    (base.window base.core 0xF000000000000010 1 = .ok (.mem 0x10) ∧ wbits 0xF000000000000010 63 56 = 0xF0) ∧
    (base.window base.core 0x01FFFFFFFFFFFFFF 1 = .ok (.mem 0x1FFFFFFFFFFFFFF) ∧ wbits 0x01FFFFFFFFFFFFFF 63 56 < 0xF0) :=
  ⟨⟨by decide +kernel, ok_of (by decide +kernel), by decide +kernel, by decide +kernel, by decide +kernel⟩, ⟨ok_of (by decide +kernel), by decide +kernel⟩,
    ok_of (by decide +kernel), by decide +kernel⟩

/-- Core 7 of cluster 0 is offline. -/
def short : State := { base with dies := base.dies.set 0 { base.dies[0] with live := 0xFFFFFF7F } }

theorem wit_PointerForms_spcast : base.ptrClass 0x1000 = 0 ∧ base.ptrClass 0xF000000000000010 = 1 ∧ base.ptrClass (scr 0x80) = 2 ∧
    base.ptrClass (0xF801 * 2 ^ 48) = 3 ∧ base.ptrClass 0xF901000000000000 = 4 ∧ short.ptrClass (0xF907 * 2 ^ 48) = 5 ∧ base.ptrClass 0xFF00000000000000 = 7 ∧
    assoc base.descs (base.asidOf base.core) = some ⟨1, 0, 16⟩ ∧ (0 ≤ 0xFFFF ∧ 0xFFFF < 0 + 2 ^ 16) ∧ 0 + 2 ^ 16 ≤ 0x10000 ∧
    (1 < 8 * perDie base.grade ∧ base.physical 1 / 8 = base.core.id / 8) ∧ base.physical 8 / 8 ≠ base.core.id / 8 ∧
    wbits (0xF900 * 2 ^ 48 : Word) 50 48 = base.core.id % 8 ∧ wbits (0xF901 * 2 ^ 48 : Word) 50 48 ≠ base.core.id % 8 := by decide +kernel

theorem wit_LoopOpensAndBreaks : (0 : Nat) = (0 : BitVec 31).toNat ∧ (2 ^ 31 - 1 ≠ 0 ∧ 2 ^ 31 - 1 < 2 ^ 31 ∧ base.core.src.loops.length < 6) ∧
    ((withS base 1 0x80000000).rs 1).toNat = 2 ^ 31 ∧
    (6 ≤ (regs base (fun a => { a with loops := List.replicate 6 ⟨0, 0, 2, 0⟩ })).core.src.loops.length) ∧
    xor (base.rp 1) false = false ∧ xor (base.rp 0) false = true ∧ base.core.src.loops = [] ∧
    (regs base (fun a => { a with loops := [⟨0, 0, 2, 0⟩] })).core.src.loops = [] ++ [⟨0, 0, 2, 0⟩] ∧
    (regs base (fun a => { a with loops := [⟨0, 0, 2, 0⟩] })).core.arch.loops = (regs base (fun a => { a with loops := [⟨0, 0, 2, 0⟩] })).core.src.loops := by
  decide +kernel

/-- A core at 0x40 with these loop entries. -/
def looping (ls : List LoopEnt) : Core := { base.core with arch := { base.core.arch with pc := 0x40, loops := ls } }

theorem wit_BackEdgeStep : ((looping [⟨0x20, 0x40, 3, 1⟩]).arch.loops = [] ++ [⟨0x20, 0x40, 3, 1⟩] ∧ (looping [⟨0x20, 0x40, 3, 1⟩]).npc = none ∧ 1 + 1 < 3) ∧
    ((looping [⟨0, 0x80, 3, 1⟩, ⟨0x20, 0x40, 2, 1⟩]).arch.loops = [⟨0, 0x80, 3, 1⟩] ++ [⟨0x20, 0x40, 2, 1⟩] ∧ 2 ≤ 1 + 1 ∧
      (∀ f, [(⟨0, 0x80, 3, 1⟩ : LoopEnt)].getLast? = some f → f.stop ≠ (looping [⟨0, 0x80, 3, 1⟩, ⟨0x20, 0x40, 2, 1⟩]).arch.pc)) ∧
    ((looping [⟨0, 0x40, 3, 1⟩, ⟨0x20, 0x40, 2, 1⟩]).arch.loops = [] ++ ⟨0, 0x40, 3, 1⟩ :: [⟨0x20, 0x40, 2, 1⟩] ∧
      (∀ x ∈ [(⟨0x20, 0x40, 2, 1⟩ : LoopEnt)], x.stop = 0x40 ∧ x.trip.toNat ≤ x.index.toNat + 1) ∧
      (∀ x ∈ [(⟨0, 0x40, 3, 2⟩ : LoopEnt), ⟨0x20, 0x40, 2, 1⟩], x.stop = 0x40 ∧ x.trip.toNat ≤ x.index.toNat + 1)) ∧
    (∀ e, (looping []).arch.loops.getLast? = some e → e.stop ≠ (looping []).arch.pc) ∧ base.core.ended = false ∧
    runSlots exec [] base = .next { base with core := base.core.complete true } :=
  ⟨by decide +kernel, ⟨by decide +kernel, by decide, by intro f h; cases h; decide +kernel⟩, by decide +kernel, (by intro e h; cases h), by decide +kernel, rfl⟩

/-- A store of one byte to PA 0x11000, under way. -/
def st1 : PStore := ⟨5, o0, [prt 0x11000 1], [0xAA], none, none, 0x1000, []⟩

theorem wit_HaltEndsTheTask : base.core.gate = [] ∧ st1.scratch = none ∧ (withC base (fun c => { c with gate := [.store st1] })).core.gate = [.store st1] ∧ base.core.held = [] ∧
    base.core.cnt[st1.ord.stream.val] + st1.count ≤ 63 := by decide +kernel

/-- TLOCK is 1, at the restart point too. -/
def locked : State := regs base (fun a => { a with trap := { a.trap with tlock := true } })

theorem wit_TrapInstructionEntersHandler : ((handled base).core.arch.trap.tlock = false ∧ (handled base).core.arch.trap.tvec ≠ 0 ∧
      (handled base).core.src.pc = (handled base).core.arch.pc) ∧ locked.core.arch.trap.tlock = true ∧ base.core.arch.trap.tvec = 0 := by
  decide +kernel

/-- OPERAND_FORM at the S slot and WINDOW_BAD at the G slot. -/
def twoFaults : List SlotFault := [⟨4, Cause.windowBad, 1, 0, none⟩, ⟨0, Cause.operandForm, 0, 0, none⟩]

theorem wit_PreciseTrapEntry : twoFaults ≠ [] ∧ (∀ f ∈ twoFaults, f.slot < 5 ∧ f.cause < 256 ∧ f.join = none ∧ isFatal f.cause = false ∧ isReplayable f.cause = false) ∧
    (twoFaults.map SlotFault.slot).Nodup ∧ (handled base).core.ckpt.trap.tlock = false ∧ (handled base).core.ckpt.trap.tvec ≠ 0 := by decide +kernel

theorem wit_DoubleTrapIsFatal : (∀ f ∈ twoFaults, isFatal f.cause = false) ∧ locked.core.ckpt.trap.tlock = true ∧
    (locked.ctxQ locked.core.ctx).fatal.count < 64 ∧ (locked.ctxQ locked.core.ctx).fatal.count ≤ (locked.ctxQ locked.core.ctx).fatal.ring.length := by
  decide +kernel

/-- A load of two bytes of memory for S3. -/
def ld1 : PLoad := ⟨5, .s 3, o0, [prt 0x11000 2], [], 2, 0x1000, true, false⟩

/-- One load in flight. -/
def loading (l : PLoad) : State := withC base (fun c => { c with loads := [l], cnt := c.cnt.set 0 1 })

/-- The load that a rollback dropped. -/
def ldD : PLoad := { ld1 with dropped := true }

theorem wit_RollbackRestoresTheShadow : ld1 ∈ (loading ld1).core.loads ∧ ld1.committed = true ∧ ldD.dropped = true ∧
    (loading ldD).core.loads.find? (fun x => x.uid == ldD.uid) = some ldD ∧ ldD.dest = .s 3 ∧ ldD.parts = [prt 0x11000 2] ∧ (prt 0x11000 2).ends = true ∧
    (loading ldD).core.loadBlocked ldD (prt 0x11000 2) = false ∧ (loading ldD).noRoute (loading ldD).core 0x11000 = false := by decide +kernel

/-- The same store on stream 1. -/
def st2 : PStore := { st1 with uid := 6, ord := ⟨1, 0, .core⟩ }

/-- A store of one byte to offset 8 of the own scratchpad. -/
def stOwn : PStore := ⟨7, ⟨0, 0xFF, .core⟩, [], [1], none, some 8, scr 8, []⟩

/-- It is gated, while other stores are under way. -/
def gated (ss : List PStore) : Core := { base.core with gate := [.store stOwn], stores := ss }

theorem wit_CommitReleasesTheGate : (∀ ss, (gated ss).gate = [.store stOwn]) ∧ stOwn.scratch = some 8 ∧ (gated []).held = [] ∧
    (gated []).storeBlocked stOwn peerPart = false ∧ (gated [st1]).storeBlocked stOwn peerPart = true ∧
    base.core.cnt[stOwn.ord.stream.val] + stOwn.count ≤ 63 ∧ st1.scratch = none ∧ st2.scratch = none ∧
    (withC base (fun c => { c with gate := [.store st1, .store st2] })).core.gate = [.store st1, .store st2] ∧ base.core.held = [] ∧
    st1.ord.stream ≠ st2.ord.stream ∧ base.core.cnt[st1.ord.stream.val] + st1.count ≤ 63 ∧ base.core.cnt[st2.ord.stream.val] + st2.count ≤ 63 :=
  ⟨fun _ => rfl, by decide +kernel⟩

theorem wit_CommitReleasesTheGate_lines : (withC base (fun c => { c with gate := [.line 1 2 .empty] })).core.gate = [.line 1 2 .empty] ∧
    (withC base (fun c => { c with gate := [.consume 1], lines := [(1, .full)] })).core.gate = [.consume 1] := by decide +kernel

theorem wit_ControlRegisterReads : (regs base (fun a => { a with loops := List.replicate 6 ⟨0, 0, 2, 0⟩ })).core.src.loops[(5 : Fin 6).val]? = some ⟨0, 0, 2, 0⟩ ∧
    base.core.src.loops.length ≤ (0 : Fin 6).val ∧ base.launchOf base.core = some (demoLaunch 0 0 0) ∧ base.core.task = some ⟨0, 0, 0⟩ ∧ 8 / 8 = (1 : Fin 32).val := by
  decide +kernel

theorem wit_ControlRegisterWrites : (regs base (fun a => { a with loops := [⟨0, 0, 2, 0⟩] })).core.arch.loops[(0 : Fin 6).val]? = some ⟨0, 0, 2, 0⟩ ∧
    base.core.arch.loops.length ≤ (0 : Fin 6).val ∧ (two 5 7).rs 1 = 5 := by decide +kernel

/-- A monitor of the word at PA 0x11000. -/
def mon (armed hit : Bool) (timeout waited : Nat) (c : Option Nat) : Monitor := ⟨armed, hit, 0x11000, 0x1000, 0, timeout, waited, c⟩

/-- The core waits with that monitor, S1 naming the watched word. -/
def waiting (m : Monitor) : State := withC g1 (fun c => { c with monitor := some m })

theorem wit_MonitoredWaitRuns : ((two 4 0).rs 1 + BitVec.signExtend 64 (0 : BitVec 17)).toNat % 8 ≠ 0 ∧ g1.faultWaitm 1 0 = none ∧ g1.core.monitor = none ∧
    (waiting (mon true false 0 0 none)).faultWaitm 1 0 = none ∧ (waiting (mon true false 0 0 none)).core.monitor = some (mon true false 0 0 none) ∧
    (waiting (mon true false 0 0 (some 1))).faultWaitm 1 0 = none ∧ (waiting (mon true false 0 0 (some 1))).core.monitor = some (mon true false 0 0 (some 1)) := by
  decide +kernel

theorem wit_MonitorEvents : (waiting (mon false false 0 0 none)).core.monitor = some (mon false false 0 0 none) ∧
    (waiting (mon false false 0 0 none)).core.storeOn ((mon false false 0 0 none).word / 128) = false ∧
    (waiting (mon false false 0 0 none)).noRoute (waiting (mon false false 0 0 none)).core 0x11000 = false ∧
    (∀ bad : Bool, ({ waiting (mon false false 0 0 none) with poison := if bad then [0x11000 / 32] else [] } : State).isPoison 0x11000 8 = bad) ∧ (mon true true 5 5 none).armed = true ∧
    (mon true true 5 5 none).cause = none ∧ (mon true true 5 5 none).hit = true ∧ (mon true true 5 5 none).timeout ≠ 0 ∧
    (mon true true 5 5 none).timeout ≤ (mon true true 5 5 none).waited ∧ (mon true true 5 4 none).waited < (mon true true 5 4 none).timeout ∧
    base.core.monitor = none := by decide +kernel

/-- The task's launch holds barrier 3 of its cluster; its record declares it. -/
def barred : State := { base with
  launches := base.launches.map (fun l => { l with lr := { l.lr with barm := 8 } }),
  barriers := [⟨0, 3, 0, 0, 0⟩] }

/-- An arrival has been sent. -/
def arriving : State := withC barred (fun c => { c with arrivals := [(3, 7)] })

theorem wit_BarrierArriveAndWait : base.holdsBar 3 = false ∧ barred.holdsBar 3 = true ∧ barred.core.ckpt.pc ∉ barred.core.arvSent ∧
    barred.core.ckpt.pc ∈ (withC barred (fun c => { c with arvSent := [0x40, c.ckpt.pc] })).core.arvSent ∧
    (withC barred (fun c => { c with arvSent := [0x40, c.ckpt.pc] })).holdsBar 3 = true ∧
    assoc arriving.core.arrivals (3 : Fin 16).val = some 7 ∧ (arriving.launchOf arriving.core).isSome = true ∧ arriving.core.settledBelow 7 = true ∧
    (withC arriving (fun c => { c with stores := [st1], cnt := c.cnt.set 0 1 })).core.settledBelow 7 = false := by decide +kernel

theorem wit_PartitionInstalls : (∀ i : Fin 8, base.core.cnt[i.val] = 0) ∧ base.core.src.touched = false ∧
    (let w : Word := 0xFFFF100400
     wbits w 10 8 ≤ 4 ∧ wbits w 20 16 ≤ 16 ∧ wbits w 39 24 < 2 ^ wbits w 20 16 ∧ wbits w 63 40 = 0 ∧ wbits w 23 21 = 0 ∧ wbits w 15 11 = 0) ∧
    (loading ld1).core.cnt[(0 : Fin 8).val] ≠ 0 ∧ (regs base (fun a => { a with touched := true })).core.src.touched = true ∧ 4 < wbits 0x500 10 8 := by decide +kernel

/-- A port program with no words, allowed at port A. -/
def prog : PSlot := ⟨[], false, 1, Vector.replicate 8 0, 0⟩

/-- Slot 4 holds it. -/
def filled : State := regs base (fun a => { a with progs := a.progs.set 4 (some prog) })

/-- S1 names a record of one element instruction, ADD e0, e0, e0, for port A. -/
def recorded : State := { g1 with mem := g1.mem.put 0x11000 (natLE 8 0x101 ++ natLE 4 0x04000000) }

theorem wit_PortProgramSlots_elements : recorded.faultPpld 4 1 0 = none ∧ wordOk 0x04000000 = true ∧ (0x04000000#32).extractLsb' 26 6 = 1 ∧
    (let st : LaneSt := ⟨List.replicate 8 0, List.replicate 4 0, 0, none, []⟩
     st.e.length = 8 ∧ st.c.length = 4) := by decide +kernel

theorem wit_PortProgramSlots : (filled.core.src.progs[(4 : Fin 64).val] = some prog ∧ prog.ports.getLsbD 0 = true) ∧
    filled.core.arch.progs[(4 : Fin 64).val] = some prog ∧ ((5 : Fin 64) ≠ 0 ∧ filled.core.src.progs[(5 : Fin 64).val] = none) := by decide +kernel


/-- Words that an element program may hold, and words that it may not: a mode past 3, an operand past selector 0x19, no opcode. -/
theorem wit_PortProgramSlots_refused : WordAdmitted 0x04000000 ∧ ¬ WordAdmitted 0x04000004 ∧ ¬ WordAdmitted 0x041A0000 ∧ ¬ WordAdmitted 0 ∧
    (recorded.rs 1).toNat % 8 = 0 ∧ (∃ g, recorded.memOnly 0x1000 72 = .ok g ∧ true = true) ∧ (∃ r, recorded.route 0x1000 72 .read = .ok r ∧ true = true) ∧
    recorded.faultRead 0 0x1000 72 = none ∧ g1.faultRead 0 0x1000 72 = none ∧
    (∀ r, recorded.route 0x1000 72 .read = .ok r → leVal ((recorded.readRoute r 72).take 8) = 0x101) ∧
    (∀ r, g1.route 0x1000 72 .read = .ok r → leVal ((g1.readRoute r 72).take 8) = 0) ∧
    (∀ k : Fin 4, recorded.core.src.binds[k.val] = 0) := by
  have h : ∀ s : State, (match s.route 0x1000 72 .read with | .ok _ => true | .error _ => false) = true →
      ∀ v, (match s.route 0x1000 72 .read with | .ok r => decide (leVal ((s.readRoute r 72).take 8) = v) | .error _ => true) = true →
      ∀ r, s.route 0x1000 72 .read = .ok r → leVal ((s.readRoute r 72).take 8) = v := by
    intro s _ v h r e; rw [e] at h; simpa using h
  refine ⟨by simp [WordAdmitted], by simp [WordAdmitted], by simp [WordAdmitted], by simp [WordAdmitted], by decide +kernel,
    ok_ex _ (by decide +kernel), ok_ex _ (by decide +kernel), by decide +kernel, by decide +kernel, h _ (by decide +kernel) _ (by decide +kernel),
    h _ (by decide +kernel) _ (by decide +kernel), by decide +kernel⟩

/-- The launch of the task in `base`, changed. -/
def dl (id : Nat) (f : Launch → Launch) : Launch := f (demoLaunch id 0 0)

/-- A second launch waits for core 0. -/
def rival (midp : Bool) : State := { base with
  launches := [dl 0 (fun l => { l with lr := { l.lr with midp := midp } }), dl 7 (fun l => { l with slots := [.waiting 0] })] }

theorem wit_YieldGivesWay : State.reset.launchOf State.reset.core = none ∧ (base.launchOf base.core).isSome = true ∧ 
    base.settle.launches.filter (fun w => w.id ≠ 0 ∧ w.wants (base.logical base.core.id) = true ∧ w.eff ≤ 0) = [] ∧
    (∀ m : Bool, (rival m).settle.launches.filter (fun w => w.id ≠ 0 ∧ w.wants ((rival m).logical (rival m).core.id) = true ∧ w.eff ≤ 0) ≠ [] ∧
      ((rival m).launchOf (rival m).core).any (fun v => v.id == 0 && v.lr.midp == m && v.lr.cls != 2 && v.eff == 0) = true ∧ (rival m).booted = true ∧
      (rival m).inReset = false ∧ (rival m).core.status = .running ∧ (rival m).core.preempt = false ∧ (∀ c ∈ (rival m).others, c.id ≠ (rival m).core.id) ∧
      (rival m).core.task.map Task.launch = some 0) := by decide +kernel

theorem wit_ScalarLoadIssues : ((sp 0x7E).rs 1 + BitVec.signExtend 64 (0 : BitVec 22) = scr 0x7E ∧ sizeBytes .d = 8 ∧ (sp 0x7E).route (scr 0x7E) 8 .read = .ok (.scratch 0x7E) ∧
      (sp 0x7E).core.PadClean 0x7E 8) ∧
    (g1.rs 1 + BitVec.signExtend 64 (0 : BitVec 22) = 0x1000 ∧ g1.route 0x1000 8 .read = .ok (.mem [prt 0x11000 8]) ∧
      (∀ a, Route.mem [prt 0x11000 8] ≠ .scratch a) ∧ (0x1000 : Word).toNat % 8 = 0) ∧
    base.route 0xFF00000000000000 8 .read = .error Cause.windowBad :=
  ⟨⟨by decide +kernel, by decide, ok_of (by decide +kernel), padClean (by decide +kernel)⟩,
    ⟨by decide +kernel, ok_of (by decide +kernel), nofun, by decide⟩, err_of (by decide +kernel)⟩

theorem wit_ScalarStoreEntersTheGate : (sp 0x7E).route (scr 0x7E) 8 .write = .ok (.scratch 0x7E) ∧
    (g1.route 0x1001 8 .write = .ok (.mem [prt 0x11001 8]) ∧ (∀ a, Route.mem [prt 0x11001 8] ≠ .scratch a) ∧ g1.onDevice 0x1001 8 .write = false) ∧
    base.route 0xFF00000000000000 8 .write = .error Cause.windowBad :=
  ⟨ok_of (by decide +kernel), ⟨ok_of (by decide +kernel), nofun, by decide +kernel⟩, err_of (by decide +kernel)⟩

theorem wit_SequenceLoadAndPrefetch : ((4 : Nat) = (if false then 8 else 4) ∧ (0x1002 : Word).toNat % 4 ≠ 0) ∧
    ((scr 0x80).toNat % 4 = 0 ∧ (sp 0x80).route (scr 0x80) 4 .read = .ok (.scratch 0x80) ∧
      (sp 0x80).core.PadClean 0x80 4 ∧ 0 = leVal ((sp 0x80).core.scratchBytes 0x80 4)) ∧
    ((0x1000 : Word).toNat % 8 = 0 ∧ g1.route 0x1000 8 .read = .ok (.mem [prt 0x11000 8])) ∧
    g1.route 0x1000 1 .read = .ok (.mem [prt 0x11000 1]) ∧ (∀ ps, base.route 0xFF00000000000000 1 .read ≠ .ok (.mem ps)) :=
  ⟨by decide, ⟨by decide, ok_of (by decide +kernel), padClean (by decide +kernel), by decide +kernel⟩, ⟨by decide, ok_of (by decide +kernel)⟩, ok_of (by decide +kernel), by
      have h : base.route 0xFF00000000000000 1 .read = .error Cause.windowBad := err_of (by decide +kernel)
      intro ps; rw [h]; nofun⟩

/-- S2 and S3 describe a plain pair at scratchpad offset 0, S4 and S5 a Z-order-transposed one. -/
def paired : State := withS (withS (withS (withS parted 2 0) 3 1024) 4 (2 * 2 ^ 38 + 0x10000)) 5 1024

theorem wit_TileAccessesIssue : base.core.hasT 0 = false ∧ parted.core.hasT 1 = true ∧ (0x1010 : Word).toNat % 32 ≠ 0 ∧
    ((0x1000 : Word).toNat % 32 = 0 ∧ (∃ r, parted.route 0x1000 16384 .read = .ok r ∧ (match r with | .mem _ => true | _ => false) = true) ∧
      parted.route (scr 0x80) 16384 .read = .ok (.scratch 0x80) ∧ parted.core.PadClean 0x80 16384) ∧
    ((∃ r, parted.route 0x1000 16384 .write = .ok r ∧ (match r with | .mem ps => decide ((Route.mem ps).count ≤ 63) | _ => false) = true) ∧ parted.core.held = [] ∧
      parted.core.cnt[(0 : Fin 8).val] = 0 ∧ parted.route (scr 0x80) 16384 .write = .ok (.scratch 0x80)) :=
  ⟨by decide +kernel, by decide +kernel, by decide, ⟨by decide, ok_ex _ (by decide +kernel), ok_of (by decide +kernel), padClean (by decide +kernel)⟩,
    ok_ex _ (by decide +kernel), by decide +kernel, by decide +kernel, ok_of (by decide +kernel)⟩

theorem wit_AtomicArithmetic : 4 = sizeBytes .w ∧ 2 ^ 32 - 1 < 2 ^ (8 * 4) ∧ (0 : Nat) < 2 ^ (8 * 4) ∧ ((5 : Nat) ≤ 7 ∧ 2 ≤ 7 - 5) ∧ ((8 : Nat) > 7 ∨ 7 - 8 < 2) ∧
    4 = fBits .f32 / 8 ∧ 8 = fBits .f64 / 8 := by decide

theorem wit_AtomicsIssue : (0x1001 : Word).toNat % 8 ≠ 0 ∧ base.troyOn = false ∧
    (g1.rs 1 + BitVec.signExtend 64 (0 : BitVec 13) = 0x1000 ∧ (0x1000 : Word).toNat % 8 = 0 ∧ g1.route 0x1000 8 .rmw = .ok (.mem [prt 0x11000 8])) ∧
    ((scr 0x80).toNat % 8 = 0 ∧ (sp 0x80).route (scr 0x80) 8 .rmw = .ok (.scratch 0x80) ∧
      (sp 0x80).core.PadClean 0x80 8) ∧
    (atomicValue (.asubf .d 3 1 0 2 4 5 o0) 8 5 8 2).1 = none ∧ (atomicValue (.asubf .d 3 1 0 2 4 5 o0) 8 9 3 2).1 = some 6 :=
  ⟨by decide, by decide +kernel, ⟨by decide +kernel, by decide, ok_of (by decide +kernel)⟩, ⟨by decide, ok_of (by decide +kernel), padClean (by decide +kernel)⟩, by decide +kernel, by decide +kernel⟩

theorem wit_LineStatesIssue : wbits 0x1000 63 56 ≠ 0xF8 ∧ wbits (0xF8 * 2 ^ 56 + 2 ^ 32) 47 32 ≠ 0 ∧
    (wbits (0xF8 * 2 ^ 56 + 2 ^ 48) 63 56 = 0xF8 ∧ wbits (0xF8 * 2 ^ 56 + 2 ^ 48) 47 32 = 0 ∧ wbits (0xF8 * 2 ^ 56 + 2 ^ 48) 55 48 ≠ base.logical base.core.id) ∧
    (wbits (scr 0) 63 56 = 0xF8 ∧ wbits (scr 0) 47 32 = 0 ∧ wbits (scr 0) 55 48 = base.logical base.core.id) ∧ 0x7F % 128 ≠ 0 ∧
    ((two 0 1).rs 2 ≠ 0 ∧ base.core.scratchSize - 128 + 128 * ((two 0 1).rs 2).toNat ≤ base.core.scratchSize ∧ (base.core.scratchSize - 128) % 128 = 0) ∧
    base.core.scratchSize < base.core.scratchSize + 128 * ((two 0 1).rs 2).toNat := by decide +kernel

/-- S1 names a one-element shape record in memory. -/
def shaped : State := { g1 with mem := g1.mem.put 0x11000 (natLE 8 64 ++ natLE 4 1 ++ natLE 60 0 ++ natLE 4 1) }

theorem wit_ShapeSlotForms : (0x1040 : Word).toNat % 128 ≠ 0 ∧ ((0x1000 : Word).toNat % 128 = 0 ∧ g1.faultRead 1 0x1000 128 = none ∧
      parseShape (g1.hldRecord 1 0) = none) ∧ shaped.faultRead 1 0x1000 128 = none ∧ (parseShape (shaped.hldRecord 1 0)).isSome = true ∧
    base.core.src.h[(31 : HReg).val] = none ∧ (shaped.onA (fun a => { a with h := a.h.set 31 (parseShape (shaped.hldRecord 1 0)) })).core.arch.h[31].isSome = true := by
  decide +kernel

theorem wit_TileAccessesIssue_pairs : paired.faultLdt .fp32 0 (.pair 2) = none ∧ paired.faultTile .fp32 1 (.pair 2) .write = none ∧
    paired.faultStp .fp32 2 4 1 = none ∧ (paired.core.hasT 1 = true ∧ (pairOf (paired.pair 2)).lay ≠ 2) := by decide +kernel

/-- S1 names a request to the table of shared beginnings for one page of zero tokens at 0x1100: page number 5, root depth. -/
def pfxReq : State := { g1 with mem := g1.mem.put 0x11000 (natLE 8 9 ++ natLE 8 0x1100 ++ natLE 4 5 ++ natLE 4 0xFFFFFFFF ++ natLE 8 0) }

/-- That page in the table, as `ref` users hold it. -/
def pfxEnt (ref : Nat) : PfxEnt := ⟨1, 9, 0, hashPage (hashStart 9) (List.replicate 32 0), 0xFFFFFFFF, List.replicate 32 0, 5, ref, 0⟩

theorem wit_PrefixTableForms : wbits ((withS base 1 0x100000000).rs 1) 63 32 ≠ 0 ∧ wbits ((withS base 1 5).rs 1) 63 32 = 0 ∧ pfxReq.faultPfxi 1 0 = none ∧
    (let q : State := { g1 with mem := g1.mem.put 0x11000 (natLE 8 9 ++ natLE 8 0x1100 ++ natLE 8 0x1200 ++ natLE 8 1) }
     q.faultPfxl 1 0 = none) ∧ g1.faultPfxl 1 0 = none ∧ field32 (g1.pfxReq 1 0) 24 = 0 ∧ field32 (pfxReq.pfxReq 1 0) 24 = 0 ∧ BitVec.ofNat 32 (field32 (pfxReq.pfxReq 1 0) 20) = 0xFFFFFFFF#32 ∧
    BitVec.ofNat 32 (field32 (pfxReq.pfxReq 1 0) 16) = 5 ∧ (tokPages (pfxReq.spanBytes (reqWord (pfxReq.pfxReq 1 0) 8) 128) 1).headD [] = List.replicate 32 0 ∧
    pfxReq.pfxHit (pfxReq.asidOf pfxReq.core) 9 0 (hashPage (hashStart 9) (List.replicate 32 0)) 0xFFFFFFFF#32 (List.replicate 32 0) = none ∧
    pfxReq.pfxPage (pfxReq.asidOf pfxReq.core) 5 = none ∧ ((let q := natLE 8 9 ++ natLE 8 0x1100 ++ natLE 8 0x1200 ++ natLE 8 1
        (pfxReq.pfxSlots q).map PfxSlot.out = [[prt 0x11200 4]]) ∧ (prt 0x11200 4).n = 4 ∧ (prt 0x11200 4).pa % 32 ≤ 28 ∧
      pfxReq.noRoute pfxReq.core 0x11200 = false ∧ pfxReq.troyOf pfxReq.core = none ∧ ∀ i < 4, pfxReq.region (0x11200 + i) = .dram 0 (0x11200 + i)) ∧
    pfxReq.pfx.length < 1048576 := by decide +kernel

theorem wit_PrefixTableForms_held : ({ pfxReq with pfx := [pfxEnt 1] } : State).pfxHit 1 9 0 (hashPage (hashStart 9) (List.replicate 32 0)) 0xFFFFFFFF#32
      (List.replicate 32 0) = some (pfxEnt 1) ∧ (pfxEnt 1).ref + 1 < 2 ^ 32 ∧
    ({ base with pfx := [pfxEnt 1] } : State).pfxPage (base.asidOf base.core) ((withS base 1 5).rs 1 |>.extractLsb' 0 32) = some (pfxEnt 1) ∧ (pfxEnt 1).ref ≠ 0 ∧
    ({ base with pfx := [pfxEnt 0] } : State).pfxPage (base.asidOf base.core) 5 = some (pfxEnt 0) ∧ (pfxEnt 0).ref = 0 := by decide +kernel

/-- A load of memory with a destination. -/
def ldTo (d : LoadDest) (n : Nat) : PLoad := { ld1 with dest := d, parts := [prt 0x11000 n], width := n }

theorem wit_LoadsReturn_kinds : (∀ d ∈ [LoadDest.seql 3 5, .t 1 .fp32, .none, .atom (.asubf .d 3 1 0 2 4 5 o0) 1 2], let l := ldTo d 8
      (loading l).core.loads.find? (fun x => x.uid == l.uid) = some l ∧ l.dest = d ∧ l.dropped = false ∧ l.parts = [prt 0x11000 8] ∧ (prt 0x11000 8).n = sizeBytes .d ∧
      (loading l).core.loadBlocked l (prt 0x11000 8) = false ∧ (loading l).noRoute (loading l).core 0x11000 = false ∧
      (loading l).partBad l (prt 0x11000 8) = false ∧ (loading l).region 0x11000 = .dram 0 0x11000) ∧
    (0 * 2 ^ 5 < 0 + 2 ^ 5 ∧ 0 ≤ 0 * 2 ^ 5) := by decide +kernel

/-- Package 3, its port 0 up. -/
def reaching (s : State) : State := { s with ox := { s.ox with pkg := 3, pkgSet := true, ports := s.ox.ports.set 0 1 } }

/-- An address of package 4. -/
def farPa : Nat := 2 ^ 51 + 4 * 2 ^ 40 + 0x11000

/-- A load of it, before and after the sector has come back. -/
def ldFar : PLoad := { ld1 with parts := [prt farPa 2] }
def farLoad (back : Bool) : State :=
  let s := reaching (loading ldFar)
  if back then { s with ox := { s.ox with got := [⟨s.core.id, ldFar.uid, farPa, ⟨List.replicate 32 9, false⟩⟩] } } else s

theorem wit_LoadsReturn_far : (∀ b : Bool, (farLoad b).core.loads.find? (fun x => x.uid == ldFar.uid) = some ldFar ∧ (farLoad b).core.loadBlocked ldFar (prt farPa 2) = false ∧
      (farLoad b).noRoute (farLoad b).core farPa = false ∧ (farLoad b).partBad ldFar (prt farPa 2) = false ∧ (farLoad b).farWaits ldFar (prt farPa 2) = !b) ∧
    ((farLoad true).core.stores = [] ∧ (farLoad true).core.held = [] ∧ (farLoad true).core.gate = [] ∧ isRemote (prt farPa 2).pa = true ∧ farPa % 32 + 2 ≤ 32 ∧
      (farLoad true).ox.got.find? (fun y => y.core == (farLoad true).core.id && y.pa == farPa / 32 * 32) =
        some ⟨0, ldFar.uid, farPa, ⟨List.replicate 32 9, false⟩⟩) ∧
    (loading ld1).farWaits ld1 (prt 0x11000 2) = false ∧ (loading ld1).core.ahead = [] := by decide +kernel

theorem wit_LinksAndPorts_far : (let s := farLoad false
     s.farMissing ldFar.uid [prt farPa 2] = farPa :: [] ∧ s.ox.asks = [] ∧ s.ox.got = [] ∧ ldFar.parts = prt farPa 2 :: []) ∧
    (let y : PStore := { st1 with parts := [prt farPa 1] }
     let s := reaching (withC base (fun c => { c with stores := [y], cnt := c.cnt.set 0 1 }))
     s.core.stores.find? (fun x => x.uid == y.uid) = some y ∧ y.clus = none ∧ (prt farPa 1).ends = true ∧ s.core.storeBlocked y (prt farPa 1) = false ∧
     s.farBusy y.uid (prt farPa 1) = false ∧ s.noRoute s.core farPa = false ∧ isRemote farPa = true ∧ y.bytes.length = (prt farPa 1).n ∧
     (prt farPa 1).n ≠ 0 ∧ farPa % 32 + 1 ≤ 32) := by decide +kernel

theorem wit_LoadsReturn : (∀ l ∈ base.core.loads, l.uid ≠ 5) ∧ (loading ld1).core.loads.find? (fun x => x.uid == ld1.uid) = some ld1 ∧ ld1.dropped = false ∧
    ld1.parts = [prt 0x11000 2] ∧ (prt 0x11000 2).ends = true ∧ ld1.dest = .s 3 ∧ (loading ld1).core.loadBlocked ld1 (prt 0x11000 2) = false ∧
    (loading ld1).noRoute (loading ld1).core 0x11000 = false ∧ (loading ld1).partBad ld1 (prt 0x11000 2) = false ∧ assoc (loading ld1).core.l1 (0x11000 / 128) = none ∧
    (loading ld1).core.stores = [] ∧ (loading ld1).core.held = [] ∧ (loading ld1).core.gate = [] ∧ base.region 0x11000 = .dram 0 0x11000 ∧
    base.region 0x11001 = .dram 0 0x11001 := by decide +kernel

/-- One store under way. -/
def storing : State := withC base (fun c => { c with stores := [st1], cnt := c.cnt.set 0 1 })

/-- A store held back by stream exhaustion, with a count on its stream. -/
def holding (n : Nat) : State := withC base (fun c => { c with held := [st1], cnt := c.cnt.set 0 n })

theorem wit_StoresPerform : (∀ y ∈ base.core.stores, y.uid ≠ 5) ∧ storing.core.stores.find? (fun x => x.uid == st1.uid) = some st1 ∧ st1.clus = none ∧
    st1.parts = [prt 0x11000 1] ∧ (prt 0x11000 1).ends = true ∧ storing.core.storeBlocked st1 (prt 0x11000 1) = false ∧ storing.noRoute storing.core 0x11000 = false ∧
    storing.troyOf storing.core = none ∧ storing.region 0x11000 = .dram 0 0x11000 ∧ st1.bytes.length = (prt 0x11000 1).n ∧ (prt 0x11000 1).n ≠ 0 ∧
    (holding 62).core.held = st1 :: [] ∧ (holding 62).core.cnt[st1.ord.stream.val] + st1.count ≤ 63 ∧
    63 < (holding 63).core.cnt[st1.ord.stream.val] + st1.count ∧ base.core.held = [] ∧
    (let far : PStore := { st1 with parts := [prt Config.dieBytes 1] }
     let s := withC { base with dies := base.dies.set 1 { base.dies[1] with dieok := true } } (fun c => { c with stores := [far], cnt := c.cnt.set 0 1 })
     s.core.stores.find? (fun x => x.uid == far.uid) = some far ∧ s.core.storeBlocked far (prt Config.dieBytes 1) = false ∧
     (match s.region Config.dieBytes with | .dram d _ => d == 1 | _ => false) = true ∧ s.noRoute s.core Config.dieBytes = true) ∧
    (∀ ss ∈ [[], [st1]], let s := withC base (fun c => { c with stores := ss ++ [stOwn], cnt := c.cnt.set 0 2 })
     s.core.stores.find? (fun x => x.uid == stOwn.uid) = some stOwn ∧ stOwn.clus = none ∧ stOwn.parts = [] ∧ stOwn.scratch = some 8 ∧
     s.core.storeBlocked stOwn peerPart = !ss.isEmpty) := by decide +kernel

/-- A store of one byte to the scratchpad of the peer at position 1, offset 0. -/
def stP : PStore := ⟨5, o0, [], [0xAA], some (1, 0), none, 0xF901000000000000, []⟩

/-- S1 names that scratchpad. -/
def gP : State := withS base 1 0xF901000000000000

/-- The peer runs a task of the same launch, its line 0 in a state. -/
def peered (x : LineCode) (s : State) : State := { s with others := [{ Core.init 1 with task := some ⟨0, 1, 1⟩, status := .running, lines := [(0, x)] }] }

theorem wit_PeerAccessesArrive_issue : gP.rs 1 + BitVec.signExtend 64 (0 : BitVec 22) = 0xF901000000000000 ∧
    gP.window gP.core 0xF901000000000000 8 = .ok (.clus 1 0) ∧ gP.peerOk gP.core 1 = false ∧
    (∀ x : LineCode, x ∈ [.empty, .full] → (peered x gP).peerOk gP.core 1 = true ∧ 0 + 8 ≤ ((peered x gP).coreAt 1).scratchSize ∧ ((peered x gP).coreAt 1).line 0 = x) ∧
    (let a := ((peered .full gP).coreAt 1).scratchSize - 7
     (peered .full gP).window gP.core (0xF901000000000000 + BitVec.ofNat 64 a) 8 = .ok (.clus 1 a) ∧ ((peered .full gP).coreAt 1).scratchSize < a + 8) ∧
    gP.core.pending' = [] ∧ ({ nob with m := some (.ld .d 3 1 0 o0) } : Bundle).single = some (.ld .d 3 1 0 o0) :=
  ⟨by decide +kernel, ok_of (by decide +kernel), by decide +kernel, by decide +kernel, ⟨ok_of (by decide +kernel), by decide +kernel⟩, by decide +kernel⟩

theorem wit_PeerAccessesArrive_clean : (peered .full gP).PeerClean 1 0 8 ∧ (peered .full gP).route 0xF901000000000000 8 .read = .ok (.clus 1 0) :=
  ⟨⟨fun l h1 h2 => by
    have : l = 0 := by omega
    subst this; decide +kernel, by decide +kernel⟩, ok_of (by decide +kernel)⟩

theorem wit_PeerAccessesArrive : (∀ y ∈ base.core.stores, y.uid = 5 → y.clus = none) ∧
    (∀ b : Bool, let s := (if b then peered .full else id) (withC base (fun c => { c with stores := [stP], cnt := c.cnt.set 0 1 }))
     s.core.stores.find? (fun x => x.uid == stP.uid) = some stP ∧ stP.clus = some (1, 0) ∧
     s.core.storeBlocked stP peerPart = false ∧ s.core.peer 1 ≠ s.core.id ∧
     (let q := s.coreAt (s.core.peer 1)
      decide (q.task.map Task.launch = s.core.task.map Task.launch ∧ q.status ≠ .stopped) = b)) ∧
    (let s := peered .full (withC base (fun c => { c with stores := [stP] }))
     let q : Core := { s.coreAt 1 with status := .stopped }
     ({ s with others := [q] } : State).coreAt (s.core.peer 1) = q) ∧
    (let s := withC base (fun c => { c with stores := [st1, { stP with uid := 6, ord := ⟨0, 1, .core⟩ }] })
     s.core.storeBlocked { stP with uid := 6, ord := ⟨0, 1, .core⟩ } peerPart = true) := by decide +kernel

/-- A thread of factorisations and reductions, with its shape word. -/
def thrW (i : Instr) (sh : Word) : Thread := { (withS parted 1 0x40201).bareThread i o0 0 with sh := sh }

/-- A product of one element by one, S1 naming the shape. -/
def mm : XArgs := { xa .bf16 .bf16 .fp32 (.t 0) (.t 1) (.z 1) with sh := 1 }

theorem wit_XSlotForks : (withS parted 1 0x40201).faultX (.mma mm) = none ∧ parted.faultX (.mma mm) = some ⟨2, Cause.operandForm, 0, 0, none⟩ ∧
    (mm.od = .z 1 ∧ base.core.hasZ (1 : ZReg).val = false) ∧ (withS paired 1 0x40201).faultX (.mma { mm with oa := .pair 2 false }) = none ∧
    (withS parted 1 0).faultX (.zclr (xa .fp32 .fp32 .fp32 (.t 0) (.t 0) (.z 1))) = none := by decide +kernel

/-- A queued thread of an instruction. -/
def thr (i : Instr) : Thread := { (withS parted 1 0x40201).bareThread i o0 0 with sh := 0x40201 }

theorem wit_ArrayResults : Fmt.pairOk .bf16 .bf16 = true ∧ Fmt.pairOk .int8 .int8 = true ∧ Fmt.pairOk .fp64 .fp64 = true := by decide

theorem wit_ArrayResults_threads : ((3 : Nat) < 2 ^ 32) ∧ (thr (.mma { mm with fa := .int8, fb := .int8 })).pa.prog = none ∧ 1 ≤ (shapeW 0x40201).k ∧
    (ff32.read 0x3F800000).isNan = false ∧ (thr (.zclr mm)).ins = .zclr mm ∧ mm.od = .z 1 := by decide +kernel

/-- A sparse product of depth 4: its metadata, in T1, keep elements 0 and 1 of the only group. -/
def sparse (ok : Bool) : Core × Thread := ((withC parted (fun c => { c with pool := if ok then c.pool.put 16384 [4] else c.pool })).core,
  thrW (.mmas (xa .bf16 .bf16 .fp32 (.t 0) (.t 1) (.z 1))) (2 ^ 43 + 0x40801))

theorem wit_ArrayResults_sparse : (∀ b : Bool, (sparse b).2.pa.prog = none ∧ (sparse b).2.pb.prog = none ∧ (shapeW (sparse b).2.sh).k % 4 = 0 ∧
      decide (∀ g < (shapeW (sparse b).2.sh).k / 4, ∀ j < (shapeW (sparse b).2.sh).n,
        metaAt ((sparse b).1.tImage ((shapeW (sparse b).2.sh).ext % 64)) (256 * g + j) % 4 < metaAt ((sparse b).1.tImage ((shapeW (sparse b).2.sh).ext % 64)) (256 * g + j) / 4) = b) ∧
    (let c : Core := { parted.core with latA := [0x3F80], latB := [0x3F80] }
     c.latA.length = (shapeW 0x40201).m * (shapeW 0x40201).k ∧ c.latB.length = (shapeW 0x40201).k * (shapeW 0x40201).n) := by decide +kernel

theorem wit_ArrayResults_rules : (Machine.Num.fin true 3 0).IsFinite ∧ ((Machine.Num.inf true).isNan = false ∧ (Machine.Num.inf true).isInf = true ∧ (Machine.Num.inf true).isZero = false ∧
      (Machine.Num.fin false 1 0).isZero = false ∧ xor (Machine.Num.inf true).sign (Machine.Num.fin false 1 0).sign = true) ∧
    (([] : List (Option (Machine.Num × Machine.Num))).length % 32 = 0 ∧ 1 ≤ [some (Machine.Num.fin false 1 0, Machine.Num.fin true 1 0)].length) ∧
    ([(1, 0), (2, 0), (3, 0), (4, 0)] : List Coded).length = 2 ^ 2 ∧ (numEq (ff32.read 0x3F800000) (ff32.read 0) = false ∧ (0x3F800000 : Nat) ≠ 0xFF800000) ∧
    numEq (ff32.read 0) (ff32.read 0x80000000) = true ∧ (ff32.read 0x7FC00000).isNan = true := by simp [Machine.Num.IsFinite]; decide +kernel

theorem wit_ArrayResults_moves : (∀ i ∈ [Instr.zld (xa .fp32 .fp32 .fp32 (.t 0) (.t 0) (.z 1)), .zst (xa .fp32 .fp32 .bf16 (.z 1) (.t 0) (.t 1)),
      .trans (xa .fp32 .fp32 .fp32 (.t 0) (.t 0) (.t 1)), .rowred (xa .fp32 .fp32 .fp32 (.t 0) (.t 0) (.t 1)), .colred (xa .fp32 .fp32 .fp32 (.t 0) (.t 0) (.t 1)),
      .softrow (xa .fp32 .fp32 .fp32 (.t 0) (.z 1) (.t 1)), .merge (xa .fp32 .fp32 .fp32 (.z 0) (.z 1) (.z 2)), .topk (xa .fp32 .fp32 .fp64 (.t 0) (.t 0) (.t 1)),
      .window (xa .int8 .int8 .int8 (.pair 2 false) (.t 0) (.t 1))], (thr i).pa.prog = none ∧ (thr i).pd.prog = none) ∧
    (shapeW 0x40201).k ≤ (shapeW 0x40201).n ∧ (let w := shapeW (4 + 4 * 2 ^ 9 + 4 * 2 ^ 18); w.k % 4 = 0 ∧ w.n % 4 = 0 ∧ w.k ≤ 256 ∧ w.n ≤ 256) := by decide +kernel

/-- A 2 by 2 tile, both of its diagonal elements positive, and one with a zero pivot. -/
def fac (a b c d : Nat) : Fac := ⟨[[a, b], [c, d]], [], List.replicate 256 0, 0, 0, 0, 0, []⟩

theorem wit_ArrayResults_steps : (fac 0x40000000 0x3F800000 0x3F800000 0x40000000).a.length = 2 ∧ (fac 0 0 0 0).perm.length = 256 ∧
    (∀ i < 2, ((fac 1 2 3 4).a.getD i []).length = 2 ∧ ∀ j < 2, tileAt (fac 1 2 3 4).a i j < 2 ^ 32) ∧
    numLt (ff64.read (0 : Word).toNat) (ff32.read 0x40000000).abs = true ∧ numLt (ff64.read (0 : Word).toNat) (ff32.read 0).abs = false ∧
    numLt Machine.Num.zero (ff32.read 0x40000000) = true ∧ numLt Machine.Num.zero (ff32.read 0x80000000) = false ∧ (ff32.read 0).isZero = true ∧ (ff32.read 0x3F800000).isZero = false := by
  decide +kernel

theorem wit_ArrayResults_factor : (let t := thrW (.lup { xa .fp32 .fp32 .fp32 (.t 0) (.t 0) (.z 1) with sh := 1 }) 0x80202
     (shapeW t.sh).m ≤ 256 ∧ (shapeW t.sh).n ≤ 256 ∧ wbits parted.core.arch.fprog 17 16 = 0) ∧
    wbits (0x60010001 : Word) 17 16 = 1 ∧ wbits (0x60010001 : Word) 31 26 = 0x18 ∧ wbits (0x60010001 : Word) 8 0 < 2 ∧ wbits (0x60010002 : Word) 8 0 = 2 ∧
    wbits (0x60020000 : Word) 17 16 = 2 := by decide +kernel

/-- COPY from the pair in S2 to address [S1]. -/
def cpy : CArgs := ⟨o0, false, true, 1, 2, 4, 0, 0⟩

/-- GATHER between two pairs with an empty shape slot. -/
def cpp : CArgs := ⟨o0, true, true, 2, 4, 4, 2, 0⟩

/-- A one-element shape in slot 4. -/
def withH : State := regs (withS paired 1 0x1000) (fun a => { a with h := a.h.set 4 (parseShape (shaped.hldRecord 1 0)) })

/-- A shape of no box in slot 4. -/
def withE : State := regs withH (fun a => { a with h := a.h.set 4 ((a.h[4]).map (fun h => { h with box := h.box.set 0 0 })) })

theorem wit_CSlotForks_idle : withE.faultC (.copy cpy) = none ∧ (withE.core.src.h[cpy.hs.val]).any (fun h => h.box[0] == 0) = true ∧
    (withH.core.src.h[cpy.hs.val]).any (fun h => decide (∀ d : Fin 5, h.box[d.val] ≠ 0)) = true ∧
    (let c : CArgs := ⟨o0, false, true, 1, 2, 4, 6, 0⟩
     let s := withS (withS (withS withH 6 0x1000) 7 0) 8 0x1000
     s.faultC (.gather c) = none ∧ c.cr.val ≤ 13 ∧ (s.rs 6).toNat % 4 = 0 ∧ wbits (s.rs 7) 31 0 = 0 ∧ (s.rs 8).toNat % 4 = 0) :=
  by decide +kernel

theorem wit_CSlotForks : withH.faultC (.copy cpy) = none ∧ (withS paired 1 0x1000).faultC (.gather cpp) = some ⟨3, Cause.shapeBad, 0, 0, none⟩ ∧
    (cpp.dk = true ∧ cpp.sk = true ∧ (withS paired 1 0x1000).core.src.h[cpp.hs.val] = none) := by decide +kernel

/-- A queued copy of the shape in slot 4. -/
def copying (i : Instr) : Thread := { withH.bareThread i o0 0 with shape := withH.core.src.h[4], oa := (0, 1024), od := (0x1000, 0) }

theorem wit_CSlotForks_copies : (let t := copying (.copy cpy)
     let s := withC withH (fun c => { c with threads := [t], cnt := c.cnt.set 0 1 })
     (t.shape.any (fun h => !h.nothing && !h.ragged) = true ∧ t.cr.2.1.getLsbD 63 = false ∧ (2 ^ 63 : Word).getLsbD 63 = true) ∧
     s.core.threads.find? (fun y => y.id == t.id) = some t ∧ t.phase = .queued ∧ t.coll = none ∧ t.vals = [] ∧ t.landed = 0 ∧ t.sched = false ∧ t.pk.prog = none ∧
     s.core.forkBlocked t = false ∧ (∀ y ∈ s.core.threads, t.id ≤ y.id) ∧
     (t.shape.any (fun h => okIs (s.copyEls t.reader t.ins cpy t.cr h) [⟨0, ⟨0, [0, 0, 0, 0, 0]⟩, some 0⟩] &&
       s.core.padBlocked t.reader ((pairOf t.oa).elemAt h ⟨0, [0, 0, 0, 0, 0]⟩) h.unit == false) = true)) ∧
    (let c : CArgs := ⟨o0, false, true, 1, 2, 4, 6, 0⟩
     let r : Reader := (copying (.gather c)).reader
     c.cr.val ≤ 13 ∧ (1 : Nat) ≤ 65536 ∧ (0x1000 : Word).toNat % 4 = 0 ∧ okIs (g1.engWord r 0x1000) 0 = true ∧
     (wbits 0x1000 63 56 ≠ 0xF9 ∧ okIs (base.window base.core 0x1000 4) (.mem 0x1000) = true ∧
      okIs (base.partsAt (base.asidOf base.core) 0x1000 4 .read) [prt 0x11000 4] = true ∧ base.core.readBlocked r (prt 0x11000 4) = false ∧
      base.noRoute base.core 0x11000 = false ∧ base.core.ahead = [] ∧ base.farMissing r.uid [prt 0x11000 4] = [])) := by decide +kernel

theorem wit_ScaleRegisters : ((64 : Nat) % 64 = 0 ∧ 64 < base.core.scratchSize ∧ base.core.lineView (64 / 128) ≠ .pois ∧ base.core.padSpoilt 64 64 = false) ∧ (32 : Nat) % 64 ≠ 0 ∧
    (base.core.scratchSize % 64 = 0 ∧ base.core.scratchSize ≤ base.core.scratchSize) ∧
    (let s := withC base (fun c => { c with lines := [(0, .pois)] }); s.core.lineView (0 / 128) = .pois ∧ s.core.linkOf (0 / 128) = none ∧ s.core.lineBad (0 / 128) = false) ∧
    (let s := withC base (fun c => { c with badPool := [c.scratchBase / 32] }); s.core.lineView (0 / 128) ≠ .pois ∧ s.core.padSpoilt 0 64 = true ∧ 0 < s.core.scratchSize) ∧
    (regs base (fun a => { a with gpend := a.gpend.set 2 (some ([7], 0)) })).core.arch.gpend[(2 : GReg).val] = some ([7], 0) ∧
    base.core.arch.gpend[(2 : GReg).val] = none := by decide +kernel


/-- The core has these threads, each counted on stream 0. -/
def threaded (s : State) (ts : List Thread) : State := withC s (fun c => { c with threads := ts, cnt := c.cnt.set 0 ts.length })

/-- An emulated FP64 product on Scenil 224L. -/
def emu : State := { threaded parted [thr (.mma { mm with fa := .fp64, fb := .fp64, fd := .fp64 })] with grade := .g224L }

/-- A sector that ends a line of the own scratchpad, and one for memory. -/
def jobS : Job := ⟨.scratch 0x60, [(0, 1), (31, 2)], [(0, true)], false⟩
def jobM : Job := ⟨.addr 0x1000, [(0, 1), (31, 2)], [], false⟩

/-- What a thread with nothing to report leaves. -/
def noRes : EngRes := ⟨[], [], none, none, 0, none, [], 0, none⟩

/-- A running copy with sectors left. -/
def running (js : List Job) : Thread := { thr (.copy cpy) with phase := .running, jobs := js, res := some noRes }

theorem wit_EngineThreads_start : base.core.nextX = none ∧ (threaded parted [thr (.mma mm)]).core.nextX = some (thr (.mma mm)) ∧
    (threaded parted [thr (.mma mm)]).emulated (.mma mm) = false ∧ (threaded parted [thr (.mma mm)]).core.xBad (thr (.mma mm)) = false ∧ isFact (.mma mm) = false ∧
    emu.core.nextX.any (fun t => emu.emulated t.ins && !emu.core.xBad t) = true ∧ emu.others = [] ∧
    (let s := withC (threaded parted [thr (.mma mm)]) (fun c => { c with badPool := [0] })
     s.core.nextX = some (thr (.mma mm)) ∧ s.core.xBad (thr (.mma mm)) = true) ∧
    (let t := thrW (.lup { xa .fp32 .fp32 .fp32 (.t 0) (.t 0) (.z 1) with sh := 1 }) 0x80202
     (threaded parted [t]).core.nextX = some t ∧ isFact t.ins = true ∧ (threaded parted [t]).core.xBad t = false ∧ (threaded parted [t]).emulated t.ins = false) := by
  decide +kernel

theorem wit_EngineThreads_lands : (∀ j ∈ [jobS, jobM], (j.bytes.map Prod.fst).Nodup ∧ (∀ b ∈ j.bytes, b.1 < 32) ∧
      (threaded base [running [j]]).core.threads.find? (fun y => y.id == (running [j]).id) = some (running [j]) ∧ (running [j]).phase = .running ∧
      (running [j]).jobs = j :: []) ∧ base.window base.core 0x1000 32 = .ok (.mem 0x1000) ∧
    base.partsAt (base.asidOf base.core) 0x1000 32 .write = .ok [prt 0x11000 32] ∧
    (let s := threaded base [running [jobM]]
     s.core.landBlocked (running [jobM]) (prt 0x11000 32) false = false ∧ s.noRoute s.core 0x11000 = false ∧ s.troyOf s.core = none) ∧
    (∀ b : Bool, let s := withC (threaded base [{ running [jobS] with id := 9 }]) (fun c => { c with loads := if b then [ld1] else [] })
     s.core.landBlocked { running [jobS] with id := 9 } peerPart true = b) ∧
    (∀ k < 32, base.region (0x11000 + k) = .dram 0 (0x11000 + k)) ∧ (∀ c, Instr.copy cpy ≠ .mbox c) :=
  ⟨by decide +kernel, ok_of (by decide +kernel), ok_of (by decide +kernel), by decide +kernel, by decide +kernel, by decide +kernel, nofun⟩

theorem wit_EngineThreads_completes : (running []).jobs = [] ∧ (running []).res = some noRes ∧ (threaded base [running []]).unfinished (running []) = false ∧
    (threaded base [running []]).core.threads.find? (fun y => y.id == (running []).id) = some (running []) ∧ noRes.flt = none ∧
    (∀ p ∈ (threaded base [running []]).core.plinks, p.2 ≠ (running []).recIx) ∧
    (let f : EngFault := ⟨Cause.elemNan, 0, 0⟩
     ({ noRes with flt := some f }).flt = some f) ∧
    assoc (withC base (fun c => { c with recs := [(0, ⟨0, 0, [], [], none, false⟩)] })).core.recs 0 = some ⟨0, 0, [], [], none, false⟩ ∧
    (let t := thr (.stage o0)
     let s := threaded base [t]
     s.core.threads.find? (fun y => y.id == t.id) = some t ∧ t.phase = .queued ∧ s.core.forkBlocked t = false ∧
     (s.launchOf s.core).any (fun l => l.sched == [] && s.launches.all (fun y => y == l)) = true) := by decide +kernel

/-- FPROG is HELD: a factorisation is turned away, poisoned data or not. -/
theorem wit_EngineThreads_turned : (let t := thrW (.lup { xa .fp32 .fp32 .fp32 (.t 0) (.t 0) (.z 1) with sh := 1 }) 0x80202
    let s := regs (withC (threaded parted [t]) (fun c => { c with badPool := [0] })) (fun a => { a with fprog := 0x20000 })
    s.core.nextX = some t ∧ isFact t.ins = true ∧ s.emulated t.ins = false ∧ 2 ≤ wbits s.core.arch.fprog 17 16) := by decide +kernel

/-- A participant's values of a two-element sum. -/
def part (k : Nat) (vs : List Nat) : CollPart :=
  ⟨k, 5, k, .areduce .sum cpy, ⟨.int8, 0, 1, false, Vector.replicate 5 1, Vector.replicate 5 0, Vector.replicate 5 1, 0⟩, vs, vs.map (fun _ => false), none⟩

/-- A SYS-scope sum of a launch that a group entry joins to package 1 (R370). -/
def joined : State :=
  { base with mem := base.mem.put 0x30000 [0, 0, 1, 0], ox := { base.ox with groups := [(0, ⟨0x200000001, 0, 0x30000, 0⟩)] },
              colls := [⟨base.core.ctx, 0, .sys, 0, [part 0 [1, 2]]⟩] }
/-- A reduce flit of package 1 with the values 3 and 4 has come. -/
def joinedIn : State := { joined with ox := { joined.ox with reds := [(1, 0, 0, [⟨[3, 4] ++ List.replicate 30 0, false⟩])] } }
/-- What package 1 contributes. -/
def afar (vs : List Nat) : FarPart := ⟨1, 0, some .sum, .int8, Vector.replicate 5 1, vs, vs.map (fun _ => false), none, 1, false, [0, 1]⟩

theorem test_far_sum : (collValues (orderParts 0 [part 0 [1, 2]] [afar [3, 127]])).1 = [(4, false), (127, false)] := by decide +kernel
theorem test_far_waits : (match exec (.collectiveInstanceReady .sys 0 []) joined with | .next t => t == joined | _ => false) = true := by decide +kernel
theorem test_far_ends : (match exec (.collectiveInstanceReady .sys 0 [afar [3, 4]]) joinedIn with | .next t => t.colls == [] && t.ox.reds == [] | _ => false) = true := by
  decide +kernel

theorem test_corrected_error : (base.strike (.corrected 1 2)).regRead 0x21 16 = 1 := by decide +kernel
theorem test_memory_error : (let s := base.strike (.memory 64 0x11000)
    (s.regRead 0x20 (8 * 64) == 0x100000000) && s.isPoison 0x11000 32 && ((s.dispQueues[0]).fatal.recs.map LaneRec.cause == [Cause.memUe])) = true := by
  decide +kernel

theorem wit_Collectives : (base.collOf .core 0).parts = [] ∧
    (let s : State := { base with colls := [⟨base.core.ctx, 0, .core, 0, [part 0 [1, 2]]⟩] }
     (s.collOf .core 0).parts ≠ [] ∧ s.sharers .core ≤ (s.collOf .core 0).parts.length ∧ s.otherPkgs .core = []) ∧
    (joinedIn.collOf .sys 0).parts ≠ [] ∧ joinedIn.sharers .sys ≤ (joinedIn.collOf .sys 0).parts.length ∧ joinedIn.otherPkgs .sys = [1] ∧
    (afar [3, 4]).pkg = 1 ∧ joinedIn.farCame .sys (joinedIn.collOf .sys 0).parts [afar [3, 4]] = true ∧
    joined.farCame .sys (joined.collOf .sys 0).parts [afar [3, 4]] = false ∧ joinedIn.farCame .sys (joinedIn.collOf .sys 0).parts [afar [3, 5]] = false ∧
    ((part 0 [1, 2]).ins = .areduce .sum cpy ∧ (part 0 [1, 2]).shape.fmt = .int8 ∧ ([part 1 [255, 127]] : List CollPart).length < 256 ∧
      (∀ q ∈ [part 0 [1, 2], part 1 [255, 127]], q.vals.length = 2)) := by decide +kernel

/-- A collective's thread whose destination is the pair in S2. -/
def collThr : Thread := { running [] with ins := .areduce .sum { cpy with dk := true, sk := true }, shape := withH.core.src.h[4], od := (0, 1024), coll := some (.core, 0), res := none }

theorem wit_Collectives_delivers : (let s := threaded withH [collThr]
     s.core.threads.find? (fun y => y.id == (part 0 [1]).thread) = none ∧ s.core.threads.find? (fun y => y.id == collThr.id) = some collThr ∧
     collThr.shape.isSome = true ∧ (cArgs collThr.ins).any (fun c => c.dk) = true ∧ (part 0 [1]).core = s.core.id ∧
     (match collThr.shape, cArgs collThr.ins with
      | some h, some c => (match s.copyEls ⟨collThr.id, none⟩ collThr.ins c collThr.cr h with | .ok els => els.length == 1 | .error _ => false)
      | _, _ => false) = true) ∧
    (let p : CollPart := { part 0 [1, 2] with ins := .bcast cpy }
     p.ins = .bcast cpy) := by decide +kernel

theorem wit_Collectives_dest : ∀ vs, (joined.focus (part 0 [1, 2]).core).destStop ((joined.focus (part 0 [1, 2]).core).collJobs (part 0 [1, 2]) vs) = none := fun _ => rfl

/-- A bundle whose LDT consumes nothing waits: its pair's lines are EMPTY. -/
def ldtB : Bundle := ⟨false, 0, false, none, some (.ldt .fp32 0 (.pair 2) false o0), none, none, none⟩

/-- That bundle at the PC, LINEWAIT and the stall at `k` and `n`. -/
def stalled (k : Word) (n : Nat) : State :=
  let s := regs paired (fun a => { a with linewait := k })
  withC { s with mem := s.mem.put 0x10000 (natLE 32 (encodeBundle ldtB)) } (fun c => { c with stall := n })

theorem wit_WholeBundleFaults : (regs base (fun a => { a with pc := 0xFF00000000000000 })).fetch = .error Cause.windowBad ∧ base.fetch = .ok 0 ∧
    (State.reset.placeBundle (2 ^ 240)).fetch = .ok (2 ^ 240) ∧ decodeBundle (2 ^ 240) = .error (0x1F : BitVec 5).toNat :=
  ⟨err_of (by decide +kernel), ok_of (by decide +kernel), ok_of (by decide +kernel), rfl⟩

/-- A home that no route leads to: the leaf of page 0 names memory of die 1. -/
def routeless : State := let s : State := { base with dies := base.dies.set 1 { base.dies[1] with dieok := true } }
  { s with mem := s.mem.put 0x5000 (leBytes 8 (Config.dieBytes + 3 + 7 * 2 ^ 53)) }

theorem wit_WholeBundleFaults_route : (match routeless.fetch, routeless.translate (routeless.asidOf routeless.core) routeless.core.arch.pc.toNat .fetch with
    | .error _, .ok p => routeless.noRoute routeless.core p.pa
    | _, _ => false) = true := by decide +kernel

/-- The tables of the context lie on a die that no route leads to. -/
def tableless : State := { base with
  dies := base.dies.set 1 { base.dies[1] with dieok := true }, tlb := [], descs := [(1, ⟨Config.dieBytes / 4096 + 1, 0, 16⟩)] }

theorem wit_WholeBundleFaults_walk : (∀ b : Bool, let s := if b then tableless else regs base (fun a => { a with pc := 0x10000 })
    (match s.fetch, s.translate (s.asidOf s.core) s.core.arch.pc.toNat .fetch with | .error _, .error _ => true | _, _ => false) = true ∧
    wbits s.core.arch.pc 63 57 = 0 ∧ okIs (s.window s.core s.core.arch.pc 1) (.mem s.core.arch.pc.toNat) = true ∧
    ((s.walkLost (s.asidOf s.core) s.core.arch.pc.toNat).or (s.walkLost (s.asidOf s.core) (s.core.arch.pc.toNat + 127))).isSome = b) := by decide +kernel

theorem wit_WholeBundleFaults_stall : (stalled 5 5).core.status = .running ∧ (stalled 5 5).bundleHere = some ldtB ∧
    ((stalled 5 5).ready ldtB).plan ldtB = .lines [(1, 1)] ∧ (stalled 5 5).core.arch.linewait ≠ 0 ∧
    (stalled 5 5).core.arch.linewait.toNat ≤ (stalled 5 5).core.stall ∧ (stalled 5 4).core.stall < (stalled 5 4).core.arch.linewait.toNat ∧
    (stalled 0 4).core.arch.linewait = 0 ∧ ((stalled 5 4).core.watching = none ∧ (stalled 5 4).ownClk (stalled 5 4).core = true ∧
      ((stalled 5 4).ready ldtB).core.stopsHere = false ∧ ((stalled 5 4).ready ldtB).core.watching = none) ∧
    (let s : State := { base with power := { base.power with factor := [((0, some 0), 8)] } }
     s.core.status = .running ∧ s.core.watching = none ∧ s.ownClk s.core = false) ∧
    (base.bundleHere.any (fun b => decide ((base.ready b).core.stopsHere = false ∧ (base.ready b).core.watching = none ∧ (base.ready b).plan b = .go)) = true ∧
      base.core.watching = none ∧ base.ownClk base.core = true) := by decide +kernel

/-- The faults of a bundle whose M slot names an absent page. -/
def absent : List SlotFault := [⟨1, Cause.pageAbsent, 0x5000, 0, none⟩]

/-- The core waits for the verdict of ticket 9. -/
def ticketed : State := withC base (fun c => { c with status := .replay 9 absent })

/-- A thread waits for it. -/
def tickThr : Thread := { running [jobM] with phase := .replay 9 Cause.pageAbsent 0x1000 }

/-- A lane record. -/
def lrec : LaneRec := ⟨3, 0, 0, 1, 0, 0, 0, 0, 0, 0, 0, 0, 1, 0, 0, 0⟩

/-- The replay queue of the core's context holds one record. -/
def queued (s : State) : State := s.onCtxQ s.core.ctx (fun q => { q with replay := q.replay.push replayCap lrec })

theorem wit_ReplayVerdicts : base.ticketOf 0 9 = none ∧ (ticketed.ticketOf 0 9 = some (ticketed.core.id, none) ∧ ticketed.core.status = .replay 9 absent ∧
      (∀ f ∈ absent, isReplayable f.cause = true ∧ f.slot < 5 ∧ ∀ g ∈ absent, g = f ∨ f.slot < g.slot)) ∧
    (let s := threaded base [tickThr]
     s.ticketOf 0 9 = some (s.core.id, some tickThr.id) ∧ s.core.threads.find? (fun y => y.id == tickThr.id) = some tickThr ∧ tickThr.jobs ≠ [] ∧
     isFatal Cause.pageAbsent = false ∧ Cause.pageAbsent ≠ Cause.memUe) ∧
    tickThr.coll = none ∧
    (let t : Thread := { tickThr with coll := some (.core, 0) }
     (threaded base [t]).ticketOf 0 9 = some (base.core.id, some t.id) ∧ t.coll = some (.core, 0) ∧ t.jobs ≠ []) ∧
    (let t : Thread := { tickThr with jobs := [], coll := some (.core, 0) }
     (threaded base [t]).ticketOf 0 9 = some (base.core.id, some t.id) ∧ t.coll = some (.core, 0) ∧ t.jobs = []) ∧
    (let q := ((queued base).ctxQ base.core.ctx).replay
     q.recs = [lrec] ∧ 0 < q.count ∧ q.count ≤ q.ring.length ∧ q.ring.length ≤ 256) ∧ (queued base).core.threads = [] ∧
    ((base.ctxQ base.core.ctx).replay.count = 0 ∧ base.core.status = .running) ∧
    (withC (queued base) (fun c => { c with status := .waitRoom absent })).core.status = .waitRoom absent := by
  decide +kernel

/-- The bytes of a record of one task on core 1, class 0, entry 0. -/
def recBytes : List Byte := natLE 8 (2 ^ 48 + 2 ^ 8) ++ natLE 8 0 ++ natLE 8 (1 + 2 ^ 16) ++ natLE 104 0

/-- Stream 0 of die 0 runs and names that record at 0x1000, at most one record ahead. -/
def fed (bs : List Byte) : State := { base with
  mem := base.mem.put 0x11000 bs,
  disp := base.disp.set 0 { Disp.init with streams := Disp.init.streams.set 0 ⟨true, 0x1000, 1⟩, adoptas := 1 } }

theorem wit_LaunchRecords : (State.reset.disp[0].streams[0]).run = false ∧ (fed recBytes).booted = true ∧ (fed recBytes).inReset = false ∧
    ((fed recBytes).disp[0].streams[0]).run = true ∧ ((fed recBytes).disp[0].streams[0]).csb ≠ 0 ∧
    (∃ bs, (fed recBytes).readG 0 1 0x1000 128 = .ok bs ∧ decide (bs = recBytes) = true) ∧
    ((fed recBytes).launches.filter (fun l => decide (l.die = 0 ∧ l.stream = some 0) && l.unstarted)).length < 16 ∧
    (parseLRec recBytes).serial = false ∧ (fed recBytes).checkRec 0 (parseLRec recBytes) false = .ok [1] [] [] [] ∧
    (fed recBytes).checkRec 0 { parseLRec recBytes with entry := 1 } false = .reject 0x11 ∧
    ((fed recBytes).missRecord 0 1 0x1000 false = [] ∧ (fed recBytes).reading (.event (.launchRecordRead 0 0)) = false) :=
  ⟨by decide +kernel, by decide +kernel, by decide +kernel, by decide +kernel, by decide +kernel, ok_ex _ (by decide +kernel), by decide +kernel, by decide +kernel,
    by decide +kernel, by decide +kernel, by decide +kernel⟩

/-- The page at 0x10000 of ASID 1 lies in package 4, and stream 0 of die 0 and a mailbox name a record there. -/
def farFed : State :=
  let s := reaching (fed recBytes)
  { s with
    mem := s.mem.put 0x5008 (leBytes 8 (2 ^ 51 + 4 * 2 ^ 40 + 0x10003 + 7 * 2 ^ 53)),
    mboxes := [⟨0x12000, 1, 0x11000, 0, [⟨[7], parseLRec [], .far, 0, 0, 0, 0, none, none, false⟩], []⟩],
    disp := s.disp.set 0 { s.disp[0] with streams := Disp.init.streams.set 0 ⟨true, 0x11000, 1⟩ } }

theorem wit_LaunchRecords_far : farFed.missRecord 0 1 0x11000 false = [farPa, farPa + 32, farPa + 64, farPa + 96] ∧
    (∀ i ∈ [Instr.launchRecordRead 0 0, .handlerLaunchStart 0x12000], farFed.reading (.event i) = false ∧
      ({ farFed with ox := { farFed.ox with waits := [⟨3, 0, .event i⟩] } } : State).reading (.event i) = true) ∧
    farFed.booted = true ∧ farFed.inReset = false ∧ farFed.ox.asks = [] ∧ farFed.ox.got = [] ∧
    farFed.mboxes.any (fun b => b.turned == [] && b.queue.map Mail.adm == [.far]) = true ∧
    (let s := farFed
     let b : Mailbox := ⟨0x12000, 1, 0x1000, 0, [⟨[7], parseLRec [], .far, 0, 0, 0, 0, none, none, false⟩], []⟩
     ({ s with mboxes := [b] } : State).missRecord b.die b.asid b.lrec false = [] ∧
     okIs (({ s with mboxes := [b] } : State).readG b.die b.asid b.lrec 128) recBytes = true ∧
     ({ s with mboxes := [b] } : State).checkRec b.die (parseLRec recBytes) false = .ok [1] [] [] []) := by decide +kernel

/-- A message whose handler's record is that one, or one that is rejected. -/
def mail (bad : Bool) : Mail := ⟨[7], { parseLRec recBytes with serial := bad }, if bad then .reject 0x11 else .ok [1] [] [] [], 5, 0, 0, 0, none, none, false⟩

/-- A mailbox with some messages. -/
def mailed (q : List Mail) : State := { fed recBytes with mboxes := [⟨0x12000, 1, 0x1000, 0, q, []⟩] }

/-- A launch that handles a message of that mailbox. -/
def handling (x : SlotSt) : Launch := dl 7 (fun l => { l with handler := some (0x12000, [7], false), slots := [x] })

theorem wit_LaunchRecords_handler : (∀ q ∈ [[], [mail false], [mail true]], (mailed q).mboxes.find? (fun x => x.pa == 0x12000) = some ⟨0x12000, 1, 0x1000, 0, q, []⟩ ∧
      (mailed q).launches.all (fun l => l.handler.isNone) = true ∧ (mailed q).booted = true ∧ (mailed q).inReset = false) ∧
    (mail false).adm = .ok [1] [] [] [] ∧ (mail true).adm = .reject 0x11 ∧ (mail true).lr.done = 0 ∧ (mail false).lr.serial = false ∧ (mail true).lr.serial = true ∧
    (handling (.waiting 0)).unstarted = true ∧ (handling (.running 0)).unstarted = false ∧ (handling (.running 0)).handler = some (0x12000, [7], false) ∧
    (mailed []).mailEarly (mail false) = false ∧
    (let msg : Mail := { mail false with thread := some (0, 7) }
     (threaded (mailed [msg]) [{ thr (.stage o0) with id := 7 }]).mailEarly msg = true) ∧
    (let s : State := { fed recBytes with mboxes := [⟨0x12000, 1, 0x1000, 0, [], [mail true]⟩] }
     s.mboxes.find? (fun x => x.pa == 0x12000) = some ⟨0x12000, 1, 0x1000, 0, [], [mail true]⟩ ∧ s.booted = true ∧ s.inReset = false) := by decide +kernel

/-- A record with SERIAL set, or whose rejection has an address for its word. -/
def recOf (serial : Bool) (done : Nat) : LRec := { parseLRec recBytes with serial := serial, done := BitVec.ofNat 64 done }

theorem wit_LaunchRecords_refused : (recOf false 0x1000).done ≠ 0 ∧ (0x1000 : Word).toNat % 8 = 0 ∧ wbits (0x1000 : Word) 63 57 = 0 ∧
    (match (fed recBytes).partsAt 1 0x1000 8 .write with | .ok ps => ps == [prt 0x11000 8] | .error _ => false) = true ∧ (prt 0x11000 8).n = 8 ∧
    (prt 0x11000 8).pa % 32 ≤ 24 ∧ (fed recBytes).region 0x11000 = .dram 0 0x11000 ∧ (fed recBytes).noRouteAt 0 (prt 0x11000 8).pa = false ∧ (recOf true 0).serial = true ∧
    (let s : State := { fed recBytes with launches := [dl 7 (fun l => { l with stream := some 0 })] }
     s.launches.any (fun l => l.die == 0 && l.stream == some 0) = true) ∧
    (match ({ fed recBytes with disp := (fed recBytes).disp.set 0 { (fed recBytes).disp[0] with streams := Disp.init.streams.set 0 ⟨true, 2 ^ 60, 1⟩ } } : State).readG 0 1 (2 ^ 60) 128 with
     | .error _ => true | .ok _ => false) = true := by decide +kernel

/-- The bytes of a record to be adopted: its save lies in firmware-reserved memory, where a save of ASID 1 is complete. -/
def adoptBytes : List Byte := natLE 8 (2 ^ 48 + 2 ^ 8) ++ natLE 8 0 ++ natLE 8 (1 + 2 ^ 16) ++ natLE 56 0 ++ natLE 8 (Config.reservedBase + 2 ^ 24) ++ natLE 40 0

def adoptable : State := let s := fed adoptBytes; { s with mem := s.mem.put (Config.reservedBase + 2 ^ 24 + 0x100) (natLE 8 (1 + 2 ^ 32)) }

theorem wit_LaunchRecords_adopt : adoptable.booted = true ∧ adoptable.inReset = false ∧
    (let q : State := { adoptable with disp := adoptable.disp.set 0 { adoptable.disp[0] with adopt := 0x1000 } }
     (∃ bs, q.readG 0 (adoptable.disp[0]).adoptas.toNat 0x1000 128 = .ok bs ∧ decide (bs = adoptBytes) = true) ∧
     q.checkRec 0 (parseLRec adoptBytes) true = .ok [1] [] [] [] ∧ q.missRecord 0 (adoptable.disp[0]).adoptas.toNat 0x1000 true = [] ∧ adoptable.ox.again = none) :=
  ⟨by decide +kernel, by decide +kernel, ok_ex _ (by decide +kernel), by decide +kernel⟩


/-- No core runs a task; these launches are there. -/
def freeWith (ls : List Launch) (s : State) : State := { s with launches := ls, core := s.core.freed }

/-- A CONCURRENT launch of one task on core 0, with barriers. -/
def conc (barm : BitVec 16) (x : SlotSt) : Launch := dl 7 (fun l => { l with slots := [x], lr := { l.lr with cls := 2, barm := barm } })

/-- A WEAK launch of one task on core 0. -/
def weak (x : SlotSt) : Launch := dl 7 (fun l => { l with slots := [x] })

theorem wit_TasksRunAndEnd : (base.settle.launch 7).isNone = true ∧ base.launch 7 = none ∧
    (let q := (freeWith [conc 0 (.waiting 0)] base).settle
     q.launch 7 = some (conc 0 (.waiting 0)) ∧ (conc 0 (.waiting 0)).status = .running ∧ (conc 0 (.waiting 0)).lr.cls = 2 ∧
     (conc 0 (.waiting 0)).nextCore = some 0 ∧ q.granted (conc 0 (.waiting 0)) 0 = true) ∧
    (let q := (freeWith [conc 8 (.reserved 0)] base).settle
     (conc 8 (.reserved 0)).nextCore = none ∧ (q.barsOf (conc 8 (.reserved 0))).find? (fun b => !q.barHeld 7 b) = some (0, 3) ∧ q.barBusy 7 (0, 3) = false ∧
     (conc 8 (.reserved 0)).unstarted = true) ∧
    (let q := (freeWith [conc 0 (.reserved 0)] base).settle
     q.launch 7 = some (conc 0 (.reserved 0)) ∧ (conc 0 (.reserved 0)).sched = [] ∧ (conc 0 (.reserved 0)).slots[0]? = some (.reserved 0) ∧
     (∀ b ∈ q.barsOf (conc 0 (.reserved 0)), q.barHeld 7 b = true)) ∧
    (let q := (freeWith [weak (.waiting 0)] base).settle
     q.launch 7 = some (weak (.waiting 0)) ∧ (weak (.waiting 0)).lr.cls ≠ 2 ∧ (weak (.waiting 0)).slots[0]? = some (.waiting 0) ∧
     q.granted (weak (.waiting 0)) ((weak (.waiting 0)).cores.getD 0 256) = true ∧ (weak (.waiting 0)).sched = []) := by decide +kernel

/-- What stream 0 carries on core 0 lies in a light block at 0x8000. -/
def carriedBlock : Carried := ⟨0, 0, 0, Vector.replicate 8 0, Vector.replicate 8 0, some 0x8000, 0x8000, 0, 0⟩

theorem wit_TasksRunAndEnd_lost : ∀ bad : Bool, let x : Launch := { weak (.waiting 0) with stream := some 0 }
    let q := ({ freeWith [x] base with carried := [carriedBlock], poison := if bad then [0x8000 / 32] else [] } : State).settle
    q.launch 7 = some x ∧ x.slots[0]? = some (.waiting 0) ∧ q.granted x (x.cores.getD 0 256) = true ∧ x.sched = [] ∧ x.stream = some 0 ∧
    ((q.wipeTlb (q.physical 0) 7).passCore 0 (some (x.die, 0))).carriedLost x.die 0 0 = bad := by decide +kernel

theorem wit_TasksRunAndEnd_dropped : (let l : Launch := { weak .gone with dropped := true }
     (freeWith [l] base).launch 7 = some l ∧ (freeWith [l] base).allOver l = true ∧ l.status = .running ∧ l.dropped = true) := by decide +kernel

/-- A failed launch whose completion word is at 0x1000. -/
def lost : Launch := { weak .gone with status := .failed, lr := { (weak .gone).lr with done := 0x1000 } }

theorem wit_TasksRunAndEnd_complete : (freeWith [lost] base).launch 7 = some lost ∧ lost.status = .failed ∧ lost.lr.done ≠ 0 ∧ lost.lr.done.toNat % 8 = 0 ∧
    wbits lost.lr.done 63 57 = 0 ∧ (freeWith [lost] base).partsAt lost.lr.asid lost.lr.done.toNat 8 .write = .ok [prt 0x11000 8] ∧ (prt 0x11000 8).pa % 32 ≤ 24 ∧
    ((freeWith [lost] base).region 0x11000 = .dram 0 0x11000 ∧ (freeWith [lost] base).noRouteAt lost.die (prt 0x11000 8).pa = false) ∧ (freeWith [weak .gone] base).allOver (weak .gone) = true ∧
    (freeWith [weak (.waiting 0)] base).allOver (weak (.waiting 0)) = false :=
  ⟨by decide +kernel, by decide +kernel, by decide +kernel, by decide +kernel, by decide +kernel, ok_of (by decide +kernel), by decide +kernel, by decide +kernel,
    by decide +kernel, by decide +kernel⟩

/-- A launch of class 1 whose task waits for core 0, with its deadline at `d`. -/
def late (d : Word) : Launch := dl 7 (fun l => { l with slots := [.waiting 0], eff := 1, waited := 0x1000000, lr := { l.lr with deadline := d } })

/-- It waits while a task of class 2 runs. -/
def pressed (t d : Word) (m : Bool := false) : State := { base with launches := [dl 0 (fun l => { l with eff := 2, lr := { l.lr with midp := m } }), late d], dtime := t }

theorem wit_LaunchesArePressed : (let q := (pressed 0x1000000 0).settle
     q.launch 7 = some (late 0) ∧ (late 0).waits = true ∧
     ((pressed 0x1000000 0).disp[(late 0).die % 8]'(Nat.mod_lt _ (by decide))).starve.toList.getD (late 0).eff 0 = 0x1000000 ∧ 0 < (late 0).eff ∧
     (0x1000000 : Word) ≠ 0 ∧ (0x1000000 : Word).toNat ≤ (late 0).waited ∧ ({ late 0 with waited := 0xFFFFFF } : Launch).waited < (0x1000000 : Word).toNat) ∧
    ((rival true).settle.launches.any (fun l => l.id == 7 && l.waits && l.eff == 0) = true) ∧
    (let q := (pressed 5 5).settle
     q.launch 7 = some (late 5) ∧ (late 5).slots[0]? = some (.waiting 0) ∧
     (q.launchOf (q.coreAt (q.physical ((late 5).cores.getD 0 0)))).any (fun v => v.id != 7 && decide ((late 5).eff < v.eff)) = true ∧
     (late 5).lr.deadline ≠ 0 ∧ (late 5).lr.deadline.toNat ≤ (pressed 5 5).dtime.toNat + (late 5).lr.cost.toNat +
       ((pressed 5 5).disp[(late 5).die % 8]'(Nat.mod_lt _ (by decide))).lead.toNat ∧
     (pressed 5 0).dtime.toNat + (late 0).lr.cost.toNat + ((pressed 5 0).disp[(late 0).die % 8]'(Nat.mod_lt _ (by decide))).lead.toNat < 2 ^ 64 - 1) ∧
    (∀ m : Bool, (pressed 6 5 m).settle.launchOf (pressed 6 5 m).core = some (dl 0 (fun l => { l with eff := 2, lr := { l.lr with midp := m } })) ∧
      (late 5).lr.deadline.toNat < (pressed 6 5 m).dtime.toNat + 0 + (late 5).lr.cost.toNat - (pressed 6 5 m).core.ran) ∧
    (∀ m : Bool, (rival m).settle.launches.filter (fun w => w.id ≠ 0 ∧ w.wants ((rival m).logical (rival m).core.id) = true ∧ w.eff = 0 ∧ 0 ≤ (rival m).core.ran) ≠ []) := by
  decide +kernel

/-- A slot is held; its launch may be pre-empted mid-node. -/
def heldSlot : State := { base with launches := [dl 0 (fun l => { l with lr := { l.lr with midp := true }, slots := [.saved 0], holds := [0] })] }

theorem wit_LaunchesArePressed_hold : heldSlot.held 0 = true ∧ base.held 0 = false ∧
    (let s : State := { base with launches := [dl 0 (fun l => { l with lr := { l.lr with midp := true } })] }
     (s.launchBySeq 0 (wbits 0 31 0)).any (fun l => l.status == .running && l.lr.cls != 2 && l.lr.midp && decide (l.lr.count ≤ l.lr.npl) && decide (0 < l.slots.length) &&
       s.launches.all (fun y => y == l) && (l.slots[0]? == some (.running 0)) && s.core.id == s.physical (l.cores.getD 0 0) && s.launchOf s.core == some l) = true ∧
     s.core.task.map Task.launch = some 0) ∧
    (let s : State := { base with launches := [dl 0 (fun l => { l with lr := { l.lr with cls := 2 } })] }
     s.launchBySeq 0 0 = some (dl 0 (fun l => { l with lr := { l.lr with cls := 2 } }))) ∧
    (heldSlot.launchBySeq 0 (heldSlot.disp[0]).holdLseq.toNat).isSome = true := by decide +kernel

/-- The core is to be pre-empted. -/
def asked (rp : Bool) (s : State) : State := withC s (fun c => { c with preempt := true, atRp := rp })

/-- The core stands stopped for its save. -/
def saving : State := withC base (fun c => { c with status := .saving })

theorem wit_PreemptionSavesAndRestores : base.core.preempt = false ∧
    ((asked true base).core.preempt = true ∧ (asked true base).core.status = .running ∧ (∀ t ∈ (asked true base).core.threads, isFact t.ins = false) ∧
      (asked true base).core.stopsHere = true) ∧
    (let s := asked false (withC (stalled 5 4) (fun c => { c with loads := [{ ld1 with dest := .s 2 }], cnt := c.cnt.set 0 1 }))
     s.core.stopsHere = false ∧ s.bundleHere = some ldtB ∧ (s.ready ldtB).core.monitor = none ∧ (s.ready ldtB).plan ldtB = .wait) ∧
    ((asked true ticketed).core.preempt = true ∧ (asked true ticketed).core.status = .replay 9 absent ∧ (asked true ticketed).core.threads = []) ∧
    (base.core.task = some ⟨0, 0, 0⟩ ∧ (base.launchOf base.core).isSome = true ∧ base.core.status ≠ .saving) ∧
    (let s := withC saving (fun c => { c with badPool := [0] })
     s.core.quiet = true ∧ s.expected s.core = false ∧ s.core.saveBad = true) ∧
    (saving.core.status = .saving ∧ saving.core.quiet = true ∧ saving.expected saving.core = false ∧ saving.core.saveBad = false ∧ (saving.launchOf saving.core).any (fun l => l.lr.cls != 2) = true ∧
      saving.core.partw.tg + saving.core.partw.zg ≤ 48 ∧ (∀ p ∈ saving.core.lines, 128 * p.1 + 128 ≤ saving.core.scratchSize) ∧
      saving.core.arch.latchA = none ∧ saving.core.arch.latchB = none ∧
      (∀ g : GReg, (saving.core.arch.g[g.val]).length = 64 ∧ saving.core.arch.gpend[g.val] = none)) := by decide +kernel

/-- HLD of a shape record that lies in another package, at the PC; S1 names it. -/
def hldB : Bundle := ⟨false, 0, false, none, some (.hld 1 1 0 o0), none, none, none⟩
def farHld : State :=
  let s := reaching (withS base 1 0x11000)
  { s with mem := (s.mem.put 0x5008 (leBytes 8 (2 ^ 51 + 4 * 2 ^ 40 + 0x10003 + 7 * 2 ^ 53))).put 0x10000 (natLE 32 (encodeBundle hldB)) }

theorem wit_PreemptionSavesAndRestores_far : (let s := asked false farHld
    s.core.preempt = true ∧ s.core.status = .running ∧ s.core.stopsHere = false ∧ s.bundleHere = some hldB ∧ (s.ready hldB).core.monitor = none ∧
    (s.ready hldB).plan hldB = .far [farPa, farPa + 32, farPa + 64, farPa + 96]) := by decide +kernel

/-- A schedule entry of one sector that moves to the own scratchpad of core 0. -/
def owedCopy (released forked : Bool) : SchedEnt :=
  ⟨0x1000, scr 0, ⟨.int8, 0, 1, false, Vector.replicate 5 1, Vector.replicate 5 0, Vector.replicate 5 1, 0⟩, 0, .core, 0, released, forked⟩

/-- A halted task keeps its core for an entry that is not forked yet, and is asked to give way. -/
def owing (a : Nat) : State := { base with
  core := { base.core with status := .halted, preempt := true },
  dies := base.dies.set 1 { base.dies[1] with dieok := true },
  launches := [dl 0 (fun l => { l with lr := { l.lr with save := a, cls := 2 }, sched := [owedCopy true false] })] }

theorem wit_PreemptionSavesAndRestores_owed : (∀ lost : Bool, let s := owing (if lost then Config.dieBytes else 0)
    s.core.task = some ⟨0, 0, 0⟩ ∧ s.core.status = .halted ∧ s.core.preempt = true ∧ s.owes s.core = true ∧ s.core.quiet = true ∧ s.expected s.core = false ∧
    s.core.saveBad = false ∧ (s.launchOf s.core).any (fun l => l.lr.cls == 2 && s.noRoute s.core (l.lr.save + 0 * 2 ^ 24) == lost) = true) ∧
    (let s : State := { saving with
       dies := saving.dies.set 1 { saving.dies[1] with dieok := true }, launches := [dl 0 (fun l => { l with lr := { l.lr with save := Config.dieBytes } })] }
     s.core.quiet = true ∧ s.expected s.core = false ∧ s.core.saveBad = false ∧
     (s.launchOf s.core).any (fun l => l.lr.cls != 2 && s.noRoute s.core (l.lr.save + 0 * 2 ^ 24)) = true) := by decide +kernel

/-- A saved slot waits for its core. -/
def restorable : State := freeWith [weak (.saved 0)] base

/-- A task that has halted at a node boundary, its core held back for another launch. -/
def boundary : State := withC { rival false with launches := [dl 0 (fun l => { l with stream := some 0 }), dl 7 (fun l => { l with slots := [.waiting 0] })] }
  (fun c => { c with status := .halted, holdFor := some 7 })

theorem wit_PreemptionSavesAndRestores_back : (let q := restorable.settle
     q.launch 7 = some (weak (.saved 0)) ∧ (weak (.saved 0)).savedAt 0 = true ∧ q.granted (weak (.saved 0)) ((weak (.saved 0)).cores.getD 0 256) = true ∧
     (weak (.saved 0)).sched = [] ∧ q.carried = [] ∧ q.saveLost (weak (.saved 0)) 0 0 = false ∧ (q.savedContin 0).isNone = true ∧
     ({ q with poison := [8] } : State).saveLost (weak (.saved 0)) 0 0 = true ∧ q.noRouteAt (dieOf (q.physical 0)) 0 = false ∧
     ({ q with dies := q.dies.set 1 { q.dies[1] with dieok := true } } : State).noRouteAt (dieOf (q.physical 0)) Config.dieBytes = true ∧
     ((weak (.saved 0)).keptOf 0).halted = false ∧
     (({ weak (.saved 0) with kept := [(0, { (weak (.saved 0)).keptOf 0 with halted := true })] } : Launch).keptOf 0).halted = true) ∧ (base.settle.launch 7).isNone = true ∧
    base.core.holdFor = none ∧
    (boundary.core.holdFor = some 7 ∧ (boundary.launch 7).any (fun x => x.needs (boundary.logical boundary.core.id) && x.stream == none) = true ∧
      boundary.noRouteAt (dieOf (boundary.physical (boundary.logical boundary.core.id))) (lightHome 0 0 0) = false ∧ boundary.drained boundary.core = true ∧ boundary.core.task = some ⟨0, 0, 0⟩ ∧ (boundary.launchOf boundary.core).any (fun l => l.stream == some 0) = true ∧ boundary.carried = []) := by
  decide +kernel

/-- MBADDR of die 0's dispatcher names 0x1040, which lies on a SEQ page. -/
def mb (x : Disp) : State := { base with
  mem := base.mem.put 0x5000 (leBytes 8 (0x10003 + 7 * 2 ^ 53 + 2 ^ 58)),
  disp := base.disp.set 0 { x with mbaddr := 0x1040, mbasid := 1, mblrec := 0x1000 } }

theorem wit_HostRegisterWrites_mailbox : ((mb { Disp.init with mbop := some 0 }).disp[0]).mbop = some 0 ∧ ((mb Disp.init).disp[0]).mbop = none ∧
    ((mb Disp.init).disp[0]).mbaddr.toNat % 64 = 0 ∧
    ((mb Disp.init).mbPhys 0 (mb Disp.init).disp[0]).any (fun p => p.pa == 0x11040 && p.cls == .seq) = true ∧ (mb Disp.init).homeDie 0x11040 = some 0 ∧
    ((mb Disp.init).disp[0]).mblrec.toNat % 128 = 0 ∧ (mb Disp.init).mboxes = [] ∧
    (let s : State := { mb Disp.init with mboxes := [⟨0x11040, 1, 0x1000, 0, [], []⟩] }
     (∃ m ∈ s.mboxes, m.pa = 0x11040 ∧ m.asid = (s.disp[0]).mbasid.toNat) ∧ s.launches.all (fun l => l.handler.isNone) = true) ∧
    (({ Disp.init with mbaddr := 1 } : Disp).mbop = none ∧ ({ Disp.init with mbaddr := 1 } : Disp).mbaddr.toNat % 64 ≠ 0) := by decide +kernel

/-- An invalidation of everything is in progress. -/
def busyTc : State := { base with tc := { base.tc with busy := true, op := some (none, 0, 0) } }

theorem wit_HostRegisterWrites_translation : busyTc.tc.busy = true ∧ base.tc.busy = false ∧ base.tc.op = none ∧ busyTc.tc.op = some (none, 0, 0) ∧
    (∀ c ∈ busyTc.cores, c.accessing = false) ∧ (withC busyTc (fun c => { c with loads := [ld1] })).core.accessing = true ∧
    ({ busyTc.tc with op := some (some 1, 2, 3) } : TransCtl).op = some (some 1, 2, 3) := by decide +kernel

/-- The security engine with its buffers, a crown link up. -/
def secs (st : SecState) (nonce out : Nat) : State := { base with
  dies := base.dies.set 0 { base.dies[0] with crown := true },
  sec := { base.sec with state := st, noncepa := nonce, outpa := out } }

theorem wit_HostRegisterWrites_security : (secs .busy 0x12000 0x13000).sec.state = .busy ∧ (secs .idle 0x12000 0x13000).sec.state ≠ .busy ∧
    (secs .idle 0x12000 0x13000).secOk 0x12000 32 = true ∧ (secs .idle 0x12000 0x13000).secOk 0x13000 544 = true ∧
    (secs .idle 0x12001 0x13000).secOk 0x12001 32 = false ∧ 0x13000 % 32 = 0 ∧ (∀ k < 544, (secs .busy 0x12000 0x13000).region (0x13000 + k) = .dram 0 (0x13000 + k) ∧ (secs .busy 0x12000 0x13000).crownLost (0x13000 + k) = false) ∧
    ((secs .busy 0x12000 0x13000).crownLost 0x12000 = false ∧ (secs .busy 0x12000 0x13000).reading (.event .attestDone) = false ∧
      (secs .busy 0x12000 0x13000).crownMissing [flatPart 0x12000 32] = [] ∧ ∀ i < 32, isRemote (0x12000 + i) = false) ∧
    ((reaching (secs .busy farPa 0x13000)).crownMissing [flatPart farPa 32] = [farPa] ∧ (reaching (secs .busy farPa 0x13000)).reading (.event .attestDone) = false ∧
      ({ base with ox := { base.ox with waits := [⟨3, 0, .event .attestDone⟩] } } : State).reading (.event .attestDone) = true) ∧
    base.ox.pkgSet = false ∧ ({ base.ox with pkgSet := true } : Oxlink).pkgSet = true ∧ (65535 : Word).toNat % 65536 > 3650 ∧ (999 : Word).toNat % 65536 < 1000 := by
  decide +kernel

/-- A key under which a signature is its own encoding, so that the test needs no large number: exponent 1. -/
def easyKey : List Byte := List.replicate 384 0xFF ++ [0, 0, 0, 1]

/-- Flash holds an image signed with that key, whose digest is fused. -/
def flashed : State := { State.reset with sec := { State.reset.sec with
  keydig := BitVec.ofNat 256 (beVal (sha256 easyKey)),
  image := ⟨easyKey, pssEncode (sha256 [1]) (List.replicate 32 5), [1], 4, true⟩ } }

-- R173: the four checks on the image.
theorem test_image : flashed.sec.imageOk = true ∧ ({ flashed.sec with svnFloor := 5 } : Security).imageOk = false ∧
    ({ flashed.sec with image := { flashed.sec.image with body := [2] } } : Security).imageOk = false ∧ ({ flashed.sec with keydig := 0 } : Security).imageOk = false := by
  decide +kernel

-- The digest of "abc", an example of the standard that R173 names.
theorem test_sha256 : (sha256 [0x61, 0x62, 0x63]).take 4 = [0xBA, 0x78, 0x16, 0xBF] ∧ (sha256 [0x61, 0x62, 0x63]).drop 28 = [0xF2, 0x00, 0x15, 0xAD] := by decide +kernel

theorem wit_BootAndPower_start : flashed.booted = false ∧ flashed.journal.memory = [] ∧ flashed.sec.imageOk = true ∧ (BootReport.mk []).fails = [] ∧
    (flashed.die 0).live.getLsbD 5 = true ∧ (6, 32 * 0 + 5) ∈ (BootReport.mk [(6, 5)]).fails ∧ (3, 0) ∈ (BootReport.mk [(3, 0)]).fails ∧ 0 ∈ flashed.stepUnits 3 ∧
    23 ∉ flashed.stepUnits 8 ∧ 15 ∈ flashed.stepUnits 9 := by decide +kernel

theorem wit_BootAndPower : (base.booted = true ∧ base.inReset = false) ∧ State.reset.booted = false ∧ State.reset.journal.memory = [] ∧
    base.dtime.toNat % 65536 = 0 ∧ ({ base.power with acted := 1 } : Power).acted ≠ base.dtime ∧
    ({ base with dtime := 65535 } : State).dtime.toNat % 65536 ≠ 0 ∧ base.cores.filterMap base.unitOf = [(demoLaunch 0 0 0, (0, some 0))] ∧
    base.power.plim.toNat < (3651 : BitVec 16).toNat ∧ 100 * (3467 : BitVec 16).toNat < 95 * base.power.plim.toNat := by decide +kernel

/-- Port 0 is up, and the package is number 3. -/
def linked : State := { base with ox := { base.ox with pkg := 3, pkgSet := true, ports := base.ox.ports.set 0 1 } }

/-- A flit of a kind for package 3 from package 4, tag 9, with one sector for PA 0x11000, its check values written out. -/
def flt (k : Nat) : BitVec 2048 :=
  let head := le8 (k * 2 ^ 61 + 4 * 2 ^ 50 + 3 * 2 ^ 39 + 2 ^ 36 + 9 * 2 ^ 24) ++ leBytes 5 0x11000 ++ [0] ++ leBytes 2 64625 ++ List.replicate 12 0
  let crc := [2796303251, 1341044788, 2941788828, 1176152379, 3041137037, 1543936554].getD k 0
  BitVec.ofNat 2048 (leVal (head ++ leBytes 4 crc ++ List.replicate 32 7 ++ List.replicate 192 0))

/-- The CRC-32 register after some bytes, each value settled before the next byte. -/
def crcN (r : Nat) (bs : List Byte) : Nat :=
  match bs with
  | [] => r
  | b :: t => match ((List.range 8).foldl (fun x _ => crc32Bit x) (BitVec.ofNat 32 r ^^^ b.setWidth 32)).toNat with
    | 0 => crcN 0 t
    | n + 1 => crcN (n + 1) t

theorem crcN_step (r : Nat) (b : Byte) (t : List Byte) :
    crcN r (b :: t) = crcN ((List.range 8).foldl (fun x _ => crc32Bit x) (BitVec.ofNat 32 r ^^^ b.setWidth 32)).toNat t := by
  rw [crcN]; split <;> rename_i h <;> rw [h]

theorem crc_fold (bs : List Byte) (r : BitVec 32) :
    bs.foldl (fun r b => (List.range 8).foldl (fun r _ => crc32Bit r) (r ^^^ b.setWidth 32)) r = BitVec.ofNat 32 (crcN r.toNat bs) := by
  induction bs generalizing r with
  | nil => simp [crcN]
  | cons b t ih => rw [List.foldl_cons, ih, crcN_step, BitVec.ofNat_toNat, BitVec.setWidth_eq]

theorem wit_LinksAndPorts_cube : ((base.die 1).resends[(0 : Fin 4).val]) < 16 ∧
    (let d : DieEnum := { DieEnum.init with resends := Vector.replicate 4 16 }
     16 ≤ d.resends[(3 : Fin 4).val]) ∧ ({ base with dies := base.dies.set 1 { base.dies[1] with resends := Vector.replicate 4 15 } } : State).dies[1].resends[0] < 16 := by decide +kernel

theorem flt_crcOk : ∀ k ∈ [0, 1, 2, 3, 4, 5], (parseFlit (flt k)).crcOk = true := by
  intro k h
  show ((crc32 ((leBytes 256 (flt k).toNat).take 28 ++ (leBytes 256 (flt k).toNat).drop 32)).toNat == leVal (((leBytes 256 (flt k).toNat).drop 28).take 4)) = true
  rw [crc32, crc_fold]
  revert k; decide +kernel

theorem wit_LinksAndPorts_oxlink : (∀ k ∈ [0, 1, 2, 3, 4, 5], ∃ u, linked.takeFlit 0 (flt k) k = some (parseFlit (flt k), u)) ∧
    (∀ k ∈ [0, 1, 2, 3, 4, 5], (parseFlit (flt k)).secs.length = 1 ∧ (parseFlit (flt k)).addr = 0x11000 ∧ (parseFlit (flt k)).src = 4) ∧
    base.takeFlit 0 (flt 1) 1 = none ∧ (linked.region (0x11000 + 32 * 0) = .dram 0 0x11000 ∧ linked.noRouteAt (0 / 2) (0x11000 + 32 * 0) = false) ∧
    (let a : Ask := ⟨9, 0, 5, farPa⟩
     ({ linked.ox with asks := [a] } : Oxlink).asks.find? (fun a => a.tag == (parseFlit (flt 2)).tag && a.pa / 2 ^ 40 % 2 ^ 11 == (parseFlit (flt 2)).src) = some a) := by
  refine ⟨fun k h => ⟨{ linked with ox := { linked.ox with seqIn := linked.ox.seqIn.set 0 (linked.ox.seqIn[0] + 1) } }, ?_⟩, by decide +kernel, ?_, by decide +kernel, by decide +kernel⟩
  · have h2 : linked.booted = true ∧ (parseFlit (flt k)).kind = k ∧ (parseFlit (flt k)).seq = (linked.ox.seqIn[(0 : Fin 16).val]).toNat ∧
        (parseFlit (flt k)).dst = linked.ox.pkg.toNat ∧ wbits (linked.ox.ports[(0 : Fin 16).val]) 2 0 = 1 := by revert k; decide +kernel
    unfold State.takeFlit
    simp only [h2.1, h2.2.1, h2.2.2.1, h2.2.2.2.1, h2.2.2.2.2, flt_crcOk k h, beq_self_eq_true, Bool.and_self, if_true]
    rfl
  · have h2 : ((parseFlit (flt 1)).dst == base.ox.pkg.toNat) = false := by decide +kernel
    unfold State.takeFlit
    simp [h2]

/-- Requester 5 of port 0 stands for ASID 1; the crown die reaches die 0. -/
def ported (s : State) : State := { s with
  ports := { base.ports with table := [(0, ⟨5, true, 1⟩)] }, dies := s.dies.set 0 { s.dies[0] with crown := true } }

/-- The page of GLOBAL address 0 lies in package 4. -/
def farPage : State := { reaching base with mem := base.mem.put 0x5000 (leBytes 8 (2 ^ 51 + 4 * 2 ^ 40 + 0x10003 + 7 * 2 ^ 53)) }

theorem wit_LinksAndPorts_root : base.inbound 0 5 0x1000 8 .write = none ∧ base.inbound 0 5 0x1000 8 .read = none ∧
    (let s := ported base
     (s.inbound 0 5 0x1000 8 .write).any (fun q => q.map (fun p => (p.pa, p.n)) == [(0x11000, 8)]) = true ∧
     (s.inbound 0 5 0x1000 8 .read).any (fun q => q.map (fun p => (p.pa, p.n)) == [(0x11000, 8)] && s.crownMissing q == []) = true ∧
     (∀ k < 8, s.region (0x11000 + k) = .dram 0 (0x11000 + k) ∧ s.crownLost (0x11000 + k) = false)) ∧
    (let s := ported routeless
     (s.inbound 0 5 0x1000 8 .write).any (fun q => q.map (fun p => (p.pa, p.n)) == [(Config.dieBytes + 0x1000, 8)]) = true ∧
     (∀ k < 8, s.region (Config.dieBytes + 0x1000 + k) = .dram 1 (0x1000 + k) ∧ s.crownLost (Config.dieBytes + 0x1000 + k) = true)) ∧
    ((ported base).inbound 0 5 0x11000 8 .read = none ∧ ((ported base).requester 0 5).all (fun a => ((ported base).pageLost a 0x11000 8).isNone) = true) ∧
    ((ported farPage).inbound 0 5 0x1000 8 .read).any (fun q => q.all (fun x => !(ported farPage).crownLost x.pa) && (ported farPage).crownMissing q == [farPa]) = true := by
  decide +kernel

theorem wit_LinksAndPorts_mailbox : (let s : State := { linked with mboxes := [⟨0x11000, 1, 0x2000, 0, [], []⟩] }
     s.mboxes.find? (fun b => b.pa == 0x11000) = some ⟨0x11000, 1, 0x2000, 0, [], []⟩ ∧
     s.missRecord 0 1 0x2000 false = [] ∧ (match s.readG 0 1 0x2000 128 with | .ok bs => bs.length == 128 | .error _ => false) = true) ∧
    (parseFlit (flt 3)).secs.length = 1 ∧ (crc16 ((parseFlit (flt 3)).secs.getD 0 [])).toNat = nth (parseFlit (flt 3)).scrc 0 := by decide +kernel

theorem wit_DecodeEncodeAgree : SlotKind.m ≠ .event ∧ (Instr.st .d 3 8 5 ⟨1, 1, .pkg⟩).slot = .m ∧ (Instr.st .d 3 8 5 ⟨1, 1, .pkg⟩).wf = true ∧
    Instr.st .d 3 8 5 ⟨1, 1, .pkg⟩ ≠ .nop ∧ Bundle.wf { nob with m := some (.st .d 3 8 5 ⟨1, 1, .pkg⟩) } = true := by decide

theorem wit_DecodeEncodeAgree_bundle : decodeBundle 0 = .ok nob ∧ 0 < 2 ^ 256 := ⟨rfl, by decide⟩

theorem wit_StepKeepsStorageCanonical : base.MemOk ∧ (∀ c ∈ base.cores, c.PoolOk) ∧ ∃ t, step (State.reset.withFetchWord 16 0x8400) = .next t ∧ t.core.arch.pc = 0x20 :=
  ⟨by unfold State.MemOk; decide +kernel, by intro c h; unfold Core.PoolOk; revert c; decide +kernel, by
    have h : (match step (State.reset.withFetchWord 16 0x8400) with | .next t => decide (t.core.arch.pc = 0x20) | _ => false) = true := by decide +kernel
    split at h
    · rename_i t e; exact ⟨t, e, by simpa using h⟩
    · simp at h⟩

/-- A bundle of one instruction. -/
def oneG : Bundle := { nob with g := some (.gzero 1) }

theorem wit_StepRunsTheDecodedBundle : (let s := State.reset.withFetchWord 16 0x8400
     let q := s.tick.forkAll
     q.agenda = [] ∧ q.booted = true ∧ q.inReset = false ∧ q.core.status = .running ∧ q.core.stopsHere = false ∧ q.canIssue = true ∧
     (q.noteTlb (q.asidOf q.core) q.core.arch.pc.toNat .fetch).farFetch = []) ∧
    (let q := (State.reset.withFetchWord 16 0x8400).tick.forkAll
     (q.noteTlb (q.asidOf q.core) q.core.arch.pc.toNat .fetch).fetch = .ok (2 ^ 250 + 0x8400)) ∧ decodeBundle (2 ^ 250 + 0x8400) = .ok oneG ∧
    (let r := (State.reset.withFetchWord 16 0x8400).ready oneG
     r.core.stopsHere = false ∧ r.core.watching = none ∧ r.plan oneG = .go ∧ oneG.single = some (.gzero 1) ∧ Instr.gzero 1 ≠ .nop ∧ r.core.ended = false) ∧
    Instr.slot .journalClear = .event ∧ Instr.slot (.gzero 1) ≠ .event :=
  ⟨by decide +kernel, ok_of (by decide +kernel), ok_nat (by decide +kernel), by decide +kernel, by decide, by decide⟩

/-- An addition and a store of the same register in one bundle. -/
def addSt : Bundle := { nob with s := some (.add 3 1 (.reg 2)), m := some (.st .d 4 0 3 o0) }

/-- S1 to S4: 5, 7, 9 and an address of the own scratchpad. -/
def four : State := withS (withS (two 5 7) 3 9) 4 (scr 0x80)

theorem wit_StepRunsTheDecodedBundle_two : (let r := four.ready addSt
     r.core.stopsHere = false ∧ r.core.watching = none ∧ r.plan addSt = .go ∧ r.core.ended = false ∧ r.closesAfter addSt = false ∧ atLoopEnd r.core.arch = false) ∧
    addSt.s = some (.add 3 1 (.reg 2)) ∧ addSt.m = some (.st .d 4 0 3 o0) ∧ addSt.x = none := by decide +kernel

-- R17: the store takes the register as it stood before the addition.
theorem test_bundle_reads_first : after (four.issueBundle exec addSt) (fun t => (t.core.arch.rs 3, t.core.gate.map (fun g => match g with | .store p => p.bytes.headD 0 | _ => 0)))
    (0, []) = (12, [9]) := by decide +kernel

theorem wit_StepRunsTheDecodedBundle_agenda : ∀ w ∈ [Deed.event .journalClear, .event (.gzero 1), .bundle, .strike (.corrected 1 2), .appWrite 0x11000 [1], .appRead 0x11000 1,
      .taken (.ctx 0 false) 0, .readAhead 0x11000, .again 3], ∀ b : Bool, (({ base with agenda := [⟨0, w⟩], inReset := b } : State).tick.forkAll).agenda = [⟨0, w⟩] ∧
      (({ base with agenda := [⟨0, w⟩], inReset := b } : State).tick.forkAll).inReset = b := by decide +kernel

theorem wit_StepRunsTheDecodedBundle_again : (let s : State := { base with agenda := [⟨0, .again 3⟩], ox := { base.ox with waits := [⟨3, 0, .event .attestDone⟩] } }
    let q := s.tick.forkAll
    q.agenda = [⟨0, .again 3⟩] ∧ q.ox.waits.find? (fun y => y.uid == 3) = some ⟨3, 0, .event .attestDone⟩ ∧ Instr.attestDone.slot = .event ∧ q.inReset = false ∧
    (match exec .attestDone q with | .next _ => true | _ => false) = true) := by decide +kernel

end Sys2Proof.Tests
end

namespace Sys2Proof.Machine

/-- What a write to RUN leaves of the carried values: of this die's dispatcher, none of a number whose bit of the written word is set and
that is no running stream (R133, R190). -/
theorem State.writeRun_carried (s : State) (d : Fin 8) (v : Word) :
    (s.writeRun d v).carried = s.carried.filter (fun e => !(e.die == d.val &&
      (v.getLsbD e.stream && !((s.disp[d.val]).streams.toList.getD e.stream ⟨false, 0, 0⟩).run))) := rfl

/-- A number past the eight streams counts as one that does not run, so a write to RUN with its bit set drops what is carried under it. -/
theorem State.writeRun_drops_past_streams (s : State) (d : Fin 8) (v : Word) (e : Carried) (hdie : e.die = d.val)
    (hpast : 8 ≤ e.stream) (hbit : v.getLsbD e.stream = true) : e ∉ (s.writeRun d v).carried := by
  have hidle : ((s.disp[d.val]).streams.toList.getD e.stream ⟨false, 0, 0⟩).run = false := by
    rw [List.getD_eq_default _ _ (by simpa using hpast)]
  rw [State.writeRun_carried, List.mem_filter, hdie, hbit, hidle]
  simp

/-- Values carried on die 0 under the number 8, which no stream of a dispatcher has. -/
def carriedPastStreams : Carried := ⟨0, 8, 0, Vector.replicate 8 0, Vector.replicate 8 0, none, 0, 0, 0⟩

/-- The state after reset with such values. -/
def carryingPastStreams : State := { State.reset with carried := [carriedPastStreams] }

/-- Refutes O53, by its clause on RUN: the statement keeps every carried entry whose stream number is 8 or more, and the model drops one
whose bit of the written word is set. A write of 2^8 to RUN of die 0, with an entry of stream number 8, tells them apart. The
machine makes no such entry, but the statement asks nothing of the entries. -/
theorem not_hostRegisterWrites : ¬ Obligations.HostRegisterWrites := by
  unfold Obligations.HostRegisterWrites
  rintro ⟨hstreams, -⟩
  obtain ⟨⟨t, hnext, -, -, -, hcarried⟩, -⟩ := hstreams carryingPastStreams 0 0 (2 ^ 8)
  have ht : carryingPastStreams.writeRun 0 (2 ^ 8) = t := by
    rw [show exec (.dispatchRunWrite 0 (2 ^ 8)) carryingPastStreams = .next (carryingPastStreams.writeRun 0 (2 ^ 8)) from rfl] at hnext
    exact Host.Outcome.next.inj hnext
  have hkept : carriedPastStreams ∈ t.carried := by
    simp [hcarried, carryingPastStreams, carriedPastStreams]
  have hdropped : carriedPastStreams ∉ t.carried :=
    ht ▸ State.writeRun_drops_past_streams carryingPastStreams 0 (2 ^ 8) carriedPastStreams rfl (Nat.le_refl 8) (by decide)
  exact hdropped hkept

end Sys2Proof.Machine

namespace Sys2Proof.Machine

/-! # Storage stays canonical (O57)

`State.StorageOk` is what O57 asks of a state. Each operation of the model gets one lemma, `h.op`, that says it keeps this; an
operation made of others is settled by the same chain of names. An update that leaves memory, pools and side arrays as they are has
the proof `h`. The bytes themselves are only ever written by `Mem.put`, `Mem.puts` and `Mem.blit`, cut by a filter, or emptied, and the
lemmas `Mem.wf_put`, `Mem.wf_puts`, `Mem.wf_blit` and `Mem.wf_filter` say that these keep the canonical form. -/

/-- Main memory and every core's pool and side array are in canonical form. -/
def State.StorageOk (s : State) : Prop := s.MemOk ∧ s.core.PoolOk ∧ ∀ c ∈ s.others, c.PoolOk

theorem State.storageOk_iff (s : State) : s.StorageOk ↔ s.MemOk ∧ ∀ c ∈ s.cores, c.PoolOk := by
  rw [State.cores, List.forall_mem_cons, State.StorageOk]

/-- The next state that an outcome answers, if it answers one, has its storage in canonical form. -/
def OutOk (o : Out) : Prop := match o with | .next t => t.StorageOk | _ => True

/-- A meaning of instructions whose every answer keeps the storage in canonical form. -/
def RunOk (run : Instr → State → Out) : Prop := ∀ i (s : State), s.StorageOk → OutOk (run i s)

theorem OutOk.next {o : Out} {t : State} (h : OutOk o) (ho : o = .next t) : t.StorageOk := by subst ho; exact h

/-- Several blocks of one canonical memory copied into another leave it canonical. -/
theorem Mem.wf_blits {α : Type} {xs : List α} {m src : Mem} {dst lo : α → Nat} {n : Nat} (h : m.wf = true) (hs : src.wf = true) :
    (xs.foldl (fun (m : Mem) x => m.blit (dst x) src (lo x) n) m).wf = true :=
  List.foldlRecOn (motive := fun m : Mem => m.wf = true) xs _ h fun m hm _ _ => Mem.wf_blit m src _ _ n hm hs

theorem OutOk.ite {p : Prop} [Decidable p] {a b : Out} (ha : OutOk a) (hb : OutOk b) : OutOk (if p then a else b) := by
  split
  · exact ha
  · exact hb

section
variable {s t : State}

namespace State.StorageOk

theorem core (h : s.StorageOk) : s.core.PoolOk := h.2.1

theorem other (h : s.StorageOk) : ∀ c ∈ s.others, c.PoolOk := h.2.2

/-- A state with the memory and the cores of a canonical one is canonical. -/
theorem congr (h : s.StorageOk) (hm : t.mem = s.mem) (hc : t.core = s.core) (ho : t.others = s.others) : t.StorageOk := by
  unfold State.StorageOk State.MemOk
  rw [hm, hc, ho]
  exact h

/-- A change of every core that keeps each core's storage. -/
theorem mapCores (h : s.StorageOk) {f : Core → Core} (hf : ∀ c, c.PoolOk → (f c).PoolOk) (hm : t.mem = s.mem) (hc : t.core = f s.core)
    (ho : t.others = s.others.map f) : t.StorageOk := by
  unfold State.StorageOk State.MemOk
  rw [hm, hc, ho]
  exact ⟨h.1, hf _ h.core, List.forall_mem_map.mpr fun c hc => hf c (h.other c hc)⟩

/-- A change of memory to one in canonical form. -/
theorem setMem (h : s.StorageOk) (hm : t.mem.wf = true) (hc : t.core = s.core) (ho : t.others = s.others) : t.StorageOk := by
  unfold State.StorageOk
  rw [hc, ho]
  exact ⟨hm, h.2⟩

theorem ite {p : Prop} [Decidable p] (hs : s.StorageOk) (ht : t.StorageOk) : (if p then s else t).StorageOk := by
  split
  · exact hs
  · exact ht

/-- A change of the state that is made under a condition. -/
theorem changeIf {p : Prop} [Decidable p] (h : s.StorageOk) (ht : s.StorageOk → t.StorageOk) : (if p then t else s).StorageOk := ite (ht h) h

/-- A loop over a state keeps what each pass keeps. -/
theorem foldl {α : Type} {f : State → α → State} {xs : List α} (h : s.StorageOk) (hf : ∀ s x, s.StorageOk → (f s x).StorageOk) :
    (xs.foldl f s).StorageOk := List.foldlRecOn xs f h fun s hs x _ => hf s x hs

/-- A loop over a state and a rest of bytes keeps what each pass keeps of the state. -/
theorem foldlFst {α β : Type} {f : State × β → α → State × β} {xs : List α} {b : β} (h : s.StorageOk)
    (hf : ∀ a x, a.1.StorageOk → (f a x).1.StorageOk) : (xs.foldl f (s, b)).1.StorageOk :=
  List.foldlRecOn (motive := fun a => a.1.StorageOk) xs f h fun a ha x _ => hf a x ha

end State.StorageOk
end

/-! ## Cores -/

namespace Core.PoolOk
section
variable {c k : Core}

theorem init (n : Nat) : (Core.init n).PoolOk := ⟨rfl, rfl⟩

/-- A core with the pool and the side array of a canonical one is canonical. -/
theorem congr (h : c.PoolOk) (hp : k.pool = c.pool) (hs : k.side = c.side) : k.PoolOk := ⟨hp ▸ h.1, hs ▸ h.2⟩

/-- A loop over a core keeps what each pass keeps. -/
theorem foldl {α : Type} {f : Core → α → Core} {xs : List α} (h : c.PoolOk) (hf : ∀ c x, c.PoolOk → (f c x).PoolOk) :
    (xs.foldl f c).PoolOk := Core.foldl_inv f Core.PoolOk hf xs c h

theorem poisonLines {ls ix} (h : c.PoolOk) : (c.poisonLines ls ix).PoolOk := h.foldl fun _ _ hc => hc
theorem setLine {l st} (h : c.PoolOk) : (c.setLine l st).PoolOk := h
theorem cntDown {st n} (h : c.PoolOk) : (c.cntDown st n).PoolOk := h
theorem onThread {id f} (h : c.PoolOk) : (c.onThread id f).PoolOk := h
theorem both {f} (h : c.PoolOk) : (c.both f).PoolOk := h
theorem unmake {ms} (h : c.PoolOk) : (c.unmake ms).PoolOk := h
theorem keepT {n} (h : c.PoolOk) : (c.keepT n).PoolOk := h
theorem l1Drop {l} (h : c.PoolOk) : (c.l1Drop l).PoolOk := h
theorem l1Write {pa bs} (h : c.PoolOk) : (c.l1Write pa bs).PoolOk := h
theorem endThread {t} (h : c.PoolOk) : (c.endThread t).PoolOk := h
theorem enterTrap {a b x y z} (h : c.PoolOk) : (c.enterTrap a b x y z).PoolOk := h
theorem passClk {b} (h : c.PoolOk) : (c.passClk b).PoolOk := h
theorem passAhead {st u} (h : c.PoolOk) : (c.passAhead st u).PoolOk := h
theorem spoilGate {n b} (h : c.PoolOk) : (c.spoilGate n b).PoolOk := h
theorem freed (h : c.PoolOk) : c.freed.PoolOk := h

theorem strikeLine {off} (h : c.PoolOk) : (c.strikeLine off).PoolOk := h.congr (Core.strikeLine_pool c off) (Core.strikeLine_side c off)
theorem release {p} (h : c.PoolOk) : (c.release p).PoolOk := h.congr (Core.release_pool c p) (Core.release_side c p)

theorem storeScratch {off bs} (h : c.PoolOk) : (c.storeScratch off bs).PoolOk :=
  ⟨Core.storeScratch_pool c off bs ▸ Mem.wf_put _ _ _ h.1, Core.storeScratch_side c off bs ▸ h.2⟩

theorem landStore {off p} (h : c.PoolOk) : (c.landStore off p).PoolOk := h.storeScratch.foldl fun _ _ hc => hc.strikeLine

theorem putRuns {rs} (h : c.PoolOk) : (c.putRuns rs).PoolOk := ⟨Mem.wf_puts rs c.pool h.1, h.2⟩

theorem completed {b} (h : c.PoolOk) : (c.complete b).PoolOk := Core.PoolOk.complete h b

theorem consume {ls} (h : c.PoolOk) : (c.consume ls).PoolOk := h.foldl fun c l hc => by
  split
  · exact hc.setLine
  · exact hc

theorem storeRuns {rs} (h : c.PoolOk) : (c.storeRuns rs).PoolOk := h.putRuns.foldl fun c l hc => by
  split
  · exact hc.setLine
  · exact hc

theorem tileOut {f t p} (h : c.PoolOk) : (c.tileOut f t p).PoolOk := h.storeRuns

theorem retire {i} (h : c.PoolOk) : (c.retire i).PoolOk := by
  unfold Core.retire
  dsimp only
  split <;> exact h

theorem seeWrite {pa n} (h : c.PoolOk) : (c.seeWrite pa n).PoolOk := by
  unfold Core.seeWrite
  split
  · split <;> exact h
  · exact h

theorem spoilPool {off} (h : c.PoolOk) : (c.spoilPool off).PoolOk := by
  unfold Core.spoilPool
  split
  · exact h.strikeLine
  · exact h

theorem freeIf {l} (h : c.PoolOk) : (c.freeIf l).PoolOk := by
  unfold Core.freeIf
  split
  · split
    · exact h.freed
    · exact h
  · exact h

theorem dropParts {ps} (h : c.PoolOk) : (c.dropParts ps).PoolOk := h.foldl fun _ _ hc => hc.foldl fun _ _ hk => hk.l1Drop

theorem endRecord {t f entry} (h : c.PoolOk) : (c.endRecord t f entry).PoolOk := by
  unfold Core.endRecord
  split
  · exact h
  · split <;> exact h

theorem applyRes {r} (h : c.PoolOk) : (c.applyRes r).PoolOk := ⟨Mem.wf_puts r.pool c.pool h.1, Mem.wf_puts r.side c.side h.2⟩

theorem settleLine {t e} (h : c.PoolOk) : (c.settleLine t e).PoolOk := by
  unfold Core.settleLine
  split
  · exact h
  · split <;> exact h

theorem landScratch {t off j} (h : c.PoolOk) : (c.landScratch t off j).PoolOk := by
  refine PoolOk.foldl ?_ fun _ _ hc => hc.settleLine
  split <;> exact h.putRuns

theorem land {l bs} (h : c.PoolOk) : (c.land l bs).PoolOk := by
  unfold Core.land
  dsimp only
  split
  · split <;> exact h
  · exact h.putRuns
  · split <;> exact h
  · exact h
  · exact h

theorem endLoad {l bs} (h : c.PoolOk) : (c.endLoad l bs).PoolOk := by
  unfold Core.endLoad
  dsimp only
  split
  · exact h
  · exact PoolOk.land h

theorem nextStore {y r bs} (h : c.PoolOk) : (c.nextStore y r bs).PoolOk := by
  unfold Core.nextStore
  split <;> exact h

/-- A fresh task's pool is what its context left of it, or nothing, with a handler's message written. -/
theorem fresh {l logical slot t v} (h : c.PoolOk) : (c.fresh l logical slot t v).PoolOk := by
  have hpool : ∀ base msg, (Mem.put (if c.lastCtx ≠ some l.id then [] else c.pool.filter (fun x => base ≤ x.1)) base msg).wf = true := by
    intro base msg
    refine Mem.wf_put _ _ _ ?_
    split
    · rfl
    · exact Mem.wf_filter _ _ h.1
  unfold Core.fresh
  dsimp only
  split
  · exact PoolOk.strikeLine ⟨hpool _ _, rfl⟩
  · exact ⟨hpool _ _, rfl⟩

end
end Core.PoolOk

/-! ## The cores of a state, its queues, stops and traps -/

namespace State.StorageOk
section
variable {s : State}

theorem coreAt {n} (h : s.StorageOk) : (s.coreAt n).PoolOk := by
  unfold State.coreAt
  split
  · exact h.core
  · cases hf : s.others.find? (fun k => k.id == n) with
    | none => exact Core.PoolOk.init n
    | some c => exact h.other c (List.mem_of_find?_eq_some hf)

theorem otherThan {n} (h : s.StorageOk) : ∀ c ∈ s.others.filter (fun k => k.id ≠ n), c.PoolOk :=
  fun c hc => h.other c (List.mem_of_mem_filter hc)

theorem focus {n} (h : s.StorageOk) : (s.focus n).StorageOk := ite h (⟨h.1, h.coreAt, List.forall_mem_cons.mpr ⟨h.core, h.otherThan⟩⟩)

theorem onC {f} (h : s.StorageOk) (hf : ∀ c, c.PoolOk → (f c).PoolOk) : (s.onC f).StorageOk := ⟨h.1, hf _ h.core, h.other⟩

theorem onCore {n f} (h : s.StorageOk) (hf : ∀ c, c.PoolOk → (f c).PoolOk) : (s.onCore n f).StorageOk :=
  ite (h.onC hf) (⟨h.1, h.core, List.forall_mem_cons.mpr ⟨hf _ h.coreAt, h.otherThan⟩⟩)

/-! The fields of a state that are no storage. -/

theorem withPoison {x} (h : s.StorageOk) : ({ s with poison := x } : State).StorageOk := h
theorem withMboxes {x} (h : s.StorageOk) : ({ s with mboxes := x } : State).StorageOk := h
theorem withCarried {x} (h : s.StorageOk) : ({ s with carried := x } : State).StorageOk := h
theorem withBarriers {x} (h : s.StorageOk) : ({ s with barriers := x } : State).StorageOk := h
theorem withSec {x} (h : s.StorageOk) : ({ s with sec := x } : State).StorageOk := h
theorem withOx {x} (h : s.StorageOk) : ({ s with ox := x } : State).StorageOk := h
theorem withPorts {x} (h : s.StorageOk) : ({ s with ports := x } : State).StorageOk := h
theorem withAppOut {x} (h : s.StorageOk) : ({ s with appOut := x } : State).StorageOk := h
theorem withJournal {x} (h : s.StorageOk) : ({ s with journal := x } : State).StorageOk := h
theorem withBooted {x} (h : s.StorageOk) : ({ s with booted := x } : State).StorageOk := h
theorem withInReset {x} (h : s.StorageOk) : ({ s with inReset := x } : State).StorageOk := h
theorem withAgenda {x} (h : s.StorageOk) : ({ s with agenda := x } : State).StorageOk := h

/-! Updates that touch no storage. -/

theorem onA {f} (h : s.StorageOk) : (s.onA f).StorageOk := h
theorem ws {r v} (h : s.StorageOk) : (s.ws r v).StorageOk := h
theorem wp {r v} (h : s.StorageOk) : (s.wp r v).StorageOk := h
theorem flag {f} (h : s.StorageOk) : (s.flag f).StorageOk := h
theorem touch (h : s.StorageOk) : s.touch.StorageOk := h
theorem seqCount {o n} (h : s.StorageOk) : (s.seqCount o n).StorageOk := h
theorem nextUid (h : s.StorageOk) : s.nextUid.StorageOk := h
theorem fork {i o ms f} (h : s.StorageOk) : (s.fork i o ms f).StorageOk := h
theorem onLaunch {l f} (h : s.StorageOk) : (s.onLaunch l f).StorageOk := h
theorem onCtxQ {l f} (h : s.StorageOk) : (s.onCtxQ l f).StorageOk := h
theorem onDisp {d f} (h : s.StorageOk) : (s.onDisp d f).StorageOk := h
theorem dispReplay {d r} (h : s.StorageOk) : (s.dispReplay d r).StorageOk := h
theorem dieRecord {c d u pa} (h : s.StorageOk) : (s.dieRecord c d u pa).StorageOk := h
theorem countSeq {d} (h : s.StorageOk) : (s.countSeq d).StorageOk := h
theorem sendFatal {c r} (h : s.StorageOk) : (s.sendFatal c r).StorageOk := h
theorem routeError {va pa} (h : s.StorageOk) : (s.routeError va pa).StorageOk := h
theorem stopCtx {l} (h : s.StorageOk) : (s.stopCtx l).StorageOk := h.mapCores (fun _ hc => Core.PoolOk.halt hc l) rfl rfl rfl

theorem fatal {a b m x t i u} (h : s.StorageOk) : (s.fatal a b m x t i u).StorageOk := stopCtx (h.sendFatal.onC fun _ hc => hc)

theorem fatalTrap {a m x t i} (h : s.StorageOk) : (s.fatalTrap a m x t i).StorageOk :=
  ite (fatal (h.onC fun _ hc => hc.rollback)) (fatal (h.onC fun _ hc => hc.rollback))

theorem retire {r} (h : s.StorageOk) : (s.retire r).StorageOk := by
  unfold State.retire
  split
  · exact h
  · exact h.onCore fun _ hc => hc.retire

theorem precise {fs x} (h : s.StorageOk) : (s.precise fs x).StorageOk := by
  unfold State.precise
  dsimp only
  exact ite h.fatal (ite h.fatal ((h.onC fun _ hc => hc.enterTrap).foldl fun _ _ hs => hs.retire))

theorem replayCore {fs} (h : s.StorageOk) : (s.replayCore fs).StorageOk := ite h h

theorem takeTrap {fs} (h : s.StorageOk) : (s.takeTrap fs).StorageOk := by
  have hr : (s.onC Core.rollback).StorageOk := h.onC fun _ hc => hc.rollback
  unfold State.takeTrap
  dsimp only
  split
  · exact hr.precise
  · split
    · exact hr.fatal
    · exact ite hr.replayCore hr.precise

theorem raise {slot c a} (h : s.StorageOk) : (s.raise slot c a).StorageOk := h.takeTrap

theorem guard {f k} (h : s.StorageOk) (hk : OutOk k) : OutOk (s.guard f k) := by
  unfold State.guard
  split
  · exact h.takeTrap
  · exact hk

theorem outState {o} (h : s.StorageOk) (ho : OutOk o) : (outState s o).StorageOk := by
  cases o with
  | next t => exact ho
  | fault r => exact h
  | refused r => exact h

theorem walkRecord {va} (h : s.StorageOk) : (s.walkRecord va).StorageOk := by
  unfold State.walkRecord
  split
  · split
    · exact h.routeError
    · exact h
  · exact h

/-! ## Threads that meet a fault, and the copy schedules -/

theorem threadReplay {t c va} (h : s.StorageOk) : (s.threadReplay t c va).StorageOk := ite h h

theorem threadFault {t c va} (h : s.StorageOk) : (s.threadFault t c va).StorageOk := by
  unfold State.threadFault
  extract_lets f ls res s' info
  have hs : s'.StorageOk := h.onC fun _ hc => hc.poisonLines
  exact ite (fatal (ite hs.walkRecord hs)) (ite (stopCtx hs) hs)

theorem threadMeets {t c va} (h : s.StorageOk) : (s.threadMeets t c va).StorageOk := by
  unfold State.threadMeets
  split
  · exact ite h.threadReplay h.threadFault
  · exact h.threadFault

theorem instFault {t c va} (h : s.StorageOk) : (s.instFault t c va).StorageOk := by
  unfold State.instFault
  split
  · exact h.threadFault
  · exact ite h.threadFault ((h.foldl fun _ _ hs => hs.focus.threadFault).focus)

theorem forkEntry {e} (h : s.StorageOk) : (s.forkEntry e).StorageOk := by
  unfold State.forkEntry
  extract_lets o id s' u
  have hu : u.StorageOk := h
  split
  · exact hu.threadMeets
  · exact hu

theorem forkOne {l i} (h : s.StorageOk) : (s.forkOne l i).StorageOk := by
  unfold State.forkOne
  split
  · exact h
  · split
    · exact h
    · exact ite h h.focus.forkEntry.focus.onLaunch

theorem forkDue {l} (h : s.StorageOk) : (s.forkDue l).StorageOk := by
  unfold State.forkDue
  split
  · exact h
  · exact ite (h.foldl fun _ _ hs => hs.forkOne) h

theorem forkAll (h : s.StorageOk) : s.forkAll.StorageOk := h.foldl fun _ _ hs => hs.forkDue

theorem releaseStages {l} (h : s.StorageOk) : (s.releaseStages l).StorageOk := h.onLaunch.forkDue

theorem countStage (h : s.StorageOk) : s.countStage.StorageOk := h.onLaunch.releaseStages

/-! ## Records, flits and the translations kept -/

theorem noteTlb {a va k} (h : s.StorageOk) : (s.noteTlb a va k).StorageOk := by
  unfold State.noteTlb
  split
  · exact h
  · exact ite h h

theorem noteAcc {va n k} (h : s.StorageOk) : (s.noteAcc va n k).StorageOk := by
  unfold State.noteAcc
  split
  · exact h.noteTlb.noteTlb
  · exact h

theorem noteSpan {va n k} (h : s.StorageOk) : (s.noteSpan va n k).StorageOk := h.foldl fun _ _ hs => hs.noteAcc

theorem readSpan {va n} (h : s.StorageOk) : (s.readSpan va n).StorageOk := by
  unfold State.readSpan
  dsimp only
  split
  · exact h.noteSpan.onC fun _ hc => hc.dropParts
  · exact h.noteSpan

theorem dropRoute {r} (h : s.StorageOk) : (s.dropRoute r).StorageOk := by
  unfold State.dropRoute
  split
  · exact h.onC fun _ hc => hc.dropParts
  · exact h

theorem touchIf {r} (h : s.StorageOk) : (s.touchIf r).StorageOk := by
  unfold State.touchIf
  split <;> exact h

theorem sendFlit {k t pa secs n} (h : s.StorageOk) : (s.sendFlit k t pa secs n).StorageOk := by
  rw [State.sendFlit_ox]
  exact h

theorem writeFar {pa bs b} (h : s.StorageOk) : (s.writeFar pa bs b).StorageOk := h.sendFlit

theorem patchFar {u pa bs} (h : s.StorageOk) : (s.patchFar u pa bs).StorageOk := h

theorem tookFar {u p} (h : s.StorageOk) : (s.tookFar u p).StorageOk := h

theorem askFar {u ks} (h : s.StorageOk) : (s.askFar u ks).StorageOk := by
  rw [State.askFar_ox]
  exact h

theorem askLater {n a ks} (h : s.StorageOk) : (s.askLater n a ks).StorageOk := h

theorem askAtIssue {ks} (h : s.StorageOk) : (s.askAtIssue ks).StorageOk := by
  unfold State.askAtIssue
  split
  · exact h.askFar
  · exact askFar h

theorem lostRecord {va ps} (h : s.StorageOk) : (s.lostRecord va ps).StorageOk := by
  unfold State.lostRecord
  split
  · exact h.routeError
  · exact h

theorem lostRead {d a va n} (h : s.StorageOk) : (s.lostRead d a va n).StorageOk :=
  have hk := State.lostRead_keeps s d a va n
  h.congr hk.1 hk.2.1 hk.2.2

theorem readMail {m q put} (h : s.StorageOk) : (s.readMail m q put).StorageOk :=
  have hk := State.readMail_keeps s m q put
  h.congr hk.1 hk.2.1 hk.2.2

theorem fire {pa w} (h : s.StorageOk) : (s.fire pa w).StorageOk :=
  have hk := State.fire_keeps s pa w
  h.congr hk.1 hk.2.1 hk.2.2

theorem fireIn {pa n w} (h : s.StorageOk) : (s.fireIn pa n w).StorageOk := h.foldl fun _ _ hs => hs.fire

/-! ## Writes to memory -/

theorem troyWrite {l t pa bs} (h : s.StorageOk) : (s.troyWrite l t pa bs).StorageOk := h.setMem (Mem.wf_puts _ _ h.1) rfl rfl

theorem writePhys {w tr pa bs} (h : s.StorageOk) : (s.writePhys w tr pa bs).StorageOk := by
  unfold State.writePhys
  split
  · exact h
  · split
    · exact h
    · exact h
    · exact h
    · exact h
    · extract_lets s' u see v
      have hs : s'.StorageOk := by
        cases tr with
        | none => exact h.setMem (Mem.wf_put _ _ _ h.1) rfl rfl
        | some t => exact h.troyWrite
      have hu : u.StorageOk := ite hs hs
      have hsee : ∀ c : Core, c.PoolOk → (see c).PoolOk := fun c hc => by
        dsimp only [see]
        split
        · exact hc.l1Write
        · exact hc.seeWrite
      exact fireIn (hu.mapCores hsee rfl rfl rfl)

theorem storeAt {uid va bad p bs} (h : s.StorageOk) : (s.storeAt uid va bad p bs).StorageOk :=
  ite h (ite h.writeFar.patchFar (ite (withPoison h.writePhys) h.writePhys))

theorem lostSector {d pa} (h : s.StorageOk) : (s.lostSector d pa).StorageOk := h

theorem dieWrite {d pa bs} (h : s.StorageOk) : (s.dieWrite d pa bs).StorageOk := ite h.lostSector h.writePhys

theorem crownWrite {p bs} (h : s.StorageOk) : (s.crownWrite p bs).StorageOk := ite h h.writePhys

theorem crownPut {ps bs} (h : s.StorageOk) : (s.crownPut ps bs).StorageOk := h.foldlFst fun _ _ ha => ha.crownWrite

theorem crownRecords {ps} (h : s.StorageOk) : (s.crownRecords ps).StorageOk := h.foldl fun _ _ hs => ite hs.dieRecord hs

theorem crownRead {a ps go} (h : s.StorageOk) (hgo : ∀ t : State, t.StorageOk → (go t).StorageOk) : (s.crownRead a ps go).StorageOk := by
  unfold State.crownRead
  split
  · exact hgo _ h.crownRecords
  · exact h.askLater

end
end State.StorageOk

/-! ## What the instructions of the S, M and G slots share -/

namespace State.StorageOk
section
variable {s : State}

theorem int2 {f d a b} (h : s.StorageOk) : OutOk (s.int2 f d a b) := h
theorem wf {f d r} (h : s.StorageOk) : OutOk (s.wf f d r) := h
theorem jumpTo {t} (h : s.StorageOk) : (s.jumpTo t).StorageOk := h
theorem jumpBack {t} (h : s.StorageOk) : (s.jumpBack t).StorageOk := h

theorem trapReturn (h : s.StorageOk) : s.trapReturn.StorageOk := h.onC fun _ hc => Core.PoolOk.completed hc

/-- The bundle of HALT and of TRAP completes and its interval commits. -/
theorem closed (h : s.StorageOk) : (s.onC (fun c => ({ c with closes := true } : Core).complete false)).StorageOk :=
  h.onC fun _ hc => Core.PoolOk.completed hc

theorem wake {p n} (h : s.StorageOk) : OutOk (s.wake p n) := by
  unfold State.wake
  split
  · exact OutOk.ite h h
  · exact h

theorem sendLoad {ps n d o va} (h : s.StorageOk) : (s.sendLoad ps n d o va).StorageOk := noteAcc h

theorem gateStore {r bs o va} (h : s.StorageOk) : (s.gateStore r bs o va).StorageOk := noteAcc h

theorem tileStore {r bs o va} (h : s.StorageOk) : (s.tileStore r bs o va).StorageOk :=
  (h.onC fun _ hc => hc.release).seqCount.nextUid.noteAcc

theorem atomic {op b off c e o} (h : s.StorageOk) : OutOk (s.atomic op b off c e o) := by
  unfold State.atomic
  refine h.guard ?_
  split
  · exact h
  · exact h.sendLoad
  · extract_lets old put u
    have hput : ∀ a (k : Core), k.PoolOk → (put a k).PoolOk := fun a k hk => by
      dsimp only [put]
      split
      · exact hk.storeScratch
      · exact hk
    have hu : u.StorageOk := by
      dsimp only [u]
      split
      · exact h.onC (hput _)
      · exact h.onCore (hput _)
      · exact h
    exact (hu.onC fun _ hc => hc.both).seqCount.touchIf

/-! ## The slots' instructions -/

theorem execSpcast {d a w} (h : s.StorageOk) : OutOk (execSpcast d a w s) := by
  unfold Machine.execSpcast
  split
  · exact h
  · exact h.raise

theorem execBr {p inv off} (h : s.StorageOk) : OutOk (execBr p inv off s) := ite h.jumpBack h

theorem execLoop {src len} (h : s.StorageOk) : OutOk (execLoop src len s) := by
  unfold Machine.execLoop
  dsimp only
  exact OutOk.ite h (OutOk.ite h.raise h)

theorem execBrkl {p inv} (h : s.StorageOk) : OutOk (execBrkl p inv s) := by
  unfold Machine.execBrkl
  split
  · split
    · exact h.raise
    · exact h
  · exact h

theorem execHalt (h : s.StorageOk) : OutOk (execHalt s) := h.closed

theorem execTrap {v} (h : s.StorageOk) : OutOk (execTrap v s) := h.closed.precise

theorem execCsrw {c a} (h : s.StorageOk) : OutOk (execCsrw c a s) := by
  unfold Machine.execCsrw
  dsimp only
  split
  · exact h
  · exact h.onA

theorem execFcvt {k rm d a} (h : s.StorageOk) : OutOk (execFcvt k rm d a s) := by
  cases k <;> exact h

theorem execWaitm {d a off b c} (h : s.StorageOk) : OutOk (execWaitm d a off b c s) := by
  unfold Machine.execWaitm
  refine h.guard ?_
  split
  · exact noteAcc h
  · split <;> exact h

theorem execWaitmArm (h : s.StorageOk) : OutOk (execWaitmArm s) := by
  unfold Machine.execWaitmArm
  split
  · exact OutOk.ite h (OutOk.ite (fatalTrap (ite h.routeError h)) h)
  · exact h

theorem execBarArv {b} (h : s.StorageOk) : OutOk (execBarArv b s) := h.guard (ite h h)

theorem execBarWt {b} (h : s.StorageOk) : OutOk (execBarWt b s) := h.guard h

theorem execBarrierArrivalCounted {b} (h : s.StorageOk) : OutOk (execBarrierArrivalCounted b s) := by
  unfold Machine.execBarrierArrivalCounted
  split
  · exact OutOk.ite h h
  · exact h

theorem execPartn {a} (h : s.StorageOk) : OutOk (execPartn a s) := by
  unfold Machine.execPartn
  refine h.guard ?_
  split
  · exact h
  · exact h.onC fun _ _ => ⟨rfl, rfl⟩

theorem execBind {n p} (h : s.StorageOk) : OutOk (execBind n p s) := h.guard h

theorem execKset {n j a} (h : s.StorageOk) : OutOk (execKset n j a s) := h.guard h

theorem execPpld {n a v} (h : s.StorageOk) : OutOk (execPpld n a v s) := by
  unfold Machine.execPpld
  refine h.guard ?_
  extract_lets k u
  have hu : u.StorageOk := noteAcc h
  show State.StorageOk _
  split
  · exact hu.dropRoute
  · exact hu

theorem execLd {z d b off o} (h : s.StorageOk) : OutOk (execLd z d b off o s) := by
  refine h.guard ?_
  split
  · exact h
  · exact h.sendLoad
  · exact touchIf h

theorem execSt {z b off src o} (h : s.StorageOk) : OutOk (execSt z b off src o s) := by
  refine h.guard ?_
  split
  · exact h
  · exact h.gateStore.touchIf

theorem execLdt {f t ad cons o} (h : s.StorageOk) : OutOk (execLdt f t ad cons o s) := by
  have hk : (s.onC (fun c => (c.unmake [TZ.t t.val]).keepT t.val)).StorageOk := h.onC fun _ hc => hc.unmake.keepT
  unfold Machine.execLdt
  refine h.guard ?_
  extract_lets u
  split
  · exact ((hk.onC fun _ hc => hc.putRuns).onC fun _ hc => hc.consume).seqCount.touch
  · extract_lets va
    split
    · exact hk
    · exact hk.sendLoad.touch
    · exact (hk.onC fun _ hc => hc.putRuns).seqCount.touch

theorem execStt {f ad t o} (h : s.StorageOk) : OutOk (execStt f ad t o s) := by
  unfold Machine.execStt
  refine h.guard ?_
  split
  · exact (h.onC fun _ hc => hc.tileOut).seqCount.touch
  · extract_lets va bs
    split
    · exact h
    · exact (h.onC fun _ hc => hc.storeScratch).seqCount.touch
    · exact h.tileStore.touch

theorem execStp {f sb sc t o} (h : s.StorageOk) : OutOk (execStp f sb sc t o s) :=
  h.guard (h.onC fun _ hc => hc.tileOut.tileOut).seqCount.touch

theorem execLine {st b off c} (h : s.StorageOk) : OutOk (execLine st b off c s) := by
  unfold Machine.execLine
  refine h.guard ?_
  split
  · exact h
  · exact OutOk.ite h h

theorem execLineq {d b off} (h : s.StorageOk) : OutOk (execLineq d b off s) := by
  unfold Machine.execLineq
  refine h.guard ?_
  split <;> exact h

theorem execPref {b off o} (h : s.StorageOk) : OutOk (execPref b off o s) := by
  unfold Machine.execPref
  dsimp only
  split
  · exact h.sendLoad
  · exact h

theorem execHld {hr b off o} (h : s.StorageOk) : OutOk (execHld hr b off o s) := by
  unfold Machine.execHld
  refine h.guard ?_
  extract_lets u
  have hu : u.StorageOk := noteAcc h
  show State.StorageOk _
  split
  · exact hu.touchIf.dropRoute
  · exact hu

theorem execSeqld {dbl d b off sh o} (h : s.StorageOk) : OutOk (execSeqld dbl d b off sh o s) := by
  refine h.guard ?_
  split
  · exact h
  · exact h.sendLoad
  · exact touchIf h

/-! ## The table of token pages (R331 to R337) -/

theorem onPfx {a p f} (h : s.StorageOk) : (s.onPfx a p f).StorageOk := h

theorem putOut {x page} (h : s.StorageOk) : (s.putOut x page).StorageOk := h.foldlFst fun _ _ ha => ha.storeAt

theorem pfxLook {asid ns g prev k xs} (h : s.StorageOk) : (s.pfxLook asid ns g prev k xs).1.StorageOk := by
  induction xs generalizing s g prev k with
  | nil => exact h
  | cons x r ih =>
    unfold State.pfxLook
    dsimp only
    split
    · exact h
    · split
      · exact h
      · exact ih h.onPfx.putOut

theorem pfxlRun {q} (h : s.StorageOk) : (s.pfxlRun q).1.StorageOk := h.pfxLook

theorem pfxInsert {asid ns ts page parent depth} (h : s.StorageOk) : (s.pfxInsert asid ns ts page parent depth).1.StorageOk := by
  unfold State.pfxInsert
  dsimp only
  split
  · exact h
  · split
    · split <;> exact h
    · split
      · exact h
      · split
        · exact h
        · split <;> exact h

theorem pfxRelease {asid page} (h : s.StorageOk) : (s.pfxRelease asid page).1.StorageOk := by
  unfold State.pfxRelease
  split
  · exact h
  · split <;> exact h

theorem execPfxl {d b off o} (h : s.StorageOk) : OutOk (execPfxl d b off o s) :=
  h.guard h.pfxlRun.ws.seqCount.readSpan.readSpan.noteSpan

theorem execPfxi {d b off o} (h : s.StorageOk) : OutOk (execPfxi d b off o s) := h.guard h.pfxInsert.ws.seqCount.readSpan.readSpan

theorem execPfxr {d c o} (h : s.StorageOk) : OutOk (execPfxr d c o s) := h.guard h.pfxRelease.ws.seqCount

/-! ## The X, C and G slots at issue -/

theorem xIssue {i} (h : s.StorageOk) : OutOk (s.xIssue i) := by
  unfold State.xIssue
  split
  · exact h
  · exact h.guard h.fork.onA

theorem cIssue {i} (h : s.StorageOk) : OutOk (s.cIssue i) := by
  unfold State.cIssue
  refine h.guard ?_
  split
  · exact h
  · extract_lets o k u
    have hu : u.StorageOk := h.fork
    exact ite (hu.onC fun _ hc => hc) hu

theorem execGld {g inc} (h : s.StorageOk) : OutOk (execGld g inc s) := h.guard h

theorem execGldValueVisible {g} (h : s.StorageOk) : OutOk (execGldValueVisible g s) := h

end
end State.StorageOk

/-! ## Engine threads -/

namespace State.StorageOk
section
variable {s : State}

theorem begin {t js r} (h : s.StorageOk) : (s.begin t js r).StorageOk := h

theorem runThread {t n} (h : s.StorageOk) : (s.runThread t n).StorageOk := by
  unfold State.runThread
  extract_lets seen turned
  split
  · exact h.threadFault
  · exact ite h (h.begin.onC fun c hc => Core.PoolOk.consume (c := { c with latA := _, latB := _, badLatA := _, badLatB := _ }) hc)

theorem execXThreadStart (h : s.StorageOk) : OutOk (execXThreadStart s) := by
  unfold Machine.execXThreadStart
  split
  · exact OutOk.ite h h.runThread
  · exact h

theorem execDccEmulatedThread (h : s.StorageOk) : OutOk (execDccEmulatedThread s) := by
  unfold Machine.execDccEmulatedThread
  split
  · extract_lets busy
    exact OutOk.ite h.runThread h
  · exact h

theorem finish {t r} (h : s.StorageOk) : (s.finish t r).StorageOk := by
  unfold State.finish
  extract_lets bad ls entry wrote makes held u
  have hu : u.StorageOk := h.onC fun c hc => Core.PoolOk.endThread (Core.PoolOk.endRecord (Core.PoolOk.poisonLines hc.unmake.applyRes))
  split
  · split
    · exact hu
    · split
      · split
        · exact hu.fire
        · exact hu
      · exact hu
  · exact hu

theorem runStage {t} (h : s.StorageOk) : (s.runStage t).StorageOk := ite h (ite h.countStage.begin h.countStage.begin.finish)

theorem execEngineThreadComplete {id} (h : s.StorageOk) : OutOk (execEngineThreadComplete id s) := by
  unfold Machine.execEngineThreadComplete
  split
  · exact h
  · split
    · exact h.runStage
    · exact OutOk.ite h h.finish
    · exact h

theorem jobMeets {t c va} (h : s.StorageOk) : (s.jobMeets t c va).StorageOk := ite h.threadReplay h.instFault

/-- Mailboxes that a write was kept from come back; those that it has fired are marked. -/
theorem unquiet {q : Bool} {ms k} (h : s.StorageOk) : (if q then ({ s with mboxes := ms } : State) else s.tagMail ms k).StorageOk := ite h h

/-- What a thread's landed sector does to memory: its runs are written, each seen by the monitor of the core in focus. -/
theorem writeRuns {pa} {rs : List (Nat × List Byte)} (h : s.StorageOk) :
    (rs.foldl (fun (s : State) r => (s.writePhys s.core.id (s.troyOf s.core) (pa + r.1) r.2).onC (fun c => c.seeWrite (pa + r.1) r.2.length)) s).StorageOk :=
  h.foldl fun _ _ hs => hs.writePhys.onC fun _ hc => hc.seeWrite

theorem landJob {t j rest} (h : s.StorageOk) : (s.landJob t j rest).StorageOk := by
  unfold State.landJob
  extract_lets done scratch
  have hdone : ∀ u : State, u.StorageOk → (done u).StorageOk := fun _ hu => hu
  have hscratch : ∀ off, (scratch off).StorageOk := fun off => by
    dsimp only [scratch]
    exact ite h (hdone _ (h.onC fun _ hc => hc.landScratch))
  split
  · exact hscratch _
  · split
    · exact h.jobMeets
    · split
      · exact h.jobMeets
      · exact hscratch _
      · exact h.jobMeets
      · split
        · exact h.jobMeets
        · extract_lets p
          split
          · exact h
          · split
            · exact h.threadFault
            · split
              · split
                · exact h.noteAcc.sendFlit.onC fun _ hc => hc.onThread
                · exact hdone _ h.noteAcc.sendFlit
              · exact hdone _ (changeIf (noteAcc (unquiet (writeRuns (changeIf h withMboxes)))) withPoison)

theorem startMbox {t c} (h : s.StorageOk) : (s.startMbox t c).StorageOk := by
  unfold State.startMbox
  extract_lets rs ps rd
  clear_value rd
  split
  · exact h
  · exact h.askFar
  · exact h.threadMeets
  · split
    · split
      · exact h.threadMeets
      · exact ite ((ite h h.noteAcc).begin) h.threadMeets
    · exact h.threadMeets
    · exact h.threadMeets

theorem lostAt {va pa} (h : s.StorageOk) : (s.lostAt va pa).StorageOk := ite h.routeError h

theorem setColl {o x} (h : s.StorageOk) : (s.setColl o x).StorageOk := h

theorem sendColl {sc i u vals} (h : s.StorageOk) : (s.sendColl sc i u vals).StorageOk :=
  h.foldl fun _ _ hs => hs.foldlFst fun _ _ ha => ha.sendFlit

theorem contribute {t sc k sh vals f} (h : s.StorageOk) : (s.contribute t sc k sh vals f).StorageOk := h.sendColl.setColl.onC fun _ hc => hc.onThread

theorem collFault {t sc k f} (h : s.StorageOk) : (s.collFault t sc k f).StorageOk := by
  unfold State.collFault
  split
  · exact h
  · exact h.contribute

theorem collMeets {t sc k c va} (h : s.StorageOk) : (s.collMeets t sc k c va).StorageOk := ite h.threadMeets h.collFault

theorem noteTables {t c sh} (h : s.StorageOk) : (s.noteTables t c sh).StorageOk := h.foldl fun _ _ hs => hs.noteAcc

theorem noteSide {base els k} (h : s.StorageOk) : (s.noteSide base els k).StorageOk := h.foldl fun _ _ hs => hs.noteAcc

theorem startColl {t sh c sc k} (h : s.StorageOk) : (s.startColl t sh c sc k).StorageOk := by
  unfold State.startColl
  extract_lets alone conc
  split
  · exact h.threadMeets
  · split
    · exact h.askFar
    · refine threadMeets ?_
      cases s.groupOf with
      | none => exact h
      | some g => exact h.lostAt
    · exact h
    · split
      · exact h.threadMeets
      · split
        · exact h.contribute.onC fun _ hc => hc.onThread
        · split
          · exact h
          · exact h.askFar
          · exact h.collMeets
          · extract_lets u lead arith
            have hu : u.StorageOk := (ite h h.noteSide).noteTables
            split
            · split
              · exact hu.collMeets
              · exact hu.contribute.onC fun _ hc => hc.onThread
            · split
              · exact hu
              · exact hu.askFar
              · exact hu.collMeets
              · exact hu.contribute.onC fun _ hc => hc.onThread

theorem startCopy {t sh c} (h : s.StorageOk) : (s.startCopy t sh c).StorageOk := by
  unfold State.startCopy
  split
  · exact h.threadMeets
  · split
    · exact h
    · exact h.askFar
    · exact h.threadMeets
    · extract_lets q vs k out u go
      have hgo : ∀ met, (go met).StorageOk := fun met => (ite h h.noteSide).noteTables.begin.onC fun _ hc => hc.onThread
      split
      · exact h
      · exact h.askFar
      · exact hgo _
      · exact hgo _

theorem startC {t} (h : s.StorageOk) : (s.startC t).StorageOk := by
  unfold State.startC
  extract_lets first xBefore idle
  split
  · exact h
  · split
    · exact h.startMbox
    · split
      · exact h.startColl
      · exact h.startCopy
    · exact h

theorem execCopySectorLands {id} (h : s.StorageOk) : OutOk (execCopySectorLands id s) := by
  unfold Machine.execCopySectorLands
  split
  · exact h
  · split
    · exact h.landJob
    · exact h.threadMeets
    · exact h.startC
    · exact h

theorem useReds {sc ps far} (h : s.StorageOk) : (s.useReds sc ps far).StorageOk := by
  unfold State.useReds
  split <;> exact h

theorem deliverColl {p vals fl bad} (h : s.StorageOk) : (s.deliverColl p vals fl bad).StorageOk := by
  unfold State.deliverColl
  extract_lets home u v
  have hu : u.StorageOk := h.focus
  refine focus ?_
  dsimp only [v]
  split
  · exact hu
  · split
    · exact hu.threadFault
    · exact hu.begin

theorem collDelay {x} (h : s.StorageOk) : (s.collDelay x).StorageOk := by
  unfold State.collDelay
  extract_lets home u v
  have hu : u.StorageOk := h.focus
  refine focus ?_
  dsimp only [v]
  split
  · exact hu
  · exact ite hu.threadReplay hu

theorem execCollectiveInstanceReady {sc k far} (h : s.StorageOk) : OutOk (execCollectiveInstanceReady sc k far s) := by
  unfold Machine.execCollectiveInstanceReady
  extract_lets c others far' done ps differ bad v stops
  split
  · exact h
  · have hdone : ∀ u : State, u.StorageOk → (done u).StorageOk := fun _ hu => hu.setColl.useReds
    split
    · exact hdone _ (h.foldl fun _ _ hs => hs.deliverColl)
    · exact OutOk.ite (h.foldl fun _ _ hs => hs.collDelay) (hdone _ (h.foldl fun _ _ hs => hs.deliverColl))

/-! ## Loads and stores that are performed -/

theorem poisoned {va} (h : s.StorageOk) : (s.poisoned va).StorageOk := h.fatalTrap

theorem lostLoad {l pa} (h : s.StorageOk) : (s.lostLoad l pa).StorageOk := ite h.routeError h.routeError.poisoned

theorem memEpoch {pa w} (h : s.StorageOk) : (s.memEpoch pa w).StorageOk := h

theorem atomPart {l p op v e} (h : s.StorageOk) : (s.atomPart l p op v e).StorageOk := by
  unfold State.atomPart
  extract_lets old u
  have hu : u.StorageOk := by
    dsimp only [u]
    split
    · exact h.writePhys.memEpoch
    · exact h
  exact hu.tookFar.onC fun _ hc => hc.l1Drop.cntDown.endLoad

theorem fillL1 {l p} (h : s.StorageOk) : (s.fillL1 l p).StorageOk := by
  unfold State.fillL1
  extract_lets keep line
  split
  · exact h
  · split
    · exact h
    · split <;> exact h

theorem loadPart {l p r} (h : s.StorageOk) : (s.loadPart l p r).StorageOk := by
  unfold State.loadPart
  extract_lets got u
  have hu : u.StorageOk := h.fillL1.tookFar.onC fun c hc => by split <;> exact hc
  exact ite (hu.onC fun _ hc => hc.endLoad) hu

theorem execLoadReturn {uid} (h : s.StorageOk) : OutOk (execLoadReturn uid s) := by
  unfold Machine.execLoadReturn
  split
  · exact h
  · split
    · exact h.onC fun _ hc => hc.cntDown.endLoad
    · split
      · exact h
      · split
        · exact h.lostLoad
        · split
          · exact h.askFar
          · split
            · exact h.poisoned
            · split
              · exact h.atomPart
              · exact h.loadPart

theorem execStorePerformed {uid} (h : s.StorageOk) : OutOk (execStorePerformed uid s) := by
  unfold Machine.execStorePerformed
  split
  · exact h
  · split
    · exact h
    · split
      · split
        · exact OutOk.ite h (h.onC fun _ hc => hc.cntDown.landStore.nextStore)
        · exact h.onC fun _ hc => hc.cntDown.nextStore
      · exact OutOk.ite h (h.storeAt.onC fun c hc => Core.PoolOk.nextStore (by split <;> exact hc))

theorem execGatedStoreRelease (h : s.StorageOk) : OutOk (execGatedStoreRelease s) := by
  unfold Machine.execGatedStoreRelease
  split
  · exact h
  · split <;> exact h

theorem execClusAccessArrive {uid} (h : s.StorageOk) : OutOk (execClusAccessArrive uid s) := by
  unfold Machine.execClusAccessArrive
  split
  · exact h
  · split
    · exact h
    · split
      · exact h
      · extract_lets put
        have hput : ∀ q : Core, q.PoolOk → (put q).PoolOk := fun q hq => by
          dsimp only [put]
          split
          · exact hq.landStore
          · exact hq
        exact (h.onCore hput).onC fun _ hc => hc

end
end State.StorageOk

/-! ## Replay records and their verdicts -/

namespace State.StorageOk
section
variable {s : State}

theorem retryReplay (h : s.StorageOk) : s.retryReplay.StorageOk := by
  unfold State.retryReplay
  extract_lets u
  have hu : u.StorageOk := by
    dsimp only [u]
    split
    · exact h.replayCore
    · exact h
  refine hu.foldl fun q t hq => ?_
  split
  · exact hq.threadReplay
  · exact hq

theorem retryCtx {l} (h : s.StorageOk) : (s.retryCtx l).StorageOk := focus (h.foldl fun _ _ hs => hs.focus.retryReplay)

theorem takeQueue {q cons} (h : s.StorageOk) : (s.takeQueue q cons).StorageOk := by
  unfold State.takeQueue
  split
  · exact h
  · exact h.onCtxQ.retryCtx
  · exact h
  · exact h

theorem execReplayQueueRoom (h : s.StorageOk) : OutOk (execReplayQueueRoom s) := h.onCtxQ.retryReplay

/-- An answer to a replay record keeps what the answers to a core and to a thread keep. -/
theorem answer {d k core thread} (h : s.StorageOk) (hcore : ∀ (q : State) fs, q.StorageOk → (core q fs).StorageOk)
    (hthread : ∀ (q : State) t c va, q.StorageOk → (thread q t c va).StorageOk) : (s.answer d k core thread).StorageOk := by
  unfold State.answer
  split
  · exact h
  · extract_lets home u v
    have hu : u.StorageOk := h.focus
    refine focus ?_
    dsimp only [v]
    split
    · exact hcore _ _ hu
    · split
      · split
        · exact hthread _ _ _ _ hu
        · exact hu
      · exact hu
    · exact hu

theorem setReply {d k v} (h : s.StorageOk) : (s.setReply d k v).StorageOk := h

theorem execReplyResume {d k} (h : s.StorageOk) : OutOk (execReplyResume d k s) :=
  h.setReply.answer (fun _ _ hq => hq) (fun _ _ _ _ hq => hq.onC fun _ hc => hc.onThread)

theorem deliverThread {t c va} (h : s.StorageOk) : (s.deliverThread t c va).StorageOk := by
  unfold State.deliverThread
  split
  · exact h.collFault
  · exact h.instFault

theorem execReplyDeliver {d k} (h : s.StorageOk) : OutOk (execReplyDeliver d k s) :=
  h.setReply.answer (fun _ _ hq => precise (hq.onC fun _ hc => hc)) (fun _ _ _ _ hq => hq.deliverThread)

theorem execReplyKill {d k} (h : s.StorageOk) : OutOk (execReplyKill d k s) :=
  h.setReply.answer (fun _ _ hq => hq.fatal) (fun _ _ _ _ hq => hq.fatal)

/-! ## Launches and their tasks -/

theorem setSlot {l i x} (h : s.StorageOk) : (s.setSlot l i x).StorageOk := h

theorem endTask {n} (h : s.StorageOk) : (s.endTask n).StorageOk := by
  unfold State.endTask
  dsimp only
  split
  · split
    · exact h
    · have hf : ∀ l i x, ((s.setSlot l i x).onCore n Core.freed).StorageOk := fun _ _ _ => h.setSlot.onCore fun _ hc => hc.freed
      split
      · exact hf _ _ _
      · exact withCarried (hf _ _ _)
  · exact h

theorem settle (h : s.StorageOk) : s.settle.StorageOk := h.foldl fun _ _ hs => hs.endTask

theorem requestFull {n} (h : s.StorageOk) : (s.requestFull n).StorageOk := by
  unfold State.requestFull
  split
  · exact h
  · extract_lets hit
    exact h.mapCores (f := hit) (fun c hc => by dsimp only [hit]; split <;> exact hc) rfl rfl rfl

theorem sliceOut {b} (h : s.StorageOk) : (s.sliceOut b).StorageOk := by
  unfold State.sliceOut
  split
  · exact h
  · extract_lets core want
    clear_value want
    split
    · exact h
    · exact ite h (ite h.requestFull h)

theorem stopStream {d st csb} (h : s.StorageOk) : (s.stopStream d st csb).StorageOk := by
  unfold State.stopStream
  split
  · exact h
  · exact h.onDisp

theorem readFault {d st a c va n} (h : s.StorageOk) : (s.readFault d st a c va n).StorageOk := h.lostRead.stopStream.dispReplay

/-- A write of a dispatcher that is performed. -/
theorem writeV {t d a va bs} (h : s.StorageOk) (ht : s.writeV d a va bs = .ok t) : t.StorageOk := by
  unfold State.writeV at ht
  split at ht
  · cases ht
  · cases ht
    exact h.foldlFst fun _ _ ha => ha.dieWrite

theorem writeDone {d r q st} (h : s.StorageOk) : (s.writeDone d r q st).1.StorageOk := by
  unfold State.writeDone
  split
  · exact h
  · split
    · exact h
    · split
      · rename_i ht
        exact h.writeV ht
      · exact h

theorem doneFault {d r q c} (h : s.StorageOk) : (s.doneFault d r q c).StorageOk := by
  unfold State.doneFault
  split
  · exact h
  · exact h.dispReplay

theorem reject {d r q code} (h : s.StorageOk) : (s.reject d r q code).StorageOk := h.writeDone.doneFault.dispReplay

theorem addLaunch {x} (h : s.StorageOk) : (s.addLaunch x).StorageOk := h

theorem execLaunchRecordRead {d st} (h : s.StorageOk) : OutOk (execLaunchRecordRead d st s) := by
  unfold Machine.execLaunchRecordRead
  extract_lets x mine
  split
  · exact h
  · split
    · exact h.askLater
    · split
      · exact h.readFault
      · extract_lets r
        split
        · exact h
        · split
          · exact h.countSeq.readFault
          · exact h
          · exact h.countSeq.reject.stopStream
          · exact h.countSeq.onDisp.addLaunch

theorem execCoreReserve {l} (h : s.StorageOk) : OutOk (execCoreReserve l s) := by
  have hq : s.settle.StorageOk := h.settle
  unfold Machine.execCoreReserve
  extract_lets q
  split
  · exact h
  · split
    · exact h
    · split
      · exact OutOk.ite (hq.foldl fun _ _ hs => hs.setSlot) h
      · split
        · exact h
        · exact OutOk.ite h hq

theorem popMail {m} (h : s.StorageOk) : (s.popMail m).StorageOk := by
  unfold State.popMail
  split <;> exact h

theorem putBlock {d e} (h : s.StorageOk) : (s.putBlock d e).StorageOk := ite h (h.setMem (Mem.wf_put _ _ _ h.1) rfl rfl)

theorem passCore {n k} (h : s.StorageOk) : (s.passCore n k).StorageOk := withCarried (h.foldl fun _ _ hs => hs.putBlock)

theorem wipeTlb {n l} (h : s.StorageOk) : (s.wipeTlb n l).StorageOk := ite h h

theorem carriedRecord {d st n} (h : s.StorageOk) : (s.carriedRecord d st n).StorageOk := by
  unfold State.carriedRecord
  dsimp only
  split
  · exact ite h.dieRecord h
  · exact h

theorem takeCarried {d st n} (h : s.StorageOk) : (s.takeCarried d st n).2.StorageOk := by
  unfold State.takeCarried
  dsimp only
  split
  · exact h
  · split
    · exact h
    · split
      · exact h.setMem (Mem.wf_put _ _ _ h.1) rfl rfl
      · exact h

theorem startTask {l slot t} (h : s.StorageOk) : (s.startTask l slot t).StorageOk := by
  unfold State.startTask
  extract_lets core c own u lost v r q
  have hu : u.StorageOk := h.wipeTlb.passCore
  have hv : v.StorageOk := by
    dsimp only [v]
    cases own with
    | none => exact hu
    | some k => exact hu.carriedRecord
  have hr : r.2.StorageOk := by
    dsimp only [r]
    cases own with
    | none => exact hv
    | some k => exact hv.takeCarried
  have hq : q.StorageOk := hr.setSlot.onCore fun _ hc => hc.fresh
  exact ite hq.focus.fatal.focus hq

theorem execTaskStart {l slot} (h : s.StorageOk) : OutOk (execTaskStart l slot s) := by
  have hq : s.settle.StorageOk := h.settle
  unfold Machine.execTaskStart
  extract_lets q
  split
  · exact h
  · split
    · exact h
    · extract_lets pop
      have hpop : ∀ u : State, u.StorageOk → (pop u).StorageOk := fun _ hu => ite hu.popMail hu
      split
      · exact OutOk.ite h ((hpop _ hq.startTask).releaseStages)
      · exact OutOk.ite h ((hpop _ (hq.foldl fun _ _ hs => hs.startTask)).releaseStages)
      · exact h

theorem dropLaunch {l} (h : s.StorageOk) : (s.dropLaunch l).StorageOk := h.mapCores (fun _ hc => hc.freeIf) rfl rfl rfl

theorem fireSucc {d r} (h : s.StorageOk) : (s.fireSucc d r).StorageOk := by
  unfold State.fireSucc
  split
  · exact h
  · split
    · exact h.fire
    · exact h

theorem complete {l st} (h : s.StorageOk) : (s.complete l st).StorageOk := by
  unfold State.complete
  extract_lets u v w x
  have hv : v.StorageOk := dropLaunch (ite h.popMail h)
  have hx : x.StorageOk := hv.writeDone.doneFault
  split
  · exact hx.stopStream
  · exact ite hx.stopStream (ite hx.fireSucc hx)

theorem execLaunchComplete {l} (h : s.StorageOk) : OutOk (execLaunchComplete l s) := by
  unfold Machine.execLaunchComplete
  split
  · exact h
  · exact OutOk.ite h (OutOk.ite h.complete (OutOk.ite (complete (h.foldl fun _ _ hs => ite hs.endTask hs)) h))

theorem execLaunchPromote {l} (h : s.StorageOk) : OutOk (execLaunchPromote l s) := by
  have hq : s.settle.StorageOk := h.settle
  unfold Machine.execLaunchPromote
  extract_lets q
  split
  · exact h
  · extract_lets w
    exact OutOk.ite hq.onLaunch h

theorem pressFor {x core} (h : s.StorageOk) : (s.pressFor x core).StorageOk := by
  unfold State.pressFor
  extract_lets c k
  split
  · exact h
  · exact ite h (ite h.requestFull (h.onCore fun _ hc => hc))

theorem execLaunchUrgent {l} (h : s.StorageOk) : OutOk (execLaunchUrgent l s) := by
  have hq : s.settle.StorageOk := h.settle
  unfold Machine.execLaunchUrgent
  extract_lets q
  split
  · exact h
  · extract_lets dl lead need held
    exact OutOk.ite (onLaunch (hq.foldl fun _ _ hs => hs.pressFor)) h

theorem turnAway {d m} (h : s.StorageOk) : (s.turnAway d m).StorageOk := by
  unfold State.turnAway
  split
  · exact h.lostRead.dispReplay
  · exact h.reject
  · exact h
  · exact h

theorem execHandlerLaunchStart {m} (h : s.StorageOk) : OutOk (execHandlerLaunchStart m s) := by
  unfold Machine.execHandlerLaunchStart
  split
  · exact h
  · extract_lets mine
    split
    · split
      · exact h
      · exact turnAway h
    · split
      · exact h
      · split
        · exact h.readMail
        · exact h.askLater
    · exact h
    · split
      · exact h
      · split
        · exact h.addLaunch
        · exact h.turnAway.popMail

/-! ## Saves and restores -/

theorem stopCore (h : s.StorageOk) : s.stopCore.StorageOk := h

theorem stopFactor {n} (h : s.StorageOk) : (s.stopFactor n).StorageOk := by
  unfold State.stopFactor
  split
  · exact h
  · exact ite h (ite (h.runThread.onC fun _ hc => hc) h)

/-- What a full save writes: the save area's regions, from the core's pool and side array and from its registers (R192). -/
theorem saveFull {c l base} (h : s.StorageOk) (hc : c.PoolOk) : (s.saveFull c l base).StorageOk := by
  unfold State.saveFull
  extract_lets spans lost k lines latches regs side tz pool
  have hregs : regs.wf = true := Mem.wf_puts _ _ (Mem.wf_blit _ _ _ _ _ (Mem.wf_blit _ _ _ _ _ h.1 rfl) rfl)
  have hside : side.wf = true := Mem.wf_blit _ _ _ _ _ hregs hc.2
  have htz : tz.wf = true := Mem.wf_blit _ _ _ _ _ hside hc.1
  have hpool : pool.wf = true := Mem.wf_blits htz hc.1
  exact ite h (h.setMem (Mem.wf_put _ _ _ hpool) rfl rfl)

theorem putBars {n x pa} (h : s.StorageOk) : (s.putBars n x pa).StorageOk := by
  unfold State.putBars
  extract_lets d
  exact ite h (h.setMem (Mem.wf_put _ _ _ h.1) rfl rfl)

theorem saveBars {l} (h : s.StorageOk) : (s.saveBars l).StorageOk := by
  unfold State.saveBars
  split
  · exact h
  · split
    · exact h
    · refine withBarriers (h.foldl fun q i hq => ?_)
      split
      · exact hq.putBars
      · exact hq

theorem execFullSave (h : s.StorageOk) : OutOk (execFullSave s) := by
  unfold Machine.execFullSave
  split
  · extract_lets ended k u v w
    split
    · exact h
    · split
      · exact h.fatal
      · have hw : w.StorageOk := ((h.saveFull h.core).onC fun _ hc => hc.freed).onLaunch
        exact ite hw.settle.saveBars hw
  · exact h

/-- A restored core's pool and side array come from the save area, over what its context left there (R191, R192). -/
theorem restoreCore {c l slot base} (h : s.StorageOk) (hc : c.PoolOk) : (s.restoreCore c l slot base).PoolOk := by
  have hleft : Mem.wf (if c.lastCtx ≠ some l.id then [] else c.pool) = true := by
    split
    · rfl
    · exact hc.1
  exact ⟨Mem.wf_blits (Mem.wf_blit _ _ _ _ _ hleft h.1) h.1, Mem.wf_blit _ _ _ _ _ rfl h.1⟩

theorem restoreSlot {l slot} (h : s.StorageOk) : (s.restoreSlot l slot).StorageOk := by
  unfold State.restoreSlot
  extract_lets core c base home u n v w x
  have hu : u.StorageOk := h.wipeTlb.passCore
  have hn : n.PoolOk := hu.restoreCore hu.coreAt
  have hv : v.StorageOk := (hu.onCore fun _ _ => hn).setSlot.focus
  have hw : w.StorageOk := ite hv.dieRecord hv
  refine focus (ite hw.fatal ?_)
  split
  · exact hw
  · exact hw.fork.onC fun _ hc => hc

theorem restoreBars {l slot} (h : s.StorageOk) : (s.restoreBars l slot).StorageOk := h

theorem execFullRestore {l slot} (h : s.StorageOk) : OutOk (execFullRestore l slot s) := by
  have hq : s.settle.StorageOk := h.settle
  unfold Machine.execFullRestore
  extract_lets q
  split
  · exact h
  · split
    · exact h
    · split
      · extract_lets all
        exact OutOk.ite h (releaseStages (hq.foldl fun _ _ hs => hs.restoreBars.restoreSlot))
      · exact OutOk.ite hq.restoreSlot.releaseStages h

theorem execLightPreempt (h : s.StorageOk) : OutOk (execLightPreempt s) := by
  unfold Machine.execLightPreempt
  split
  · exact h
  · split
    · exact h
    · extract_lets core
      exact OutOk.ite h.endTask.passCore h

end
end State.StorageOk

/-! ## The registers of the package -/

namespace State.StorageOk
section
variable {s : State}

theorem writeRun {d v} (h : s.StorageOk) : (s.writeRun d v).StorageOk := h
theorem writeCsb {d st v} (h : s.StorageOk) : (s.writeCsb d st v).StorageOk := h

theorem mbCommand {d} {f : State → State × BitVec 4} (h : s.StorageOk) (hf : (f s).1.StorageOk) : (s.mbCommand d f).StorageOk :=
  ite h hf.onDisp

theorem mbRegister {d} (h : s.StorageOk) : (s.mbRegister d).1.StorageOk := by
  unfold State.mbRegister
  dsimp only
  split
  · exact h
  · split
    · exact h
    · split
      · exact h
      · split
        · exact h
        · split
          · exact h
          · split <;> exact h

theorem mbUnregister {d} (h : s.StorageOk) : (s.mbUnregister d).1.StorageOk := by
  unfold State.mbUnregister
  dsimp only
  split
  · exact h
  · split
    · exact h
    · split
      · exact h
      · split
        · exact h
        · exact h.withMboxes.foldl fun _ _ hs => hs.dropLaunch

theorem execMailboxRegister {d} (h : s.StorageOk) : OutOk (execMailboxRegister d s) := h.mbCommand h.mbRegister

theorem execMailboxUnregister {d} (h : s.StorageOk) : OutOk (execMailboxUnregister d s) := h.mbCommand h.mbUnregister

theorem execTlbInvalidate (h : s.StorageOk) : OutOk (execTlbInvalidate s) := by
  unfold Machine.execTlbInvalidate
  split <;> exact h

theorem execDescriptorWrite {v} (h : s.StorageOk) : OutOk (execDescriptorWrite v s) := by
  unfold Machine.execDescriptorWrite
  split <;> exact h

theorem execInvalidateComplete (h : s.StorageOk) : OutOk (execInvalidateComplete s) := by
  unfold Machine.execInvalidateComplete
  split
  · exact h
  · exact OutOk.ite h h

theorem execAttestRequest (h : s.StorageOk) : OutOk (execAttestRequest s) := by
  unfold Machine.execAttestRequest
  split
  · exact h
  · split <;> exact h

theorem execAttestDone (h : s.StorageOk) : OutOk (execAttestDone s) := OutOk.ite h (h.crownRead fun _ ht => ht.crownPut.withSec)

theorem execSlotHold {d v} (h : s.StorageOk) : OutOk (execSlotHold d v s) := by
  unfold Machine.execSlotHold
  dsimp only
  split
  · exact h
  · split
    · exact h
    · split
      · split
        · exact h.onDisp.onLaunch.requestFull
        · exact h
      · exact h

theorem execSlotDrop {d} (h : s.StorageOk) : OutOk (execSlotDrop d s) := by
  unfold Machine.execSlotDrop
  dsimp only
  split
  · exact h
  · split <;> exact h

theorem lostSaves {d r code} (h : s.StorageOk) : (s.lostSaves d r code).StorageOk := by
  unfold State.lostSaves
  split
  · exact h
  · split
    · exact h.dieRecord
    · exact h

theorem adopt {d v} (h : s.StorageOk) : (s.adopt d v).StorageOk := by
  unfold State.adopt
  dsimp only
  split
  · exact h.askLater
  · split
    · exact h.lostRead.dispReplay
    · split
      · exact h.lostRead.dispReplay
      · exact h
      · exact h.lostSaves.countSeq.reject
      · exact h.countSeq.addLaunch

theorem execAdoptLaunch {d v} (h : s.StorageOk) : OutOk (execAdoptLaunch d v s) := OutOk.ite h (adopt (ite h h.onDisp))

theorem writeCaps (h : s.StorageOk) : s.writeCaps.StorageOk := by
  unfold State.writeCaps
  dsimp only
  exact ite h (h.setMem (Mem.wf_put _ _ _ h.1) rfl rfl)

theorem writePkg {v} (h : s.StorageOk) : (s.writePkg v).StorageOk := ite h (writeCaps h)

theorem writeTrans {off v} (h : s.StorageOk) : (s.writeTrans off v).StorageOk := by
  unfold State.writeTrans
  split
  · exact h
  · split
    · exact h
    · exact h
    · exact h
    · exact ite (h.outState h.execTlbInvalidate) h
    · exact h
    · exact h
    · exact h
    · exact h.outState h.execDescriptorWrite
    · exact h

theorem writeSec {off v} (h : s.StorageOk) : (s.writeSec off v).StorageOk := by
  unfold State.writeSec
  split
  · exact ite h h
  · exact ite h h
  · exact ite (h.outState h.execAttestRequest) h
  · exact ite h h
  · exact h

theorem writePorts {off v} (h : s.StorageOk) : (s.writePorts off v).StorageOk := by
  unfold State.writePorts
  split
  · exact h
  · split <;> exact h

theorem writeOx {off v} (h : s.StorageOk) : (s.writeOx off v).StorageOk := by
  unfold State.writeOx
  split
  · exact h.writePkg
  · split <;> exact h

theorem writeReply {d v} (h : s.StorageOk) : (s.writeReply d v).StorageOk := by
  unfold State.writeReply
  dsimp only
  split
  · exact h.outState h.execReplyResume
  · exact h.outState h.execReplyDeliver
  · exact h.outState h.execReplyKill
  · exact h.setReply

theorem writeMbcmd {d v} (h : s.StorageOk) :
    (match wbits v 1 0 with
      | 1 => s.mbCommand d (fun s => s.mbRegister d)
      | 2 => s.mbCommand d (fun s => s.mbUnregister d)
      | _ => s).StorageOk := by
  split
  · exact h.mbCommand h.mbRegister
  · exact h.mbCommand h.mbUnregister
  · exact h

theorem writeDisp {d off v} (h : s.StorageOk) : (s.writeDisp d off v).StorageOk :=
  ite h.writeRun <| ite h.writeCsb <| ite h.onDisp <| ite h.onDisp <| ite h <| ite h.writeReply <| ite (h.outState h.execSlotHold) <|
  ite (ite (h.outState h.execSlotDrop) h) <| ite (h.outState h.execAdoptLaunch) <| ite h.onDisp <| ite (ite h h.onDisp) <|
  ite (ite h h.onDisp) <| ite (ite h h.onDisp) <| ite h.writeMbcmd h

theorem writePlim {v} (h : s.StorageOk) : (s.writePlim v).StorageOk := h

theorem regWrite {b off v} (h : s.StorageOk) : (s.regWrite b off v).StorageOk :=
  ite h.writeTrans <| ite h.writeSec <| ite h.writePorts <| ite (ite h.writePlim h) <| ite (ite h h) <| ite h.writeOx <|
  ite h.writeDisp <| ite (ite h h) h

/-! ## Power, start-up and links -/

theorem execPowerManagerTick {p m} (h : s.StorageOk) : OutOk (execPowerManagerTick p m s) := by
  unfold Machine.execPowerManagerTick
  dsimp only
  split
  · exact h
  · split
    · exact h
    · split
      · split <;> exact h
      · split
        · split <;> exact h
        · exact h

theorem onDie {d f} (h : s.StorageOk) : (s.onDie d f).StorageOk := h
theorem dropLink {d k} (h : s.StorageOk) : (s.dropLink d k).StorageOk := h
theorem remapSlices (h : s.StorageOk) : s.remapSlices.StorageOk := h
theorem offlineDies (h : s.StorageOk) : s.offlineDies.StorageOk := h

/-- Without power nothing is stored. -/
theorem powerOff : s.powerOff.StorageOk := ⟨rfl, ⟨rfl, rfl⟩, fun _ hc => absurd hc List.not_mem_nil⟩

theorem powerOn : s.powerOn.StorageOk := powerOff (s := s)

theorem failUnit {n u} (h : s.StorageOk) : (s.failUnit n u).StorageOk := by
  unfold State.failUnit
  split <;> exact h

theorem passUnit {n u} (h : s.StorageOk) : (s.passUnit n u).StorageOk := ite h h

theorem bootNote {b : Boot} {n u a x} (h : b.st.StorageOk) : (b.note n u a x).st.StorageOk := h.withJournal

theorem bootUnit {b : Boot} {r stop n u} (h : b.st.StorageOk) : (b.unit r stop n u).st.StorageOk := by
  unfold Boot.unit
  split
  · exact h
  · split
    · exact (bootNote h).failUnit
    · extract_lets b1 b2 b3
      have h1 : b1.st.StorageOk := bootNote h
      split
      · exact h1
      · split
        · split
          · exact (bootNote h1).withInReset
          · exact (bootNote h1).failUnit
        · exact (bootNote h1).passUnit

theorem bootAfter {b : Boot} {n} (h : b.st.StorageOk) : (b.after n).st.StorageOk := by
  unfold Boot.after
  split
  · exact h
  · split
    · exact h
    · exact h.remapSlices
    · exact h.offlineDies
    · exact h.writeCaps
    · exact h

theorem boot {r stop} : (s.boot r stop).st.StorageOk :=
  List.foldlRecOn (motive := fun b : Boot => b.st.StorageOk) _ _ powerOn fun _ hb _ _ =>
    bootAfter (List.foldlRecOn (motive := fun b : Boot => b.st.StorageOk) _ _ hb fun _ hu _ _ => bootUnit hu)

theorem execBootStart {r} (h : s.StorageOk) : OutOk (execBootStart r s) := OutOk.ite h boot.withBooted

theorem execPowerLoss {n cut} : OutOk (execPowerLoss n cut s) := by
  unfold Machine.execPowerLoss
  split <;> exact powerOff

theorem execCubeFlitReceive {d k good} (h : s.StorageOk) : OutOk (execCubeFlitReceive d k good s) := by
  unfold Machine.execCubeFlitReceive
  dsimp only
  exact OutOk.ite h (OutOk.ite h (writeCaps (ite (dropLink h) (onDie h))))

theorem flitChecks {p x} (h : s.StorageOk) : (s.flitChecks p x).StorageOk := h.foldl fun _ _ hs => ite hs hs.dieRecord

theorem takeFlit {p f k r} (h : s.StorageOk) (hr : s.takeFlit p f k = some r) : r.2.StorageOk := by
  unfold State.takeFlit at hr
  dsimp only at hr
  split at hr
  · cases hr
    exact h
  · cases hr

theorem onFlit {p f k go} (h : s.StorageOk) (hgo : ∀ x (t : State), t.StorageOk → (go x t).StorageOk) : OutOk (s.onFlit p f k go) := by
  unfold State.onFlit
  split
  · exact h
  · rename_i hr
    have ht := h.takeFlit hr
    exact hgo _ _ (ite ht ht.flitChecks)

theorem flitSectors {p x} (h : s.StorageOk) : (s.flitSectors p x).StorageOk :=
  h.foldl fun _ _ hs => ite hs.dieWrite hs.dieWrite.withPoison

theorem execOxlinkRead {p f} (h : s.StorageOk) : OutOk (execOxlinkRead p f s) :=
  h.onFlit fun _ _ ht => withOx (ht.foldl fun _ _ hs => ite hs.dieRecord hs)

theorem execOxlinkWrite {p f} (h : s.StorageOk) : OutOk (execOxlinkWrite p f s) := h.onFlit fun _ _ ht => ht.flitSectors

theorem answerFar {x} (h : s.StorageOk) : (s.answerFar x).StorageOk := by
  unfold State.answerFar
  split <;> exact h

theorem execOxlinkCompletion {p f} (h : s.StorageOk) : OutOk (execOxlinkCompletion p f s) := h.onFlit fun _ _ ht => ht.answerFar

theorem execOxlinkMailbox {p f} (h : s.StorageOk) : OutOk (execOxlinkMailbox p f s) :=
  h.onFlit fun _ _ ht => ht.withMboxes.flitSectors.withMboxes.fire

theorem execOxlinkReduce {p f} (h : s.StorageOk) : OutOk (execOxlinkReduce p f s) := h.onFlit fun _ _ ht => ht.withOx

theorem execOxlinkBroadcast {p f} (h : s.StorageOk) : OutOk (execOxlinkBroadcast p f s) := h.onFlit fun _ _ ht => ht.flitSectors

theorem refuse {p} (h : s.StorageOk) : (s.refuse p).StorageOk := h

theorem refusedWalk {p rid va n} (h : s.StorageOk) : (s.refusedWalk p rid va n).StorageOk := by
  unfold State.refusedWalk
  split
  · exact h.dieRecord
  · exact h

theorem execInboundWrite {p rid va bs} (h : s.StorageOk) : OutOk (execInboundWrite p rid va bs s) := by
  unfold Machine.execInboundWrite
  split
  · exact h.refusedWalk.refuse
  · exact h.crownPut

theorem execInboundRead {p rid va n} (h : s.StorageOk) : OutOk (execInboundRead p rid va n s) := by
  unfold Machine.execInboundRead
  dsimp only
  split
  · exact h.refusedWalk.refuse.withPorts
  · exact h.crownRead fun _ ht => ht.withPorts

/-! ## Errors of the silicon, and what the host does -/

theorem countErr {d u b} (h : s.StorageOk) : (s.countErr d u b).StorageOk := h

theorem coreRecord {c} (h : s.StorageOk) : (s.coreRecord c).StorageOk := ite h.dieRecord h.sendFatal

theorem coreLost (h : s.StorageOk) : s.coreLost.StorageOk := h.countErr.coreRecord

theorem spoil {pa} (h : s.StorageOk) : (s.spoil pa).StorageOk := h

theorem strikeMemory {u pa} (h : s.StorageOk) : (s.strikeMemory u pa).StorageOk := by
  unfold State.strikeMemory
  split
  · exact h.countErr.dieRecord.spoil
  · exact h

theorem strikeCheck {d u pa} (h : s.StorageOk) : (s.strikeCheck d u pa).StorageOk := by
  unfold State.strikeCheck
  split
  · exact h.dieRecord.spoil
  · exact h

theorem commitLost {pc a x} (h : s.StorageOk) : (s.commitLost pc a x).StorageOk := h.coreLost.fatal

theorem stpLost {b n} (h : s.StorageOk) : (s.stpLost b n).StorageOk := by
  unfold State.stpLost
  dsimp only
  split
  · exact h
  · split
    · exact h.commitLost
    · exact h

theorem buildLost (h : s.StorageOk) : s.buildLost.StorageOk := by
  unfold State.buildLost
  split
  · exact h
  · split
    · exact h.commitLost
    · exact h

theorem strike {k} (h : s.StorageOk) : (s.strike k).StorageOk := by
  have hlost : ∀ f : Core → Core, (∀ c, c.PoolOk → (f c).PoolOk) → (s.coreLost.onC f).StorageOk := fun _ hf => h.coreLost.onC hf
  have hfails : ∀ f : Core → Core, (∀ c, c.PoolOk → (f c).PoolOk) → ((s.coreRecord Cause.checkFail).onC f).StorageOk :=
    fun _ hf => h.coreRecord.onC hf
  unfold State.strike
  dsimp only
  split
  case h_1 => exact h.countErr
  case h_2 => exact h.strikeMemory
  case h_3 => exact h.strikeCheck
  case h_4 => exact ite (hlost _ fun _ hc => hc.spoilPool) h
  case h_5 => exact ite (hfails _ fun _ hc => hc.spoilPool) h
  case h_6 => exact hlost _ fun _ hc => hc
  case h_7 => exact hfails _ fun _ hc => hc
  case h_8 => exact hlost _ fun _ hc => by split <;> exact hc
  case h_9 => exact hfails _ fun _ hc => by split <;> exact hc
  case h_10 => exact hlost _ fun _ hc => by split <;> exact hc
  case h_11 => exact hfails _ fun _ hc => by split <;> exact hc
  case h_12 =>
    split
    · exact h.commitLost
    · exact h
  case h_13 => exact ite (hfails _ fun _ hc => hc.spoilGate) h
  case h_14 => exact h.stpLost
  case h_15 => exact h.buildLost
  case h_16 => exact ite h.coreLost.fatal h

theorem appWrite {pa bs} (h : s.StorageOk) : (s.appWrite pa bs).StorageOk := h.crownPut

theorem appRead {pa n} (h : s.StorageOk) : (s.appRead pa n).StorageOk := h.crownRead fun _ ht => ht.withAppOut

theorem lookAhead {pa} (h : s.StorageOk) : (s.lookAhead pa).StorageOk := by
  rw [State.lookAhead_core]
  exact h

/-! ## The issue of a bundle -/

theorem poised (h : s.StorageOk) : s.poised.StorageOk := h.onC fun _ hc => hc.congr rfl rfl

theorem startRp {b} (h : s.StorageOk) : (s.startRp b).StorageOk := ite (h.onC fun _ hc => Core.PoolOk.commit hc) h

theorem ready {b} (h : s.StorageOk) : (s.ready b).StorageOk := ite h.poised.startRp h.poised.startRp.startRp

theorem lookWait {m} (h : s.StorageOk) : (s.lookWait m).StorageOk := h

theorem skipBundle (h : s.StorageOk) : s.skipBundle.StorageOk := h.onC fun _ hc => Core.PoolOk.completed hc

theorem lostReads {b} (h : s.StorageOk) : (s.lostReads b).StorageOk := by
  refine h.foldl fun q p hq => ?_
  split
  · exact hq.lostRecord
  · exact hq.lostRecord
  · exact hq.lostRecord
  · exact hq.lostRecord
  · exact hq

theorem lostFor {b fs} (h : s.StorageOk) : (s.lostFor b fs).StorageOk := by
  unfold State.lostFor
  split
  · exact h
  · exact h.lostReads.foldl fun _ _ hs => hs.walkRecord

theorem passBundle {b} (h : s.StorageOk) : (s.passBundle b).StorageOk := ite h (ite h (h.onC fun _ hc => hc.foldl fun _ _ hk => hk.passAhead))

theorem lostFetch (h : s.StorageOk) : s.lostFetch.StorageOk := by
  unfold State.lostFetch
  split
  · exact h
  · split
    · exact h.lostRecord
    · exact h.walkRecord

theorem execIllegal {m} (h : s.StorageOk) : OutOk (execIllegal m s) := by
  unfold Machine.execIllegal
  split
  · exact h
  · split
    · exact OutOk.ite h.takeTrap h
    · exact h

theorem execBundleFetchFault (h : s.StorageOk) : OutOk (execBundleFetchFault s) := by
  unfold Machine.execBundleFetchFault
  split
  · exact h.lostFetch.takeTrap
  · exact h

theorem execStallLimit (h : s.StorageOk) : OutOk (execStallLimit s) := by
  unfold Machine.execStallLimit
  split
  · dsimp only
    split
    · exact OutOk.ite h.ready.takeTrap h
    · exact h
  · exact h

theorem execFullPreemptRequest {n} (h : s.StorageOk) : OutOk (execFullPreemptRequest n s) := by
  unfold Machine.execFullPreemptRequest
  dsimp only
  split
  · exact h
  · split
    · split
      · exact h.stopCore.stopFactor
      · split
        · exact h
        · have hr : ∀ b, (((s.ready b).onC Core.rollback).stopCore.stopFactor (max 1 n)).StorageOk := fun _ =>
            (h.ready.onC fun _ hc => hc.rollback).stopCore.stopFactor
          split
          · exact hr _
          · exact hr _
          · exact hr _
          · exact h
    · exact h.stopCore.stopFactor
    · exact h.stopCore.stopFactor
    · exact h.stopFactor
    · exact h

end
end State.StorageOk


/-! ## Every instruction and every event -/

/-- What an instruction answers has its storage in canonical form, one line for each instruction of the opcode table. -/
theorem State.StorageOk.exec {s : State} (h : s.StorageOk) (i : Instr) : OutOk (exec i s) := by
  cases i with
  | nop => exact h
  | add d a b => exact (h.int2 : OutOk (execAdd d a b s))
  | sub d a b => exact (h.int2 : OutOk (execSub d a b s))
  | mul d a b => exact (h.int2 : OutOk (execMul d a b s))
  | mulh d a b => exact (h.int2 : OutOk (execMulh d a b s))
  | mulhu d a b => exact (h.int2 : OutOk (execMulhu d a b s))
  | div d a b => exact (h.int2 : OutOk (execDiv d a b s))
  | divu d a b => exact (h.int2 : OutOk (execDivu d a b s))
  | rem d a b => exact (h.int2 : OutOk (execRem d a b s))
  | remu d a b => exact (h.int2 : OutOk (execRemu d a b s))
  | and d a b => exact (h.int2 : OutOk (execAnd d a b s))
  | or d a b => exact (h.int2 : OutOk (execOr d a b s))
  | xor d a b => exact (h.int2 : OutOk (execXor d a b s))
  | andn d a b => exact (h.int2 : OutOk (execAndn d a b s))
  | shl d a b => exact (h.int2 : OutOk (execShl d a b s))
  | shr d a b => exact (h.int2 : OutOk (execShr d a b s))
  | sha d a b => exact (h.int2 : OutOk (execSha d a b s))
  | rot d a b => exact (h.int2 : OutOk (execRot d a b s))
  | min d a b => exact (h.int2 : OutOk (execMin d a b s))
  | minu d a b => exact (h.int2 : OutOk (execMinu d a b s))
  | max d a b => exact (h.int2 : OutOk (execMax d a b s))
  | maxu d a b => exact (h.int2 : OutOk (execMaxu d a b s))
  | clz => exact h.ws
  | ctz => exact h.ws
  | popc => exact h.ws
  | bfx => exact h.ws
  | bfi => exact h.ws
  | sext => exact h.ws
  | li => exact h.ws
  | lih => exact h.ws
  | cmp => exact h.wp
  | pand => exact h.wp
  | por => exact h.wp
  | pnot => exact h.wp
  | sel => exact h.ws
  | fadd => exact h.wf
  | fsub => exact h.wf
  | fmul => exact h.wf
  | ffma => exact h.wf
  | fmin => exact h.wf
  | fmax => exact h.wf
  | fcmp => exact h.wp.flag
  | fcvt => exact h.execFcvt
  | fclass => exact h.ws
  | lea => exact h.ws
  | sptest => exact h.ws
  | spcast => exact h.execSpcast
  | br => exact h.execBr
  | jmp => exact h.jumpBack
  | call => exact h.ws.jumpTo
  | jmpr => exact h.ws.jumpBack
  | ret => exact h.jumpTo
  | loop => exact h.execLoop
  | brkl => exact h.execBrkl
  | halt => exact h.execHalt
  | trap => exact h.execTrap
  | tack => exact h.onA
  | tret => exact h.trapReturn
  | csrr => exact h.ws
  | csrw => exact h.execCsrw
  | waitm => exact h.execWaitm
  | waitmArm => exact h.execWaitmArm
  | waitmWakeWrite => exact h.wake
  | waitmMonitorLost => exact h.wake
  | waitmTimeout => exact h.wake
  | waitmSpurious => exact h.wake
  | barArv => exact h.execBarArv
  | barWt => exact h.execBarWt
  | barrierArrivalCounted => exact h.execBarrierArrivalCounted
  | partn => exact h.execPartn
  | bind => exact h.execBind
  | kset => exact h.execKset
  | ppld => exact h.execPpld
  | yield => exact h.sliceOut
  | ld => exact h.execLd
  | st => exact h.execSt
  | ldt => exact h.execLdt
  | stt => exact h.execStt
  | stp => exact h.execStp
  | aadd => exact h.atomic
  | amin => exact h.atomic
  | amax => exact h.atomic
  | aminu => exact h.atomic
  | amaxu => exact h.atomic
  | aand => exact h.atomic
  | aor => exact h.atomic
  | axor => exact h.atomic
  | aswp => exact h.atomic
  | acas => exact h.atomic
  | asubf => exact h.atomic
  | afadd => exact h.atomic
  | line => exact h.execLine
  | lineq => exact h.execLineq
  | pref => exact h.execPref
  | hld => exact h.execHld
  | hev => exact h.onA
  | hget => exact h.ws
  | seqld => exact h.execSeqld
  | pfxl => exact h.execPfxl
  | pfxi => exact h.execPfxi
  | pfxr => exact h.execPfxr
  | mma x => exact (h.xIssue : OutOk (execMma x s))
  | mmas x => exact (h.xIssue : OutOk (execMmas x s))
  | mmar x => exact (h.xIssue : OutOk (execMmar x s))
  | mmat x => exact (h.xIssue : OutOk (execMmat x s))
  | zclr x => exact (h.xIssue : OutOk (execZclr x s))
  | zld x => exact (h.xIssue : OutOk (execZld x s))
  | zst x => exact (h.xIssue : OutOk (execZst x s))
  | zmov x => exact (h.xIssue : OutOk (execZmov x s))
  | trans x => exact (h.xIssue : OutOk (execTrans x s))
  | spbuild x => exact (h.xIssue : OutOk (execSpbuild x s))
  | rowred x => exact (h.xIssue : OutOk (execRowred x s))
  | colred x => exact (h.xIssue : OutOk (execColred x s))
  | softrow x => exact (h.xIssue : OutOk (execSoftrow x s))
  | merge x => exact (h.xIssue : OutOk (execMerge x s))
  | topk x => exact (h.xIssue : OutOk (execTopk x s))
  | window x => exact (h.xIssue : OutOk (execWindow x s))
  | lup x => exact (h.xIssue : OutOk (execLup x s))
  | chol x => exact (h.xIssue : OutOk (execChol x s))
  | qrh x => exact (h.xIssue : OutOk (execQrh x s))
  | trsm x => exact (h.xIssue : OutOk (execTrsm x s))
  | trmm x => exact (h.xIssue : OutOk (execTrmm x s))
  | copy c => exact (h.cIssue : OutOk (execCopy c s))
  | gather c => exact (h.cIssue : OutOk (execGather c s))
  | scatter c => exact (h.cIssue : OutOk (execScatter c s))
  | stage o => exact (h.cIssue : OutOk (execStage o s))
  | mbox c => exact (h.cIssue : OutOk (execMbox c s))
  | areduce op c => exact (h.cIssue : OutOk (execAreduce op c s))
  | bcast c => exact (h.cIssue : OutOk (execBcast c s))
  | gld => exact h.execGld
  | gzero => exact h.onA.touch
  | gldValueVisible => exact h.execGldValueVisible
  | xThreadStart => exact h.execXThreadStart
  | dccEmulatedThread => exact h.execDccEmulatedThread
  | engineThreadComplete => exact h.execEngineThreadComplete
  | copySectorLands => exact h.execCopySectorLands
  | collectiveInstanceReady => exact h.execCollectiveInstanceReady
  | loadReturn => exact h.execLoadReturn
  | storePerformed => exact h.execStorePerformed
  | gatedStoreRelease => exact h.execGatedStoreRelease
  | stallLimit => exact h.execStallLimit
  | replayQueueRoom => exact h.execReplayQueueRoom
  | replyResume => exact h.execReplyResume
  | replyDeliver => exact h.execReplyDeliver
  | replyKill => exact h.execReplyKill
  | launchRecordRead => exact h.execLaunchRecordRead
  | coreReserve => exact h.execCoreReserve
  | taskStart => exact h.execTaskStart
  | launchComplete => exact h.execLaunchComplete
  | launchPromote => exact h.execLaunchPromote
  | launchUrgent => exact h.execLaunchUrgent
  | sliceExpiry => exact h.sliceOut
  | fullPreemptRequest => exact h.execFullPreemptRequest
  | fullSave => exact h.execFullSave
  | fullRestore => exact h.execFullRestore
  | lightPreempt => exact h.execLightPreempt
  | handlerLaunchStart => exact h.execHandlerLaunchStart
  | clusAccessArrive => exact h.execClusAccessArrive
  | dispatchRunWrite => exact h.writeRun
  | dispatchCsbWrite => exact h.writeCsb
  | mailboxRegister => exact h.execMailboxRegister
  | mailboxUnregister => exact h.execMailboxUnregister
  | tlbInvalidate => exact h.execTlbInvalidate
  | descriptorWrite => exact h.execDescriptorWrite
  | invalidateComplete => exact h.execInvalidateComplete
  | attestRequest => exact h.execAttestRequest
  | attestDone => exact h.execAttestDone
  | slotHold => exact h.execSlotHold
  | slotDrop => exact h.execSlotDrop
  | adoptLaunch => exact h.execAdoptLaunch
  | plimWrite => exact h.writePlim
  | pkgNumberWrite => exact h.writePkg
  | journalClear => exact h.withJournal
  | registerWrite => exact h.regWrite
  | powerManagerTick => exact h.execPowerManagerTick
  | bootStart => exact h.execBootStart
  | cubeFlitReceive => exact h.execCubeFlitReceive
  | oxlinkRead => exact h.execOxlinkRead
  | oxlinkWrite => exact h.execOxlinkWrite
  | oxlinkCompletion => exact h.execOxlinkCompletion
  | oxlinkMailbox => exact h.execOxlinkMailbox
  | oxlinkReduce => exact h.execOxlinkReduce
  | oxlinkBroadcast => exact h.execOxlinkBroadcast
  | inboundWrite => exact h.execInboundWrite
  | inboundRead => exact h.execInboundRead
  | illegal => exact h.execIllegal
  | bundleFetchFault => exact h.execBundleFetchFault
  | mailboxCommandDone => exact h.onDisp
  | powerLoss => exact State.StorageOk.execPowerLoss

/-! ## The step -/

section
variable {s : State} {run : Instr → State → Out}

/-- Running the slots of a bundle keeps what running each keeps. -/
theorem runSlots_ok (hrun : RunOk run) (is : List Instr) (h : s.StorageOk) : OutOk (runSlots run is s) := by
  induction is generalizing s with
  | nil => exact State.StorageOk.ite h (h.onC fun _ hc => Core.PoolOk.completed hc)
  | cons i r ih =>
    have hi := hrun i s h
    unfold runSlots
    split
    · exact h
    · split
      · rename_i ht
        exact ih (hi.next ht)
      · exact hi

namespace State.StorageOk

theorem clk {c : Core} (hc : c.PoolOk) : (s.clk c).PoolOk := by
  unfold State.clk
  split
  · exact hc.passClk
  · exact hc

theorem tick (h : s.StorageOk) : s.tick.StorageOk := h.mapCores (fun _ hc => clk hc) rfl rfl rfl

theorem issueBundle (hrun : RunOk run) {b} (h : s.StorageOk) : OutOk (s.issueBundle run b) := by
  unfold State.issueBundle
  extract_lets u
  have hu : u.StorageOk := h.ready
  split
  · exact hu
  · split
    · exact hu.lookWait
    · split
      · exact hu
      · exact hu.askAtIssue
      · exact hu.skipBundle
      · exact hu.lostFor.takeTrap
      · exact OutOk.ite (hrun _ _ hu) hu
      · exact runSlots_ok hrun _ (hu.passBundle.onC fun _ hc => hc)

theorem issue (hrun : RunOk run) (h : s.StorageOk) : OutOk (s.issue run) := by
  unfold State.issue
  extract_lets u
  have hu : u.StorageOk := h.noteTlb
  split
  · exact h
  · split
    · exact hu.askAtIssue
    · split
      · exact hrun _ _ hu
      · split
        · exact hrun _ _ hu
        · exact hu.issueBundle hrun

theorem perform (hrun : RunOk run) {a} (h : s.StorageOk) : OutOk (s.perform run a) := by
  unfold State.perform
  split
  · split
    · trivial
    · exact OutOk.ite h (hrun _ _ h.focus)
  · exact OutOk.ite h (h.focus.issue hrun)
  · exact OutOk.ite h h.focus.strike
  · exact OutOk.ite h h.appWrite
  · exact OutOk.ite h h.appRead
  · exact OutOk.ite h h.takeQueue
  · exact OutOk.ite h h.focus.lookAhead
  · exact h

theorem act (hrun : RunOk run) {a} (h : s.StorageOk) : OutOk (s.act run a) := by
  unfold State.act
  split
  · split
    · exact h
    · have hp : ∀ x w, OutOk (State.perform run w { s with ox := x }) := fun _ _ => h.withOx.perform hrun
      split
      · rename_i ht
        exact ((hp _ _).next ht).withOx
      · exact hp _ _
  · exact h.perform hrun

theorem auto (hrun : RunOk run) (h : s.StorageOk) : OutOk (s.auto run) := by
  unfold State.auto
  refine OutOk.ite (hrun _ _ h) (OutOk.ite h (OutOk.ite (h.issue hrun) ?_))
  split
  · exact h.focus.issue hrun
  · split
    · exact h.act hrun
    · split
      · exact h.focus.issue hrun
      · exact h

theorem stepWith (hrun : RunOk run) (h : s.StorageOk) : OutOk (s.stepWith run) := by
  have hq : s.tick.forkAll.StorageOk := h.tick.forkAll
  unfold State.stepWith
  dsimp only
  split
  · exact hq.auto hrun
  · exact hq.withAgenda.act hrun

end State.StorageOk
end

/-- Settles O57: a step is a clk, the forks that have come due, and one event or bundle, and each of these keeps the storage canonical. -/
theorem stepKeepsStorageCanonical : Obligations.StepKeepsStorageCanonical := by
  unfold Obligations.StepKeepsStorageCanonical
  intro s t hmem hcores hstep
  have h : s.StorageOk := s.storageOk_iff.mpr ⟨hmem, hcores⟩
  have hout : OutOk (step s) := h.stepWith fun i _ ht => ht.exec i
  exact t.storageOk_iff.mp (hout.next hstep)

end Sys2Proof.Machine

namespace Sys2Proof.Machine

/-! ## Writing an S or a P register (O5)

`Arch.rs_ws` and `Arch.rp_wp` say what a write leaves in every register; the lemmas here add that it leaves everything else. -/

/-- A write to an S register changes nothing but the S registers. -/
theorem Arch.ws_frame (a : Arch) (d : SReg) (v : Word) : a.ws d v = { a with s := (a.ws d v).s } := by
  unfold Arch.ws
  split <;> rfl

/-- A write to a P register changes nothing but the P registers. -/
theorem Arch.wp_frame (a : Arch) (d : PReg) (v : Bool) : a.wp d v = { a with p := (a.wp d v).p } := by
  unfold Arch.wp
  split <;> rfl

/-- A register written reads back the value, S0 apart, which reads 0 (R42). -/
theorem Arch.rs_ws_same (a : Arch) (d : SReg) (v : Word) : (a.ws d v).rs d = if d = 0 then 0 else v := by
  rw [Arch.rs_ws, if_pos rfl]

/-- A predicate written reads back the value, P0 apart, which reads true (R42). -/
theorem Arch.rp_wp_same (a : Arch) (d : PReg) (v : Bool) : (a.wp d v).rp d = if d = 0 then true else v := by
  rw [Arch.rp_wp, if_pos rfl]

theorem Arch.rs_ws_of_ne (a : Arch) {d r : SReg} (h : r ≠ d) (v : Word) : (a.ws d v).rs r = a.rs r := by
  rw [Arch.rs_ws, if_neg h]
  split
  · next h0 => rw [h0, Arch.rs_zero]
  · rfl

theorem Arch.rp_wp_of_ne (a : Arch) {d r : PReg} (h : r ≠ d) (v : Bool) : (a.wp d v).rp r = a.rp r := by
  rw [Arch.rp_wp, if_neg h]
  split
  · next h0 => rw [h0, Arch.rp_zero]
  · rfl

theorem State.ws_zero (s : State) (v : Word) : s.ws 0 v = s := rfl

theorem State.wp_zero (s : State) (v : Bool) : s.wp 0 v = s := rfl

/-- `State.ws` meets its specification. -/
theorem State.wroteS_ws (s : State) (d : SReg) (v : Word) : s.WroteS (s.ws d v) d v := by
  refine ⟨s.core.arch.rs_ws_same d v, fun r hr => s.core.arch.rs_ws_of_ne hr v, ?_⟩
  calc s.ws d v = { s with core := { s.core with arch := s.core.arch.ws d v } } := rfl
    _ = { s with core := { s.core with arch := { s.core.arch with s := (s.core.arch.ws d v).s } } } := by rw [← Arch.ws_frame]

/-- `State.wp` meets its specification. -/
theorem State.wroteP_wp (s : State) (d : PReg) (v : Bool) : s.WroteP (s.wp d v) d v := by
  refine ⟨s.core.arch.rp_wp_same d v, fun r hr => s.core.arch.rp_wp_of_ne hr v, ?_⟩
  calc s.wp d v = { s with core := { s.core with arch := s.core.arch.wp d v } } := rfl
    _ = { s with core := { s.core with arch := { s.core.arch with p := (s.core.arch.wp d v).p } } } := by rw [← Arch.wp_frame]

/-- Settles O5: register 0 of each kind is tested for before the file is looked at, and a write replaces one place of one vector. -/
theorem registerZeroHardWired : Obligations.RegisterZeroHardWired := by
  unfold Obligations.RegisterZeroHardWired
  exact ⟨fun s v b => ⟨s.core.arch.rs_zero, s.core.arch.rp_zero, s.ws_zero v, s.wp_zero b⟩, State.wroteS_ws, State.wroteP_wp⟩

end Sys2Proof.Machine

namespace Sys2Proof.Machine

/-! ## The state after reset (O58) -/

theorem State.reset_cores : State.reset.cores = [Core.init 0] := rfl

theorem State.reset_arch : State.reset.core.arch = Arch.init := rfl

theorem State.reset_memOk : State.reset.MemOk := Mem.wf_nil

/-- Every S register reads 0 at task start (R22). -/
theorem Arch.init_rs (r : SReg) : Arch.init.rs r = 0 := by
  unfold Arch.rs
  split
  · rfl
  · exact Vector.getElem_replicate _

/-- P0 reads true at task start and every other P register false (R22, R42). -/
theorem Arch.init_rp (r : PReg) : Arch.init.rp r = decide (r = 0) := by
  unfold Arch.rp
  split
  · next h => rw [decide_eq_true h]
  · next h =>
    have hr : 0 ≠ r.val := fun e => h (Fin.ext e.symm)
    calc Arch.init.p[r.val] = (Vector.replicate 8 false)[r.val] := Vector.getElem_set_ne (by decide) r.isLt hr
      _ = false := Vector.getElem_replicate _
      _ = decide (r = 0) := (decide_eq_false h).symm

/-- PERM is the identity at task start (R22). -/
theorem Arch.init_perm (i : Fin 256) : Arch.init.perm[i.val] = BitVec.ofNat 8 i.val := Vector.getElem_ofFn _

theorem Arch.init_g (g : GReg) : Arch.init.g[g.val] = List.replicate 64 0 := Vector.getElem_replicate _

theorem Arch.init_progs (i : Fin 64) : Arch.init.progs[i.val] = none := Vector.getElem_replicate _

theorem Arch.init_binds (i : Fin 4) : Arch.init.binds[i.val] = 0 := Vector.getElem_replicate _

theorem Arch.init_seqn (i : Fin 8) : Arch.init.seqn[i.val] = 0 := Vector.getElem_replicate _

theorem State.reset_cnt (i : Fin 8) : State.reset.core.cnt[i.val] = 0 := Vector.getElem_replicate _

theorem State.reset_disp (d : Fin 8) : State.reset.disp[d.val] = Disp.init := Vector.getElem_replicate _

theorem Disp.init_starve (i : Fin 4) : Disp.init.starve[i.val] = 0x1000000 := Vector.getElem_replicate _

theorem Disp.init_streams (k : Fin 8) : Disp.init.streams[k.val] = ⟨false, 0, 0⟩ := Vector.getElem_replicate _

/-- Settles O58: the fields are those that `Arch.init`, `Core.init`, `Disp.init` and `State.reset` write down, and each register file,
slot table and counter of them reads its value at every index. -/
theorem resetState : Obligations.ResetState := by
  unfold Obligations.ResetState
  have hpool : ∀ c ∈ State.reset.cores, c.PoolOk := by
    rw [State.reset_cores]
    exact List.forall_mem_singleton.mpr (Core.PoolOk.init 0)
  refine ⟨State.reset_memOk, hpool, rfl, rfl, rfl, ?regs, State.reset_cnt, rfl, rfl, rfl, rfl, rfl, ?disp⟩
  case regs =>
    rintro a rfl
    rw [State.reset_arch]
    exact ⟨rfl, Arch.init_rs, Arch.init_rp, rfl, Arch.init_perm, Arch.init_g, rfl, Arch.init_progs, Arch.init_binds, Arch.init_seqn,
      rfl, rfl, rfl, rfl, rfl, rfl, rfl, rfl⟩
  case disp =>
    intro d
    rw [State.reset_disp]
    exact ⟨rfl, rfl, Disp.init_starve, Disp.init_streams⟩

end Sys2Proof.Machine

namespace Sys2Proof.Machine

/-! ## The events of a monitored wait (O23) -/

section
variable {s : State} {m : Monitor} {ok : Monitor → Bool}

theorem State.wake_of_no_monitor (hm : s.core.monitor = none) (code : Nat) : s.wake ok code = .next s := by
  simp only [State.wake, hm]

/-- An event whose condition an armed monitor meets gives it the event's cause (R110). -/
theorem State.wake_of_ok (hm : s.core.monitor = some m) (harmed : m.armed = true) (hcause : m.cause = none) (hok : ok m = true) (code : Nat) :
    s.wake ok code = .next { s with core := { s.core with monitor := some { m with cause := some code } } } := by
  simp only [State.wake, hm, harmed, hcause, hok, Option.isNone_none, Bool.and_self, if_true, State.onC]

/-- An event whose condition the monitor does not meet leaves the wait as it is. -/
theorem State.wake_of_not_ok (hm : s.core.monitor = some m) (hok : ok m = false) (code : Nat) : s.wake ok code = .next s := by
  simp only [State.wake, hm, hok, Bool.and_false, Bool.false_eq_true, if_false]

theorem execWaitmArm_of_no_monitor (hm : s.core.monitor = none) : execWaitmArm s = .next s := by
  simp only [execWaitmArm, hm]

/-- Arming compares the watched word with the value expected (R110). -/
theorem execWaitmArm_compare (hm : s.core.monitor = some m) (harmed : m.armed = false) (hstore : s.core.storeOn (m.word / 128) = false)
    (hroute : s.noRoute s.core m.word = false) (hpois : s.isPoison m.word 8 = false) :
    execWaitmArm s = .next { s with core := { s.core with monitor := some { m with
      armed := true, cause := if leVal (s.physBytes m.word 8) = m.expect.toNat then none else some 0 } } } := by
  simp only [execWaitmArm, hm, harmed, hstore, hroute, hpois, Bool.or_self, Bool.false_eq_true, if_false, State.onC, beq_iff_eq]

/-- Arming on a word that is poisoned or out of reach is a fatal trap, after the record of the lost route (R197, R367). -/
theorem execWaitmArm_consume (hm : s.core.monitor = some m) (harmed : m.armed = false) (hstore : s.core.storeOn (m.word / 128) = false)
    (hbad : s.noRoute s.core m.word = true ∨ s.isPoison m.word 8 = true) :
    execWaitmArm s = .next ((if s.noRoute s.core m.word then s.routeError m.va m.word else s).fatalTrap Cause.dataPoison 0x01
      s.core.ckpt.pc m.va 0) := by
  have hbad' : (s.noRoute s.core m.word || s.isPoison m.word 8) = true := by rw [Bool.or_eq_true]; exact hbad
  simp only [execWaitmArm, hm, harmed, hstore, hbad', Bool.or_self, Bool.false_eq_true, if_false, if_true]

end

@[simp] theorem State.routeError_mem (s : State) (va : Word) (pa : Nat) : (s.routeError va pa).mem = s.mem := rfl

/-- A core that has stopped stays so when its context stops. -/
theorem Core.halt_status_of_stopped {c : Core} (h : c.status = .stopped) (l : Nat) : (c.halt l).status = .stopped := by
  unfold Core.halt
  split
  · split
    · rfl
    · exact h
  · exact h

/-- A fatal cause stops the core that meets it (R189). -/
theorem State.fatal_status (s : State) (cause cause2 tmask : Nat) (xpc taddr tinfo aux : Word) :
    (s.fatal cause cause2 tmask xpc taddr tinfo aux).core.status = .stopped :=
  Core.halt_status_of_stopped rfl _

theorem State.fatalTrap_status (s : State) (cause tmask : Nat) (xpc taddr tinfo : Word) :
    (s.fatalTrap cause tmask xpc taddr tinfo).core.status = .stopped := by
  unfold State.fatalTrap
  dsimp only
  split <;> exact State.fatal_status _ _ _ _ _ _ _ _

theorem State.fatalTrap_mem (s : State) (cause tmask : Nat) (xpc taddr tinfo : Word) :
    (s.fatalTrap cause tmask xpc taddr tinfo).mem = s.mem := by
  unfold State.fatalTrap
  dsimp only
  split <;> rfl

/-- Settles O23: arming goes by whether the watched word can be read, and each of the other events by its own condition in `State.wake`. -/
theorem monitorEvents : Obligations.MonitorEvents := by
  unfold Obligations.MonitorEvents
  refine ⟨fun s m hm => ⟨fun hunarmed hstore => ⟨fun hroute hpois => ?compare, fun hbad => ?consume⟩, fun harmed hcause => ?events⟩,
    fun s hm i hi => ?idle⟩
  case compare => exact execWaitmArm_compare hm hunarmed hstore hroute hpois
  case consume =>
    refine ⟨_, execWaitmArm_consume hm hunarmed hstore hbad, State.fatalTrap_status _ _ _ _ _ _, ?_⟩
    rw [State.fatalTrap_mem]
    split
    · exact State.routeError_mem s _ _
    · rfl
  case events =>
    refine ⟨State.wake_of_ok hm harmed hcause rfl 1, State.wake_of_ok hm harmed hcause rfl 4,
      fun hhit => State.wake_of_ok hm harmed hcause hhit 0, fun hset hpassed => ?_, fun hwait => ?_⟩
    · exact State.wake_of_ok hm harmed hcause (by simp [hset, hpassed]) 3
    · have hnot : (decide (m.timeout ≠ 0) && decide (m.timeout ≤ m.waited)) = false := by
        rw [Bool.and_eq_false_iff, decide_eq_false_iff_not, decide_eq_false_iff_not]
        omega
      exact State.wake_of_not_ok hm hnot 3
  case idle =>
    simp only [List.mem_cons, List.not_mem_nil, or_false] at hi
    rcases hi with rfl | rfl | rfl | rfl | rfl
    · exact execWaitmArm_of_no_monitor hm
    all_goals exact State.wake_of_no_monitor hm _

end Sys2Proof.Machine

namespace Sys2Proof.Machine

/-! ## Accesses in flight: what their parts are in and what they leave of a core (O39, O38) -/

section
variable {s : State} {pa d k : Nat}

/-- The region of an address of another package (R161). -/
theorem State.region_of_isRemote (s : State) (h : isRemote pa = true) : s.region pa = .remote := by
  simp only [isRemote, Bool.and_eq_true, decide_eq_true_eq] at h
  obtain ⟨hlo, hhi⟩ := h
  unfold State.region
  simp only [show pa / 2 ^ 48 ≠ 0 by omega, show pa / 2 ^ 48 ≠ 1 by omega, show pa / 2 ^ 48 ≠ 2 by omega, hlo, hhi, if_false, and_self, if_true]

theorem State.not_isRemote_of_dram (h : s.region pa = .dram d k) : isRemote pa = false := by
  rw [← Bool.not_eq_true]
  exact fun hremote => Region.noConfusion (h.symm.trans (s.region_of_isRemote hremote))

theorem State.physByte_of_dram (h : s.region pa = .dram d k) : s.physByte pa = s.mem.get pa := by
  simp only [State.physByte, h]

end

/-- `k` is `c` but for its copies of lines of memory and its monitor. -/
def Core.SameButCopies (c k : Core) : Prop :=
  k = { c with l1 := k.l1, ahead := k.ahead, badL1 := k.badL1, monitor := k.monitor }

namespace Core.SameButCopies
variable {c k : Core} (h : c.SameButCopies k)
include h

theorem arch : k.arch = c.arch := (congrArg Core.arch h).trans rfl
theorem ckpt : k.ckpt = c.ckpt := (congrArg Core.ckpt h).trans rfl
theorem pool : k.pool = c.pool := (congrArg Core.pool h).trans rfl
theorem cnt : k.cnt = c.cnt := (congrArg Core.cnt h).trans rfl
theorem loads : k.loads = c.loads := (congrArg Core.loads h).trans rfl
theorem stores : k.stores = c.stores := (congrArg Core.stores h).trans rfl

end Core.SameButCopies

theorem Core.SameButCopies.refl (c : Core) : c.SameButCopies c := rfl

theorem State.writePhys_sameButCopies (s : State) (w : Nat) (tr : Option (Nat × Nat)) (pa : Nat) (bs : List Byte) :
    s.core.SameButCopies (s.writePhys w tr pa bs).core := by
  obtain ⟨l, a, m, h⟩ := State.writePhys_core s w tr pa bs
  rw [h]
  rfl

/-! ## Stores that are performed (O39) -/

/-- An access number that no element of a list has is not found in it. -/
theorem find?_uid_eq_none {α : Type} {xs : List α} {num : α → Nat} {u : Nat} (h : ∀ x ∈ xs, num x ≠ u) :
    xs.find? (fun x => num x == u) = none :=
  List.find?_eq_none.mpr fun x hx => by simpa using h x hx

@[simp] theorem Core.strikeLine_stores (c : Core) (off : Nat) : (c.strikeLine off).stores = c.stores := by
  unfold Core.strikeLine; dsimp only; split <;> rfl
@[simp] theorem Core.strikeLine_cnt (c : Core) (off : Nat) : (c.strikeLine off).cnt = c.cnt := by
  unfold Core.strikeLine; dsimp only; split <;> rfl

@[simp] theorem Core.storeScratch_stores (c : Core) (off : Nat) (bs : List Byte) : (c.storeScratch off bs).stores = c.stores := by
  unfold Core.storeScratch
  exact Core.foldl_keeps _ Core.stores (fun c i => by dsimp only; split <;> rfl) _ _
@[simp] theorem Core.storeScratch_cnt (c : Core) (off : Nat) (bs : List Byte) : (c.storeScratch off bs).cnt = c.cnt := by
  unfold Core.storeScratch
  exact Core.foldl_keeps _ Core.cnt (fun c i => by dsimp only; split <;> rfl) _ _

@[simp] theorem Core.landStore_stores (c : Core) (off : Nat) (p : PStore) : (c.landStore off p).stores = c.stores :=
  (Core.foldl_keeps _ Core.stores (fun c _ => Core.strikeLine_stores c _) _ _).trans (Core.storeScratch_stores c off p.bytes)
@[simp] theorem Core.landStore_cnt (c : Core) (off : Nat) (p : PStore) : (c.landStore off p).cnt = c.cnt :=
  (Core.foldl_keeps _ Core.cnt (fun c _ => Core.strikeLine_cnt c _) _ _).trans (Core.storeScratch_cnt c off p.bytes)

/-- A store with no part left leaves the list (R101). -/
theorem Core.nextStore_nil (c : Core) (y : PStore) (bs : List Byte) :
    c.nextStore y [] bs = { c with stores := c.stores.filter (fun x => x.uid ≠ y.uid) } := rfl

/-- Performing a part of a store touches the core's copies of lines and its monitor alone. -/
theorem State.storeAt_sameButCopies (s : State) (uid : Nat) (va : Word) (bad : Bool) (p : Part) (bs : List Byte) :
    s.core.SameButCopies (s.storeAt uid va bad p bs).core := by
  unfold State.storeAt
  split
  · exact .refl _
  · split
    · rw [State.patchFar_core, State.writeFar, (State.sendFlit_keeps _ _ _ _ _ _).2]
      exact .refl _
    · dsimp only
      split <;> exact State.writePhys_sameButCopies s _ _ _ _

/-- A part of a store whose home no route leads to poisons its sector, and memory stays (R367). -/
theorem State.storeAt_of_noRoute {s : State} {p : Part} (h : s.noRoute s.core p.pa = true) (uid : Nat) (va : Word) (bad : Bool) (bs : List Byte) :
    s.storeAt uid va bad p bs = { s.routeError va p.pa with poison := p.pa / 32 :: s.poison } := by
  unfold State.storeAt
  rw [if_pos h]

/-- A part of a store to memory, outside Troy mode, puts its bytes there (R101). -/
theorem State.storeAt_mem {s : State} {p : Part} {d k : Nat} (hregion : s.region p.pa = .dram d k)
    (hroute : s.noRoute s.core p.pa = false) (htroy : s.troyOf s.core = none) (uid : Nat) (va : Word) (bad : Bool) {bs : List Byte} (hbs : bs ≠ []) :
    (s.storeAt uid va bad p bs).mem = s.mem.put p.pa bs := by
  have hwrite : (s.writePhys s.core.id none p.pa bs).mem = s.mem.put p.pa bs := by
    rw [State.writePhys_mem s s.core.id p.pa d k bs hregion, if_neg hbs]
  unfold State.storeAt
  simp only [hroute, State.not_isRemote_of_dram hregion, htroy, Bool.false_eq_true, if_false]
  split <;> exact hwrite

section
variable {s : State} {y : PStore}

theorem execStorePerformed_of_absent {u : Nat} (h : ∀ y ∈ s.core.stores, y.uid ≠ u) : execStorePerformed u s = .next s := by
  simp only [execStorePerformed, find?_uid_eq_none h]

/-- The last part of a store to memory of this package is performed, and the store is done. -/
theorem execStorePerformed_last {p : Part} {d k : Nat} (hfind : s.core.stores.find? (fun x => x.uid == y.uid) = some y) (hclus : y.clus = none)
    (hparts : y.parts = [p]) (hends : p.ends = true) (hfree : s.core.storeBlocked y p = false) (hregion : s.region p.pa = .dram d k) :
    execStorePerformed y.uid s = .next ((s.storeAt y.uid y.va (y.bad.contains (p.pa / 32)) p (y.bytes.take p.n)).onC
      (fun c => (c.cntDown y.ord.stream 1).nextStore y [] (y.bytes.drop p.n))) := by
  have hidle : s.farBusy y.uid p = false := by simp [State.farBusy, State.not_isRemote_of_dram hregion]
  simp only [execStorePerformed, hfind, hclus, hparts, hends, hfree, hidle, Option.isSome_none, Bool.or_self, Bool.false_eq_true, if_false, if_true]

section
variable {off : Nat} (hfind : s.core.stores.find? (fun x => x.uid == y.uid) = some y) (hclus : y.clus = none) (hparts : y.parts = [])
  (hscratch : y.scratch = some off)
include hfind hclus hparts hscratch

theorem execStorePerformed_of_blocked (hblocked : s.core.storeBlocked y peerPart = true) : execStorePerformed y.uid s = .next s := by
  simp only [execStorePerformed, hfind, hclus, hparts, hscratch, hblocked, Option.isSome_none, Bool.false_eq_true, if_false, if_true]

/-- A store to the own scratchpad that nothing holds any more lands there (R90). -/
theorem execStorePerformed_scratch (hfree : s.core.storeBlocked y peerPart = false) :
    execStorePerformed y.uid s = .next (s.onC (fun c => ((c.cntDown y.ord.stream 1).landStore off y).nextStore y [] [])) := by
  simp only [execStorePerformed, hfind, hclus, hparts, hscratch, hfree, Option.isSome_none, Bool.false_eq_true, if_false]

end

theorem execGatedStoreRelease_of_empty (h : s.core.held = []) : execGatedStoreRelease s = .next s := by
  simp only [execGatedStoreRelease, h]

theorem execGatedStoreRelease_of_room {r : List PStore} (h : s.core.held = y :: r) (hroom : s.core.cnt[y.ord.stream.val] + y.count ≤ Config.cntMax) :
    execGatedStoreRelease s = .next (s.onC (fun c => { c with held := r, stores := c.stores ++ [y] }.cntUp y.ord.stream y.count)) := by
  simp only [execGatedStoreRelease, h, Nat.not_lt.mpr hroom, if_false]

theorem execGatedStoreRelease_of_full {r : List PStore} (h : s.core.held = y :: r) (hfull : Config.cntMax < s.core.cnt[y.ord.stream.val] + y.count) :
    execGatedStoreRelease s = .next s := by
  simp only [execGatedStoreRelease, h, hfull, if_true]

end

/-- Settles O39: the bytes go by `State.storeAt` or `Core.landStore`, neither of which touches what else is claimed of the core. -/
theorem storesPerform : Obligations.StoresPerform := by
  unfold Obligations.StoresPerform
  refine ⟨fun s u habsent => execStorePerformed_of_absent habsent, fun s y p d k hfind hclus hparts hends hfree hregion hlen hn => ?memory,
    fun s y off hfind hclus hparts hscratch => ⟨execStorePerformed_of_blocked hfind hclus hparts hscratch, fun hfree => ?scratch⟩,
    fun s y r hheld => ⟨execGatedStoreRelease_of_room hheld, execGatedStoreRelease_of_full hheld⟩, fun s => execGatedStoreRelease_of_empty⟩
  case memory =>
    have hsame := s.storeAt_sameButCopies y.uid y.va (y.bad.contains (p.pa / 32)) p (y.bytes.take p.n)
    have hall : y.bytes.take p.n = y.bytes := by rw [← hlen, List.take_length]
    refine ⟨_, execStorePerformed_last hfind hclus hparts hends hfree hregion, ?_, hsame.arch, hsame.ckpt, hsame.pool, ?_,
      fun hroute htroy => ?_, fun hlost => ?_⟩
    · rw [State.onC_core, Core.nextStore_nil, Core.cntDown_stores, hsame.stores]
    · rw [State.onC_core, Core.nextStore_nil, Core.cntDown_cnt, hsame.cnt]
    · have hne : y.bytes ≠ [] := fun h => hn (by rw [← hlen, h, List.length_nil])
      rw [State.MemSameBut, State.onC_mem, hall, State.storeAt_mem hregion hroute htroy _ _ _ hne, ← hlen]
      exact ⟨Mem.get_put_same s.mem p.pa y.bytes, Mem.get_put_other s.mem p.pa y.bytes⟩
    · rw [State.onC_mem, State.onC_poison, State.storeAt_of_noRoute hlost]
      exact ⟨rfl, rfl⟩
  case scratch =>
    refine ⟨_, execStorePerformed_scratch hfind hclus hparts hscratch hfree, rfl, ?_, ?_, ?_, ?_⟩
    · rw [State.onC_core, Core.nextStore_nil, Core.landStore_arch, Core.cntDown_arch]
    · rw [State.onC_core, Core.nextStore_nil, Core.landStore_stores, Core.cntDown_stores]
    · rw [State.onC_core, Core.nextStore_nil, Core.landStore_cnt, Core.cntDown_cnt]
    · rw [State.onC_core, Core.nextStore_nil, Core.landStore_pool, Core.cntDown_pool]
      exact ⟨Mem.get_put_same _ _ _, Mem.get_put_other _ _ _⟩

end Sys2Proof.Machine

namespace Sys2Proof.Machine

/-! ## Loads that return (O38) -/

/-! ### What a returned value does to its core -/

/-- A change of the registers, made in the shadow too where the load's interval has committed. -/
def Core.landRegs (c : Core) (l : PLoad) (f : Arch → Arch) : Core := if l.committed then c.both f else { c with arch := f c.arch }

section
variable (c : Core) {l : PLoad}

@[simp] theorem Core.landRegs_arch (f : Arch → Arch) : (c.landRegs l f).arch = f c.arch := by
  unfold Core.landRegs; split <;> rfl
@[simp] theorem Core.landRegs_ckpt (f : Arch → Arch) : (c.landRegs l f).ckpt = if l.committed then f c.ckpt else c.ckpt := by
  unfold Core.landRegs; split <;> rfl
@[simp] theorem Core.landRegs_pool (f : Arch → Arch) : (c.landRegs l f).pool = c.pool := by
  unfold Core.landRegs; split <;> rfl
@[simp] theorem Core.landRegs_loads (f : Arch → Arch) : (c.landRegs l f).loads = c.loads := by
  unfold Core.landRegs; split <;> rfl
@[simp] theorem Core.landRegs_cnt (f : Arch → Arch) : (c.landRegs l f).cnt = c.cnt := by
  unfold Core.landRegs; split <;> rfl

/-! What `Core.land` does, by the load's destination. -/

theorem Core.land_s {d : SReg} (h : l.dest = .s d) (bs : List Byte) :
    c.land l bs = c.landRegs l (fun r => r.ws d (BitVec.ofNat 64 (leVal bs))) := by
  simp only [Core.land, h, Core.landRegs]

theorem Core.land_seql {d : SReg} {sh : Nat} (h : l.dest = .seql d sh) (bs : List Byte) :
    c.land l bs = c.landRegs l (fun r => { r.ws d (BitVec.ofNat 64 (leVal bs)) with seql := BitVec.ofNat 64 (ceilShift (leVal bs) sh) }) := by
  simp only [Core.land, h, Core.landRegs]

theorem Core.land_none (h : l.dest = .none) (bs : List Byte) : c.land l bs = c.landRegs l (fun r => r) := by
  simp only [Core.land, h, Core.landRegs, Core.both, ite_self]

theorem Core.land_t {d : TReg} {f : Fmt} (h : l.dest = .t d f) (bs : List Byte) :
    c.land l bs = c.putRuns [(d.val * Config.tBytes, bs)] := by
  simp only [Core.land, h]

theorem Core.land_atom {op : Instr} {v e : Word} (h : l.dest = .atom op v e) (bs : List Byte) :
    c.land l bs = c.both (fun r => r.landAtomic op (leVal bs) v.toNat e.toNat) := by
  simp only [Core.land, h]

theorem Core.putRuns_one_pool (a : Nat) (bs : List Byte) : (c.putRuns [(a, bs)]).pool = c.pool.put a bs := rfl

/-- A returned value leaves the list of loads and the counters as they are. -/
theorem Core.land_keeps (bs : List Byte) : (c.land l bs).loads = c.loads ∧ (c.land l bs).cnt = c.cnt := by
  cases h : l.dest with
  | s d => rw [c.land_s h]; exact ⟨c.landRegs_loads _, c.landRegs_cnt _⟩
  | t d f => rw [c.land_t h]; exact ⟨rfl, rfl⟩
  | seql d sh => rw [c.land_seql h]; exact ⟨c.landRegs_loads _, c.landRegs_cnt _⟩
  | atom op v e => rw [c.land_atom h]; exact ⟨rfl, rfl⟩
  | none => rw [c.land_none h]; exact ⟨c.landRegs_loads _, c.landRegs_cnt _⟩

/-! What `Core.endLoad` does. -/

/-- The core without a load in its list. -/
def Core.dropLoad (c : Core) (uid : Nat) : Core := { c with loads := c.loads.filter (fun x => x.uid ≠ uid) }

theorem Core.endLoad_of_dropped (h : l.dropped = true) (bs : List Byte) : c.endLoad l bs = c.dropLoad l.uid := by
  simp only [Core.endLoad, h, if_true, Core.dropLoad]

theorem Core.endLoad_of_kept (h : l.dropped = false) (bs : List Byte) : c.endLoad l bs = (c.dropLoad l.uid).land l bs := by
  simp only [Core.endLoad, h, Bool.false_eq_true, if_false, Core.dropLoad]

/-- The access leaves the list, and the counters stay. -/
theorem Core.endLoad_loads_cnt (bs : List Byte) :
    (c.endLoad l bs).loads = c.loads.filter (fun x => x.uid ≠ l.uid) ∧ (c.endLoad l bs).cnt = c.cnt := by
  cases h : l.dropped with
  | true => rw [c.endLoad_of_dropped h]; exact ⟨rfl, rfl⟩
  | false => rw [c.endLoad_of_kept h]; exact (c.dropLoad l.uid).land_keeps bs

end

/-- SEQLD's quotient rounded up is the one that a value and a shift fix (R331). -/
theorem ceilShift_eq {v sh q : Nat} (hlow : q * 2 ^ sh < v + 2 ^ sh) (hhigh : v ≤ q * 2 ^ sh) : ceilShift v sh = q := by
  have hpos : 0 < 2 ^ sh := Nat.two_pow_pos sh
  refine Nat.div_eq_of_lt_le (by omega) ?_
  rw [Nat.succ_mul]
  omega

/-- A load to an S register, SEQLD and a prefetch change registers alone, each by its own `f` (R250, R331, R258). -/
theorem Core.land_regs {l : PLoad} {bs : List Byte} {f : Arch → Arch}
    (h : (∃ d, l.dest = .s d ∧ f = fun r => r.ws d (BitVec.ofNat 64 (leVal bs))) ∨
      (∃ d sh q, l.dest = .seql d sh ∧ q * 2 ^ sh < leVal bs + 2 ^ sh ∧ leVal bs ≤ q * 2 ^ sh ∧
        f = fun r => { r.ws d (BitVec.ofNat 64 (leVal bs)) with seql := BitVec.ofNat 64 q }) ∨
      (l.dest = .none ∧ f = fun r => r)) (c : Core) : c.land l bs = c.landRegs l f := by
  rcases h with ⟨d, hd, rfl⟩ | ⟨d, sh, q, hd, hlow, hhigh, rfl⟩ | ⟨hd, rfl⟩
  · exact c.land_s hd bs
  · rw [c.land_seql hd, ceilShift_eq hlow hhigh]
  · exact c.land_none hd bs

/-! ### One part of a load -/

section
variable {s : State} {l : PLoad} {p : Part}

/-- After a part has been read the L1 and what was read ahead may change, and nothing else (R92, R107). -/
theorem State.fillL1_eq (s : State) (l : PLoad) (p : Part) :
    s.fillL1 l p = { s with core := (s.fillL1 l p).core } ∧ s.core.SameButCopies (s.fillL1 l p).core := by
  unfold State.fillL1
  extract_lets keep line
  split
  · exact ⟨rfl, rfl⟩
  · split
    · exact ⟨rfl, rfl⟩
    · split <;> exact ⟨rfl, rfl⟩

/-- The last part of a load ends it with all the bytes read. -/
theorem State.loadPart_last (hends : p.ends = true) : ∃ (c : Core) (x : Oxlink), s.core.SameButCopies c ∧
    s.loadPart l p [] = { s with core := (c.cntDown l.ord.stream 1).endLoad l (l.got ++ s.loadBytes l p), ox := x } := by
  obtain ⟨heq, hsame⟩ := s.fillL1_eq l p
  refine ⟨(s.fillL1 l p).core, ((s.fillL1 l p).tookFar l.uid p).ox, hsame, ?_⟩
  unfold State.loadPart
  simp only [hends, if_true]
  rw [heq]
  rfl

/-- What lies in this package is not waited for (R368). -/
theorem State.farWaits_of_local (h : isRemote p.pa = false) : s.farWaits l p = false := by
  simp [State.farWaits, State.farMissing, h]

theorem execLoadReturn_of_absent {u : Nat} (h : ∀ l ∈ s.core.loads, l.uid ≠ u) : execLoadReturn u s = .next s := by
  simp only [execLoadReturn, find?_uid_eq_none h]

section
variable {r : List Part} (hfind : s.core.loads.find? (fun x => x.uid == l.uid) = some l) (hparts : l.parts = p :: r)
  (hfree : s.core.loadBlocked l p = false) (hroute : s.noRoute s.core p.pa = false) (hfar : s.farWaits l p = false)
  (hgood : s.partBad l p = false)
include hfind hparts hfree hroute hfar hgood

/-- A part of a load that nothing holds back, within reach and with good data, returns (R101). -/
theorem execLoadReturn_load (hdest : ∀ op v e, l.dest ≠ .atom op v e) : execLoadReturn l.uid s = .next (s.loadPart l p r) := by
  simp only [execLoadReturn, hfind, hparts, hfree, hroute, hfar, hgood, Bool.false_and, Bool.and_false, Bool.false_eq_true, if_false]

/-- So does one of an atomic, at its home (R255). -/
theorem execLoadReturn_atom {op : Instr} {v e : Word} (hdest : l.dest = .atom op v e) :
    execLoadReturn l.uid s = .next (s.atomPart l p op v e) := by
  simp only [execLoadReturn, hfind, hparts, hfree, hroute, hfar, hgood, hdest, Bool.false_and, Bool.and_false, Bool.false_eq_true, if_false]

end

/-! ### What a load reads -/

/-- With no line of its own for the part, the core reads its home (R107). -/
theorem State.loadBytes_of_no_copy (hl1 : assoc s.core.l1 (p.pa / 128) = none) (hahead : s.core.ahead = []) :
    s.loadBytes l p = s.readParts s.core l.uid [p] := by
  have hserves : s.l1Serves l p = false := by simp [State.l1Serves, hl1]
  have hnone : s.aheadLine l p = none := by
    unfold State.aheadLine
    split
    · rfl
    · rfl
    · simp [Core.aheadOf, hahead]
  simp [State.loadBytes, hserves, hnone]

/-- A core with no store to be performed reads the bytes at their home (R89). -/
theorem State.readParts_of_no_store (hstores : s.core.stores = []) (hheld : s.core.held = []) (hgate : s.core.gate = []) (u : Nat) :
    s.readParts s.core u [p] = (List.range p.n).map (fun i => s.physByte (p.pa + i)) := by
  have hown : s.core.ownStores u = [] := by simp [Core.ownStores, Core.pending', hstores, hheld, hgate]
  simp [State.readParts, hown, storeByte]

/-- A byte of another package reads as its sector came back for the core (R368). -/
theorem State.physByte_of_farSect {pa i : Nat} {x : FarSect} (hremote : isRemote pa = true) (hi : pa % 32 + i < 32)
    (hgot : s.ox.got.find? (fun y => y.core == s.core.id && y.pa == pa / 32 * 32) = some x) :
    s.physByte (pa + i) = x.sect.bytes.getD (pa % 32 + i) 0 := by
  have hsector : (pa + i) / 32 = pa / 32 := by omega
  have hoffset : (pa + i) % 32 = pa % 32 + i := by omega
  have hpackage : (pa + i) / 2 ^ 48 = pa / 2 ^ 48 := by omega
  have hregion : s.region (pa + i) = .remote := s.region_of_isRemote (by rw [isRemote, hpackage]; exact hremote)
  simp only [State.physByte, hregion, State.farSect, hsector, hoffset, hgot, Option.map_some]

end

/-! ### Atomics at their home -/

section
variable {s : State} {l : PLoad} {p : Part} {op : Instr} {v e : Word}

theorem State.atomPart_mem_of_none (h : (atomicValue op p.n (leVal (s.physBytes p.pa p.n)) v.toNat e.toNat).1 = none) :
    (s.atomPart l p op v e).mem = s.mem := by
  simp only [State.atomPart, h]
  rfl

theorem State.atomPart_mem_of_some {d k w : Nat} (hregion : s.region p.pa = .dram d k) (hn : p.n ≠ 0)
    (h : (atomicValue op p.n (leVal (s.physBytes p.pa p.n)) v.toNat e.toNat).1 = some w) :
    (s.atomPart l p op v e).mem = s.mem.put p.pa (leBytes p.n w) := by
  have hne : leBytes p.n w ≠ [] := fun hnil => hn (by rw [← length_leBytes p.n w, hnil, List.length_nil])
  have hwrite : (s.writePhys s.core.id none p.pa (leBytes p.n w)).mem = s.mem.put p.pa (leBytes p.n w) := by
    rw [State.writePhys_mem s s.core.id p.pa d k _ hregion, if_neg hne]
  simp only [State.atomPart, h]
  exact hwrite

end

/-- Byte `q` of a number (R23). -/
theorem getD_leBytes {n q : Nat} (h : q < n) (w : Nat) : (leBytes n w).getD q 0 = BitVec.ofNat 8 (w / 256 ^ q) := by
  induction n generalizing q w with
  | zero => omega
  | succ n ih =>
    cases q with
    | zero => simp [leBytes]
    | succ q =>
      rw [leBytes, List.getD_cons_succ, ih (by omega), Nat.div_div_eq_div_mul, Nat.pow_succ']

/-- What an atomic of memory leaves there: its new value in the `n` bytes at its home, or nothing (R255). -/
theorem State.atomPart_mem {s : State} {p : Part} {d k : Nat} (hregion : s.region p.pa = .dram d k) (hn : p.n ≠ 0)
    (l : PLoad) (op : Instr) (v e : Word) :
    s.MemSameBut (s.atomPart l p op v e) p.pa p.n ∧
    (∀ w, (atomicValue op p.n (leVal (s.physBytes p.pa p.n)) v.toNat e.toNat).1 = some w →
      ∀ q < p.n, (s.atomPart l p op v e).mem.get (p.pa + q) = BitVec.ofNat 8 (w / 256 ^ q)) ∧
    ((atomicValue op p.n (leVal (s.physBytes p.pa p.n)) v.toNat e.toNat).1 = none → (s.atomPart l p op v e).mem = s.mem) := by
  refine ⟨fun a ha => ?_, fun w hw q hq => ?_, State.atomPart_mem_of_none⟩
  · cases h : (atomicValue op p.n (leVal (s.physBytes p.pa p.n)) v.toNat e.toNat).1 with
    | none => rw [State.atomPart_mem_of_none h]
    | some w =>
      rw [State.atomPart_mem_of_some hregion hn h]
      exact Mem.get_put_other _ _ _ _ (by rwa [length_leBytes])
  · rw [State.atomPart_mem_of_some hregion hn hw, Mem.get_put_same _ _ _ _ (by rwa [length_leBytes]), getD_leBytes hq]

/-! What the return of an atomic's value leaves in each register (R255). -/

theorem Arch.rs_landAtomic (a : Arch) (op : Instr) (old v e : Nat) (r : SReg) :
    (a.landAtomic op old v e).rs r = (a.ws (atomicDest op).1 (BitVec.ofNat 64 old)).rs r := by
  simp only [Arch.landAtomic, Arch.rs, Arch.wp_s]

theorem Arch.rp_landAtomic (a : Arch) (op : Instr) (old v e : Nat) (q : PReg) :
    (a.landAtomic op old v e).rp q = (a.wp (atomicDest op).2 (atomicValue op (atomicBytes op) old v e).2.1).rp q := by
  have hflags : (a.landAtomic op old v e).rp q =
      ((a.ws (atomicDest op).1 (BitVec.ofNat 64 old)).wp (atomicDest op).2 (atomicValue op (atomicBytes op) old v e).2.1).rp q := rfl
  have hws : (a.ws (atomicDest op).1 (BitVec.ofNat 64 old)).rp q = a.rp q := by simp only [Arch.rp, Arch.ws_p]
  rw [hflags, Arch.rp_wp, Arch.rp_wp, hws]

theorem Arch.landAtomic_pc (a : Arch) (op : Instr) (old v e : Nat) : (a.landAtomic op old v e).pc = a.pc := by
  simp only [Arch.landAtomic, Arch.wp_pc, Arch.ws_pc]

/-- The registers after an atomic's value has come are those that `Core.TookAtomic` asks for; an atomic that names no predicate
counts as naming P0. -/
theorem Core.tookAtomic_both {c k : Core} (harch : k.arch = c.arch) (hckpt : k.ckpt = c.ckpt) (op : Instr) (old v e : Nat) {p : Option PReg}
    (hp : (atomicDest op).2 = p.getD 0) :
    c.TookAtomic (k.both (fun r => r.landAtomic op old v e)) (atomicDest op).1 p old (atomicValue op (atomicBytes op) old v e).2.1 := by
  unfold Core.TookAtomic
  simp only [Core.both_arch, Core.both_ckpt, harch, hckpt, Arch.rs_landAtomic, Arch.rp_landAtomic, Arch.landAtomic_pc, Arch.rs_ws_same, and_true, true_and]
  refine ⟨fun r hr => ⟨Arch.rs_ws_of_ne _ hr _, Arch.rs_ws_of_ne _ hr _⟩, fun q hq => ?_, fun q hq hzero => ?_⟩
  · cases p with
    | none => rw [hp, Option.getD_none, Arch.wp_zero]
    | some p => exact Arch.rp_wp_of_ne _ (fun h => hq (by rw [h, hp, Option.getD_some])) _
  · have hdest : (atomicDest op).2 = q := by rw [hp, hq, Option.getD_some]
    rw [hdest, Arch.rp_wp_same, if_neg hzero]

/-- The core after an atomic: the write has touched its copies of lines and its monitor alone, and the old value has ended the access
(R101, R255). -/
theorem State.atomPart_core (s : State) (p : Part) {l : PLoad} {op : Instr} {v e : Word} {q : Option PReg} (hdest : l.dest = .atom op v e)
    (hkept : l.dropped = false) (hq : (atomicDest op).2 = q.getD 0) :
    (s.atomPart l p op v e).core.loads = s.core.loads.filter (fun x => x.uid ≠ l.uid) ∧
    (s.atomPart l p op v e).core.cnt = s.core.cnt.set l.ord.stream.val (s.core.cnt[l.ord.stream.val] - 1) ∧
    (s.atomPart l p op v e).core.pool = s.core.pool ∧
    s.core.TookAtomic (s.atomPart l p op v e).core (atomicDest op).1 q (leVal (s.physBytes p.pa p.n))
      (atomicValue op (atomicBytes op) (leVal (s.physBytes p.pa p.n)) v.toNat e.toNat).2.1 := by
  have hcore : ∃ c : Core, s.core.SameButCopies c ∧
      (s.atomPart l p op v e).core = ((c.l1Drop (p.pa / 128)).cntDown l.ord.stream 1).endLoad l (s.physBytes p.pa p.n) := by
    unfold State.atomPart
    dsimp only
    split
    · exact ⟨_, s.writePhys_sameButCopies s.core.id none p.pa _, rfl⟩
    · exact ⟨_, .refl s.core, rfl⟩
  obtain ⟨c, hsame, hcore⟩ := hcore
  rw [hcore, Core.endLoad_of_kept _ hkept, Core.land_atom _ hdest]
  refine ⟨?_, ?_, hsame.pool, Core.tookAtomic_both (by exact hsame.arch) (by exact hsame.ckpt) _ _ _ _ hq⟩
  · rw [← hsame.loads]
    rfl
  · rw [← hsame.cnt]
    rfl

/-- What each atomic acts on and names (R254). -/
theorem atomic_size_dest {i : Instr} {z : Sz} {f : SFmt} {d b c e : SReg} {pd : PReg} {off : BitVec 13} {o : OrdF}
    (hi : i ∈ [Instr.aadd z d b off c o, .amin z d b off c o, .amax z d b off c o, .aminu z d b off c o, .amaxu z d b off c o, .aand z d b off c o,
      .aor z d b off c o, .axor z d b off c o, .aswp z d b off c o, .acas z d b off c e o, .asubf z d b off c e pd o, .afadd f d b off c o]) :
    atomicBytes i = (if i = .afadd f d b off c o then fBits f / 8 else sizeBytes z) ∧ (atomicDest i).1 = d ∧
    (atomicDest i).2 = (if i = .asubf z d b off c e pd o then some pd else none).getD 0 ∧ atomicBytes i ≠ 0 := by
  have hz : sizeBytes z ≠ 0 := by cases z <;> decide
  simp only [List.mem_cons, List.not_mem_nil, or_false] at hi
  rcases hi with rfl | rfl | rfl | rfl | rfl | rfl | rfl | rfl | rfl | rfl | rfl | rfl
  on_goal 12 => cases f <;> simp [atomicBytes, atomicDest, fBits]
  all_goals simp [atomicBytes, atomicDest, hz]

/-- Settles O38: a load's bytes land by `Core.land`, an atomic's old value by `Arch.landAtomic` once its new one is written, and
what a part reads at its home is `State.physByte`. -/
theorem loadsReturn : Obligations.LoadsReturn := by
  unfold Obligations.LoadsReturn
  refine ⟨fun s u => execLoadReturn_of_absent, fun s l p hfind hparts hends hfree hroute hfar hgood hdest => ?load,
    fun s l p i z f d b c e pd off o v x k j n hi hn hfind hparts hpn hdest hkept hfree hroute hgood hregion => ?atomic,
    fun s l p => State.loadBytes_of_no_copy, fun s u p x hstores hheld hgate hremote hn hgot => ?far,
    fun s u p hstores hheld hgate hregion => ?near⟩
  case load =>
    obtain ⟨c, ox, hsame, hlast⟩ := State.loadPart_last (s := s) (l := l) hends
    obtain ⟨hloads, hcnt⟩ := (c.cntDown l.ord.stream 1).endLoad_loads_cnt (l := l) (l.got ++ s.loadBytes l p)
    refine ⟨_, execLoadReturn_load hfind hparts hfree hroute hfar hgood hdest, ?_⟩
    rw [hlast]
    refine ⟨rfl, fun _ => hfar, ?_, ?_, ?_⟩
    · rw [hloads, Core.cntDown_loads, hsame.loads]
    · rw [hcnt, Core.cntDown_cnt, hsame.cnt]
    rintro bs rfl
    refine ⟨fun hdropped => ?_, fun hkept a ha => ?_, fun hkept r f hr => ?_⟩
    · rw [Core.endLoad_of_dropped _ hdropped]
      exact ⟨hsame.arch, hsame.ckpt, hsame.pool⟩
    · rw [Core.endLoad_of_kept _ hkept, Core.land_regs ha, Core.landRegs_arch, Core.landRegs_ckpt, Core.landRegs_pool]
      simp only [Core.dropLoad, Core.cntDown_arch, Core.cntDown_ckpt, Core.cntDown_pool, hsame.arch, hsame.ckpt, hsame.pool, and_self]
    · rw [Core.endLoad_of_kept _ hkept, Core.land_t _ hr, ← hsame.arch, ← hsame.ckpt, ← hsame.pool, Nat.mul_comm 16384]
      refine ⟨rfl, rfl, ?_⟩
      rw [Core.putRuns_one_pool]
      exact ⟨Mem.get_put_same _ _ _, Mem.get_put_other _ _ _⟩
  case atomic =>
    obtain ⟨hsize, hsd, hpd, hpos⟩ := atomic_size_dest hi
    obtain rfl : atomicBytes i = n := hsize.trans hn.symm
    obtain ⟨hloads, hcnt, hpool, hregs⟩ := s.atomPart_core p hdest hkept hpd
    have hmem := State.atomPart_mem hregion (hpn ▸ hpos) l i v x
    have hfar : s.farWaits l p = false := State.farWaits_of_local (State.not_isRemote_of_dram hregion)
    refine ⟨_, execLoadReturn_atom hfind hparts hfree hroute hfar hgood hdest, hloads, hcnt, hpool, ?_⟩
    rintro old rfl
    rw [hsd, hpn] at hregs
    rw [hpn] at hmem
    exact ⟨hregs, hmem⟩
  case far =>
    rw [State.readParts_of_no_store hstores hheld hgate]
    refine List.map_congr_left fun i hi => State.physByte_of_farSect hremote ?_ hgot
    have := List.mem_range.mp hi
    omega
  case near =>
    rw [State.readParts_of_no_store hstores hheld hgate]
    refine List.map_congr_left fun i hi => ?_
    have hlt := List.mem_range.mp hi
    obtain ⟨d, k, hdram⟩ := hregion (p.pa + i) (by omega) (by omega)
    exact State.physByte_of_dram hdram

end Sys2Proof.Machine

namespace Sys2Proof.Machine

/-! ## A dispatcher that cannot walk the tables that the core in focus can (O49, O50)

O49 and O50 translate DONE by `State.partsAt` of the state itself, as the core in focus does. The model writes a completion word as the
launch's dispatcher does, by `State.byDisp`. The two differ where the tables lie on a die that the core reaches and the dispatcher does
not: then the write faults and is dropped (R140, R367), and the statements' word is not in memory. -/

/-- Two dies with no link between them. GLOBAL page 0 leads to 0x10000 of die 1 under ASID 1, by tables on die 1, and under ASID 2, by
tables on die 0. The core in focus is on die 0. -/
def splitTables : State := { State.reset with
  booted := true,
  dies := (State.reset.dies.set 0 { DieEnum.init with dieok := true }).set 1 { DieEnum.init with dieok := true },
  descs := [(1, ⟨Config.dieBytes / 4096 + 1, 0, 16⟩), (2, ⟨1, 0, 16⟩)],
  mem := Mem.puts [] ((demoTables 0 ++ demoTables Config.dieBytes ++ [(0x5000, Config.dieBytes + 0x10003 + 7 * 2 ^ 53)]).map
    (fun e : Nat × Nat => (e.1, leBytes 8 e.2))) }

/-- Where the word at GLOBAL 0x1000 lies. -/
def splitDone : Part := ⟨Config.dieBytes + 0x11000, 8, false, true, none, true⟩

/-- A failed launch of die 1 under ASID 2, whose completion word is at 0x1000. -/
def splitLaunch : Launch :=
  let l := demoLaunch 7 1 0
  { l with status := .failed, lr := { l.lr with asid := 2, done := 0x1000 } }

/-- The launch in the package. -/
def splitFailing : State := { splitTables with launches := [splitLaunch] }

/-- Stream 0 of die 1 under ASID 1 names a record under ASID 2 with more tasks than R134 allows and its completion word at 0x1000. -/
def splitReading : State := { splitTables with
  disp := splitTables.disp.set 1 (splitTables.disp[1].onStream 0 (fun _ => ⟨true, 0x2000, 1⟩)),
  mem := splitTables.mem.puts [(Config.dieBytes + 0x12000, leBytes 8 (2 * 2 ^ 48 + 0x100001 * 2 ^ 8)),
    (Config.dieBytes + 0x12040, leBytes 8 0x1000)] }

/-- The bytes of that record. -/
def splitRecord : List Byte := splitReading.mem.bytes (Config.dieBytes + 0x12000) 128

/-- An answer is the one that it gives as an option. -/
theorem ok_of_toOption {α : Type} {x : Except Cause α} {v : α} (h : x.toOption = some v) : x = .ok v := by
  cases x with
  | ok w => exact congrArg Except.ok (Option.some.inj h)
  | error c => cases h

/-- The core in focus translates DONE to memory of die 1, which that die's dispatcher reaches. -/
theorem splitFailing_partsAt : splitFailing.partsAt 2 0x1000 8 .write = .ok [splitDone] := ok_of_toOption (by decide +kernel)

theorem splitReading_partsAt : splitReading.partsAt 2 0x1000 8 .write = .ok [splitDone] := ok_of_toOption (by decide +kernel)

/-- The completion word is dropped: its place still holds 0. -/
theorem splitFailing_done :
    (match exec (.launchComplete 7) splitFailing with | .next t => leVal (t.mem.bytes splitDone.pa 8) | _ => 1) = 0 := by decide +kernel

theorem splitReading_done :
    (match exec (.launchRecordRead 1 0) splitReading with | .next t => leVal (t.mem.bytes splitDone.pa 8) | _ => 1) = 0 := by decide +kernel

theorem splitReading_readG : splitReading.readG 1 1 0x2000 128 = .ok splitRecord := ok_of_toOption (by decide +kernel)

/-- Refutes O50, by its clause on the completion word: the statement asks for the word of a failed launch where the core in focus
translates DONE, and the dispatcher of die 1, which no route leads to the tables on die 0, drops it. -/
theorem not_tasksRunAndEnd : ¬ Obligations.TasksRunAndEnd := by
  unfold Obligations.TasksRunAndEnd
  rintro ⟨-, -, -, -, hends⟩
  obtain ⟨hover, -⟩ := hends splitFailing 7 splitLaunch rfl rfl rfl
  obtain ⟨t, hnext, -, hword⟩ := hover (.inl rfl)
  have hasked : leVal (t.mem.bytes splitDone.pa 8) = 1 :=
    hword splitDone (by decide) (by decide) (by decide) splitFailing_partsAt rfl (by decide) ⟨1, 0x11000, by decide +kernel⟩ (by decide +kernel)
  have hholds := splitFailing_done
  rw [hnext] at hholds
  exact absurd (hholds.symm.trans hasked) (by decide)

/-- Refutes O49, by the same clause for a record that is rejected with code 0x10: its word is asked for where the core in focus translates
DONE, and the dispatcher drops it. -/
theorem not_launchRecords : ¬ Obligations.LaunchRecords := by
  unfold Obligations.LaunchRecords
  rintro ⟨hreads, -, -⟩
  obtain ⟨-, -, -, -, -, hread⟩ := hreads splitReading 1 0 splitRecord _ _ _ rfl rfl rfl
  obtain ⟨-, hreject⟩ := hread (by decide +kernel) (by decide +kernel) rfl rfl (by decide +kernel) (by decide +kernel) splitReading_readG (by decide +kernel)
    (fun _ l hl => absurd hl (by simp [splitReading, splitTables, State.reset]))
  obtain ⟨t, hnext, -, -, -, -, hword⟩ := hreject 0x10 (by decide +kernel)
  have hasked : leVal (t.mem.bytes splitDone.pa 8) = 0x10 :=
    hword splitDone (by decide +kernel) (by decide +kernel) (by decide +kernel) splitReading_partsAt rfl (by decide) ⟨1, 0x11000, by decide +kernel⟩ (by decide +kernel)
  have hholds := splitReading_done
  rw [hnext] at hholds
  exact absurd (hholds.symm.trans hasked) (by decide)

end Sys2Proof.Machine

namespace Sys2Proof.Machine

/-! ## Cluster barriers (O24) -/

section
variable {s : State} {b : Fin 16}

theorem State.faultBar_of_absent (h : s.holdsBar b = false) : s.faultBar b = some (slotFault 0 Cause.barrierAbsent 0) := by
  simp [State.faultBar, faultIf, h]

theorem State.faultBar_of_held (h : s.holdsBar b = true) : s.faultBar b = none := by
  simp [State.faultBar, faultIf, h]

theorem execBarArv_of_sent (h : s.holdsBar b = true) (hsent : s.core.ckpt.pc ∈ s.core.arvSent) : execBarArv b s = .next s := by
  simp only [execBarArv, State.faultBar_of_held h, State.guard_none, List.contains_iff_mem, hsent, if_true]

/-- The arrival carries the number of the next access as the mark of what comes before it. -/
theorem execBarArv_of_new (h : s.holdsBar b = true) (hnew : s.core.ckpt.pc ∉ s.core.arvSent) : execBarArv b s = .next { s with
    uid := s.uid + 1,
    core := { s.core with
      arvSent := s.core.arvSent ++ [s.core.ckpt.pc],
      arrivals := s.core.arrivals ++ [(b.val, s.uid)],
      arrived := bindTo s.core.arrived b.val ((s.myBar b.val).epochs + 1) } } := by
  simp only [execBarArv, State.faultBar_of_held h, State.guard_none, List.contains_iff_mem, hnew, if_false]
  rfl

theorem execBarWt_of_held (h : s.holdsBar b = true) :
    execBarWt b s = .next { s with core := { s.core with arrived := unbind s.core.arrived b.val } } := by
  simp only [execBarWt, State.faultBar_of_held h, State.guard_none]
  rfl

/-- The barrier after one arrival more: the last member's completes the epoch (R152). -/
def Barrier.counted (k : Barrier) (full : Bool) : Barrier :=
  if full then { k with arrivals := 0, epochs := k.epochs + 1 } else { k with arrivals := k.arrivals + 1 }

variable {u : Nat} {l : Launch} (hsent : assoc s.core.arrivals b.val = some u) (hlaunch : s.launchOf s.core = some l)
include hsent hlaunch

theorem execBarrierArrivalCounted_of_unsettled (h : s.core.settledBelow u = false) : execBarrierArrivalCounted b s = .next s := by
  simp only [execBarrierArrivalCounted, hsent, hlaunch, h, Bool.not_false, if_true]

/-- The last member's arrival also clears the Troy tags of the launch (R112). -/
theorem execBarrierArrivalCounted_of_settled (h : s.core.settledBelow u = true) :
    let k := s.myBar b.val
    let full := decide (s.members l k.cluster ≤ k.arrivals + 1)
    execBarrierArrivalCounted b s = .next { s with
      core := { s.core with arrivals := unbind s.core.arrivals b.val },
      barriers := k.counted full :: s.barriers.filter (fun x => !(x.cluster == k.cluster && x.num == k.num && x.launch == k.launch)),
      tags := if full then s.tags.filter (fun t => t.1 ≠ k.launch) else s.tags } := by
  simp only [execBarrierArrivalCounted, hsent, hlaunch, h, Bool.not_true, Bool.false_eq_true, if_false]
  rfl

end

/-- Settles O24: both instructions go by whether the launch holds the barrier, and an arrival by whether what comes before it is performed
and whether it is the last member's. -/
theorem barrierArriveAndWait : Obligations.BarrierArriveAndWait := by
  unfold Obligations.BarrierArriveAndWait
  refine ⟨fun s b habsent => ?absent, fun s b hheld => ⟨execBarArv_of_sent hheld, execBarArv_of_new hheld, execBarWt_of_held hheld⟩,
    fun s b u l hsent hlaunch => ⟨execBarrierArrivalCounted_of_unsettled hsent hlaunch, fun hsettled => ?counted⟩⟩
  case absent =>
    have hfault := State.faultBar_of_absent habsent
    exact ⟨congrArg (fun f => s.guard f _) hfault, congrArg (fun f => s.guard f _) hfault⟩
  case counted =>
    refine ⟨_, execBarrierArrivalCounted_of_settled hsent hlaunch hsettled, rfl, fun hmore => ?_, fun hlast => ?_⟩
    · simp only [Barrier.counted, decide_eq_false hmore, Bool.false_eq_true, if_false, List.head?_cons, and_self]
    · simp only [Barrier.counted, decide_eq_true hlast, if_true, List.head?_cons, and_self]

end Sys2Proof.Machine

namespace Sys2Proof.Machine

/-! ## The cores of a state, wherever they stand -/

section
variable {s : State} {f : Core → Core} {c n : Nat}

theorem State.coreAt_id (s : State) (n : Nat) : (s.coreAt n).id = n := by
  unfold State.coreAt
  split
  · assumption
  · cases h : s.others.find? (fun k => k.id == n) with
    | none => rfl
    | some k => simpa using List.find?_some h

theorem State.coreAt_focused (s : State) : s.coreAt s.core.id = s.core := if_pos rfl

/-- A core that has run a task is one of those used. -/
theorem State.coreAt_mem_or (s : State) (n : Nat) : s.coreAt n ∈ s.cores ∨ s.coreAt n = Core.init n := by
  unfold State.coreAt State.cores
  split
  · exact .inl List.mem_cons_self
  · cases h : s.others.find? (fun k => k.id == n) with
    | none => exact .inr rfl
    | some k => exact .inl (List.mem_cons_of_mem _ (List.mem_of_find?_eq_some h))

theorem State.coreAt_onCore_same (hf : (f (s.coreAt c)).id = c) : (s.onCore c f).coreAt c = f (s.coreAt c) := by
  unfold State.onCore
  split
  · rename_i h
    subst h
    rw [State.coreAt_focused] at hf ⊢
    exact if_pos hf
  · rename_i h
    simp [State.coreAt, h] at hf ⊢
    simp [hf]

theorem State.coreAt_onCore_of_ne (hf : (f (s.coreAt c)).id = c) (h : n ≠ c) : (s.onCore c f).coreAt n = s.coreAt n := by
  unfold State.onCore
  split
  · rename_i hc
    subst hc
    rw [State.coreAt_focused] at hf
    simp [State.coreAt, hf, h.symm]
  · have hfind : (s.others.filter (fun k => decide (k.id ≠ c))).find? (fun k => k.id == n) = s.others.find? (fun k => k.id == n) := by
      rw [List.find?_filter]
      refine congrArg (fun p => s.others.find? p) (funext fun k => ?_)
      by_cases hk : k.id = n <;> simp [hk, h]
    have hnot : ((f (s.coreAt c)).id == n) = false := by rw [hf]; exact beq_eq_false_iff_ne.mpr h.symm
    unfold State.coreAt at hnot ⊢
    simp only [List.find?_cons, hnot, hfind]

/-- A change of every core that keeps their numbers and leaves a fresh core alone. -/
theorem State.coreAt_mapCores (hid : ∀ k, (f k).id = k.id) (hinit : ∀ n, f (Core.init n) = Core.init n) (n : Nat) :
    ({ s with core := f s.core, others := s.others.map f } : State).coreAt n = f (s.coreAt n) := by
  simp only [State.coreAt, hid, List.find?_map]
  split
  · rfl
  · have hcomp : ((fun k : Core => k.id == n) ∘ f) = fun k => k.id == n := funext fun k => by simp [hid]
    rw [hcomp]
    cases s.others.find? (fun k => k.id == n) with
    | none => exact (hinit n).symm
    | some k => rfl

end

/-- The launch of a core's task has the number that the task names. -/
theorem State.task_of_launchOf {s : State} {c : Core} {v : Launch} (h : s.launchOf c = some v) : c.task.map Task.launch = some v.id := by
  unfold State.launchOf at h
  obtain ⟨t, ht, hv⟩ := Option.bind_eq_some_iff.mp h
  have : v.id = t.launch := by simpa using List.find?_some hv
  rw [ht, this]
  rfl

theorem State.launch_id {s : State} {l : Nat} {x : Launch} (h : s.launch l = some x) : x.id = l := by
  simpa using List.find?_some h

theorem State.up_of {s : State} (hboot : s.booted = true) (hreset : s.inReset = false) : s.up = true := by
  simp [State.up, hboot, hreset]

/-- A launch found by its number is found, changed, after a change of the launches of that number. -/
theorem State.launch_onLaunch {s : State} {l : Nat} {x : Launch} {f : Launch → Launch} (h : s.launch l = some x) (hf : ∀ y, (f y).id = y.id) :
    (s.onLaunch l f).launch l = some (f x) := by
  have hx := State.launch_id h
  have hcomp : ((fun y : Launch => y.id == l) ∘ fun y => if y.id = l then f y else y) = fun y => y.id == l :=
    funext fun y => by by_cases hy : y.id = l <;> simp [hy, hf]
  unfold State.launch at h ⊢
  rw [State.onLaunch_launches, List.find?_map, hcomp, h]
  simp [hx]

/-! ## Pressing victims (O51) -/

/-- A core asked to give way, when it runs a task of `v` and either is core `c` or `v` is CONCURRENT (R148). -/
def Core.askedFor (k : Core) (c : Nat) (v : Launch) : Core :=
  if (k.id = c ∨ v.lr.cls = 2) ∧ k.task.map Task.launch = some v.id then { k with preempt := true } else k

theorem State.requestFull_eq {s : State} {c : Nat} {v : Launch} (h : s.launchOf (s.coreAt c) = some v) :
    s.requestFull c = { s with core := s.core.askedFor c v, others := s.others.map (fun k => k.askedFor c v) } := by
  simp only [State.requestFull, h]
  rfl

/-- Every core with a task of launch `n` is asked to give way. -/
def State.AllAsked (s : State) (n : Nat) : Prop := ∀ k ∈ s.cores, k.task.map Task.launch = some n → k.preempt = true

/-- The core `m` is `k` but for what presses it: it is asked to give way where `k` was, and held back for launch `l` where `k` was. -/
structure Core.PressedTo (l : Nat) (k m : Core) : Prop where
  same : m = { k with preempt := m.preempt, holdFor := m.holdFor }
  asked : k.preempt = true → m.preempt = true
  held : k.holdFor = some l → m.holdFor = some l

/-- The state `t` is `s` after presses for launch `l`. -/
structure State.PressedTo (l : Nat) (s t : State) : Prop where
  same : t = { s with core := t.core, others := t.others }
  core : ∀ c, (s.coreAt c).PressedTo l (t.coreAt c)
  gang : ∀ n, s.AllAsked n → t.AllAsked n

namespace State.PressedTo
variable {l : Nat} {s t u : State}

theorem refl (l : Nat) (s : State) : s.PressedTo l s := ⟨rfl, fun _ => ⟨rfl, id, id⟩, fun _ h => h⟩

theorem trans (h : s.PressedTo l t) (h' : t.PressedTo l u) : s.PressedTo l u := by
  refine ⟨by rw [h'.same, h.same], fun c => ⟨?_, (h'.core c).asked ∘ (h.core c).asked, (h'.core c).held ∘ (h.core c).held⟩, fun n => h'.gang n ∘ h.gang n⟩
  rw [(h'.core c).same, (h.core c).same]

theorem launchOf (h : s.PressedTo l t) (c : Nat) : t.launchOf (t.coreAt c) = s.launchOf (s.coreAt c) := by
  have htask : (t.coreAt c).task = (s.coreAt c).task := by rw [(h.core c).same]
  unfold State.launchOf State.launch
  rw [htask, h.same]

theorem physical (h : s.PressedTo l t) (core : Nat) : t.physical core = s.physical core := by rw [h.same]; rfl

theorem clk (h : s.PressedTo l t) (c : Nat) : (t.coreAt c).past + (t.coreAt c).ran = (s.coreAt c).past + (s.coreAt c).ran := by
  rw [(h.core c).same]

end State.PressedTo

section
variable {s : State} {c l : Nat} {v : Launch}

theorem Core.askedFor_pressedTo (k : Core) (c : Nat) (v : Launch) (l : Nat) : k.PressedTo l (k.askedFor c v) := by
  unfold Core.askedFor
  split
  · exact ⟨rfl, fun _ => rfl, fun h => h⟩
  · exact ⟨rfl, fun h => h, fun h => h⟩

theorem Core.askedFor_id (k : Core) (c : Nat) (v : Launch) : (k.askedFor c v).id = k.id := by rw [(k.askedFor_pressedTo c v 0).same]

theorem State.coreAt_requestFull (h : s.launchOf (s.coreAt c) = some v) (n : Nat) : (s.requestFull c).coreAt n = (s.coreAt n).askedFor c v := by
  rw [State.requestFull_eq h]
  exact State.coreAt_mapCores (fun k => k.askedFor_id c v) (fun n => if_neg fun ⟨_, htask⟩ => by cases htask) n

theorem State.requestFull_pressedTo (h : s.launchOf (s.coreAt c) = some v) (l : Nat) : s.PressedTo l (s.requestFull c) := by
  refine ⟨by rw [State.requestFull_eq h], fun n => ?_, fun n hall k hk htask => ?_⟩
  · rw [State.coreAt_requestFull h]
    exact Core.askedFor_pressedTo _ _ _ _
  · rw [State.requestFull_eq h] at hk
    obtain ⟨m, hm, rfl⟩ : ∃ m ∈ s.cores, m.askedFor c v = k := List.mem_map.mp (by simpa [State.cores] using hk)
    have hpress := m.askedFor_pressedTo c v 0
    exact hpress.asked (hall m hm (by rw [← htask, hpress.same]))

/-- The task of the core is asked to give way, and every task of its gang. -/
theorem State.requestFull_asks (h : s.launchOf (s.coreAt c) = some v) :
    ((s.requestFull c).coreAt c).preempt = true ∧ (v.lr.cls = 2 → (s.requestFull c).AllAsked v.id) := by
  constructor
  · rw [State.coreAt_requestFull h, Core.askedFor, if_pos ⟨.inl (s.coreAt_id c), State.task_of_launchOf h⟩]
  · intro hcls k hk htask
    rw [State.requestFull_eq h] at hk
    obtain ⟨m, -, rfl⟩ : ∃ m ∈ s.cores, m.askedFor c v = k := List.mem_map.mp (by simpa [State.cores] using hk)
    rw [(m.askedFor_pressedTo c v 0).same] at htask
    rw [Core.askedFor, if_pos ⟨.inr hcls, htask⟩]

theorem Core.hold_pressedTo (k : Core) (l : Nat) : k.PressedTo l { k with holdFor := some l } := ⟨rfl, fun h => h, fun _ => rfl⟩

theorem State.hold_pressedTo (s : State) (c l : Nat) : s.PressedTo l (s.onCore c (fun k => { k with holdFor := some l })) := by
  have hid : ({ s.coreAt c with holdFor := some l } : Core).id = c := s.coreAt_id c
  refine ⟨by unfold State.onCore; split <;> rfl, fun n => ?_, fun n hall k hk htask => ?_⟩
  · by_cases h : n = c
    · subst h
      rw [State.coreAt_onCore_same hid]
      exact Core.hold_pressedTo _ _
    · rw [State.coreAt_onCore_of_ne hid h]
      exact ⟨rfl, id, id⟩
  · have hfrom : k ∈ s.cores ∨ k = { s.coreAt c with holdFor := some l } ∨ k = { s.core with holdFor := some l } := by
      unfold State.onCore at hk
      split at hk
      · rcases List.mem_cons.mp hk with h | h
        · exact .inr (.inr h)
        · exact .inl (List.mem_cons_of_mem _ h)
      · rcases List.mem_cons.mp hk with h | h
        · exact .inl (h ▸ List.mem_cons_self)
        · rcases List.mem_cons.mp h with h | h
          · exact .inr (.inl h)
          · exact .inl (List.mem_cons_of_mem _ (List.mem_of_mem_filter h))
    rcases hfrom with h | rfl | rfl
    · exact hall k h htask
    · rcases s.coreAt_mem_or c with h | h
      · exact hall (s.coreAt c) h htask
      · have hnone : (s.coreAt c).task = none := by rw [h]; rfl
        rw [show ({ s.coreAt c with holdFor := some l } : Core).task = (s.coreAt c).task from rfl, hnone] at htask
        cases htask
    · exact hall s.core List.mem_cons_self htask

end

section
variable {s : State} {x v : Launch} {core : Nat}

theorem State.pressFor_pressedTo (s : State) (x : Launch) (core : Nat) : s.PressedTo x.id (s.pressFor x core) := by
  unfold State.pressFor
  dsimp only
  split
  · exact .refl _ s
  · rename_i v hv
    split
    · exact .refl _ s
    · have hgives : ∀ p : Prop, [Decidable p] → s.PressedTo x.id (if p then s.requestFull (s.physical core)
          else s.onCore (s.physical core) (fun k => { k with holdFor := some x.id })) := by
        intro p _
        split
        · exact State.requestFull_pressedTo hv _
        · exact State.hold_pressedTo s _ _
      exact hgives _

variable (hv : s.launchOf (s.coreAt (s.physical core)) = some v) (hother : v.id ≠ x.id) (hclass : x.eff < v.eff)
include hv hother hclass

theorem State.pressFor_eq : s.pressFor x core =
    if x.due + ((s.coreAt (s.physical core)).past + (s.coreAt (s.physical core)).ran) < s.dtime.toNat + v.lr.cost.toNat + x.lr.cost.toNat ∧ v.lr.midp = true then
      s.requestFull (s.physical core)
    else s.onCore (s.physical core) (fun k => { k with holdFor := some x.id }) := by
  have hvictim : ¬ (v.id = x.id ∨ v.eff ≤ x.eff) := by omega
  simp only [State.pressFor, hv, hvictim, if_false, Bool.and_eq_true, decide_eq_true_eq]
  rfl

/-- A victim whose node boundary would come too late is asked for its full pre-emption, where it allows one, with its gang. -/
theorem State.pressFor_asks
    (hlate : x.due < s.dtime.toNat + v.lr.cost.toNat + x.lr.cost.toNat - ((s.coreAt (s.physical core)).past + (s.coreAt (s.physical core)).ran))
    (hmidp : v.lr.midp = true) :
    ((s.pressFor x core).coreAt (s.physical core)).preempt = true ∧ (v.lr.cls = 2 → (s.pressFor x core).AllAsked v.id) := by
  rw [State.pressFor_eq hv hother hclass, if_pos ⟨by omega, hmidp⟩]
  exact State.requestFull_asks hv

/-- Another victim's core is held back. -/
theorem State.pressFor_holds
    (h : s.dtime.toNat + v.lr.cost.toNat + x.lr.cost.toNat - ((s.coreAt (s.physical core)).past + (s.coreAt (s.physical core)).ran) ≤ x.due ∨ v.lr.midp = false) :
    ((s.pressFor x core).coreAt (s.physical core)).holdFor = some x.id := by
  rw [State.pressFor_eq hv hother hclass, if_neg]
  · rw [State.coreAt_onCore_same (s.coreAt_id _)]
  · rintro ⟨hlate, hmidp⟩
    rcases h with h | h
    · omega
    · rw [h] at hmidp
      cases hmidp

end

/-- All the presses of a list of cores, one after the other. -/
theorem State.presses_pressedTo (x : Launch) (cores : List Nat) (s : State) :
    s.PressedTo x.id (cores.foldl (fun s core => s.pressFor x core) s) := by
  induction cores generalizing s with
  | nil => exact .refl _ s
  | cons core r ih => exact (s.pressFor_pressedTo x core).trans (ih _)

/-- Each core of the list is pressed after some of the presses, and before the others. -/
theorem State.presses_mem (x : Launch) {cores : List Nat} {core : Nat} (h : core ∈ cores) (s : State) :
    ∃ u, s.PressedTo x.id u ∧ (u.pressFor x core).PressedTo x.id (cores.foldl (fun s core => s.pressFor x core) s) := by
  induction cores generalizing s with
  | nil => cases h
  | cons first r ih =>
    rcases List.mem_cons.mp h with rfl | h
    · exact ⟨s, .refl _ s, State.presses_pressedTo x r _⟩
    · obtain ⟨u, hto, hfrom⟩ := ih h (s.pressFor x first)
      exact ⟨u, (s.pressFor_pressedTo x first).trans hto, hfrom⟩

theorem State.onCore_dtime (s : State) (n : Nat) (f : Core → Core) : (s.onCore n f).dtime = s.dtime := by
  unfold State.onCore
  split <;> rfl

theorem State.endTask_dtime (s : State) (c : Nat) : (s.endTask c).dtime = s.dtime := by
  unfold State.endTask
  dsimp only
  split
  · split
    · rfl
    · split <;> exact State.onCore_dtime _ _ _
  · rfl

theorem State.settle_dtime (s : State) : s.settle.dtime = s.dtime := by
  unfold State.settle
  generalize s.cores.filter s.drained = cs
  induction cs generalizing s with
  | nil => rfl
  | cons c r ih => exact (ih _).trans (s.endTask_dtime c.id)

/-! ## A launch that waits too long, or whose deadline nears (R147, R148) -/

/-- A launch needs the core of a slot that waits there or stands in its save. -/
def Launch.needsSlot (x : Launch) (i : Nat) : Prop := i < x.slots.length ∧ (x.waitsAt i = true ∨ x.savedAt i = true)

/-- The core that slot `i` of launch `x` is placed on runs work of a higher class number, that of launch `v`. -/
def State.victimAt (q : State) (x : Launch) (i : Nat) (v : Launch) : Prop :=
  q.launchOf (q.coreAt (q.physical (x.cores.getD i 0))) = some v ∧ v.id ≠ x.id ∧ x.eff < v.eff

/-- The cores that an urgent launch presses: those it needs where work of a higher class number runs. -/
def State.pressedCores (q : State) (x : Launch) : List Nat :=
  (((List.range x.slots.length).filter (fun i => x.waitsAt i || x.savedAt i)).map (fun i => x.cores.getD i 0)).filter (fun core =>
    match q.launchOf (q.coreAt (q.physical core)) with
    | some v => v.id != x.id && decide (x.eff < v.eff)
    | none => false)

theorem State.mem_pressedCores {q : State} {x : Launch} {core : Nat} :
    core ∈ q.pressedCores x ↔ ∃ i v, core = x.cores.getD i 0 ∧ x.needsSlot i ∧ q.victimAt x i v := by
  have hvictim : ∀ core, (match q.launchOf (q.coreAt (q.physical core)) with
      | some v => v.id != x.id && decide (x.eff < v.eff)
      | none => false) = true ↔ ∃ v, q.launchOf (q.coreAt (q.physical core)) = some v ∧ v.id ≠ x.id ∧ x.eff < v.eff := by
    intro core
    cases q.launchOf (q.coreAt (q.physical core)) <;> simp
  simp only [State.pressedCores, List.mem_filter, List.mem_map, List.mem_range, Bool.or_eq_true, hvictim]
  constructor
  · rintro ⟨⟨i, hneeds, rfl⟩, v, hv⟩
    exact ⟨i, v, rfl, hneeds, hv⟩
  · rintro ⟨i, v, rfl, hneeds, hv⟩
    exact ⟨⟨i, hneeds, rfl⟩, v, hv⟩

section
variable {s : State} {l : Nat} {x : Launch} (hx : s.settle.launch l = some x)
include hx

theorem execLaunchPromote_of_due (hup : s.up = true) (hwaits : x.waits = true) (heff : 0 < x.eff)
    (hw : (s.disp[(dieIx x.die).val]).starve.toList.getD x.eff 0 ≠ 0)
    (hwaited : ((s.disp[(dieIx x.die).val]).starve.toList.getD x.eff 0).toNat ≤ x.waited) :
    execLaunchPromote l s = .next (s.settle.onLaunch l (fun y => { y with eff := y.eff - 1, waited := 0 })) := by
  simp only [execLaunchPromote, hx, hup, hwaits, heff, bne_iff_ne.mpr hw, hwaited, decide_true, Bool.and_self, if_true]

theorem execLaunchPromote_of_not_due
    (h : x.eff = 0 ∨ (s.disp[(dieIx x.die).val]).starve.toList.getD x.eff 0 = 0 ∨
      x.waited < ((s.disp[(dieIx x.die).val]).starve.toList.getD x.eff 0).toNat) :
    execLaunchPromote l s = .next s := by
  simp only [execLaunchPromote, hx]
  refine if_neg fun hdue => ?_
  simp only [Bool.and_eq_true, decide_eq_true_eq, bne_iff_ne] at hdue
  obtain ⟨⟨⟨-, heff⟩, hw⟩, hwaited⟩ := hdue
  rcases h with h | h | h
  · omega
  · exact hw h
  · omega

theorem execLaunchUrgent_eq (hup : s.up = true) (hwaits : x.waits = true) : execLaunchUrgent l s =
    if x.due ≤ s.dtime.toNat + x.lr.cost.toNat + (s.disp[(dieIx x.die).val]).lead.toNat ∧ s.settle.pressedCores x ≠ [] then
      .next (((s.settle.pressedCores x).foldl (fun s core => s.pressFor x core) s.settle).onLaunch l (fun y => { y with urgent := true }))
    else .next s := by
  have hnil : ∀ {α : Type} (xs : List α), ((!xs.isEmpty) = true) = (xs ≠ []) := fun xs => by cases xs <;> simp
  simp only [execLaunchUrgent, hx, hup, hwaits, Bool.true_and, Bool.and_eq_true, decide_eq_true_eq, hnil]
  rfl

end

section
variable {s : State} {l : Nat} {x : Launch} (hx : s.settle.launch l = some x) (hup : s.up = true) (hwaits : x.waits = true)
include hx hup hwaits

theorem execLaunchUrgent_of_calm
    (h : s.dtime.toNat + x.lr.cost.toNat + (s.disp[(dieIx x.die).val]).lead.toNat < x.due ∨ ∀ i, x.needsSlot i → ∀ v, ¬ s.settle.victimAt x i v) :
    execLaunchUrgent l s = .next s := by
  rw [execLaunchUrgent_eq hx hup hwaits, if_neg]
  rintro ⟨hdue, hheld⟩
  obtain ⟨core, hcore⟩ := List.exists_mem_of_ne_nil _ hheld
  obtain ⟨i, v, -, hneeds, hvictim⟩ := State.mem_pressedCores.mp hcore
  rcases h with h | h
  · omega
  · exact h i hneeds v hvictim

/-- A launch that presses is marked urgent, and what each of its victims is asked for goes by the victim's own deadline check. -/
theorem execLaunchUrgent_of_due (hdue : x.due ≤ s.dtime.toNat + x.lr.cost.toNat + (s.disp[(dieIx x.die).val]).lead.toNat)
    (hsome : ∃ i v, x.needsSlot i ∧ s.settle.victimAt x i v) :
    ∃ t, execLaunchUrgent l s = .next (t.onLaunch l (fun y => { y with urgent := true })) ∧ s.settle.PressedTo x.id t ∧
      ∀ i v, x.needsSlot i → s.settle.victimAt x i v → ∃ u, s.settle.PressedTo x.id u ∧ (u.pressFor x (x.cores.getD i 0)).PressedTo x.id t := by
  have hmem : ∀ i v, x.needsSlot i → s.settle.victimAt x i v → x.cores.getD i 0 ∈ s.settle.pressedCores x :=
    fun i v hneeds hvictim => State.mem_pressedCores.mpr ⟨i, v, rfl, hneeds, hvictim⟩
  obtain ⟨i, v, hneeds, hvictim⟩ := hsome
  rw [execLaunchUrgent_eq hx hup hwaits, if_pos ⟨hdue, List.ne_nil_of_mem (hmem i v hneeds hvictim)⟩]
  exact ⟨_, rfl, State.presses_pressedTo x _ _, fun i v hneeds hvictim => State.presses_mem x (hmem i v hneeds hvictim) _⟩

end

section
variable {q u t : State} {x v : Launch} {i : Nat} (hvictim : q.victimAt x i v) (hto : q.PressedTo x.id u)
  (hfrom : (u.pressFor x (x.cores.getD i 0)).PressedTo x.id t)
include hvictim hto hfrom

/-- A victim stays one through the presses before its own, and what its own press does stays through those after it. -/
theorem State.victim_asked
    (hlate : x.due < q.dtime.toNat + v.lr.cost.toNat + x.lr.cost.toNat -
      ((q.coreAt (q.physical (x.cores.getD i 0))).past + (q.coreAt (q.physical (x.cores.getD i 0))).ran))
    (hmidp : v.lr.midp = true) : (t.coreAt (q.physical (x.cores.getD i 0))).preempt = true ∧ (v.lr.cls = 2 → t.AllAsked v.id) := by
  obtain ⟨hv, hother, hclass⟩ := hvictim
  have hdtime : u.dtime = q.dtime := by rw [hto.same]
  rw [← hto.physical] at hv hlate ⊢
  rw [← hto.launchOf] at hv
  rw [← hto.clk, ← hdtime] at hlate
  obtain ⟨hasked, hgang⟩ := State.pressFor_asks hv hother hclass hlate hmidp
  exact ⟨(hfrom.core _).asked hasked, fun hcls => hfrom.gang _ (hgang hcls)⟩

theorem State.victim_held
    (h : q.dtime.toNat + v.lr.cost.toNat + x.lr.cost.toNat -
      ((q.coreAt (q.physical (x.cores.getD i 0))).past + (q.coreAt (q.physical (x.cores.getD i 0))).ran) ≤ x.due ∨ v.lr.midp = false) :
    (t.coreAt (q.physical (x.cores.getD i 0))).holdFor = some x.id := by
  obtain ⟨hv, hother, hclass⟩ := hvictim
  have hdtime : u.dtime = q.dtime := by rw [hto.same]
  rw [← hto.physical] at hv h ⊢
  rw [← hto.launchOf] at hv
  rw [← hto.clk, ← hdtime] at h
  exact (hfrom.core _).held (State.pressFor_holds hv hother hclass h)

end

/-! ## The order of launches (R146) -/

/-- The model's order of lists of one length is the lexicographic one. -/
theorem listLt_iff_lt {a b : List Nat} (h : a.length = b.length) : listLt a b = true ↔ a < b := by
  induction a generalizing b with
  | nil =>
    have : b = [] := List.length_eq_zero_iff.mp h.symm
    simp [this, listLt]
  | cons x r ih =>
    cases b with
    | nil => cases h
    | cons y t => simp [listLt, List.cons_lt_cons_iff, ih (Nat.succ.inj h)]

theorem Launch.listLt_key_iff (a b : Launch) : listLt a.key b.key = true ↔ a.key < b.key := listLt_iff_lt rfl

/-- The launch that comes first of some. -/
def firstLaunch (w : Launch) (r : List Launch) : Launch := r.foldl (fun a b => if listLt b.key a.key then b else a) w

theorem firstLaunch_spec (w : Launch) (r : List Launch) :
    firstLaunch w r ∈ w :: r ∧ ∀ u ∈ w :: r, (firstLaunch w r).key ≤ u.key := by
  induction r generalizing w with
  | nil => simp [firstLaunch]
  | cons b r ih =>
    obtain ⟨hmem, hle⟩ := ih (if listLt b.key w.key then b else w)
    have hfirst : firstLaunch w (b :: r) = firstLaunch (if listLt b.key w.key then b else w) r := rfl
    rw [hfirst]
    have hstart : (if listLt b.key w.key then b else w) ∈ [w, b] ∧ ∀ u ∈ [w, b], (if listLt b.key w.key then b else w).key ≤ u.key := by
      by_cases h : b.key < w.key
      · simp [(Launch.listLt_key_iff b w).mpr h, le_of_lt h]
      · rw [if_neg (mt (Launch.listLt_key_iff b w).mp h)]
        simp [not_lt.mp h]
    constructor
    · rcases List.mem_cons.mp hmem with h | h
      · rw [h]
        exact List.mem_append_left r hstart.1
      · exact List.mem_append_right [w, b] h
    · intro u hu
      rcases List.mem_append.mp (show u ∈ [w, b] ++ r from hu) with h | h
      · exact (hle _ List.mem_cons_self).trans (hstart.2 u h)
      · exact hle u (List.mem_cons_of_mem _ h)

/-! ## Slices (R194) -/

/-- The launches for which the task in focus, of launch `v`, has used up its slice: those of its class that want its core. -/
def State.sliceRivals (s : State) (v : Launch) : List Launch :=
  s.settle.launches.filter (fun w => w.id ≠ v.id ∧ w.wants (s.logical s.core.id) = true ∧ w.eff = v.eff ∧ v.slice ≤ s.core.ran)

section
variable {s : State} {v : Launch} (hv : s.launchOf s.core = some v)
include hv

theorem State.sliceOut_of_launch : s.sliceOut false = (match s.sliceRivals v with
    | [] => s
    | w :: r =>
      if !s.up || s.core.status == .halted || s.core.preempt then s
      else if v.lr.midp then s.requestFull s.core.id
      else s.onC (fun c => { c with holdFor := some (firstLaunch w r).id })) := by
  have hwant : s.sliceRivals v = s.settle.launches.filter (fun w => w.id != v.id && w.wants (s.logical s.core.id) &&
      (w.eff == v.eff && decide (v.slice ≤ s.core.ran))) :=
    List.filter_congr fun w _ => by simp [Bool.decide_and, bne, Bool.and_assoc, Bool.beq_eq_decide_eq]
  simp only [State.sliceOut, hv, hwant]
  rfl

theorem execSliceExpiry_of_no_rival (h : s.sliceRivals v = []) : execSliceExpiry s = .next s := by
  rw [execSliceExpiry, State.sliceOut_of_launch hv, h]

variable (hrival : s.sliceRivals v ≠ []) (hup : s.up = true) (hrun : s.core.status = .running) (hcalm : s.core.preempt = false)
include hrival hup hrun hcalm

/-- A launch that allows it gives way in full; otherwise the core is held back for the rival that comes first. -/
theorem execSliceExpiry_of_rival : ∃ w ∈ s.sliceRivals v, (∀ u ∈ s.sliceRivals v, listLt u.key w.key = false) ∧
    execSliceExpiry s = .next (if v.lr.midp then s.requestFull s.core.id else { s with core := { s.core with holdFor := some w.id } }) := by
  obtain ⟨w, r, hwr⟩ := List.exists_cons_of_ne_nil hrival
  obtain ⟨hmem, hle⟩ := firstLaunch_spec w r
  refine ⟨firstLaunch w r, hwr ▸ hmem, fun u hu => ?_, ?_⟩
  · rw [← Bool.not_eq_true, Launch.listLt_key_iff]
    exact not_lt.mpr (hle u (hwr ▸ hu))
  · have hready : ¬ (!s.up || s.core.status == .halted || s.core.preempt) = true := by rw [hup, hrun, hcalm]; decide
    rw [execSliceExpiry, State.sliceOut_of_launch hv, hwr]
    exact congrArg Host.Outcome.next (if_neg hready)

end

/-! ## HOLD and DROP (R376) -/

section
variable {s : State} {d : Fin 8} {v : Word} {l : Launch}

/-- The slot and the number that a write to offset 0x180 names. -/
def State.named (s : State) (d : Fin 8) (v : Word) : State :=
  { s with disp := s.disp.set d.val { s.disp[d.val] with holdSlot := v.extractLsb' 32 8, holdLseq := v.extractLsb' 0 32 } }

theorem State.named_eq (s : State) (d : Fin 8) (v : Word) :
    s.onDisp d (fun x => { x with holdSlot := BitVec.ofNat 8 (wbits v 39 32), holdLseq := BitVec.ofNat 32 (wbits v 31 0) }) = s.named d v := by
  have hslot : BitVec.ofNat 8 (wbits v 39 32) = v.extractLsb' 32 8 := by
    apply BitVec.eq_of_toNat_eq
    simp [wbits, Nat.shiftRight_eq_div_pow]
  have hlseq : BitVec.ofNat 32 (wbits v 31 0) = v.extractLsb' 0 32 := by
    apply BitVec.eq_of_toNat_eq
    simp [wbits]
  rw [hslot, hlseq]
  rfl

/-- HOLD holds a slot of a launch that runs, is not CONCURRENT, allows mid-node pre-emption and has no second wave. -/
def Launch.holdable (l : Launch) (slot : Nat) : Bool :=
  l.status == .running && l.lr.cls != 2 && l.lr.midp && decide (l.lr.count ≤ l.lr.npl) && decide (slot < l.slots.length)

theorem Launch.holdable_iff {slot : Nat} : l.holdable slot = true ↔
    l.status = .running ∧ l.lr.cls ≠ 2 ∧ l.lr.midp = true ∧ l.lr.count ≤ l.lr.npl ∧ slot < l.slots.length := by
  simp [Launch.holdable, and_assoc]

/-- The launch with a slot held. -/
def Launch.holding (l : Launch) (slot : Nat) : Launch := { l with holds := slot :: l.holds.filter (fun i => i ≠ slot) }

theorem execSlotHold_of_held (h : s.held d.val = true) : execSlotHold d v s = .next s := by
  simp only [execSlotHold, h, if_true]

theorem execSlotHold_of_unnamed (hfree : s.held d.val = false)
    (h : ∀ l, s.launchBySeq d.val (wbits v 31 0) = some l → l.holdable (wbits v 39 32) = false) :
    execSlotHold d v s = .next (s.named d v) := by
  have hfind : (s.named d v).launchBySeq d.val (wbits v 31 0) = s.launchBySeq d.val (wbits v 31 0) := rfl
  simp only [execSlotHold, hfree, State.named_eq, hfind, Bool.false_eq_true, if_false]
  split
  · rfl
  · rename_i l hl
    have hno := h l hl
    unfold Launch.holdable at hno
    rw [if_neg (ne_true_of_eq_false hno)]

/-- The slot joins those held, and where its task runs it is asked to give way. -/
theorem execSlotHold_of_named (hfree : s.held d.val = false) (hl : s.launchBySeq d.val (wbits v 31 0) = some l)
    (h : l.holdable (wbits v 39 32) = true) : let u := (s.named d v).onLaunch l.id (fun y => y.holding (wbits v 39 32))
    (∃ k, l.slots[wbits v 39 32]? = some (.running k) ∧
      execSlotHold d v s = .next (u.requestFull (s.physical (l.cores.getD (wbits v 39 32) 0)))) ∨
    ((∀ k, l.slots[wbits v 39 32]? ≠ some (.running k)) ∧ execSlotHold d v s = .next u) := by
  have hfind : (s.named d v).launchBySeq d.val (wbits v 31 0) = some l := hl
  unfold Launch.holdable at h
  simp only [execSlotHold, hfree, State.named_eq, hfind, Bool.false_eq_true, if_false, h, if_true]
  split
  · exact .inl ⟨_, ‹_›, rfl⟩
  · rename_i hrun
    exact .inr ⟨hrun, rfl⟩

theorem execSlotDrop_of_free (h : s.held d.val = false) : execSlotDrop d s = .next s := by
  simp only [execSlotDrop, h, Bool.not_false, if_true]

/-- A slot that is held belongs to a launch. -/
theorem State.launch_of_held (h : s.held d.val = true) : ∃ l, s.launchBySeq d.val (s.disp[d.val]).holdLseq.toNat = some l := by
  have hget : s.disp.toList[d.val]? = some s.disp[d.val] := by simp
  unfold State.held at h
  rw [hget] at h
  dsimp only at h
  split at h
  · exact ⟨_, ‹_›⟩
  · cases h

theorem execSlotDrop_of_held (h : s.held d.val = true) (hl : s.launchBySeq d.val (s.disp[d.val]).holdLseq.toNat = some l) :
    execSlotDrop d s = .next (s.onLaunch l.id (fun y => { y with
      slots := y.slots.set (s.disp[d.val]).holdSlot.toNat .gone,
      dropped := true,
      holds := y.holds.filter (fun i => i ≠ (s.disp[d.val]).holdSlot.toNat) })) := by
  simp only [execSlotDrop, h, hl, Bool.not_true, Bool.false_eq_true, if_false]

end

/-- The launch of a core's task, after a change of the launches of its number. -/
theorem State.launchOf_onLaunch {s : State} {c : Core} {v : Launch} {f : Launch → Launch} (h : s.launchOf c = some v) (hf : ∀ y, (f y).id = y.id) :
    (s.onLaunch v.id f).launchOf c = some (f v) := by
  unfold State.launchOf at h ⊢
  obtain ⟨t, ht, hv⟩ := Option.bind_eq_some_iff.mp h
  rw [ht, Option.bind_some, ← State.launch_id hv]
  exact State.launch_onLaunch (by rw [State.launch_id hv]; exact hv) hf

theorem State.requestFull_cores (s : State) (c : Nat) :
    s.requestFull c = { s with core := (s.requestFull c).core, others := (s.requestFull c).others } := by
  unfold State.requestFull
  split <;> rfl

/-- A launch that its number names alone is found by it. -/
theorem State.launch_of_unique {s : State} {l : Launch} (hl : l ∈ s.launches) (huniq : ∀ y ∈ s.launches, y.id = l.id → y = l) :
    s.launch l.id = some l := by
  unfold State.launch
  cases h : s.launches.find? (fun y => y.id == l.id) with
  | none => exact absurd (by simp) (List.find?_eq_none.mp h l hl)
  | some y => exact congrArg some (huniq y (List.mem_of_find?_eq_some h) (by simpa using List.find?_some h))

/-- The task in focus whose own core is asked for gives way. -/
theorem State.requestFull_core {s : State} {v : Launch} (h : s.launchOf s.core = some v) : (s.requestFull s.core.id).core.preempt = true := by
  have hfocus : s.launchOf (s.coreAt s.core.id) = some v := by rw [State.coreAt_focused]; exact h
  have hcore : (s.requestFull s.core.id).coreAt s.core.id = (s.requestFull s.core.id).core :=
    if_pos (by rw [State.requestFull_eq hfocus]; exact Core.askedFor_id _ _ _)
  rw [← hcore]
  exact (State.requestFull_asks hfocus).1

/-- Alone on its core, a task of a launch that is not CONCURRENT is the only one asked. -/
theorem State.requestFull_alone {s : State} {v : Launch} (h : s.launchOf s.core = some v) (hcls : v.lr.cls ≠ 2)
    (hother : ∀ c ∈ s.others, c.id ≠ s.core.id) :
    s.requestFull s.core.id = { s with core := { s.core with preempt := true } } := by
  have hfocus : s.launchOf (s.coreAt s.core.id) = some v := by rw [State.coreAt_focused]; exact h
  have hself : s.core.askedFor s.core.id v = { s.core with preempt := true } := if_pos ⟨.inl rfl, State.task_of_launchOf h⟩
  have hrest : s.others.map (fun k => k.askedFor s.core.id v) = s.others := by
    conv_rhs => rw [← List.map_id s.others]
    refine List.map_congr_left fun k hk => if_neg ?_
    rintro ⟨hid | hgang, -⟩
    · exact hother k hk hid
    · exact hcls hgang
  rw [State.requestFull_eq hfocus, hself, hrest]

/-- Settles O51: the moves of a class by the window, the presses of LAUNCH_URGENT by `State.PressedTo`, the slices by the rivals and
their order, HOLD and DROP by the launch that they name. -/
theorem launchesArePressed : Obligations.LaunchesArePressed := by
  unfold Obligations.LaunchesArePressed
  refine ⟨?waiting, fun s => ⟨?idle, fun v hv => ?slice⟩, fun s d v slot hslot => ?hold, fun s d => ⟨execSlotDrop_of_free, fun hheld => ?drop⟩⟩
  case waiting =>
    rintro s l x q rfl hx hboot hreset hwaits
    have hup := State.up_of hboot hreset
    have hid := State.launch_id hx
    refine ⟨?_, ?_⟩
    · rintro w rfl
      exact ⟨execLaunchPromote_of_due hx hup hwaits, execLaunchPromote_of_not_due hx⟩
    · rintro dl lead rfl rfl
      subst hid
      refine ⟨execLaunchUrgent_of_calm hx hup hwaits, fun hdue hsome => ?_⟩
      obtain ⟨t, hnext, hpress, hvictims⟩ := execLaunchUrgent_of_due hx hup hwaits hdue hsome
      have hlaunch : t.launch x.id = some x := by rw [hpress.same]; exact hx
      refine ⟨_, _, hnext, by rw [hpress.same]; rfl, State.launch_onLaunch hlaunch (fun _ => rfl), rfl, ?_⟩
      rintro i v hneeds hvictim c rfl
      obtain ⟨u, hto, hfrom⟩ := hvictims i v hneeds hvictim
      rw [← State.settle_dtime s]
      have hasked := State.victim_asked hvictim hto hfrom
      have hheld := State.victim_held hvictim hto hfrom
      exact ⟨hasked, hheld⟩
  case idle =>
    intro hnone
    rw [show exec .sliceExpiry s = .next (s.sliceOut false) from rfl, State.sliceOut, hnone]
  case slice =>
    refine ⟨execSliceExpiry_of_no_rival hv, fun hrival hboot hreset hrun hcalm hmidp => ?_,
      fun hrival hboot hreset hrun hcalm hmidp hcls hother htask => ?_⟩
    · obtain ⟨w, hw, hfirst, hnext⟩ := execSliceExpiry_of_rival hv hrival (State.up_of hboot hreset) hrun hcalm
      rw [hmidp] at hnext
      exact ⟨w, hw, hfirst, hnext⟩
    · obtain ⟨w, -, -, hnext⟩ := execSliceExpiry_of_rival hv hrival (State.up_of hboot hreset) hrun hcalm
      rw [hmidp, if_pos rfl, State.requestFull_alone hv hcls hother] at hnext
      exact hnext
  case hold =>
    subst hslot
    refine ⟨execSlotHold_of_held, fun hfree => ?_⟩
    by_cases hnamed : ∃ l, s.launchBySeq d.val (wbits v 31 0) = some l ∧ l.holdable (wbits v 39 32) = true
    · obtain ⟨l, hl, hyes⟩ := hnamed
      obtain ⟨hrun, hcls, hmidp, hcount, hslot⟩ := Launch.holdable_iff.mp hyes
      have hnot : ∀ t : State, (∀ m, s.launchBySeq d.val (wbits v 31 0) = some m → m.status ≠ .running ∨ m.lr.cls = 2 ∨ m.lr.midp = false ∨
          m.lr.npl < m.lr.count ∨ m.slots.length ≤ wbits v 39 32) → t = { s with disp := t.disp } := by
        intro t hno
        rcases hno l hl with h | h | h | h | h
        · exact absurd hrun h
        · exact absurd h hcls
        · rw [hmidp] at h; cases h
        · omega
        · omega
      have hyield : ∀ k, l.slots[wbits v 39 32]? = some (.running k) → s.core.id = s.physical (l.cores.getD (wbits v 39 32) 0) →
          s.launchOf s.core = some l → (((s.named d v).onLaunch l.id (fun y => y.holding (wbits v 39 32))).requestFull
            (s.physical (l.cores.getD (wbits v 39 32) 0))).core.preempt = true := by
        intro k _ hid hlaunch
        rw [← hid]
        exact State.requestFull_core (State.launchOf_onLaunch (s := s.named d v) hlaunch fun _ => rfl)
      have hholds : ∀ t : State, t.launches = ((s.named d v).onLaunch l.id (fun y => y.holding (wbits v 39 32))).launches →
          (∀ y ∈ s.launches, y.id = l.id → y = l) → t.launch l.id = some (l.holding (wbits v 39 32)) := by
        intro t ht huniq
        unfold State.launch
        rw [ht]
        exact State.launch_onLaunch (s := s.named d v) (State.launch_of_unique (List.mem_of_find?_eq_some hl) huniq) fun _ => rfl
      have hin : wbits v 39 32 ∈ (l.holding (wbits v 39 32)).holds := List.mem_cons_self
      rcases execSlotHold_of_named hfree hl hyes with ⟨k, hk, hnext⟩ | ⟨hidle, hnext⟩
      · refine ⟨_, hnext, by rw [State.requestFull_cores]; rfl, by rw [State.requestFull_cores]; rfl, hnot _, ?_⟩
        intro m hm _ _ _ _ _ huniq
        obtain rfl := Option.some.inj (hl.symm.trans hm)
        exact ⟨_, hholds _ (by rw [State.requestFull_cores]) huniq, hin, rfl, fun k hk hid _ hlaunch => hyield k hk hid hlaunch⟩
      · refine ⟨_, hnext, rfl, rfl, hnot _, ?_⟩
        intro m hm _ _ _ _ _ huniq
        obtain rfl := Option.some.inj (hl.symm.trans hm)
        exact ⟨_, hholds _ rfl huniq, hin, rfl, fun k hk => absurd hk (hidle k)⟩
    · refine ⟨_, execSlotHold_of_unnamed hfree fun l hl => ?_, rfl, rfl, fun _ => rfl, fun l hl hrun hcls hmidp hcount hslot _ => ?_⟩
      · exact Bool.eq_false_iff.mpr fun hyes => hnamed ⟨l, hl, hyes⟩
      · exact absurd ⟨l, hl, Launch.holdable_iff.mpr ⟨hrun, hcls, hmidp, hcount, hslot⟩⟩ hnamed
  case drop =>
    obtain ⟨l, hl⟩ := State.launch_of_held hheld
    exact ⟨l, hl, execSlotDrop_of_held hheld hl⟩

end Sys2Proof.Machine

namespace Sys2Proof.Machine

/-! ## Bytes and pieces of lists -/

theorem leBytes_leVal (bs : List Byte) : leBytes bs.length (leVal bs) = bs := by
  induction bs with
  | nil => rfl
  | cons b r ih =>
    have hb := b.isLt
    have hdiv : (b.toNat + 256 * leVal r) / 256 = leVal r := by omega
    have hmod : BitVec.ofNat 8 (b.toNat + 256 * leVal r) = b := by
      apply BitVec.eq_of_toNat_eq
      rw [BitVec.toNat_ofNat]
      omega
    rw [List.length_cons, leVal, leBytes, hdiv, hmod, ih]

/-- A list of pieces of one length, put together, is cut into the pieces again. -/
theorem take_chunks_flatMap {α β : Type} {n m : Nat} (f : α → List β) (xs : List α) (rest : List β) (hlen : ∀ x ∈ xs, (f x).length = n)
    (hm : xs.length ≤ m) : (chunks n m (xs.flatMap f ++ rest)).take xs.length = xs.map f := by
  induction xs generalizing m with
  | nil => rfl
  | cons x r ih =>
    obtain ⟨k, rfl⟩ : ∃ k, m = k + 1 := ⟨m - 1, by simp only [List.length_cons] at hm; omega⟩
    have hx := hlen x List.mem_cons_self
    rw [chunks, List.flatMap_cons, List.append_assoc, List.take_left' hx, List.drop_left' hx, List.length_cons, List.take_succ_cons, List.map_cons,
      ih (fun y hy => hlen y (List.mem_cons_of_mem _ hy)) (Nat.le_of_succ_le_succ hm)]

/-- A list of `n` times `m` elements is cut into pieces of `n`. -/
theorem length_of_mem_chunks {α : Type} {n m : Nat} {xs : List α} (hlen : xs.length = n * m) : ∀ c ∈ chunks n m xs, c.length = n := by
  induction m generalizing xs with
  | zero => intro c hc; cases hc
  | succ k ih =>
    intro c hc
    rcases List.mem_cons.mp hc with rfl | hc
    · rw [List.length_take, hlen, Nat.mul_succ]
      omega
    · exact ih (by rw [List.length_drop, hlen, Nat.mul_succ, Nat.add_sub_cancel]) c hc

/-! ## A flit reads back as it was built (R368) -/

/-- The word of fields at the start of a flit. -/
def flitWord (kind src dst tag seq nsec : Nat) : Nat := kind * 2 ^ 61 + src * 2 ^ 50 + dst * 2 ^ 39 + nsec * 2 ^ 36 + tag * 2 ^ 24 + seq

/-- The check value that a flit carries for a sector; of a poisoned one it is inverted (R196). -/
def sectorCheck (x : List Byte × Bool) : Nat := if x.2 then (~~~(crc16 x.1)).toNat else (crc16 x.1).toNat

theorem sectorCheck_lt (x : List Byte × Bool) : sectorCheck x < 256 ^ 2 := by
  unfold sectorCheck
  split <;> exact BitVec.isLt _

/-- Bytes 0 to 27 of a flit. -/
def flitHead (kind src dst tag seq addr : Nat) (secs : List (List Byte × Bool)) (nsec : Nat) : List Byte :=
  le8 (flitWord kind src dst tag seq nsec) ++ leBytes 5 addr ++ [0] ++ secs.flatMap (fun x => leBytes 2 (sectorCheck x)) ++
    List.replicate (14 - 2 * secs.length) 0

/-- Bytes 32 to 255 of a flit. -/
def flitBody (secs : List (List Byte × Bool)) : List Byte := secs.flatMap Prod.fst ++ List.replicate (224 - 32 * secs.length) 0

section
variable {kind src dst tag seq addr nsec : Nat} {secs : List (List Byte × Bool)}

theorem length_flatMap_of_length {α β : Type} {n : Nat} {f : α → List β} {xs : List α} (h : ∀ x ∈ xs, (f x).length = n) :
    (xs.flatMap f).length = n * xs.length := by
  rw [List.length_flatMap, List.map_congr_left h, List.map_const', List.sum_replicate, smul_eq_mul, Nat.mul_comm]

variable (hcount : secs.length ≤ 7)
include hcount

theorem length_flitHead : (flitHead kind src dst tag seq addr secs nsec).length = 28 := by
  have h := length_flatMap_of_length (f := fun x => leBytes 2 (sectorCheck x)) (xs := secs) (fun _ _ => length_leBytes 2 _)
  simp only [flitHead, le8, List.length_append, length_leBytes, List.length_singleton, List.length_replicate, h]
  omega

variable (hlen : ∀ x ∈ secs, x.1.length = 32)
include hlen

theorem length_flitBody : (flitBody secs).length = 224 := by
  have h := length_flatMap_of_length (f := Prod.fst) hlen
  simp only [flitBody, List.length_append, List.length_replicate, h]
  omega

/-- The 256 bytes of a flit. -/
theorem leBytes_buildFlit : leBytes 256 (buildFlit kind src dst tag seq addr secs nsec).toNat =
    flitHead kind src dst tag seq addr secs nsec ++
      leBytes 4 (crc32 (flitHead kind src dst tag seq addr secs nsec ++ flitBody secs)).toNat ++ flitBody secs := by
  have hbuild : buildFlit kind src dst tag seq addr secs nsec = BitVec.ofNat 2048 (leVal (flitHead kind src dst tag seq addr secs nsec ++
      leBytes 4 (crc32 (flitHead kind src dst tag seq addr secs nsec ++ flitBody secs)).toNat ++ flitBody secs)) := rfl
  generalize hbytes : flitHead kind src dst tag seq addr secs nsec ++
      leBytes 4 (crc32 (flitHead kind src dst tag seq addr secs nsec ++ flitBody secs)).toNat ++ flitBody secs = bytes at hbuild
  have hsize : bytes.length = 256 := by
    rw [← hbytes, List.length_append, List.length_append, length_flitHead hcount, length_leBytes, length_flitBody hcount hlen]
  have hlt := leVal_lt bytes
  rw [hsize, show (256 : Nat) = 2 ^ 8 from rfl, ← Nat.pow_mul, show 8 * 2 ^ 8 = 2048 from rfl] at hlt
  rw [hbuild, BitVec.toNat_ofNat, Nat.mod_eq_of_lt hlt]
  conv_lhs => rw [← hsize]
  exact leBytes_leVal bytes

/-- Bytes 0 to 13 hold the fields, and the check values follow. -/
theorem leBytes_buildFlit_front : ∃ rest, leBytes 256 (buildFlit kind src dst tag seq addr secs nsec).toNat =
    leBytes 8 (flitWord kind src dst tag seq nsec) ++ (leBytes 5 addr ++ (([0] : List Byte) ++
      (secs.flatMap (fun x => leBytes 2 (sectorCheck x)) ++ rest))) := by
  refine ⟨List.replicate (14 - 2 * secs.length) 0 ++
    (leBytes 4 (crc32 (flitHead kind src dst tag seq addr secs nsec ++ flitBody secs)).toNat ++ flitBody secs),
    (leBytes_buildFlit hcount hlen).trans ?_⟩
  conv_lhs => rw [flitHead, le8]
  simp only [List.append_assoc, flitHead, le8]

theorem drop_leBytes_buildFlit : (leBytes 256 (buildFlit kind src dst tag seq addr secs nsec).toNat).drop 32 = flitBody secs := by
  rw [leBytes_buildFlit hcount hlen]
  exact List.drop_left' (by rw [List.length_append, length_flitHead hcount, length_leBytes])

theorem parseFlit_buildFlit_crcOk : (parseFlit (buildFlit kind src dst tag seq addr secs nsec)).crcOk = true := by
  have hhead := length_flitHead (kind := kind) (src := src) (dst := dst) (tag := tag) (seq := seq) (addr := addr) (nsec := nsec) hcount
  have hcheck : ∀ (c : BitVec 32), leVal (leBytes 4 c.toNat) = c.toNat := fun c => by
    rw [leVal_leBytes]; exact Nat.mod_eq_of_lt c.isLt
  unfold parseFlit
  rw [leBytes_buildFlit hcount hlen]
  dsimp only
  rw [beq_iff_eq, List.append_assoc, List.take_left' hhead, List.drop_left' hhead, List.take_left' (length_leBytes 4 _), hcheck,
    ← List.append_assoc, List.drop_left' (by rw [List.length_append, hhead, length_leBytes])]

/-- The fields of the first word. -/
theorem parseFlit_buildFlit_word (hkind : kind < 8) (hsrc : src < 2 ^ 11) (hdst : dst < 2 ^ 11) (hnsec : nsec < 8) (htag : tag < 2 ^ 12)
    (hseq : seq < 2 ^ 24) : let g := parseFlit (buildFlit kind src dst tag seq addr secs nsec)
    g.kind = kind ∧ g.src = src ∧ g.dst = dst ∧ g.nsec = nsec ∧ g.tag = tag ∧ g.seq = seq := by
  have hword : (BitVec.ofNat 64 (leVal ((leBytes 256 (buildFlit kind src dst tag seq addr secs nsec).toNat).take 8))).toNat =
      flitWord kind src dst tag seq nsec := by
    have hlt : flitWord kind src dst tag seq nsec < 2 ^ 64 := by unfold flitWord; omega
    obtain ⟨rest, hbytes⟩ := leBytes_buildFlit_front (kind := kind) (src := src) (dst := dst) (tag := tag) (seq := seq) (addr := addr) (nsec := nsec) hcount hlen
    rw [hbytes, List.take_left' (length_leBytes 8 _), leVal_leBytes, BitVec.toNat_ofNat, show (256 : Nat) ^ 8 = 2 ^ 64 from rfl, Nat.mod_mod,
      Nat.mod_eq_of_lt hlt]
  dsimp only [parseFlit, wbits]
  rw [hword]
  unfold flitWord
  refine ⟨?_, ?_, ?_, ?_, ?_, ?_⟩ <;> omega

theorem parseFlit_buildFlit_addr : (parseFlit (buildFlit kind src dst tag seq addr secs nsec)).addr = addr % 2 ^ 40 := by
  obtain ⟨rest, hbytes⟩ := leBytes_buildFlit_front (kind := kind) (src := src) (dst := dst) (tag := tag) (seq := seq) (addr := addr) (nsec := nsec) hcount hlen
  dsimp only [parseFlit]
  rw [hbytes, List.drop_left' (length_leBytes 8 _), List.take_left' (length_leBytes 5 _), leVal_leBytes, show (256 : Nat) ^ 5 = 2 ^ 40 from rfl]

/-- The sectors, where NSEC counts them. -/
theorem parseFlit_buildFlit_secs (hnsec : (parseFlit (buildFlit kind src dst tag seq addr secs nsec)).nsec = secs.length) :
    (parseFlit (buildFlit kind src dst tag seq addr secs nsec)).secs = secs.map Prod.fst := by
  have hsecs : (parseFlit (buildFlit kind src dst tag seq addr secs nsec)).secs =
      (chunks 32 7 ((leBytes 256 (buildFlit kind src dst tag seq addr secs nsec).toNat).drop 32)).take
        (parseFlit (buildFlit kind src dst tag seq addr secs nsec)).nsec := rfl
  rw [hsecs, hnsec, drop_leBytes_buildFlit hcount hlen]
  exact take_chunks_flatMap Prod.fst secs _ hlen hcount

/-- The check value of sector `i`. -/
theorem parseFlit_buildFlit_scrc {i : Nat} (hi : i < secs.length) :
    nth (parseFlit (buildFlit kind src dst tag seq addr secs nsec)).scrc i = sectorCheck secs[i] := by
  obtain ⟨rest, hbytes⟩ := leBytes_buildFlit_front (kind := kind) (src := src) (dst := dst) (tag := tag) (seq := seq) (addr := addr) (nsec := nsec) hcount hlen
  have hdrop : (leBytes 256 (buildFlit kind src dst tag seq addr secs nsec).toNat).drop 14 =
      secs.flatMap (fun x => leBytes 2 (sectorCheck x)) ++ rest := by
    rw [hbytes, ← List.append_assoc, ← List.append_assoc]
    exact List.drop_left' (by simp only [List.length_append, length_leBytes, List.length_singleton])
  have hpieces := take_chunks_flatMap (n := 2) (m := 7) (fun x => leBytes 2 (sectorCheck x)) secs rest (fun _ _ => length_leBytes 2 _) hcount
  have hpiece : (chunks 2 7 (secs.flatMap (fun x => leBytes 2 (sectorCheck x)) ++ rest))[i]? = some (leBytes 2 (sectorCheck secs[i])) := by
    rw [← List.getElem?_take_of_lt hi, hpieces, List.getElem?_map, List.getElem?_eq_getElem hi, Option.map_some]
  have hscrc : (parseFlit (buildFlit kind src dst tag seq addr secs nsec)).scrc =
      (chunks 2 7 ((leBytes 256 (buildFlit kind src dst tag seq addr secs nsec).toNat).drop 14)).map leVal := rfl
  rw [hscrc, hdrop, nth, List.getD_eq_getElem?_getD, List.getElem?_map, hpiece, Option.map_some, Option.getD_some, leVal_leBytes,
    Nat.mod_eq_of_lt (sectorCheck_lt _)]

end

end Sys2Proof.Machine

namespace Sys2Proof.Machine

/-! ## What a write to memory leaves alone (R107, R143) -/

/-- The state `t` is `s` but for mailboxes, what they count and send, and scheduled steps. -/
def State.SameButMail (s t : State) : Prop :=
  t = { s with mboxes := t.mboxes, agenda := t.agenda, disp := t.disp, dispQueues := t.dispQueues }

namespace State.SameButMail
variable {s t u : State}

theorem refl (s : State) : s.SameButMail s := rfl

theorem trans (h : s.SameButMail t) (h' : t.SameButMail u) : s.SameButMail u := by
  unfold State.SameButMail at *
  rw [h', h]

end State.SameButMail

theorem State.lostRead_eq (s : State) (d asid : Nat) (va : Word) (n : Nat) :
    s.lostRead d asid va n = { s with dispQueues := (s.lostRead d asid va n).dispQueues } := by
  unfold State.lostRead
  dsimp only
  split <;> rfl

theorem State.readMail_sameButMail (s : State) (m : Mailbox) (q : Mail) (put : List Mail → Mailbox → Mailbox) :
    s.SameButMail (s.readMail m q put) := by
  unfold State.SameButMail State.readMail
  dsimp only
  split
  · rw [State.lostRead_eq]
    rfl
  · split <;> rfl

theorem State.fire_sameButMail (s : State) (pa : Nat) (w : Option Nat) : s.SameButMail (s.fire pa w) := by
  unfold State.fire
  split
  · exact .refl s
  · dsimp only
    split
    · rfl
    · split
      · exact State.readMail_sameButMail _ _ _ _
      · rfl

theorem State.fireIn_sameButMail (s : State) (pa n : Nat) (w : Option Nat) : s.SameButMail (s.fireIn pa n w) := by
  unfold State.fireIn
  generalize s.mboxes.filter _ = ms
  induction ms generalizing s with
  | nil => exact .refl s
  | cons m r ih => exact (s.fire_sameButMail m.pa w).trans (ih _)

/-- With no mailbox nothing fires. -/
theorem State.fireIn_of_no_mailbox {s : State} (h : s.mboxes = []) (pa n : Nat) (w : Option Nat) : s.fireIn pa n w = s := by
  rw [State.fireIn, h]
  rfl

/-- The state `t` is `s` after writes to memory of this package: but for memory and its poison, copies of lines and monitors of cores, and
what mailboxes fire. -/
structure State.Wrote (s t : State) : Prop where
  same : t = { s with core := t.core, others := t.others, mem := t.mem, poison := t.poison,
                      mboxes := t.mboxes, agenda := t.agenda, disp := t.disp, dispQueues := t.dispQueues }
  core : s.core.SameButCopies t.core
  quiet : s.mboxes = [] → t.mboxes = [] ∧ t.disp = s.disp

namespace State.Wrote
variable {s t u : State}

theorem refl (s : State) : s.Wrote s := ⟨rfl, .refl _, fun h => ⟨h, rfl⟩⟩

theorem trans (h : s.Wrote t) (h' : t.Wrote u) : s.Wrote u := by
  refine ⟨by rw [h'.same, h.same], ?_, fun hs => ?_⟩
  · have h1 := h.core
    have h2 := h'.core
    unfold Core.SameButCopies at *
    rw [h2, h1]
  · obtain ⟨ht, hdisp⟩ := h.quiet hs
    obtain ⟨hu, hdisp'⟩ := h'.quiet ht
    exact ⟨hu, hdisp'.trans hdisp⟩

variable (h : s.Wrote t)
include h

theorem region (pa : Nat) : t.region pa = s.region pa := by rw [h.same]; rfl
theorem noRouteAt (d pa : Nat) : t.noRouteAt d pa = s.noRouteAt d pa := by rw [h.same]; rfl
theorem crownLost (pa : Nat) : t.crownLost pa = s.crownLost pa := by rw [h.same]; rfl

end State.Wrote

/-- Poison and the records of dies are no memory. -/
theorem State.Wrote.poisoned (s : State) (x : List Nat) (q : Vector QueuePair 8) : s.Wrote { s with poison := x, dispQueues := q } :=
  ⟨rfl, .refl _, fun h => ⟨h, rfl⟩⟩

section
variable {s : State} {pa d k : Nat}

theorem State.writePhys_nil (s : State) (w : Nat) (pa : Nat) : s.writePhys w none pa [] = s := by
  unfold State.writePhys
  rw [if_pos rfl]

/-- A write to DRAM, outside Troy mode, before the mailboxes on it fire. -/
theorem State.writePhys_dram (hregion : s.region pa = .dram d k) (w : Nat) {bs : List Byte} (hbs : bs ≠ []) :
    ∃ (c : Core) (os : List Core) (owner : Option Nat), s.writePhys w none pa bs = ({ s with
      mem := s.mem.put pa bs,
      poison := if bs.length = 32 then s.poison.filter (fun k => k ≠ pa / 32) else s.poison,
      core := c, others := os } : State).fireIn pa bs.length owner := by
  unfold State.writePhys
  simp only [hbs, if_false, hregion]
  split
  · exact ⟨_, _, _, rfl⟩
  · exact ⟨_, _, _, rfl⟩

theorem State.writePhys_wrote (hregion : s.region pa = .dram d k) (w : Nat) (bs : List Byte) : s.Wrote (s.writePhys w none pa bs) := by
  by_cases hbs : bs = []
  · rw [hbs, State.writePhys_nil]
    exact .refl s
  · have hcore := State.writePhys_sameButCopies s w none pa bs
    obtain ⟨c, os, owner, hwrite⟩ := State.writePhys_dram hregion w hbs
    rw [hwrite] at hcore ⊢
    refine ⟨?_, hcore, fun hnone => ?_⟩
    · rw [State.fireIn_sameButMail]
    · rw [State.fireIn_of_no_mailbox (s := { s with mem := _, poison := _, core := c, others := os }) hnone]
      exact ⟨hnone, rfl⟩

theorem State.writePhys_poison (hregion : s.region pa = .dram d k) (w : Nat) {bs : List Byte} (hbs : bs ≠ []) :
    (s.writePhys w none pa bs).poison = if bs.length = 32 then s.poison.filter (fun k => k ≠ pa / 32) else s.poison := by
  obtain ⟨c, os, owner, hwrite⟩ := State.writePhys_dram hregion w hbs
  rw [hwrite, State.fireIn_sameButMail]

end

/-! ## The sectors of a flit (R368) -/

section
variable {s : State} {p : Fin 16} {x : Flit}

theorem State.flitChecks_eq (s : State) (p : Fin 16) (x : Flit) : s.flitChecks p x = { s with dispQueues := (s.flitChecks p x).dispQueues } := by
  unfold State.flitChecks
  generalize List.range x.secs.length = is
  induction is generalizing s with
  | nil => rfl
  | cons i r ih =>
    rw [List.foldl_cons, ih]
    split <;> rfl

/-- A flit whose sectors all pass their checks sends no record. -/
theorem State.flitChecks_of_ok (h : ∀ i < x.secs.length, x.secOk i = true) : s.flitChecks p x = s := by
  unfold State.flitChecks
  have hall : ∀ i ∈ List.range x.secs.length, x.secOk i = true := fun i hi => h i (List.mem_range.mp hi)
  generalize List.range x.secs.length = is at hall
  induction is with
  | nil => rfl
  | cons i r ih =>
    rw [List.foldl_cons, if_pos (hall i List.mem_cons_self)]
    exact ih fun j hj => hall j (List.mem_cons_of_mem _ hj)

/-- A die writes to memory that it reaches. -/
theorem State.dieWrite_of_route {d pa : Nat} (hroute : s.noRouteAt d pa = false) (bs : List Byte) :
    s.dieWrite d pa bs = s.writePhys (dispNo d s.uid) none pa bs := by
  rw [State.dieWrite, hroute]
  rfl

/-- One sector of a flit goes to memory. -/
def State.putSector (s : State) (p : Fin 16) (x : Flit) (i : Nat) : State :=
  let t := s.dieWrite (p.val / 2) (x.addr + 32 * i) (x.secs.getD i [])
  if x.secOk i then t else { t with poison := (x.addr + 32 * i) / 32 :: t.poison }

/-- The first `n` sectors of a flit. -/
def State.putSectors (s : State) (p : Fin 16) (x : Flit) (n : Nat) : State := (List.range n).foldl (fun s i => s.putSector p x i) s

theorem State.flitSectors_eq (s : State) (p : Fin 16) (x : Flit) : s.flitSectors p x = s.putSectors p x x.secs.length := rfl

theorem State.putSectors_succ (s : State) (p : Fin 16) (x : Flit) (n : Nat) :
    s.putSectors p x (n + 1) = (s.putSectors p x n).putSector p x n := by
  rw [State.putSectors, List.range_succ, List.foldl_append]
  rfl

variable {i d k : Nat} (hregion : s.region (x.addr + 32 * i) = .dram d k) (hroute : s.noRouteAt (p.val / 2) (x.addr + 32 * i) = false)
  (hlen : (x.secs.getD i []).length = 32)
include hregion hroute

theorem State.putSector_wrote : s.Wrote (s.putSector p x i) := by
  have hwrite := State.writePhys_wrote hregion (dispNo (p.val / 2) s.uid) (x.secs.getD i [])
  unfold State.putSector
  rw [State.dieWrite_of_route hroute]
  dsimp only
  split
  · exact hwrite
  · exact hwrite.trans (.poisoned _ _ _)

include hlen

theorem State.putSector_mem (a : Nat) : (s.putSector p x i).mem.get a =
    if x.addr + 32 * i ≤ a ∧ a < x.addr + 32 * i + 32 then (x.secs.getD i []).getD (a - (x.addr + 32 * i)) 0 else s.mem.get a := by
  have hne : x.secs.getD i [] ≠ [] := fun h => by rw [h] at hlen; cases hlen
  have hmem : (s.putSector p x i).mem = s.mem.put (x.addr + 32 * i) (x.secs.getD i []) := by
    have hwrite := State.writePhys_mem s (dispNo (p.val / 2) s.uid) _ d k (x.secs.getD i []) hregion
    unfold State.putSector
    rw [State.dieWrite_of_route hroute]
    dsimp only
    rw [if_neg hne] at hwrite
    split <;> exact hwrite
  rw [hmem, Mem.get_put, hlen]

/-- The sector is poisoned just where it fails its check, and no other sector changes. -/
theorem State.putSector_poison (n : Nat) :
    n ∈ (s.putSector p x i).poison ↔ if n = (x.addr + 32 * i) / 32 then x.secOk i = false else n ∈ s.poison := by
  have hne : x.secs.getD i [] ≠ [] := fun h => by rw [h] at hlen; cases hlen
  have hwrite := State.writePhys_poison hregion (dispNo (p.val / 2) s.uid) hne
  rw [if_pos hlen] at hwrite
  unfold State.putSector
  rw [State.dieWrite_of_route hroute]
  dsimp only
  by_cases hok : x.secOk i = true
  · rw [if_pos hok, hwrite]
    by_cases hn : n = (x.addr + 32 * i) / 32 <;> simp [hn, hok]
  · rw [if_neg hok, hwrite]
    by_cases hn : n = (x.addr + 32 * i) / 32 <;> simp [hn, hok]

end

section
variable {s : State} {p : Fin 16} {x : Flit} (hlen : ∀ b ∈ x.secs, b.length = 32)
  (hhome : ∀ k < x.secs.length, (∃ d o, s.region (x.addr + 32 * k) = .dram d o) ∧ s.noRouteAt (p.val / 2) (x.addr + 32 * k) = false)
include hlen hhome

/-- What the first `n` sectors leave: each its bytes, and poison where it fails its check; nothing else. -/
theorem State.putSectors_spec {n : Nat} (hn : n ≤ x.secs.length) : let t := s.putSectors p x n
    s.Wrote t ∧
    (∀ a, (a < x.addr ∨ x.addr + 32 * n ≤ a) → t.mem.get a = s.mem.get a) ∧
    (∀ k < n, ∀ j < 32, t.mem.get (x.addr + 32 * k + j) = (x.secs.getD k []).getD j 0) ∧
    (∀ k < n, (x.addr + 32 * k) / 32 ∈ t.poison ↔ x.secOk k = false) := by
  induction n with
  | zero => exact ⟨.refl s, fun _ _ => rfl, fun _ h => absurd h (Nat.not_lt_zero _), fun _ h => absurd h (Nat.not_lt_zero _)⟩
  | succ n ih =>
    obtain ⟨hwrote, hframe, hbytes, hpoison⟩ := ih (Nat.le_of_succ_le hn)
    obtain ⟨⟨d, o, hregion⟩, hroute⟩ := hhome n hn
    rw [← hwrote.region] at hregion
    rw [← hwrote.noRouteAt] at hroute
    have hsec : (x.secs.getD n []).length = 32 := by
      rw [List.getD_eq_getElem _ _ hn]
      exact hlen _ (List.getElem_mem hn)
    dsimp only
    rw [State.putSectors_succ]
    refine ⟨hwrote.trans (State.putSector_wrote hregion hroute), fun a ha => ?_, fun k hk j hj => ?_, fun k hk => ?_⟩
    · rw [State.putSector_mem hregion hroute hsec, if_neg (by omega)]
      exact hframe a (by omega)
    · rw [State.putSector_mem hregion hroute hsec]
      by_cases hlast : k = n
      · subst hlast
        rw [if_pos (by omega), Nat.add_sub_cancel_left]
      · rw [if_neg (by omega)]
        exact hbytes k (by omega) j hj
    · rw [State.putSector_poison hregion hroute hsec]
      by_cases hlast : k = n
      · subst hlast
        rw [if_pos rfl]
      · rw [if_neg (by omega)]
        exact hpoison k (by omega)

theorem State.flitSectors_spec : let t := s.flitSectors p x
    s.Wrote t ∧ s.MemSameBut t x.addr (32 * x.secs.length) ∧
    (∀ k < x.secs.length, ∀ j < 32, t.mem.get (x.addr + 32 * k + j) = (x.secs.getD k []).getD j 0) ∧
    (∀ k < x.secs.length, (x.addr + 32 * k) / 32 ∈ t.poison ↔ (crc16 (x.secs.getD k [])).toNat ≠ nth x.scrc k) := by
  obtain ⟨hwrote, hframe, hbytes, hpoison⟩ := State.putSectors_spec hlen hhome (Nat.le_refl _)
  refine ⟨hwrote, hframe, hbytes, fun k hk => (hpoison k hk).trans ?_⟩
  simp [Flit.secOk]

end

end Sys2Proof.Machine

namespace Sys2Proof.Machine

/-! ## Dies and the capability area (R45, R47, R367) -/

section
variable {s : State} {d e k : Nat}

theorem State.die_eq_getElem (h : d < 8) : s.die d = s.dies[d] := by
  rw [State.die, List.getD_eq_getElem _ _ (by simpa using h)]
  rfl

/-- A change of one die, where it is one of the eight. -/
theorem State.die_onDie (f : DieEnum → DieEnum) (he : e < 8) : (s.onDie d f).die e = if e = d then f (s.die e) else s.die e := by
  rw [State.die_eq_getElem he, State.die_eq_getElem he, State.onDie]
  exact Vector.getElem_mapFinIdx _

theorem State.die_of_not_lt (h : ¬ d < 8) : s.die d = DieEnum.init :=
  List.getD_eq_default _ _ (by simpa using h)

/-- A change that leaves DIEOK as it is. -/
theorem State.dieok_onDie {f : DieEnum → DieEnum} (hf : ∀ x, (f x).dieok = x.dieok) (e : Nat) : ((s.onDie d f).die e).dieok = (s.die e).dieok := by
  by_cases he : e < 8
  · rw [State.die_onDie f he]
    split
    · exact hf _
    · rfl
  · rw [State.die_of_not_lt he, State.die_of_not_lt he]

theorem State.capArea_onDie {f : DieEnum → DieEnum} (hf : ∀ x, (f x).dieok = x.dieok) : (s.onDie d f).capArea = s.capArea := by
  unfold State.capArea
  simp only [State.dieok_onDie hf]

theorem State.capArea_dropLink : (s.dropLink d k).capArea = s.capArea := by
  unfold State.dropLink
  rw [State.capArea_onDie (by intro x; rfl), State.capArea_onDie (by intro x; rfl)]

/-- The other end of a cube link is another of the eight dies. -/
theorem cubePeer_lt_ne (d : Fin 8) (k : Nat) (hk : k < 3) : d.val ^^^ 2 ^ k < 8 ∧ d.val ^^^ 2 ^ k ≠ d.val := by
  have hpow : 2 ^ k < 2 ^ 3 := Nat.pow_lt_pow_right (by decide) hk
  refine ⟨Nat.xor_lt_two_pow (n := 3) d.isLt hpow, fun h => ?_⟩
  have hzero : d.val ^^^ (d.val ^^^ 2 ^ k) = 0 := by rw [h, Nat.xor_self]
  rw [Nat.xor_xor_cancel_left] at hzero
  exact absurd hzero (Nat.two_pow_pos k).ne'

theorem getLsbD_linkOff (x : BitVec 3) (hk : k < 3) : (x &&& ~~~(1#3 <<< k)).getLsbD k = false := by
  simp [hk]

/-- A link that drops is down at both ends. -/
theorem State.links_dropLink (d : Fin 8) (hk : k < 3) : ((s.dropLink d.val k).die d.val).links.getLsbD k = false ∧
    ((s.dropLink d.val k).die (d.val ^^^ 2 ^ k)).links.getLsbD k = false := by
  obtain ⟨hlt, hne⟩ := cubePeer_lt_ne d k hk
  unfold State.dropLink
  refine ⟨?_, ?_⟩
  · rw [State.die_onDie _ d.isLt, if_neg hne.symm, State.die_onDie _ d.isLt, if_pos rfl]
    exact getLsbD_linkOff _ hk
  · rw [State.die_onDie _ hlt, if_pos rfl]
    exact getLsbD_linkOff _ hk

end

theorem length_le8 (v : Nat) : (le8 v).length = 8 := length_leBytes 8 v

theorem State.length_capEnum (s : State) : s.capEnum.length = 432 := by
  simp only [State.capEnum, capHead, List.length_append, length_le8, length_leBytes, List.length_flatMap, List.length_map, Vector.length_toList,
    List.map_const', List.length_range, List.sum_replicate, smul_eq_mul]

theorem State.length_capRest (s : State) : s.capRest.length = 216 := by
  simp only [State.capRest, capHead, List.length_append, length_le8, List.length_flatMap, List.map_const', List.sum_replicate, Vector.length_toList,
    smul_eq_mul]

/-- The capability list is written to its area alone. -/
theorem State.writeCaps_eq (s : State) : ∃ m p q, s.writeCaps = { s with mem := m, poison := p, dispQueues := q } ∧
    ∀ a, (a < s.capArea ∨ s.capArea + 648 ≤ a) → m.get a = s.mem.get a := by
  have hlen : (s.capEnum ++ s.capRest).length = 648 := by rw [List.length_append, State.length_capEnum, State.length_capRest]
  unfold State.writeCaps
  dsimp only
  split
  · exact ⟨s.mem, _, _, rfl, fun _ _ => rfl⟩
  · refine ⟨_, _, s.dispQueues, rfl, fun a ha => ?_⟩
    exact Mem.get_put_other _ _ _ _ (by rw [hlen]; exact ha)

/-! ## CUBE_FLIT_RECEIVE (R367) -/

section
variable (s : State) (d : Fin 8) (k : Fin 4)

theorem State.resends_getD : (s.die d.val).resends.toList.getD k.val 0 = (s.die d.val).resends[k.val] := by
  rw [List.getD_eq_getElem _ _ (by simp)]
  rfl

/-- The resends in a row on a link. -/
def State.setResends (v : Nat) : State := s.onDie d.val (fun x => { x with resends := x.resends.set k.val v })

theorem State.die_setResends (v : Nat) :
    (s.setResends d k v).die d.val = { s.die d.val with resends := (s.die d.val).resends.set k.val v } := by
  rw [State.setResends, State.die_onDie _ d.isLt, if_pos rfl]

/-- What the end of a link leaves of the dies. -/
def State.endLink : State := if k.val < 3 then s.dropLink d.val k.val else s.onDie d.val (fun x => { x with crown := false })

theorem State.endLink_eq : s.endLink d k = { s with dies := (s.endLink d k).dies } := by
  unfold State.endLink
  split <;> rfl

theorem State.capArea_endLink : (s.endLink d k).capArea = s.capArea := by
  unfold State.endLink
  split
  · exact State.capArea_dropLink
  · rw [State.capArea_onDie (by intro x; rfl)]

theorem exec_cubeFlitReceive (good : Bool) : exec (.cubeFlitReceive d k good) s = execCubeFlitReceive d k good s := rfl

theorem execCubeFlitReceive_good : execCubeFlitReceive d k true s = .next (s.setResends d k 0) := rfl

theorem execCubeFlitReceive_resend (h : (s.die d.val).resends[k.val] < 16) :
    execCubeFlitReceive d k false s = .next (s.setResends d k ((s.die d.val).resends[k.val] + 1)) := by
  rw [execCubeFlitReceive, State.resends_getD]
  dsimp only
  rw [if_neg Bool.false_ne_true, if_pos h]
  rfl

theorem execCubeFlitReceive_down (h : 16 ≤ (s.die d.val).resends[k.val]) :
    execCubeFlitReceive d k false s = .next ((s.setResends d k 0).endLink d k).writeCaps := by
  rw [execCubeFlitReceive, State.resends_getD]
  dsimp only
  rw [if_neg Bool.false_ne_true, if_neg (Nat.not_lt.mpr h)]
  rfl

end

theorem cubeFlit_spec (s : State) (d : Fin 8) (k : Fin 4) (n : Nat) (hn : n = (s.die d.val).resends[k.val]) :
    (∃ t, exec (.cubeFlitReceive d k true) s = .next t ∧ t = { s with dies := t.dies } ∧ t.die d.val = { s.die d.val with resends := (s.die d.val).resends.set k.val 0 }) ∧
    (n < 16 → ∃ t, exec (.cubeFlitReceive d k false) s = .next t ∧ t = { s with dies := t.dies } ∧
      t.die d.val = { s.die d.val with resends := (s.die d.val).resends.set k.val (n + 1) }) ∧
    (16 ≤ n → ∃ t, exec (.cubeFlitReceive d k false) s = .next t ∧ t = { s with dies := t.dies, mem := t.mem, poison := t.poison, dispQueues := t.dispQueues } ∧ s.MemSameBut t s.capArea 648 ∧
      (k.val < 3 → (t.die d.val).links.getLsbD k.val = false ∧ (t.die (d.val ^^^ 2 ^ k.val)).links.getLsbD k.val = false) ∧
      (k.val = 3 → (t.die d.val).crown = false)) := by
  refine ⟨⟨_, (exec_cubeFlitReceive s d k true).trans (execCubeFlitReceive_good s d k), rfl, s.die_setResends d k 0⟩, fun hfew => ?_, fun hmany => ?_⟩
  · subst hn
    exact ⟨_, (exec_cubeFlitReceive s d k false).trans (execCubeFlitReceive_resend s d k hfew), rfl, s.die_setResends d k _⟩
  · subst hn
    have hcap : ((s.setResends d k 0).endLink d k).capArea = s.capArea := by
      rw [State.capArea_endLink, State.setResends]
      rw [State.capArea_onDie (by intro x; rfl)]
    obtain ⟨m, p, q, hcaps, hmem⟩ := ((s.setResends d k 0).endLink d k).writeCaps_eq
    have hdown := execCubeFlitReceive_down s d k hmany
    rw [hcap] at hmem
    rw [hcaps] at hdown
    refine ⟨_, (exec_cubeFlitReceive s d k false).trans hdown, ?_, fun a ha => ?_, fun hk => ?_, fun hk => ?_⟩
    · rw [State.endLink_eq]
      rfl
    · rw [hmem a ha, State.endLink_eq]
      rfl
    · have hlinks := State.links_dropLink (s := s.setResends d k 0) d hk
      rw [State.endLink, if_pos hk]
      exact hlinks
    · have hcrown : (((s.setResends d k 0).onDie d.val (fun x => { x with crown := false })).die d.val).crown = false := by
        rw [State.die_onDie _ d.isLt, if_pos rfl]
      rw [State.endLink, if_neg (by omega)]
      exact hcrown

end Sys2Proof.Machine

namespace Sys2Proof.Machine

/-! ## Flits that a port accepts (R368) -/

section
variable {s u : State} {p : Fin 16} {f : BitVec 2048} {n : Nat} {x : Flit}

theorem wbits_lt (w : Word) (hi lo : Nat) : wbits w hi lo < 2 ^ (hi + 1 - lo) := Nat.mod_lt _ (Nat.two_pow_pos _)

theorem State.takeFlit_eq : s.takeFlit p f n = (if s.booted = true ∧ (parseFlit f).crcOk = true ∧ (parseFlit f).kind = n ∧
        (parseFlit f).seq = (s.ox.seqIn[p.val]).toNat ∧ (parseFlit f).dst = s.ox.pkg.toNat ∧ wbits (s.ox.ports[p.val]) 2 0 = 1
      then some (parseFlit f, { s with ox := { s.ox with seqIn := s.ox.seqIn.set p.val (s.ox.seqIn[p.val] + 1) } }) else none) := by
  simp only [State.takeFlit, Bool.and_eq_true, beq_iff_eq, and_assoc]

theorem State.eq_of_takeFlit (h : s.takeFlit p f n = some (x, u)) :
    x = parseFlit f ∧ u = { s with ox := { s.ox with seqIn := s.ox.seqIn.set p.val (s.ox.seqIn[p.val] + 1) } } := by
  rw [State.takeFlit_eq] at h
  split at h
  · obtain ⟨rfl, rfl⟩ := Prod.mk.inj (Option.some.inj h)
    exact ⟨rfl, rfl⟩
  · cases h

theorem State.onFlit_of_none (h : s.takeFlit p f n = none) (k : Flit → State → State) : s.onFlit p f n k = .next s := by
  rw [State.onFlit, h]

theorem State.onFlit_of_some (h : s.takeFlit p f n = some (x, u)) (k : Flit → State → State) :
    s.onFlit p f n k = .next (k x (if n = 0 then u else u.flitChecks p x)) := by
  rw [State.onFlit, h]

end

section
variable (f : BitVec 2048)

theorem parseFlit_nsec_lt : (parseFlit f).nsec < 8 := wbits_lt _ 38 36
theorem parseFlit_tag_lt : (parseFlit f).tag < 2 ^ 12 := wbits_lt _ 35 24
theorem parseFlit_src_lt : (parseFlit f).src < 2 ^ 11 := wbits_lt _ 60 50

theorem length_of_mem_parseFlit_secs {b : List Byte} (h : b ∈ (parseFlit f).secs) : b.length = 32 := by
  have hlen : ((leBytes 256 f.toNat).drop 32).length = 32 * 7 := by rw [List.length_drop, length_leBytes]
  exact length_of_mem_chunks hlen b (List.mem_of_mem_take h)

end

/-! ## Records of dies -/

/-- A run that sends records alone. -/
theorem State.foldl_dispQueues {α : Type} {g : State → α → State} (hg : ∀ s x, ∃ q, g s x = { s with dispQueues := q }) (s : State) (xs : List α) :
    ∃ q, xs.foldl g s = { s with dispQueues := q } := by
  induction xs generalizing s with
  | nil => exact ⟨_, rfl⟩
  | cons x r ih =>
    obtain ⟨q, hq⟩ := hg s x
    rw [List.foldl_cons, hq]
    exact ih _

/-- A run each of whose steps leaves the state as it is. -/
theorem foldl_eq_self {α β : Type} {g : β → α → β} {s : β} {xs : List α} (h : ∀ x ∈ xs, g s x = s) : xs.foldl g s = s := by
  induction xs with
  | nil => rfl
  | cons x r ih => rw [List.foldl_cons, h x List.mem_cons_self, ih fun y hy => h y (List.mem_cons_of_mem _ hy)]

/-! ## OXLINK_READ -/

section
variable {s u : State} {p : Fin 16} {f : BitVec 2048} {x : Flit}

/-- The addresses of the sectors of a flit. -/
def Flit.reads (x : Flit) : List Nat := (List.range x.nsec).map (fun i => x.addr + 32 * i)

/-- The records of sectors that a port reads over a route that is lost. -/
def State.readRecords (s : State) (p : Fin 16) (x : Flit) : State :=
  x.reads.foldl (fun (s : State) pa =>
    if s.noRouteAt (p.val / 2) pa then s.dieRecord Cause.memUe (p.val / 2) (s.lostLink (p.val / 2) pa) pa else s) s

theorem State.readRecords_eq (s : State) (p : Fin 16) (x : Flit) : ∃ q, s.readRecords p x = { s with dispQueues := q } := by
  refine State.foldl_dispQueues (fun s pa => ?_) s _
  split
  · exact ⟨_, rfl⟩
  · exact ⟨_, rfl⟩

theorem State.readRecords_of_routes (h : ∀ k < x.nsec, s.noRouteAt (p.val / 2) (x.addr + 32 * k) = false) : s.readRecords p x = s := by
  refine foldl_eq_self fun pa hpa => ?_
  obtain ⟨k, hk, rfl⟩ := List.mem_map.mp hpa
  rw [h k (List.mem_range.mp hk)]
  rfl

/-- The completion that answers a read request. -/
def State.readAnswer (s : State) (p : Fin 16) (x : Flit) : BitVec 2048 :=
  buildFlit 2 s.ox.pkg.toNat x.src x.tag (s.ox.seqOut[p.val]).toNat 0 (x.reads.map (s.portSector p)) x.nsec

theorem execOxlinkRead_eq (h : s.takeFlit p f 0 = some (x, u)) (q : Vector QueuePair 8) (hq : u.readRecords p x = { u with dispQueues := q }) :
    execOxlinkRead p f s = .next { u with dispQueues := q, ox := { u.ox with
        seqOut := u.ox.seqOut.set p.val (u.ox.seqOut[p.val] + 1), out := u.ox.out ++ [(p.val, u.readAnswer p x)] } } := by
  rw [execOxlinkRead, State.onFlit_of_some h, if_pos rfl]
  change Host.Outcome.next { u.readRecords p x with ox := { (u.readRecords p x).ox with
        seqOut := (u.readRecords p x).ox.seqOut.set p.val ((u.readRecords p x).ox.seqOut[p.val] + 1),
        out := (u.readRecords p x).ox.out ++ [(p.val, buildFlit 2 (u.readRecords p x).ox.pkg.toNat x.src x.tag
          ((u.readRecords p x).ox.seqOut[p.val]).toNat 0 (x.reads.map (u.portSector p)) x.nsec)] } } = _
  rw [hq]
  rfl

theorem State.length_portSector (s : State) (p : Fin 16) (pa : Nat) : (s.portSector p pa).1.length = 32 := by
  unfold State.portSector
  split <;> simp [State.physBytes]

theorem parseFlit_readAnswer (s : State) (p : Fin 16) (f : BitVec 2048) (x : Flit) (hx : x = parseFlit f) : let g := parseFlit (s.readAnswer p x)
    g.kind = 2 ∧ g.tag = x.tag ∧ g.dst = x.src ∧ g.src = s.ox.pkg.toNat ∧ g.crcOk = true := by
  subst hx
  have hcount : ((parseFlit f).reads.map (s.portSector p)).length ≤ 7 := by
    rw [List.length_map, Flit.reads, List.length_map, List.length_range]
    exact Nat.le_of_lt_succ (parseFlit_nsec_lt f)
  have hlen : ∀ y ∈ (parseFlit f).reads.map (s.portSector p), y.1.length = 32 := fun y hy => by
    obtain ⟨pa, -, rfl⟩ := List.mem_map.mp hy
    exact s.length_portSector p pa
  obtain ⟨hkind, hsrc, hdst, -, htag, -⟩ := parseFlit_buildFlit_word (addr := 0) hcount hlen (by decide : 2 < 8) s.ox.pkg.isLt (parseFlit_src_lt f)
    (parseFlit_nsec_lt f) (parseFlit_tag_lt f) (s.ox.seqOut[p.val]).isLt
  exact ⟨hkind, htag, hdst, hsrc, parseFlit_buildFlit_crcOk hcount hlen⟩

theorem oxlinkRead_spec (h : s.takeFlit p f 0 = some (x, u)) : ∃ t g, execOxlinkRead p f s = .next t ∧ t = { u with dispQueues := t.dispQueues, ox := { u.ox with
        seqOut := u.ox.seqOut.set p.val (u.ox.seqOut[p.val] + 1),
        out := u.ox.out ++ [(p.val, g)] } } ∧
      ((∀ k < x.nsec, s.noRouteAt (p.val / 2) (x.addr + 32 * k) = false) → t.dispQueues = s.dispQueues) ∧
      (parseFlit g).kind = 2 ∧ (parseFlit g).tag = x.tag ∧ (parseFlit g).dst = x.src ∧ (parseFlit g).src = s.ox.pkg.toNat ∧ (parseFlit g).crcOk = true := by
  obtain ⟨hx, hu⟩ := State.eq_of_takeFlit h
  obtain ⟨q, hq⟩ := u.readRecords_eq p x
  refine ⟨_, u.readAnswer p x, execOxlinkRead_eq h q hq, rfl, fun hroutes => ?_, ?_⟩
  · have hself := State.readRecords_of_routes (s := u) (p := p) (x := x) (by rw [hu]; exact hroutes)
    rw [hq] at hself
    calc q = u.dispQueues := congrArg State.dispQueues hself
      _ = s.dispQueues := by rw [hu]
  · have hpkg : u.ox.pkg = s.ox.pkg := by rw [hu]
    have hg := parseFlit_readAnswer u p f x hx
    rwa [hpkg] at hg

end

/-! ## OXLINK_COMPLETION and OXLINK_REDUCE -/

section
variable {s u : State} {p : Fin 16} {f : BitVec 2048} {x : Flit}

theorem Flit.taken_eq (x : Flit) : x.taken = (List.range x.secs.length).map (fun i => ⟨x.secs.getD i [], decide ((crc16 (x.secs.getD i [])).toNat ≠ nth x.scrc i)⟩) := by
  refine List.ext_getElem (by simp [Flit.taken]) fun i h _ => ?_
  have hi : i < x.secs.length := by simpa [Flit.taken] using h
  simp [Flit.taken, Flit.secOk, hi]
  rfl

theorem State.answerFar_of_asked {a : Ask} {sect : Sect} {r : List Sect}
    (hask : s.ox.asks.find? (fun a => a.tag == x.tag && a.pa / 2 ^ 40 % 2 ^ 11 == x.src) = some a) (htaken : x.taken = sect :: r) :
    s.answerFar x = { s with
      ox := { s.ox with asks := s.ox.asks.filter (fun b => b.tag ≠ x.tag), got := s.ox.got ++ [⟨a.core, a.uid, a.pa, sect⟩] },
      agenda := s.ox.waits.map (fun w => ⟨w.act.core, .again w.uid⟩) ++ s.agenda } := by
  have htag : a.tag = x.tag := by
    have hfound := List.find?_some hask
    rw [Bool.and_eq_true, beq_iff_eq] at hfound
    exact hfound.1
  rw [State.answerFar, hask, htaken, ← htag]

theorem State.answerFar_of_not_asked (h : x.taken = [] ∨ ∀ a ∈ s.ox.asks, ¬ (a.tag = x.tag ∧ a.pa / 2 ^ 40 % 2 ^ 11 = x.src)) : s.answerFar x = s := by
  unfold State.answerFar
  rcases h with hnone | hfree
  · rw [hnone]
    split
    next hcons => cases hcons
    next => rfl
  · have hfind : s.ox.asks.find? (fun a => a.tag == x.tag && a.pa / 2 ^ 40 % 2 ^ 11 == x.src) = none := by
      rw [List.find?_eq_none]
      intro a ha
      rw [Bool.and_eq_true, beq_iff_eq, beq_iff_eq]
      exact hfree a ha
    rw [hfind]

/-- The checks of a flit's sectors send records alone, and none when all pass. -/
theorem State.flitChecks_dispQueues (s : State) (p : Fin 16) (x : Flit) (fails : Nat → Bool)
    (hfails : fails = (fun i => decide ((crc16 (x.secs.getD i [])).toNat ≠ nth x.scrc i))) :
    ∃ q, s.flitChecks p x = { s with dispQueues := q } ∧ ((∀ i < x.secs.length, fails i = false) → q = s.dispQueues) := by
  refine ⟨_, s.flitChecks_eq p x, fun hok => ?_⟩
  rw [State.flitChecks_of_ok]
  intro i hi
  have hi := hok i hi
  rw [hfails] at hi
  simpa [Flit.secOk] using hi

variable {fails : Nat → Bool} {brought : List Sect} (hfails : fails = (fun i => decide ((crc16 (x.secs.getD i [])).toNat ≠ nth x.scrc i)))
  (hbrought : brought = (List.range x.secs.length).map (fun i => ⟨x.secs.getD i [], fails i⟩))
include hfails hbrought

theorem Flit.taken_eq_brought : x.taken = brought := by
  rw [hbrought, hfails]
  exact x.taken_eq

theorem oxlinkCompletion_spec (h : s.takeFlit p f 2 = some (x, u)) : ∃ t, execOxlinkCompletion p f s = .next t ∧
    (∀ a sect r, u.ox.asks.find? (fun a => a.tag == x.tag && a.pa / 2 ^ 40 % 2 ^ 11 == x.src) = some a → brought = sect :: r →
      t = { u with dispQueues := t.dispQueues, agenda := s.ox.waits.map (fun w => ⟨w.act.core, .again w.uid⟩) ++ s.agenda, ox := { u.ox with
        asks := u.ox.asks.filter (fun b => b.tag ≠ x.tag), got := u.ox.got ++ [⟨a.core, a.uid, a.pa, sect⟩] } }) ∧
    ((brought = [] ∨ ∀ a ∈ u.ox.asks, ¬ (a.tag = x.tag ∧ a.pa / 2 ^ 40 % 2 ^ 11 = x.src)) → t = { u with dispQueues := t.dispQueues }) ∧
    ((∀ i < x.secs.length, fails i = false) → t.dispQueues = u.dispQueues) := by
  obtain ⟨-, hu⟩ := State.eq_of_takeFlit h
  obtain ⟨q, hq, hquiet⟩ := u.flitChecks_dispQueues p x fails hfails
  have htaken := Flit.taken_eq_brought hfails hbrought
  have hexec : execOxlinkCompletion p f s = .next (({ u with dispQueues := q } : State).answerFar x) := by
    rw [execOxlinkCompletion, State.onFlit_of_some h, if_neg (by decide), hq]
  have hqueues : (({ u with dispQueues := q } : State).answerFar x).dispQueues = q := by
    unfold State.answerFar
    split <;> rfl
  refine ⟨_, hexec, fun a sect r hask hcons => ?_, fun hnone => ?_, fun hok => hqueues.trans (hquiet hok)⟩
  · rw [hqueues, State.answerFar_of_asked (s := { u with dispQueues := q }) hask (htaken.trans hcons), hu]
  · rw [hqueues]
    exact State.answerFar_of_not_asked (by rw [htaken]; exact hnone)

theorem oxlinkReduce_spec (h : s.takeFlit p f 4 = some (x, u)) : ∃ t, execOxlinkReduce p f s = .next t ∧
    t = { u with ox := { u.ox with reds := u.ox.reds ++ [(x.src, x.tag, x.addr, brought)] }, dispQueues := t.dispQueues } ∧
    ((∀ i < x.secs.length, fails i = false) → t.dispQueues = u.dispQueues) := by
  obtain ⟨q, hq, hquiet⟩ := u.flitChecks_dispQueues p x fails hfails
  have hexec : execOxlinkReduce p f s = .next { u with dispQueues := q, ox := { u.ox with reds := u.ox.reds ++ [(x.src, x.tag, x.addr, brought)] } } := by
    rw [execOxlinkReduce, State.onFlit_of_some h, if_neg (by decide), hq, Flit.taken_eq_brought hfails hbrought]
  exact ⟨_, hexec, rfl, hquiet⟩

end

end Sys2Proof.Machine

namespace Sys2Proof.Machine

/-! ## What a dispatcher reads does not depend on what is sent or scheduled (R166, R168, R368) -/

/-- The state with other records sent and other steps scheduled. -/
def State.sent (s : State) (a : List Act) (q : Vector QueuePair 8) : State := { s with agenda := a, dispQueues := q }

namespace State
variable (s : State) (a : List Act) (q : Vector QueuePair 8)

@[simp] theorem die_sent (d : Nat) : (s.sent a q).die d = s.die d := rfl

@[simp] theorem region_sent (pa : Nat) : (s.sent a q).region pa = s.region pa := rfl

@[simp] theorem as_sent (n : Nat) : (s.sent a q).as n = (s.as n).sent a q := rfl

@[simp] theorem readUid_sent : (s.sent a q).readUid = s.readUid := rfl

@[simp] theorem byDisp_sent (d : Nat) : (s.sent a q).byDisp d = (s.byDisp d).sent a q := rfl

@[simp] theorem isPoison_sent (pa n : Nat) : (s.sent a q).isPoison pa n = s.isPoison pa n := rfl

@[simp] theorem within_sent (d n : Nat) : (s.sent a q).within d n = s.within d n := by
  induction n with
  | zero => rfl
  | succ n ih =>
    rw [State.within, State.within, ih]
    rfl

@[simp] theorem latency_sent (d e : Nat) : (s.sent a q).latency d e = s.latency d e := by
  simp only [State.latency, within_sent]

@[simp] theorem farPorts_sent (d : Nat) : (s.sent a q).farPorts d = s.farPorts d := by
  simp only [State.farPorts, latency_sent]
  rfl

@[simp] theorem crownPorts_sent : (s.sent a q).crownPorts = s.crownPorts := by
  simp only [State.crownPorts, latency_sent]
  rfl

@[simp] theorem noRouteAt_sent (d pa : Nat) : (s.sent a q).noRouteAt d pa = s.noRouteAt d pa := by
  simp only [State.noRouteAt, region_sent, latency_sent, farPorts_sent, die_sent]

@[simp] theorem crownLost_sent (pa : Nat) : (s.sent a q).crownLost pa = s.crownLost pa := by
  simp only [State.crownLost, region_sent, latency_sent, crownPorts_sent, die_sent]

@[simp] theorem noRoute_sent (c : Core) (pa : Nat) : (s.sent a q).noRoute c pa = s.noRoute c pa := by
  simp only [State.noRoute, crownLost_sent, noRouteAt_sent]

@[simp] theorem tableEntry_sent (pa : Nat) : (s.sent a q).tableEntry pa = s.tableEntry pa := rfl

@[simp] theorem copies_sent (asid va size e : Nat) : (s.sent a q).copies asid va size e = s.copies asid va size e := rfl

@[simp] theorem walkEntry_sent (asid va size x : Nat) : (s.sent a q).walkEntry asid va size x = s.walkEntry asid va size x := by
  simp only [State.walkEntry, tableEntry_sent, copies_sent, isPoison_sent, noRoute_sent]
  rfl

@[simp] theorem capArea_sent : (s.sent a q).capArea = s.capArea := rfl

@[simp] theorem reserved_sent (pa n : Nat) : (s.sent a q).reserved pa n = s.reserved pa n := rfl

@[simp] theorem leafBad_sent (lvl size e : Nat) : (s.sent a q).leafBad lvl size e = s.leafBad lvl size e := by
  simp only [State.leafBad, region_sent, reserved_sent, capArea_sent]

@[simp] theorem walkFrom_sent (asid va : Nat) (lv : List (Nat × Nat)) (lvl t : Nat) :
    (s.sent a q).walkFrom asid va lv lvl t = s.walkFrom asid va lv lvl t := by
  induction lv generalizing lvl t with
  | nil => rfl
  | cons h r ih => simp only [State.walkFrom, walkEntry_sent, leafBad_sent, ih]

@[simp] theorem walk_sent (asid va : Nat) : (s.sent a q).walk asid va = s.walk asid va := by
  simp only [State.walk, walkFrom_sent]
  rfl

@[simp] theorem leafOf_sent (asid va : Nat) : (s.sent a q).leafOf asid va = s.leafOf asid va := by
  simp only [State.leafOf, walk_sent]

@[simp] theorem cached_sent (asid va : Nat) : (s.sent a q).cached asid va = s.cached asid va := rfl

@[simp] theorem leafUsed_sent (asid va : Nat) : (s.sent a q).leafUsed asid va = s.leafUsed asid va := by
  simp only [State.leafUsed, leafOf_sent, cached_sent]
  rfl

@[simp] theorem translate_sent (asid va : Nat) (k : Acc) : (s.sent a q).translate asid va k = s.translate asid va k := by
  simp only [State.translate, leafUsed_sent]

@[simp] theorem spanParts_sent (asid va n : Nat) (k : Acc) (fuel : Nat) : (s.sent a q).spanParts asid va n k fuel = s.spanParts asid va n k fuel := by
  induction fuel generalizing va n with
  | zero => rfl
  | succ f ih => simp only [State.spanParts, translate_sent, ih]

@[simp] theorem partsG_sent (asid : Nat) (va : Word) (n : Nat) : (s.sent a q).partsG asid va n = s.partsG asid va n := by
  simp only [State.partsG, spanParts_sent]

@[simp] theorem physByte_sent (pa : Nat) : (s.sent a q).physByte pa = s.physByte pa := by
  unfold State.physByte
  rw [region_sent]
  rfl

@[simp] theorem physBytes_sent (pa n : Nat) : (s.sent a q).physBytes pa n = s.physBytes pa n := by
  simp only [State.physBytes, physByte_sent]

@[simp] theorem readG_sent (d asid : Nat) (va : Word) (n : Nat) : (s.sent a q).readG d asid va n = s.readG d asid va n := by
  simp only [State.readG, byDisp_sent, partsG_sent, isPoison_sent, noRouteAt_sent, physBytes_sent]

@[simp] theorem partsD_sent (d asid : Nat) (va : Word) (n : Nat) : (s.sent a q).partsD d asid va n = s.partsD d asid va n := by
  simp only [State.partsD, byDisp_sent, partsG_sent, noRouteAt_sent]

@[simp] theorem farMissing_sent (uid : Nat) (ps : List Part) : (s.sent a q).farMissing uid ps = s.farMissing uid ps := rfl

@[simp] theorem missD_sent (d : Nat) (ps : List Part) : (s.sent a q).missD d ps = s.missD d ps := by
  simp only [State.missD, byDisp_sent, farMissing_sent, readUid_sent]

@[simp] theorem missSched_sent (d asid : Nat) (va : Word) : (s.sent a q).missSched d asid va = s.missSched d asid va := by
  simp only [State.missSched, missD_sent, partsD_sent, readG_sent]

@[simp] theorem missTables_sent (d : Nat) (r : LRec) (adopt : Bool) : (s.sent a q).missTables d r adopt = s.missTables d r adopt := by
  simp only [State.missTables, missD_sent, partsD_sent, missSched_sent]

@[simp] theorem missRecord_sent (d asid : Nat) (va : Word) (adopt : Bool) : (s.sent a q).missRecord d asid va adopt = s.missRecord d asid va adopt := by
  simp only [State.missRecord, missD_sent, partsD_sent, readG_sent, missTables_sent]

@[simp] theorem saveHolds_sent (d : Nat) (r : LRec) (slot : Nat) : (s.sent a q).saveHolds d r slot = s.saveHolds d r slot := by
  simp only [State.saveHolds, noRouteAt_sent, isPoison_sent]
  rfl

@[simp] theorem placement_sent (d : Nat) (r : LRec) : (s.sent a q).placement d r = s.placement d r := by
  simp only [State.placement, readG_sent]

@[simp] theorem entries_sent (d : Nat) (r : LRec) : (s.sent a q).entries d r = s.entries d r := by
  simp only [State.entries, readG_sent]

@[simp] theorem schedEntry_sent (d asid : Nat) (cores : List Nat) (nstg : Nat) (bs : List Byte) :
    (s.sent a q).schedEntry d asid cores nstg bs = s.schedEntry d asid cores nstg bs := by
  simp only [State.schedEntry, State.schedShape, readG_sent]

@[simp] theorem readSched_sent (d asid : Nat) (cores : List Nat) (va : Word) : (s.sent a q).readSched d asid cores va = s.readSched d asid cores va := by
  have hentry : (s.sent a q).schedEntry d asid cores = s.schedEntry d asid cores := by
    funext nstg bs
    exact schedEntry_sent s a q d asid cores nstg bs
  simp only [State.readSched, readG_sent, hentry]

@[simp] theorem physical_sent (l : Nat) : (s.sent a q).physical l = s.physical l := rfl
@[simp] theorem online_sent (c : Nat) : (s.sent a q).online c = s.online c := rfl
@[simp] theorem savePinned_sent (save n : Nat) : (s.sent a q).savePinned save n = s.savePinned save n := rfl
@[simp] theorem grade_sent : (s.sent a q).grade = s.grade := rfl

@[simp] theorem checkPlace_sent (d : Nat) (r : LRec) (adopt : Bool) (etab : List Word) :
    (s.sent a q).checkPlace d r adopt etab = s.checkPlace d r adopt etab := by
  have hphysical : (s.sent a q).physical = s.physical := rfl
  simp only [State.checkPlace, placement_sent, hphysical, online_sent, latency_sent, savePinned_sent, saveHolds_sent, readSched_sent, grade_sent]
  rfl

/-- The tests of a record read tables and saves alone. -/
@[simp] theorem checkRec_sent (d : Nat) (r : LRec) (adopt : Bool) : (s.sent a q).checkRec d r adopt = s.checkRec d r adopt := by
  simp only [State.checkRec, entries_sent, checkPlace_sent]

end State

end Sys2Proof.Machine

namespace Sys2Proof.Machine

/-! ## Flits that bring sectors: OXLINK_WRITE, OXLINK_BROADCAST, OXLINK_MAILBOX (R143, R368) -/

/-- What a flit that a port has taken leaves of memory and of the core in focus. -/
structure State.Brought (s t : State) (x : Flit) : Prop where
  arch : t.core.arch = s.core.arch
  frame : s.MemSameBut t x.addr (32 * x.secs.length)
  bytes : ∀ k < x.secs.length, ∀ j < 32, t.mem.get (x.addr + 32 * k + j) = (x.secs.getD k []).getD j 0
  poison : ∀ k < x.secs.length, (x.addr + 32 * k) / 32 ∈ t.poison ↔ (crc16 (x.secs.getD k [])).toNat ≠ nth x.scrc k

section
variable {s u : State} {p : Fin 16} {f : BitVec 2048} {x : Flit} {n : Nat}

/-- The state in which a port has taken the flit `x` and checked its sectors. -/
def State.afterChecks (s : State) (p : Fin 16) (q : Vector QueuePair 8) : State :=
  { s with ox := { s.ox with seqIn := s.ox.seqIn.set p.val (s.ox.seqIn[p.val] + 1) }, dispQueues := q }

theorem State.onFlit_afterChecks (h : s.takeFlit p f n = some (x, u)) (hn : n ≠ 0) (k : Flit → State → State) :
    ∃ q, s.onFlit p f n k = .next (k x (s.afterChecks p q)) := by
  obtain ⟨-, hu⟩ := State.eq_of_takeFlit h
  refine ⟨(u.flitChecks p x).dispQueues, ?_⟩
  rw [State.onFlit_of_some h, if_neg hn, State.flitChecks_eq, hu]
  rfl

variable (hx : x = parseFlit f)
  (hhome : ∀ k < x.secs.length, (∃ d o, s.region (x.addr + 32 * k) = .dram d o) ∧ s.noRouteAt (p.val / 2) (x.addr + 32 * k) = false)
include hx hhome

theorem State.flitSectors_brought (q : Vector QueuePair 8) (b : List Mailbox) :
    let v : State := { s.afterChecks p q with mboxes := b }
    v.Wrote (v.flitSectors p x) ∧ s.Brought (v.flitSectors p x) x := by
  dsimp only
  obtain ⟨hwrote, hframe, hbytes, hpoison⟩ := State.flitSectors_spec (s := { s.afterChecks p q with mboxes := b }) (p := p) (x := x)
    (fun c hc => length_of_mem_parseFlit_secs f (by rwa [hx] at hc)) hhome
  exact ⟨hwrote, hwrote.core.arch, hframe, hbytes, hpoison⟩

theorem flitSectors_spec (h : s.takeFlit p f n = some (x, u)) (hn : n ≠ 0) :
    ∃ t, s.onFlit p f n (fun x s => s.flitSectors p x) = .next t ∧ s.Brought t x := by
  obtain ⟨q, hexec⟩ := State.onFlit_afterChecks h hn (fun x s => s.flitSectors p x)
  exact ⟨_, hexec, (State.flitSectors_brought hx hhome q s.mboxes).2⟩

end

/-- The message of a mailbox with its record, as it is read and tested. -/
def State.readMessage (s : State) (m : Mailbox) (q : Mail) (bs : List Byte) : Mail :=
  { q with lr := parseLRec bs, adm := s.checkRec m.die (parseLRec bs) false, lseq := (s.disp[(dieIx m.die).val]).seqno.toNat, age := s.dtime,
           eff := (parseLRec bs).prio, waited := 0 }

/-- The mailboxes of which the one at an address is changed. -/
def State.withBox (s : State) (pa : Nat) (f : Mailbox → Mailbox) : List Mailbox := s.mboxes.map (fun x => if x.pa = pa then f x else x)

theorem State.mem_withBox {s : State} {m : Mailbox} (hm : m ∈ s.mboxes) (f : Mailbox → Mailbox) : f m ∈ s.withBox m.pa f :=
  List.mem_map.mpr ⟨m, hm, if_pos rfl⟩

section
variable {s : State} {m : Mailbox} {q : Mail} {put : List Mail → Mailbox → Mailbox} {bs : List Byte}

theorem State.readMail_mboxes (hread : s.readG m.die m.asid m.lrec 128 = .ok bs) :
    ((∃ cores etab sched thr, (s.readMessage m q bs).adm = .ok cores etab sched thr) →
      (s.readMail m q put).mboxes = s.withBox m.pa (put [s.readMessage m q bs])) ∧
    ((∀ cores etab sched thr, (s.readMessage m q bs).adm ≠ .ok cores etab sched thr) →
      (s.readMail m q put).mboxes = s.withBox m.pa (fun x => { put [] x with turned := x.turned ++ [s.readMessage m q bs] })) := by
  unfold State.readMail
  rw [hread]
  dsimp only
  refine ⟨?_, ?_⟩
  · rintro ⟨cores, etab, sched, thr, hok⟩
    split
    · rfl
    next hno => exact absurd hok (hno cores etab sched thr)
  · intro hno
    split
    next cores etab sched thr hok => exact absurd hok (hno cores etab sched thr)
    · rfl

/-- The message that a mailbox at an address has received, as it fires. -/
def State.message (s : State) (pa : Nat) (owner : Option Nat) : Mail :=
  ⟨s.mem.bytes pa 64, parseLRec [], .far, 0, s.dtime, 0, 0, owner, none, s.isPoison pa 64⟩

/-- A mailbox fires with room in its queue and a record that lacks nothing. -/
theorem State.fire_eq_readMail {pa : Nat} (hbox : s.mboxes.find? (fun b => b.pa == pa) = some m) (hroom : m.queue.length < 16)
    (hmiss : s.missRecord m.die m.asid m.lrec false = []) (owner : Option Nat) :
    s.fire pa owner = s.readMail m (s.message pa owner) (fun qs x => { x with queue := x.queue ++ qs }) := by
  unfold State.fire
  rw [hbox]
  dsimp only
  rw [if_neg (Nat.not_le.mpr hroom), if_pos hmiss]
  rfl

/-- The message joins the queue of its mailbox, or is turned away. -/
theorem State.fire_joins {pa : Nat} {owner : Option Nat} (hbox : s.mboxes.find? (fun b => b.pa == pa) = some m) (hroom : m.queue.length < 16)
    (hmiss : s.missRecord m.die m.asid m.lrec false = []) (hread : s.readG m.die m.asid m.lrec 128 = .ok bs) :
    let r := s.readMessage m (s.message pa owner) bs
    ((∃ cores etab sched thr, r.adm = .ok cores etab sched thr) → { m with queue := m.queue ++ [r] } ∈ (s.fire pa owner).mboxes) ∧
    ((∀ cores etab sched thr, r.adm ≠ .ok cores etab sched thr) → { m with turned := m.turned ++ [r] } ∈ (s.fire pa owner).mboxes) := by
  have hm := List.mem_of_find?_eq_some hbox
  obtain ⟨hjoins, hturned⟩ := State.readMail_mboxes (q := s.message pa owner) (put := fun qs x => { x with queue := x.queue ++ qs }) hread
  rw [State.fire_eq_readMail hbox hroom hmiss]
  refine ⟨fun hok => ?_, fun hno => ?_⟩
  · rw [hjoins hok]
    exact State.mem_withBox hm _
  · have hput := State.mem_withBox hm (fun y => { y with queue := y.queue ++ [], turned := y.turned ++ [s.readMessage m (s.message pa owner) bs] })
    rw [List.append_nil] at hput
    rw [hturned hno]
    exact hput

end

section
variable {s u : State} {p : Fin 16} {f : BitVec 2048} {x : Flit}

theorem oxlinkMailbox_spec (h : s.takeFlit p f 3 = some (x, u))
    (hhome : ∀ k < x.secs.length, (∃ d o, s.region (x.addr + 32 * k) = .dram d o) ∧ s.noRouteAt (p.val / 2) (x.addr + 32 * k) = false) :
    ∃ t, execOxlinkMailbox p f s = .next t ∧ s.Brought t x ∧
      ∀ m bs, s.mboxes.find? (fun b => b.pa == x.addr) = some m → m.queue.length < 16 →
        ∀ w : State, w = { t with mboxes := s.mboxes, disp := s.disp } → w.missRecord m.die m.asid m.lrec false = [] → w.readG m.die m.asid m.lrec 128 = .ok bs →
          ∃ q : Mail, q.adm = w.checkRec m.die q.lr false ∧
            ((∃ cores etab sched thr, q.adm = .ok cores etab sched thr) → { m with queue := m.queue ++ [q] } ∈ t.mboxes) ∧
            ((∀ cores etab sched thr, q.adm ≠ .ok cores etab sched thr) → { m with turned := m.turned ++ [q] } ∈ t.mboxes) ∧ q.data = t.mem.bytes x.addr 64 ∧ q.lr = parseLRec bs ∧ q.owner = none := by
  obtain ⟨q, hexec⟩ := State.onFlit_afterChecks h (by decide) (fun x s =>
    State.fire { State.flitSectors { s with mboxes := [] } p x with mboxes := s.mboxes } x.addr none)
  obtain ⟨hwrote, hbrought⟩ := State.flitSectors_brought (State.eq_of_takeFlit h).1 hhome q []
  obtain ⟨-, hdisp⟩ := hwrote.quiet rfl
  change _ = s.disp at hdisp
  generalize State.flitSectors { s.afterChecks p q with mboxes := [] } p x = v at hwrote hbrought hdisp hexec
  have hmail := State.fire_sameButMail { v with mboxes := s.mboxes } x.addr none
  refine ⟨_, hexec, ?_, ?_⟩
  · change s.Brought (State.fire { v with mboxes := s.mboxes } x.addr none) x
    rw [hmail]
    exact ⟨hbrought.arch, hbrought.frame, hbrought.bytes, hbrought.poison⟩
  · intro m bs hbox hroom w hw hmiss hread
    obtain ⟨b, a, d, r, hfired⟩ : ∃ b a d r, State.fire { v with mboxes := s.mboxes } x.addr none =
      { v with mboxes := b, agenda := a, disp := d, dispQueues := r } := ⟨_, _, _, _, hmail⟩
    have hsent : w = State.sent { v with mboxes := s.mboxes } a r := by
      rw [hw]
      change { State.fire { v with mboxes := s.mboxes } x.addr none with mboxes := s.mboxes, disp := s.disp } = _
      rw [hfired, ← hdisp]
      rfl
    rw [hsent, State.missRecord_sent] at hmiss
    rw [hsent, State.readG_sent] at hread
    rw [hsent]
    obtain ⟨hjoins, hturned⟩ := State.fire_joins (s := { v with mboxes := s.mboxes }) (owner := none) hbox hroom hmiss hread
    have hmem : (State.fire { v with mboxes := s.mboxes } x.addr none).mem = v.mem := by rw [hfired]
    refine ⟨State.readMessage { v with mboxes := s.mboxes } m (State.message { v with mboxes := s.mboxes } x.addr none) bs,
      (State.checkRec_sent _ a r m.die (parseLRec bs) false).symm, hjoins, hturned, ?_, rfl, rfl⟩
    change _ = (State.fire { v with mboxes := s.mboxes } x.addr none).mem.bytes x.addr 64
    rw [hmem]
    rfl

end

end Sys2Proof.Machine

namespace Sys2Proof.Machine

/-! ## Writes of the crown die (R366, R367) -/

section
variable {s : State} {p : Part} {bs data : List Byte}

theorem State.crownWrite_lost (hlost : s.crownLost p.pa = true) : ∃ q, s.crownWrite p bs = { s with poison := p.pa / 32 :: s.poison, dispQueues := q } := by
  unfold State.crownWrite
  rw [if_pos hlost]
  exact ⟨_, rfl⟩

theorem State.crownWrite_of_route (hroute : s.crownLost p.pa = false) : s.crownWrite p bs = s.writePhys (crownNo s.uid) none p.pa bs := by
  unfold State.crownWrite
  rw [hroute]
  rfl

/-- Every byte of a part lies in the memory of this package. -/
def State.dramPart (s : State) (p : Part) : Prop := ∀ k < p.n, ∃ d o, s.region (p.pa + k) = .dram d o

/-- The bytes of a part are written, and no others. -/
structure State.PutPart (s t : State) (p : Part) (data : List Byte) : Prop where
  wrote : s.Wrote t
  frame : s.MemSameBut t p.pa p.n
  bytes : ∀ k < p.n, t.mem.get (p.pa + k) = data.getD k 0

/-- The sectors of a part are poisoned, and memory is as it was. -/
structure State.LostPart (s t : State) (p : Part) : Prop where
  wrote : s.Wrote t
  mem : t.mem = s.mem
  kept : ∀ n ∈ s.poison, n ∈ t.poison
  poison : ∀ k < p.n, (p.pa + k) / 32 ∈ t.poison

theorem State.crownWrite_put (hdram : s.dramPart p) (hroute : ∀ k < p.n, s.crownLost (p.pa + k) = false) (hlen : bs.length = p.n) :
    s.PutPart (s.crownWrite p bs) p bs := by
  rcases Nat.eq_zero_or_pos p.n with hzero | hpos
  · have hnil : bs = [] := List.eq_nil_of_length_eq_zero (hlen.trans hzero)
    cases hlost : s.crownLost p.pa
    · rw [State.crownWrite_of_route hlost, hnil, State.writePhys_nil]
      exact ⟨.refl s, fun _ _ => rfl, fun k hk => by omega⟩
    · obtain ⟨q, hwrite⟩ := State.crownWrite_lost (bs := bs) hlost
      rw [hwrite]
      exact ⟨.poisoned s _ _, fun _ _ => rfl, fun k hk => by omega⟩
  · obtain ⟨d, o, hregion⟩ := hdram 0 hpos
    have hmem := State.writePhys_mem s (crownNo s.uid) p.pa d o bs hregion
    have hne : bs ≠ [] := fun h => by rw [h] at hlen; exact absurd hlen (by simpa using hpos.ne)
    rw [if_neg hne] at hmem
    rw [State.crownWrite_of_route (hroute 0 hpos)]
    refine ⟨State.writePhys_wrote hregion _ _, fun a ha => ?_, fun k hk => ?_⟩
    · rw [hmem]
      exact Mem.get_put_other _ _ _ _ (by rw [hlen]; exact ha)
    · rw [hmem]
      exact Mem.get_put_same _ _ _ _ (by rw [hlen]; exact hk)

theorem State.crownWrite_lostPart (hlost : ∀ k < p.n, s.crownLost (p.pa + k) = true) (hfit : p.pa % 32 + p.n ≤ 32) (hlen : bs.length = p.n) :
    s.LostPart (s.crownWrite p bs) p := by
  rcases Nat.eq_zero_or_pos p.n with hzero | hpos
  · have hnil : bs = [] := List.eq_nil_of_length_eq_zero (hlen.trans hzero)
    cases hlost : s.crownLost p.pa
    · rw [State.crownWrite_of_route hlost, hnil, State.writePhys_nil]
      exact ⟨.refl s, rfl, fun _ h => h, fun k hk => by omega⟩
    · obtain ⟨q, hwrite⟩ := State.crownWrite_lost (bs := bs) hlost
      rw [hwrite]
      exact ⟨.poisoned s _ _, rfl, fun _ h => List.mem_cons_of_mem _ h, fun k hk => by omega⟩
  · obtain ⟨q, hwrite⟩ := State.crownWrite_lost (bs := bs) (hlost 0 hpos)
    rw [hwrite]
    refine ⟨.poisoned s _ _, rfl, fun _ h => List.mem_cons_of_mem _ h, fun k hk => ?_⟩
    rw [show (p.pa + k) / 32 = p.pa / 32 by omega]
    exact List.mem_cons_self

end

/-- The crown die writes pieces of memory, one after another. -/
def State.crownRun (s : State) (ps : List Part) (data : List Byte) : State :=
  (ps.foldl (fun (a : State × List Byte) p => (a.1.crownWrite p (a.2.take p.n), a.2.drop p.n)) (s, data)).1

theorem State.crownRun_cons (s : State) (p : Part) (ps : List Part) (data : List Byte) :
    s.crownRun (p :: ps) data = (s.crownWrite p (data.take p.n)).crownRun ps (data.drop p.n) := rfl

theorem State.crownPut_singleton (s : State) (p : Part) (data : List Byte) :
    s.crownPut [p] data = s.crownRun (sectorsOf p (data.length / 32 + 2)) data := by
  unfold State.crownPut
  rw [List.flatMap_singleton]
  rfl

theorem sectorsOf_of_fits {p : Part} {fuel : Nat} (h : p.pa % 32 + p.n ≤ 32) : sectorsOf p (fuel + 1) = [p] := by
  rw [sectorsOf]
  exact if_pos (by omega)

/-- The first sector of a part that goes beyond it. -/
def Part.first (p : Part) : Part := { p with n := 32 - p.pa % 32, ends := false }

/-- What follows the first sector of a part. -/
def Part.rest (p : Part) : Part := { p with pa := p.pa + (32 - p.pa % 32), n := p.n - (32 - p.pa % 32) }

theorem sectorsOf_of_not_fits {p : Part} {fuel : Nat} (h : ¬ p.pa % 32 + p.n ≤ 32) : sectorsOf p (fuel + 1) = p.first :: sectorsOf p.rest fuel := by
  rw [sectorsOf]
  exact if_neg (by omega)

theorem State.crownRun_put {fuel : Nat} {s : State} {p : Part} {data : List Byte} (hdram : s.dramPart p) (hroute : ∀ k < p.n, s.crownLost (p.pa + k) = false)
    (hlen : data.length = p.n) (hfuel : p.pa % 32 + p.n ≤ 32 * (fuel + 1)) : s.PutPart (s.crownRun (sectorsOf p (fuel + 1)) data) p data := by
  induction fuel generalizing s p data with
  | zero =>
    rw [sectorsOf_of_fits (by omega), State.crownRun_cons, ← hlen, List.take_length]
    exact State.crownWrite_put hdram hroute hlen
  | succ fuel ih =>
    by_cases hfit : p.pa % 32 + p.n ≤ 32
    · rw [sectorsOf_of_fits hfit, State.crownRun_cons, ← hlen, List.take_length]
      exact State.crownWrite_put hdram hroute hlen
    · rw [sectorsOf_of_not_fits hfit, State.crownRun_cons]
      have hn : p.first.n = 32 - p.pa % 32 := rfl
      have hpa : p.rest.pa = p.pa + p.first.n := rfl
      have hrest : p.rest.n = p.n - p.first.n := rfl
      have hhead := State.crownWrite_put (s := s) (p := p.first) (bs := data.take p.first.n) (fun k hk => hdram k (by omega))
        (fun k hk => hroute k (by omega)) (by rw [List.length_take]; omega)
      generalize s.crownWrite p.first (data.take p.first.n) = v at hhead
      have htail := ih (s := v) (p := p.rest) (data := data.drop p.first.n)
        (fun k hk => by rw [hpa, Nat.add_assoc, hhead.wrote.region]; exact hdram _ (by omega))
        (fun k hk => by rw [hpa, Nat.add_assoc, hhead.wrote.crownLost]; exact hroute _ (by omega)) (by rw [List.length_drop]; omega) (by omega)
      generalize v.crownRun _ _ = t at htail
      refine ⟨hhead.wrote.trans htail.wrote, fun a ha => ?_, fun k hk => ?_⟩
      · rw [htail.frame a (by omega)]
        exact hhead.frame a (by change a < p.pa ∨ p.pa + p.first.n ≤ a; omega)
      · by_cases hk1 : k < p.first.n
        · rw [htail.frame _ (by omega)]
          refine (hhead.bytes k hk1).trans ?_
          rw [List.getD_eq_getElem?_getD, List.getD_eq_getElem?_getD, List.getElem?_take_of_lt hk1]
        · have hbyte := htail.bytes (k - p.first.n) (by omega)
          rw [hpa, show p.pa + p.first.n + (k - p.first.n) = p.pa + k by omega] at hbyte
          rw [hbyte, List.getD_eq_getElem?_getD, List.getD_eq_getElem?_getD, List.getElem?_drop, show p.first.n + (k - p.first.n) = k by omega]

theorem State.crownRun_lost {fuel : Nat} {s : State} {p : Part} {data : List Byte} (hlost : ∀ k < p.n, s.crownLost (p.pa + k) = true)
    (hlen : data.length = p.n) (hfuel : p.pa % 32 + p.n ≤ 32 * (fuel + 1)) : s.LostPart (s.crownRun (sectorsOf p (fuel + 1)) data) p := by
  induction fuel generalizing s p data with
  | zero =>
    rw [sectorsOf_of_fits (by omega), State.crownRun_cons, ← hlen, List.take_length]
    exact State.crownWrite_lostPart hlost (by omega) hlen
  | succ fuel ih =>
    by_cases hfit : p.pa % 32 + p.n ≤ 32
    · rw [sectorsOf_of_fits hfit, State.crownRun_cons, ← hlen, List.take_length]
      exact State.crownWrite_lostPart hlost hfit hlen
    · rw [sectorsOf_of_not_fits hfit, State.crownRun_cons]
      have hn : p.first.n = 32 - p.pa % 32 := rfl
      have hpa0 : p.first.pa = p.pa := rfl
      have hpa : p.rest.pa = p.pa + p.first.n := rfl
      have hrest : p.rest.n = p.n - p.first.n := rfl
      have hhead := State.crownWrite_lostPart (s := s) (p := p.first) (bs := data.take p.first.n) (fun k hk => hlost k (by omega))
        (by omega) (by rw [List.length_take]; omega)
      generalize s.crownWrite p.first (data.take p.first.n) = v at hhead
      have htail := ih (s := v) (p := p.rest) (data := data.drop p.first.n)
        (fun k hk => by rw [hpa, Nat.add_assoc, hhead.wrote.crownLost]; exact hlost _ (by omega)) (by rw [List.length_drop]; omega) (by omega)
      generalize v.crownRun _ _ = t at htail
      refine ⟨hhead.wrote.trans htail.wrote, htail.mem.trans hhead.mem, fun n hn => htail.kept n (hhead.kept n hn), fun k hk => ?_⟩
      by_cases hk1 : k < p.first.n
      · exact htail.kept _ (hhead.poison k hk1)
      · have hsector := htail.poison (k - p.first.n) (by omega)
        rwa [hpa, show p.pa + p.first.n + (k - p.first.n) = p.pa + k by omega] at hsector

end Sys2Proof.Machine

namespace Sys2Proof.Machine

/-! ## Root ports (R366) -/

section
variable {s : State} {p : Fin 8} {rid : BitVec 16} {va : Word} {data : List Byte} {n : Nat}

/-- No table entry on the way to the bytes of a request is out of reach. -/
def State.walkReached (s : State) (p : Fin 8) (rid : BitVec 16) (va : Word) (n : Nat) : Prop :=
  ∀ a, s.requester p rid = some a → (s.as (crownNo s.readUid)).pageLost a va.toNat n = none

/-- A refusal sends the record of a walk at most. -/
theorem State.refusedWalk_eq (s : State) (p : Fin 8) (rid : BitVec 16) (va : Word) (n : Nat) :
    ∃ q, s.refusedWalk p rid va n = { s with dispQueues := q } ∧ (s.walkReached p rid va n → q = s.dispQueues) := by
  unfold State.refusedWalk
  split
  next pa hlost =>
    obtain ⟨a, ha, hpage⟩ := Option.bind_eq_some_iff.mp hlost
    exact ⟨_, rfl, fun hreach => absurd ((hreach a ha).symm.trans hpage) (by simp)⟩
  next => exact ⟨_, rfl, fun _ => rfl⟩

theorem inboundWrite_refused (h : s.inbound p rid va data.length .write = none) : ∃ q, execInboundWrite p rid va data s = .next
      { s with dispQueues := q, ports := { s.ports with ureq := s.ports.ureq.set p.val (s.ports.ureq[p.val] + 1) } } ∧
      (s.walkReached p rid va data.length → q = s.dispQueues) := by
  obtain ⟨q, hwalk, hquiet⟩ := s.refusedWalk_eq p rid va data.length
  refine ⟨q, ?_, hquiet⟩
  rw [execInboundWrite, h, hwalk]
  rfl

theorem execInboundWrite_of_inbound {q : Part} (h : s.inbound p rid va data.length .write = some [q]) :
    execInboundWrite p rid va data s = .next (s.crownRun (sectorsOf q (data.length / 32 + 1 + 1)) data) := by
  rw [execInboundWrite, h, ← State.crownPut_singleton]

theorem inboundWrite_put {q : Part} (h : s.inbound p rid va data.length .write = some [q]) (hn : q.n = data.length) (hdram : s.dramPart q)
    (hroute : ∀ k < q.n, s.crownLost (q.pa + k) = false) : ∃ t, execInboundWrite p rid va data s = .next t ∧ s.PutPart t q data :=
  ⟨_, execInboundWrite_of_inbound h, State.crownRun_put hdram hroute hn.symm (by omega)⟩

theorem inboundWrite_lost {q : Part} (h : s.inbound p rid va data.length .write = some [q]) (hn : q.n = data.length)
    (hlost : ∀ k < q.n, s.crownLost (q.pa + k) = true) : ∃ t, execInboundWrite p rid va data s = .next t ∧ s.LostPart t q :=
  ⟨_, execInboundWrite_of_inbound h, State.crownRun_lost hlost hn.symm (by omega)⟩

theorem inboundRead_refused (h : s.inbound p rid va n .read = none) : ∃ q, execInboundRead p rid va n s = .next
      { s with dispQueues := q, ports := { s.ports with ureq := s.ports.ureq.set p.val (s.ports.ureq[p.val] + 1), out := s.ports.out ++ [(p.val, none)] } } ∧
      (s.walkReached p rid va n → q = s.dispQueues) := by
  obtain ⟨q, hwalk, hquiet⟩ := s.refusedWalk_eq p rid va n
  refine ⟨q, ?_, hquiet⟩
  rw [execInboundRead, h, hwalk]
  rfl

section
variable {ps : List Part} (h : s.inbound p rid va n .read = some ps) (hroutes : ∀ x ∈ ps, s.crownLost x.pa = false)

theorem execInboundRead_of_inbound (h : s.inbound p rid va n .read = some ps) : execInboundRead p rid va n s =
    .next (s.crownRead (.event (.inboundRead p rid va n)) ps (fun t => { t with ports := { t.ports with out := t.ports.out ++ [(p.val, some (ps.flatMap s.crownBytes))] } })) := by
  rw [execInboundRead, h]

include hroutes in
theorem State.crownRecords_of_routes : s.crownRecords ps = s := by
  refine foldl_eq_self fun x hx => ?_
  rw [hroutes x hx]
  rfl

include hroutes in
theorem State.crownBytes_of_routes : ps.flatMap s.crownBytes = ps.flatMap (fun x => (s.as (crownNo s.readUid)).physBytes x.pa x.n) := by
  refine List.flatMap_congr fun x hx => ?_
  rw [State.crownBytes, hroutes x hx]
  rfl

include h hroutes in
theorem inboundRead_answers (hhere : s.crownMissing ps = []) : execInboundRead p rid va n s = .next { s with ports := { s.ports with
        out := s.ports.out ++ [(p.val, some (ps.flatMap (fun x => (s.as (crownNo s.readUid)).physBytes x.pa x.n)))] } } := by
  rw [execInboundRead_of_inbound h, State.crownBytes_of_routes hroutes, State.crownRead, hhere]
  dsimp only
  rw [State.crownRecords_of_routes hroutes]

end

theorem State.sendFlit_waits (s : State) (kind tag pa : Nat) (secs : List (List Byte × Bool)) (nsec : Nat) :
    (s.sendFlit kind tag pa secs nsec).ox.waits = s.ox.waits := by
  unfold State.sendFlit
  dsimp only
  split <;> rfl

theorem State.askFar_waits (s : State) (uid : Nat) (ks : List Nat) : (s.askFar uid ks).ox.waits = s.ox.waits := by
  unfold State.askFar
  split
  · split
    · rfl
    · exact State.sendFlit_waits _ _ _ _ _ _
  · rfl

theorem inboundRead_waits {ps : List Part} (h : s.inbound p rid va n .read = some ps) {e : Nat} {es : List Nat} (hmissing : s.crownMissing ps = e :: es) :
    ∃ o : Oxlink, execInboundRead p rid va n s = .next { s with uid := s.uid + 1, ox := o } ∧
        o.waits = s.ox.waits ++ [⟨s.readUid, s.core.id, .event (.inboundRead p rid va n)⟩] := by
  rw [execInboundRead_of_inbound h, State.crownRead, hmissing]
  refine ⟨_, rfl, ?_⟩
  dsimp only
  rw [State.askFar_waits]
  rfl

end

end Sys2Proof.Machine

namespace Sys2Proof.Machine

/-! ## Flits that go out to other packages (R368) -/

section
variable {s : State} {pa : Nat} {secs : List (List Byte × Bool)} {kind tag nsec : Nat}

/-- The flit that goes out over a port to the package that an address names. -/
def State.outFlit (s : State) (q : Fin 16) (kind tag pa : Nat) (secs : List (List Byte × Bool)) (nsec : Nat) : BitVec 2048 :=
  buildFlit kind s.ox.pkg.toNat (pa / 2 ^ 40 % 2 ^ 11) tag (s.ox.seqOut[q.val]).toNat (pa % 2 ^ 40) secs nsec

theorem lt_of_mem_farPorts {d n : Nat} (h : n ∈ s.farPorts d) : n < 16 := List.mem_range.mp (List.mem_of_mem_filter h)

theorem lt_of_mem_crownPorts {n : Nat} (h : n ∈ s.crownPorts) : n < 16 := List.mem_range.mp (List.mem_of_mem_filter h)

theorem lt_of_mem_portsOf {c n : Nat} (h : n ∈ s.portsOf c) : n < 16 := by
  unfold State.portsOf at h
  split at h
  · exact lt_of_mem_crownPorts h
  · exact lt_of_mem_farPorts h

/-- A core that a route leads from to another package reaches a port. -/
theorem State.portsOf_ne_nil {c : Core} (hremote : isRemote pa = true) (hroute : s.noRoute c pa = false) : s.portsOf c.id ≠ [] := by
  intro hnone
  unfold State.noRoute State.crownLost State.noRouteAt at hroute
  rw [s.region_of_isRemote hremote] at hroute
  unfold State.portsOf at hnone
  split at hnone
  next hcrown => rw [if_pos hcrown, hnone] at hroute; cases hroute
  next hcrown => rw [if_neg hcrown, hnone] at hroute; cases hroute

/-- The port over which a flit goes out is one of those reached. -/
theorem exists_port {f : Nat → Bool} {ps : List Nat} (h : ps ≠ []) : ∃ n ∈ ps, (ps.find? f).or ps.head? = some n := by
  cases hfind : ps.find? f with
  | some n => exact ⟨n, List.mem_of_find?_eq_some hfind, rfl⟩
  | none => exact ⟨ps.head h, List.head_mem h, List.head?_eq_some_head h⟩

theorem State.sendFlit_out (hports : s.portsOf s.core.id ≠ []) : ∃ q : Fin 16, q.val ∈ s.portsOf s.core.id ∧
    s.sendFlit kind tag pa secs nsec = { s with ox := { s.ox with
      seqOut := s.ox.seqOut.set q.val (s.ox.seqOut[q.val] + 1), out := s.ox.out ++ [(q.val, s.outFlit q kind tag pa secs nsec)] } } := by
  obtain ⟨n, hn, hport⟩ := exists_port (f := fun p => wbits (s.ox.ports.toList.getD p 0) 15 5 == pa / 2 ^ 40 % 2 ^ 11) hports
  have hval : (Fin.ofNat 16 n).val = n := Nat.mod_eq_of_lt (lt_of_mem_portsOf hn)
  refine ⟨Fin.ofNat 16 n, by rwa [hval], ?_⟩
  unfold State.sendFlit
  dsimp only
  rw [hport]
  rfl

/-- The fields of a flit that goes out. -/
theorem parseFlit_outFlit (q : Fin 16) (hcount : secs.length ≤ 7) (hlen : ∀ x ∈ secs, x.1.length = 32) (hkind : kind < 8) (htag : tag < 2 ^ 12)
    (hnsec : nsec < 8) : let g := parseFlit (s.outFlit q kind tag pa secs nsec)
    g.kind = kind ∧ g.src = s.ox.pkg.toNat ∧ g.dst = pa / 2 ^ 40 % 2 ^ 11 ∧ g.nsec = nsec ∧ g.tag = tag ∧ g.seq = (s.ox.seqOut[q.val]).toNat ∧
      g.addr = pa % 2 ^ 40 ∧ g.crcOk = true := by
  obtain ⟨hk, hsrc, hdst, hn, ht, hseq⟩ := parseFlit_buildFlit_word (addr := pa % 2 ^ 40) hcount hlen hkind s.ox.pkg.isLt
    (Nat.mod_lt (pa / 2 ^ 40) (Nat.two_pow_pos 11)) hnsec htag (s.ox.seqOut[q.val]).isLt
  refine ⟨hk, hsrc, hdst, hn, ht, hseq, ?_, parseFlit_buildFlit_crcOk hcount hlen⟩
  rw [State.outFlit, parseFlit_buildFlit_addr hcount hlen, Nat.mod_mod]

end

/-! ## A load asks another package for a sector -/

section
variable {s : State} {tag k uid : Nat} {ks : List Nat}

/-- The lowest tag that is free. -/
theorem Oxlink.freeTag_eq {x : Oxlink} (htag : tag < 4096) (hfree : ∀ a ∈ x.asks, a.tag ≠ tag) (hlow : ∀ b < tag, ∃ a ∈ x.asks, a.tag = b) :
    x.freeTag = some tag := by
  unfold Oxlink.freeTag
  rw [List.find?_range_eq_some]
  refine ⟨?_, List.mem_range.mpr htag, fun b hb => ?_⟩
  · simpa using hfree
  · simpa using hlow b hb

/-- A sector that is neither asked for nor back is asked for under the free tag. -/
theorem State.askFar_sends (htag : s.ox.freeTag = some tag) (hasks : ∀ a ∈ s.ox.asks, a.core = s.core.id → a.pa ≠ k)
    (hgot : ∀ x ∈ s.ox.got, x.core = s.core.id → x.pa ≠ k) :
    s.askFar uid (k :: ks) = State.sendFlit { s with ox := { s.ox with asks := s.ox.asks ++ [⟨tag, s.core.id, uid, k⟩] } } 0 tag k [] 1 := by
  have hnone : (s.ox.asks.any (fun a => a.core == s.core.id && a.pa == k) || s.ox.got.any (fun x => x.core == s.core.id && x.pa == k)) = false := by
    simpa [List.any_eq_false] using ⟨hasks, hgot⟩
  unfold State.askFar
  rw [htag]
  dsimp only
  rw [hnone]
  rfl

end

theorem execLoadReturn_far {s : State} {l : PLoad} {p : Part} {r : List Part} (hfind : s.core.loads.find? (fun x => x.uid == l.uid) = some l)
    (hparts : l.parts = p :: r) (hfree : s.core.loadBlocked l p = false) (hroute : s.noRoute s.core p.pa = false) (hwaits : s.farWaits l p = true) :
    execLoadReturn l.uid s = .next (s.askFar l.uid (s.farMissing l.uid [p])) := by
  simp only [execLoadReturn, hfind, hparts, hfree, hroute, hwaits, Bool.false_and, Bool.false_eq_true, if_false, if_true]

theorem farLoad_spec (s : State) (l : PLoad) (p : Part) (r : List Part) (k : Nat) (ks : List Nat) (tag : Nat)
    (hfind : s.core.loads.find? (fun x => x.uid == l.uid) = some l) (hparts : l.parts = p :: r) (hfree : s.core.loadBlocked l p = false)
    (hroute : s.noRoute s.core p.pa = false) (hremote : isRemote p.pa = true) (hwaits : s.farWaits l p = true)
    (hmissing : s.farMissing l.uid [p] = k :: ks) (htag : tag < 4096) (hunused : ∀ a ∈ s.ox.asks, a.tag ≠ tag)
    (hlow : ∀ b < tag, ∃ a ∈ s.ox.asks, a.tag = b) (hasks : ∀ a ∈ s.ox.asks, a.core = s.core.id → a.pa ≠ k)
    (hgot : ∀ x ∈ s.ox.got, x.core = s.core.id → x.pa ≠ k) :
    ∃ (t : State) (q : Fin 16) (g : BitVec 2048), execLoadReturn l.uid s = .next t ∧ q.val ∈ s.portsOf s.core.id ∧
      t = { s with ox := { s.ox with
        seqOut := s.ox.seqOut.set q.val (s.ox.seqOut[q.val] + 1),
        out := s.ox.out ++ [(q.val, g)],
        asks := s.ox.asks ++ [⟨tag, s.core.id, l.uid, k⟩] } } ∧
      (parseFlit g).kind = 0 ∧ (parseFlit g).tag = tag ∧ (parseFlit g).nsec = 1 ∧ (parseFlit g).src = s.ox.pkg.toNat ∧
      (parseFlit g).dst = k / 2 ^ 40 % 2 ^ 11 ∧ (parseFlit g).addr = k % 2 ^ 40 ∧ (parseFlit g).seq = (s.ox.seqOut[q.val]).toNat ∧ (parseFlit g).crcOk = true := by
  obtain ⟨q, hq, hsent⟩ := State.sendFlit_out (s := { s with ox := { s.ox with asks := s.ox.asks ++ [⟨tag, s.core.id, l.uid, k⟩] } })
    (kind := 0) (tag := tag) (pa := k) (secs := []) (nsec := 1) (State.portsOf_ne_nil (s := s) hremote hroute)
  have hnone : ∀ x ∈ ([] : List (List Byte × Bool)), x.1.length = 32 := fun _ h => absurd h List.not_mem_nil
  obtain ⟨hkind, hsrc, hdst, hnsec, hgtag, hseq, haddr, hcrc⟩ := parseFlit_outFlit (s := { s with ox := { s.ox with asks := s.ox.asks ++ [⟨tag, s.core.id, l.uid, k⟩] } })
    (kind := 0) (tag := tag) (pa := k) (secs := []) (nsec := 1) q (Nat.zero_le 7) hnone (by decide) htag (by decide)
  refine ⟨_, q, _, ?_, hq, rfl, hkind, hgtag, hnsec, hsrc, hdst, haddr, hseq, hcrc⟩
  rw [execLoadReturn_far hfind hparts hfree hroute hwaits, hmissing, State.askFar_sends (Oxlink.freeTag_eq htag hunused hlow) hasks hgot, hsent]

/-! ## A store sends a write to another package -/

section
variable {s : State} {pa : Nat} {bs : List Byte}

theorem length_overlay (a : Nat) (cur : List Byte) (o : Nat) (bs : List Byte) : (overlay a cur o bs).length = cur.length := List.length_mapIdx

theorem State.length_farBytes (s : State) (pa : Nat) (bs : List Byte) : (s.farBytes pa bs).length = 32 := by
  rw [State.farBytes, length_overlay, List.length_map, List.length_range]

/-- The bytes that a write of a sector carries. -/
theorem State.farBytes_getD (hfit : pa % 32 + bs.length ≤ 32) {i : Nat} (hi : i < bs.length) : (s.farBytes pa bs).getD (pa % 32 + i) 0 = bs.getD i 0 := by
  have hlt : pa % 32 + i < (s.farBytes pa bs).length := by
    rw [State.length_farBytes]
    omega
  rw [List.getD_eq_getElem _ _ hlt]
  simp only [State.farBytes, overlay, List.getElem_mapIdx]
  rw [if_pos (by omega), show pa / 32 * 32 + (pa % 32 + i) - pa = i by omega]

/-- The check value of a sector holds just where it is not poisoned. -/
theorem crc16_eq_sectorCheck (bs : List Byte) (bad : Bool) : (crc16 bs).toNat = sectorCheck (bs, bad) ↔ bad = false := by
  cases bad
  · simp [sectorCheck]
  · have hne : (crc16 bs).toNat ≠ (~~~(crc16 bs)).toNat := fun h => by
      have hbit := congrArg (fun v => v.getLsbD 0) (BitVec.eq_of_toNat_eq h)
      simp at hbit
    simp only [sectorCheck, if_true, hne, Bool.true_eq_false]

/-- The flit of a write: one sector, its bytes and its check value. -/
theorem parseFlit_writeFlit (s : State) (q : Fin 16) (sec : List Byte) (bad : Bool) (hlen : sec.length = 32) :
    let g := parseFlit (s.outFlit q 1 0 (pa / 32 * 32) [(sec, bad)] 1)
    g.kind = 1 ∧ g.nsec = 1 ∧ g.src = s.ox.pkg.toNat ∧ g.dst = pa / 2 ^ 40 % 2 ^ 11 ∧ g.addr = pa / 32 * 32 % 2 ^ 40 ∧ g.crcOk = true ∧
      g.secs = [sec] ∧ ((crc16 sec).toNat = nth g.scrc 0 ↔ bad = false) := by
  have hcount : [(sec, bad)].length ≤ 7 := Nat.le_add_left 1 6
  have hall : ∀ x ∈ [(sec, bad)], x.1.length = 32 := fun x hx => by rwa [List.mem_singleton.mp hx]
  obtain ⟨hkind, hsrc, hdst, hnsec, -, -, haddr, hcrc⟩ := parseFlit_outFlit (s := s) (kind := 1) (tag := 0) (pa := pa / 32 * 32) (nsec := 1) q hcount hall
    (by decide) (by decide) (by decide)
  refine ⟨hkind, hnsec, hsrc, hdst.trans (by omega), haddr, hcrc, parseFlit_buildFlit_secs hcount hall hnsec, ?_⟩
  have hcheck : nth (parseFlit (s.outFlit q 1 0 (pa / 32 * 32) [(sec, bad)] 1)).scrc 0 = sectorCheck (sec, bad) :=
    parseFlit_buildFlit_scrc hcount hall (Nat.zero_lt_one)
  rw [hcheck]
  exact crc16_eq_sectorCheck sec bad

theorem State.storeAt_far (hremote : isRemote p.pa = true) (hroute : s.noRoute s.core p.pa = false) (uid : Nat) (va : Word) (bad : Bool) (bs : List Byte) :
    s.storeAt uid va bad p bs = (s.sendFlit 1 0 (p.pa / 32 * 32) [(s.farBytes p.pa bs, bad)] 1).patchFar uid p.pa bs := by
  unfold State.storeAt
  rw [hroute, hremote]
  rfl

end

theorem execStorePerformed_far {s : State} {y : PStore} {p : Part} (hfind : s.core.stores.find? (fun x => x.uid == y.uid) = some y) (hclus : y.clus = none)
    (hparts : y.parts = [p]) (hends : p.ends = true) (hfree : s.core.storeBlocked y p = false) (hidle : s.farBusy y.uid p = false) :
    execStorePerformed y.uid s = .next ((s.storeAt y.uid y.va (y.bad.contains (p.pa / 32)) p (y.bytes.take p.n)).onC
      (fun c => (c.cntDown y.ord.stream 1).nextStore y [] (y.bytes.drop p.n))) := by
  simp only [execStorePerformed, hfind, hclus, hparts, hends, hfree, hidle, Option.isSome_none, Bool.or_self, Bool.false_eq_true, if_false, if_true]

theorem farStore_spec (s : State) (y : PStore) (p : Part) (hfind : s.core.stores.find? (fun x => x.uid == y.uid) = some y) (hclus : y.clus = none)
    (hparts : y.parts = [p]) (hends : p.ends = true) (hfree : s.core.storeBlocked y p = false) (hidle : s.farBusy y.uid p = false)
    (hroute : s.noRoute s.core p.pa = false) (hremote : isRemote p.pa = true) (hlen : y.bytes.length = p.n) (hfit : p.pa % 32 + p.n ≤ 32) :
    ∃ (t : State) (q : Fin 16) (g : BitVec 2048) (sec : List Byte), execStorePerformed y.uid s = .next t ∧ q.val ∈ s.portsOf s.core.id ∧
      t.mem = s.mem ∧ t.core.arch = s.core.arch ∧ t.core.stores = s.core.stores.filter (fun x => x.uid ≠ y.uid) ∧ t.ox.asks = s.ox.asks ∧
      t.ox.out = s.ox.out ++ [(q.val, g)] ∧ t.ox.seqOut = s.ox.seqOut.set q.val (s.ox.seqOut[q.val] + 1) ∧
      (parseFlit g).kind = 1 ∧ (parseFlit g).nsec = 1 ∧ (parseFlit g).src = s.ox.pkg.toNat ∧ (parseFlit g).dst = p.pa / 2 ^ 40 % 2 ^ 11 ∧
      (parseFlit g).addr = p.pa / 32 * 32 % 2 ^ 40 ∧ (parseFlit g).crcOk = true ∧ (parseFlit g).secs = [sec] ∧ sec.length = 32 ∧
      (∀ i < p.n, sec.getD (p.pa % 32 + i) 0 = y.bytes.getD i 0) ∧
      ((crc16 sec).toNat = nth (parseFlit g).scrc 0 ↔ p.pa / 32 ∉ y.bad) := by
  have hexec := execStorePerformed_far hfind hclus hparts hends hfree hidle
  rw [← hlen, List.take_length, State.storeAt_far hremote hroute] at hexec
  obtain ⟨q, hq, hsent⟩ := State.sendFlit_out (s := s) (kind := 1) (tag := 0) (pa := p.pa / 32 * 32)
    (secs := [(s.farBytes p.pa y.bytes, y.bad.contains (p.pa / 32))]) (nsec := 1) (State.portsOf_ne_nil hremote hroute)
  obtain ⟨hkind, hnsec, hsrc, hdst, haddr, hcrc, hsecs, hcheck⟩ := parseFlit_writeFlit (pa := p.pa) s q (s.farBytes p.pa y.bytes)
    (y.bad.contains (p.pa / 32)) (s.length_farBytes p.pa y.bytes)
  rw [hsent] at hexec
  refine ⟨_, q, _, _, hexec, hq, rfl, rfl, rfl, rfl, rfl, rfl, hkind, hnsec, hsrc, hdst, haddr, hcrc, hsecs, s.length_farBytes p.pa y.bytes,
    fun i hi => State.farBytes_getD (by rwa [hlen]) (by rwa [hlen]), hcheck.trans ?_⟩
  simp

end Sys2Proof.Machine

namespace Sys2Proof.Machine

/-! ## O55: links, flits and root ports -/

section
variable (s : State) (p : Fin 16) (f : BitVec 2048)

/-- A flit that the port does not accept changes nothing. -/
theorem exec_of_refused_flit :
    (s.takeFlit p f 0 = none → exec (.oxlinkRead p f) s = .next s) ∧ (s.takeFlit p f 1 = none → exec (.oxlinkWrite p f) s = .next s) ∧
    (s.takeFlit p f 2 = none → exec (.oxlinkCompletion p f) s = .next s) ∧ (s.takeFlit p f 3 = none → exec (.oxlinkMailbox p f) s = .next s) ∧
    (s.takeFlit p f 4 = none → exec (.oxlinkReduce p f) s = .next s) ∧ (s.takeFlit p f 5 = none → exec (.oxlinkBroadcast p f) s = .next s) := by
  refine ⟨fun h => ?_, fun h => ?_, fun h => ?_, fun h => ?_, fun h => ?_, fun h => ?_⟩
  · change execOxlinkRead p f s = _
    rw [execOxlinkRead, State.onFlit_of_none h]
  · change execOxlinkWrite p f s = _
    rw [execOxlinkWrite, State.onFlit_of_none h]
  · change execOxlinkCompletion p f s = _
    rw [execOxlinkCompletion, State.onFlit_of_none h]
  · change execOxlinkMailbox p f s = _
    rw [execOxlinkMailbox, State.onFlit_of_none h]
  · change execOxlinkReduce p f s = _
    rw [execOxlinkReduce, State.onFlit_of_none h]
  · change execOxlinkBroadcast p f s = _
    rw [execOxlinkBroadcast, State.onFlit_of_none h]

end

/-- Settles O55: each kind of flit and request by the lemma about its step. -/
theorem linksAndPorts : Obligations.LinksAndPorts := by
  refine ⟨cubeFlit_spec, fun s p f => ?_, fun s p rid va data n => ?_, farLoad_spec, fun s y p hfind hclus hparts hends hfree hidle hroute hremote hlen _ hfit =>
    farStore_spec s y p hfind hclus hparts hends hfree hidle hroute hremote hlen hfit⟩
  case refine_1 =>
    obtain ⟨hread, hwrite, hcompletion, hmailbox, hreduce, hbroadcast⟩ := exec_of_refused_flit s p f
    refine ⟨fun n => State.takeFlit_eq, hread, hwrite, hcompletion, hmailbox, hreduce, hbroadcast, fun x u h => oxlinkRead_spec h,
      fun x u _ fails brought hfails hbrought => ⟨fun h => oxlinkCompletion_spec hfails hbrought h, fun h => oxlinkReduce_spec hfails hbrought h⟩,
      fun n i hi x u h hhome => ?_⟩
    have hx := (State.eq_of_takeFlit h).1
    simp only [List.mem_cons, List.not_mem_nil, or_false, Prod.mk.injEq] at hi
    rcases hi with ⟨rfl, rfl⟩ | ⟨rfl, rfl⟩ | ⟨rfl, rfl⟩
    case inl | inr.inr =>
      obtain ⟨t, hexec, hbrought⟩ := flitSectors_spec hx hhome h (by decide)
      exact ⟨t, hexec, hbrought.arch, hbrought.frame, hbrought.bytes, hbrought.poison, fun h3 => absurd h3 (by decide)⟩
    case inr.inl =>
      obtain ⟨t, hexec, hbrought, hmessage⟩ := oxlinkMailbox_spec h hhome
      exact ⟨t, hexec, hbrought.arch, hbrought.frame, hbrought.bytes, hbrought.poison, fun _ => hmessage⟩
  case refine_2 =>
    refine ⟨inboundWrite_refused, fun q h hn hdram => ⟨fun hroute => ?_, fun hlost => ?_⟩, inboundRead_refused,
      fun ps h hroutes => ⟨inboundRead_answers h hroutes, fun e es hmissing => inboundRead_waits h hmissing⟩⟩
    · obtain ⟨t, hexec, hput⟩ := inboundWrite_put h hn hdram hroute
      exact ⟨t, hexec, hput.frame, hput.bytes, hput.wrote.core.arch, by rw [hput.wrote.same]⟩
    · obtain ⟨t, hexec, hlostPart⟩ := inboundWrite_lost h hn hlost
      exact ⟨t, hexec, hlostPart.mem, hlostPart.poison⟩

end Sys2Proof.Machine

namespace Sys2Proof.Machine

/-! ## A load from a peer in a slot that is not its own (O40)

O40 says of every bundle whose one instruction is a load that the load waits at the M slot. `Bundle.single` finds an instruction in
whichever slot holds it, and `State.emptyLines` answers the number of that slot. The decoder puts no load in the S slot, but the statement
asks nothing of the bundle. -/

/-- S1 names offset 0 of the scratchpad at position 1. -/
def peerAddress : Word := 0xF901000000000000

/-- Cores 0 and 1 of a die that is online run tasks of one launch; every line of core 1 is EMPTY. -/
def emptyPeer : State := { State.reset with
  booted := true,
  dies := State.reset.dies.set 0 { DieEnum.init with dieok := true },
  core := { Core.init 0 with task := some ⟨0, 0, 0⟩, status := .running, src := Arch.init.ws 1 peerAddress },
  others := [{ Core.init 1 with task := some ⟨0, 1, 1⟩, status := .running }] }

/-- LD.d S3, [S1]. -/
def peerLoad : Instr := .ld .d 3 1 0 ⟨0, 0, .core⟩

/-- A bundle that holds the load in its S slot. -/
def loadInSlotS : Bundle := { rm := false, bpi := 0, bpn := false, s := some peerLoad, m := none, x := none, c := none, g := none }

theorem emptyPeer_window : emptyPeer.window emptyPeer.core peerAddress 8 = .ok (.clus 1 0) := by rfl

/-- The load waits for line 0 of the peer at slot 0. -/
theorem emptyPeer_emptyLines : emptyPeer.emptyLines loadInSlotS = [(0, 0)] := by decide +kernel

/-- Refutes O40, by its clause on an EMPTY line of the peer: the statement has the load wait at slot 1 whichever slot of the bundle holds
it, and the model at slot 0 for a bundle that holds it in its S slot. -/
theorem not_peerAccessesArrive : ¬ Obligations.PeerAccessesArrive := by
  unfold Obligations.PeerAccessesArrive
  rintro ⟨hissue, -⟩
  obtain ⟨-, -, hpasses⟩ := hissue emptyPeer .d 3 1 0 ⟨0, 0, .core⟩ peerAddress 8 1 0 (by decide +kernel) rfl emptyPeer_window _ rfl
  obtain ⟨-, -, hempty, -⟩ := hpasses (by decide +kernel) (by decide +kernel)
  have hwaits : emptyPeer.emptyLines loadInSlotS = [(1, 0)] :=
    hempty loadInSlotS 0 rfl (Nat.le_refl 0) (Nat.zero_le _) (by decide +kernel) (fun k _ hk => absurd hk (Nat.not_lt_zero k))
  rw [emptyPeer_emptyLines] at hwaits
  exact absurd hwaits (by decide)

end Sys2Proof.Machine

namespace Sys2Proof.Machine

/-! ## Digests as bytes (R173) -/

theorem leVal_eq_foldr (bs : List Byte) : leVal bs = bs.foldr (fun b v => 256 * v + b.toNat) 0 := by
  induction bs with
  | nil => rfl
  | cons b r ih => rw [leVal, ih, List.foldr_cons, Nat.add_comm]

theorem beVal_eq_leVal_reverse (bs : List Byte) : beVal bs = leVal bs.reverse := by
  rw [leVal_eq_foldr, List.foldr_reverse, beVal]

theorem length_sha256 (bs : List Byte) : (sha256 bs).length = 32 := by
  simp [sha256, ShaSum.words, beBytes]

/-- The bytes of a digest read as a number give the same bytes back. -/
theorem digestBytes_ofNat_beVal {bs : List Byte} (h : bs.length = 32) : digestBytes (BitVec.ofNat 256 (beVal bs)) = bs := by
  have hlen : bs.reverse.length = 32 := by rw [List.length_reverse, h]
  have hlt : leVal bs.reverse < 2 ^ 256 := by
    have := leVal_lt bs.reverse
    rwa [hlen, show (256 : Nat) ^ 32 = 2 ^ 256 by norm_num] at this
  have hback := leBytes_leVal bs.reverse
  rw [hlen] at hback
  rw [digestBytes, BitVec.toNat_ofNat, beVal_eq_leVal_reverse, Nat.mod_eq_of_lt hlt, hback, List.reverse_reverse]

/-- The digest of the image that runs is that of the image in flash. -/
theorem Security.digestBytes_load (x : Security) : digestBytes x.load.fwdig = sha256 x.image.body :=
  digestBytes_ofNat_beVal (length_sha256 _)

theorem Security.imageOk_iff (x : Security) : x.imageOk = true ↔ sha256 x.image.key = digestBytes x.keydig ∧
    rsaVerify x.image.key (sha256 x.image.body) x.image.sig = true ∧ x.svnFloor.toNat ≤ x.image.svn.toNat := by
  rw [Security.imageOk, Bool.and_eq_true, Bool.and_eq_true, beq_iff_eq, decide_eq_true_iff, and_assoc]

/-! ## The journal of a start (R373) -/

section
variable {j : Journal} {n u : Nat}

theorem Journal.recall_note (a x : Nat) (t : Word) (k : Nat × Nat) :
    (j.note n u a x t).recall k = if k = (n, u) then some (a, x) else j.recall k := by
  unfold Journal.recall Journal.note
  split
  · next h => rw [h, List.find?_cons_of_pos (by simp)]; rfl
  · next h =>
    rw [List.find?_cons_of_neg (by simpa using fun e : (n, u) = k => h e.symm), List.find?_filter]
    congr 2
    funext m
    by_cases hm : m.1 = k
    · simp [hm, h]
    · simp [hm]

theorem Journal.choose_of_new (h : j.recall (n, u) = none) : j.choose n u = some 0 := by
  rw [Journal.choose, h]

theorem stepRequired_iff : stepRequired n = true ↔ n ≤ 3 ∨ 10 ≤ n := by
  simp [stepRequired]

theorem Journal.choose_of_required (h : stepRequired n = true) : ∃ a, j.choose n u = some a := by
  unfold Journal.choose
  split
  · exact ⟨0, rfl⟩
  · next a x _ => exact ⟨a, if_pos (.inr h)⟩

theorem bootFails_iff {r : BootReport} {x : Security} : bootFails r x n u = true ↔ (n, u) ∈ r.fails ∨ (n = 3 ∧ x.imageOk = false) := by
  simp [bootFails]

end

/-! ## What a start keeps -/

/-- A die further on in a start: its live cores are the same, and a live core that is offline stays so. -/
def DieEnum.BootsTo (x y : DieEnum) : Prop :=
  y.live = x.live ∧ ∀ c, x.live.getLsbD c = true → x.offline.getLsbD c = true → y.offline.getLsbD c = true

theorem DieEnum.BootsTo.of_eq {x y : DieEnum} (hlive : y.live = x.live) (hoff : y.offline = x.offline) : x.BootsTo y :=
  ⟨hlive, fun _ _ h => hoff ▸ h⟩

theorem DieEnum.BootsTo.refl (x : DieEnum) : x.BootsTo x := .of_eq rfl rfl

theorem DieEnum.BootsTo.trans {x y z : DieEnum} (h : x.BootsTo y) (h' : y.BootsTo z) : x.BootsTo z :=
  ⟨h'.1.trans h.1, fun c hlive hoff => h'.2 c (h.1 ▸ hlive) (h.2 c hlive hoff)⟩

/-- The package further on in a start: of what is fused or in flash only the image's version, its digest and the floor may change. -/
structure State.BootsTo (s t : State) : Prop where
  same : t = { s with inReset := t.inReset, journal := t.journal, sec := t.sec, dies := t.dies, ox := t.ox,
                      mem := t.mem, poison := t.poison, dispQueues := t.dispQueues }
  starts : t.journal.starts = s.journal.starts
  sec : t.sec = { s.sec with svn := t.sec.svn, fwdig := t.sec.fwdig, svnFloor := t.sec.svnFloor }
  dies : ∀ d < 8, (s.die d).BootsTo (t.die d)

namespace State.BootsTo
variable {s t u : State}

theorem refl (s : State) : s.BootsTo s := ⟨rfl, rfl, rfl, fun _ _ => .refl _⟩

theorem trans (h : s.BootsTo t) (h' : t.BootsTo u) : s.BootsTo u :=
  ⟨by rw [h'.same, h.same], h'.starts.trans h.starts, by rw [h'.sec, h.sec], fun d hd => (h.dies d hd).trans (h'.dies d hd)⟩

section
variable (h : s.BootsTo t)
include h

theorem core : t.core = s.core := (congrArg State.core h.same).trans rfl
theorem others : t.others = s.others := (congrArg State.others h.same).trans rfl
theorem launches : t.launches = s.launches := (congrArg State.launches h.same).trans rfl
theorem grade : t.grade = s.grade := (congrArg State.grade h.same).trans rfl
theorem serial : t.sec.serial = s.sec.serial := (congrArg Security.serial h.sec).trans rfl
theorem keydig : t.sec.keydig = s.sec.keydig := (congrArg Security.keydig h.sec).trans rfl
theorem idpriv : t.sec.idpriv = s.sec.idpriv := (congrArg Security.idpriv h.sec).trans rfl
theorem idpub : t.sec.idpub = s.sec.idpub := (congrArg Security.idpub h.sec).trans rfl
theorem idcert : t.sec.idcert = s.sec.idcert := (congrArg Security.idcert h.sec).trans rfl
theorem image : t.sec.image = s.sec.image := (congrArg Security.image h.sec).trans rfl

end

theorem ofJournal {j : Journal} (h : j.starts = s.journal.starts) : s.BootsTo { s with journal := j } := ⟨rfl, h, rfl, fun _ _ => .refl _⟩

theorem ofReset (b : Bool) : s.BootsTo { s with inReset := b } := ⟨rfl, rfl, rfl, fun _ _ => .refl _⟩

theorem ofOx (x : Oxlink) : s.BootsTo { s with ox := x } := ⟨rfl, rfl, rfl, fun _ _ => .refl _⟩

theorem ofDies {f : Nat → DieEnum → DieEnum} (h : ∀ (i : Nat) (x : DieEnum), x.BootsTo (f i x)) :
    s.BootsTo { s with dies := s.dies.mapFinIdx (fun i x _ => f i x) } := by
  refine ⟨rfl, rfl, rfl, fun d hd => ?_⟩
  rw [State.die_eq_getElem hd, State.die_eq_getElem hd, Vector.getElem_mapFinIdx]
  exact h d _

theorem onDie (d : Nat) {f : DieEnum → DieEnum} (h : ∀ x : DieEnum, x.BootsTo (f x)) : s.BootsTo (s.onDie d f) := by
  refine ofDies (f := fun i x => if i = d then f x else x) fun i x => ?_
  split
  · exact h x
  · exact .refl x

theorem dropLink (d k : Nat) : s.BootsTo (s.dropLink d k) := by
  refine (onDie d ?_).trans (onDie _ ?_) <;> exact fun _ => .of_eq rfl rfl

theorem failUnit (n u : Nat) : s.BootsTo (s.failUnit n u) := by
  unfold State.failUnit
  split
  · exact onDie u fun _ => .of_eq rfl rfl
  · exact onDie u fun _ => .of_eq rfl rfl
  · exact onDie _ fun x => ⟨rfl, fun c _ hoff => by rw [BitVec.getLsbD_or, hoff, Bool.true_or]⟩
  · exact onDie _ fun _ => .of_eq rfl rfl
  · exact dropLink _ _
  · exact ofOx _
  · exact refl s

theorem passUnit (n u : Nat) : s.BootsTo (s.passUnit n u) := by
  unfold State.passUnit
  split
  · exact ofOx _
  · exact refl s

theorem remapSlices : s.BootsTo s.remapSlices := ofDies fun _ _ => .of_eq rfl rfl

/-- Every live core of an offline die goes offline, and no other core changes. -/
theorem offlineDies : s.BootsTo s.offlineDies := by
  refine ⟨rfl, rfl, rfl, fun d hd => ?_⟩
  rw [State.die_eq_getElem hd, State.die_eq_getElem hd, State.offlineDies, Vector.getElem_map]
  split
  · exact .refl _
  · exact ⟨rfl, fun c hlive _ => hlive⟩

theorem writeCaps : s.BootsTo s.writeCaps := by
  obtain ⟨m, p, q, heq, -⟩ := s.writeCaps_eq
  rw [heq]
  exact ⟨rfl, rfl, rfl, fun _ _ => .refl _⟩

theorem load : s.BootsTo { s with sec := s.sec.load } := ⟨rfl, rfl, rfl, fun _ _ => .refl _⟩

end State.BootsTo

section
variable (s : State) (n u : Nat)

@[simp] theorem State.failUnit_sec : (s.failUnit n u).sec = s.sec := by
  unfold State.failUnit
  split <;> rfl

@[simp] theorem State.failUnit_journal : (s.failUnit n u).journal = s.journal := by
  unfold State.failUnit
  split <;> rfl

@[simp] theorem State.failUnit_inReset : (s.failUnit n u).inReset = s.inReset := by
  unfold State.failUnit
  split <;> rfl

@[simp] theorem State.passUnit_sec : (s.passUnit n u).sec = s.sec := by
  unfold State.passUnit
  split <;> rfl

@[simp] theorem State.passUnit_journal : (s.passUnit n u).journal = s.journal := by
  unfold State.passUnit
  split <;> rfl

@[simp] theorem State.passUnit_inReset : (s.passUnit n u).inReset = s.inReset := by
  unfold State.passUnit
  split <;> rfl

end

theorem State.die_powerOn_live (s : State) {d : Nat} (h : d < 8) : (s.powerOn.die d).live = (s.die d).live := by
  rw [State.die_eq_getElem h, State.die_eq_getElem h, State.powerOn, State.powerOff]
  simp only [Vector.getElem_map]

theorem dieOf_lt (c : Nat) : dieOf c < 8 := Nat.mod_lt _ (by decide)

/-- The units of a step depend on the live cores alone. -/
theorem State.stepUnits_congr {s t : State} (h : ∀ d < 8, (t.die d).live = (s.die d).live) (n : Nat) : t.stepUnits n = s.stepUnits n := by
  unfold State.stepUnits
  simp only [h _ (dieOf_lt _)]

theorem State.stepUnits_of_required {n : Nat} (h : stepRequired n = true) (s : State) : s.stepUnits n = [0] := by
  unfold State.stepUnits
  split
  case h_7 => rfl
  all_goals exact absurd h (by decide)

/-! ## One unit of a step (R372, R373) -/

/-- The journal `k` is `j` after entries for one unit, of which the last has status `x`. -/
def Journal.Notes (j : Journal) (n u a x : Nat) (k : Journal) : Prop :=
  k.starts = j.starts ∧ ∀ e, k.recall e = if e = (n, u) then some (a, x) else j.recall e

theorem Journal.Notes.trans {j k l : Journal} {n u a x y : Nat} (h : j.Notes n u a x k) (h' : k.Notes n u a y l) : j.Notes n u a y l := by
  refine ⟨h'.1.trans h.1, fun e => ?_⟩
  rw [h'.2, h.2]
  split <;> rfl

/-- The state with another journal. -/
def State.setJournal (s : State) (j : Journal) : State := { s with journal := j }

@[simp] theorem State.setJournal_sec (s : State) (j : Journal) : (s.setJournal j).sec = s.sec := rfl

/-- A note by what is remembered after it: its list of entries stays closed, because an equation that is checked by computing would count
the list's 4,096 places one by one. -/
theorem Boot.note_eq (b : Boot) (n u a x : Nat) : ∃ j, b.st.journal.Notes n u a x j ∧ b.note n u a x = ⟨b.st.setJournal j, b.stopped⟩ :=
  ⟨b.st.journal.note n u a x b.st.dtime, ⟨by rw [Journal.note], Journal.recall_note a x _⟩, rfl⟩

/-- What one unit's turn in a start that is under way can do: the unit is skipped, or its turn ends with the power, or it fails or passes. -/
inductive Boot.Turn (b : Boot) (r : BootReport) (stop : Option (Nat × Nat)) (n u : Nat) : Boot → Prop
  | skipped (a : Nat) (j : Journal) (hnotes : b.st.journal.Notes n u a 3 j) (hnone : b.st.journal.choose n u = none) :
      Turn b r stop n u ⟨(b.st.setJournal j).failUnit n u, b.stopped⟩
  | cut (a : Nat) (j : Journal) (hnotes : b.st.journal.Notes n u a 0 j) (hrun : b.st.journal.choose n u = some a) (hcut : stop = some (n, u)) :
      Turn b r stop n u ⟨b.st.setJournal j, true⟩
  | halted (a : Nat) (j : Journal) (hnotes : b.st.journal.Notes n u a 2 j) (hstop : stop ≠ some (n, u))
      (hfail : bootFails r b.st.sec n u = true) (hreq : stepRequired n = true) :
      Turn b r stop n u ⟨{ b.st.setJournal j with inReset := true }, true⟩
  | failed (a : Nat) (j : Journal) (hnotes : b.st.journal.Notes n u a 2 j) (hfail : bootFails r b.st.sec n u = true)
      (hopt : stepRequired n = false) : Turn b r stop n u ⟨(b.st.setJournal j).failUnit n u, b.stopped⟩
  | passed (a : Nat) (j : Journal) (hnotes : b.st.journal.Notes n u a 1 j) (hstop : stop ≠ some (n, u))
      (hpass : bootFails r b.st.sec n u = false) : Turn b r stop n u ⟨(b.st.setJournal j).passUnit n u, b.stopped⟩

section
variable {b : Boot} {r : BootReport} {stop : Option (Nat × Nat)} {n u : Nat}

theorem Boot.unit_of_stopped (h : b.stopped = true) : b.unit r stop n u = b := if_pos h

theorem Boot.unit_turn (h : b.stopped = false) : b.Turn r stop n u (b.unit r stop n u) := by
  unfold Boot.unit
  rw [if_neg (by simp [h])]
  split
  · next hnone =>
    obtain ⟨j, hnotes, heq⟩ := b.note_eq n u (((b.st.journal.recall (n, u)).map Prod.fst).getD 0) 3
    dsimp only
    rw [heq]
    exact .skipped _ j hnotes hnone
  · next a hrun =>
    obtain ⟨j, hnotes, heq⟩ := b.note_eq n u a 0
    dsimp only
    rw [heq]
    split
    · next hcut => exact .cut a j hnotes hrun hcut
    · next hstop =>
      split
      · next hfail =>
        obtain ⟨k, hends, heq⟩ := Boot.note_eq ⟨b.st.setJournal j, b.stopped⟩ n u a 2
        rw [heq]
        split
        · next hreq => exact .halted a k (hnotes.trans hends) hstop hfail hreq
        · next hopt => exact .failed a k (hnotes.trans hends) hfail (by simpa using hopt)
      · next hpass =>
        obtain ⟨k, hends, heq⟩ := Boot.note_eq ⟨b.st.setJournal j, b.stopped⟩ n u a 1
        rw [heq]
        exact .passed a k (hnotes.trans hends) hstop (Bool.eq_false_iff.mpr hpass)

theorem Boot.Turn.bootsTo {b' : Boot} (h : b.Turn r stop n u b') : b.st.BootsTo b'.st := by
  cases h with
  | skipped a j hnotes => exact (State.BootsTo.ofJournal hnotes.1).trans (.failUnit n u)
  | cut a j hnotes => exact .ofJournal hnotes.1
  | halted a j hnotes => exact (State.BootsTo.ofJournal hnotes.1).trans (.ofReset true)
  | failed a j hnotes => exact (State.BootsTo.ofJournal hnotes.1).trans (.failUnit n u)
  | passed a j hnotes => exact (State.BootsTo.ofJournal hnotes.1).trans (.passUnit n u)

theorem Boot.unit_bootsTo : b.st.BootsTo (b.unit r stop n u).st := by
  cases h : b.stopped
  · exact (Boot.unit_turn h).bootsTo
  · rw [Boot.unit_of_stopped h]; exact .refl _

theorem Boot.Turn.sec {b' : Boot} (h : b.Turn r stop n u b') : b'.st.sec = b.st.sec := by
  cases h with
  | skipped | failed => rw [State.failUnit_sec, State.setJournal_sec]
  | cut | halted => rfl
  | passed => rw [State.passUnit_sec, State.setJournal_sec]

/-- A unit's turn leaves what is remembered of every other unit. -/
theorem Boot.Turn.recall_of_ne {b' : Boot} (h : b.Turn r stop n u b') {e : Nat × Nat} (he : e ≠ (n, u)) :
    b'.st.journal.recall e = b.st.journal.recall e := by
  cases h with
  | skipped a j hnotes | failed a j hnotes => rw [State.failUnit_journal]; exact (hnotes.2 e).trans (if_neg he)
  | cut a j hnotes | halted a j hnotes => exact (hnotes.2 e).trans (if_neg he)
  | passed a j hnotes => rw [State.passUnit_journal]; exact (hnotes.2 e).trans (if_neg he)

/-- A start goes on after a unit at which no power is lost, if the unit passes or need not. -/
theorem Boot.Turn.going {b' : Boot} (h : b.Turn r stop n u b') (hgo : b.stopped = false) (hstop : stop ≠ some (n, u))
    (hpass : stepRequired n = true → bootFails r b.st.sec n u = false) : b'.stopped = false ∧ b'.st.inReset = b.st.inReset := by
  cases h with
  | skipped | failed => exact ⟨hgo, State.failUnit_inReset _ n u⟩
  | cut _ _ _ _ hcut => exact absurd hcut hstop
  | halted _ _ _ _ hfail hreq => exact absurd hfail (by simp [hpass hreq])
  | passed => exact ⟨hgo, State.passUnit_inReset _ n u⟩

/-- A step that must pass and fails leaves every die in reset. -/
theorem Boot.Turn.halts {b' : Boot} (h : b.Turn r none n u b') (hreq : stepRequired n = true) (hfail : bootFails r b.st.sec n u = true) :
    b'.stopped = true ∧ b'.st.inReset = true := by
  cases h with
  | skipped _ _ _ hnone =>
    obtain ⟨a, ha⟩ := Journal.choose_of_required (j := b.st.journal) (u := u) hreq
    exact absurd hnone (by simp [ha])
  | cut _ _ _ _ hcut => cases hcut
  | halted => exact ⟨rfl, rfl⟩
  | failed _ _ _ _ hopt => exact absurd hreq (by simp [hopt])
  | passed _ _ _ _ hpass => exact absurd hfail (by simp [hpass])

/-- The unit at which the power is lost keeps STATUS 0 with the alternate it ran with. -/
theorem Boot.Turn.cut_recall {b' : Boot} (h : b.Turn r (some (n, u)) n u b') (hnew : b.st.journal.recall (n, u) = none)
    (hpass : bootFails r b.st.sec n u = false) : b'.stopped = true ∧ b'.st.journal.recall (n, u) = some (0, 0) := by
  have hchosen : b.st.journal.choose n u = some 0 := Journal.choose_of_new hnew
  cases h with
  | skipped _ _ _ hnone => exact absurd hnone (by simp [hchosen])
  | cut a j hnotes hrun =>
    obtain rfl : 0 = a := Option.some.inj (hchosen.symm.trans hrun)
    exact ⟨rfl, (hnotes.2 _).trans (if_pos rfl)⟩
  | halted _ _ _ hstop => exact absurd rfl hstop
  | failed _ _ _ hfail => exact absurd hfail (by simp [hpass])
  | passed _ _ _ hstop => exact absurd rfl hstop

theorem State.offline_failUnit (s : State) (u : Nat) : ((s.failUnit 6 u).die (dieOf u)).offline.getLsbD (u % 32) = true := by
  rw [show s.failUnit 6 u = s.onDie (dieOf u) (fun x => { x with offline := x.offline ||| (1#32 <<< (u % 32)) }) from rfl,
    State.die_onDie _ (dieOf_lt u), if_pos rfl, BitVec.getLsbD_or]
  simp [Nat.mod_lt]

/-- A core whose test fails is offline. -/
theorem Boot.Turn.core_offline {b' : Boot} (h : b.Turn r none 6 u b') (hfail : (6, u) ∈ r.fails) :
    (b'.st.die (dieOf u)).offline.getLsbD (u % 32) = true := by
  cases h with
  | skipped | failed => exact State.offline_failUnit _ u
  | cut _ _ _ _ hcut => cases hcut
  | halted _ _ _ _ _ hreq => exact absurd hreq (by decide)
  | passed _ _ _ _ hpass => exact absurd (bootFails_iff.mpr (.inl hfail)) (by rw [hpass]; decide)

end

/-! ## The units of a step -/

/-- The turns of some units of a step. -/
def Boot.turns (b : Boot) (r : BootReport) (stop : Option (Nat × Nat)) (n : Nat) (us : List Nat) : Boot :=
  us.foldl (fun b u => b.unit r stop n u) b

/-- One step of a start: its units' turns and what follows them. -/
def Boot.step (b : Boot) (r : BootReport) (stop : Option (Nat × Nat)) (n : Nat) : Boot := (b.turns r stop n (b.st.stepUnits n)).after n

section
variable {b : Boot} {r : BootReport} {stop : Option (Nat × Nat)} {n : Nat} {us : List Nat}

@[simp] theorem Boot.turns_nil : b.turns r stop n [] = b := rfl

@[simp] theorem Boot.turns_cons {u : Nat} : b.turns r stop n (u :: us) = (b.unit r stop n u).turns r stop n us := rfl

theorem Boot.turns_of_stopped (h : b.stopped = true) : b.turns r stop n us = b := by
  induction us with
  | nil => rfl
  | cons u us ih => rw [Boot.turns_cons, Boot.unit_of_stopped h, ih]

theorem Boot.turns_bootsTo : b.st.BootsTo (b.turns r stop n us).st := by
  induction us generalizing b with
  | nil => exact .refl _
  | cons u us ih => exact Boot.unit_bootsTo.trans ih

theorem Boot.turns_recall_of_ne {k : Nat × Nat} (hk : k.1 ≠ n) : (b.turns r stop n us).st.journal.recall k = b.st.journal.recall k := by
  induction us generalizing b with
  | nil => rfl
  | cons u us ih =>
    rw [Boot.turns_cons, ih]
    cases h : b.stopped
    · exact (Boot.unit_turn h).recall_of_ne (fun e => hk (congrArg Prod.fst e))
    · rw [Boot.unit_of_stopped h]

theorem Boot.turns_going (hgo : b.stopped = false) (hstop : ∀ u ∈ us, stop ≠ some (n, u))
    (hpass : stepRequired n = true → ∀ u ∈ us, bootFails r b.st.sec n u = false) :
    (b.turns r stop n us).stopped = false ∧ (b.turns r stop n us).st.inReset = b.st.inReset ∧ (b.turns r stop n us).st.sec = b.st.sec := by
  induction us generalizing b with
  | nil => exact ⟨hgo, rfl, rfl⟩
  | cons u us ih =>
    have hturn := Boot.unit_turn (r := r) (stop := stop) (n := n) (u := u) hgo
    obtain ⟨hstep, hreset⟩ := hturn.going hgo (hstop u List.mem_cons_self) (fun h => hpass h u List.mem_cons_self)
    obtain ⟨hend, hreset', hsec'⟩ := ih hstep (fun v hv => hstop v (List.mem_cons_of_mem u hv))
      (fun h v hv => by rw [hturn.sec]; exact hpass h v (List.mem_cons_of_mem u hv))
    exact ⟨hend, hreset'.trans hreset, hsec'.trans hturn.sec⟩

/-- Power lost at a unit of this step. -/
theorem Boot.turns_cut {u : Nat} (hgo : b.stopped = false) (hu : u ∈ us) (hnew : b.st.journal.recall (n, u) = none)
    (hpass : ∀ v, bootFails r b.st.sec n v = false) :
    (b.turns r (some (n, u)) n us).stopped = true ∧ (b.turns r (some (n, u)) n us).st.journal.recall (n, u) = some (0, 0) := by
  induction us generalizing b with
  | nil => cases hu
  | cons v us ih =>
    have hturn := Boot.unit_turn (r := r) (stop := some (n, u)) (n := n) (u := v) hgo
    rw [Boot.turns_cons]
    by_cases huv : u = v
    · subst huv
      obtain ⟨hcut, hrecall⟩ := hturn.cut_recall hnew (hpass u)
      rw [Boot.turns_of_stopped hcut]
      exact ⟨hcut, hrecall⟩
    · obtain ⟨hstep, -⟩ := hturn.going hgo (by simpa using huv) (fun _ => hpass v)
      exact ih hstep ((List.mem_cons.mp hu).resolve_left huv) (by rw [hturn.recall_of_ne (by simpa using huv), hnew])
        (by rw [hturn.sec]; exact hpass)

/-- A core whose test fails in this step. -/
theorem Boot.turns_core_offline {u : Nat} (hgo : b.stopped = false) (hu : u ∈ us)
    (hfail : (6, u) ∈ r.fails) (hlive : (b.st.die (dieOf u)).live.getLsbD (u % 32) = true) :
    ((b.turns r none 6 us).st.die (dieOf u)).offline.getLsbD (u % 32) = true := by
  induction us generalizing b with
  | nil => cases hu
  | cons v us ih =>
    have hturn := Boot.unit_turn (r := r) (stop := none) (n := 6) (u := v) hgo
    have hlive' : ((b.unit r none 6 v).st.die (dieOf u)).live.getLsbD (u % 32) = true := by
      rw [(hturn.bootsTo.dies _ (dieOf_lt u)).1, hlive]
    by_cases huv : u = v
    · subst huv
      exact ((Boot.turns_bootsTo (b := b.unit r none 6 u)).dies _ (dieOf_lt u)).2 _ hlive' (hturn.core_offline hfail)
    · obtain ⟨hstep, -⟩ := hturn.going hgo nofun (fun h => absurd h (by decide))
      exact ih hstep ((List.mem_cons.mp hu).resolve_left huv) hlive'

/-! ## One step -/

theorem Boot.after_of_stopped (h : b.stopped = true) : b.after n = b := if_pos h

theorem Boot.after_bootsTo : b.st.BootsTo (b.after n).st := by
  unfold Boot.after
  split
  · exact .refl _
  · split
    · exact .load
    · exact .remapSlices
    · exact .offlineDies
    · exact .writeCaps
    · exact .refl _

/-- What follows a step leaves the journal and reset as they are, and after the firmware check the image runs. -/
theorem Boot.after_keeps (hgo : b.stopped = false) : (b.after n).stopped = false ∧ (b.after n).st.inReset = b.st.inReset ∧
    (b.after n).st.journal = b.st.journal ∧ (b.after n).st.sec = if n = 3 then b.st.sec.load else b.st.sec := by
  unfold Boot.after
  rw [if_neg (by simp [hgo])]
  split
  · exact ⟨hgo, rfl, rfl, rfl⟩
  · exact ⟨hgo, rfl, rfl, rfl⟩
  · exact ⟨hgo, rfl, rfl, rfl⟩
  · obtain ⟨m, p, q, heq, -⟩ := b.st.writeCaps_eq
    rw [heq]
    exact ⟨hgo, rfl, rfl, rfl⟩
  · next h3 _ _ _ => exact ⟨hgo, rfl, rfl, (if_neg h3).symm⟩

theorem Boot.step_of_stopped (h : b.stopped = true) : b.step r stop n = b := by
  rw [Boot.step, Boot.turns_of_stopped h, Boot.after_of_stopped h]

theorem Boot.step_bootsTo : b.st.BootsTo (b.step r stop n).st := Boot.turns_bootsTo.trans Boot.after_bootsTo

end

/-! ## The steps of a start -/

/-- The first `k` steps of a start. -/
def State.bootTo (s : State) (r : BootReport) (stop : Option (Nat × Nat)) (k : Nat) : Boot :=
  (List.range' 1 k).foldl (fun b n => b.step r stop n) ⟨s.powerOn, false⟩

/-- No step that must pass has failed up to step `k`. -/
def State.bootPasses (s : State) (r : BootReport) (k : Nat) : Prop :=
  ∀ n, 1 ≤ n → n ≤ k → stepRequired n = true → bootFails r s.sec n 0 = false

/-- A start that is under way after `k` steps. -/
structure State.Booting (s : State) (b : Boot) (k : Nat) : Prop where
  going : b.stopped = false
  inReset : b.st.inReset = false
  sec : b.st.sec = if 3 ≤ k then s.powerOn.sec.load else s.powerOn.sec
  fresh : s.journal.memory = [] → ∀ n u, k < n → b.st.journal.recall (n, u) = none

section
variable {s : State} {r : BootReport} {stop : Option (Nat × Nat)} {k : Nat}

theorem State.boot_eq_bootTo : s.boot r stop = s.bootTo r stop 11 := rfl

theorem State.bootTo_succ : s.bootTo r stop (k + 1) = (s.bootTo r stop k).step r stop (k + 1) := by
  rw [State.bootTo, List.range'_1_concat, List.foldl_append, Nat.add_comm 1 k]
  rfl

theorem State.bootTo_bootsTo : s.powerOn.BootsTo (s.bootTo r stop k).st := by
  induction k with
  | zero => exact .refl _
  | succ k ih => rw [State.bootTo_succ]; exact ih.trans Boot.step_bootsTo

theorem State.bootTo_stepUnits (n : Nat) : (s.bootTo r stop k).st.stepUnits n = s.stepUnits n :=
  State.stepUnits_congr (fun d hd => ((State.bootTo_bootsTo.dies d hd).1).trans (s.die_powerOn_live hd)) n

/-- Which of the later steps fails does not depend on the image that runs. -/
theorem State.Booting.bootFails {b : Boot} (h : s.Booting b k) (n u : Nat) (hn : k < n) : bootFails r b.st.sec n u = bootFails r s.sec n u := by
  by_cases h3 : n = 3
  · rw [h.sec, if_neg (by omega)]
    rfl
  · rw [Bool.eq_iff_iff, bootFails_iff, bootFails_iff]
    simp [h3]

theorem State.bootTo_booting (hstop : ∀ n u, stop = some (n, u) → k < n) (hpass : s.bootPasses r k) : s.Booting (s.bootTo r stop k) k := by
  induction k with
  | zero => exact ⟨rfl, rfl, rfl, fun h n u _ => by
      change s.journal.recall (n, u) = none
      rw [Journal.recall, h]; rfl⟩
  | succ k ih =>
    have hb := ih (fun n u h => Nat.lt_of_succ_lt (hstop n u h)) (fun n h1 hn => hpass n h1 (Nat.le_succ_of_le hn))
    obtain ⟨hgo, hreset, hsec⟩ := Boot.turns_going (r := r) (stop := stop) (n := k + 1) (us := (s.bootTo r stop k).st.stepUnits (k + 1)) hb.going
      (fun u _ h => absurd (hstop _ u h) (Nat.lt_irrefl _)) (fun hreq u hu => by
        rw [State.stepUnits_of_required hreq, List.mem_singleton] at hu
        rw [hb.bootFails _ _ (Nat.lt_succ_self k), hu]
        exact hpass _ (Nat.succ_pos k) (Nat.le_refl _) hreq)
    obtain ⟨hgo', hreset', hjournal, hsec'⟩ := Boot.after_keeps (n := k + 1) hgo
    rw [State.bootTo_succ]
    refine ⟨hgo', (hreset'.trans hreset).trans hb.inReset, ?sec, fun hmem n u hn => ?fresh⟩
    case sec =>
      rw [Boot.step, hsec', hsec, hb.sec]
      by_cases h3 : k + 1 = 3
      · rw [if_pos h3, if_neg (by omega), if_pos (by omega)]
      · rw [if_neg h3]
        exact if_congr (by omega) rfl rfl
    case fresh =>
      rw [Boot.step, hjournal, Boot.turns_recall_of_ne (by exact Nat.ne_of_gt hn)]
      exact hb.fresh hmem n u (Nat.lt_of_succ_lt hn)

/-- A start in which a step that must pass fails ends with every die in reset. -/
theorem State.bootTo_halts (hfail : ¬ s.bootPasses r k) : (s.bootTo r none k).stopped = true ∧ (s.bootTo r none k).st.inReset = true := by
  induction k with
  | zero => exact absurd (fun n h1 h0 => absurd h1 (by omega)) hfail
  | succ k ih =>
    rw [State.bootTo_succ]
    by_cases hpass : s.bootPasses r k
    · have hb := State.bootTo_booting (stop := none) nofun hpass
      have hlast : stepRequired (k + 1) = true ∧ Machine.bootFails r s.sec (k + 1) 0 = true := by
        by_contra hno
        refine hfail fun n h1 hn hreq => ?_
        rcases Nat.lt_or_eq_of_le hn with hlt | rfl
        · exact hpass n h1 (Nat.le_of_lt_succ hlt) hreq
        · simpa [hreq] using hno
      obtain ⟨hstopped, hreset⟩ := (Boot.unit_turn (u := 0) hb.going).halts hlast.1
        ((hb.bootFails (r := r) _ _ (Nat.lt_succ_self k)).trans hlast.2)
      rw [Boot.step, State.stepUnits_of_required hlast.1, Boot.turns_cons, Boot.turns_nil, Boot.after_of_stopped hstopped]
      exact ⟨hstopped, hreset⟩
    · rw [Boot.step_of_stopped (ih hpass).1]
      exact ih hpass

/-- What has happened by step `k` of a start that has stopped stands. -/
theorem State.bootTo_of_stopped (h : (s.bootTo r stop k).stopped = true) {m : Nat} (hm : k ≤ m) : s.bootTo r stop m = s.bootTo r stop k := by
  induction m, hm using Nat.le_induction with
  | base => rfl
  | succ m _ ih => rw [State.bootTo_succ, ih, Boot.step_of_stopped h]

end

/-! ## BOOT_START (R173, R372) -/

section
variable {s : State} {r : BootReport}

/-- What makes a start fail: a step that must pass, or a check on the image. -/
theorem State.not_bootPasses_iff : ¬ s.bootPasses r 11 ↔ (∃ n, (n, 0) ∈ r.fails ∧ 1 ≤ n ∧ n ≤ 11 ∧ (n ≤ 3 ∨ 10 ≤ n)) ∨
    ¬ (sha256 s.sec.image.key = digestBytes s.sec.keydig ∧ rsaVerify s.sec.image.key (sha256 s.sec.image.body) s.sec.image.sig = true ∧
      s.sec.svnFloor.toNat ≤ s.sec.image.svn.toNat) := by
  rw [← Security.imageOk_iff, Bool.not_eq_true]
  constructor
  · intro h
    by_contra hno
    obtain ⟨hreport, himage⟩ := not_or.mp hno
    refine h fun n h1 hn hreq => Bool.eq_false_iff.mpr fun hfail => ?_
    rcases bootFails_iff.mp hfail with hmem | ⟨-, himg⟩
    · exact hreport ⟨n, hmem, h1, hn, stepRequired_iff.mp hreq⟩
    · exact himage himg
  · rintro (⟨n, hmem, h1, hn, hreq⟩ | himg) hpass
    · exact absurd (bootFails_iff.mpr (.inl hmem)) (by rw [hpass n h1 hn (stepRequired_iff.mpr hreq)]; decide)
    · exact absurd (bootFails_iff.mpr (.inr ⟨rfl, himg⟩)) (by rw [hpass 3 (by decide) (by decide) (by decide)]; decide)

theorem State.boot_bootsTo {stop : Option (Nat × Nat)} : s.powerOn.BootsTo (s.boot r stop).st := by
  rw [State.boot_eq_bootTo]
  exact State.bootTo_bootsTo

theorem State.boot_inReset_iff : (s.boot r none).st.inReset = true ↔ ¬ s.bootPasses r 11 := by
  rw [State.boot_eq_bootTo]
  constructor
  · intro hreset hpass
    rw [(State.bootTo_booting (stop := none) nofun hpass).inReset] at hreset
    cases hreset
  · exact fun hfail => (State.bootTo_halts hfail).2

/-- A live core whose test fails in a start that goes on is offline after it. -/
theorem State.boot_core_offline (hpass : s.bootPasses r 11) {u : Nat} (hu : u < 256) (hlive : (s.die (dieOf u)).live.getLsbD (u % 32) = true)
    (hfail : (6, u) ∈ r.fails) : ((s.boot r none).st.die (dieOf u)).offline.getLsbD (u % 32) = true := by
  have hb := State.bootTo_booting (k := 5) (stop := none) nofun (fun n h1 hn => hpass n h1 (by omega))
  have hkept : ∀ k, 6 ≤ k → ((s.bootTo r none k).st.die (dieOf u)).live.getLsbD (u % 32) = true ∧
      ((s.bootTo r none k).st.die (dieOf u)).offline.getLsbD (u % 32) = true := by
    have hlives (k : Nat) : ((s.bootTo r none k).st.die (dieOf u)).live.getLsbD (u % 32) = true := by
      rw [(State.bootTo_bootsTo.dies _ (dieOf_lt u)).1, s.die_powerOn_live (dieOf_lt u), hlive]
    intro k hk
    refine ⟨hlives k, ?_⟩
    induction k, hk using Nat.le_induction with
    | base =>
      have hunit : u ∈ (s.bootTo r none 5).st.stepUnits 6 := by
        rw [State.bootTo_stepUnits]
        exact List.mem_filter.mpr ⟨List.mem_range.mpr hu, hlive⟩
      have hturns := Boot.turns_core_offline hb.going hunit hfail (hlives 5)
      rw [State.bootTo_succ]
      refine (Boot.after_bootsTo.dies _ (dieOf_lt u)).2 _ ?_ hturns
      rw [(Boot.turns_bootsTo.dies _ (dieOf_lt u)).1, hlives 5]
    | succ k _ ih =>
      rw [State.bootTo_succ]
      exact (Boot.step_bootsTo.dies _ (dieOf_lt u)).2 _ (hlives k) ih
  exact (hkept 11 (by decide)).2

theorem State.boot_sec (hpass : s.bootPasses r 11) : (s.boot r none).st.sec = s.powerOn.sec.load := by
  rw [State.boot_eq_bootTo, (State.bootTo_booting (stop := none) nofun hpass).sec, if_pos (by decide)]

theorem execBootStart_of_up (hboot : s.booted = true) (hreset : s.inReset = false) : execBootStart r s = .next s := by
  rw [execBootStart, hboot, hreset]
  rfl

theorem execBootStart_of_down (h : s.booted = false ∨ s.inReset = true) : execBootStart r s = .next { (s.boot r none).st with booted := true } := by
  rw [execBootStart, if_neg]
  rcases h with h | h <;> simp [h]

theorem bootStart_spec (h : s.booted = false ∨ s.inReset = true) : ∃ t, execBootStart r s = .next t ∧ t.booted = true ∧
    t.journal.starts = s.journal.starts + 1 ∧ t.core = Core.init 0 ∧ t.others = [] ∧ t.launches = [] ∧
    (t.inReset = true ↔ ((∃ n, (n, 0) ∈ r.fails ∧ 1 ≤ n ∧ n ≤ 11 ∧ (n ≤ 3 ∨ 10 ≤ n)) ∨
      ¬ (sha256 s.sec.image.key = digestBytes s.sec.keydig ∧ rsaVerify s.sec.image.key (sha256 s.sec.image.body) s.sec.image.sig = true ∧
        s.sec.svnFloor.toNat ≤ s.sec.image.svn.toNat))) ∧
    (t.inReset = false → t.sec.svn = s.sec.image.svn ∧ digestBytes t.sec.fwdig = sha256 s.sec.image.body ∧
      t.sec.svnFloor = (if s.sec.image.raise then s.sec.image.svn else s.sec.svnFloor) ∧
      ∀ d c, d < 8 → c < 32 → (s.die d).live.getLsbD c = true → (6, 32 * d + c) ∈ r.fails → s.journal.memory = [] →
        (t.die d).offline.getLsbD c = true) := by
  have hboots : s.powerOn.BootsTo (s.boot r none).st := State.boot_bootsTo
  have hhalts := State.boot_inReset_iff (s := s) (r := r)
  have hsec := State.boot_sec (s := s) (r := r)
  have hoffline (hpass : s.bootPasses r 11) (d c : Nat) (hd : d < 8) (hc : c < 32) (hlive : (s.die d).live.getLsbD c = true)
      (hfail : (6, 32 * d + c) ∈ r.fails) : ((s.boot r none).st.die d).offline.getLsbD c = true := by
    have hdie : dieOf (32 * d + c) = d := by unfold dieOf; omega
    have hcore : (32 * d + c) % 32 = c := by omega
    have hoff := State.boot_core_offline hpass (u := 32 * d + c) (by omega) (by rwa [hdie, hcore]) hfail
    rwa [hdie, hcore] at hoff
  rw [execBootStart_of_down h]
  generalize (s.boot r none).st = q at hboots hhalts hsec hoffline
  refine ⟨_, rfl, rfl, hboots.starts, hboots.core, hboots.others, hboots.launches, hhalts.trans State.not_bootPasses_iff, fun hgo => ?_⟩
  have hpass : s.bootPasses r 11 := by
    by_contra hno
    exact absurd (hhalts.mpr hno) (Bool.eq_false_iff.mp hgo)
  have hload := hsec hpass
  refine ⟨congrArg Security.svn hload, ?_, congrArg Security.svnFloor hload,
    fun d c hd hc hlive hfail _ => hoffline hpass d c hd hc hlive hfail⟩
  change digestBytes q.sec.fwdig = _
  rw [hload]
  exact s.powerOn.sec.digestBytes_load

/-! ## POWER_LOSS (R373) -/

/-- In a start in which nothing fails, the unit at which the power is lost keeps STATUS 0. -/
theorem State.boot_cut {n u : Nat} (hmem : s.journal.memory = []) (hreport : r.fails = []) (himage : s.sec.imageOk = true) (hlow : 1 ≤ n)
    (hhigh : n ≤ 11) (hu : u ∈ s.stepUnits n) : (s.boot r (some (n, u))).st.journal.recall (n, u) = some (0, 0) := by
  have hnone (m v : Nat) : bootFails r s.sec m v = false := by simp [bootFails, hreport, himage]
  obtain ⟨k, rfl⟩ : ∃ k, n = k + 1 := ⟨n - 1, by omega⟩
  have hb : s.Booting (s.bootTo r (some (k + 1, u)) k) k :=
    State.bootTo_booting (fun m v h => by cases h; exact Nat.lt_succ_self k) (fun m _ _ _ => hnone m 0)
  obtain ⟨hstopped, hrecall⟩ := Boot.turns_cut (r := r) (us := (s.bootTo r (some (k + 1, u)) k).st.stepUnits (k + 1)) hb.going
    (by rw [State.bootTo_stepUnits]; exact hu) (hb.fresh hmem _ u (Nat.lt_succ_self k))
    (fun v => (hb.bootFails _ v (Nat.lt_succ_self k)).trans (hnone _ v))
  have hstep : s.bootTo r (some (k + 1, u)) (k + 1) = (s.bootTo r (some (k + 1, u)) k).turns r (some (k + 1, u)) (k + 1)
      ((s.bootTo r (some (k + 1, u)) k).st.stepUnits (k + 1)) := by
    rw [State.bootTo_succ, Boot.step, Boot.after_of_stopped hstopped]
  rw [State.boot_eq_bootTo, State.bootTo_of_stopped (k := k + 1) (by rw [hstep]; exact hstopped) hhigh, hstep]
  exact hrecall

theorem powerLoss_spec (s : State) (n u : Nat) (r : BootReport) : ∃ t, execPowerLoss n ⟨u, r⟩ s = .next t ∧ t.booted = false ∧ t.inReset = false ∧
    t.mem = [] ∧ t.core = Core.init 0 ∧ t.others = [] ∧ t.launches = [] ∧ t.dtime = 0 ∧ t.sec.serial = s.sec.serial ∧ t.sec.keydig = s.sec.keydig ∧
    t.sec.idpriv = s.sec.idpriv ∧ t.sec.idpub = s.sec.idpub ∧ t.sec.idcert = s.sec.idcert ∧ t.sec.image = s.sec.image ∧ t.grade = s.grade ∧
    (s.booted = true → t.journal = s.journal ∧ t.sec.svnFloor = s.sec.svnFloor) ∧
    (s.booted = false → t.journal.starts = s.journal.starts + 1 ∧
      (s.journal.memory = [] → r.fails = [] → s.sec.imageOk = true → 1 ≤ n → n ≤ 11 → u ∈ s.stepUnits n → t.journal.recall (n, u) = some (0, 0))) := by
  rw [execPowerLoss]
  cases hboot : s.booted
  · have hboots : s.powerOn.BootsTo (s.boot r (some (n, u))).st := State.boot_bootsTo
    have hcut := State.boot_cut (s := s) (r := r) (n := n) (u := u)
    rw [if_neg Bool.false_ne_true]
    generalize (s.boot r (some (n, u))).st = q at hboots hcut
    exact ⟨_, rfl, rfl, rfl, rfl, rfl, rfl, rfl, rfl, hboots.serial, hboots.keydig, hboots.idpriv, hboots.idpub, hboots.idcert, hboots.image,
      hboots.grade, nofun, fun _ => ⟨hboots.starts, hcut⟩⟩
  · exact ⟨_, rfl, rfl, rfl, rfl, rfl, rfl, rfl, rfl, rfl, rfl, rfl, rfl, rfl, rfl, rfl, fun _ => ⟨rfl, rfl⟩, nofun⟩

end

/-! ## POWER_MANAGER_TICK (R149, R371) -/

/-- What the power manager has measured, with the factors of the units that are left. -/
def State.measured (s : State) (p : BitVec 16) (m : BitVec 8) : State :=
  { s with power := { s.power with pnow := p, tmax := m, acted := s.dtime,
                                   factor := s.power.factor.filter (fun f => (s.cores.filterMap s.unitOf).any (fun u => u.2 == f.1)) } }

/-- The factor of one unit changes, where one is picked. -/
def State.refactor (s : State) (pick : Option (Nat × Option Nat)) (f : Nat → Nat) : State :=
  match pick with
  | some u => s.setFactor u (f (s.factorOf u))
  | none => s

/-- The unit to slow: the least urgent of those that run faster than factor 1. -/
def State.slowPick (s : State) (us : List (Launch × (Nat × Option Nat))) : Option (Nat × Option Nat) :=
  pickUnit (fun a b => decide (b.1 < a.1) || (a.1 == b.1 && decide (b.2 < a.2))) (us.filter (fun u => decide (1 < s.factorOf u.2)))

/-- The unit to speed up: the most urgent of those that run slower than factor 16. -/
def State.fastPick (s : State) (us : List (Launch × (Nat × Option Nat))) : Option (Nat × Option Nat) :=
  pickUnit (fun a b => decide (a.1 < b.1) || (a.1 == b.1 && decide (a.2 < b.2))) (us.filter (fun u => decide (s.factorOf u.2 < 16)))

section
variable {s : State} {p : BitVec 16} {m : BitVec 8} {us : List (Launch × (Nat × Option Nat))} {l : Launch} {u : Nat × Option Nat}

theorem State.factorOf_setFactor (f : Nat) : (s.setFactor u f).factorOf u = f := by
  unfold State.factorOf State.setFactor
  dsimp only
  split
  · next h =>
    rw [List.find?_filter, List.find?_eq_none.mpr (by simp), h]
    rfl
  · rw [List.find?_cons_of_pos (by simp)]
    rfl

/-- A unit that is left keeps its factor. -/
theorem State.factorOf_measured (hu : s.cores.filterMap s.unitOf = [(l, u)]) : (s.measured p m).factorOf u = s.factorOf u := by
  unfold State.factorOf State.measured
  rw [hu, List.find?_filter]
  congr 3
  funext f
  by_cases h : f.1 = u
  · simp [h]
  · simp [h]

theorem State.refactor_eq (pick : Option (Nat × Option Nat)) (f : Nat → Nat) :
    ∃ x, s.refactor pick f = { s with power := { s.power with factor := x } } := by
  cases pick with
  | none => exact ⟨s.power.factor, rfl⟩
  | some u => exact ⟨_, rfl⟩

/-- The only unit is the one picked, when it may be. -/
theorem pickUnit_filter_singleton (lt : Nat × Nat → Nat × Nat → Bool) (may : Launch × (Nat × Option Nat) → Bool) :
    pickUnit lt ([(l, u)].filter may) = if may (l, u) then some u else none := by
  rw [List.filter_singleton]
  cases may (l, u) <;> rfl

theorem State.factorOf_refactor_if (q : Prop) [Decidable q] (f : Nat → Nat) :
    (s.refactor (if q then some u else none) f).factorOf u = if q then f (s.factorOf u) else s.factorOf u := by
  split
  · exact State.factorOf_setFactor _
  · rfl

theorem State.factorOf_slowed : (s.refactor (s.slowPick [(l, u)]) (fun f => f - 1)).factorOf u =
    if 1 < s.factorOf u then s.factorOf u - 1 else s.factorOf u := by
  rw [State.slowPick, pickUnit_filter_singleton, State.factorOf_refactor_if]
  simp only [decide_eq_true_eq]

theorem State.factorOf_sped : (s.refactor (s.fastPick [(l, u)]) (fun f => f + 1)).factorOf u =
    if s.factorOf u < 16 then s.factorOf u + 1 else s.factorOf u := by
  rw [State.fastPick, pickUnit_filter_singleton, State.factorOf_refactor_if]
  simp only [decide_eq_true_eq]

theorem execPowerManagerTick_idle (h : s.booted = false ∨ s.inReset = true ∨ s.dtime.toNat % 65536 ≠ 0) : execPowerManagerTick p m s = .next s := by
  refine if_pos ?_
  rcases h with h | h | h <;> simp [State.up, h]

/-- The journal's entry of a thermal stop. -/
def State.thermalEntry (s : State) : JEntry := ⟨s.journal.starts, 0xFF, 0, 0, Config.freeNat s.fresh 1 % 256, s.dtime⟩

/-- A journal with one more entry, the oldest of 4,096 overwritten. -/
def Journal.append (j : Journal) (e : JEntry) : Journal := { j with entries := (j.entries ++ [e]).drop ((j.entries ++ [e]).length - 4096) }

theorem Journal.getLast?_append (j : Journal) (e : JEntry) : (j.append e).entries.getLast? = some e := by
  rw [Journal.append, List.getLast?_drop, if_neg (by rw [List.length_append, List.length_singleton]; omega), List.getLast?_concat]

/-- What the power manager does once it has measured. -/
def State.managed (s : State) (us : List (Launch × (Nat × Option Nat))) (p : BitVec 16) (m : BitVec 8) : State :=
  if 110 ≤ m.toNat then { s with inReset := true, journal := s.journal.append s.thermalEntry }
  else if s.power.plim.toNat < p.toNat ∨ 100 ≤ m.toNat then s.refactor (s.slowPick us) (fun f => f - 1)
  else if 100 * p.toNat < 95 * s.power.plim.toNat ∧ m.toNat < 95 then s.refactor (s.fastPick us) (fun f => f + 1)
  else s

theorem State.managed_of_hot (h : 110 ≤ m.toNat) :
    s.managed us p m = { s with inReset := true, journal := s.journal.append s.thermalEntry } := if_pos h

theorem State.managed_slows (hcool : m.toNat < 110) (hover : s.power.plim.toNat < p.toNat ∨ 100 ≤ m.toNat) :
    s.managed us p m = s.refactor (s.slowPick us) (fun f => f - 1) := by
  rw [State.managed, if_neg (by omega), if_pos hover]

theorem State.managed_speeds (hlow : 100 * p.toNat < 95 * s.power.plim.toNat) (hcool : m.toNat < 95) :
    s.managed us p m = s.refactor (s.fastPick us) (fun f => f + 1) := by
  rw [State.managed, if_neg (by omega), if_neg (by omega), if_pos ⟨hlow, hcool⟩]

theorem State.measured_plim : (s.measured p m).power.plim = s.power.plim := rfl

theorem State.next_refactor (pick : Option (Nat × Option Nat)) (f : Nat → Nat) :
    (match pick with | some u => Host.Outcome.next (s.setFactor u (f (s.factorOf u))) | none => .next s : Out) = .next (s.refactor pick f) := by
  cases pick <;> rfl

theorem execPowerManagerTick_eq (hboot : s.booted = true) (hreset : s.inReset = false) (hdue : s.dtime.toNat % 65536 = 0)
    (hnew : s.power.acted ≠ s.dtime) : execPowerManagerTick p m s = .next ((s.measured p m).managed (s.cores.filterMap s.unitOf) p m) := by
  unfold execPowerManagerTick
  rw [if_neg (by simp [State.up, hboot, hreset, hdue, hnew])]
  by_cases hhot : 110 ≤ m.toNat
  · rw [State.managed_of_hot hhot]
    exact if_pos hhot
  · refine (if_neg hhot).trans ?_
    rw [State.managed, if_neg hhot]
    by_cases hover : s.power.plim.toNat < p.toNat ∨ 100 ≤ m.toNat
    · refine (if_pos hover).trans ((State.next_refactor _ (fun f => f - 1)).trans ?_)
      rw [State.measured_plim, if_pos hover]
      rfl
    · refine (if_neg hover).trans ?_
      rw [State.measured_plim, if_neg hover]
      by_cases hlow : 100 * p.toNat < 95 * s.power.plim.toNat ∧ m.toNat < 95
      · refine (if_pos hlow).trans ((State.next_refactor _ (fun f => f + 1)).trans ?_)
        rw [if_pos hlow]
        rfl
      · refine (if_neg hlow).trans ?_
        rw [if_neg hlow]
        rfl

/-- Short of a thermal stop only a clock factor changes. -/
theorem State.managed_of_cool (h : m.toNat < 110) : ∃ x, s.managed us p m = { s with power := { s.power with factor := x } } := by
  unfold State.managed
  rw [if_neg (by omega)]
  split
  · exact State.refactor_eq _ _
  · split
    · exact State.refactor_eq _ _
    · exact ⟨_, rfl⟩

theorem State.factorOf_managed_slows (hu : s.cores.filterMap s.unitOf = [(l, u)]) (hcool : m.toNat < 110)
    (hover : s.power.plim.toNat < p.toNat ∨ 100 ≤ m.toNat) :
    ((s.measured p m).managed (s.cores.filterMap s.unitOf) p m).factorOf u = (if 1 < s.factorOf u then s.factorOf u - 1 else s.factorOf u) := by
  rw [hu, State.managed_slows (s := s.measured p m) hcool hover, State.factorOf_slowed, State.factorOf_measured hu]

theorem State.factorOf_managed_speeds (hu : s.cores.filterMap s.unitOf = [(l, u)]) (hlow : 100 * p.toNat < 95 * s.power.plim.toNat)
    (hcool : m.toNat < 95) :
    ((s.measured p m).managed (s.cores.filterMap s.unitOf) p m).factorOf u = (if s.factorOf u < 16 then s.factorOf u + 1 else s.factorOf u) := by
  rw [hu, State.managed_speeds (s := s.measured p m) hlow hcool, State.factorOf_sped, State.factorOf_measured hu]

theorem powerManagerTick_spec (hboot : s.booted = true) (hreset : s.inReset = false) (hdue : s.dtime.toNat % 65536 = 0)
    (hnew : s.power.acted ≠ s.dtime) : ∃ t, execPowerManagerTick p m s = .next t ∧ t.power.pnow = p ∧ t.power.tmax = m ∧
    t.power.plim = s.power.plim ∧ t.power.acted = s.dtime ∧ t.mem = s.mem ∧ t.core = s.core ∧
    (110 ≤ m.toNat → t.inReset = true ∧ ∃ e, t.journal.entries.getLast? = some e ∧ e.step = 0xFF ∧ e.dtime = s.dtime) ∧
    (m.toNat < 110 → t.inReset = false ∧ t.journal = s.journal) ∧
    (∀ l u, s.cores.filterMap s.unitOf = [(l, u)] →
      (m.toNat < 110 → (s.power.plim.toNat < p.toNat ∨ 100 ≤ m.toNat) → t.factorOf u = (if 1 < s.factorOf u then s.factorOf u - 1 else s.factorOf u)) ∧
      (100 * p.toNat < 95 * s.power.plim.toNat → m.toNat < 95 →
        t.factorOf u = (if s.factorOf u < 16 then s.factorOf u + 1 else s.factorOf u))) := by
  refine ⟨_, execPowerManagerTick_eq hboot hreset hdue hnew, ?_⟩
  by_cases hhot : 110 ≤ m.toNat
  · rw [State.managed_of_hot hhot]
    exact ⟨rfl, rfl, rfl, rfl, rfl, rfl, fun _ => ⟨rfl, _, Journal.getLast?_append _ _, rfl, rfl⟩, fun h => absurd hhot (by omega),
      fun l u _ => ⟨fun h => absurd hhot (by omega), fun _ h => absurd hhot (by omega)⟩⟩
  · have hslow := @State.factorOf_managed_slows s p m
    have hfast := @State.factorOf_managed_speeds s p m
    obtain ⟨x, hx⟩ := State.managed_of_cool (s := s.measured p m) (us := s.cores.filterMap s.unitOf) (p := p) (Nat.lt_of_not_le hhot)
    rw [hx] at hslow hfast ⊢
    exact ⟨rfl, rfl, rfl, rfl, rfl, rfl, fun h => absurd h hhot, fun _ => ⟨hreset, rfl⟩, fun l u hu => ⟨hslow hu, hfast hu⟩⟩

end

/-! ## O54: start, loss of power and the power manager -/

/-- Settles O54: each event by the lemma about its step. -/
theorem bootAndPower : Obligations.BootAndPower :=
  ⟨fun _ _ => ⟨execBootStart_of_up, bootStart_spec⟩, powerLoss_spec, fun _ _ _ => ⟨execPowerManagerTick_idle, powerManagerTick_spec⟩⟩

end Sys2Proof.Machine

namespace Sys2Proof.Machine

/-! ## What a commit and a rollback touch -/

/-- `k` is `c` but for what the gate's entries may change: pool and lines with their records, stores that have left the gate and their
counters. -/
def Core.SameButGate (c k : Core) : Prop :=
  k = { c with pool := k.pool, badPool := k.badPool, lines := k.lines, plinks := k.plinks, recs := k.recs, stores := k.stores,
               held := k.held, cnt := k.cnt }

namespace Core.SameButGate
variable {c k m : Core}

theorem refl (c : Core) : c.SameButGate c := rfl

theorem trans (h : c.SameButGate k) (h' : k.SameButGate m) : c.SameButGate m := by
  unfold SameButGate at *
  rw [h', h]

/-- A loop over a core changes no more than its passes do. -/
theorem foldl {α : Type} {f : Core → α → Core} (hf : ∀ (c : Core) x, c.SameButGate (f c x)) (xs : List α) (c : Core) : c.SameButGate (xs.foldl f c) :=
  Core.foldl_inv f c.SameButGate (fun k x h => h.trans (hf k x)) xs c (refl c)

section
variable (h : c.SameButGate k)
include h

theorem arch : k.arch = c.arch := (congrArg Core.arch h).trans rfl
theorem ckpt : k.ckpt = c.ckpt := (congrArg Core.ckpt h).trans rfl
theorem loads : k.loads = c.loads := (congrArg Core.loads h).trans rfl
theorem threads : k.threads = c.threads := (congrArg Core.threads h).trans rfl
theorem ended : k.ended = c.ended := (congrArg Core.ended h).trans rfl

end
end Core.SameButGate

theorem Core.setLine_sameButGate (c : Core) (l : Nat) (st : LineCode) : c.SameButGate (c.setLine l st) := rfl

theorem Core.strikeLine_sameButGate (c : Core) (off : Nat) : c.SameButGate (c.strikeLine off) := by
  unfold Core.strikeLine
  dsimp only
  split <;> rfl

theorem Core.storeScratch_sameButGate (c : Core) (off : Nat) (bs : List Byte) : c.SameButGate (c.storeScratch off bs) := by
  refine Core.SameButGate.trans (k := c.writeScratch off bs) rfl (Core.SameButGate.foldl (fun c i => ?_) _ _)
  dsimp only
  split
  · exact Core.setLine_sameButGate c _ _
  · exact .refl c

theorem Core.landStore_sameButGate (c : Core) (off : Nat) (p : PStore) : c.SameButGate (c.landStore off p) :=
  (Core.storeScratch_sameButGate c off p.bytes).trans (Core.SameButGate.foldl (fun c _ => Core.strikeLine_sameButGate c _) _ _)

theorem Core.release_sameButGate (c : Core) (p : PStore) : c.SameButGate (c.release p) := by
  unfold Core.release
  split <;> rfl

/-- What an entry of the gate may change (R176). -/
theorem Core.applyGate_sameButGate (c : Core) (e : GateEnt) : c.SameButGate (c.applyGate e) := by
  cases e with
  | store p =>
    simp only [Core.applyGate]
    split
    · split
      · exact c.landStore_sameButGate _ p
      · exact c.release_sameButGate p
    · exact c.release_sameButGate p
  | line first n st => exact Core.SameButGate.foldl (fun c _ => c.setLine_sameButGate _ _) _ c
  | consume l =>
    simp only [Core.applyGate]
    split
    · exact c.setLine_sameButGate _ _
    · exact .refl c

/-- The core after the entries of its gate have taken effect. -/
def Core.drainGate (c : Core) : Core := c.gate.foldl Core.applyGate c

theorem Core.drainGate_sameButGate (c : Core) : c.SameButGate c.drainGate := Core.SameButGate.foldl Core.applyGate_sameButGate _ c

theorem Core.commit_eq (c : Core) : c.commit = { c.drainGate with
    gate := [], ckpt := c.drainGate.arch, loads := c.drainGate.loads.map (fun l => { l with committed := true }), atRp := true,
    arvSent := c.drainGate.arvSent.filter (fun t => t ≠ c.drainGate.ckpt.pc) } := rfl

@[simp] theorem Core.commit_threads (c : Core) : c.commit.threads = c.threads := c.drainGate_sameButGate.threads

@[simp] theorem Core.commit_ended (c : Core) : c.commit.ended = c.ended := c.drainGate_sameButGate.ended

/-- A bundle that ends its interval without the back-edge step moves on and commits (R175, R176). -/
theorem Core.complete_closing (c : Core) (h : c.closes = true) : c.complete false = ({ c with
    arch := { c.arch.countG with pc := c.npc.getD (c.arch.pc + 32) }, npc := none, ended := true, atRp := false, closes := false } : Core).commit := by
  simp [Core.complete, h, Arch.countG]

/-! ## TACK and TRET (O14) -/

/-- Settles O14: TRET is a bundle that ends its interval, with XPC as the target of its transfer. -/
theorem tackAndTretUnlock : Obligations.TackAndTretUnlock := by
  unfold Obligations.TackAndTretUnlock
  refine ⟨fun s => rfl, fun s => ⟨s.trapReturn, rfl, rfl, ?_⟩⟩
  unfold State.trapReturn
  rw [State.onC_core, Core.complete_closing _ rfl]
  refine ⟨Core.commit_atRp _, Core.commit_ended _, ?_, Core.commit_gate _, Core.commit_arch _⟩
  rw [Core.commit_ckpt, Core.commit_arch]

/-! ## Rollback (O18) -/

/-- A dropped load's last part returns, whatever it reads, and asks no other package for it (R178). -/
theorem execLoadReturn_of_dropped {s : State} {l : PLoad} {p : Part} (hfind : s.core.loads.find? (fun x => x.uid == l.uid) = some l)
    (hdropped : l.dropped = true) (hparts : l.parts = [p]) (hfree : s.core.loadBlocked l p = false) (hroute : s.noRoute s.core p.pa = false)
    (hdest : ∀ op v e, l.dest ≠ .atom op v e) : execLoadReturn l.uid s = .next (s.loadPart l p []) := by
  simp only [execLoadReturn, hfind, hparts, hfree, hroute, State.farWaits, hdropped, Bool.not_true, Bool.false_and, Bool.false_eq_true, if_false]

/-- Settles O18: a rollback writes down the shadow, and a dropped load leaves its core as `Core.endLoad_of_dropped` says. -/
theorem rollbackRestoresTheShadow : Obligations.RollbackRestoresTheShadow := by
  unfold Obligations.RollbackRestoresTheShadow
  intro c
  refine ⟨rfl, rfl, rfl, rfl, rfl, rfl, rfl, rfl, rfl, rfl, rfl, rfl, List.length_map _, fun l hl hc => ?committed, fun l hl hc => ?uncommitted,
    fun l bs hdropped => ?land, fun s l p hfind hdropped hparts hends hfree hroute hdest => ?returns, fun s => ⟨rfl, rfl⟩⟩
  case committed => exact List.mem_map.mpr ⟨l, hl, if_pos hc⟩
  case uncommitted => exact List.mem_map.mpr ⟨l, hl, if_neg (by rw [hc]; exact Bool.false_ne_true)⟩
  case land =>
    rw [Core.endLoad_of_dropped c hdropped]
    exact ⟨rfl, rfl⟩
  case returns =>
    obtain ⟨k, x, hsame, hlast⟩ := State.loadPart_last (s := s) (l := l) hends
    refine ⟨_, execLoadReturn_of_dropped hfind hdropped hparts hfree hroute hdest, ?_⟩
    rw [hlast, Core.endLoad_of_dropped _ hdropped]
    refine ⟨hsame.arch, hsame.ckpt, ?_⟩
    rw [← hsame.cnt]
    rfl

end Sys2Proof.Machine

namespace Sys2Proof.Machine

/-! ## The faults of a bundle, slot by slot -/

/-- The first index below `n` for which `f` answers. -/
theorem findSome?_range {α : Type} {f : Nat → Option α} {n k : Nat} {x : α} (hk : k < n) (hx : f k = some x) (hbefore : ∀ i < k, f i = none) :
    (List.range n).findSome? f = some x := by
  induction n with
  | zero => omega
  | succ n ih =>
    rw [List.range_succ, List.findSome?_append]
    rcases Nat.lt_succ_iff_lt_or_eq.mp hk with hlt | rfl
    · rw [ih hlt, Option.some_or]
    · have hnone : (List.range k).findSome? f = none := List.findSome?_eq_none_iff.mpr fun i hi => hbefore i (List.mem_range.mp hi)
      rw [hnone, Option.none_or, List.findSome?_singleton, hx]

section
variable {fs : List SlotFault} {g : SlotFault}

theorem find?_slot_eq_none {k : Nat} (h : ∀ f ∈ fs, f.slot ≠ k) : fs.find? (fun f => f.slot == k) = none :=
  find?_uid_eq_none (num := SlotFault.slot) h

/-- A fault that has its slot to itself is the one found for it. -/
theorem find?_slot_eq_some (hg : g ∈ fs) (halone : ∀ f ∈ fs, f.slot = g.slot → f = g) : fs.find? (fun f => f.slot == g.slot) = some g := by
  cases h : fs.find? (fun f => f.slot == g.slot) with
  | none => exact absurd (List.find?_eq_none.mp h g hg) (by simp)
  | some f => rw [halone f (List.mem_of_find?_eq_some h) (by simpa using List.find?_some h)]

/-- The first faulting slot is the least of the slot numbers (R179). -/
theorem firstFault_of_least (hg : g ∈ fs) (hslot : g.slot < 5) (hleast : ∀ f ∈ fs, f = g ∨ g.slot < f.slot) : firstFault fs = g := by
  have halone : ∀ f ∈ fs, f.slot = g.slot → f = g := fun f hf h => (hleast f hf).resolve_right (by omega)
  have hbefore : ∀ i < g.slot, fs.find? (fun f => f.slot == i) = none := fun i hi =>
    find?_slot_eq_none fun f hf => by rcases hleast f hf with rfl | h <;> omega
  rw [firstFault, List.head?_filterMap, findSome?_range hslot (find?_slot_eq_some hg halone) hbefore, Option.getD_some]

/-- Faults that have a slot each have a least one. -/
theorem exists_least_slot (hne : fs ≠ []) (halone : ∀ f ∈ fs, ∀ g ∈ fs, f.slot = g.slot → f = g) :
    ∃ g ∈ fs, ∀ f ∈ fs, f = g ∨ g.slot < f.slot := by
  obtain ⟨x, hx⟩ := List.exists_mem_of_ne_nil fs hne
  obtain ⟨g, hg, hmin⟩ := fs.toFinset.exists_min_image SlotFault.slot ⟨x, List.mem_toFinset.mpr hx⟩
  rw [List.mem_toFinset] at hg
  refine ⟨g, hg, fun f hf => ?_⟩
  rcases Nat.eq_or_lt_of_le (hmin f (List.mem_toFinset.mpr hf)) with h | h
  · exact .inl (halone f hf g hg h.symm)
  · exact .inr h

/-- TMASK has a bit for each faulting slot (R179). -/
theorem testBit_tmaskOf (fs : List SlotFault) (k : Nat) : (tmaskOf fs).testBit k = fs.any (fun f => f.slot == k) := by
  have hfold : ∀ m : Nat, (fs.foldl (fun m f => m ||| 2 ^ f.slot) m).testBit k = (m.testBit k || fs.any (fun f => f.slot == k)) := by
    induction fs with
    | nil => simp
    | cons f r ih => intro m; rw [List.foldl_cons, ih, Nat.testBit_or, Nat.testBit_two_pow, List.any_cons, Bool.or_assoc]; rfl
  simp [tmaskOf, hfold]

/-- The cause that TCAUSE names for a slot, 0 for one without a fault (R180). -/
def causeAt (fs : List SlotFault) (k : Nat) : Nat := match fs.find? (fun f => f.slot == k) with | some f => f.cause | none => 0

theorem causeAt_eq (hg : g ∈ fs) (halone : ∀ f ∈ fs, f.slot = g.slot → f = g) : causeAt fs g.slot = g.cause := by
  rw [causeAt, find?_slot_eq_some hg halone]

theorem causeAt_eq_zero {k : Nat} (h : ∀ f ∈ fs, f.slot ≠ k) : causeAt fs k = 0 := by
  rw [causeAt, find?_slot_eq_none h]

theorem causeAt_lt (h : ∀ f ∈ fs, f.cause < 256) (k : Nat) : causeAt fs k < 256 := by
  unfold causeAt
  split
  · exact h _ (List.mem_of_find?_eq_some ‹_›)
  · decide

/-- A sum of digits, each below 256, as the bytes of a number. -/
theorem sum_digits_eq_leVal {c : Nat → Nat} (hc : ∀ i, c i < 256) (n : Nat) :
    ((List.range n).map (fun i => c i * 256 ^ i)).sum = leVal ((List.range n).map (fun i => BitVec.ofNat 8 (c i))) := by
  induction n generalizing c with
  | zero => rfl
  | succ n ih =>
    have hshift : ((List.range n).map (fun i => c (i + 1) * 256 ^ (i + 1))).sum = 256 * ((List.range n).map (fun i => c (i + 1) * 256 ^ i)).sum := by
      rw [← List.sum_map_mul_left]
      exact congrArg List.sum (List.map_congr_left fun i _ => by rw [Nat.pow_succ]; ring)
    simp only [List.range_succ_eq_map, List.map_cons, List.map_map, List.sum_cons, leVal, Function.comp_def, Nat.succ_eq_add_one, hshift,
      ih fun i => hc (i + 1), Nat.pow_zero, Nat.mul_one, BitVec.toNat_ofNat, Nat.mod_eq_of_lt (hc 0)]

/-- Byte `k` of TCAUSE is the cause of slot `k` (R180). -/
theorem tcauseOf_byte (h : ∀ f ∈ fs, f.cause < 256) {k : Nat} (hk : k < 5) : (BitVec.ofNat 64 (tcauseOf fs)).toNat / 256 ^ k % 256 = causeAt fs k := by
  have hval : tcauseOf fs = leVal ((List.range 5).map (fun i => BitVec.ofNat 8 (causeAt fs i))) := sum_digits_eq_leVal (causeAt_lt h) 5
  generalize hbs : (List.range 5).map (fun i => BitVec.ofNat 8 (causeAt fs i)) = bs at hval
  have hlen : bs.length = 5 := by rw [← hbs, List.length_map, List.length_range]
  have hbyte : bs.getD k 0 = BitVec.ofNat 8 (causeAt fs k) := by simp [← hbs, hk]
  have hsmall : tcauseOf fs < 2 ^ 64 := Nat.lt_of_lt_of_le (hval ▸ leVal_lt bs) (by rw [hlen]; decide)
  rw [BitVec.toNat_ofNat, Nat.mod_eq_of_lt hsmall, hval]
  have hdigit := congrArg BitVec.toNat (getD_leBytes (n := bs.length) (hlen ▸ hk) (leVal bs))
  rw [leBytes_leVal, hbyte, BitVec.toNat_ofNat, BitVec.toNat_ofNat, Nat.mod_eq_of_lt (causeAt_lt h k)] at hdigit
  exact hdigit.symm

end

/-! ## Taking a trap -/

section
variable {s : State} {fs : List SlotFault}

/-- A trap while TLOCK is 1 is a double trap (R184). -/
theorem State.precise_of_locked (h : s.core.arch.trap.tlock = true) (x : Word) : s.precise fs x =
    s.fatal Cause.doubleTrap (firstFault fs).cause s.core.arch.trap.tmask.toNat s.core.arch.trap.xpc s.core.arch.trap.taddr s.core.arch.trap.tinfo
      (firstFault fs).taddr := by
  simp only [State.precise, h, if_true]

/-- With TLOCK 0 and a handler the core enters it, and no record is retired where no fault is a join's (R183, R186). -/
theorem State.precise_of_open (hlock : s.core.arch.trap.tlock = false) (hvec : s.core.arch.trap.tvec ≠ 0) (hjoin : ∀ f ∈ fs, f.join = none) (x : Word) :
    s.precise fs x = s.onC (fun c => c.enterTrap (tcauseOf fs) (tmaskOf fs) (firstFault fs).taddr (firstFault fs).tinfo x) := by
  simp only [State.precise, hlock, hvec, Bool.false_eq_true, if_false]
  exact foldl_eq_self fun f hf => by rw [hjoin f hf]; rfl

theorem State.takeTrap_of_locked (h : s.core.ckpt.trap.tlock = true) : s.takeTrap fs = (s.onC Core.rollback).precise fs s.core.ckpt.pc := by
  rcases State.takeTrap_cases s fs with ⟨-, heq⟩ | ⟨hopen, -⟩
  · exact heq
  · rw [h] at hopen; cases hopen

theorem State.takeTrap_of_precise (hlock : s.core.ckpt.trap.tlock = false) (h : ∀ f ∈ fs, isFatal f.cause = false ∧ isReplayable f.cause = false) :
    s.takeTrap fs = (s.onC Core.rollback).precise fs s.core.ckpt.pc := by
  rcases State.takeTrap_cases s fs with ⟨hlocked, -⟩ | ⟨-, ⟨f, hf, hfatal, -⟩ | ⟨-, ⟨f, hf, hreplay⟩, -⟩ | ⟨-, heq⟩⟩
  · rw [hlock] at hlocked; cases hlocked
  · rw [(h f hf).1] at hfatal; cases hfatal
  · rw [(h f hf).2] at hreplay; cases hreplay
  · exact heq

end

/-- Settles O16: a trap of none but precise causes enters the handler, with TCAUSE by `tcauseOf_byte` and TMASK by `testBit_tmaskOf`. -/
theorem preciseTrapEntry : Obligations.PreciseTrapEntry := by
  unfold Obligations.PreciseTrapEntry
  intro s fs hne hfs hnodup hlock hvec
  have halone : ∀ f ∈ fs, ∀ g ∈ fs, f.slot = g.slot → f = g := fun f hf g hg h => List.inj_on_of_nodup_map hnodup hf hg h
  have hcause : ∀ f ∈ fs, f.cause < 256 := fun f hf => (hfs f hf).2.1
  have htrap : s.takeTrap fs = (s.onC Core.rollback).onC (fun c =>
      c.enterTrap (tcauseOf fs) (tmaskOf fs) (firstFault fs).taddr (firstFault fs).tinfo s.core.ckpt.pc) := by
    rw [State.takeTrap_of_precise hlock fun f hf => (hfs f hf).2.2.2]
    exact State.precise_of_open hlock hvec (fun f hf => (hfs f hf).2.2.1) _
  obtain ⟨g, hg, hleast⟩ := exists_least_slot hne halone
  refine ⟨g, hg, fun f hf => ?_, _, htrap, rfl, ?_, fun k hk => ?_, fun f hf => ?_, fun k hk hfree => ?_, rfl, rfl, rfl, rfl⟩
  · rcases hleast f hf with rfl | h
    · exact Nat.le_refl _
    · exact Nat.le_of_lt h
  · rw [firstFault_of_least hg (hfs g hg).1 hleast]
    rfl
  · show (BitVec.ofNat 64 (tmaskOf fs)).getLsbD k = _
    rw [BitVec.getLsbD_ofNat, testBit_tmaskOf, decide_eq_true (by omega), Bool.true_and]
  · exact (tcauseOf_byte hcause (hfs f hf).1).trans (causeAt_eq hf fun x hx h => halone x hx f hf h)
  · exact (tcauseOf_byte hcause hk).trans (causeAt_eq_zero hfree)

/-! ## Trap queues -/

/-- A record that finds room is the last of the queue (R171). -/
theorem Queue.push_recs {q : Queue} {cap : Nat} (hcap : cap < 2 ^ 32) (hroom : q.count < cap) (hring : q.count ≤ q.ring.length) (r : LaneRec) :
    (q.push cap r).recs = q.recs ++ [r] := by
  have hcount : (q.prod + 1 - q.cons).toNat = q.count + 1 := by
    unfold Queue.count at hroom ⊢
    bv_omega
  unfold Queue.push
  rw [if_pos hroom]
  unfold Queue.recs
  rw [show Queue.count { q with ring := (q.ring ++ [r]).drop (q.ring.length + 1 - cap), prod := q.prod + 1 } = q.count + 1 from hcount]
  simp only [List.drop_drop, List.length_drop, List.length_append, List.length_singleton]
  rw [← List.drop_append_of_le_length (Nat.sub_le _ _)]
  congr 1
  omega

/-- Taking the oldest record leaves the others (R171). -/
theorem Queue.take_recs {q : Queue} (hsome : 0 < q.count) (hring : q.count ≤ q.ring.length) : (q.take (q.cons + 1)).count = q.count - 1 ∧
    (q.take (q.cons + 1)).recs = q.recs.drop 1 := by
  have hcount : (q.prod - (q.cons + 1)).toNat = q.count - 1 := by
    unfold Queue.count at hsome ⊢
    bv_omega
  refine ⟨hcount, ?_⟩
  unfold Queue.recs
  rw [show (q.take (q.cons + 1)).count = q.count - 1 from hcount, List.drop_drop]
  show q.ring.drop (q.ring.length - (q.count - 1)) = _
  congr 1
  omega

@[simp] theorem State.ctxQ_onCtxQ (s : State) (l : Nat) (f : QueuePair → QueuePair) : (s.onCtxQ l f).ctxQ l = f (s.ctxQ l) := by
  simp [State.ctxQ, State.onCtxQ, bindTo, assoc]

/-! ## A double trap (O17) -/

/-- A core that has rolled back keeps its registers when its context stops. -/
theorem Core.halt_arch {c : Core} (h : c.ckpt = c.arch) (l : Nat) : (c.halt l).arch = c.arch := by
  unfold Core.halt
  split
  · split
    · exact h
    · rfl
  · rfl

theorem State.fatal_ctxQueues (s : State) (cause cause2 tmask : Nat) (xpc taddr tinfo aux : Word) :
    (s.fatal cause cause2 tmask xpc taddr tinfo aux).ctxQueues =
      (s.sendFatal s.core (s.coreRec s.core 0x01 cause cause2 tmask xpc taddr tinfo aux 0)).ctxQueues := rfl

/-- A fatal cause puts its record on the fatal lane of the context (R187, R189). -/
theorem State.fatal_ctxQ (s : State) (cause cause2 tmask : Nat) (xpc taddr tinfo aux : Word) :
    ((s.fatal cause cause2 tmask xpc taddr tinfo aux).ctxQ s.core.ctx).fatal =
      (s.ctxQ s.core.ctx).fatal.push fatalCap (s.coreRec s.core 0x01 cause cause2 tmask xpc taddr tinfo aux 0) := by
  rw [State.ctxQ, State.fatal_ctxQueues]
  exact congrArg QueuePair.fatal (State.ctxQ_onCtxQ s s.core.ctx _)

/-- Settles O17: whatever its kind, the trap is a double trap's fatal record, and the stop leaves the shadow. -/
theorem doubleTrapIsFatal : Obligations.DoubleTrapIsFatal := by
  unfold Obligations.DoubleTrapIsFatal
  intro s fs hlock t ht
  rw [State.takeTrap_of_locked hlock, State.precise_of_locked (s := s.onC Core.rollback) hlock] at ht
  subst ht
  refine ⟨rfl, State.fatal_status _ _ _ _ _ _ _ _, Core.halt_arch rfl _,
    (s.onC Core.rollback).coreRec s.core.rollback 0x01 Cause.doubleTrap (firstFault fs).cause s.core.ckpt.trap.tmask.toNat s.core.ckpt.trap.xpc
      s.core.ckpt.trap.taddr s.core.ckpt.trap.tinfo (firstFault fs).taddr 0, rfl, rfl, rfl, rfl, rfl, rfl, rfl, ?_, fun hroom hring => ?_⟩
  · exact (BitVec.ofNat_toNat _ _).trans (BitVec.setWidth_eq _)
  · exact (congrArg Queue.recs (State.fatal_ctxQ (s.onC Core.rollback) _ _ _ _ _ _ _)).trans (Queue.push_recs (by decide) hroom hring _)

end Sys2Proof.Machine

namespace Sys2Proof.Machine

/-! ## The gate at commit (O19) -/

theorem assoc_unbind {α : Type} (xs : List (Nat × α)) (k j : Nat) : assoc (unbind xs k) j = if j = k then none else assoc xs j := by
  induction xs with
  | nil => simp [unbind, assoc]
  | cons x r ih =>
    unfold unbind at ih ⊢
    by_cases hx : x.1 = k <;> by_cases hj : x.1 = j <;> simp_all [assoc]

theorem assoc_bindTo {α : Type} (xs : List (Nat × α)) (k : Nat) (v : α) (j : Nat) : assoc (bindTo xs k v) j = if j = k then some v else assoc xs j := by
  show (if k = j then some v else assoc (unbind xs k) j) = _
  rw [assoc_unbind]
  by_cases hj : j = k
  · rw [if_pos hj.symm, if_pos hj]
  · rw [if_neg (Ne.symm hj), if_neg hj, if_neg hj]

/-- Setting a line's state sets that of no other (R31). -/
theorem Core.line_setLine (c : Core) (l : Nat) (st : LineCode) (j : Nat) : (c.setLine l st).line j = if j = l then st else c.line j := by
  show (assoc (if st = .empty then unbind c.lines l else bindTo c.lines l st) j).getD .empty = _
  split
  · rename_i hst
    rw [assoc_unbind, hst]
    split <;> rfl
  · rw [assoc_bindTo]
    split <;> rfl

/-- LINE's entry sets its run of lines (R176, R256). -/
theorem Core.line_applyGate_line (c : Core) (first n : Nat) (st : LineCode) (l : Nat) :
    (c.applyGate (.line first n st)).line l = if first ≤ l ∧ l < first + n then st else c.line l := by
  show ((List.range n).foldl (fun (c : Core) i => c.setLine (first + i) st) c).line l = _
  induction n with
  | zero => rw [if_neg (by omega)]; rfl
  | succ n ih =>
    rw [List.range_succ, List.foldl_append, List.foldl_cons, List.foldl_nil, Core.line_setLine, ih]
    by_cases hl : l = first + n
    · rw [if_pos hl, if_pos (by omega)]
    · by_cases hin : first ≤ l ∧ l < first + n
      · rw [if_neg hl, if_pos hin, if_pos (by omega)]
      · rw [if_neg hl, if_neg hin, if_neg (by omega)]

/-- A consume read's entry empties its line when that is FULL (R176, R31). -/
theorem Core.line_applyGate_consume (c : Core) (k l : Nat) :
    (c.applyGate (.consume k)).line l = if l = k ∧ c.line k = .full then .empty else c.line l := by
  by_cases hfull : c.line k = .full
  · simp only [Core.applyGate, hfull, if_true, Core.line_setLine, and_true]
  · simp only [Core.applyGate, hfull, if_false, and_false]

section
variable {c : Core} {p : PStore}

theorem Core.applyGate_store_mem (h : p.scratch = none) : c.applyGate (.store p) = c.release p := by
  simp only [Core.applyGate, h]

/-- A store to the own scratchpad is performed where nothing holds it back (R90). -/
theorem Core.applyGate_store_free {off : Nat} (hscratch : p.scratch = some off) (hheld : c.held = []) (hfree : c.storeBlocked p peerPart = false) :
    c.applyGate (.store p) = c.landStore off p := by
  simp only [Core.applyGate, hscratch, hheld, hfree]
  rfl

theorem Core.applyGate_store_blocked {off : Nat} (hscratch : p.scratch = some off) (hblocked : c.storeBlocked p peerPart = true) :
    c.applyGate (.store p) = c.release p := by
  simp only [Core.applyGate, hscratch, hblocked, Bool.not_true, Bool.and_false, Bool.false_eq_true, if_false]

theorem Core.drainGate_single {e : GateEnt} (h : c.gate = [e]) : c.drainGate = c.applyGate e := by
  rw [Core.drainGate, h]
  rfl

/-- A store that leaves the gate with room in its stream's counter joins the stores under way (R101, R102). -/
theorem Core.release_spec (hheld : c.held = []) (hroom : c.cnt[p.ord.stream.val] + p.count ≤ 63) :
    (c.release p).stores = c.stores ++ [p] ∧ (c.release p).held = [] ∧ (c.release p).pool = c.pool ∧
    ∀ k : Fin 8, (c.release p).cnt[k.val] = if k = p.ord.stream then c.cnt[k.val] + p.count else c.cnt[k.val] := by
  rw [Core.release_room c p hheld hroom]
  refine ⟨rfl, hheld, rfl, fun k => ?_⟩
  show (c.cnt.set p.ord.stream.val (c.cnt[p.ord.stream.val] + p.count))[k.val] = _
  rw [Vector.getElem_set]
  by_cases hk : k = p.ord.stream
  · subst hk; simp
  · rw [if_neg hk, if_neg fun h => hk (Fin.ext h.symm)]

end

/-- Settles O19: a commit's fields are those of `Core.drainGate`, which each entry changes as its own lemma says. -/
theorem commitReleasesTheGate : Obligations.CommitReleasesTheGate := by
  unfold Obligations.CommitReleasesTheGate
  refine ⟨fun c => ⟨rfl, c.commit_ckpt, c.commit_arch, rfl, fun l hl => ?loads⟩,
    fun c p off hgate hscratch hheld => ⟨fun hfree => ?free, fun hblocked hroom => ?blocked⟩,
    fun c p q hheld hgate hp hq hne hroomp hroomq => ?two, fun c first n st hgate l => ?line, fun c k hgate l => ?consume⟩
  case loads =>
    obtain ⟨k, -, rfl⟩ := List.mem_map.mp hl
    rfl
  case free =>
    have hdrain : c.drainGate = c.landStore off p := (Core.drainGate_single hgate).trans (Core.applyGate_store_free hscratch hheld hfree)
    simp only [Core.commit_eq, hdrain, Core.landStore_pool, Core.landStore_stores, Core.landStore_cnt, and_self, and_true]
    exact ⟨Mem.get_put_same _ _ _, Mem.get_put_other _ _ _⟩
  case blocked =>
    have hdrain : c.drainGate = c.release p := (Core.drainGate_single hgate).trans (Core.applyGate_store_blocked hscratch hblocked)
    obtain ⟨hstores, -, hpool, hcnt⟩ := Core.release_spec hheld hroom
    simp only [Core.commit_eq, hdrain]
    exact ⟨hpool, hstores, (hcnt _).trans (if_pos rfl)⟩
  case two =>
    have hdrain : c.drainGate = (c.release p).release q := by
      rw [Core.drainGate, hgate, List.foldl_cons, List.foldl_cons, List.foldl_nil, Core.applyGate_store_mem hp, Core.applyGate_store_mem hq]
    obtain ⟨hstores, hnone, hpool, hcnt⟩ := Core.release_spec hheld hroomp
    obtain ⟨hstores', -, hpool', hcnt'⟩ := Core.release_spec (p := q) hnone (by rw [hcnt, if_neg hne.symm]; exact hroomq)
    simp only [Core.commit_eq, hdrain]
    refine ⟨?_, ?_, hpool'.trans hpool⟩
    · rw [hstores', hstores, List.append_assoc, List.singleton_append]
    · rw [hcnt', if_neg hne, hcnt, if_pos rfl]
  case line => exact (congrArg (fun k : Core => k.line l) (Core.drainGate_single hgate)).trans (c.line_applyGate_line first n st l)
  case consume => exact (congrArg (fun k : Core => k.line l) (Core.drainGate_single hgate)).trans (c.line_applyGate_consume k l)

/-! ## Bundles that cannot be issued (O47) -/

/-- A mask of slots, as the statement counts them off. -/
theorem maskFaults_eq (m : Nat) (cause : Cause) (taddr : Word) :
    maskFaults m cause taddr = ([0, 1, 2, 3, 4].filter (fun k => m.testBit k)).map (fun k => ⟨k, cause, taddr, 0, none⟩) := by
  unfold maskFaults
  refine congrArg (List.map _) (List.filter_congr fun k _ => ?_)
  rw [Nat.testBit_eq_decide_div_mod_eq]
  rfl

section
variable {s : State}

/-! The record of a fetch that has lost its way. -/

theorem State.lostFetch_of_outside (h : wbits s.core.arch.pc 63 57 ≠ 0) : s.lostFetch = s := by
  simp only [State.lostFetch, h, ne_eq, not_false_eq_true, if_true]

theorem State.lostFetch_of_found {p : Phys} (h : wbits s.core.arch.pc 63 57 = 0)
    (hfound : s.translate (s.asidOf s.core) s.core.arch.pc.toNat .fetch = .ok p) :
    s.lostFetch = if s.noRoute s.core p.pa = true then s.routeError s.core.arch.pc p.pa else s := by
  simp only [State.lostFetch, h, ne_eq, not_true_eq_false, if_false, hfound, State.lostRecord, List.find?_cons, List.find?_nil]
  cases s.noRoute s.core p.pa <;> rfl

theorem State.lostFetch_of_walk {e : Cause} (h : wbits s.core.arch.pc 63 57 = 0)
    (hfound : s.translate (s.asidOf s.core) s.core.arch.pc.toNat .fetch = .error e) : s.lostFetch = s.walkRecord s.core.arch.pc := by
  simp only [State.lostFetch, h, ne_eq, not_true_eq_false, if_false, hfound]

/-- The table entries that a walk for an address of the core in focus may lose (R367). -/
def State.wayLost (s : State) (a : Nat) : Option Nat := (s.walkLost (s.asidOf s.core) a).or (s.walkLost (s.asidOf s.core) (a + 127))

theorem State.walkRecord_of_lost {va : Word} {a pa : Nat} (hwin : s.window s.core va 1 = .ok (.mem a)) (hlost : s.wayLost a = some pa) :
    s.walkRecord va = s.routeError va pa := by
  unfold State.wayLost at hlost
  simp only [State.walkRecord, hwin, hlost]

theorem State.walkRecord_of_reached {va : Word} (h : ∀ a, s.window s.core va 1 = .ok (.mem a) → s.wayLost a = none) : s.walkRecord va = s := by
  unfold State.walkRecord
  split
  · rename_i a hwin
    have hnone := h a hwin
    unfold State.wayLost at hnone
    rw [hnone]
  · rfl

theorem execBundleFetchFault_of_error {c : Cause} (h : s.fetch = .error c) : execBundleFetchFault s =
    .next (s.lostFetch.takeTrap ([0, 1, 2, 3, 4].map (fun k => ⟨k, c, s.core.arch.pc, 0, none⟩))) := by
  simp only [execBundleFetchFault, h]
  rfl

theorem execBundleFetchFault_of_ok {w : Nat} (h : s.fetch = .ok w) : execBundleFetchFault s = .next s := by
  simp only [execBundleFetchFault, h]

theorem execIllegal_of_named {w : Nat} {m : BitVec 5} (h : s.fetch = .ok w) (hdecode : decodeBundle w = .error m.toNat) :
    execIllegal m s = .next (s.takeTrap (maskFaults m.toNat Cause.illegal 0)) := by
  simp only [execIllegal, h, hdecode, if_true]

/-! Stalls on EMPTY lines. -/

theorem Core.atLimit_iff (c : Core) : c.atLimit = true ↔ c.arch.linewait ≠ 0 ∧ c.arch.linewait.toNat ≤ c.stall := by
  simp [Core.atLimit]

theorem Core.atLimit_of_below {c : Core} (h : c.arch.linewait = 0 ∨ c.stall < c.arch.linewait.toNat) : c.atLimit = false := by
  rw [Bool.eq_false_iff, ne_eq, Core.atLimit_iff]
  rcases h with h | h
  · exact fun hc => hc.1 h
  · exact fun hc => Nat.not_le_of_lt h hc.2

section
variable {b : Bundle} {ws : List (Nat × Nat)}

theorem State.issueBundle_of_stall {run : Instr → State → Out} (hstop : (s.ready b).core.stopsHere = false) (hwatch : (s.ready b).core.watching = none)
    (hplan : (s.ready b).plan b = .lines ws) (hlimit : (s.ready b).core.atLimit = false) : s.issueBundle run b = .next (s.ready b) := by
  simp only [State.issueBundle, hstop, hwatch, hplan, hlimit, Bool.false_eq_true, if_false]

theorem State.stalls_of_lines (hrun : s.core.status = .running) (hhere : s.bundleHere = some b) (hstop : (s.ready b).core.stopsHere = false)
    (hwatch : (s.ready b).core.watching = none) (hplan : (s.ready b).plan b = .lines ws) : s.stalls = true := by
  simp [State.stalls, hrun, hhere, hstop, hwatch, hplan]

theorem State.stalls_of_go (hhere : s.bundleHere = some b) (hplan : (s.ready b).plan b = .go) : s.stalls = false := by
  simp [State.stalls, hhere, hplan]

theorem execStallLimit_eq (hrun : s.core.status = .running) (hhere : s.bundleHere = some b) (hplan : (s.ready b).plan b = .lines ws) :
    execStallLimit s = if s.core.atLimit = true then .next ((s.ready b).takeTrap (limitFaults ws)) else .next s := by
  simp only [execStallLimit, hrun, hhere, hplan]

end

/-! A clk at a core. -/

/-- A core whose monitor waits for nothing counts no wait (R110). -/
theorem Core.passClk_of_unwatched {c : Core} (h : c.watching = none) (stalls : Bool) : c.passClk stalls = { c with
    ran := c.ran + 1, stallc := if stalls then c.stallc + 1 else c.stallc, stall := if stalls then c.stall + 1 else c.stall } := by
  have hmonitor : c.monitor.map (fun m => if m.cause.isNone then { m with waited := m.waited + 1 } else m) = c.monitor := by
    unfold Core.watching at h
    cases hm : c.monitor with
    | none => rfl
    | some m =>
      rw [hm, Option.filter_eq_none_iff] at h
      rw [Option.map_some, if_neg (h m rfl)]
  simp only [Core.passClk, hmonitor]

theorem State.tick_core (s : State) : s.tick.core = s.clk s.core := rfl

theorem State.clk_of_other (h : s.ownClk s.core = false) : s.clk s.core = s.core := by
  simp [State.clk, h]

theorem State.clk_of_own (hrun : s.core.status = .running) (h : s.ownClk s.core = true) : s.clk s.core = s.core.passClk s.stalls := by
  have hfocus : s.focus s.core.id = s := if_pos rfl
  simp [State.clk, hrun, h, hfocus]

end

/-- Settles O47: each event by the lemma about it, and a clk by `State.clk_of_own`. -/
theorem wholeBundleFaults : Obligations.WholeBundleFaults := by
  unfold Obligations.WholeBundleFaults
  refine ⟨fun s => ⟨fun c hfetch found hfound => ?fetch, fun w hfetch => execBundleFetchFault_of_ok hfetch⟩,
    fun s w m hfetch hdecode => ?illegal, fun s b ws r hr hstop hwatch hplan hbelow => ?wait,
    fun s hrun hwatch => ⟨State.clk_of_other, fun hown b ws hhere hstop hready => ⟨fun hplan => ?stalls, fun hplan => ?goes⟩⟩,
    fun s b ws hrun hhere hplan => ⟨fun hset hreached => ?limit, fun hbelow => ?below⟩⟩
  case fetch =>
    subst hfound
    refine ⟨_, execBundleFetchFault_of_error hfetch, State.lostFetch_of_outside, fun p hfound hroute => ?_, fun e hfound hreached => ?_,
      fun hin => ⟨fun p hfound hlost => ?_, fun e a pa hfound hwin hlost => ?_⟩⟩
    · by_cases hin : wbits s.core.arch.pc 63 57 = 0
      · rw [State.lostFetch_of_found hin hfound, hroute]
        rfl
      · exact State.lostFetch_of_outside hin
    · by_cases hin : wbits s.core.arch.pc 63 57 = 0
      · exact (State.lostFetch_of_walk hin hfound).trans (State.walkRecord_of_reached hreached)
      · exact State.lostFetch_of_outside hin
    · rw [State.lostFetch_of_found hin hfound, if_pos hlost]
    · exact (State.lostFetch_of_walk hin hfound).trans (State.walkRecord_of_lost hwin hlost)
  case illegal =>
    refine (execIllegal_of_named hfetch hdecode).trans ?_
    rw [maskFaults_eq]
    rfl
  case wait =>
    subst hr
    exact State.issueBundle_of_stall hstop hwatch hplan (Core.atLimit_of_below hbelow)
  case stalls =>
    rw [State.tick_core, State.clk_of_own hrun hown, Core.passClk_of_unwatched hwatch, State.stalls_of_lines hrun hhere hstop hready hplan]
    rfl
  case goes =>
    rw [State.tick_core, State.clk_of_own hrun hown, Core.passClk_of_unwatched hwatch, State.stalls_of_go hhere hplan]
    rfl
  case limit =>
    refine (execStallLimit_eq hrun hhere hplan).trans ?_
    rw [if_pos ((Core.atLimit_iff _).mpr ⟨hset, hreached⟩)]
    rfl
  case below =>
    refine (execStallLimit_eq hrun hhere hplan).trans ?_
    rw [Core.atLimit_of_below hbelow]
    rfl

end Sys2Proof.Machine

namespace Sys2Proof.Machine

/-! ## Which core stays in focus -/

theorem State.focus_of_focused {s : State} {n : Nat} (h : s.core.id = n) : s.focus n = s := if_pos h

/-- A core has the number under which it is brought into focus. -/
theorem State.focus_coreId (s : State) (n : Nat) : (s.focus n).core.id = n := by
  unfold State.focus
  split
  · assumption
  · exact s.coreAt_id n

/-- A loop over a state keeps what each pass keeps. -/
theorem State.foldl_keeps {α β : Type} (f : State → α → State) (p : State → β) (h : ∀ s x, p (f s x) = p s) (xs : List α) (s : State) :
    p (xs.foldl f s) = p s :=
  List.foldlRecOn (motive := fun t => p t = p s) xs f rfl fun t ht x _ => (h t x).trans ht

@[simp] theorem Core.halt_id (c : Core) (l : Nat) : (c.halt l).id = c.id := by
  unfold Core.halt
  split
  · split <;> rfl
  · rfl

section
variable (s : State)

theorem State.fatal_coreId (cause cause2 tmask : Nat) (xpc taddr tinfo aux : Word) :
    (s.fatal cause cause2 tmask xpc taddr tinfo aux).core.id = s.core.id := Core.halt_id _ _

theorem State.retire_coreId (r : Option (Nat × Nat)) : (s.retire r).core.id = s.core.id := by
  have hid : ∀ (c : Core) (i : Nat), (c.retire i).id = c.id := fun c i => by
    unfold Core.retire
    dsimp only
    split <;> rfl
  unfold State.retire State.onCore
  split
  · rfl
  · split
    · exact hid _ _
    · rfl

theorem State.precise_coreId (fs : List SlotFault) (x : Word) : (s.precise fs x).core.id = s.core.id := by
  unfold State.precise
  dsimp only
  split
  · exact s.fatal_coreId _ _ _ _ _ _ _
  · split
    · exact s.fatal_coreId _ _ _ _ _ _ _
    · exact State.foldl_keeps _ (fun s => s.core.id) (fun s (g : SlotFault) => s.retire_coreId g.join) _ _

@[simp] theorem State.walkRecord_core (va : Word) : (s.walkRecord va).core = s.core := by
  unfold State.walkRecord
  split
  · split <;> rfl
  · rfl

theorem State.threadFault_coreId (t : Thread) (c : Cause) (va : Option Word) : (s.threadFault t c va).core.id = s.core.id := by
  have hlines : ∀ (k : Core) (ls : List Nat) (ix : Nat), (k.poisonLines ls ix).id = k.id := fun k ls ix =>
    Core.foldl_keeps (fun (c : Core) l => c.poisonLine l ix) Core.id (fun _ _ => rfl) ls k
  unfold State.threadFault
  extract_lets f ls res u info
  have hu : u.core.id = s.core.id := hlines _ _ _
  split
  · rw [State.fatal_coreId]
    split
    · rw [State.walkRecord_core]; exact hu
    · exact hu
  · split
    · exact (Core.halt_id _ _).trans hu
    · exact hu

theorem State.sendColl_core (sc : Scope) (i : Instr) (unit : Nat) (vals : List (Nat × Bool)) : (s.sendColl sc i unit vals).core = s.core := by
  unfold State.sendColl
  refine State.foldl_keeps _ State.core (fun s p => ?_) _ _
  exact List.foldlRecOn (motive := fun a : State × Nat => a.1.core = s.core) _ _ rfl fun a ha x _ =>
    (State.sendFlit_keeps _ _ _ _ _ _).2.trans ha

theorem State.collFault_coreId (t : Thread) (sc : Scope) (k : Nat) (f : Cause × Option Word) : (s.collFault t sc k f).core.id = s.core.id := by
  unfold State.collFault
  split
  · rfl
  · rename_i h _
    show (s.sendColl sc t.ins h.unit []).core.id = s.core.id
    rw [State.sendColl_core]

theorem State.instFault_coreId (t : Thread) (c : Cause) (va : Option Word) : (s.instFault t c va).core.id = s.core.id := by
  unfold State.instFault
  split
  · exact s.threadFault_coreId t c va
  · split
    · exact s.threadFault_coreId t c va
    · exact State.focus_coreId _ _

theorem State.deliverThread_coreId (t : Thread) (c : Cause) (va : Word) : (s.deliverThread t c va).core.id = s.core.id := by
  unfold State.deliverThread
  split
  · exact s.collFault_coreId t _ _ _
  · exact s.instFault_coreId t c _

end

/-! ## Verdicts (O48) -/

section
variable {s : State} {d : Fin 8} {k : BitVec 16} {core : State → List SlotFault → State} {thread : State → Thread → Cause → Word → State}

theorem State.answer_of_none (h : s.ticketOf d.val k.toNat = none) : s.answer d k core thread = s := by
  simp only [State.answer, h]

/-- The verdict on the record of the core in focus (R188). -/
theorem State.answer_core {fs : List SlotFault} (h : s.ticketOf d.val k.toNat = some (s.core.id, none)) (hstatus : s.core.status = .replay k.toNat fs)
    (hid : (core s fs).core.id = s.core.id) : s.answer d k core thread = core s fs := by
  simp only [State.answer, h, State.focus_of_focused (s := s) rfl, hstatus]
  exact State.focus_of_focused hid

/-- The verdict on the record of a thread of the core in focus (R188). -/
theorem State.answer_thread {t : Thread} {n : Nat} {c : Cause} {va : Word} (h : s.ticketOf d.val k.toNat = some (s.core.id, some t.id))
    (hfind : s.core.threads.find? (fun y => y.id == t.id) = some t) (hphase : t.phase = .replay n c va)
    (hid : (thread s t c va).core.id = s.core.id) : s.answer d k core thread = thread s t c va := by
  simp only [State.answer, h, State.focus_of_focused (s := s) rfl, hfind, hphase]
  exact State.focus_of_focused hid

/-- The first replayable fault is the least of their slots (R165, R179). -/
theorem firstReplay_of_least {fs : List SlotFault} {f : SlotFault} (hf : f ∈ fs) (hreplay : isReplayable f.cause = true) (hslot : f.slot < 5)
    (hleast : ∀ g ∈ fs, isReplayable g.cause = true → g = f ∨ f.slot < g.slot) : firstReplay fs = f :=
  firstFault_of_least (List.mem_filter.mpr ⟨hf, hreplay⟩) hslot fun g hg => hleast g (List.mem_filter.mp hg).1 (List.mem_filter.mp hg).2

theorem Thread.resumed_eq (t : Thread) : t.resumed = if t.jobs = [] ∧ t.met.isSome = true then { t with phase := .queued, met := none, res := none }
    else { t with phase := if t.res.isNone then .queued else .running } := by
  simp only [Thread.resumed, Bool.and_eq_true, decide_eq_true_eq]

/-! What the fault of a thread does, as it is delivered. -/

theorem State.instFault_of_alone {t : Thread} (h : t.coll = none) (c : Cause) (va : Option Word) : s.instFault t c va = s.threadFault t c va := by
  simp only [State.instFault, h]

theorem State.instFault_of_instance {t : Thread} {sc : Scope} {n : Nat} {c : Cause} (h : t.coll = some (sc, n)) (hfatal : isFatal c = false)
    (hue : c ≠ Cause.memUe) (va : Option Word) : s.instFault t c va =
      ((s.instThreads sc n).foldl (fun (s : State) x => (s.focus x.1).threadFault x.2 c va) s).focus s.core.id := by
  simp only [State.instFault, h, hfatal, beq_eq_false_iff_ne.mpr hue, Bool.or_self, Bool.false_eq_true, if_false]

theorem State.deliverThread_of_alone {t : Thread} (h : t.coll = none) (c : Cause) (va : Word) : s.deliverThread t c va = s.threadFault t c (some va) := by
  simp only [State.deliverThread, h, State.instFault_of_alone h]

theorem State.deliverThread_of_jobs {t : Thread} (h : t.jobs ≠ []) (c : Cause) (va : Word) : s.deliverThread t c va = s.instFault t c (some va) := by
  unfold State.deliverThread
  split
  · exact absurd ‹t.jobs = []› h
  · rfl

theorem State.deliverThread_of_started {t : Thread} {sc : Scope} {n : Nat} (h : t.coll = some (sc, n)) (hjobs : t.jobs = []) (c : Cause) (va : Word) :
    s.deliverThread t c va = s.collFault t sc n (c, some va) := by
  simp only [State.deliverThread, h, hjobs]

/-- A fault that is neither fatal nor an uncorrectable error ends the thread with the fault as its result (R185). -/
theorem State.threadFault_thread {t : Thread} {c : Cause} (hfatal : isFatal c = false) (hue : c ≠ Cause.memUe) (va : Word) :
    ∀ y ∈ (s.threadFault t c (some va)).core.threads, y.id = t.id →
      y.phase = .running ∧ y.jobs = [] ∧ ∃ r f, y.res = some r ∧ r.flt = some f ∧ f.cause = c ∧ f.taddr = va := by
  unfold State.threadFault
  extract_lets f ls res u info
  rw [if_neg (by rw [hfatal]; exact Bool.false_ne_true), if_neg hue]
  intro y hy hid
  obtain ⟨x, -, rfl⟩ := List.mem_map.mp hy
  by_cases hx : x.id = t.id
  · rw [if_pos hx]
    exact ⟨rfl, rfl, res, f, rfl, rfl, rfl, rfl⟩
  · rw [if_neg hx] at hid
    exact absurd hid hx

/-! What waited for room in the replay queue. -/

/-- The replay record of the core in focus under a ticket (R165, R188). -/
def State.replayRec (s : State) (fs : List SlotFault) (ticket : Nat) : LaneRec :=
  s.coreRec s.core 0x03 (firstReplay fs).cause 0 (tmaskOf fs) s.core.ckpt.pc (firstReplay fs).taddr (firstReplay fs).tinfo 0 ticket

/-- A replay record that finds room takes a ticket and is sent, and its core waits for the verdict (R165, R171, R188). -/
theorem State.replayCore_of_room (hroom : (s.ctxQ s.core.ctx).replay.count < replayCap)
    (hring : (s.ctxQ s.core.ctx).replay.count ≤ (s.ctxQ s.core.ctx).replay.ring.length) (fs : List SlotFault) :
    ∃ k, (s.replayCore fs).mem = s.mem ∧ (s.replayCore fs).core = { s.core with status := .replay k fs } ∧
      ((s.replayCore fs).ctxQ s.core.ctx).replay.recs = (s.ctxQ s.core.ctx).replay.recs ++ [s.replayRec fs k] := by
  unfold State.replayCore
  rw [if_neg (Nat.not_le_of_lt hroom)]
  refine ⟨(s.takeTicket (dieOf s.core.id)).1, rfl, rfl, ?_⟩
  rw [← Queue.push_recs (by decide) hroom hring]
  exact congrArg (fun q : QueuePair => q.replay.recs) (State.ctxQ_onCtxQ (s.takeTicket (dieOf s.core.id)).2 s.core.ctx
    (fun q => { q with replay := q.replay.push replayCap (s.replayRec fs (s.takeTicket (dieOf s.core.id)).1) }))

theorem State.replayCore_threads (s : State) (fs : List SlotFault) : (s.replayCore fs).core.threads = s.core.threads := by
  unfold State.replayCore
  split <;> rfl

section
variable (hthreads : ∀ y ∈ s.core.threads, ∀ c va, y.phase ≠ .waitRoom c va)
include hthreads

theorem State.retryReplay_of_none (hstatus : ∀ fs, s.core.status ≠ .waitRoom fs) : s.retryReplay = s := by
  unfold State.retryReplay
  dsimp only
  split
  · exact absurd ‹_› (hstatus _)
  · refine foldl_eq_self fun y hy => ?_
    split
    · exact absurd ‹_› (hthreads y hy _ _)
    · rfl

theorem State.retryReplay_of_core {fs : List SlotFault} (hstatus : s.core.status = .waitRoom fs) : s.retryReplay = s.replayCore fs := by
  simp only [State.retryReplay, hstatus]
  refine foldl_eq_self fun y hy => ?_
  rw [State.replayCore_threads] at hy
  split
  · exact absurd ‹_› (hthreads y hy _ _)
  · rfl

end

/-- The state once the host has taken the oldest record of the replay queue of the context in focus, where there is one (R171). -/
def State.roomMade (s : State) : State :=
  s.onCtxQ s.core.ctx (fun q => if q.replay.count = 0 then q else { q with replay := q.replay.take (q.replay.cons + 1) })

theorem State.roomMade_ctxQ (s : State) : (s.roomMade.ctxQ s.core.ctx).fatal = (s.ctxQ s.core.ctx).fatal ∧ (s.roomMade.ctxQ s.core.ctx).replay =
    if (s.ctxQ s.core.ctx).replay.count = 0 then (s.ctxQ s.core.ctx).replay
    else { (s.ctxQ s.core.ctx).replay with cons := (s.ctxQ s.core.ctx).replay.cons + 1 } := by
  rw [State.roomMade, State.ctxQ_onCtxQ]
  split <;> exact ⟨rfl, rfl⟩

theorem State.roomMade_count (hsome : 0 < (s.ctxQ s.core.ctx).replay.count) (hring : (s.ctxQ s.core.ctx).replay.count ≤ (s.ctxQ s.core.ctx).replay.ring.length) :
    (s.roomMade.ctxQ s.core.ctx).replay.count = (s.ctxQ s.core.ctx).replay.count - 1 ∧
    (s.roomMade.ctxQ s.core.ctx).replay.recs = (s.ctxQ s.core.ctx).replay.recs.drop 1 ∧
    (s.roomMade.ctxQ s.core.ctx).replay.ring = (s.ctxQ s.core.ctx).replay.ring := by
  rw [s.roomMade_ctxQ.2, if_neg (by omega)]
  exact ⟨(Queue.take_recs hsome hring).1, (Queue.take_recs hsome hring).2, rfl⟩

end

/-- Settles O48: a verdict by whose ticket it answers, and room in the replay queue by what waited for it. -/
theorem replayVerdicts : Obligations.ReplayVerdicts := by
  unfold Obligations.ReplayVerdicts
  refine ⟨fun s d k => ⟨fun hnone => ?unanswered, fun fs hticket hstatus => ?core, fun th n c va hticket hfind hphase => ?thread⟩,
    fun s q hq hthreads => ⟨fun hidle => ?idle, fun fs hwait hsome hring _ => ?room⟩⟩
  case unanswered =>
    exact ⟨congrArg Host.Outcome.next (State.answer_of_none (s := s.setReply d k 0) hnone),
      congrArg Host.Outcome.next (State.answer_of_none (s := s.setReply d k 1) hnone),
      congrArg Host.Outcome.next (State.answer_of_none (s := s.setReply d k 2) hnone)⟩
  case core =>
    refine ⟨congrArg Host.Outcome.next (State.answer_core (s := s.setReply d k 0) hticket hstatus rfl),
      congrArg Host.Outcome.next (State.answer_core (s := s.setReply d k 1) hticket hstatus (State.precise_coreId _ _ _)),
      fun f hf hreplay hslot hleast => ?_⟩
    rw [← firstReplay_of_least hf hreplay hslot hleast]
    exact congrArg Host.Outcome.next (State.answer_core (s := s.setReply d k 2) hticket hstatus (State.fatal_coreId _ _ _ _ _ _ _ _))
  case thread =>
    have hdeliver : exec (.replyDeliver d k) s = .next ((s.setReply d k 1).deliverThread th c va) := congrArg Host.Outcome.next
      (State.answer_thread (s := s.setReply d k 1) hticket hfind hphase (State.deliverThread_coreId _ _ _ _))
    refine ⟨?_, fun sc m hcoll hjobs hfatal hue => ?_, fun halone => ⟨?_, fun hfatal hue => ?_⟩, fun sc m hcoll hjobs => ?_, ?_⟩
    · refine (congrArg Host.Outcome.next (State.answer_thread (s := s.setReply d k 0) hticket hfind hphase rfl)).trans ?_
      simp only [State.onC, Core.onThread, Thread.resumed_eq]
      rfl
    · rw [hdeliver, State.deliverThread_of_jobs hjobs, State.instFault_of_instance hcoll hfatal hue]
      rfl
    · rw [hdeliver, State.deliverThread_of_alone halone]
      rfl
    · rw [State.deliverThread_of_alone halone] at hdeliver
      exact ⟨_, hdeliver, State.threadFault_thread hfatal hue va⟩
    · rw [hdeliver, State.deliverThread_of_started hcoll hjobs]
      rfl
    · exact congrArg Host.Outcome.next (State.answer_thread (s := s.setReply d k 2) hticket hfind hphase (State.fatal_coreId _ _ _ _ _ _ _ _))
  case idle =>
    subst hq
    have hnext : exec .replayQueueRoom s = .next s.roomMade := congrArg Host.Outcome.next (State.retryReplay_of_none (s := s.roomMade) hthreads hidle)
    refine ⟨_, hnext, rfl, s.roomMade_ctxQ.2, s.roomMade_ctxQ.1, fun hring => ?_⟩
    rcases Nat.eq_zero_or_pos (s.ctxQ s.core.ctx).replay.count with hzero | hsome
    · rw [s.roomMade_ctxQ.2, if_pos hzero, Queue.recs, hzero, Nat.sub_zero, List.drop_length, List.drop_nil]
    · exact (State.roomMade_count hsome hring).2.1
  case room =>
    subst hq
    obtain ⟨hcount, hrecs, hlen⟩ := State.roomMade_count hsome hring
    have hroom : (s.roomMade.ctxQ s.core.ctx).replay.count < replayCap := by rw [hcount]; show _ < 256; omega
    have hfits : (s.roomMade.ctxQ s.core.ctx).replay.count ≤ (s.roomMade.ctxQ s.core.ctx).replay.ring.length := by rw [hcount, hlen]; omega
    obtain ⟨k, hmem, hcore, hsent⟩ := State.replayCore_of_room (s := s.roomMade) hroom hfits fs
    have hnext : exec .replayQueueRoom s = .next (s.roomMade.replayCore fs) :=
      congrArg Host.Outcome.next (State.retryReplay_of_core (s := s.roomMade) hthreads hwait)
    refine ⟨_, k, s.roomMade.replayRec fs k, hnext, hmem, hcore, hrecs ▸ hsent, rfl, rfl, rfl, rfl, fun f hf hreplay hslot hleast => ?_⟩
    rw [← firstReplay_of_least hf hreplay hslot hleast]
    exact ⟨rfl, rfl, rfl⟩

end Sys2Proof.Machine

namespace Sys2Proof.Machine

/-! ## Memory that changes within bounds -/

/-- Two memories read the same outside `[lo, hi)`. -/
def Mem.SameOutside (m m' : Mem) (lo hi : Nat) : Prop := ∀ k, (k < lo ∨ hi ≤ k) → m'.get k = m.get k

/-- What a block copied from another memory leaves at every address (R192). -/
theorem Mem.get_blit (m src : Mem) (dst lo n a : Nat) : (m.blit dst src lo n).get a = if dst ≤ a ∧ a < dst + n then src.get (a - dst + lo) else m.get a := by
  have hmoved : ∀ c ∈ (src.filter (fun c => lo ≤ c.1 ∧ c.1 < lo + n)).map (fun c : Host.Cell => (c.1 - lo + dst, c.2)), dst ≤ c.1 ∧ c.1 < dst + n := by
    intro c hc
    obtain ⟨d, hd, rfl⟩ := List.mem_map.mp hc
    have hin := of_decide_eq_true (List.mem_filter.mp hd).2
    show dst ≤ d.1 - lo + dst ∧ d.1 - lo + dst < dst + n
    omega
  have hbelow : ∀ c ∈ m.filter (fun c : Host.Cell => decide (c.1 < dst)), c.1 < dst := fun c hc => of_decide_eq_true (List.mem_filter.mp hc).2
  have habove : ∀ c ∈ m.filter (fun c : Host.Cell => decide (dst + n ≤ c.1)), dst + n ≤ c.1 := fun c hc => of_decide_eq_true (List.mem_filter.mp hc).2
  unfold Mem.blit
  rw [List.append_assoc]
  split
  · rename_i hin
    rw [Mem.get_append_right _ _ _ fun c hc => Nat.ne_of_lt (Nat.lt_of_lt_of_le (hbelow c hc) hin.1),
      Mem.get_append_left _ _ _ fun c hc => Nat.ne_of_gt (Nat.lt_of_lt_of_le hin.2 (habove c hc))]
    clear hmoved hbelow habove
    induction src with
    | nil => rfl
    | cons c r ih =>
      by_cases hc : lo ≤ c.1 ∧ c.1 < lo + n
      · rw [List.filter_cons_of_pos (by simpa using hc), List.map_cons, Mem.get, Mem.get, ih]
        have hsame : c.1 - lo + dst = a ↔ c.1 = a - dst + lo := by omega
        simp only [hsame]
      · rw [List.filter_cons_of_neg (by simpa using hc), ih, Mem.get, if_neg (by omega)]
  · rename_i hout
    by_cases hlt : a < dst
    · rw [Mem.get_append_left _ _ _ fun c hc => ?_, Mem.get_filter _ _ _ fun c hc => by simpa [hc] using hlt]
      rcases List.mem_append.mp hc with hc | hc
      · exact Nat.ne_of_gt (Nat.lt_of_lt_of_le hlt (hmoved c hc).1)
      · exact Nat.ne_of_gt (Nat.lt_of_lt_of_le hlt (Nat.le_of_add_right_le (habove c hc)))
    · rw [Mem.get_append_right _ _ _ fun c hc => Nat.ne_of_lt (Nat.lt_of_lt_of_le (hbelow c hc) (Nat.le_of_not_lt hlt)),
        Mem.get_append_right _ _ _ fun c hc => Nat.ne_of_lt (Nat.lt_of_lt_of_le (hmoved c hc).2 (by omega)),
        Mem.get_filter _ _ _ fun c hc => decide_eq_true (by omega)]

namespace Mem.SameOutside
variable {m m' m'' : Mem} {lo hi : Nat}

theorem refl (m : Mem) (lo hi : Nat) : m.SameOutside m lo hi := fun _ _ => rfl

theorem trans (h : m.SameOutside m' lo hi) (h' : m'.SameOutside m'' lo hi) : m.SameOutside m'' lo hi := fun k hk => (h' k hk).trans (h k hk)

theorem put {a : Nat} {bs : List Byte} (hlo : lo ≤ a) (hhi : a + bs.length ≤ hi) : m.SameOutside (m.put a bs) lo hi :=
  fun k hk => Mem.get_put_other m a bs k (by omega)

theorem puts {rs : List (Nat × List Byte)} (h : ∀ r ∈ rs, lo ≤ r.1 ∧ r.1 + r.2.length ≤ hi) : m.SameOutside (m.puts rs) lo hi :=
  fun k hk => Mem.get_puts_other rs m k fun r hr => by have := h r hr; omega

theorem blit {src : Mem} {dst from_ n : Nat} (hlo : lo ≤ dst) (hhi : dst + n ≤ hi) : m.SameOutside (m.blit dst src from_ n) lo hi :=
  fun k hk => by rw [Mem.get_blit, if_neg (by omega)]

theorem blits {α : Type} {xs : List α} {src : Mem} {dst from_ : α → Nat} {n : Nat} (h : ∀ x ∈ xs, lo ≤ dst x ∧ dst x + n ≤ hi) :
    m.SameOutside (xs.foldl (fun (m : Mem) x => m.blit (dst x) src (from_ x) n) m) lo hi :=
  List.foldlRecOn (motive := fun m' : Mem => m.SameOutside m' lo hi) xs _ (refl m lo hi) fun _ hm x hx => hm.trans (blit (h x hx).1 (h x hx).2)

theorem mono {lo' hi' : Nat} (h : m.SameOutside m' lo hi) (hlo : lo' ≤ lo) (hhi : hi ≤ hi') : m.SameOutside m' lo' hi' :=
  fun k hk => h k (by omega)

end Mem.SameOutside

/-- Bytes within a run that has been written read back. -/
theorem Mem.bytes_put (m : Mem) (base off n : Nat) (bs : List Byte) (h : off + n ≤ bs.length) :
    (m.put base bs).bytes (base + off) n = (bs.drop off).take n := by
  refine List.ext_getElem (by simp; omega) fun i hi _ => ?_
  have hi' : i < n := by simpa using hi
  have hget := Mem.get_put_same m base bs (off + i) (by omega)
  rw [← Nat.add_assoc] at hget
  simp only [Mem.bytes, List.getElem_map, List.getElem_range, List.getElem_take, List.getElem_drop, hget]
  exact (List.getD_eq_getElem _ _ _)

/-! ## The parts of a save: their places and lengths (R192) -/

/-- The registers `b` are `a` but for the G registers and their pending values. -/
def Arch.SameButG (a b : Arch) : Prop := b = { a with g := b.g, gpend := b.gpend }

/-- Every G register and every pending value holds 64 bytes (R42, R272). -/
def Arch.GOk (a : Arch) : Prop := ∀ g : GReg, (a.g[g.val]).length = 64 ∧ ∀ v, a.gpend[g.val] = some v → v.1.length = 64

theorem Arch.settleG_sameButG (a : Arch) (g : GReg) : a.SameButG (a.settleG g) := by
  unfold Arch.settleG
  split <;> rfl

theorem Arch.settleG_gOk {a : Arch} (h : a.GOk) (g : GReg) : (a.settleG g).GOk := by
  unfold Arch.settleG
  split
  · rename_i v hv
    intro k
    by_cases hk : g.val = k.val
    · simp [← hk, (h g).2 _ hv]
    · simpa [hk] using h k
  · exact h

/-- Settling the pending values changes G registers alone, and keeps their length. -/
theorem Arch.settleAll_sameButG (a : Arch) : a.SameButG a.settleAll :=
  List.foldlRecOn (motive := fun b : Arch => a.SameButG b) _ _ (rfl : a.SameButG a) fun b hb g _ => by
    have hg := b.settleG_sameButG g
    unfold Arch.SameButG at *
    rw [hg, hb]

theorem Arch.settleAll_gOk {a : Arch} (h : a.GOk) : a.settleAll.GOk :=
  List.foldlRecOn (motive := Arch.GOk) _ _ h fun _ hb g _ => Arch.settleG_gOk hb g

theorem length_loopBytes (e : Option LoopEnt) : (loopBytes e).length = 32 := by
  cases e <;> simp [loopBytes, length_le8]

theorem length_continBytes (k : Option Contin) : (continBytes k).length = 64 := by
  cases k <;> simp [continBytes, length_le8]

theorem length_progBytes (p : Option PSlot) : (progBytes p).length = 128 := by
  cases p with
  | none => simp [progBytes]
  | some p =>
    have hk := length_flatMap_of_length (f := fun w : Word => le8 w.toNat) (xs := p.k.toList) fun _ _ => length_le8 _
    simp [progBytes, hk]

theorem length_recBytes (r : Option EngRec) : (recBytes r).length = 64 := by
  unfold recBytes
  split <;> simp [length_le8]

theorem Shape.length_bytes (h : Shape) : h.bytes.length = 128 := by
  have hnat := fun v : Vector Nat 5 => length_flatMap_of_length (f := leBytes 4) (xs := v.toList) fun _ _ => length_leBytes 4 _
  have hword := length_flatMap_of_length (f := fun w : Word => leBytes 8 w.toNat) (xs := h.str.toList) fun _ _ => length_leBytes 8 _
  simp [Shape.bytes, hnat, hword]

theorem length_of_mem_chunks_le {α : Type} {n m : Nat} {xs : List α} : ∀ c ∈ chunks n m xs, c.length ≤ n := by
  induction m generalizing xs with
  | zero => intro c hc; cases hc
  | succ k ih =>
    intro c hc
    rcases List.mem_cons.mp hc with rfl | hc
    · exact List.length_take_le _ _
    · exact ih c hc

@[simp] theorem length_chunks {α : Type} (n m : Nat) (xs : List α) : (chunks n m xs).length = m := by
  induction m generalizing xs with
  | zero => rfl
  | succ k ih => rw [chunks, List.length_cons, ih]

/-- The rows of a latch whose extents are those of a latch lie in 0x40000 bytes (R37, R192). -/
theorem latchRuns_within {base : Nat} {l : Option Latch} {vs : List Nat}
    (h : ∀ d, l = some d → d.e1 ≤ 256 ∧ d.e2 * (if d.fmt = .fp64 then 8 else 4) ≤ 1024) :
    ∀ r ∈ latchRuns base l vs, base ≤ r.1 ∧ r.1 + r.2.length ≤ base + 0x40000 := by
  intro r hr
  cases l with
  | none => cases hr
  | some d =>
    obtain ⟨he1, he2⟩ := h d rfl
    obtain ⟨i, hi, rfl⟩ := List.mem_mapIdx.mp hr
    rw [length_chunks] at hi
    have hrow := length_flatMap_of_length (f := leBytes (if d.fmt = .fp64 then 8 else 4)) (xs := (chunks d.e2 d.e1 vs)[i]) fun _ _ => length_leBytes _ _
    have hlen := length_of_mem_chunks_le _ (List.getElem_mem (l := chunks d.e2 d.e1 vs) (n := i) (by rw [length_chunks]; exact hi))
    have hbytes : (if d.fmt = .fp64 then 8 else 4) * (chunks d.e2 d.e1 vs)[i].length ≤ 1024 :=
      Nat.le_trans (by rw [Nat.mul_comm]; exact Nat.mul_le_mul_right _ hlen) he2
    show base ≤ base + 1024 * i ∧ base + 1024 * i + _ ≤ _
    rw [hrow]
    omega

/-- What the statement of a save asks of a core: a partition of at most 48 granules, lines of the scratchpad, latches that have a place, and
G registers of 64 bytes. -/
structure Core.Savable (c : Core) : Prop where
  granules : c.partw.tg + c.partw.zg ≤ 48
  lines : ∀ p ∈ c.lines, 128 * p.1 + 128 ≤ c.scratchSize
  latch : ∀ d, c.arch.latchA = some d ∨ c.arch.latchB = some d → d.e1 ≤ 256 ∧ d.e2 * (if d.fmt = .fp64 then 8 else 4) ≤ 1024
  gregs : c.arch.GOk

/-- The T and Z bytes and the scratchpad make up 48 granules (R28). -/
theorem Core.Savable.pool {c : Core} (h : c.Savable) : c.tzBytes + c.scratchSize = 0xC00000 := by
  have hle := h.granules
  simp only [Core.tzBytes, Core.scratchSize, Partw.sg, Config.granule]
  omega

theorem mem_insertUp {n k : Nat} {l : List Nat} (h : k ∈ insertUp n l) : k = n ∨ k ∈ l := by
  induction l with
  | nil => exact .inl (List.mem_singleton.mp h)
  | cons x r ih =>
    unfold insertUp at h
    split at h
    · exact List.mem_cons.mp h
    · split at h
      · exact .inr h
      · rcases List.mem_cons.mp h with rfl | h
        · exact .inr List.mem_cons_self
        · exact (ih h).imp_right (List.mem_cons_of_mem x)

/-- A sorted list has no number of its own. -/
theorem mem_sortUp {xs : List Nat} {k : Nat} (h : k ∈ sortUp xs) : k ∈ xs := by
  have hinv : ∀ j ∈ sortUp xs, j ∈ xs := List.foldlRecOn (motive := fun acc => ∀ j ∈ acc, j ∈ xs) xs _ (fun j hj => by cases hj)
    fun acc hacc n hn j hj => by
      rcases mem_insertUp hj with rfl | hj
      · exact hn
      · exact hacc j hj
  exact hinv k h

theorem Arch.GOk.length {a : Arch} (h : a.GOk) : ∀ x ∈ a.g.toList, x.length = 64 := by
  intro x hx
  obtain ⟨i, hi, rfl⟩ := Vector.mem_iff_getElem.mp (Vector.mem_toList_iff.mp hx)
  exact (h ⟨i, hi⟩).1

/-- A run of pieces of one length ends where their number says. -/
theorem run_within {α : Type} {n a b : Nat} {f : α → List Byte} {xs : List α} (h : ∀ x ∈ xs, (f x).length = n) (hfit : a + n * xs.length ≤ b) :
    a + (xs.flatMap f).length ≤ b := by
  rw [length_flatMap_of_length h]
  exact hfit

/-- Every run but the registers and the pool lies below the pool's place (R192). -/
theorem Core.Savable.saveRuns {c : Core} (h : c.Savable) : ∀ r ∈ c.saveRuns, r.1 + r.2.length ≤ offPool := by
  have hpool := h.pool
  intro r hr
  simp only [Core.saveRuns, List.mem_append, List.mem_cons, List.not_mem_nil, or_false] at hr
  rcases hr with (((rfl | rfl | rfl | rfl | rfl | rfl | rfl) | hline) | hlatch) | hlatch
  · exact run_within (n := 128) (fun x _ => by split <;> simp [Shape.length_bytes]) (by simp [offH, offPool])
  · exact run_within (fun _ _ => length_progBytes _) (by simp [offProg, offPool])
  · rw [← List.flatMap_id]
    exact run_within h.gregs.length (by simp [offG, offPool])
  · exact run_within (fun _ _ => length_le8 _) (by simp [offHead, offPool])
  · exact run_within (fun _ _ => length_le8 _) (by simp [offHead, offPool])
  · exact run_within (fun _ _ => length_recBytes _) (by simp [offRec, offPool])
  · simp [offLinks, offPool, saveLines]
  · obtain ⟨k, hk, rfl⟩ := List.mem_map.mp hline
    obtain ⟨p, hp, rfl⟩ := List.mem_map.mp (mem_sortUp hk)
    have hin := h.lines p hp
    show offLines + p.1 / 4 + 1 ≤ offPool
    unfold offLines offPool
    omega
  · exact Nat.le_trans (latchRuns_within (fun d hd => h.latch d (.inl hd)) r hlatch).2 (by decide)
  · exact Nat.le_trans (latchRuns_within (fun d hd => h.latch d (.inr hd)) r hlatch).2 (by decide)

/-! ## The register region of a save -/

/-- The registers of a save are 0xF00 bytes, of which the first are the header and the PC (R192). -/
theorem State.saveRegs_eq (s : State) {c : Core} (h : c.arch.GOk) (l : Launch) : ∃ rest : List Byte,
    s.saveRegs c l = le8 (s.saveHdr c l.lr.asid) ++ (le8 c.arch.pc.toNat ++ rest) ∧ rest.length = 0xEF0 := by
  refine ⟨_, by simp only [State.saveRegs, List.append_assoc]; rfl, ?_⟩
  have hregs := length_flatMap_of_length (f := fun r => le8 (c.arch.rs r).toNat) (xs := List.finRange 64) fun _ _ => length_le8 _
  have hloops := length_flatMap_of_length (f := fun i => loopBytes c.arch.loops[i]?) (xs := List.range 6) fun _ _ => length_loopBytes _
  have hcsrs := length_flatMap_of_length (f := le8) (xs := c.csrWords) fun _ _ => length_le8 _
  have hbars := length_flatMap_of_length (f := le8) (xs := s.barWords (clusterOf c.id) l) fun _ _ => length_le8 _
  have hcsr : c.csrWords.length = 20 := rfl
  have hbar : (s.barWords (clusterOf c.id) l).length = 16 := by simp [State.barWords]
  simp only [List.length_append, hregs, hloops, hcsrs, hbars, hcsr, hbar, length_le8, length_continBytes, List.length_map, List.length_finRange,
    List.length_range, List.length_replicate, Vector.length_toList]
  rw [length_flatMap_of_length (n := 64) (xs := c.arch.gpend.toList)]
  · simp only [Vector.length_toList]
  · intro x hx
    obtain ⟨i, hi, rfl⟩ := Vector.mem_iff_getElem.mp (Vector.mem_toList_iff.mp hx)
    split
    · exact (h ⟨i, hi⟩).2 _ ‹_›
    · rfl

/-! ## What a save leaves (R192) -/

section
variable {s : State} {c : Core} {l : Launch} {base : Nat}

/-- What a save writes first: empty lines and latches, and the core's runs. -/
def State.saveLow (s : State) (c : Core) (base : Nat) : Mem :=
  ((s.mem.blit (base + offLines) [] 0 (saveLines / 4)).blit (base + offLatch) [] 0 0x80000).puts (c.saveRuns.map (fun r => (base + r.1, r.2)))

/-- Then the side array and the T and Z granules. -/
def State.saveTz (s : State) (c : Core) (base : Nat) : Mem :=
  ((s.saveLow c base).blit (base + offSide) c.side 0 0x8000).blit (base + offPool) c.pool 0 c.tzBytes

/-- Then the lines that are not EMPTY; the registers come last. -/
def State.saveParts (s : State) (c : Core) (base : Nat) : Mem :=
  c.lines.foldl (fun m x => m.blit (base + offPool + c.tzBytes + 128 * x.1) c.pool (c.scratchBase + 128 * x.1) 128) (s.saveTz c base)

/-- With a route to its area a save changes memory and clears poison, and nothing else. -/
theorem State.saveFull_of_route (hroute : s.noRoute c base = false) : ∃ ps : List Nat, s.saveFull c l base = { s with
    mem := (s.saveParts { c with arch := c.arch.settleAll } base).put (base + 0x100) (s.saveRegs { c with arch := c.arch.settleAll } l), poison := ps } :=
  ⟨_, by unfold State.saveFull; rw [if_neg (by rw [hroute]; exact Bool.false_ne_true)]; rfl⟩

/-- With no route what the area should hold is poisoned, its header among it (R197, R367). -/
theorem State.saveFull_of_lost (hlost : s.noRoute c base = true) : ∃ ps : List Nat, s.saveFull c l base = { s.routeError 0 base with poison := ps } ∧
    (base + 0x100) / 32 ∈ ps := by
  unfold State.saveFull
  rw [if_pos hlost]
  refine ⟨_, rfl, List.mem_append_left _ (List.mem_flatMap.mpr ⟨(0x100, 0xF00), List.mem_cons_self, ?_⟩)⟩
  simp only [List.mem_map, List.mem_range]
  exact ⟨0, by omega, by omega⟩

theorem Core.scratchSize_of_arch (c : Core) (a : Arch) : Core.scratchSize { c with arch := a } = c.scratchSize := rfl

theorem Core.tzBytes_of_arch (c : Core) (a : Arch) : Core.tzBytes { c with arch := a } = c.tzBytes := rfl

theorem Core.Savable.with_arch (h : c.Savable) {a : Arch} (hlatA : a.latchA = c.arch.latchA) (hlatB : a.latchB = c.arch.latchB) (hg : a.GOk) :
    Core.Savable { c with arch := a } := by
  constructor
  · exact h.granules
  · rw [Core.scratchSize_of_arch]
    exact h.lines
  · exact fun d hd => h.latch d (hd.imp hlatA.symm.trans hlatB.symm.trans)
  · exact hg

theorem Core.Savable.settled (h : c.Savable) : Core.Savable { c with arch := c.arch.settleAll } :=
  have hsame := c.arch.settleAll_sameButG
  h.with_arch ((congrArg Arch.latchA hsame).trans rfl) ((congrArg Arch.latchB hsame).trans rfl) (Arch.settleAll_gOk h.gregs)

theorem State.saveLow_sameOutside (s : State) (h : c.Savable) (base : Nat) : s.mem.SameOutside (s.saveLow c base) base (base + 2 ^ 24) := by
  have hruns : ∀ r ∈ c.saveRuns.map (fun r => (base + r.1, r.2)), base ≤ r.1 ∧ r.1 + r.2.length ≤ base + 2 ^ 24 := fun r hr => by
    obtain ⟨x, hx, rfl⟩ := List.mem_map.mp hr
    have hin := h.saveRuns x hx
    unfold offPool at hin
    exact ⟨Nat.le_add_right _ _, by dsimp only; omega⟩
  unfold State.saveLow
  refine ((Mem.SameOutside.blit ?_ ?_).trans (Mem.SameOutside.blit ?_ ?_)).trans (Mem.SameOutside.puts hruns) <;>
    simp only [offLines, saveLines, offLatch] <;> omega

theorem State.saveTz_sameOutside (s : State) (h : c.Savable) (base : Nat) : s.mem.SameOutside (s.saveTz c base) base (base + 2 ^ 24) := by
  have hpool := h.pool
  unfold State.saveTz
  refine ((s.saveLow_sameOutside h base).trans (Mem.SameOutside.blit ?_ ?_)).trans (Mem.SameOutside.blit ?_ ?_) <;>
    simp only [offSide, offPool] <;> omega

/-- The lines come after the T and Z bytes (R192). -/
theorem State.saveParts_sameOutside_saveTz (s : State) (h : c.Savable) (base : Nat) :
    (s.saveTz c base).SameOutside (s.saveParts c base) (base + offPool + c.tzBytes) (base + 2 ^ 24) := by
  have hpool := h.pool
  unfold State.saveParts
  refine Mem.SameOutside.blits fun x hx => ?_
  have hin := h.lines x hx
  unfold offPool
  omega

theorem State.saveTz_get (s : State) {k : Nat} (hk : k < c.tzBytes) : (s.saveTz c base).get (base + offPool + k) = c.pool.get k := by
  unfold State.saveTz
  rw [Mem.get_blit, if_pos (by omega), Nat.add_sub_cancel_left, Nat.add_zero]

/-- The parts of a save stay in its area, the T and Z bytes in their place (R192). -/
theorem State.saveParts_spec (s : State) (h : c.Savable) (base : Nat) :
    s.mem.SameOutside (s.saveParts c base) base (base + 2 ^ 24) ∧
    ∀ k < c.tzBytes, (s.saveParts c base).get (base + offPool + k) = c.pool.get k := by
  have hlines := s.saveParts_sameOutside_saveTz h base
  refine ⟨(s.saveTz_sameOutside h base).trans (hlines.mono (by omega) (Nat.le_refl _)), fun k hk => ?_⟩
  exact (hlines _ (.inl (by omega))).trans (s.saveTz_get hk)

/-- SAVEHDR names a completed save (R192). -/
theorem State.saveHdr_valid (s : State) (c : Core) (asid : Nat) : (BitVec.ofNat 8 (s.saveHdr c asid)).getLsbD 0 = true := by
  unfold State.saveHdr
  generalize (match c.task with | some t => t.index % 2 ^ 20 | none => 0) = n
  rw [BitVec.getLsbD_ofNat, Nat.testBit_zero]
  simp
  omega

/-- What a save with a route to its area writes: nothing outside it, the header, the PC, and the T and Z bytes (R192). -/
theorem State.saveFull_spec (h : c.Savable) (hroute : s.noRoute c base = false) : ∃ (m : Mem) (ps : List Nat),
    s.saveFull c l base = { s with mem := m, poison := ps } ∧ s.mem.SameOutside m base (base + 2 ^ 24) ∧
    (m.get (base + 0x100)).getLsbD 0 = true ∧ leVal (m.bytes (base + 0x108) 8) = c.arch.pc.toNat ∧
    ∀ k < c.tzBytes, m.get (base + offPool + k) = c.pool.get k := by
  obtain ⟨ps, hsave⟩ := State.saveFull_of_route (l := l) hroute
  obtain ⟨hout, htz⟩ := s.saveParts_spec h.settled base
  rw [Core.tzBytes_of_arch] at htz
  obtain ⟨rest, hregs, hrest⟩ := s.saveRegs_eq h.settled.gregs l
  have hpc : c.arch.settleAll.pc = c.arch.pc := (congrArg Arch.pc c.arch.settleAll_sameButG).trans rfl
  have hlen : (s.saveRegs { c with arch := c.arch.settleAll } l).length = 0xF00 := by
    rw [hregs, List.length_append, List.length_append, length_le8, length_le8, hrest]
  refine ⟨_, ps, hsave, hout.trans (Mem.SameOutside.put (by omega) (by rw [hlen]; omega)), ?_, ?_, fun k hk => ?_⟩
  · have hfirst := Mem.get_put_same (s.saveParts { c with arch := c.arch.settleAll } base) (base + 0x100)
      (s.saveRegs { c with arch := c.arch.settleAll } l) 0 (by rw [hlen]; omega)
    rw [Nat.add_zero] at hfirst
    rw [hfirst, hregs]
    exact s.saveHdr_valid _ _
  · have hbytes := Mem.bytes_put (s.saveParts { c with arch := c.arch.settleAll } base) (base + 0x100) 8 8
      (s.saveRegs { c with arch := c.arch.settleAll } l) (by rw [hlen]; omega)
    rw [Nat.add_assoc] at hbytes
    rw [hbytes, hregs, List.drop_left' (length_le8 _), List.take_left' (length_le8 _), le8, leVal_leBytes, hpc]
    exact Nat.mod_eq_of_lt (BitVec.isLt _)
  · rw [Mem.get_put_other _ _ _ _ (Or.inr (by rw [hlen]; unfold offPool; omega))]
    exact htz k hk

end

end Sys2Proof.Machine

namespace Sys2Proof.Machine

/-! ## FULL_PREEMPT_REQUEST (R191, R309) -/

section
variable {s : State} {b : Bundle} {n : Nat}

@[simp] theorem State.startRp_threads (s : State) (here : Bool) : (s.startRp here).core.threads = s.core.threads := by
  unfold State.startRp
  split <;> simp

theorem State.poised_threads (s : State) : s.poised.core.threads = s.core.threads := by simp only [State.poised, State.onC_core]

@[simp] theorem State.ready_threads (s : State) (b : Bundle) : (s.ready b).core.threads = s.core.threads := by
  have hfixed := (s.poised.startRp_threads (fixedBefore b)).trans s.poised_threads
  unfold State.ready
  simp only
  split
  · exact hfixed
  · exact (State.startRp_threads _ _).trans hfixed

/-- With no factorisation among the threads none is stopped. -/
theorem State.stopFactor_of_none (h : ∀ t ∈ s.core.threads, isFact t.ins = false) : s.stopFactor n = s := by
  unfold State.stopFactor
  rw [List.find?_eq_none.mpr fun t ht => by simp [h t ht]]

theorem execFullPreemptRequest_of_unasked (h : s.core.preempt = false) : execFullPreemptRequest n s = .next s := by
  unfold execFullPreemptRequest
  rw [if_pos (by rw [h]; rfl)]

theorem execFullPreemptRequest_of_stopsHere (hask : s.core.preempt = true) (hrun : s.core.status = .running)
    (hfact : ∀ t ∈ s.core.threads, isFact t.ins = false) (hstop : s.core.stopsHere = true) : execFullPreemptRequest n s = .next s.stopCore := by
  unfold execFullPreemptRequest
  rw [if_neg (by rw [hask]; exact Bool.false_ne_true)]
  simp only [hrun, hstop, if_true]
  rw [State.stopFactor_of_none (s := s.stopCore) hfact]

/-- A core that waits at issue rolls back to its last restart point first (R150, R191). -/
theorem execFullPreemptRequest_of_waits (hask : s.core.preempt = true) (hrun : s.core.status = .running)
    (hfact : ∀ t ∈ s.core.threads, isFact t.ins = false) (hstop : s.core.stopsHere = false) (hb : s.bundleHere = some b)
    (hmon : (s.ready b).core.monitor = none)
    (hplan : (s.ready b).plan b = .wait ∨ (∃ ks, (s.ready b).plan b = .far ks) ∨ ∃ ws, (s.ready b).plan b = .lines ws) :
    execFullPreemptRequest n s = .next ((s.ready b).onC Core.rollback).stopCore := by
  have hnone : (((s.ready b).onC Core.rollback).stopCore).stopFactor (max 1 n) = ((s.ready b).onC Core.rollback).stopCore :=
    State.stopFactor_of_none fun t ht => hfact t (by rw [← s.ready_threads b]; exact ht)
  unfold execFullPreemptRequest
  rw [if_neg (by rw [hask]; exact Bool.false_ne_true)]
  simp only [hrun, hstop, hb, hmon]
  rw [if_neg Bool.false_ne_true]
  rcases hplan with hplan | ⟨ks, hplan⟩ | ⟨ws, hplan⟩ <;> simp only [hplan, hnone]

/-- A core that waits for a verdict, or for room to ask for one, stands at its restart point (R188, R191). -/
theorem execFullPreemptRequest_of_verdict (hask : s.core.preempt = true)
    (hwait : (∃ k fs, s.core.status = .replay k fs) ∨ ∃ fs, s.core.status = .waitRoom fs)
    (hfact : ∀ t ∈ s.core.threads, isFact t.ins = false) : execFullPreemptRequest n s = .next s.stopCore := by
  unfold execFullPreemptRequest
  rw [if_neg (by rw [hask]; exact Bool.false_ne_true)]
  rcases hwait with ⟨k, fs, hstatus⟩ | ⟨fs, hstatus⟩ <;>
    simp only [hstatus, State.stopFactor_of_none (s := s.stopCore) hfact]

end

/-! ## FULL_SAVE (R191, R192) -/

section
variable {s : State} {t : Task} {l : Launch}

/-- The core in focus writes its save now: it has stopped for it, or it is a halted one of a gang that keeps its slot when it is asked to give
way, and nothing of it is outstanding (R142, R148, R191). -/
def State.SavesNow (s : State) (l : Launch) : Prop :=
  (s.core.status = .saving ∨ (l.lr.cls = 2 ∧ s.core.status = .halted ∧ s.core.preempt = true ∧ s.owes s.core = true)) ∧
    s.core.quiet = true ∧ s.expected s.core = false

theorem State.savesNow_iff : s.SavesNow l ↔ ((s.core.status != .saving && !(l.lr.cls == 2 && s.core.status == .halted && s.core.preempt &&
    s.owes s.core)) || !s.core.quiet || s.expected s.core) = false := by
  simp only [State.SavesNow, Bool.or_eq_false_iff, Bool.and_eq_false_iff, bne_eq_false_iff_eq, Bool.not_eq_false', Bool.and_eq_true, beq_iff_eq, and_assoc]

/-- FULL_SAVE of a core with a task: it waits, loses its context, or saves and is free. -/
theorem execFullSave_of_waits (ht : s.core.task = some t) (hl : s.launchOf s.core = some l) (h : ¬ s.SavesNow l) : execFullSave s = .next s := by
  rw [State.savesNow_iff, Bool.not_eq_false] at h
  unfold execFullSave
  rw [ht, hl]
  exact if_pos h

theorem execFullSave_of_bad (ht : s.core.task = some t) (hl : s.launchOf s.core = some l) (h : s.SavesNow l) (hbad : s.core.saveBad = true) :
    execFullSave s = .next (s.fatal Cause.saveLost 0 0 s.core.arch.pc 0 0 0) := by
  rw [State.savesNow_iff] at h
  unfold execFullSave
  rw [ht, hl]
  simp only
  rw [h, if_neg Bool.false_ne_true, if_pos hbad]

/-- The slot of a task whose save stands in its area, with what the package keeps of its core. -/
def Launch.saved (y : Launch) (t : Task) (k : Kept) : Launch := { y with slots := y.slots.set t.slot (.saved t.index), kept := bindTo y.kept t.slot k }

theorem execFullSave_of_saves (ht : s.core.task = some t) (hl : s.launchOf s.core = some l) (h : s.SavesNow l) (hbad : s.core.saveBad = false)
    (hcls : l.lr.cls ≠ 2) : execFullSave s = .next (((s.saveFull s.core l (l.lr.saveBase t.slot)).onC Core.freed).onLaunch l.id
      fun y => y.saved t s.core.keeps) := by
  rw [State.savesNow_iff] at h
  unfold execFullSave
  rw [ht, hl]
  simp only
  rw [h, hbad, if_neg Bool.false_ne_true, if_neg Bool.false_ne_true, if_neg hcls]
  rfl

theorem fullSave_of_lost (ht : s.core.task = some t) (hl : s.launchOf s.core = some l) (h : s.SavesNow l) (hbad : s.core.saveBad = false)
    (hcls : l.lr.cls ≠ 2) (hlost : s.noRoute s.core (l.lr.saveBase t.slot) = true) : ∃ u, execFullSave s = .next u ∧ u.mem = s.mem ∧
      u.core.status = .idle ∧ u.core.task = none ∧ (l.lr.saveBase t.slot + 0x100) / 32 ∈ u.poison := by
  obtain ⟨ps, hsave, hps⟩ := State.saveFull_of_lost (l := l) hlost
  exact ⟨_, execFullSave_of_saves ht hl h hbad hcls, by rw [hsave]; exact ⟨rfl, rfl, rfl, hps⟩⟩

theorem fullSave_of_route (ht : s.core.task = some t) (hl : s.launchOf s.core = some l) (h : s.SavesNow l) (hbad : s.core.saveBad = false)
    (hcls : l.lr.cls ≠ 2) (hroute : s.noRoute s.core (l.lr.saveBase t.slot) = false) (hok : s.core.Savable) : ∃ u, execFullSave s = .next u ∧
      s.mem.SameOutside u.mem (l.lr.saveBase t.slot) (l.lr.saveBase t.slot + 2 ^ 24) ∧ u.core = s.core.freed ∧ u.others = s.others ∧
      (u.mem.get (l.lr.saveBase t.slot + 0x100)).getLsbD 0 = true ∧ leVal (u.mem.bytes (l.lr.saveBase t.slot + 0x108) 8) = s.core.arch.pc.toNat ∧
      (∀ k < s.core.tzBytes, u.mem.get (l.lr.saveBase t.slot + offPool + k) = s.core.pool.get k) ∧
      ∀ y, u.launch l.id = some y → y.slots = l.slots.set t.slot (.saved t.index) := by
  obtain ⟨m, ps, hsave, hout, hvalid, hpc, htz⟩ := State.saveFull_spec (l := l) hok hroute
  refine ⟨_, execFullSave_of_saves ht hl h hbad hcls, ?_⟩
  rw [hsave]
  refine ⟨hout, rfl, rfl, hvalid, hpc, htz, fun y hy => ?_⟩
  have hlaunch : s.launch l.id = some l := by
    obtain ⟨t', _, hl'⟩ := Option.bind_eq_some_iff.mp hl
    rwa [← State.launch_id hl'] at hl'
  have hfound := State.launch_onLaunch (s := ({ s with mem := m, poison := ps } : State).onC Core.freed) (f := fun y => y.saved t s.core.keeps) hlaunch
    fun _ => rfl
  rw [hfound] at hy
  rw [← Option.some.inj hy]
  rfl

end
end Sys2Proof.Machine

namespace Sys2Proof.Machine

/-! ## The light block (R190) -/

/-- Piece `i` of a run of pieces of one length. -/
theorem take_drop_flatMap {α β : Type} {n i : Nat} {f : α → List β} {xs : List α} (rest : List β) (hlen : ∀ x ∈ xs, (f x).length = n)
    (hi : i < xs.length) : ((xs.flatMap f ++ rest).drop (n * i)).take n = f xs[i] := by
  induction xs generalizing i with
  | nil => exact absurd hi (Nat.not_lt_zero i)
  | cons x r ih =>
    have hx := hlen x List.mem_cons_self
    rw [List.flatMap_cons, List.append_assoc]
    cases i with
    | zero => exact List.take_left' hx
    | succ k =>
      rw [Nat.mul_succ, Nat.add_comm, ← List.drop_drop, List.drop_left' hx]
      exact ih (fun y hy => hlen y (List.mem_cons_of_mem x hy)) (Nat.lt_of_succ_lt_succ hi)

theorem Carried.length_bytes (e : Carried) : e.bytes.length = 256 := by
  have hregs := length_flatMap_of_length (f := fun w : Word => le8 w.toNat) (xs := e.regs.toList) fun _ _ => length_le8 _
  have hseqn := length_flatMap_of_length (f := fun v : BitVec 16 => leBytes 2 v.toNat) (xs := e.seqn.toList) fun _ _ => length_leBytes 2 _
  simp only [Carried.bytes, List.length_append, hregs, hseqn, length_le8, List.length_replicate, Vector.length_toList]

/-- A light block holds the values carried from its byte 8 on (R190). -/
theorem Carried.bytes_reg (e : Carried) {i : Nat} (hi : i < 8) : (e.bytes.drop (8 + 8 * i)).take 8 = le8 (e.regs[i]).toNat := by
  unfold Carried.bytes
  rw [← List.drop_drop, List.append_assoc, List.append_assoc, List.append_assoc, List.drop_left' (length_le8 _),
    take_drop_flatMap (f := fun w : Word => le8 w.toNat) _ (fun _ _ => length_le8 _) (by simpa using hi), Vector.getElem_toList]

/-- A light block in memory, with a route to its home: its bytes and no others change, and its values read back. -/
theorem Mem.put_lightBlock (m : Mem) (e : Carried) : m.SameOutside (m.put e.home e.bytes) e.home (e.home + 256) ∧
    ∀ (i : Nat) (hi : i < 8), leVal ((m.put e.home e.bytes).bytes (e.home + 8 + 8 * i) 8) = (e.regs[i]).toNat := by
  refine ⟨Mem.SameOutside.put (Nat.le_refl _) (by rw [e.length_bytes]), fun i hi => ?_⟩
  have hread := m.bytes_put e.home (8 + 8 * i) 8 e.bytes (by rw [e.length_bytes]; omega)
  rw [← Nat.add_assoc] at hread
  rw [hread, e.bytes_reg hi, le8, leVal_leBytes]
  exact Nat.mod_eq_of_lt (BitVec.isLt _)

/-! ## LIGHT_PREEMPT (R148, R190) -/

section
variable {s : State} {t : Task} {l : Launch} {st : Nat}

/-- What a task of a stream leaves on its core (R190). -/
def State.leaves (s : State) (t : Task) (l : Launch) (st : Nat) : Carried :=
  { die := l.die, stream := st, core := s.logical s.core.id, regs := Vector.ofFn (fun i => s.core.arch.rs (Fin.ofNat 64 (56 + i.val))),
    seqn := s.core.arch.seqn, block := none, lseq := l.lseq, next := ((s.disp[(dieIx l.die).val]).streams.toList.getD st ⟨false, 0, 0⟩).csb,
    home := if l.lr.save = 0 then lightHome l.die st (s.logical s.core.id) else l.lr.saveBase t.slot }

theorem State.onCore_of_focused {n : Nat} {f : Core → Core} (h : s.core.id = n) : s.onCore n f = s.onC f := if_pos h

/-- A drained task of a stream leaves its core, and its values stay there (R139, R190). -/
theorem State.endTask_of_drained (hdrained : s.drained s.core = true) (ht : s.core.task = some t) (hl : s.launchOf s.core = some l)
    (hst : l.stream = some st) (hnone : s.carried = []) : ∃ f, s.endTask s.core.id = { (s.onLaunch l.id f) with
      core := s.core.freed, carried := [s.leaves t l st] } := by
  refine ⟨fun y => { y with slots := y.slots.set t.slot (if t.index + l.lr.npl < l.lr.count then .waiting (t.index + l.lr.npl) else .gone) }, ?_⟩
  unfold State.endTask
  simp only [State.coreAt_focused, ht, hl, hdrained, hst]
  rw [if_neg (by decide), State.onCore_of_focused (by rfl)]
  simp only [State.setSlot, State.onLaunch, State.onC, hnone, List.filter_nil]
  rfl

/-- Values that stay on their core go to their light block when another stream's launch takes it (R190). -/
theorem State.passCore_of_one {e : Carried} {core : Nat} {keep : Option (Nat × Nat)} (hone : s.carried = [e]) (hcore : e.core = core) (hblock : e.block = none)
    (hkeep : keep ≠ some (e.die, e.stream)) (hroute : s.noRouteAt (dieOf (s.physical core)) e.home = false) :
    ∃ ps cs, s.passCore core keep = { s with mem := s.mem.put e.home e.bytes, poison := ps, carried := cs } := by
  have hput : s.putBlock (dieOf (s.physical core)) e = { s with
      mem := s.mem.put e.home e.bytes, poison := s.poison.filter (fun k => !e.sectors.contains k) } := by
    unfold State.putBlock
    rw [if_neg (by rw [hroute]; exact Bool.false_ne_true)]
  unfold State.passCore
  simp only [hone]
  rw [List.filter_cons_of_pos (by simp [hcore, hblock, hkeep]), List.filter_nil, List.foldl_cons, List.foldl_nil, hput]
  exact ⟨_, _, rfl⟩

theorem execLightPreempt_of_held {h : Nat} {x : Launch} (hheld : s.core.holdFor = some h) (hx : s.launch h = some x)
    (hneeds : x.needs (s.logical s.core.id) = true) (hdrained : s.drained s.core = true) : execLightPreempt s =
      .next ((s.endTask s.core.id).passCore (s.logical s.core.id) (x.stream.map (fun st => (x.die, st)))) := by
  unfold execLightPreempt
  rw [hheld]
  simp only [hx]
  rw [if_pos (by simp [State.free, hdrained, hneeds])]

theorem execLightPreempt_of_unheld (h : s.core.holdFor = none) : execLightPreempt s = .next s := by
  unfold execLightPreempt
  rw [h]

/-- LIGHT_PREEMPT frees the core and writes the values of its stream to their light block (R190). -/
theorem lightPreempt_of_held {h : Nat} {x : Launch} (hheld : s.core.holdFor = some h) (hx : s.launch h = some x)
    (hneeds : x.needs (s.logical s.core.id) = true) (hdrained : s.drained s.core = true) (ht : s.core.task = some t) (hl : s.launchOf s.core = some l)
    (hst : l.stream = some st) (hother : (x.die, x.stream) ≠ (l.die, some st)) (hnone : s.carried = [])
    (hroute : s.noRouteAt (dieOf (s.physical (s.logical s.core.id))) (s.leaves t l st).home = false) : ∃ u, execLightPreempt s = .next u ∧
      u.core = s.core.freed ∧ u.mem = s.mem.put (s.leaves t l st).home (s.leaves t l st).bytes := by
  obtain ⟨f, hend⟩ := State.endTask_of_drained hdrained ht hl hst hnone
  have hkeep : x.stream.map (fun st => (x.die, st)) ≠ some (l.die, st) := by
    intro hsame
    obtain ⟨st', hst', heq⟩ := Option.map_eq_some_iff.mp hsame
    obtain ⟨hdie, rfl⟩ := Prod.mk.inj heq
    exact hother (by rw [hdie, hst'])
  obtain ⟨ps, cs, hpass⟩ := State.passCore_of_one (s := s.endTask s.core.id) (e := s.leaves t l st) (core := s.logical s.core.id) (by rw [hend]) rfl rfl hkeep
    (by rw [hend]; exact hroute)
  rw [execLightPreempt_of_held hheld hx hneeds hdrained, hpass]
  rw [hend]
  exact ⟨_, rfl, rfl, rfl⟩

end
end Sys2Proof.Machine

namespace Sys2Proof.Machine

/-! ## Bringing a core into focus -/

theorem State.coreAt_focus (s : State) (m n : Nat) : (s.focus m).coreAt n = s.coreAt n := by
  unfold State.focus
  split
  · rfl
  · rename_i hm
    by_cases hn : m = n
    · subst hn
      exact if_pos (s.coreAt_id m)
    · have hfind : (s.others.filter (fun k => decide (k.id ≠ m))).find? (fun k => k.id == n) = s.others.find? (fun k => k.id == n) := by
        rw [List.find?_filter]
        refine congrArg (fun p => s.others.find? p) (funext fun k => ?_)
        by_cases hk : k.id = n <;> simp [hk, Ne.symm hn]
      have hnot : (s.coreAt m).id ≠ n := by rwa [State.coreAt_id]
      show (if (s.coreAt m).id = n then _ else ((s.core :: _).find? _).getD _) = _
      rw [if_neg hnot, List.find?_cons, hfind]
      unfold State.coreAt
      split <;> simp_all

/-- Focus moves the cores alone. -/
theorem State.focus_eq (s : State) (n : Nat) : ∃ os, s.focus n = { s with core := s.coreAt n, others := os } := by
  unfold State.focus
  split
  · rename_i h
    exact ⟨s.others, by rw [← h, State.coreAt_focused]⟩
  · exact ⟨_, rfl⟩

theorem State.onCore_eq (s : State) (n : Nat) (f : Core → Core) : ∃ k os, s.onCore n f = { s with core := k, others := os } := by
  unfold State.onCore
  split
  · exact ⟨_, _, rfl⟩
  · exact ⟨_, _, rfl⟩

/-! ## A granted core (R3, R48) -/

/-- A number that is none of a core names no core of a die (R3, R48). -/
theorem State.online_physical_none (s : State) : s.online (s.physical 256) = false := by
  have hdie : 8 ≤ 256 / perDie s.grade := by cases s.grade <;> decide
  have hphys : ¬ s.physical 256 < 256 := by
    unfold State.physical
    simp only
    omega
  simp [State.online, hphys]

theorem State.granted_online {s : State} {x : Launch} {core : Nat} (h : s.granted x core = true) : s.online (s.physical core) = true := by
  simp only [State.granted, Bool.and_eq_true] at h
  exact h.1.1.1.1

/-- The slot of a granted core is one of the launch's. -/
theorem State.getD_of_granted {s : State} {x : Launch} {slot : Nat} (h : s.granted x (x.cores.getD slot 256) = true) :
    x.cores.getD slot 0 = x.cores.getD slot 256 := by
  have hin : slot < x.cores.length := by
    by_contra hout
    have honline := State.granted_online h
    rw [List.getD_eq_default _ _ (Nat.le_of_not_lt hout), State.online_physical_none] at honline
    cases honline
  rw [List.getD_eq_getElem _ _ hin, List.getD_eq_getElem _ _ hin]

/-! ## A context that stops -/

/-- A launch that has started is still found after its context has stopped, and has failed (R189). -/
theorem State.launch_stopCtx {s : State} {l : Nat} {x : Launch} (h : s.launch l = some x) (hstarted : x.unstarted = false) :
    (s.stopCtx l).launch l = some { x with status := .failed, sched := [] } := by
  unfold State.stopCtx
  generalize hs : ({ s with core := s.core.halt l, others := s.others.map (fun c => c.halt l), colls := s.colls.filter (fun k => k.launch ≠ l) } : State) = u
  have hu : u.launch l = some x := by rw [← hs]; exact h
  have hfound := State.launch_onLaunch (f := fun x => { x with status := .failed, sched := [] }) hu fun _ => rfl
  generalize (u.onLaunch l fun x => { x with status := .failed, sched := [] }) = v at hfound ⊢
  unfold State.launch State.dropMail at *
  simp only
  obtain ⟨hid, as, bs, happ, hnot⟩ := List.find?_eq_some_iff_append.mp hfound
  rw [happ, List.filter_append, List.filter_cons_of_pos]
  · exact List.find?_eq_some_iff_append.mpr ⟨hid, _, _, rfl, fun y hy => hnot y (List.mem_of_mem_filter hy)⟩
  · have hkeep : Launch.unstarted { x with status := .failed, sched := [] } = false := hstarted
    split <;> simp [hkeep]

theorem State.launch_fatal {s : State} {x : Launch} (h : s.launch s.core.ctx = some x) (hstarted : x.unstarted = false)
    (cause cause2 tmask : Nat) (xpc taddr tinfo aux : Word) : (s.fatal cause cause2 tmask xpc taddr tinfo aux).launch s.core.ctx =
      some { x with status := .failed, sched := [] } := by
  unfold State.fatal
  exact State.launch_stopCtx h hstarted

/-- A launch with a task on a core has started. -/
theorem Launch.unstarted_of_running {x : Launch} {slot k : Nat} (h : x.slots[slot]? = some (.running k)) : x.unstarted = false :=
  Bool.eq_false_iff.mpr fun hall => by simpa using List.all_eq_true.mp hall _ (List.mem_of_getElem? h)

/-! ## Schedules that are empty -/

/-- A launch without a schedule releases nothing (R142). -/
theorem State.releaseStages_of_unscheduled {s : State} {l : Nat} {x : Launch} (h : s.launch l = some x) (hnone : x.sched = []) :
    ∃ ls, s.releaseStages l = { s with launches := ls } ∧ (s.releaseStages l).launch l = some x := by
  unfold State.releaseStages
  have hfound := State.launch_onLaunch (f := fun x => { x with sched := x.sched.map (fun e =>
    if nth x.thr e.stage ≤ x.stage then { e with released := true } else e) }) h fun _ => rfl
  have hsame : ({ x with sched := x.sched.map (fun e => if nth x.thr e.stage ≤ x.stage then { e with released := true } else e) } : Launch) = x := by
    rw [hnone, List.map_nil, ← hnone]
  rw [hsame] at hfound
  have hnodue : x.entriesDue = false := by rw [Launch.entriesDue, hnone]; rfl
  unfold State.forkDue
  rw [hfound]
  simp only [hnodue]
  rw [if_neg Bool.false_ne_true]
  exact ⟨_, rfl, hfound⟩

end Sys2Proof.Machine

namespace Sys2Proof.Machine

/-! ## FULL_RESTORE (R191, R192) -/

section
variable {s : State} {x : Launch} {slot c base : Nat}

theorem State.wipeTlb_eq (s : State) (c l : Nat) : ∃ tl, s.wipeTlb c l = { s with tlb := tl } := by
  unfold State.wipeTlb
  split
  · exact ⟨_, rfl⟩
  · exact ⟨_, rfl⟩

theorem State.passCore_of_none {core : Nat} {keep : Option (Nat × Nat)} (h : s.carried = []) : s.passCore core keep = s := by
  unfold State.passCore
  simp only [h, List.filter_nil, List.foldl_nil, List.map_nil]
  rw [← h]

/-- A saved slot's core as its save stands in memory (R191, R192). -/
structure Core.IsRestored (k : Core) (s : State) (x : Launch) (slot base : Nat) : Prop where
  status : k.status = if (x.keptOf slot).halted then .halted else .running
  atRp : k.atRp = true
  ckpt : k.ckpt = k.arch
  ran : k.ran = 0
  arch : k.arch = s.savedArch base (x.keptOf slot).touched
  task : k.task.map Task.launch = some x.id

theorem State.restoreCore_spec (s : State) (k : Core) (x : Launch) (slot base : Nat) :
    (s.restoreCore k x slot base).IsRestored s x slot base ∧ (s.restoreCore k x slot base).id = k.id :=
  ⟨⟨rfl, rfl, rfl, rfl, rfl, rfl⟩, rfl⟩

theorem State.savedArch_pc (s : State) (base : Nat) (touched : Bool) :
    (s.savedArch base touched).pc = BitVec.ofNat 64 (leVal (s.mem.run (base + 0x108) 8)) := rfl

theorem State.savedArch_rs (s : State) (base : Nat) (touched : Bool) {r : SReg} (hr : r ≠ 0) :
    (s.savedArch base touched).rs r = BitVec.ofNat 64 (leVal (s.mem.run (base + (0x110 + 8 * r.val)) 8)) := by
  unfold Arch.rs
  rw [if_neg hr]
  exact Vector.getElem_ofFn _

/-- The core that a slot of a launch runs on. -/
def State.coreOf (s : State) (x : Launch) (slot : Nat) : Nat := s.physical (x.cores.getD slot 0)

/-- The state in which a slot is handed to its core: the TLB is wiped where R169 asks for it, and other streams' values have gone to their
light blocks. -/
def State.handed (s : State) (x : Launch) (slot : Nat) : State :=
  (s.wipeTlb (s.coreOf x slot) x.id).passCore (x.cores.getD slot 0) (x.stream.map (fun st => (x.die, st)))

/-- The core of a slot with its save restored into it. -/
def State.restored (s : State) (x : Launch) (slot : Nat) : Core :=
  (s.handed x slot).restoreCore ((s.handed x slot).coreAt (s.coreOf x slot)) x slot (x.lr.saveBase slot)

/-- Where nothing is carried, a slot that is handed over changes the TLB alone. -/
theorem State.handed_eq (x : Launch) (slot : Nat) (hnone : s.carried = []) : ∃ tl, s.handed x slot = { s with tlb := tl } := by
  obtain ⟨tl, hwipe⟩ := s.wipeTlb_eq (s.coreOf x slot) x.id
  refine ⟨tl, ?_⟩
  unfold State.handed
  rw [State.passCore_of_none (by rw [hwipe]; exact hnone), hwipe]

theorem State.restored_spec (x : Launch) (slot : Nat) (hnone : s.carried = []) :
    (s.restored x slot).IsRestored s x slot (x.lr.saveBase slot) ∧ (s.restored x slot).id = s.coreOf x slot := by
  obtain ⟨tl, hhanded⟩ := s.handed_eq x slot hnone
  obtain ⟨hrestored, hid⟩ := (s.handed x slot).restoreCore_spec ((s.handed x slot).coreAt (s.coreOf x slot)) x slot (x.lr.saveBase slot)
  refine ⟨?_, hid.trans (State.coreAt_id _ _)⟩
  rw [hhanded] at hrestored
  unfold State.restored
  rw [hhanded]
  exact ⟨hrestored.status, hrestored.atRp, hrestored.ckpt, hrestored.ran, hrestored.arch, hrestored.task⟩

/-- The launch with a task on a slot. -/
def Launch.runs (x : Launch) (slot k : Nat) : Launch := { x with slots := x.slots.set slot (.running k) }

section
variable (s : State) (tl : List TlbEnt) (k : Core) (os : List Core) (ls : List Launch)

/-! What a save holds, and the way to it, do not depend on the cores, the TLB and the launches. -/

theorem State.noRouteAt_of_cores (d pa : Nat) : State.noRouteAt { s with tlb := tl, core := k, others := os, launches := ls } d pa = s.noRouteAt d pa := rfl

theorem State.savedContin_of_cores (base : Nat) : State.savedContin { s with tlb := tl, core := k, others := os, launches := ls } base = s.savedContin base := rfl

theorem State.saveLost_of_cores (x : Launch) (slot base : Nat) :
    State.saveLost { s with tlb := tl, core := k, others := os, launches := ls } x slot base = s.saveLost x slot base := rfl

theorem State.noRouteAt_of_dispQueues (dq : Vector QueuePair 8) (d pa : Nat) : State.noRouteAt { s with dispQueues := dq } d pa = s.noRouteAt d pa := rfl

theorem State.saveLost_of_dispQueues (dq : Vector QueuePair 8) (x : Launch) (slot base : Nat) :
    State.saveLost { s with dispQueues := dq } x slot base = s.saveLost x slot base := rfl

end

/-- The restored core stands in its place, and its slot runs task `k`. -/
def State.placed (s : State) (x : Launch) (slot k : Nat) : State :=
  ((s.handed x slot).onCore (s.coreOf x slot) (fun _ => s.restored x slot)).setSlot x.id slot (.running k)

/-- A state in which a slot's core stands in focus, restored, and the slot runs: nothing else but the TLB has changed. -/
def State.HasPlaced (s u : State) (x : Launch) (slot : Nat) : Prop :=
  (∃ tl os ls, u = { s with tlb := tl, core := s.restored x slot, others := os, launches := ls }) ∧ ∃ k, u.launch x.id = some (x.runs slot k)

theorem State.hasPlaced (hx : s.launch x.id = some x) (hnone : s.carried = []) (k : Nat) :
    s.HasPlaced ((s.placed x slot k).focus (s.coreOf x slot)) x slot := by
  obtain ⟨tl, hhanded⟩ := s.handed_eq x slot hnone
  obtain ⟨_, hid⟩ := s.restored_spec x slot hnone
  obtain ⟨os, hfocus⟩ := (s.placed x slot k).focus_eq (s.coreOf x slot)
  obtain ⟨k', os', hon⟩ := (s.handed x slot).onCore_eq (s.coreOf x slot) (fun _ => s.restored x slot)
  have hcore : (s.placed x slot k).coreAt (s.coreOf x slot) = s.restored x slot :=
    State.coreAt_onCore_same (s := s.handed x slot) (f := fun _ => s.restored x slot) hid
  rw [hfocus, hcore, State.placed, hon, hhanded]
  exact ⟨⟨tl, os, _, rfl⟩, k, State.launch_onLaunch (f := fun y => y.runs slot k) hx fun _ => rfl⟩

/-- FULL_RESTORE of a slot whose save can be read and holds no continuation (R191). -/
theorem State.restoreSlot_of_kept (hx : s.launch x.id = some x) (hnone : s.carried = []) (hok : s.saveLost x slot (x.lr.saveBase slot) = false)
    (hroute : s.noRouteAt (dieOf (s.coreOf x slot)) (x.lr.saveBase slot) = false) (hcontin : s.savedContin (x.lr.saveBase slot) = none) :
    ∃ u, s.restoreSlot x slot = u.focus s.core.id ∧ s.HasPlaced u x slot := by
  unfold State.restoreSlot
  extract_lets core c base home t n u v w
  have hplaced : s.HasPlaced u x slot := State.hasPlaced hx hnone _
  obtain ⟨⟨tl, os, ls, hu⟩, hlaunch⟩ := hplaced
  have huroute : u.noRouteAt (dieOf c) base = false := by rw [hu, State.noRouteAt_of_cores]; exact hroute
  have huok : u.saveLost x slot base = false := by rw [hu, State.saveLost_of_cores]; exact hok
  have hucontin : u.savedContin base = none := by rw [hu, State.savedContin_of_cores]; exact hcontin
  have hv : v = u := if_neg (by rw [huroute]; exact Bool.false_ne_true)
  have hw : w = u := by
    simp only [w, hv, huroute, huok, hucontin, Bool.or_false, Bool.false_eq_true, if_false]
  exact ⟨u, by rw [hw], ⟨tl, os, ls, hu⟩, hlaunch⟩

/-- FULL_RESTORE of a slot whose save cannot be read: the context is lost, after the record of a home that no route leads to
(R195, R367). -/
theorem State.restoreSlot_of_lost (hx : s.launch x.id = some x) (hnone : s.carried = [])
    (hlost : s.saveLost x slot (x.lr.saveBase slot) = true ∨ s.noRouteAt (dieOf (s.coreOf x slot)) (x.lr.saveBase slot) = true) :
    ∃ u dq pc, s.restoreSlot x slot = (State.fatal { u with dispQueues := dq } Cause.saveLost 0 0 pc 0 0 0).focus s.core.id ∧ s.HasPlaced u x slot := by
  unfold State.restoreSlot
  extract_lets core c base home t n u v w
  have hplaced : s.HasPlaced u x slot := State.hasPlaced hx hnone _
  obtain ⟨⟨tl, os, ls, hu⟩, hlaunch⟩ := hplaced
  have hulost : u.saveLost x slot base = true ∨ u.noRouteAt (dieOf c) base = true := by
    rw [hu, State.saveLost_of_cores, State.noRouteAt_of_cores]
    exact hlost
  have hv : ∃ dq, v = { u with dispQueues := dq } := by
    simp only [v]
    split
    · exact ⟨_, rfl⟩
    · exact ⟨_, rfl⟩
  obtain ⟨dq, hv⟩ := hv
  have hvlost : (v.saveLost x slot base || v.noRouteAt (dieOf c) base) = true := by
    rw [hv, State.saveLost_of_dispQueues, State.noRouteAt_of_dispQueues]
    exact Bool.or_eq_true_iff.mpr hulost
  exact ⟨u, dq, n.arch.pc, by rw [← hv]; exact congrArg (State.focus · home) (if_pos hvlost), ⟨tl, os, ls, hu⟩, hlaunch⟩

theorem Launch.lt_of_savedAt (h : x.savedAt slot = true) : slot < x.slots.length := by
  by_contra hout
  simp [Launch.savedAt, List.getElem?_eq_none (Nat.le_of_not_lt hout)] at h

theorem Launch.runs_getElem? (h : slot < x.slots.length) (k : Nat) : (x.runs slot k).slots[slot]? = some (.running k) :=
  List.getElem?_set_self h

theorem Core.ctx_of_task {k : Core} {l : Nat} (h : k.task.map Task.launch = some l) : k.ctx = l := by
  obtain ⟨t, ht, hl⟩ := Option.map_eq_some_iff.mp h
  rw [Core.ctx, ht]
  exact hl

/-- A slot that is restored runs on its core (R191). -/
theorem State.restoreSlot_spec_of_kept (hx : s.launch x.id = some x) (hnone : s.carried = [])
    (hok : s.saveLost x slot (x.lr.saveBase slot) = false) (hroute : s.noRouteAt (dieOf (s.coreOf x slot)) (x.lr.saveBase slot) = false)
    (hcontin : s.savedContin (x.lr.saveBase slot) = none) : ∃ k, (s.restoreSlot x slot).mem = s.mem ∧
      (s.restoreSlot x slot).launch x.id = some (x.runs slot k) ∧
      ((s.restoreSlot x slot).coreAt (s.coreOf x slot)).IsRestored s x slot (x.lr.saveBase slot) := by
  obtain ⟨u, hrestore, ⟨tl, os, ls, hu⟩, k, hlaunch⟩ := State.restoreSlot_of_kept hx hnone hok hroute hcontin
  obtain ⟨hspec, hid⟩ := s.restored_spec x slot hnone
  obtain ⟨os', hfocus⟩ := u.focus_eq s.core.id
  have hcore : u.coreAt (s.coreOf x slot) = s.restored x slot := by
    rw [hu]
    exact if_pos hid
  refine ⟨k, ?_, ?_, ?_⟩
  · rw [hrestore, hfocus, hu]
  · rw [hrestore, hfocus]
    exact hlaunch
  · rw [hrestore, State.coreAt_focus, hcore]
    exact hspec

/-- A slot whose save cannot be read fails with its launch (R189, R195). -/
theorem State.restoreSlot_spec_of_lost (hx : s.launch x.id = some x) (hslot : slot < x.slots.length) (hnone : s.carried = [])
    (hlost : s.saveLost x slot (x.lr.saveBase slot) = true ∨ s.noRouteAt (dieOf (s.coreOf x slot)) (x.lr.saveBase slot) = true) :
    ((s.restoreSlot x slot).coreAt (s.coreOf x slot)).status = .stopped ∧
      ∃ k, (s.restoreSlot x slot).launch x.id = some { x.runs slot k with status := .failed, sched := [] } := by
  obtain ⟨u, dq, pc, hrestore, ⟨tl, os, ls, hu⟩, k, hlaunch⟩ := State.restoreSlot_of_lost hx hnone hlost
  obtain ⟨hspec, hid⟩ := s.restored_spec x slot hnone
  generalize hw : ({ u with dispQueues := dq } : State) = w at hrestore
  have hcore : w.core = s.restored x slot := by rw [← hw, hu]
  have hctx : w.core.ctx = x.id := by rw [hcore]; exact Core.ctx_of_task hspec.task
  have hfound : w.launch w.core.ctx = some (x.runs slot k) := by rw [hctx, ← hw]; exact hlaunch
  have hfailed := State.launch_fatal hfound (Launch.unstarted_of_running (Launch.runs_getElem? hslot k)) Cause.saveLost 0 0 pc 0 0 0
  have hfid : (w.fatal Cause.saveLost 0 0 pc 0 0 0).core.id = s.coreOf x slot := by rw [State.fatal_coreId, hcore, hid]
  obtain ⟨os', hfocus⟩ := (w.fatal Cause.saveLost 0 0 pc 0 0 0).focus_eq s.core.id
  refine ⟨?_, k, ?_⟩
  · rw [hrestore, State.coreAt_focus, ← hfid, State.coreAt_focused]
    exact State.fatal_status _ _ _ _ _ _ _ _
  · rw [hrestore, hfocus]
    rw [hctx] at hfailed
    exact hfailed

theorem execFullRestore_of_none {l : Nat} (h : s.settle.launch l = none) : execFullRestore l slot s = .next s := by
  unfold execFullRestore
  simp only [h]

theorem execFullRestore_of_granted {l : Nat} (hx : s.settle.launch l = some x) (hup : s.up = true) (hrun : x.status = .running) (hcls : x.lr.cls ≠ 2)
    (hsaved : x.savedAt slot = true) (hgrant : s.settle.granted x (x.cores.getD slot 256) = true) :
    execFullRestore l slot s = .next ((s.settle.restoreSlot x slot).releaseStages l) := by
  unfold execFullRestore
  simp only [hx]
  rw [if_neg (by simp [hup, hrun, hsaved]), if_neg hcls, if_pos hgrant]

end
end Sys2Proof.Machine

namespace Sys2Proof.Machine

/-! ## O52 -/

section
variable {s : State} {x : Launch} {l slot : Nat}

theorem State.releaseStages_keeps {v : State} {y : Launch} (h : v.launch l = some y) (hnone : y.sched = []) :
    (v.releaseStages l).mem = v.mem ∧ (v.releaseStages l).launch l = some y ∧ ∀ n, (v.releaseStages l).coreAt n = v.coreAt n := by
  obtain ⟨ls, hrelease, hlaunch⟩ := State.releaseStages_of_unscheduled h hnone
  refine ⟨?_, hlaunch, fun n => ?_⟩ <;> rw [hrelease]
  rfl

/-- FULL_RESTORE of a granted slot without a schedule, from what restoring its slot leaves (R142, R191). -/
theorem fullRestore_of_restoreSlot {y : Launch} (hx : s.settle.launch l = some x) (hup : s.up = true) (hrun : x.status = .running) (hcls : x.lr.cls ≠ 2)
    (hsaved : x.savedAt slot = true) (hgrant : s.settle.granted x (x.cores.getD slot 256) = true)
    (hy : (s.settle.restoreSlot x slot).launch x.id = some y) (hnone : y.sched = []) : ∃ t, execFullRestore l slot s = .next t ∧
      t.mem = (s.settle.restoreSlot x slot).mem ∧ t.launch l = some y ∧ ∀ n, t.coreAt n = (s.settle.restoreSlot x slot).coreAt n := by
  rw [State.launch_id hx] at hy
  exact ⟨_, execFullRestore_of_granted hx hup hrun hcls hsaved hgrant, State.releaseStages_keeps hy hnone⟩

end

/-- Settles O52, an event of a pre-emption at a time: a request by what the core waits for, a save by the places of its parts, a restore by what
stands in its area, and a light block by its bytes. -/
theorem preemptionSavesAndRestores : Obligations.PreemptionSavesAndRestores := by
  refine ⟨fun s n => execFullPreemptRequest_of_unasked, fun s n hask hrun hfact => ⟨execFullPreemptRequest_of_stopsHere hask hrun hfact,
      fun b => execFullPreemptRequest_of_waits hask hrun hfact⟩, fun s n => execFullPreemptRequest_of_verdict, fun s t l ht hl => ?_,
    fun s l slot x q hq hx hboot hreset hrun hcls hsaved hgrant hsched hcarried base hbase => ?_, fun s l slot => execFullRestore_of_none,
    fun s => execLightPreempt_of_unheld, fun s h st x l t hheld hx hneeds hdrained ht hl hst hother hnone home hhome hroute => ?_⟩
  · refine ⟨execFullSave_of_waits ht hl, execFullSave_of_bad ht hl, fullSave_of_lost ht hl, fun hready hbad hcls hroute hgran hlines hlatch hg => ?_⟩
    obtain ⟨u, hexec, hout, hcore, hothers, hvalid, hpc, htz, hslots⟩ := fullSave_of_route ht hl hready hbad hcls hroute ⟨hgran, hlines, hlatch, hg⟩
    refine ⟨u, fun base hbase => ?_⟩
    subst hbase
    exact ⟨hexec, hout, hcore, hothers, hvalid, hpc, htz, hslots⟩
  · subst hq
    obtain rfl : base = x.lr.saveBase slot := hbase
    have hid := State.launch_id hx
    have hfound : s.settle.launch x.id = some x := by rw [hid]; exact hx
    have hcore : s.settle.coreOf x slot = s.settle.physical (x.cores.getD slot 256) := by rw [State.coreOf, State.getD_of_granted hgrant]
    rw [← hcore]
    refine ⟨fun hlost => ?_, fun hok hroute hcontin => ?_⟩
    · obtain ⟨hstopped, k, hlaunch⟩ := State.restoreSlot_spec_of_lost hfound (Launch.lt_of_savedAt hsaved) hcarried hlost
      obtain ⟨t, hexec, _, hy, hcores⟩ := fullRestore_of_restoreSlot hx (State.up_of hboot hreset) hrun hcls hsaved hgrant hlaunch rfl
      exact ⟨t, _, hexec, by rw [hcores]; exact hstopped, hy, rfl⟩
    · obtain ⟨k, hmem, hlaunch, hspec⟩ := State.restoreSlot_spec_of_kept hfound hcarried hok hroute hcontin
      obtain ⟨t, hexec, htmem, hy, hcores⟩ := fullRestore_of_restoreSlot hx (State.up_of hboot hreset) hrun hcls hsaved hgrant hlaunch hsched
      refine ⟨t, _, hexec, htmem.trans hmem, hy, ⟨k, Launch.runs_getElem? (Launch.lt_of_savedAt hsaved) k⟩, fun c hc => ?_⟩
      rw [hcores] at hc
      subst hc
      exact ⟨hspec.status, hspec.atRp, hspec.ckpt, hspec.ran, by rw [hspec.arch, State.savedArch_pc],
        fun r hr => by rw [hspec.arch, State.savedArch_rs _ _ _ hr]⟩
  · subst hhome
    obtain ⟨u, hexec, hcore, hmem⟩ := lightPreempt_of_held hheld hx hneeds hdrained ht hl hst hother hnone hroute
    obtain ⟨hout, hregs⟩ := s.mem.put_lightBlock (s.leaves t l st)
    rw [← hmem] at hout hregs
    refine ⟨u, hexec, by rw [hcore]; rfl, by rw [hcore]; rfl, hout, fun i hi => (hregs i hi).trans ?_⟩
    exact congrArg BitVec.toNat (Vector.getElem_ofFn hi)

end Sys2Proof.Machine

namespace Sys2Proof

/-! ## Codes (R43, R49, R60, R61, R87, R206 to R208, R214, R223 to R230, R246) -/

/-- A bit is 0 or 1. -/
theorem bit_lt (b : Bool) : bit b < 2 := by cases b <;> decide

@[simp] theorem bit_beq_one (b : Bool) : (bit b == 1) = b := by cases b <;> rfl

theorem Fmt.code_lt (f : Fmt) : f.code < 16 := by
  cases f with
  | bfp i => simp only [Fmt.code]; omega
  | _ => decide

@[simp] theorem Fmt.ofCode_code (f : Fmt) : Fmt.ofCode f.code = some f := by
  cases f with
  | bfp i => revert i; decide
  | _ => rfl

theorem Rm.code_lt (r : Rm) : r.code < 4 := by cases r <;> decide
@[simp] theorem Rm.ofCode_code (r : Rm) : Rm.ofCode r.code = r := by cases r <;> rfl

theorem Ovf.code_lt (o : Ovf) : o.code < 4 := by cases o <;> decide
@[simp] theorem Ovf.ofCode_code (o : Ovf) : Ovf.ofCode o.code = o := by cases o <;> rfl

theorem Scope.code_lt (s : Scope) : s.code < 4 := by cases s <;> decide
@[simp] theorem Scope.ofCode_code (s : Scope) : Scope.ofCode s.code = s := by cases s <;> rfl

theorem CmpCond.code_lt (c : CmpCond) : c.code < 10 := by cases c <;> decide
@[simp] theorem CmpCond.ofCode_code (c : CmpCond) : CmpCond.ofCode c.code = some c := by cases c <;> rfl

theorem FCond.code_lt (c : FCond) : c.code < 7 := by cases c <;> decide
@[simp] theorem FCond.ofCode_code (c : FCond) : FCond.ofCode c.code = some c := by cases c <;> rfl

theorem SFmt.code_lt (f : SFmt) : f.code < 2 := by cases f <;> decide
@[simp] theorem SFmt.ofCode_code (f : SFmt) : SFmt.ofCode f.code = f := by cases f <;> rfl

theorem SFmt.szCode_lt (f : SFmt) : f.szCode < 4 := by cases f <;> decide
@[simp] theorem SFmt.ofSz_szCode (f : SFmt) : SFmt.ofSz f.szCode = some f := by cases f <;> rfl

theorem FcvtPair.code_lt (k : FcvtPair) : k.code < 6 := by cases k <;> decide
@[simp] theorem FcvtPair.ofCode_code (k : FcvtPair) : FcvtPair.ofCode k.code = some k := by cases k <;> rfl

theorem Win.code_lt (w : Win) : w.code < 4 := by cases w <;> decide
@[simp] theorem Win.ofCode_code (w : Win) : Win.ofCode w.code = some w := by cases w <;> rfl

theorem Port.code_lt (p : Port) : p.code < 4 := by cases p <;> decide
@[simp] theorem Port.ofCode_code (p : Port) : Port.ofCode p.code = some p := by cases p <;> rfl

theorem Sz.code_lt (z : Sz) : z.code < 4 := by cases z <;> decide
@[simp] theorem Sz.ofCode_code (z : Sz) : Sz.ofCode z.code = z := by cases z <;> rfl

theorem LineSt.code_lt (s : LineSt) : s.code < 3 := by cases s <;> decide
@[simp] theorem LineSt.ofCode_code (s : LineSt) : LineSt.ofCode s.code = some s := by cases s <;> rfl

@[simp] theorem RedOp.ofCode_code (r : RedOp) : RedOp.ofCode r.code = some r := by cases r <;> rfl

theorem Csr.num_lt (c : Csr) : c.num < 4096 := by
  cases c with
  | ls i | strmst i | enumd i | perm i => simp only [Csr.num]; omega
  | _ => decide

@[simp] theorem Csr.ofNum_num (c : Csr) : Csr.ofNum c.num = some c := by
  cases c with
  | ls i | strmst i | enumd i | perm i => revert i; decide
  | _ => rfl

theorem XOpd.code_lt (o : XOpd) : o.code < 256 := by
  cases o with
  | hold => decide
  | _ => simp only [XOpd.code]; omega

@[simp] theorem XOpd.ofCode_code (o : XOpd) : XOpd.ofCode o.code o.cons = some o := by
  cases o with
  | t n => revert n; decide
  | pair n c => revert n c; decide
  | z n => revert n; decide
  | hold => rfl

/-- An operand without the modifier reads back whichever consume bit is its own: D has none (R210). -/
theorem XOpd.ofCode_code_of_noCons {o : XOpd} (h : o.noCons = true) : XOpd.ofCode o.code false = some o := by
  have hcons : o.cons = false := by cases o <;> simp_all [XOpd.noCons, XOpd.cons]
  rw [← hcons, XOpd.ofCode_code]

/-! ## Fields of a number -/

section
variable {n a b k hi lo : Nat}

theorem fld_of_lt (h : n < 2 ^ (hi + 1)) : fld n hi 0 = n := by
  simp [fld, Nat.mod_eq_of_lt h]

theorem fld_mul (hk : k = 2 ^ lo) (h : n < 2 ^ (hi + 1 - lo)) : fld (n * k) hi lo = n := by
  rw [fld, hk, Nat.mul_div_cancel _ (Nat.two_pow_pos lo), Nat.mod_eq_of_lt h]

/-- What stands above a field does not show in it. -/
theorem fld_mul_add_low (ha : a < 2 ^ k) (hk : hi < k) : fld (n * 2 ^ k + a) hi lo = fld a hi lo := by
  apply Nat.eq_of_testBit_eq
  intro i
  simp only [fld, Nat.testBit_mod_two_pow, Nat.testBit_div_two_pow, Nat.mul_comm n, Nat.testBit_two_pow_mul_add _ ha]
  by_cases h : i < hi + 1 - lo
  · rw [if_pos (show i + lo < k by omega)]
  · simp only [h, decide_false, Bool.false_and]

/-- Neither does what stands below it. -/
theorem fld_mul_add_high (ha : a < 2 ^ k) (hlo : k ≤ lo) (hhi : k ≤ hi) : fld (n * 2 ^ k + a) hi lo = fld n (hi - k) (lo - k) := by
  have hlow : 2 ^ lo = 2 ^ k * 2 ^ (lo - k) := by rw [← Nat.pow_add, Nat.add_sub_cancel' hlo]
  rw [fld, fld, hlow, ← Nat.div_div_eq_div_mul, Nat.mul_comm n, Nat.mul_add_div (Nat.two_pow_pos k), Nat.div_eq_of_lt ha, Nat.add_zero,
    show hi - k + 1 - (lo - k) = hi + 1 - lo by omega]

theorem fld_add_mul_low (ha : a < 2 ^ (hi + 1)) (hk : k = 2 ^ (hi + 1)) : fld (a + b * k) hi 0 = a := by
  simp [fld, hk, Nat.mod_eq_of_lt ha]

theorem fld_add_mul_high (ha : a < 2 ^ lo) (hk : k = 2 ^ lo) (hb : b < 2 ^ (hi + 1 - lo)) : fld (a + b * k) hi lo = b := by
  rw [fld, hk, Nat.add_mul_div_right _ _ (Nat.two_pow_pos lo), Nat.div_eq_of_lt ha, Nat.zero_add, Nat.mod_eq_of_lt hb]

end

/-! ## The S slot (R204, R205) -/

section
variable {op d a sub low hi lo : Nat}

@[simp] theorem encR_opcode (hop : op < 128) (hd : d < 64) (ha : a < 64) (hsub : sub < 32) (hlow : low < 16777216) :
    fld (encR op d a sub low) 47 41 = op := by
  simp only [encR, fld]; omega

@[simp] theorem encR_d (hd : d < 64) (ha : a < 64) (hsub : sub < 32) (hlow : low < 16777216) : fld (encR op d a sub low) 40 35 = d := by
  simp only [encR, fld]; omega

/-- A P register stands in the low three bits of a register field (R204). -/
@[simp] theorem encR_d_pred (hd : d < 8) (ha : a < 64) (hsub : sub < 32) (hlow : low < 16777216) : fld (encR op d a sub low) 37 35 = d := by
  simp only [encR, fld]; omega

@[simp] theorem encR_a (ha : a < 64) (hsub : sub < 32) (hlow : low < 16777216) : fld (encR op d a sub low) 34 29 = a := by
  simp only [encR, fld]; omega

@[simp] theorem encR_a_pred (ha : a < 8) (hsub : sub < 32) (hlow : low < 16777216) : fld (encR op d a sub low) 31 29 = a := by
  simp only [encR, fld]; omega

@[simp] theorem encR_sub (hsub : sub < 32) (hlow : low < 16777216) (hlo : 24 ≤ lo) (hhi : lo ≤ hi) (hhi' : hi ≤ 28) :
    fld (encR op d a sub low) hi lo = fld sub (hi - 24) (lo - 24) := by
  have hsplit : encR op d a sub low = ((op * 2 ^ 12 + d * 2 ^ 6 + a) * 2 ^ 5 + sub) * 2 ^ 24 + low := by simp only [encR]; omega
  rw [hsplit, fld_mul_add_high hlow hlo (hlo.trans hhi), fld_mul_add_low hsub (by omega)]

@[simp] theorem encR_low (hlow : low < 16777216) (hhi : hi < 24) : fld (encR op d a sub low) hi lo = fld low hi lo := by
  have hsplit : encR op d a sub low = (op * 2 ^ 17 + d * 2 ^ 11 + a * 2 ^ 5 + sub) * 2 ^ 24 + low := by simp only [encR]; omega
  rw [hsplit, fld_mul_add_low hlow hhi]

@[simp] theorem encR_lt (hop : op < 128) (hd : d < 64) (ha : a < 64) (hsub : sub < 32) (hlow : low < 16777216) :
    encR op d a sub low < 281474976710656 := by
  simp only [encR]; omega

end

theorem Src.enc_lt (b : Src) : b.enc < 16777216 := by
  cases b <;> simp only [Src.enc] <;> omega

@[simp] theorem fSrc_encR (op d a sub : Nat) (b : Src) : fSrc (encR op d a sub b.enc) = b := by
  rw [fSrc, fS, encR_low b.enc_lt (by decide), encR_low b.enc_lt (by decide), encR_low b.enc_lt (by decide)]
  cases b with
  | reg r =>
    have h : fld (Src.enc (.reg r)) 23 23 = 0 ∧ fld (Src.enc (.reg r)) 22 17 = r := by simp only [Src.enc, fld]; omega
    simp [h]
  | imm v =>
    have h : fld (Src.enc (.imm v)) 23 23 = 1 ∧ fld (Src.enc (.imm v)) 22 0 = v.toNat := by simp only [Src.enc, fld]; omega
    simp [h]


/-- Bits of a slot's word (R199). -/
def SlotKind.width : SlotKind → Nat
  | .s | .c => 48
  | .m | .x => 64
  | .g => 16
  | .event => 0

/-- The word of an instruction lies within its slot, and taken apart it is the instruction again. -/
structure Instr.ReadsBack (k : SlotKind) (i : Instr) : Prop where
  lt : encodeSlot k i < 2 ^ k.width
  build : buildSlot k (encodeSlot k i) = some i

section
variable {op d a sub low hi lo : Nat}
/-- LI's value reaches over SB and SA (R221). -/
@[simp] theorem encR_imm32_opcode (v : BitVec 32) (hop : op < 128) (hd : d < 64) : fld (encR op d 0 0 v.toNat) 47 41 = op := by
  simp only [encR, fld]; omega
@[simp] theorem encR_imm32_d (v : BitVec 32) (hd : d < 64) : fld (encR op d 0 0 v.toNat) 40 35 = d := by
  simp only [encR, fld]; omega
@[simp] theorem encR_imm32 (v : BitVec 32) : fld (encR op d 0 0 v.toNat) 31 0 = v.toNat := by
  simp only [encR, fld]; omega
@[simp] theorem encR_imm32_lt (v : BitVec 32) (hop : op < 128) (hd : d < 64) : encR op d 0 0 v.toNat < 281474976710656 := by
  simp only [encR]; omega
end

theorem Instr.readsBack_s_iff {i : Instr} : i.ReadsBack .s ↔ encS i < 281474976710656 ∧ buildS (encS i) = some i :=
  ⟨fun h => ⟨h.lt, h.build⟩, fun h => ⟨h.1, h.2⟩⟩

theorem readsBack_twoSource (d a : SReg) (b : Src) : ∀ i ∈ [Instr.add d a b, .sub d a b, .mul d a b, .mulh d a b, .mulhu d a b, .div d a b,
    .divu d a b, .rem d a b, .remu d a b, .and d a b, .or d a b, .xor d a b, .andn d a b, .shl d a b, .shr d a b, .sha d a b, .rot d a b,
    .min d a b, .minu d a b, .max d a b, .maxu d a b], i.ReadsBack .s := by
  have := b.enc_lt
  simp only [List.forall_mem_cons, List.not_mem_nil, IsEmpty.forall_iff, implies_true, and_true, Instr.readsBack_s_iff]
  unfold encS
  dsimp only
  simp (disch := omega) [buildS, fS]

theorem readsBack_oneSource (d a : SReg) : ∀ i ∈ [Instr.clz d a, .ctz d a, .popc d a, .sptest d a, .jmpr d a, .ret a, .halt, .tack, .tret, .partn a,
    .yield], i.ReadsBack .s := by
  simp only [List.forall_mem_cons, List.not_mem_nil, IsEmpty.forall_iff, implies_true, and_true, Instr.readsBack_s_iff]
  unfold encS
  dsimp only
  simp (disch := omega) [buildS, fS]

theorem readsBack_cmp (cc : CmpCond) (d : PReg) (a : SReg) (b : Src) : (Instr.cmp cc d a b).ReadsBack .s := by
  have := b.enc_lt
  have := cc.code_lt
  rw [Instr.readsBack_s_iff]
  unfold encS
  dsimp only
  simp (disch := omega) [buildS, fS, fP, fld_of_lt]

theorem readsBack_logic (d a b : PReg) : ∀ i ∈ [Instr.pand d a b, .por d a b, .pnot d a], i.ReadsBack .s := by
  simp only [List.forall_mem_cons, List.not_mem_nil, IsEmpty.forall_iff, implies_true, and_true, Instr.readsBack_s_iff]
  unfold encS
  dsimp only
  simp (disch := omega) [buildS, fP, fld_mul]

theorem readsBack_sel (d : SReg) (p : PReg) (inv : Bool) (a : SReg) (b : Src) : (Instr.sel d p inv a b).ReadsBack .s := by
  have := b.enc_lt
  have := bit_lt inv
  rw [Instr.readsBack_s_iff]
  unfold encS
  dsimp only
  simp (disch := omega) [buildS, fS, fP, fld_add_mul_low, fld_add_mul_high]

theorem readsBack_brkl (p : PReg) (inv : Bool) : (Instr.brkl p inv).ReadsBack .s := by
  have := bit_lt inv
  rw [Instr.readsBack_s_iff]
  unfold encS
  dsimp only
  simp (disch := omega) [buildS, fP, fld_of_lt]

theorem readsBack_float (f : SFmt) (rm : Rm) (d a b : SReg) : ∀ i ∈ [Instr.fadd f rm d a b, .fsub f rm d a b, .fmul f rm d a b, .ffma f rm d a b],
    i.ReadsBack .s := by
  have := f.code_lt
  have := rm.code_lt
  simp only [List.forall_mem_cons, List.not_mem_nil, IsEmpty.forall_iff, implies_true, and_true, Instr.readsBack_s_iff]
  unfold encS
  dsimp only
  simp (disch := omega) [buildS, fS, fld_mul, fld_add_mul_low, fld_add_mul_high]

theorem readsBack_floatUnrounded (f : SFmt) (d a b : SReg) : ∀ i ∈ [Instr.fmin f d a b, .fmax f d a b, .fclass f d a], i.ReadsBack .s := by
  have := f.code_lt
  simp only [List.forall_mem_cons, List.not_mem_nil, IsEmpty.forall_iff, implies_true, and_true, Instr.readsBack_s_iff]
  unfold encS
  dsimp only
  simp (disch := omega) [buildS, fS, fld_mul, fld_of_lt]

theorem readsBack_fcmp (cc : FCond) (f : SFmt) (d : PReg) (a b : SReg) : (Instr.fcmp cc f d a b).ReadsBack .s := by
  have := cc.code_lt
  have := f.code_lt
  rw [Instr.readsBack_s_iff]
  unfold encS
  dsimp only
  simp (disch := omega) [buildS, fS, fP, fld_mul, fld_add_mul_low, fld_add_mul_high]

theorem readsBack_fcvt (k : FcvtPair) (rm : Rm) (d a : SReg) : (Instr.fcvt k rm d a).ReadsBack .s := by
  have := k.code_lt
  have := rm.code_lt
  rw [Instr.readsBack_s_iff]
  unfold encS
  dsimp only
  simp (disch := omega) [buildS, fS, fld_add_mul_low, fld_add_mul_high]

theorem readsBack_spcast (d a : SReg) (w : Win) : (Instr.spcast d a w).ReadsBack .s := by
  have := w.code_lt
  rw [Instr.readsBack_s_iff]
  unfold encS
  dsimp only
  simp (disch := omega) [buildS, fS, fld_of_lt]

theorem readsBack_bind (n : Fin 64) (p : Port) : (Instr.bind n p).ReadsBack .s := by
  have := p.code_lt
  rw [Instr.readsBack_s_iff]
  unfold encS
  dsimp only
  simp (disch := omega) [buildS, fS, fld_of_lt]

theorem readsBack_kset (n : Fin 64) (j : Fin 8) (a : SReg) : (Instr.kset n j a).ReadsBack .s := by
  rw [Instr.readsBack_s_iff]
  unfold encS
  dsimp only
  simp (disch := omega) [buildS, fS, fld_of_lt]

theorem readsBack_leaScaled (d a r : SReg) (k : Fin 4) : (Instr.lea d a (.scaled r k)).ReadsBack .s := by
  have htag : fld (r * 131072) 23 23 = 0 := by simp only [fld]; omega
  rw [Instr.readsBack_s_iff]
  unfold encS
  dsimp only
  simp (disch := omega) [buildS, fS, fld_mul, fld_of_lt, htag]

theorem readsBack_leaImm (d a : SReg) (v : BitVec 23) : (Instr.lea d a (.imm v)).ReadsBack .s := by
  have himm : fld (8388608 + v.toNat) 23 23 = 1 ∧ fld (8388608 + v.toNat) 22 0 = v.toNat := by simp only [fld]; omega
  rw [Instr.readsBack_s_iff]
  unfold encS
  dsimp only
  simp (disch := omega) [buildS, fS, himm]

theorem readsBack_bits (d a : SReg) {pos width : Nat} (hpos : pos < 64) (hfit : pos + width ≤ 64) :
    ∀ i ∈ [Instr.bfx d a pos width, .bfi d a pos width], i.ReadsBack .s := by
  have himm : fld (8388608 + width * 64 + pos) 5 0 = pos ∧ fld (8388608 + width * 64 + pos) 12 6 = width := by simp only [fld]; omega
  simp only [List.forall_mem_cons, List.not_mem_nil, IsEmpty.forall_iff, implies_true, and_true, Instr.readsBack_s_iff]
  unfold encS
  dsimp only
  simp (disch := omega) [buildS, fS, himm]

theorem readsBack_sext (d a : SReg) {n : Nat} (hn : n ≤ 64) : (Instr.sext d a n).ReadsBack .s := by
  have himm : fld (8388608 + n) 6 0 = n := by simp only [fld]; omega
  rw [Instr.readsBack_s_iff]
  unfold encS
  dsimp only
  simp (disch := omega) [buildS, fS, himm]

theorem readsBack_imm23 (n a : SReg) (v : BitVec 23) : ∀ i ∈ [Instr.trap v, .ppld n a v], i.ReadsBack .s := by
  have himm : fld (8388608 + v.toNat) 22 0 = v.toNat := by simp only [fld]; omega
  simp only [List.forall_mem_cons, List.not_mem_nil, IsEmpty.forall_iff, implies_true, and_true, Instr.readsBack_s_iff]
  unfold encS
  dsimp only
  simp (disch := omega) [buildS, fS, himm]

theorem readsBack_barrier (b : Fin 16) : ∀ i ∈ [Instr.barArv b, .barWt b], i.ReadsBack .s := by
  have himm : fld (8388608 + b) 3 0 = b := by simp only [fld]; omega
  simp only [List.forall_mem_cons, List.not_mem_nil, IsEmpty.forall_iff, implies_true, and_true, Instr.readsBack_s_iff]
  unfold encS
  dsimp only
  simp (disch := omega) [buildS, fld_of_lt, himm]

theorem readsBack_imm32 (d : SReg) (v : BitVec 32) : ∀ i ∈ [Instr.li d v, .lih d v], i.ReadsBack .s := by
  simp only [List.forall_mem_cons, List.not_mem_nil, IsEmpty.forall_iff, implies_true, and_true, Instr.readsBack_s_iff]
  unfold encS
  dsimp only
  simp (disch := omega) [buildS, fS]

theorem readsBack_br (p : PReg) (inv : Bool) (off : BitVec 31) : (Instr.br p inv off).ReadsBack .s := by
  have := bit_lt inv
  rw [Instr.readsBack_s_iff]
  unfold encS
  dsimp only
  generalize hw : 0x38 * 2 ^ 41 + p.val * 2 ^ 32 + bit inv * 2 ^ 31 + off.toNat = w
  have hfields : w < 281474976710656 ∧ fld w 47 41 = 0x38 ∧ fld w 34 32 = p ∧ fld w 31 31 = bit inv ∧ fld w 30 0 = off.toNat := by
    subst hw; simp only [fld]; omega
  simp [buildS, fP, hfields]

theorem readsBack_jmp (off : BitVec 31) : (Instr.jmp off).ReadsBack .s := by
  rw [Instr.readsBack_s_iff]
  unfold encS
  dsimp only
  generalize hw : 0x39 * 2 ^ 41 + off.toNat = w
  have hfields : w < 281474976710656 ∧ fld w 47 41 = 0x39 ∧ fld w 30 0 = off.toNat := by
    subst hw; simp only [fld]; omega
  simp [buildS, hfields]

theorem readsBack_call (d : SReg) (off : BitVec 31) : (Instr.call d off).ReadsBack .s := by
  rw [Instr.readsBack_s_iff]
  unfold encS
  dsimp only
  generalize hw : 0x3B * 2 ^ 41 + d.val * 2 ^ 35 + off.toNat = w
  have hfields : w < 281474976710656 ∧ fld w 47 41 = 0x3B ∧ fld w 40 35 = d ∧ fld w 30 0 = off.toNat := by
    subst hw; simp only [fld]; omega
  simp [buildS, fS, hfields]

theorem readsBack_loopCnt (n : BitVec 17) {len : Nat} (hlen : len < 65536) : (Instr.loop (.cnt n) len).ReadsBack .s := by
  rw [Instr.readsBack_s_iff]
  unfold encS
  dsimp only
  generalize hw : 0x3D * 2 ^ 41 + n.toNat * 2 ^ 16 + len = w
  have hfields : w < 281474976710656 ∧ fld w 47 41 = 0x3D ∧ fld w 40 39 = 0 ∧ fld w 32 16 = n.toNat ∧ fld w 15 0 = len := by
    subst hw; simp only [fld]; omega
  simp [buildS, hfields]

theorem readsBack_loopReg (a : SReg) {len : Nat} (hlen : len < 65536) : (Instr.loop (.reg a) len).ReadsBack .s := by
  rw [Instr.readsBack_s_iff]
  unfold encS
  dsimp only
  generalize hw : 0x3D * 2 ^ 41 + 2 ^ 39 + a.val * 2 ^ 33 + len = w
  have hfields : w < 281474976710656 ∧ fld w 47 41 = 0x3D ∧ fld w 40 39 = 1 ∧ fld w 38 33 = a ∧ fld w 15 0 = len := by
    subst hw; simp only [fld]; omega
  simp [buildS, fS, hfields]

theorem readsBack_loopSeql {len : Nat} (hlen : len < 65536) : (Instr.loop .seql len).ReadsBack .s := by
  rw [Instr.readsBack_s_iff]
  unfold encS
  dsimp only
  generalize hw : 0x3D * 2 ^ 41 + 2 ^ 40 + len = w
  have hfields : w < 281474976710656 ∧ fld w 47 41 = 0x3D ∧ fld w 40 39 = 2 ∧ fld w 15 0 = len := by
    subst hw; simp only [fld]; omega
  simp [buildS, hfields]

theorem readsBack_csrr (d : SReg) (c : Csr) : (Instr.csrr d c).ReadsBack .s := by
  have := c.num_lt
  rw [Instr.readsBack_s_iff]
  unfold encS
  dsimp only
  generalize hw : 0x43 * 2 ^ 41 + d.val * 2 ^ 35 + c.num * 2 ^ 17 = w
  have hfields : w < 281474976710656 ∧ fld w 47 41 = 0x43 ∧ fld w 40 35 = d ∧ fld w 28 17 = c.num := by
    subst hw; simp only [fld]; omega
  simp [buildS, fS, hfields]

theorem readsBack_csrw (c : Csr) (a : SReg) : (Instr.csrw c a).ReadsBack .s := by
  have := c.num_lt
  rw [Instr.readsBack_s_iff]
  unfold encS
  dsimp only
  generalize hw : 0x44 * 2 ^ 41 + a.val * 2 ^ 29 + c.num * 2 ^ 17 = w
  have hfields : w < 281474976710656 ∧ fld w 47 41 = 0x44 ∧ fld w 34 29 = a ∧ fld w 28 17 = c.num := by
    subst hw; simp only [fld]; omega
  simp [buildS, fS, hfields]

theorem readsBack_waitm (d a : SReg) (off : BitVec 17) (b c : SReg) : (Instr.waitm d a off b c).ReadsBack .s := by
  rw [Instr.readsBack_s_iff]
  unfold encS
  dsimp only
  generalize hw : 0x45 * 2 ^ 41 + d.val * 2 ^ 35 + a.val * 2 ^ 29 + b.val * 2 ^ 23 + c.val * 2 ^ 17 + off.toNat = w
  have hfields : w < 281474976710656 ∧ fld w 47 41 = 0x45 ∧ fld w 40 35 = d ∧ fld w 34 29 = a ∧ fld w 28 23 = b ∧ fld w 22 17 = c ∧
      fld w 16 0 = off.toNat := by
    subst hw; simp only [fld]; omega
  simp [buildS, fS, hfields]

theorem Instr.readsBack_of_s {i : Instr} (hslot : i.slot = .s) (hwf : i.wf = true) (hnop : i ≠ .nop) : i.ReadsBack .s := by
  cases i with
  | nop => contradiction
  | add d a b | sub d a b | mul d a b | mulh d a b | mulhu d a b | div d a b | divu d a b | rem d a b | remu d a b | and d a b | or d a b
  | xor d a b | andn d a b | shl d a b | shr d a b | sha d a b | rot d a b | min d a b | minu d a b | max d a b | maxu d a b =>
    exact readsBack_twoSource d a b _ (by simp)
  | clz d a | ctz d a | popc d a | sptest d a | jmpr d a => exact readsBack_oneSource d a _ (by simp)
  | ret a | partn a => exact readsBack_oneSource 0 a _ (by simp)
  | halt | tack | tret | yield => exact readsBack_oneSource 0 0 _ (by simp)
  | cmp cc d a b => exact readsBack_cmp cc d a b
  | pand d a b | por d a b => exact readsBack_logic d a b _ (by simp)
  | pnot d a => exact readsBack_logic d a 0 _ (by simp)
  | sel d p inv a b => exact readsBack_sel d p inv a b
  | brkl p inv => exact readsBack_brkl p inv
  | fadd f rm d a b | fsub f rm d a b | fmul f rm d a b | ffma f rm d a b => exact readsBack_float f rm d a b _ (by simp)
  | fmin f d a b | fmax f d a b => exact readsBack_floatUnrounded f d a b _ (by simp)
  | fclass f d a => exact readsBack_floatUnrounded f d a 0 _ (by simp)
  | fcmp cc f d a b => exact readsBack_fcmp cc f d a b
  | fcvt k rm d a => exact readsBack_fcvt k rm d a
  | lea d a b =>
    cases b with
    | scaled r k => exact readsBack_leaScaled d a r k
    | imm v => exact readsBack_leaImm d a v
  | spcast d a w => exact readsBack_spcast d a w
  | bfx d a pos width | bfi d a pos width =>
    simp only [Instr.wf, Bool.and_eq_true, decide_eq_true_eq] at hwf
    exact readsBack_bits d a hwf.1.1 hwf.2 _ (by simp)
  | sext d a n =>
    simp only [Instr.wf, Bool.and_eq_true, decide_eq_true_eq] at hwf
    exact readsBack_sext d a hwf.2
  | li d v | lih d v => exact readsBack_imm32 d v _ (by simp)
  | br p inv off => exact readsBack_br p inv off
  | jmp off => exact readsBack_jmp off
  | call d off => exact readsBack_call d off
  | loop src len =>
    simp only [Instr.wf, Bool.and_eq_true, decide_eq_true_eq] at hwf
    cases src with
    | cnt n => exact readsBack_loopCnt n hwf.2
    | reg a => exact readsBack_loopReg a hwf.2
    | seql => exact readsBack_loopSeql hwf.2
  | trap v => exact readsBack_imm23 0 0 v _ (by simp)
  | ppld n a v => exact readsBack_imm23 n a v _ (by simp)
  | csrr d c => exact readsBack_csrr d c
  | csrw c a => exact readsBack_csrw c a
  | waitm d a off b c => exact readsBack_waitm d a off b c
  | barArv b | barWt b => exact readsBack_barrier b _ (by simp)
  | bind n p => exact readsBack_bind n p
  | kset n j a => exact readsBack_kset n j a
  | _ => contradiction


/-! ## The M slot (R207, R208) -/

theorem Instr.readsBack_m_iff {i : Instr} : i.ReadsBack .m ↔ encM i < 18446744073709551616 ∧ buildM (encM i) = some i :=
  ⟨fun h => ⟨h.lt, h.build⟩, fun h => ⟨h.1, h.2⟩⟩

theorem OrdF.encM_lt (o : OrdF) : o.encM < 144115188075855872 := by
  have := o.scope.code_lt
  simp only [OrdF.encM]; omega

/-- Nothing of the ordering fields stands below bit 44. -/
theorem OrdF.encM_mod (o : OrdF) : o.encM % 17592186044416 = 0 := by
  simp only [OrdF.encM]; omega

theorem fOrdM_of_eq {w op r : Nat} {o : OrdF} (hw : w = op * 2 ^ 57 + o.encM + r) (hr : r < 17592186044416) : fOrdM w = o := by
  have := o.scope.code_lt
  have hfields : fld w 56 54 = o.stream ∧ fld w 53 46 = o.pmask.toNat ∧ fld w 45 44 = o.scope.code := by
    subst hw; simp only [OrdF.encM, fld]; omega
  simp [fOrdM, hfields]

section
variable {op z d b c e p o : Nat} {off : BitVec 22} {offA : BitVec 13}

@[simp] theorem fOrdM_encMG (o : OrdF) (hz : z < 4) (hd : d < 64) (hb : b < 64) (hc : c < 64) : fOrdM (encMG op z d b c off o.encM) = o :=
  fOrdM_of_eq (op := op) (r := z * 2 ^ 42 + d * 2 ^ 34 + b * 2 ^ 28 + c * 2 ^ 22 + off.toNat) (by simp only [encMG]; omega) (by omega)

@[simp] theorem encMG_opcode (hop : op < 128) (hz : z < 4) (hd : d < 64) (hb : b < 64) (hc : c < 64) (ho : o < 144115188075855872)
    (ho' : o % 17592186044416 = 0) : fld (encMG op z d b c off o) 63 57 = op := by
  simp only [encMG, fld]; omega

@[simp] theorem encMG_z (hz : z < 4) (hd : d < 64) (hb : b < 64) (hc : c < 64) (ho : o % 17592186044416 = 0) :
    fld (encMG op z d b c off o) 43 42 = z := by
  simp only [encMG, fld]; omega

@[simp] theorem encMG_z_low (hz : z < 2) (hd : d < 64) (hb : b < 64) (hc : c < 64) (ho : o % 17592186044416 = 0) :
    fld (encMG op (2 + z) d b c off o) 42 42 = z := by
  simp only [encMG, fld]; omega

@[simp] theorem encMG_d (hd : d < 64) (hb : b < 64) (hc : c < 64) (ho : o % 17592186044416 = 0) :
    fld (encMG op z d b c off o) 39 34 = d := by
  simp only [encMG, fld]; omega

/-- A shape slot stands in the low five bits of the destination field (R207). -/
@[simp] theorem encMG_d_slot (hd : d < 32) (hb : b < 64) (hc : c < 64) (ho : o % 17592186044416 = 0) :
    fld (encMG op z d b c off o) 38 34 = d := by
  simp only [encMG, fld]; omega

@[simp] theorem encMG_b (hb : b < 64) (hc : c < 64) (ho : o % 17592186044416 = 0) : fld (encMG op z d b c off o) 33 28 = b := by
  simp only [encMG, fld]; omega

@[simp] theorem encMG_c (hc : c < 64) (ho : o % 17592186044416 = 0) : fld (encMG op z d b c off o) 27 22 = c := by
  simp only [encMG, fld]; omega

@[simp] theorem encMG_c_shift (hc : c < 32) (ho : o % 17592186044416 = 0) : fld (encMG op z d b c off o) 26 22 = c := by
  simp only [encMG, fld]; omega

@[simp] theorem encMG_off (ho : o % 17592186044416 = 0) : fld (encMG op z d b c off o) 21 0 = off.toNat := by
  simp only [encMG, fld]; omega

@[simp] theorem encMG_word (w : Fin 16) (ho : o % 17592186044416 = 0) : fld (encMG op z d b c (BitVec.ofNat 22 w) o) 3 0 = w := by
  simp only [encMG, fld, BitVec.toNat_ofNat]; omega

@[simp] theorem encMG_lt (hop : op < 128) (hz : z < 4) (hd : d < 64) (hb : b < 64) (hc : c < 64) (ho : o < 144115188075855872)
    (ho' : o % 17592186044416 = 0) : encMG op z d b c off o < 18446744073709551616 := by
  simp only [encMG]; omega

@[simp] theorem fOrdM_encMA (o : OrdF) (hz : z < 4) (hd : d < 64) (hb : b < 64) (hc : c < 64) (he : e < 64) (hp : p < 8) :
    fOrdM (encMA op z d b c e p offA o.encM) = o :=
  fOrdM_of_eq (op := op) (r := z * 2 ^ 42 + d * 2 ^ 34 + b * 2 ^ 28 + c * 2 ^ 22 + e * 2 ^ 16 + p * 2 ^ 13 + offA.toNat)
    (by simp only [encMA]; omega) (by omega)

@[simp] theorem encMA_opcode (hop : op < 128) (hz : z < 4) (hd : d < 64) (hb : b < 64) (hc : c < 64) (he : e < 64) (hp : p < 8)
    (ho : o < 144115188075855872) (ho' : o % 17592186044416 = 0) : fld (encMA op z d b c e p offA o) 63 57 = op := by
  simp only [encMA, fld]; omega

@[simp] theorem encMA_z (hz : z < 4) (hd : d < 64) (hb : b < 64) (hc : c < 64) (he : e < 64) (hp : p < 8) (ho : o % 17592186044416 = 0) :
    fld (encMA op z d b c e p offA o) 43 42 = z := by
  simp only [encMA, fld]; omega

@[simp] theorem encMA_d (hd : d < 64) (hb : b < 64) (hc : c < 64) (he : e < 64) (hp : p < 8) (ho : o % 17592186044416 = 0) :
    fld (encMA op z d b c e p offA o) 39 34 = d := by
  simp only [encMA, fld]; omega

@[simp] theorem encMA_b (hb : b < 64) (hc : c < 64) (he : e < 64) (hp : p < 8) (ho : o % 17592186044416 = 0) :
    fld (encMA op z d b c e p offA o) 33 28 = b := by
  simp only [encMA, fld]; omega

@[simp] theorem encMA_c (hc : c < 64) (he : e < 64) (hp : p < 8) (ho : o % 17592186044416 = 0) : fld (encMA op z d b c e p offA o) 27 22 = c := by
  simp only [encMA, fld]; omega

@[simp] theorem encMA_e (he : e < 64) (hp : p < 8) (ho : o % 17592186044416 = 0) : fld (encMA op z d b c e p offA o) 21 16 = e := by
  simp only [encMA, fld]; omega

@[simp] theorem encMA_p (hp : p < 8) (ho : o % 17592186044416 = 0) : fld (encMA op z d b c e p offA o) 15 13 = p := by
  simp only [encMA, fld]; omega

@[simp] theorem encMA_off (ho : o % 17592186044416 = 0) : fld (encMA op z d b c e p offA o) 12 0 = offA.toNat := by
  simp only [encMA, fld]; omega

@[simp] theorem encMA_lt (hop : op < 128) (hz : z < 4) (hd : d < 64) (hb : b < 64) (hc : c < 64) (he : e < 64) (hp : p < 8)
    (ho : o < 144115188075855872) (ho' : o % 17592186044416 = 0) : encMA op z d b c e p offA o < 18446744073709551616 := by
  simp only [encMA]; omega

end

theorem readsBack_sized (z : Sz) (r b : SReg) (off : BitVec 22) (o : OrdF) : ∀ i ∈ [Instr.ld z r b off o, .st z b off r o], i.ReadsBack .m := by
  have := z.code_lt
  have := o.encM_lt
  have := o.encM_mod
  simp only [List.forall_mem_cons, List.not_mem_nil, IsEmpty.forall_iff, implies_true, and_true, Instr.readsBack_m_iff]
  unfold encM
  dsimp only
  simp (disch := omega) [buildM, fS]

theorem readsBack_unsized (r b : SReg) (h : HReg) (off : BitVec 22) (o : OrdF) :
    ∀ i ∈ [Instr.lineq r b off, .pref b off o, .hld h b off o, .hev h, .pfxl r b off o, .pfxi r b off o, .pfxr r b o], i.ReadsBack .m := by
  have := o.encM_lt
  have := o.encM_mod
  simp only [List.forall_mem_cons, List.not_mem_nil, IsEmpty.forall_iff, implies_true, and_true, Instr.readsBack_m_iff]
  unfold encM
  dsimp only
  simp (disch := omega) [buildM, fS]

theorem readsBack_line (st : LineSt) (b : SReg) (off : BitVec 22) (c : SReg) : (Instr.line st b off c).ReadsBack .m := by
  have := st.code_lt
  rw [Instr.readsBack_m_iff]
  unfold encM
  dsimp only
  simp (disch := omega) [buildM, fS]

theorem readsBack_hget (c : SReg) (h : HReg) (w : Fin 16) : (Instr.hget c h w).ReadsBack .m := by
  rw [Instr.readsBack_m_iff]
  unfold encM
  dsimp only
  simp (disch := omega) [buildM, fS]

theorem readsBack_seqld (dbl : Bool) (d b : SReg) (off : BitVec 22) (sh : Fin 32) (o : OrdF) : (Instr.seqld dbl d b off sh o).ReadsBack .m := by
  have := bit_lt dbl
  have := o.encM_lt
  have := o.encM_mod
  rw [Instr.readsBack_m_iff]
  unfold encM
  dsimp only
  simp (disch := omega) [buildM, fS]

theorem readsBack_atomic (z : Sz) (d b : SReg) (off : BitVec 13) (c : SReg) (o : OrdF) :
    ∀ i ∈ [Instr.aadd z d b off c o, .amin z d b off c o, .amax z d b off c o, .aminu z d b off c o, .amaxu z d b off c o, .aand z d b off c o,
      .aor z d b off c o, .axor z d b off c o, .aswp z d b off c o], i.ReadsBack .m := by
  have := z.code_lt
  have := o.encM_lt
  have := o.encM_mod
  simp only [List.forall_mem_cons, List.not_mem_nil, IsEmpty.forall_iff, implies_true, and_true, Instr.readsBack_m_iff]
  unfold encM
  dsimp only
  simp (disch := omega) [buildM, fS]

theorem readsBack_compared (z : Sz) (d b : SReg) (off : BitVec 13) (c e : SReg) (pd : PReg) (o : OrdF) :
    ∀ i ∈ [Instr.acas z d b off c e o, .asubf z d b off c e pd o], i.ReadsBack .m := by
  have := z.code_lt
  have := o.encM_lt
  have := o.encM_mod
  simp only [List.forall_mem_cons, List.not_mem_nil, IsEmpty.forall_iff, implies_true, and_true, Instr.readsBack_m_iff]
  unfold encM
  dsimp only
  simp (disch := omega) [buildM, fS, fP]

theorem readsBack_afadd (f : SFmt) (d b : SReg) (off : BitVec 13) (c : SReg) (o : OrdF) : (Instr.afadd f d b off c o).ReadsBack .m := by
  have := f.szCode_lt
  have := o.encM_lt
  have := o.encM_mod
  rw [Instr.readsBack_m_iff]
  unfold encM
  dsimp only
  simp (disch := omega) [buildM, fS]

/-- The M slot's word with the address part of a tile access in it, and what else stands below: its fields (R207). -/
theorem fields_tile {w op low : Nat} {o : OrdF} {f : Fmt} {t : TReg} (hop : op < 128) (hlow : low < 2 ^ 34)
    (hw : w = op * 2 ^ 57 + o.encM + f.code * 2 ^ 40 + t.val * 2 ^ 34 + low) :
    w < 18446744073709551616 ∧ fld w 63 57 = op ∧ fOrdM w = o ∧ fld w 43 40 = f.code ∧ fld w 39 34 = t ∧
      ∀ hi lo, hi < 34 → fld w hi lo = fld low hi lo := by
  have hf := f.code_lt
  have hlt := o.encM_lt
  have hmod := o.encM_mod
  have hrest : f.code * 2 ^ 40 + t.val * 2 ^ 34 + low < 17592186044416 := by omega
  refine ⟨by omega, by simp only [fld]; omega, fOrdM_of_eq (op := op) (by rw [hw]; ring) hrest, by simp only [fld]; omega, by simp only [fld]; omega,
    fun hi lo hhi => ?_⟩
  obtain ⟨q, hq⟩ : ∃ q, o.encM = q * 2 ^ 34 := ⟨o.encM / 2 ^ 34, by omega⟩
  have hsplit : w = (op * 2 ^ 23 + q + f.code * 2 ^ 6 + t.val) * 2 ^ 34 + low := by rw [hw, hq]; ring
  rw [hsplit, fld_mul_add_low hlow hhi]

theorem TileAddr.enc_lt (ad : TileAddr) : ad.enc < 2 ^ 34 := by
  cases ad <;> simp only [TileAddr.enc] <;> omega

theorem fTile_of_low {w : Nat} (ad : TileAddr) (cons : Bool)
    (hlow : ∀ hi lo, hi < 34 → fld w hi lo = fld (ad.enc + bit cons * 2 ^ 20) hi lo) : fTile w = ad ∧ fld w 20 20 = bit cons := by
  have := bit_lt cons
  rw [fTile, fS, hlow 20 20 (by decide), hlow 21 21 (by decide), hlow _ 28 (by decide), hlow 19 0 (by decide)]
  generalize hr : ad.enc + bit cons * 2 ^ 20 = r
  cases ad with
  | pair sb =>
    have hfields : fld r 21 21 = 0 ∧ fld r 33 28 = sb ∧ fld r 20 20 = bit cons := by subst hr; simp only [TileAddr.enc, fld]; omega
    simp [hfields]
  | mem sb off =>
    have hfields : fld r 21 21 = 1 ∧ fld r 33 28 = sb ∧ fld r 19 0 = off.toNat ∧ fld r 20 20 = bit cons := by
      subst hr; simp only [TileAddr.enc, fld]; omega
    simp [hfields]

theorem readsBack_ldt (f : Fmt) (t : TReg) (ad : TileAddr) (cons : Bool) (o : OrdF) : (Instr.ldt f t ad cons o).ReadsBack .m := by
  have hlow : ad.enc + bit cons * 2 ^ 20 < 2 ^ 34 := by
    have := bit_lt cons
    cases ad <;> simp only [TileAddr.enc] <;> omega
  rw [Instr.readsBack_m_iff]
  unfold encM
  dsimp only
  generalize hw : 0x04 * 2 ^ 57 + o.encM + f.code * 2 ^ 40 + t.val * 2 ^ 34 + ad.enc + bit cons * 2 ^ 20 = w
  obtain ⟨hlt, hop, hord, hfmt, hreg, hfields⟩ := fields_tile (by decide) hlow (hw.symm.trans (Nat.add_assoc ..))
  obtain ⟨htile, hcons⟩ := fTile_of_low ad cons hfields
  simp [buildM, fS, hlt, hop, hord, hfmt, hreg, htile, hcons]

theorem readsBack_stt (f : Fmt) (ad : TileAddr) (t : TReg) (o : OrdF) : (Instr.stt f ad t o).ReadsBack .m := by
  rw [Instr.readsBack_m_iff]
  unfold encM
  dsimp only
  generalize hw : 0x05 * 2 ^ 57 + o.encM + f.code * 2 ^ 40 + t.val * 2 ^ 34 + ad.enc = w
  obtain ⟨hlt, hop, hord, hfmt, hreg, hfields⟩ := fields_tile (by decide) ad.enc_lt hw.symm
  obtain ⟨htile, -⟩ := fTile_of_low ad false hfields
  simp [buildM, fS, hlt, hop, hord, hfmt, hreg, htile]

theorem readsBack_stp (f : Fmt) (sb sc : SReg) (t : TReg) (o : OrdF) : (Instr.stp f sb sc t o).ReadsBack .m := by
  have hlow : sb.val * 2 ^ 28 + sc.val * 2 ^ 22 < 2 ^ 34 := by omega
  have hpairs : fld (sb.val * 2 ^ 28 + sc.val * 2 ^ 22) 33 28 = sb ∧ fld (sb.val * 2 ^ 28 + sc.val * 2 ^ 22) 27 22 = sc := by
    simp only [fld]; omega
  rw [Instr.readsBack_m_iff]
  unfold encM
  dsimp only
  generalize hw : 0x06 * 2 ^ 57 + o.encM + f.code * 2 ^ 40 + t.val * 2 ^ 34 + sb.val * 2 ^ 28 + sc.val * 2 ^ 22 = w
  obtain ⟨hlt, hop, hord, hfmt, hreg, hfields⟩ := fields_tile (by decide) hlow (hw.symm.trans (Nat.add_assoc ..))
  have hsb := (hfields 33 28 (by decide)).trans hpairs.1
  have hsc := (hfields 27 22 (by decide)).trans hpairs.2
  simp [buildM, fS, hlt, hop, hord, hfmt, hreg, hsb, hsc]

theorem Instr.readsBack_of_m {i : Instr} (hslot : i.slot = .m) : i.ReadsBack .m := by
  cases i with
  | ld z r b off o | st z b off r o => exact readsBack_sized z r b off o _ (by simp)
  | lineq r b off => exact readsBack_unsized r b 0 off ⟨0, 0, .core⟩ _ (by simp)
  | pref b off o => exact readsBack_unsized 0 b 0 off o _ (by simp)
  | hld h b off o => exact readsBack_unsized 0 b h off o _ (by simp)
  | hev h => exact readsBack_unsized 0 0 h 0 ⟨0, 0, .core⟩ _ (by simp)
  | pfxl r b off o | pfxi r b off o => exact readsBack_unsized r b 0 off o _ (by simp)
  | pfxr r c o => exact readsBack_unsized r c 0 0 o _ (by simp)
  | line st b off c => exact readsBack_line st b off c
  | hget c h w => exact readsBack_hget c h w
  | seqld dbl d b off sh o => exact readsBack_seqld dbl d b off sh o
  | aadd z d b off c o | amin z d b off c o | amax z d b off c o | aminu z d b off c o | amaxu z d b off c o | aand z d b off c o
  | aor z d b off c o | axor z d b off c o | aswp z d b off c o => exact readsBack_atomic z d b off c o _ (by simp)
  | acas z d b off c e o => exact readsBack_compared z d b off c e 0 o _ (by simp)
  | asubf z d b off c e pd o => exact readsBack_compared z d b off c e pd o _ (by simp)
  | afadd f d b off c o => exact readsBack_afadd f d b off c o
  | ldt f t ad cons o => exact readsBack_ldt f t ad cons o
  | stt f ad t o => exact readsBack_stt f ad t o
  | stp f sb sc t o => exact readsBack_stp f sb sc t o
  | _ => contradiction


/-! ## The X slot (R209 to R211) -/

theorem XOpd.noCons_of_isZ {o : XOpd} (h : o.isZ = true) : o.noCons = true := by
  cases o with
  | z n => rfl
  | _ => contradiction

/-- The word with each field put below those before it. -/
theorem XArgs.enc_eq (op : Nat) (x : XArgs) : x.enc op =
    ((((((((((((op * 2 ^ 4 + x.fa.code) * 2 ^ 4 + x.fb.code) * 2 ^ 4 + x.fd.code) * 2 ^ 2 + x.rnd.code) * 2 ^ 2 + x.ovf.code) * 2 ^ 8 +
      x.oa.code) * 2 ^ 8 + x.ob.code) * 2 ^ 8 + x.od.code) * 2 ^ 6 + x.sh.val) * 2 ^ 6 + x.aux.val) * 2 ^ 1 + bit x.oa.cons) * 2 ^ 1 +
      bit x.ob.cons) * 2 ^ 4 + x.var.val := by
  simp only [XArgs.enc]; ring

theorem XArgs.enc_lt {op : Nat} (hop : op < 64) (x : XArgs) : x.enc op < 18446744073709551616 := by
  have hfa := x.fa.code_lt
  have hfb := x.fb.code_lt
  have hfd := x.fd.code_lt
  have hrnd := x.rnd.code_lt
  have hovf := x.ovf.code_lt
  have hoa := x.oa.code_lt
  have hob := x.ob.code_lt
  have hod := x.od.code_lt
  have hca := bit_lt x.oa.cons
  have hcb := bit_lt x.ob.cons
  simp only [XArgs.enc]; omega

theorem XArgs.fields {op : Nat} (hop : op < 64) (x : XArgs) {w : Nat} (hw : x.enc op = w) :
    fld w 63 58 = op ∧ fld w 57 54 = x.fa.code ∧ fld w 53 50 = x.fb.code ∧ fld w 49 46 = x.fd.code ∧
      fld w 45 44 = x.rnd.code ∧ fld w 43 42 = x.ovf.code ∧ fld w 41 34 = x.oa.code ∧ fld w 33 26 = x.ob.code ∧ fld w 25 18 = x.od.code ∧
      fld w 17 12 = x.sh ∧ fld w 11 6 = x.aux ∧ fld w 5 5 = bit x.oa.cons ∧ fld w 4 4 = bit x.ob.cons ∧ fld w 3 0 = x.var := by
  have hfa := x.fa.code_lt
  have hfb := x.fb.code_lt
  have hfd := x.fd.code_lt
  have hrnd := x.rnd.code_lt
  have hovf := x.ovf.code_lt
  have hoa := x.oa.code_lt
  have hob := x.ob.code_lt
  have hod := x.od.code_lt
  have hca := bit_lt x.oa.cons
  have hcb := bit_lt x.ob.cons
  rw [← hw, XArgs.enc_eq]
  simp (disch := omega) only [fld_mul_add_low, fld_mul_add_high, fld_of_lt, Nat.reduceSub, and_self]

/-- The fields of an X-slot word give its operands back, where D has no consume modifier. -/
theorem buildXArgs_enc {op : Nat} (hop : op < 64) {x : XArgs} (hnone : x.od.noCons = true) : buildXArgs (x.enc op) = some x := by
  generalize hw : x.enc op = w
  obtain ⟨-, hfa, hfb, hfd, hrnd, hovf, hoa, hob, hod, hsh, haux, hca, hcb, hvar⟩ := x.fields hop hw
  have ha : XOpd.ofCode (fld w 41 34) (fld w 5 5 == 1) = some x.oa := by rw [hoa, hca, bit_beq_one, XOpd.ofCode_code]
  have hb : XOpd.ofCode (fld w 33 26) (fld w 4 4 == 1) = some x.ob := by rw [hob, hcb, bit_beq_one, XOpd.ofCode_code]
  have hd : XOpd.ofCode (fld w 25 18) false = some x.od := by rw [hod, XOpd.ofCode_code_of_noCons hnone]
  rw [buildXArgs, hfa, hfb, hfd, ha, hb, hd, Fmt.ofCode_code, Fmt.ofCode_code, Fmt.ofCode_code]
  simp [fS, hrnd, hovf, hsh, haux, hvar]

theorem Instr.readsBack_x_iff {i : Instr} : i.ReadsBack .x ↔ encX i < 18446744073709551616 ∧ buildX (encX i) = some i :=
  ⟨fun h => ⟨h.lt, h.build⟩, fun h => ⟨h.1, h.2⟩⟩

theorem readsBack_of_xArgs {i : Instr} {x : XArgs} {op : Nat} (hop : op < 64) (hnone : x.od.noCons = true) (henc : encX i = x.enc op)
    (hbuild : ∀ w, buildXArgs w = some x → fld w 63 58 = op → buildX w = some i) : i.ReadsBack .x := by
  rw [Instr.readsBack_x_iff, henc]
  exact ⟨x.enc_lt hop, hbuild _ (buildXArgs_enc hop hnone) (x.fields hop rfl).1⟩

/-- D is a Z register or has no consume modifier, whatever the form (R276, R296). -/
theorem Instr.readsBack_of_x {i : Instr} (hslot : i.slot = .x) (hwf : i.wf = true) : i.ReadsBack .x := by
  cases i with
  | mma x | mmar x | mmas x | mmat x | zclr x | zld x | zmov x | merge x | lup x | chol x | qrh x | trsm x | trmm x =>
    unfold Instr.wf Instr.wfX at hwf
    simp only [Bool.and_eq_true] at hwf
    exact readsBack_of_xArgs (by decide) (XOpd.noCons_of_isZ (by simp only [hwf])) rfl (fun w hx hop => by simp only [buildX, hx, hop])
  | zst x | trans x | spbuild x | rowred x | colred x | softrow x | topk x | window x =>
    unfold Instr.wf Instr.wfX at hwf
    simp only [Bool.and_eq_true] at hwf
    exact readsBack_of_xArgs (by decide) (by simp only [hwf]) rfl (fun w hx hop => by simp only [buildX, hx, hop])
  | _ => contradiction

/-! ## The C slot (R213, R214) -/

theorem Instr.readsBack_c_iff {i : Instr} : i.ReadsBack .c ↔ encC i < 281474976710656 ∧ buildC (encC i) = some i :=
  ⟨fun h => ⟨h.lt, h.build⟩, fun h => ⟨h.1, h.2⟩⟩

/-- The word with each field put below those before it. -/
theorem CArgs.enc_eq (op : Nat) (c : CArgs) : c.enc op =
    (((((((((op * 2 ^ 3 + c.ord.stream.val) * 2 ^ 8 + c.ord.pmask.toNat) * 2 ^ 2 + c.ord.scope.code) * 2 ^ 1 + bit c.dk) * 2 ^ 1 + bit c.sk) * 2 ^ 6 +
      c.dr.val) * 2 ^ 6 + c.sr.val) * 2 ^ 5 + c.hs.val) * 2 ^ 4 + c.cr.val) * 2 ^ 9 + c.off.val := by
  simp only [CArgs.enc]; ring

theorem CArgs.enc_lt {op : Nat} (hop : op < 8) (c : CArgs) : c.enc op < 281474976710656 := by
  have hscope := c.ord.scope.code_lt
  have hdk := bit_lt c.dk
  have hsk := bit_lt c.sk
  simp only [CArgs.enc]; omega

theorem CArgs.fields {op : Nat} (hop : op < 8) (c : CArgs) {w : Nat} (hw : c.enc op = w) :
    fld w 47 45 = op ∧ fld w 44 42 = c.ord.stream ∧ fld w 41 34 = c.ord.pmask.toNat ∧ fld w 33 32 = c.ord.scope.code ∧ fld w 31 31 = bit c.dk ∧
      fld w 30 30 = bit c.sk ∧ fld w 29 24 = c.dr ∧ fld w 23 18 = c.sr ∧ fld w 17 13 = c.hs ∧ fld w 12 9 = c.cr ∧ fld w 8 0 = c.off := by
  have hscope := c.ord.scope.code_lt
  have hdk := bit_lt c.dk
  have hsk := bit_lt c.sk
  rw [← hw, CArgs.enc_eq]
  simp (disch := omega) only [fld_mul_add_low, fld_mul_add_high, fld_of_lt, Nat.reduceSub, and_self]

theorem buildCArgs_enc {op : Nat} (hop : op < 8) (c : CArgs) : buildCArgs (c.enc op) = c := by
  generalize hw : c.enc op = w
  obtain ⟨-, hstream, hpmask, hscope, hdk, hsk, hdr, hsr, hhs, hcr, hoff⟩ := c.fields hop hw
  simp [buildCArgs, fS, hstream, hpmask, hscope, hdk, hsk, hdr, hsr, hhs, hcr, hoff]

theorem readsBack_cForm (c : CArgs) : ∀ i ∈ [Instr.copy c, .gather c, .scatter c, .mbox c, .bcast c], i.ReadsBack .c := by
  have hopcode (op : Nat) (hop : op < 8) : fld (c.enc op) 47 45 = op := (c.fields hop rfl).1
  simp only [List.forall_mem_cons, List.not_mem_nil, IsEmpty.forall_iff, implies_true, and_true, Instr.readsBack_c_iff]
  unfold encC
  dsimp only
  simp (disch := omega) [buildC, buildCArgs_enc, CArgs.enc_lt, hopcode]

/-- STAGE's word is a C-slot word of its ordering fields with nothing else in it (R214). -/
theorem readsBack_stage (o : OrdF) : (Instr.stage o).ReadsBack .c := by
  have henc : encC (.stage o) = CArgs.enc 4 ⟨o, false, false, 0, 0, 0, 0, 0⟩ := by simp [encC, CArgs.enc, bit]
  rw [Instr.readsBack_c_iff, henc, buildC, (CArgs.fields (by decide) _ rfl).1, buildCArgs_enc (by decide)]
  exact ⟨CArgs.enc_lt (by decide) _, rfl⟩

/-- AREDUCE's reduction stands in the field of the coordinate group (R214). -/
theorem readsBack_areduce {op : RedOp} {c : CArgs} (hcr : c.cr.val = op.code) : (Instr.areduce op c).ReadsBack .c := by
  obtain ⟨hop, -, -, -, -, -, -, -, -, hfield, -⟩ := c.fields (op := 6) (by decide) rfl
  rw [Instr.readsBack_c_iff]
  unfold encC
  dsimp only
  simp (disch := omega) [buildC, buildCArgs_enc, CArgs.enc_lt, hop, hfield, hcr]

theorem Instr.readsBack_of_c {i : Instr} (hslot : i.slot = .c) (hwf : i.wf = true) : i.ReadsBack .c := by
  cases i with
  | copy c | gather c | scatter c | mbox c | bcast c => exact readsBack_cForm c _ (by simp)
  | stage o => exact readsBack_stage o
  | areduce op c =>
    simp only [Instr.wf, Bool.and_eq_true, beq_iff_eq] at hwf
    exact readsBack_areduce (hwf.2.trans (by cases op <;> rfl))
  | _ => contradiction

/-! ## The G slot (R215) -/

theorem Instr.readsBack_of_g {i : Instr} (hslot : i.slot = .g) : i.ReadsBack .g := by
  cases i with
  | gld g inc =>
    obtain ⟨hop, hreg, hinc⟩ : fld (encG (.gld g inc)) 15 14 = 1 ∧ fld (encG (.gld g inc)) 13 10 = g ∧ fld (encG (.gld g inc)) 9 0 = inc := by
      simp only [encG, fld]; omega
    exact ⟨by simp only [encodeSlot, encG, SlotKind.width]; omega, by simp [buildSlot, encodeSlot, buildG, hop, hreg, hinc]⟩
  | gzero g =>
    obtain ⟨hop, hreg⟩ : fld (encG (.gzero g)) 15 14 = 2 ∧ fld (encG (.gzero g)) 13 10 = g := by simp only [encG, fld]; omega
    exact ⟨by simp only [encodeSlot, encG, SlotKind.width]; omega, by simp [buildSlot, encodeSlot, buildG, hop, hreg]⟩
  | _ => contradiction


/-- Neighbouring fields are one. -/
theorem fld_join {w hi mid lo n k : Nat} (hn : n = mid + 1) (hk : k = n - lo) (hlo : lo ≤ mid) (hhi : mid < hi) :
    fld w hi n * 2 ^ k + fld w mid lo = fld w hi lo := by
  subst hn hk
  have hwhole : 2 ^ (hi + 1 - lo) = 2 ^ (mid + 1 - lo) * 2 ^ (hi + 1 - (mid + 1)) := by rw [← Nat.pow_add]; congr 1; omega
  have habove : 2 ^ (mid + 1) = 2 ^ lo * 2 ^ (mid + 1 - lo) := by rw [← Nat.pow_add]; congr 1; omega
  rw [fld, fld, fld, hwhole, Nat.mod_mul, habove, Nat.div_div_eq_div_mul, Nat.add_comm, Nat.mul_comm (2 ^ (mid + 1 - lo))]

/-! ## Slots (R201, R203) -/

theorem Instr.readsBack {k : SlotKind} {i : Instr} (hk : k ≠ .event) (hslot : i.slot = k) (hwf : i.wf = true) (hnop : i ≠ .nop) : i.ReadsBack k := by
  cases k with
  | s => exact Instr.readsBack_of_s hslot hwf hnop
  | m => exact Instr.readsBack_of_m hslot
  | x => exact Instr.readsBack_of_x hslot hwf
  | c => exact Instr.readsBack_of_c hslot hwf
  | g => exact Instr.readsBack_of_g hslot
  | event => contradiction

@[simp] theorem encodeSlot_nop (k : SlotKind) : encodeSlot k .nop = 0 := by cases k <;> rfl

@[simp] theorem buildSlot_zero (k : SlotKind) : buildSlot k 0 = none := by cases k <;> rfl

/-- The encoder of one slot knows no instruction of another. -/
theorem encodeSlot_eq_zero {k : SlotKind} {i : Instr} (h : i.slot ≠ k) : encodeSlot k i = 0 := by
  cases i with
  | add | sub | mul | mulh | mulhu | div | divu | rem | remu | and | or | xor | andn | shl | shr | sha | rot | min | minu | max | maxu | clz | ctz
  | popc | bfx | bfi | sext | li | lih | cmp | pand | por | pnot | sel | fadd | fsub | fmul | ffma | fmin | fmax | fcmp | fcvt | fclass | lea
  | sptest | spcast | br | jmp | call | jmpr | ret | loop | brkl | halt | trap | tack | tret | csrr | csrw | waitm | barArv | barWt | partn | bind
  | kset | ppld | yield =>
    cases k with
    | s => contradiction
    | m | x | c | g | event => rfl
  | ld | st | ldt | stt | stp | aadd | amin | amax | aminu | amaxu | aand | aor | axor | aswp | acas | asubf | afadd | line | lineq | pref | hld | hev
  | hget | seqld | pfxl | pfxi | pfxr =>
    cases k with
    | m => contradiction
    | s | x | c | g | event => rfl
  | mma | mmas | mmar | mmat | zclr | zld | zst | zmov | trans | spbuild | rowred | colred | softrow | merge | topk | window | lup | chol | qrh
  | trsm | trmm =>
    cases k with
    | x => contradiction
    | s | m | c | g | event => rfl
  | copy | gather | scatter | stage | mbox | areduce | bcast =>
    cases k with
    | c => contradiction
    | s | m | x | g | event => rfl
  | gld | gzero =>
    cases k with
    | g => contradiction
    | s | m | x | c | event => rfl
  | _ => cases k <;> rfl

/-- What the slot decoder accepts: the no-op and the slot's own instructions, well formed, each as its encoding (R201, R203). -/
theorem decodeSlot_eq_some_iff {k : SlotKind} {i : Instr} {w : Nat} (hk : k ≠ .event) :
    decodeSlot k w = some i ↔ (i = .nop ∨ i.slot = k) ∧ i.wf = true ∧ encodeSlot k i = w := by
  constructor
  · intro h
    unfold decodeSlot at h
    split at h
    · next hw =>
      obtain rfl := Option.some.inj h
      exact ⟨.inl rfl, rfl, by rw [encodeSlot_nop, hw]⟩
    · next hw =>
      split at h
      · next j _ =>
        obtain ⟨hgood, hj⟩ := Option.ite_none_right_eq_some.mp h
        obtain rfl := Option.some.inj hj
        simp only [Bool.and_eq_true, beq_iff_eq] at hgood
        refine ⟨.inr ?_, hgood⟩
        by_contra hslot
        exact hw (hgood.2 ▸ encodeSlot_eq_zero hslot)
      · contradiction
  · rintro ⟨hi, hwf, rfl⟩
    by_cases hnop : i = .nop
    · simp [decodeSlot, hnop]
    · have hbuild := (Instr.readsBack hk (hi.resolve_left hnop) hwf hnop).build
      have hw : encodeSlot k i ≠ 0 := by
        intro hzero
        rw [hzero, buildSlot_zero] at hbuild
        contradiction
      simp [decodeSlot, hw, hbuild, hwf]

theorem encodeSlot_lt {k : SlotKind} {i : Instr} (hwf : i.wf = true) : encodeSlot k i < 2 ^ k.width := by
  by_cases hi : i.slot = k ∧ i ≠ .nop ∧ k ≠ .event
  · exact (Instr.readsBack hi.2.2 hi.1 hwf hi.2.1).lt
  · have hzero : encodeSlot k i = 0 := by
      by_cases hslot : i.slot = k
      · by_cases hnop : i = .nop
        · rw [hnop, encodeSlot_nop]
        · obtain rfl : k = .event := by tauto
          rfl
      · exact encodeSlot_eq_zero hslot
    rw [hzero]
    exact Nat.two_pow_pos _

/-! ## Bundles (R199, R200, R203) -/

theorem presBit_lt (o : Option Instr) : presBit o < 2 := bit_lt _

theorem fits_some_iff {k : SlotKind} {i : Instr} : fits k (some i) = true ↔ (i = .nop ∨ i.slot = k) ∧ i.wf = true := by
  simp [fits]

theorem encodeOpt_lt {k : SlotKind} {o : Option Instr} (h : fits k o = true) : encodeOpt k o < 2 ^ k.width := by
  cases o with
  | none => exact Nat.two_pow_pos _
  | some i => exact encodeSlot_lt (fits_some_iff.mp h).2

theorem decodePresent_eq_some_iff {k : SlotKind} {pres w : Nat} {o : Option Instr} (hk : k ≠ .event) (hpres : pres < 2) :
    decodePresent k pres w = some o ↔ fits k o = true ∧ presBit o = pres ∧ encodeOpt k o = w := by
  obtain rfl | rfl : pres = 0 ∨ pres = 1 := by omega
  · cases o with
    | none => simp [decodePresent, fits, presBit, bit, encodeOpt, eq_comm]
    | some i => simp [decodePresent, presBit, bit]
  · cases o with
    | none => simp [decodePresent, presBit, bit]
    | some i =>
      have hslot : decodePresent k 1 w = some (some i) ↔ decodeSlot k w = some i := by simp [decodePresent]
      rw [hslot, decodeSlot_eq_some_iff hk]
      simp [fits_some_iff, presBit, bit, encodeOpt, and_assoc]

theorem clashMask_eq_zero_iff (b : Bundle) : clashMask b = 0 ↔ (clash b.s b.m || clash b.s b.x || clash b.s b.c || clash b.s b.g || clash b.m b.x ||
    clash b.m b.c || clash b.m b.g || clash b.x b.c || clash b.x b.g || clash b.c b.g) = false := by
  simp [clashMask, Nat.or_eq_zero_iff]

theorem Bundle.wf_iff (b : Bundle) : b.wf = true ↔ fits .s b.s = true ∧ fits .m b.m = true ∧ fits .x b.x = true ∧ fits .c b.c = true ∧
    fits .g b.g = true ∧ clashMask b = 0 := by
  simp only [Bundle.wf, clashMask_eq_zero_iff, Bool.and_eq_true, Bool.not_eq_true', and_assoc]

/-- What the bundle decoder accepts, field by field (R199, R200). -/
theorem decodeBundle_eq_ok_iff {w : Nat} {b : Bundle} : decodeBundle w = .ok b ↔ ∀ h, fld w 255 240 = h →
    fld h 5 0 = 0 ∧ b.rm = (fld h 15 15 == 1) ∧ b.bpi = Fin.ofNat 8 (fld h 14 12) ∧ b.bpn = (fld h 11 11 == 1) ∧
    decodePresent .s (fld h 6 6) (fld w 239 192) = some b.s ∧ decodePresent .m (fld h 7 7) (fld w 191 128) = some b.m ∧
    decodePresent .x (fld h 8 8) (fld w 127 64) = some b.x ∧ decodePresent .c (fld h 9 9) (fld w 63 16) = some b.c ∧
    decodePresent .g (fld h 10 10) (fld w 15 0) = some b.g ∧ clashMask b = 0 := by
  simp only [decodeBundle, forall_eq']
  generalize fld w 255 240 = h
  generalize decodePresent .s (fld h 6 6) (fld w 239 192) = s
  generalize decodePresent .m (fld h 7 7) (fld w 191 128) = m
  generalize decodePresent .x (fld h 8 8) (fld w 127 64) = x
  generalize decodePresent .c (fld h 9 9) (fld w 63 16) = c
  generalize decodePresent .g (fld h 10 10) (fld w 15 0) = g
  constructor
  · intro hok
    split at hok
    · contradiction
    · next hzero =>
      split at hok
      · next hmask =>
        obtain rfl := Except.ok.inj hok
        obtain ⟨hbad, hclash⟩ := Nat.or_eq_zero_iff.mp hmask
        obtain ⟨s, rfl⟩ : ∃ y, s = some y := by cases s <;> simp_all [bit]
        obtain ⟨m, rfl⟩ : ∃ y, m = some y := by cases m <;> simp_all [bit]
        obtain ⟨x, rfl⟩ : ∃ y, x = some y := by cases x <;> simp_all [bit]
        obtain ⟨c, rfl⟩ : ∃ y, c = some y := by cases c <;> simp_all [bit]
        obtain ⟨g, rfl⟩ : ∃ y, g = some y := by cases g <;> simp_all [bit]
        exact ⟨not_not.mp hzero, rfl, rfl, rfl, rfl, rfl, rfl, rfl, rfl, hclash⟩
      · contradiction
  · rintro ⟨hzero, hrm, hbpi, hbpn, rfl, rfl, rfl, rfl, rfl, hclash⟩
    obtain ⟨rm, bpi, bpn, s, m, x, c, g⟩ := b
    simp only at hrm hbpi hbpn
    subst hrm hbpi hbpn
    simpa [hzero, bit] using hclash

/-- The header with each field put below those before it (R200). -/
theorem encodeHeader_eq (b : Bundle) : encodeHeader b =
    (((((((bit b.rm * 2 ^ 3 + b.bpi.val) * 2 ^ 1 + bit b.bpn) * 2 ^ 1 + presBit b.g) * 2 ^ 1 + presBit b.c) * 2 ^ 1 + presBit b.x) * 2 ^ 1 +
      presBit b.m) * 2 ^ 1 + presBit b.s) * 2 ^ 6 + 0 := by
  simp only [encodeHeader]; ring

theorem encodeHeader_lt (b : Bundle) : encodeHeader b < 2 ^ 16 := by
  have hrm := bit_lt b.rm
  have hbpn := bit_lt b.bpn
  have hs := presBit_lt b.s
  have hm := presBit_lt b.m
  have hx := presBit_lt b.x
  have hc := presBit_lt b.c
  have hg := presBit_lt b.g
  simp only [encodeHeader]; omega

theorem encodeHeader_fields (b : Bundle) {h : Nat} (hh : encodeHeader b = h) : fld h 5 0 = 0 ∧ fld h 15 15 = bit b.rm ∧ fld h 14 12 = b.bpi ∧
    fld h 11 11 = bit b.bpn ∧ fld h 6 6 = presBit b.s ∧ fld h 7 7 = presBit b.m ∧ fld h 8 8 = presBit b.x ∧ fld h 9 9 = presBit b.c ∧
    fld h 10 10 = presBit b.g := by
  have hrm := bit_lt b.rm
  have hbpn := bit_lt b.bpn
  have hs := presBit_lt b.s
  have hm := presBit_lt b.m
  have hx := presBit_lt b.x
  have hc := presBit_lt b.c
  have hg := presBit_lt b.g
  rw [← hh, encodeHeader_eq]
  simp (disch := omega) only [fld_mul_add_low, fld_mul_add_high, fld_of_lt, Nat.reduceSub, and_self]

theorem bit_fld_beq_one (w n : Nat) : bit (fld w n n == 1) = fld w n n := by
  have hlt : fld w n n < 2 := by simp only [fld, Nat.add_sub_cancel_left]; omega
  obtain hzero | hone : fld w n n = 0 ∨ fld w n n = 1 := by omega
  · rw [hzero]; rfl
  · rw [hone]; rfl

theorem header_of_fields {h : Nat} {b : Bundle} (hlt : h < 2 ^ 16) (hzero : fld h 5 0 = 0) (hrm : b.rm = (fld h 15 15 == 1))
    (hbpi : b.bpi = Fin.ofNat 8 (fld h 14 12)) (hbpn : b.bpn = (fld h 11 11 == 1)) (hs : presBit b.s = fld h 6 6) (hm : presBit b.m = fld h 7 7)
    (hx : presBit b.x = fld h 8 8) (hc : presBit b.c = fld h 9 9) (hg : presBit b.g = fld h 10 10) : encodeHeader b = h := by
  have hval : b.bpi.val = fld h 14 12 := by rw [hbpi, Fin.val_ofNat]; simp only [fld]; omega
  calc encodeHeader b
    _ = (((((((fld h 15 15 * 2 ^ 3 + fld h 14 12) * 2 ^ 1 + fld h 11 11) * 2 ^ 1 + fld h 10 10) * 2 ^ 1 + fld h 9 9) * 2 ^ 1 + fld h 8 8) * 2 ^ 1 +
          fld h 7 7) * 2 ^ 1 + fld h 6 6) * 2 ^ 6 + fld h 5 0 := by
      rw [encodeHeader_eq, hrm, hbpn, bit_fld_beq_one, bit_fld_beq_one, hval, hs, hm, hx, hc, hg, hzero]
    _ = fld h 15 0 := by simp (disch := omega) only [fld_join]
    _ = h := fld_of_lt hlt

/-- The 256 bits with each field put below those before it (R199). -/
theorem encodeBundle_eq (b : Bundle) : encodeBundle b =
    ((((encodeHeader b * 2 ^ 48 + encodeOpt .s b.s) * 2 ^ 64 + encodeOpt .m b.m) * 2 ^ 64 + encodeOpt .x b.x) * 2 ^ 48 + encodeOpt .c b.c) * 2 ^ 16 +
      encodeOpt .g b.g := by
  simp only [encodeBundle]; ring

theorem word_of_fields {w : Nat} (hw : w < 2 ^ 256) :
    ((((fld w 255 240 * 2 ^ 48 + fld w 239 192) * 2 ^ 64 + fld w 191 128) * 2 ^ 64 + fld w 127 64) * 2 ^ 48 + fld w 63 16) * 2 ^ 16 + fld w 15 0 = w := by
  simp (disch := omega) only [fld_join]
  exact fld_of_lt hw

theorem encodeBundle_fields {b : Bundle} (hwf : b.wf = true) {w : Nat} (hw : encodeBundle b = w) : fld w 255 240 = encodeHeader b ∧
    fld w 239 192 = encodeOpt .s b.s ∧ fld w 191 128 = encodeOpt .m b.m ∧ fld w 127 64 = encodeOpt .x b.x ∧ fld w 63 16 = encodeOpt .c b.c ∧
    fld w 15 0 = encodeOpt .g b.g := by
  obtain ⟨hs, hm, hx, hc, hg, -⟩ := b.wf_iff.mp hwf
  have hheader := encodeHeader_lt b
  have hs : encodeOpt .s b.s < 2 ^ 48 := encodeOpt_lt hs
  have hm : encodeOpt .m b.m < 2 ^ 64 := encodeOpt_lt hm
  have hx : encodeOpt .x b.x < 2 ^ 64 := encodeOpt_lt hx
  have hc : encodeOpt .c b.c < 2 ^ 48 := encodeOpt_lt hc
  have hg : encodeOpt .g b.g < 2 ^ 16 := encodeOpt_lt hg
  rw [← hw, encodeBundle_eq]
  simp (disch := omega) only [fld_mul_add_low, fld_mul_add_high, fld_of_lt, Nat.reduceSub, and_self]

/-- The 256-bit words that decode are the encodings of the well-formed bundles, each of its own (R199, R200, R203). -/
theorem decodeBundle_eq_ok_iff_encode {w : Nat} {b : Bundle} (hw : w < 2 ^ 256) : decodeBundle w = .ok b ↔ b.wf = true ∧ encodeBundle b = w := by
  rw [decodeBundle_eq_ok_iff, forall_eq', Bundle.wf_iff]
  have hbit (n : Nat) : fld (fld w 255 240) n n < 2 := by simp only [fld, Nat.add_sub_cancel_left]; omega
  rw [decodePresent_eq_some_iff (by decide) (hbit 6), decodePresent_eq_some_iff (by decide) (hbit 7), decodePresent_eq_some_iff (by decide) (hbit 8),
    decodePresent_eq_some_iff (by decide) (hbit 9), decodePresent_eq_some_iff (by decide) (hbit 10)]
  constructor
  · rintro ⟨hzero, hrm, hbpi, hbpn, ⟨hfs, hps, hs⟩, ⟨hfm, hpm, hm⟩, ⟨hfx, hpx, hx⟩, ⟨hfc, hpc, hc⟩, ⟨hfg, hpg, hg⟩, hclash⟩
    have hheader := header_of_fields (by simp only [fld]; omega) hzero hrm hbpi hbpn hps hpm hpx hpc hpg
    exact ⟨⟨hfs, hfm, hfx, hfc, hfg, hclash⟩, by rw [encodeBundle_eq, hheader, hs, hm, hx, hc, hg, word_of_fields hw]⟩
  · rintro ⟨hwf, henc⟩
    obtain ⟨hheader, hs, hm, hx, hc, hg⟩ := encodeBundle_fields (b.wf_iff.mpr hwf) henc
    obtain ⟨hzero, hrm, hbpi, hbpn, hps, hpm, hpx, hpc, hpg⟩ := encodeHeader_fields b hheader.symm
    obtain ⟨hfs, hfm, hfx, hfc, hfg, hclash⟩ := hwf
    exact ⟨hzero, by simp [hrm], by simp [hbpi], by simp [hbpn], ⟨hfs, hps.symm, hs.symm⟩, ⟨hfm, hpm.symm, hm.symm⟩, ⟨hfx, hpx.symm, hx.symm⟩,
      ⟨hfc, hpc.symm, hc.symm⟩, ⟨hfg, hpg.symm, hg.symm⟩, hclash⟩

theorem encodeBundle_lt {b : Bundle} (hwf : b.wf = true) : encodeBundle b < 2 ^ 256 := by
  obtain ⟨hs, hm, hx, hc, hg, -⟩ := b.wf_iff.mp hwf
  have hheader := encodeHeader_lt b
  have hs : encodeOpt .s b.s < 2 ^ 48 := encodeOpt_lt hs
  have hm : encodeOpt .m b.m < 2 ^ 64 := encodeOpt_lt hm
  have hx : encodeOpt .x b.x < 2 ^ 64 := encodeOpt_lt hx
  have hc : encodeOpt .c b.c < 2 ^ 48 := encodeOpt_lt hc
  have hg : encodeOpt .g b.g < 2 ^ 16 := encodeOpt_lt hg
  simp only [encodeBundle]; omega

/-- Settles O56: an instruction's word lies in its slot and its fields are the instruction's own, so each slot decoder accepts just the encodings,
and the bundle decoder reads the header and the five slots each from its own place. -/
theorem decodeEncodeAgree : Obligations.DecodeEncodeAgree := by
  unfold Obligations.DecodeEncodeAgree
  refine ⟨fun k i hk hslot hwf _ => (decodeSlot_eq_some_iff hk).mpr ⟨.inr hslot, hwf, rfl⟩, fun k hk => ⟨encodeSlot_nop k, by simp [decodeSlot]⟩,
    fun b hwf => (decodeBundle_eq_ok_iff_encode (encodeBundle_lt hwf)).mpr ⟨hwf, rfl⟩, fun w b hok hw => (decodeBundle_eq_ok_iff_encode hw).mp hok⟩

/-- Settles O60: each word is taken apart as it stands; the two refused differ from the encoding of what they would stand for. -/
theorem decodedWords : Obligations.DecodedWords := by
  unfold Obligations.DecodedWords
  decide

end Sys2Proof

namespace Sys2Proof.Machine

/-! ## The core while a bundle runs -/

/-- The core that runs a bundle: what the issue of a bundle sets, and the registers that its slots have written so far. -/
def Core.begun (ah : List Ahead) (closes : Bool) (a : Arch) (c : Core) : Core :=
  { c with ahead := ah, stall := 0, farUid := none, closes := closes, arch := a }

namespace State
variable (s : State) (ah : List Ahead) (cl : Bool) (a : Arch)

/-! An address leads where it led before the bundle. -/

theorem coreAt_begun (n : Nat) : (s.onC (Core.begun ah cl a)).coreAt n = if s.core.id = n then s.core.begun ah cl a else s.coreAt n := by
  by_cases hown : s.core.id = n
  · rw [coreAt, if_pos (show (s.onC (Core.begun ah cl a)).core.id = n from hown), if_pos hown]
    rfl
  · rw [coreAt, if_neg (show ¬(s.onC (Core.begun ah cl a)).core.id = n from hown), if_neg hown, coreAt, if_neg hown]
    rfl

theorem peerOk_begun (pos : Nat) : (s.onC (Core.begun ah cl a)).peerOk (s.core.begun ah cl a) pos = s.peerOk s.core pos := by
  have hpeer : (s.core.begun ah cl a).peer pos = s.core.peer pos := rfl
  rw [peerOk, peerOk, hpeer, coreAt_begun]
  by_cases hown : s.core.id = s.core.peer pos
  · rw [if_pos hown, coreAt, if_pos hown]
    rfl
  · rw [if_neg hown]
    rfl

theorem clusCheck_begun (pos off n : Nat) : (s.onC (Core.begun ah cl a)).clusCheck (s.core.begun ah cl a) pos off n = s.clusCheck s.core pos off n := by
  have hpeer : (s.core.begun ah cl a).peer pos = s.core.peer pos := rfl
  rw [clusCheck, clusCheck, peerOk_begun, hpeer, coreAt_begun]
  by_cases hown : s.core.id = s.core.peer pos
  · rw [if_pos hown, coreAt, if_pos hown]
    rfl
  · rw [if_neg hown]

theorem window_begun (va : Word) (n : Nat) : (s.onC (Core.begun ah cl a)).window (s.core.begun ah cl a) va n = s.window s.core va n := rfl

theorem target_begun (va : Word) (n : Nat) : (s.onC (Core.begun ah cl a)).target (s.core.begun ah cl a) va n = s.target s.core va n := by
  simp only [target, window_begun, clusCheck_begun]

theorem walkEntry_begun (asid va size x : Nat) : (s.onC (Core.begun ah cl a)).walkEntry asid va size x = s.walkEntry asid va size x := rfl

theorem leafBad_begun (lvl size e : Nat) : (s.onC (Core.begun ah cl a)).leafBad lvl size e = s.leafBad lvl size e := rfl

theorem walkFrom_begun (asid va : Nat) (lv : List (Nat × Nat)) (lvl t : Nat) :
    (s.onC (Core.begun ah cl a)).walkFrom asid va lv lvl t = s.walkFrom asid va lv lvl t := by
  induction lv generalizing lvl t with
  | nil => rfl
  | cons h r ih => simp only [walkFrom, walkEntry_begun, leafBad_begun, ih] <;> rfl

theorem walk_begun (asid va : Nat) : (s.onC (Core.begun ah cl a)).walk asid va = s.walk asid va := by
  simp only [walk, walkFrom_begun, onC_descs]

theorem leafUsed_begun (asid va : Nat) : (s.onC (Core.begun ah cl a)).leafUsed asid va = s.leafUsed asid va := by
  have hcached : (s.onC (Core.begun ah cl a)).cached asid va = s.cached asid va := rfl
  simp only [leafUsed, leafOf, walk_begun, hcached, onC_fresh] <;> rfl

theorem translate_begun (asid va : Nat) (k : Acc) : (s.onC (Core.begun ah cl a)).translate asid va k = s.translate asid va k := by
  simp only [translate, leafUsed_begun]

theorem asidOf_begun : (s.onC (Core.begun ah cl a)).asidOf (s.core.begun ah cl a) = s.asidOf s.core := rfl

theorem route_begun (va : Word) (n : Nat) (k : Acc) : (s.onC (Core.begun ah cl a)).route va n k = s.route va n k := by
  simp only [route, onC_core, target_begun, asidOf_begun, partsAt, translate_begun]

theorem onDevice_begun (va : Word) (n : Nat) (k : Acc) : (s.onC (Core.begun ah cl a)).onDevice va n k = s.onDevice va n k := by
  simp only [onDevice, onC_core, target_begun, asidOf_begun, translate_begun]

theorem eaG_begun (b : SReg) (off : BitVec 22) : (s.onC (Core.begun ah cl a)).eaG b off = s.eaG b off := rfl

theorem faultSt_begun (z : Sz) (b : SReg) (off : BitVec 22) : (s.onC (Core.begun ah cl a)).faultSt z b off = s.faultSt z b off := by
  simp only [faultSt, routeBad, deviceBad, route_begun, onDevice_begun, eaG_begun]

/-- What the issue of a bundle changes before its slots run: of the core alone, what was read ahead and the registers of the issue itself. -/
theorem passBundle_eq (b : Bundle) : ∃ ah, s.passBundle b = s.onC (fun c => { c with ahead := ah }) := by
  unfold passBundle
  refine iteInduction (motive := fun t => ∃ ah, t = s.onC (fun c => { c with ahead := ah })) (fun _ => ⟨s.core.ahead, rfl⟩) (fun _ => ?_)
  refine iteInduction (motive := fun t => ∃ ah, t = s.onC (fun c => { c with ahead := ah })) (fun _ => ⟨[], rfl⟩) (fun _ => ?_)
  dsimp only
  obtain ⟨ah, hah⟩ := Core.foldl_inv (fun (c : Core) (st : Fin 8) => c.passAhead st s.uid) (fun c => ∃ ah, c = { s.core with ahead := ah })
    (fun c st => by rintro ⟨ah, rfl⟩; exact ⟨_, rfl⟩) _ s.core ⟨s.core.ahead, rfl⟩
  exact ⟨ah, congrArg (fun c => ({ s with core := c } : State)) hah⟩

end State

/-! ## A step, and the issue of a bundle (R199, R201) -/

theorem step_of_idle {s : State} (h : s.tick.forkAll.agenda = []) : step s = s.tick.forkAll.auto exec := by
  unfold step State.stepWith
  simp only [h]

theorem step_of_agenda {s : State} {a : Act} {r : List Act} (h : s.tick.forkAll.agenda = a :: r) :
    step s = ({ s.tick.forkAll with agenda := r } : State).act exec a := by
  unfold step State.stepWith
  simp only [h]

section
variable {s : State}

theorem State.auto_of_canIssue {run : Instr → State → Out} (hboot : s.booted = true) (hreset : s.inReset = false) (h : s.canIssue = true) :
    s.auto run = s.issue run := by
  simp [State.auto, hboot, hreset, h]

theorem State.issue_of_fetch {run : Instr → State → Out} {w : Nat} {b : Bundle} (hrun : s.core.status = .running) (hstop : s.core.stopsHere = false)
    {t : State} (ht : t = s.noteTlb (s.asidOf s.core) s.core.arch.pc.toNat .fetch) (hfar : t.farFetch = []) (hfetch : t.fetch = .ok w)
    (hdecode : decodeBundle w = .ok b) : s.issue run = t.issueBundle run b := by
  subst ht
  simp [State.issue, hrun, hstop, hfar, hfetch, hdecode]

theorem State.issueBundle_of_go {run : Instr → State → Out} {b : Bundle} (hstop : (s.ready b).core.stopsHere = false)
    (hwatch : (s.ready b).core.watching = none) (hplan : (s.ready b).plan b = .go) : s.issueBundle run b =
      runSlots run (slotOrder b) (((s.ready b).passBundle b).onC (fun c => { c with stall := 0, farUid := none, closes := (s.ready b).closesAfter b })) := by
  simp only [State.issueBundle, hstop, hwatch, hplan, Bool.false_eq_true, if_false]

theorem runSlots_cons {run : Instr → State → Out} {i : Instr} {is : List Instr} {t : State} (hend : s.core.ended = false) (h : run i s = .next t) :
    runSlots run (i :: is) s = runSlots run is t := by
  rw [runSlots]
  simp only [hend, Bool.false_eq_true, if_false, h]

theorem runSlots_single {run : Instr → State → Out} {i : Instr} (hend : s.core.ended = false) : runSlots run [i] s = (match run i s with
    | .next t => .next (if t.core.ended then t else { t with core := t.core.complete true })
    | o => o) := by
  rw [runSlots]
  simp only [hend, Bool.false_eq_true, if_false]
  cases run i s <;> rfl

theorem slotsOf_map_snd (b : Bundle) : (slotsOf b).map Prod.snd = b.s.toList ++ b.m.toList ++ b.x.toList ++ b.c.toList ++ b.g.toList := by
  simp [slotsOf, List.filterMap_eq_flatMap_toList, Option.toList_map, Function.comp_def]

theorem slotOrder_eq (b : Bundle) : slotOrder b =
      let ends : Bool := match b.s with | some .halt | some (.trap _) | some .tret | some (.ppld ..) => true | _ => false
      let tile : Bool := match b.m with | some (.ldt ..) => true | _ => false
      (if ends then [] else b.s.toList) ++ (if tile then b.x.toList ++ b.m.toList else b.m.toList ++ b.x.toList) ++ b.c.toList ++ b.g.toList ++
        (if ends then b.s.toList else []) := by
  obtain ⟨rm, bpi, bpn, s, m, x, c, g⟩ := b
  unfold slotOrder
  extract_lets last mx rest ends tile
  have hmx : mx = if tile then x.toList ++ m.toList else m.toList ++ x.toList := by
    cases m with
    | none => rfl
    | some i =>
      cases i with
      | ldt => rfl
      | _ => rfl
  have hends : last = ends := rfl
  rw [← hmx, hends]
  cases ends <;> simp [rest]

theorem slotOrder_perm (b : Bundle) : (slotOrder b).Perm ((slotsOf b).map Prod.snd) := by
  rw [List.perm_iff_count, slotsOf_map_snd, slotOrder_eq]
  intro i
  dsimp only
  split_ifs <;> simp only [List.count_append, List.count_nil] <;> omega

theorem slotOrder_of_single {b : Bundle} {i : Instr} (h : b.single = some i) (hi : i ≠ .nop) : slotOrder b = [i] := by
  have hslots : b.s.toList ++ b.m.toList ++ b.x.toList ++ b.c.toList ++ b.g.toList = [i] := by
    unfold Bundle.single at h
    split at h
    all_goals simp_all
  have hperm := slotOrder_perm b
  rw [slotsOf_map_snd, hslots] at hperm
  exact List.perm_singleton.mp hperm

/-! ## The agenda (R17, R368) -/

section
variable {run : Instr → State → Out} {c u : Nat} {w : Deed} {i : Instr}

theorem State.act_of_event : s.act run ⟨c, .event i⟩ = if i.slot ≠ .event then .fault .agendaSlot
    else if s.inReset = true ∧ startsPower i = false then .next s else run i (s.focus c) := by
  simp [State.act, State.perform]

theorem State.perform_of_event {a : Act} (hwhat : a.what = .event i) (hslot : i.slot = .event) (hreset : s.inReset = false) :
    s.perform run a = run i (s.focus a.core) := by
  simp [State.perform, hwhat, hslot, hreset]

theorem State.act_of_reset (hevent : ∀ i, w ≠ .event i) (hagain : ∀ u, w ≠ .again u) (hreset : s.inReset = true) : s.act run ⟨c, w⟩ = .next s := by
  cases w with
  | event i => exact absurd rfl (hevent i)
  | again u => exact absurd rfl (hagain u)
  | bundle | strike | appWrite | appRead | taken | readAhead => simp [State.act, State.perform, hreset]

/-- A read that waits for another package no longer is passed over. -/
theorem State.act_of_gone (h : ∀ x ∈ s.ox.waits, x.uid ≠ u) : s.act run ⟨c, .again u⟩ = .next s := by
  have hnone : s.ox.waits.find? (fun x => x.uid == u) = none := List.find?_eq_none.mpr fun x hx => by simp [h x hx]
  simp only [State.act, hnone]

theorem State.act_of_waiting {x : Wait} {t : State} (hfind : s.ox.waits.find? (fun y => y.uid == u) = some x) (hwhat : x.act.what = .event i)
    (hslot : i.slot = .event) (hreset : s.inReset = false)
    (hrun : run i (({ s with ox := { s.ox with waits := s.ox.waits.filter (fun y => y.uid ≠ u), again := some u } } : State).focus x.act.core) = .next t) :
    s.act run ⟨c, .again u⟩ = .next { t with ox := { t.ox with again := none } } := by
  simp only [State.act, hfind]
  rw [State.perform_of_event hwhat hslot (by exact hreset), hrun]

end

/-! ## A bundle that goes on has no fault -/

theorem State.allFaults_of_go {b : Bundle} (h : s.plan b = .go) : s.allFaults b = [] := by
  unfold State.plan at h
  extract_lets fs ls at h
  split_ifs at h with _ _ _ _ _ _ _ hfs
  exact not_not.mp hfs

/-- No slot of a bundle that goes on has a fault of its own. -/
theorem State.ownFault_of_go {b : Bundle} {p : Nat × Instr} (h : s.plan b = .go) (hp : p ∈ slotsOf b) (hslot : ¬(p.1 = 2 ∨ p.1 = 3)) :
    s.ownFault p.2 = none := by
  have hall := State.allFaults_of_go h
  unfold State.allFaults at hall
  extract_lets sb own early js at hall
  simp only [List.append_eq_nil_iff] at hall
  obtain ⟨⟨hearly, hjs⟩, hlate⟩ := hall
  have hnojoin : js = [] := by simpa [hearly] using hjs
  have hown : own = [] := by
    rw [List.eq_nil_iff_forall_not_mem]
    intro f hf
    by_cases hisLate : isLate f = true
    · have hnolate : own.filter isLate = [] := by simpa [hnojoin] using hlate
      have hmem : f ∈ own.filter isLate := List.mem_filter.mpr ⟨hf, hisLate⟩
      rw [hnolate] at hmem
      contradiction
    · have hmem : f ∈ early := List.mem_filter.mpr ⟨hf, by simpa using hisLate⟩
      rw [hearly] at hmem
      contradiction
  have hnone := List.filterMap_eq_nil_iff.mp hown p hp
  simpa [hslot] using hnone

/-! ## ST into the gate (R176, R250) -/

/-- The bytes of a number, each where it stands in the word. -/
theorem leBytes_toNat (x : Word) (n : Nat) : leBytes n x.toNat = (List.range n).map (fun k => x.extractLsb' (8 * k) 8) := by
  have hbytes (n v : Nat) : leBytes n v = (List.range n).map (fun k => BitVec.ofNat 8 (v / 2 ^ (8 * k))) := by
    induction n generalizing v with
    | zero => rfl
    | succ n ih =>
      rw [leBytes, ih, List.range_succ_eq_map, List.map_cons, List.map_map, Nat.mul_zero, Nat.pow_zero, Nat.div_one]
      congr 1
      refine List.map_congr_left fun k _ => ?_
      rw [Function.comp_apply, Nat.div_div_eq_div_mul, Nat.succ_eq_add_one, Nat.mul_add, Nat.pow_add, Nat.mul_comm 256]
  rw [hbytes]
  refine List.map_congr_left fun k _ => ?_
  apply BitVec.eq_of_toNat_eq
  simp [Nat.shiftRight_eq_div_pow]

@[simp] theorem State.noteTlb_core (asid va : Nat) (k : Acc) : (s.noteTlb asid va k).core = s.core := by
  unfold State.noteTlb
  split
  · rfl
  · split <;> rfl

@[simp] theorem State.noteAcc_core (va : Word) (n : Nat) (k : Acc) : (s.noteAcc va n k).core = s.core := by
  unfold State.noteAcc
  split
  · rw [State.noteTlb_core, State.noteTlb_core]
  · rfl

theorem State.touchIf_core (r : Route) : ∃ touched, (s.touchIf r).core = { s.core with arch := { s.core.arch with touched := touched } } := by
  cases r with
  | scratch off => exact ⟨true, rfl⟩
  | mem | clus => exact ⟨s.core.arch.touched, rfl⟩

/-- A store without a fault enters the gate with its bytes; of the registers it changes only its stream's sequence number and the mark of use. -/
theorem execSt_of_noFault {z : Sz} {b v : SReg} {off : BitVec 22} {o : OrdF} (h : s.faultSt z b off = none) : ∃ t p n touched,
    execSt z b off v o s = .next t ∧
    t.core = { s.core with gate := s.core.gate ++ [.store p], arch := { s.core.arch.seqUp o.stream n with touched := touched } } ∧
    p.va = s.rs b + off.signExtend 64 ∧ p.ord = o ∧ p.bytes = (List.range (sizeBytes z)).map (fun k => (s.rs v).extractLsb' (8 * k) 8) := by
  obtain ⟨r, hroute⟩ : ∃ r, s.route (s.eaG b off) (sizeBytes z) .write = .ok r := by
    cases hr : s.route (s.eaG b off) (sizeBytes z) .write with
    | ok r => exact ⟨r, rfl⟩
    | error c => simp [State.faultSt, State.routeBad, hr, accFault] at h
  obtain ⟨touched, htouch⟩ := (s.gateStore r (leBytes (sizeBytes z) (s.rs v).toNat) o (s.eaG b off)).touchIf_core r
  refine ⟨_, s.mkStore r (leBytes (sizeBytes z) (s.rs v).toNat) o (s.eaG b off), r.count, touched, ?_, htouch.trans ?_, rfl, rfl, leBytes_toNat _ _⟩
  · simp only [execSt, h, State.guard_none, hroute]
  · simp only [State.gateStore, State.noteAcc_core]
    rfl

/-! ## The end of a bundle that leaves its interval open -/

theorem Core.complete_open {c : Core} (hcloses : c.closes = false) (hloop : atLoopEnd c.arch = false) : c.complete true =
    { c with arch := { c.arch.countG with pc := c.npc.getD (c.arch.pc + 32) }, npc := none, ended := true, atRp := false } := by
  have hcount : atLoopEnd c.arch.countG = false := hloop
  simp [Core.complete, hcloses, hcount]

/-- An addition and a store in one bundle both read the registers as they stood before it (R17). -/
theorem State.issueBundle_add_st {b : Bundle} {z : Sz} {d a base c v : SReg} {off : BitVec 22} {o : OrdF} {r : State} (hr : r = s.ready b)
    (hstop : r.core.stopsHere = false) (hwatch : r.core.watching = none) (hplan : r.plan b = .go) (hend : r.core.ended = false)
    (hs : b.s = some (.add d a (.reg c))) (hm : b.m = some (.st z base off v o)) (hx : b.x = none) (hc : b.c = none) (hg : b.g = none)
    (hcloses : r.closesAfter b = false) (hloop : atLoopEnd r.core.arch = false) :
    ∃ t p, s.issueBundle exec b = .next t ∧ (d ≠ 0 → t.core.arch.rs d = r.rs a + r.rs c) ∧ t.core.gate = r.core.gate ++ [.store p] ∧
      p.va = r.rs base + off.signExtend 64 ∧ p.ord = o ∧ p.bytes = (List.range (sizeBytes z)).map (fun k => (r.rs v).extractLsb' (8 * k) 8) := by
  subst hr
  have horder : slotOrder b = [.add d a (.reg c), .st z base off v o] := by simp [slotOrder_eq, hs, hm, hx, hc, hg]
  have hfault : (s.ready b).faultSt z base off = none :=
    State.ownFault_of_go (p := (1, .st z base off v o)) hplan (by simp [slotsOf, hm]) (by simp)
  obtain ⟨ah, hah⟩ := (s.ready b).passBundle_eq b
  have hissue := State.issueBundle_of_go (run := exec) hstop hwatch hplan
  rw [horder, hah, hcloses] at hissue
  generalize s.ready b = r at *
  have hadd : exec (.add d a (.reg c)) (r.onC (Core.begun ah false r.core.arch)) =
      .next (r.onC (Core.begun ah false (r.core.arch.ws d (r.rs a + r.rs c)))) := rfl
  generalize harch : r.core.arch.ws d (r.rs a + r.rs c) = written at hadd
  obtain ⟨t, p, n, touched, hst, hcore, hva, hord, hbytes⟩ := execSt_of_noFault (v := v) (o := o)
    ((r.faultSt_begun ah false written z base off).trans hfault)
  have hbegun : (r.onC (Core.begun ah false r.core.arch)).core.ended = false := hend
  have hend' : (r.onC (Core.begun ah false written)).core.ended = false := hend
  have hopen : t.core.closes = false := by rw [hcore]; rfl
  have hloop' : atLoopEnd t.core.arch = false := by
    rw [hcore]
    change atLoopEnd written = false
    simpa [← harch, atLoopEnd] using hloop
  have hended : t.core.ended = false := by rw [hcore]; exact hend
  refine ⟨t.onC (fun c => c.complete true), p, ?_, fun hd => ?_, ?_, hva, hord, hbytes⟩
  · rw [hissue]
    refine (runSlots_cons hbegun hadd).trans ((runSlots_cons (run := exec) (i := .st z base off v o) hend' hst).trans ?_)
    rw [runSlots, hended]
    rfl
  · rw [State.onC_core, Core.complete_open hopen hloop', hcore]
    change written.rs d = _
    rw [← harch, Arch.rs_ws, if_neg hd, if_pos rfl]
  · rw [State.onC_core, Core.complete_open hopen hloop', hcore]
    rfl

end

/-- Settles O59: a step goes by its first act, a bundle by the order of its slots, and each slot reads `Core.src`, which no slot writes. -/
theorem stepRunsTheDecodedBundle : Obligations.StepRunsTheDecodedBundle := by
  unfold Obligations.StepRunsTheDecodedBundle
  refine ⟨?_, ?_, fun b => ⟨slotOrder_perm b, slotOrder_eq b⟩, ?_⟩
  · intro s w b q hq hidle hboot hreset hrun hstop hissue hfar hfetch hdecode
    subst hq
    rw [step_of_idle hidle, State.auto_of_canIssue hboot hreset hissue]
    exact State.issue_of_fetch hrun hstop rfl hfar hfetch hdecode
  · intro s b r u hr hstop hwatch hplan hu hend
    have hgo : s.issueBundle exec b = runSlots exec (slotOrder b) u := by
      subst hr hu
      exact State.issueBundle_of_go hstop hwatch hplan
    refine ⟨hgo, fun i hsingle hnop => ?_, fun z d a c base off v o hs hm hx hc hg hcloses hloop =>
      State.issueBundle_add_st hr hstop hwatch hplan hend hs hm hx hc hg hcloses hloop⟩
    have hend' : u.core.ended = false := by
      obtain ⟨ah, hah⟩ := r.passBundle_eq b
      rw [hu, hah]
      exact hend
    rw [hgo, slotOrder_of_single hsingle hnop]
    exact runSlots_single hend'
  · intro s c w rest q p hq hagenda hp
    have hstep : step s = p.act exec ⟨c, w⟩ := by
      rw [hp, hq]
      exact step_of_agenda (hq ▸ hagenda)
    have hreset : q.inReset = p.inReset := by rw [hp]
    rw [hstep, hreset]
    refine ⟨fun i hw hslot => ?_, fun i hw hslot => ?_, State.act_of_reset, fun u hw => ?_, fun u x i t hw hfind hwhat hslot hup hrun => ?_,
      fun hup => ⟨fun hw => ?_, fun k hw => ?_, fun pa data hw => ?_, fun pa n hw => ?_, fun pa hw => ?_, fun n cons hw => ?_⟩⟩
    all_goals subst hw
    · rw [State.act_of_event, if_pos hslot]
    · rw [State.act_of_event, if_neg (not_not.mpr hslot)]
    · exact State.act_of_gone
    · exact State.act_of_waiting hfind hwhat hslot hup hrun
    all_goals simp [State.act, State.perform, hup]

end Sys2Proof.Machine

namespace Sys2Proof.Machine

/-! ## Integer forms of the S slot (O1)

Each form writes Sd alone, so an obligation's clause is an equation of words: the model's integer formula against the bit vector
operation of R219. -/

/-- A form that answers the write of `v` to Sd gives `v`. -/
theorem State.givesS_of_ws {s : State} {i : Instr} {d : SReg} {v : Word} (h : exec i s = .next (s.ws d v)) : s.GivesS i d v :=
  ⟨_, h, s.wroteS_ws d v⟩

/-- A form that answers the write of `v` to Pd gives `v`. -/
theorem State.givesP_of_wp {s : State} {i : Instr} {d : PReg} {v : Bool} (h : exec i s = .next (s.wp d v)) : s.GivesP i d v :=
  ⟨_, h, s.wroteP_wp d v⟩

/-- A shift count is the low six bits of its source. -/
theorem shAmt_eq_toNat_and (y : Word) : shAmt y = (y &&& 63#64).toNat := by
  rw [shAmt, BitVec.toNat_and]
  exact (Nat.and_two_pow_sub_one_eq_mod y.toNat 6).symm

theorem mulHigh_eq_extract (x y : Word) : mulHigh x y = (x.signExtend 128 * y.signExtend 128).extractLsb' 64 64 := by
  have hp : (x.signExtend 128 * y.signExtend 128) = BitVec.ofInt 128 (x.toInt * y.toInt) := by
    rw [BitVec.ofInt_mul]; rfl
  rw [hp]
  apply BitVec.eq_of_toNat_eq
  rw [mulHigh, BitVec.extractLsb'_toNat, BitVec.toNat_ofInt, BitVec.toNat_ofInt, Nat.shiftRight_eq_div_pow]
  generalize x.toInt * y.toInt = p
  omega

theorem mulHighU_eq_extract (x y : Word) : mulHighU x y = (x.setWidth 128 * y.setWidth 128).extractLsb' 64 64 := by
  have hx := x.isLt
  have hy := y.isLt
  have hlt : x.toNat * y.toNat < 2 ^ 128 := lt_of_lt_of_eq (Nat.mul_lt_mul'' hx hy) (by norm_num)
  apply BitVec.eq_of_toNat_eq
  rw [mulHighU, BitVec.extractLsb'_toNat, BitVec.toNat_mul, BitVec.toNat_setWidth, BitVec.toNat_setWidth, BitVec.toNat_ofNat,
    Nat.shiftRight_eq_div_pow, Nat.mod_eq_of_lt (a := x.toNat) (by omega), Nat.mod_eq_of_lt (a := y.toNat) (by omega),
    Nat.mod_eq_of_lt hlt]

/-- The signed overflow −2^63 ÷ −1 wraps in both. -/
theorem divS_eq_sdiv (x y : Word) : divS x y = if y = 0 then BitVec.allOnes 64 else x.sdiv y := by
  unfold divS
  split
  · decide
  · apply BitVec.eq_of_toInt_eq
    rw [BitVec.toInt_ofInt, BitVec.toInt_sdiv]

theorem divU_eq_udiv (x y : Word) : divU x y = if y = 0 then BitVec.allOnes 64 else x.udiv y := by
  unfold divU
  split
  · decide
  · exact (BitVec.udiv_def).symm

theorem remS_eq_srem (x y : Word) : remS x y = if y = 0 then x else x.srem y := by
  unfold remS
  split
  · rfl
  · rw [← BitVec.toInt_srem, BitVec.ofInt_toInt]

theorem remU_eq_umod (x y : Word) : remU x y = if y = 0 then x else x.umod y := by
  unfold remU
  split
  · rfl
  · exact (BitVec.umod_def).symm

theorem rotateRight_eq_or (x : Word) (n : Nat) (hn : n < 64) : x.rotateRight n = (x >>> n) ||| (x <<< ((64 - n) % 64)) := by
  rw [BitVec.rotateRight_def, Nat.mod_eq_of_lt hn]
  rcases Nat.eq_zero_or_pos n with rfl | hpos
  · simp
  · rw [Nat.mod_eq_of_lt (by omega : 64 - n < 64)]

/-- Settles O1: every form is a write of Sd, and each formula is the bit vector operation of R219. -/
theorem integerFormsResult : Obligations.IntegerFormsResult := by
  unfold Obligations.IntegerFormsResult
  intro s d a b x y hx hy
  have give {i : Instr} {v : Word} (f : Word → Word → Word) (h : exec i s = s.int2 f d a b) (hv : f x y = v) : s.GivesS i d v :=
    s.givesS_of_ws (by rw [h, State.int2, hx, hy, hv])
  have hsh : y.toNat % 64 < 64 := Nat.mod_lt _ (by decide)
  refine ⟨give (· + ·) rfl rfl, give (· - ·) rfl rfl, give (· * ·) rfl rfl, give mulHigh rfl (mulHigh_eq_extract x y),
    give mulHighU rfl (mulHighU_eq_extract x y), give divS rfl (divS_eq_sdiv x y), give divU rfl (divU_eq_udiv x y),
    give remS rfl (remS_eq_srem x y), give remU rfl (remU_eq_umod x y), give (· &&& ·) rfl rfl, give (· ||| ·) rfl rfl,
    give (· ^^^ ·) rfl rfl, give (· &&& ~~~ ·) rfl rfl, give (· <<< shAmt ·) rfl ?shl, give (· >>> shAmt ·) rfl ?shr,
    give (fun x y => x.sshiftRight (shAmt y)) rfl ?sha, give (fun x y => x.rotateRight (shAmt y)) rfl (rotateRight_eq_or x _ hsh),
    give (fun x y => if x.slt y then x else y) rfl ?min, give (fun x y => if x.ult y then x else y) rfl ?minu,
    give (fun x y => if x.slt y then y else x) rfl ?max, give (fun x y => if x.ult y then y else x) rfl ?maxu⟩
  case shl => rw [shAmt_eq_toNat_and, BitVec.shiftLeft_eq']
  case shr => rw [shAmt_eq_toNat_and, BitVec.ushiftRight_eq']
  case sha => rw [shAmt_eq_toNat_and, BitVec.sshiftRight_eq']
  case min | max => simp only [BitVec.slt_iff_toInt_lt]
  case minu | maxu => simp only [BitVec.ult_iff_lt, BitVec.lt_def]

/-! ## Bit counts and fields (O2) -/

/-- `leadingZeros` stops at the highest set bit below `n`. -/
theorem leadingZeros_spec (x : Word) (n : Nat) : leadingZeros x n ≤ n ∧ (∀ k, n - leadingZeros x n ≤ k → k < n → x.getLsbD k = false) ∧
    (leadingZeros x n < n → x.getLsbD (n - 1 - leadingZeros x n) = true) := by
  induction n with
  | zero => simp [leadingZeros]
  | succ k ih =>
    obtain ⟨hle, hz, hone⟩ := ih
    rw [leadingZeros]
    split
    · next h => exact ⟨by omega, fun j hj hlt => absurd hlt (by omega), fun _ => by simpa using h⟩
    · next h =>
      refine ⟨by omega, fun j hj hlt => ?_, fun hlt => ?_⟩
      · rcases Nat.lt_succ_iff_lt_or_eq.mp hlt with hlt | rfl
        · exact hz j (by omega) hlt
        · simpa using h
      · have := hone (by omega)
        rwa [show k + 1 - 1 - (1 + leadingZeros x k) = k - 1 - leadingZeros x k by omega]

/-- `trailingZeros` stops at the lowest set bit from bit `i` on. -/
theorem trailingZeros_spec (x : Word) (n i : Nat) : trailingZeros x i n ≤ n ∧ (∀ k < trailingZeros x i n, x.getLsbD (i + k) = false) ∧
    (trailingZeros x i n < n → x.getLsbD (i + trailingZeros x i n) = true) := by
  induction n generalizing i with
  | zero => simp [trailingZeros]
  | succ n ih =>
    obtain ⟨hle, hz, hone⟩ := ih (i + 1)
    rw [trailingZeros]
    split
    · next h => exact ⟨by omega, fun j hj => absurd hj (by omega), fun _ => h⟩
    · next h =>
      refine ⟨by omega, fun j hj => ?_, fun hlt => ?_⟩
      · cases j with
        | zero => simpa using h
        | succ j => rw [show i + (j + 1) = i + 1 + j by omega]; exact hz j (by omega)
      · rw [show i + (1 + trailingZeros x (i + 1) n) = i + 1 + trailingZeros x (i + 1) n by omega]
        exact hone (by omega)

theorem popCount_eq_countP (x : Word) (n : Nat) : popCount x n = (List.range n).countP (fun k => x.getLsbD k) := by
  induction n with
  | zero => rfl
  | succ k ih => rw [popCount, ih, List.range_succ, List.countP_append, List.countP_singleton, Nat.add_comm]

theorem getLsbD_onesWord (w k : Nat) : (onesWord w).getLsbD k = (decide (k < 64) && decide (k < w)) := by
  rw [onesWord, BitVec.getLsbD_ofNat, Nat.testBit_two_pow_sub_one]

theorem getLsbD_fieldOf (x : Word) (pos width k : Nat) : (fieldOf x pos width).getLsbD k = (decide (k < width) && x.getLsbD (pos + k)) := by
  rw [fieldOf, BitVec.getLsbD_and, BitVec.getLsbD_ushiftRight, getLsbD_onesWord]
  by_cases hk : k < 64
  · simp [hk, Bool.and_comm]
  · simp [hk, BitVec.getLsbD_of_ge x (pos + k) (by omega)]

theorem getLsbD_insertField (z x : Word) {pos width k : Nat} (hk : k < 64) : (insertField z x pos width).getLsbD k =
    if pos ≤ k ∧ k < pos + width then x.getLsbD (k - pos) else z.getLsbD k := by
  simp only [insertField, BitVec.getLsbD_or, BitVec.getLsbD_and, BitVec.getLsbD_not, BitVec.getLsbD_shiftLeft, getLsbD_onesWord, hk]
  by_cases h1 : pos ≤ k
  · by_cases h2 : k < pos + width
    · simp [h1, h2, Nat.not_lt.mpr h1, show k - pos < 64 by omega, show k - pos < width by omega]
    · simp [h1, h2, Nat.not_lt.mpr h1, show ¬ k - pos < width by omega]
  · simp [h1, Nat.not_le.mp h1]

theorem getLsbD_sextFrom (x : Word) {n k : Nat} (h1 : 1 ≤ n) (hn : n ≤ 64) (hk : k < 64) :
    (sextFrom x n).getLsbD k = x.getLsbD (min k (n - 1)) := by
  rw [sextFrom, BitVec.getLsbD_sshiftRight, BitVec.msb_eq_getLsbD_last]
  simp only [BitVec.getLsbD_shiftLeft]
  by_cases h : 64 - n + k < 64
  · simp [h, hk, show min k (n - 1) = k by omega]
  · simp [h, show min k (n - 1) = n - 1 by omega, show 63 - (64 - n) = n - 1 by omega]
    rw [decide_eq_false (by omega), decide_eq_false (by omega)]
    rfl

/-- Settles O2: the recursions stop at the first set bit, and a field is read bit by bit. -/
theorem bitCountAndFieldResults : Obligations.BitCountAndFieldResults := by
  unfold Obligations.BitCountAndFieldResults
  rintro s d a x rfl
  obtain ⟨hlle, hlz, hlone⟩ := leadingZeros_spec (s.rs a) 64
  obtain ⟨htle, htz, htone⟩ := trailingZeros_spec (s.rs a) 64 0
  refine ⟨⟨_, hlle, s.givesS_of_ws rfl, fun k hk => ?_, hlone⟩, ⟨_, htle, s.givesS_of_ws rfl, fun k hk => ?_, fun h => ?_⟩, ?_,
    fun pos width _ _ => ⟨⟨_, s.givesS_of_ws rfl, getLsbD_fieldOf _ pos width⟩,
      ⟨_, s.givesS_of_ws rfl, fun k hk => getLsbD_insertField _ _ hk⟩⟩,
    fun n h1 hn => ⟨_, s.givesS_of_ws rfl, fun k hk => getLsbD_sextFrom _ h1 hn hk⟩⟩
  · rcases Nat.lt_or_ge k 64 with h | h
    · exact hlz k hk h
    · exact BitVec.getLsbD_of_ge _ k h
  · simpa using htz k hk
  · simpa using htone h
  · rw [← popCount_eq_countP]
    exact s.givesS_of_ws rfl

/-! ## Immediates, comparisons and selection (O3, O4) -/

/-- Settles O3: sign extension keeps the value, and LIH's two halves do not overlap. -/
theorem loadImmediateResults : Obligations.LoadImmediateResults := by
  unfold Obligations.LoadImmediateResults
  intro s d v
  refine ⟨⟨_, BitVec.toInt_signExtend_of_le (by decide), s.givesS_of_ws rfl⟩, ⟨_, ?high, ?low, s.givesS_of_ws rfl⟩, rfl⟩
  case high =>
    ext k hk
    have hmask : (0xFFFFFFFF#64).getLsbD (32 + k) = false := by
      rw [show 0xFFFFFFFF#64 = onesWord 32 from rfl, getLsbD_onesWord]
      simp
    rw [BitVec.getElem_extractLsb', BitVec.getLsbD_or, BitVec.getLsbD_and, hmask, BitVec.getLsbD_shiftLeft, BitVec.getLsbD_setWidth,
      Nat.add_sub_cancel_left, BitVec.getLsbD_eq_getElem hk]
    simp [show 32 + k < 64 by omega, show k < 64 by omega]
  case low =>
    ext k hk
    have hmask : (0xFFFFFFFF#64).getLsbD (0 + k) = true := by
      rw [show 0xFFFFFFFF#64 = onesWord 32 from rfl, getLsbD_onesWord]
      simp [hk, show k < 64 by omega]
    rw [BitVec.getElem_extractLsb', BitVec.getLsbD_or, BitVec.getLsbD_and, hmask, BitVec.getLsbD_shiftLeft, BitVec.getElem_extractLsb']
    simp [hk]

/-- Settles O4: each condition is a comparison of the sources as signed or as unsigned integers. -/
theorem predicateFormsResult : Obligations.PredicateFormsResult := by
  unfold Obligations.PredicateFormsResult
  refine ⟨fun s d a b x y hx hy => ?cmp, fun s d a b => ⟨s.givesP_of_wp rfl, s.givesP_of_wp rfl, s.givesP_of_wp rfl⟩,
    fun s d p inv a b => s.givesS_of_ws ?sel⟩
  case cmp =>
    have give {cc : CmpCond} {p : Prop} [Decidable p] (h : cmpHolds cc x y = true ↔ p) : s.GivesP (.cmp cc d a b) d (decide p) := by
      have hv : cmpHolds cc x y = decide p := Bool.eq_iff_iff.mpr (h.trans decide_eq_true_iff.symm)
      rw [← hv, ← hx, ← hy]
      exact s.givesP_of_wp rfl
    refine ⟨give ?_, give ?_, give ?_, give ?_, give ?_, give ?_, give ?_, give ?_, give ?_, give ?_⟩ <;>
      simp [cmpHolds, BitVec.slt, BitVec.ult]
  case sel =>
    show Host.Outcome.next (s.ws d (if s.rp p != inv then s.rs a else s.src b)) = _
    rw [← Bool.bne_eq_xor]

end Sys2Proof.Machine

namespace Sys2Proof.Machine

/-! ## Transfers (O10) -/

/-- A transfer's target at or below the bundle's own PC closes the interval (R175). -/
theorem State.jumpBack_eq (s : State) (t : Word) : s.jumpBack t =
    { s with core := { s.core with npc := some t, closes := s.core.closes || decide (t ≤ s.core.src.pc) } } := by
  simp only [State.jumpBack, State.onC, BitVec.le_def]

theorem execBr_eq (p : PReg) (inv : Bool) (off : BitVec 31) (s : State) :
    execBr p inv off s = .next (if xor (s.rp p) inv then s.jumpBack (s.branch off) else s) := by
  rw [← Bool.bne_eq_xor]
  rfl

/-- Settles O10: a transfer is `jumpTo` or `jumpBack`, after the write of the link where there is one. -/
theorem transfersTarget : Obligations.TransfersTarget := by
  unfold Obligations.TransfersTarget
  refine ⟨fun s p inv off => ?br, fun s off => ?jmp, fun s d off => ⟨_, s.wroteS_ws d _, rfl⟩, fun s d a => ⟨_, s.wroteS_ws d _, ?jmpr⟩,
    fun s a => rfl⟩
  case br => exact (execBr_eq p inv off s).trans (by rw [State.jumpBack_eq]; rfl)
  case jmp => exact congrArg Host.Outcome.next (s.jumpBack_eq _)
  case jmpr => exact congrArg Host.Outcome.next ((s.ws d s.link).jumpBack_eq _)

/-! ## The loop stack (O11) -/

section
variable {s : State} {src : TripSrc}

theorem execLoop_of_zero (len : Nat) (hn : s.trips src = 0) :
    execLoop src len s = .next (s.jumpTo (s.core.src.pc + BitVec.ofNat 64 (32 * (len + 1)))) := by
  simp only [execLoop, hn, if_true]

theorem execLoop_of_bad (len : Nat) (hn : s.trips src ≠ 0) (hbad : 2 ^ 31 ≤ s.trips src ∨ 6 ≤ s.core.src.loops.length) :
    execLoop src len s = .next (s.takeTrap [⟨0, Cause.operandForm, 0, 0, none⟩]) := by
  simp only [execLoop, hn, hbad, if_false, if_true]
  rfl

theorem execLoop_of_room (len : Nat) (hn : s.trips src ≠ 0) (hlt : s.trips src < 2 ^ 31) (hroom : s.core.src.loops.length < 6) :
    execLoop src len s = .next (s.onA (fun a => { a with loops := a.loops ++
      [⟨s.core.src.pc + 32, s.core.src.pc + BitVec.ofNat 64 (32 * len), BitVec.ofNat 31 (s.trips src), 0⟩] })) := by
  have hgood : ¬ (2 ^ 31 ≤ s.trips src ∨ 6 ≤ s.core.src.loops.length) := by omega
  simp only [execLoop, hn, hgood, if_false]

end

/-- Settles O11: LOOP by the three cases of its count, BRKL by the innermost entry of the stack. -/
theorem loopOpensAndBreaks : Obligations.LoopOpensAndBreaks := by
  unfold Obligations.LoopOpensAndBreaks
  refine ⟨fun s src len n hn => ?loop, fun s p inv => ?brkl⟩
  case loop =>
    obtain rfl : s.trips src = n := by rw [hn]; cases src <;> rfl
    exact ⟨execLoop_of_zero len, execLoop_of_room len, execLoop_of_bad len⟩
  case brkl =>
    have hexec : exec (.brkl p inv) s = execBrkl p inv s := rfl
    rw [hexec, ← Bool.bne_eq_xor]
    refine ⟨fun h => ?_, fun h ls e hsrc harch => ?_, fun h hnil => ?_⟩
    · simp only [execBrkl, h, Bool.false_eq_true, if_false]
    · simp [execBrkl, h, hsrc, harch, State.jumpTo, State.onA, State.onC]
    · simp only [execBrkl, h, hnil, List.getLast?_nil, if_true]
      rfl

/-! ## The back-edge step (O12)

`backEdge` looks at the stack innermost first, so the stack `ls ++ e :: es` reaches it as `es.reverse ++ e :: ls.reverse`. -/

/-- An entry that ends here has no trip left: its next INDEX reaches TRIP. -/
def LoopEnt.Exhausted (e : LoopEnt) (pc : Word) : Prop := e.stop = pc ∧ e.trip.toNat ≤ e.index.toNat + 1

/-- Exhausted entries are popped, the wrap of INDEX at 2^32 included (R234). -/
theorem backEdge_exhausted {pc : Word} {xs : List LoopEnt} (h : ∀ x ∈ xs, x.Exhausted pc) (r : List LoopEnt) :
    backEdge pc (xs ++ r) = backEdge pc r := by
  induction xs with
  | nil => rfl
  | cons e es ih =>
    obtain ⟨hstop, htrip⟩ := h e List.mem_cons_self
    have hdone : ¬ ((e.index + 1).toNat < e.trip.toNat ∧ e.index + 1 ≠ 0) := by
      rintro ⟨hlt, hne⟩
      have hwrap : (e.index + 1).toNat = (e.index.toNat + 1) % 2 ^ 32 := BitVec.toNat_add e.index 1
      have hpos : (e.index + 1).toNat ≠ 0 := fun h0 => hne (BitVec.eq_of_toNat_eq h0)
      have hi := e.index.isLt
      omega
    rw [List.cons_append, backEdge, if_neg (not_not.mpr hstop)]
    dsimp only
    rw [if_neg hdone]
    exact ih fun x hx => h x (List.mem_cons_of_mem e hx)

/-- The first entry that has a trip left takes it. -/
theorem backEdge_again {pc : Word} {e : LoopEnt} (hstop : e.stop = pc) (htrip : e.index.toNat + 1 < e.trip.toNat) (r : List LoopEnt) :
    backEdge pc (e :: r) = ({ e with index := e.index + 1 } :: r, e.start) := by
  have ht := e.trip.isLt
  have hnext : (e.index + 1).toNat = e.index.toNat + 1 := by
    rw [BitVec.toNat_add, show (1 : BitVec 32).toNat = 1 from rfl, Nat.mod_eq_of_lt (by omega)]
  have hgo : (e.index + 1).toNat < e.trip.toNat ∧ e.index + 1 ≠ 0 :=
    ⟨by omega, fun h0 => by rw [h0] at hnext; simp at hnext⟩
  rw [backEdge, if_neg (not_not.mpr hstop)]
  dsimp only
  rw [if_pos hgo]

/-- The stack ends, or its innermost entry ends elsewhere. -/
theorem backEdge_elsewhere {pc : Word} {r : List LoopEnt} (h : ∀ e, r.head? = some e → e.stop ≠ pc) : backEdge pc r = (r, pc + 32) := by
  cases r with
  | nil => rfl
  | cons e r => rw [backEdge, if_pos (h e rfl)]

theorem atLoopEnd_iff (a : Arch) : atLoopEnd a = true ↔ ∃ e, a.loops.getLast? = some e ∧ e.stop = a.pc := by
  unfold atLoopEnd
  split <;> simp [*]

theorem atLoopEnd_of_forall_mem {a : Arch} {ls es : List LoopEnt} (h : a.loops = ls ++ es) (hne : es ≠ []) (hstop : ∀ x ∈ es, x.stop = a.pc) :
    atLoopEnd a = true := by
  refine (atLoopEnd_iff a).mpr ⟨es.getLast hne, ?_, hstop _ (List.getLast_mem hne)⟩
  rw [h, List.getLast?_append_of_ne_nil ls hne, List.getLast?_eq_some_getLast hne]

section
variable {c : Core}

/-- A bundle that ends a loop moves on by the back-edge step, and its interval commits (R175, R234). -/
theorem Core.complete_step (hnpc : c.npc = none) (hend : atLoopEnd c.arch = true) : c.complete true = ({ c with
    arch := { c.arch.countG with loops := (backEdge c.arch.pc c.arch.loops.reverse).1.reverse, pc := (backEdge c.arch.pc c.arch.loops.reverse).2 },
    npc := none, ended := true, atRp := false, closes := false } : Core).commit := by
  have hcount : atLoopEnd c.arch.countG = true := hend
  simp only [Core.complete, hnpc, hcount, Option.isNone_none, Bool.and_self, Bool.or_true, if_true]
  rfl

theorem Core.complete_step_spec (hnpc : c.npc = none) (hend : atLoopEnd c.arch = true) {r : List LoopEnt} {pc : Word}
    (hback : backEdge c.arch.pc c.arch.loops.reverse = (r, pc)) : (c.complete true).arch.pc = pc ∧ (c.complete true).arch.loops = r.reverse ∧
    (c.complete true).atRp = true ∧ (c.complete true).ckpt = (c.complete true).arch := by
  rw [Core.complete_step hnpc hend, hback]
  simp

/-- Without the back-edge step the bundle goes to a taken transfer's target or on by 32. -/
theorem Core.complete_arch_of_no_step {b : Bool} (h : (b && c.npc.isNone && atLoopEnd c.arch) = false) :
    (c.complete b).arch = { c.arch.countG with pc := c.npc.getD (c.arch.pc + 32) } := by
  have hcount : (b && c.npc.isNone && atLoopEnd c.arch.countG) = false := h
  simp only [Core.complete, hcount, Bool.or_false, Bool.false_eq_true, if_false]
  split
  · exact Core.commit_arch _
  · rfl

theorem Core.complete_ended (c : Core) (b : Bool) : (c.complete b).ended = true := by
  simp only [Core.complete]
  split
  · exact Core.commit_ended _
  · rfl

theorem Core.halt_ended (h : c.ended = true) (l : Nat) : (c.halt l).ended = true := by
  unfold Core.halt
  split
  · split
    · rfl
    · exact h
  · exact h

end

/-- A trap ends the bundle, in the handler or in the stopped context. -/
theorem State.precise_ended {s : State} (h : s.core.ended = true) {f : SlotFault} (hjoin : f.join = none) (x : Word) :
    (s.precise [f] x).core.ended = true := by
  unfold State.precise
  dsimp only
  split
  · exact Core.halt_ended (c := { s.core with status := .stopped }) h _
  split
  · exact Core.halt_ended (c := { s.core with status := .stopped }) h _
  · rw [List.foldl_cons, List.foldl_nil, hjoin]
    rfl

/-- An instruction that has ended its bundle takes no back-edge step after it. -/
theorem runSlots_of_ended {run : Instr → State → Out} {i : Instr} {s t : State} (hend : s.core.ended = false) (h : run i s = .next t)
    (ht : t.core.ended = true) : runSlots run [i] s = .next t := by
  rw [runSlots_single hend, h]
  simp only [ht, if_true]

/-- Settles O12: the stack is read innermost first, past the exhausted entries, by the three lemmas about `backEdge`. -/
theorem backEdgeStep : Obligations.BackEdgeStep := by
  unfold Obligations.BackEdgeStep
  refine ⟨fun c e ls es hloops hstop hnpc hes htrip => ?again, fun c ls es hloops hne hnpc hes hls => ?popped, fun c b h => ?elsewhere,
    fun s => rfl, fun s t hend h => ?done, fun s i hend hi => ?replaced⟩
  case again =>
    have hend : atLoopEnd c.arch = true := atLoopEnd_of_forall_mem hloops (List.cons_ne_nil e es) fun x hx => by
      rcases List.mem_cons.mp hx with rfl | hx
      · exact hstop
      · exact (hes x hx).1
    have hback : backEdge c.arch.pc c.arch.loops.reverse = ({ e with index := e.index + 1 } :: ls.reverse, e.start) := by
      rw [hloops, List.reverse_append, List.reverse_cons, List.append_assoc, backEdge_exhausted fun x hx => hes x (List.mem_reverse.mp hx)]
      exact backEdge_again hstop htrip _
    simpa using Core.complete_step_spec hnpc hend hback
  case popped =>
    have hend : atLoopEnd c.arch = true := atLoopEnd_of_forall_mem hloops hne fun x hx => (hes x hx).1
    have hback : backEdge c.arch.pc c.arch.loops.reverse = (ls.reverse, c.arch.pc + 32) := by
      rw [hloops, List.reverse_append, backEdge_exhausted fun x hx => hes x (List.mem_reverse.mp hx)]
      exact backEdge_elsewhere fun f hf => hls f (by rwa [List.head?_reverse] at hf)
    simpa using Core.complete_step_spec hnpc hend hback
  case elsewhere =>
    have hno : (b && c.npc.isNone && atLoopEnd c.arch) = false := by
      rw [← Bool.not_eq_true, Bool.and_eq_true, Bool.and_eq_true, atLoopEnd_iff]
      rintro ⟨⟨rfl, hnone⟩, e, he, hstop⟩
      rcases h with h | h | h
      · cases h
      · exact h (Option.isNone_iff_eq_none.mp hnone)
      · exact h e he hstop
    rw [Core.complete_arch_of_no_step hno]
    exact ⟨rfl, rfl⟩
  case done =>
    simp only [runSlots, hend, Bool.false_eq_true, if_false] at h
    rw [← Host.Outcome.next.inj h, State.onC_core]
  case replaced =>
    rcases hi with rfl | ⟨v, rfl⟩
    · exact ⟨_, rfl, runSlots_of_ended hend rfl (Core.complete_ended _ false)⟩
    · exact ⟨_, rfl, runSlots_of_ended hend rfl (State.precise_ended (Core.complete_ended _ false) rfl _)⟩

/-! ## HALT (O13) -/

namespace Core.SameButGate
variable {c k : Core} (h : c.SameButGate k)
include h

theorem task : k.task = c.task := (congrArg Core.task h).trans rfl
theorem status : k.status = c.status := (congrArg Core.status h).trans rfl
theorem src : k.src = c.src := (congrArg Core.src h).trans rfl

end Core.SameButGate

@[simp] theorem Core.commit_task (c : Core) : c.commit.task = c.task := c.drainGate_sameButGate.task
@[simp] theorem Core.commit_status (c : Core) : c.commit.status = c.status := c.drainGate_sameButGate.status
@[simp] theorem Core.commit_src (c : Core) : c.commit.src = c.src := c.drainGate_sameButGate.src

/-- An empty gate changes nothing at the commit. -/
theorem Core.drainGate_nil {c : Core} (h : c.gate = []) : c.drainGate = c := by
  rw [Core.drainGate, h]
  rfl

theorem Core.commit_of_nil {c : Core} (h : c.gate = []) : c.commit.pool = c.pool ∧ c.commit.stores = c.stores ∧ c.commit.lines = c.lines := by
  rw [Core.commit_eq, Core.drainGate_nil h]
  exact ⟨rfl, rfl, rfl⟩

/-- A single gated store to memory joins the stores under way at the commit. -/
theorem Core.commit_of_store {c : Core} {p : PStore} (h : c.gate = [.store p]) (hpad : p.scratch = none) (hheld : c.held = [])
    (hroom : c.cnt[p.ord.stream.val] + p.count ≤ 63) : c.commit.stores = c.stores ++ [p] := by
  rw [Core.commit_eq, Core.drainGate_single h, Core.applyGate_store_mem hpad]
  exact (Core.release_spec hheld hroom).1

/-- The core as a bundle leaves it that ends its interval, before the interval commits. -/
def Core.closing (c : Core) : Core :=
  { c with arch := { c.arch.countG with pc := c.npc.getD (c.arch.pc + 32) }, npc := none, ended := true, atRp := false, closes := false }

theorem Core.complete_closes (c : Core) : ({ c with closes := true } : Core).complete false = c.closing.commit := Core.complete_closing _ rfl

/-- HALT commits, and then discards the loop stack. -/
theorem execHalt_eq (s : State) : execHalt s = .next { s with core := { s.core.closing.commit with
    arch := { s.core.closing.commit.arch with loops := [] }, ckpt := { s.core.closing.commit.ckpt with loops := [] }, status := .halted } } := by
  rw [← Core.complete_closes]
  rfl

/-- Settles O13: HALT is a commit, which releases the gate's entries and touches no register. -/
theorem haltEndsTheTask : Obligations.HaltEndsTheTask := by
  unfold Obligations.HaltEndsTheTask
  intro s
  refine ⟨_, execHalt_eq s, rfl, rfl, rfl, rfl, ?ckpt, rfl, ?arch, ?task, ?threads, fun hgate => Core.commit_of_nil (c := s.core.closing) hgate,
    fun p hgate hpad hheld hroom => Core.commit_of_store (c := s.core.closing) hgate hpad hheld hroom⟩
  case ckpt => rw [Core.commit_ckpt, Core.commit_arch]
  case arch => rw [Core.commit_arch]; rfl
  case task => exact Core.commit_task _
  case threads => exact Core.commit_threads _

/-! ## TRAP (O15) -/

/-- With TLOCK 1 or TVEC 0 a precise trap stops the context (R183, R184). -/
theorem State.precise_status_of_closed {s : State} (h : s.core.arch.trap.tlock = true ∨ s.core.arch.trap.tvec = 0) (fs : List SlotFault) (x : Word) :
    (s.precise fs x).core.status = .stopped := by
  unfold State.precise
  dsimp only
  split
  · exact State.fatal_status _ _ _ _ _ _ _ _
  · next hopen =>
    rw [if_pos (h.resolve_left hopen)]
    exact State.fatal_status _ _ _ _ _ _ _ _

/-- TRAP commits its bundle, and then traps. -/
theorem execTrap_eq (v : BitVec 23) (s : State) : execTrap v s =
    .next (({ s with core := s.core.closing.commit } : State).precise [slotFault 0 Cause.trap (v.signExtend 64)] (s.core.src.pc + 32)) := by
  have hsrc : s.core.closing.commit.src = s.core.src := Core.commit_src _
  rw [← hsrc, ← Core.complete_closes]
  rfl

section
variable (c : Cause) (v : Word)

theorem firstFault_slot0 : firstFault [slotFault 0 c v] = slotFault 0 c v := rfl

theorem tcauseOf_slot0 : tcauseOf [slotFault 0 c v] = c := by
  simp [tcauseOf, slotFault, List.range_succ]

theorem tmaskOf_slot0 : tmaskOf [slotFault 0 c v] = 1 := by
  simp [tmaskOf, slotFault]

end

/-- Settles O15: TRAP is a commit and then a precise trap of one slot, whose cases are those of TLOCK and TVEC. -/
theorem trapInstructionEntersHandler : Obligations.TrapInstructionEntersHandler := by
  unfold Obligations.TrapInstructionEntersHandler
  intro s v
  have hexec : exec (.trap v) s = _ := execTrap_eq v s
  have htrap : s.core.closing.commit.arch.trap = s.core.arch.trap := by rw [Core.commit_arch]; rfl
  refine ⟨fun hlock hvec hpc => ?handler, fun hclosed => ?stops⟩
  case handler =>
    rw [State.precise_of_open (s := { s with core := s.core.closing.commit }) (by rw [htrap]; exact hlock) (by rw [htrap]; exact hvec)
      (by simp [slotFault])] at hexec
    refine ⟨_, hexec, rfl, rfl, rfl, rfl, Core.commit_status _, ?_⟩
    rw [State.onC_core, firstFault_slot0, tcauseOf_slot0, tmaskOf_slot0, hpc]
    simp only [Core.enterTrap, Core.commit_arch]
    rfl
  case stops =>
    exact ⟨_, hexec, State.precise_status_of_closed (by rw [htrap]; exact hclosed) _ _, State.precise_mem _ _ _⟩

end Sys2Proof.Machine

namespace Sys2Proof.Machine

/-! ## Pointers (O9) -/

/-- The code of a pointer, by its window (R229): the checks of `State.window` at one byte, in the order of the top byte. -/
theorem State.ptrClass_eq (s : State) (va : Word) : s.ptrClass va =
    (if wbits va 63 57 = 0 then 0
    else if wbits va 63 56 = 0xF0 then
      (match assoc s.descs (s.asidOf s.core) with
       | some x => if wbits va 55 0 < 2 ^ x.psz then 1 else 7
       | none => 7)
    else if wbits va 63 56 = 0xF8 ∧ wbits va 47 32 = 0 then
      (if wbits va 55 48 ≠ s.logical s.core.id then 3 else if wbits va 31 0 < s.core.scratchSize then 2 else 7)
    else if wbits va 63 56 = 0xF9 ∧ wbits va 55 51 = 0 ∧ wbits va 47 32 = 0 then
      (if s.online (s.core.id / 8 * 8 + wbits va 50 48) = true then 4 else 5)
    else 7) := by
  have htop : wbits va 63 57 = 0 ↔ wbits va 63 56 < 2 := by
    have := va.isLt
    simp only [wbits]
    omega
  unfold State.ptrClass State.window
  by_cases h0 : wbits va 63 57 = 0
  · have hlow := htop.mp h0
    simp [h0, show wbits va 63 56 ≠ 0xF8 by omega, show wbits va 63 56 ≠ 0xF9 by omega, show wbits va 63 56 ≠ 0xF0 by omega,
      show wbits va 63 56 < 0x80 by omega]
  by_cases hF0 : wbits va 63 56 = 0xF0
  · simp only [hF0, h0]
    cases assoc s.descs (s.asidOf s.core) with
    | none => simp
    | some x =>
      by_cases hoff : wbits va 55 0 < 2 ^ x.psz
      · simp [hoff, show ¬ 2 ^ x.psz < wbits va 55 0 + 1 by omega]
      · simp [hoff, show 2 ^ x.psz < wbits va 55 0 + 1 by omega]
  by_cases hF8 : wbits va 63 56 = 0xF8
  · simp only [hF8, h0]
    by_cases hmid : wbits va 47 32 = 0
    · by_cases hown : wbits va 55 48 = s.logical s.core.id
      · by_cases hoff : wbits va 31 0 < s.core.scratchSize
        · simp [hmid, hown, hoff, show ¬ s.core.scratchSize < wbits va 31 0 + 1 by omega]
        · simp [hmid, hown, hoff, show s.core.scratchSize < wbits va 31 0 + 1 by omega]
      · simp [hmid, hown]
    · simp [hmid]
  by_cases hF9 : wbits va 63 56 = 0xF9
  · simp only [hF9, h0]
    by_cases hgood : wbits va 55 51 = 0 ∧ wbits va 47 32 = 0
    · simp only [hgood, Core.peer]
      rfl
    · have hbad : (decide (wbits va 55 51 ≠ 0) || decide (wbits va 47 32 ≠ 0)) = true := by
        rw [Bool.or_eq_true, decide_eq_true_iff, decide_eq_true_iff]
        tauto
      simp only [hgood, hbad]
      rfl
  · by_cases hlow : wbits va 63 56 < 0x80 <;> simp [h0, hF0, hF8, hF9, hlow]

/-- A pointer of no window has failed a check of `State.window`. -/
theorem State.window_of_ptrClass_seven {s : State} {va : Word} (h : s.ptrClass va = 7) : ∃ c, s.window s.core va 1 = .error c := by
  unfold State.ptrClass at h
  dsimp only at h
  split at h
  · cases h
  split at h
  · split at h <;> cases h
  split at h
  · split at h <;> cases h
  · cases h
  · cases h
  · exact ⟨_, ‹_›⟩

section
variable {s : State} {d a : SReg} {w : Win}

theorem givesS_spcast {va v : Word} (ha : s.rs a = va) (h : s.castPtr va w = .ok v) : s.GivesS (.spcast d a w) d v := by
  refine s.givesS_of_ws (show execSpcast d a w s = _ from ?_)
  simp only [execSpcast, ha, h]

theorem raises_spcast {va : Word} {c : Cause} (ha : s.rs a = va) (h : s.castPtr va w = .error c) :
    exec (.spcast d a w) s = .next (s.takeTrap [⟨0, c, va, 0, none⟩]) := by
  show execSpcast d a w s = _
  simp only [execSpcast, ha, h]
  rfl

end

theorem wbits_low (va : Word) : wbits va 31 0 = va.toNat % 2 ^ 32 := by
  simp [wbits]

/-- A scale of 2^k is a shift by k. -/
theorem mul_two_pow_eq_shiftLeft (x : Word) (k : Nat) : x * BitVec.ofNat 64 (2 ^ k) = x <<< k := by
  apply BitVec.eq_of_toNat_eq
  rw [BitVec.toNat_mul, BitVec.toNat_ofNat, BitVec.toNat_shiftLeft, Nat.shiftLeft_eq, Nat.mul_mod_mod]

/-- Settles O9: LEA and SPTEST by their formulas, SPCAST by its table, class by class. -/
theorem pointerForms : Obligations.PointerForms := by
  unfold Obligations.PointerForms
  refine ⟨fun s d a r k v => ⟨s.givesS_of_ws ?scaled, s.givesS_of_ws rfl⟩, fun s d a va ha => ⟨s.givesS_of_ws ?code, s.ptrClass_eq va⟩,
    fun s d a va ha => ?cast⟩
  case scaled =>
    rw [← mul_two_pow_eq_shiftLeft]
    rfl
  case code =>
    rw [← ha]
    rfl
  case cast =>
    have gives {w : Win} {v : Word} (h : s.castPtr va w = .ok v) : s.GivesS (.spcast d a w) d v := givesS_spcast ha h
    have raises {w : Win} {c : Cause} (h : s.castPtr va w = .error c) : exec (.spcast d a w) s = .next (s.takeTrap [⟨0, c, va, 0, none⟩]) :=
      raises_spcast ha h
    refine ⟨fun h => ?global, fun h => ?priv, fun h => ?pads, fun h => ?own, fun h => ?other, fun h => ?peer, fun h => ?offline, fun h => ?none⟩
    case global =>
      refine ⟨gives ?_, raises ?_, raises ?_, fun x hx base hbase => ⟨fun h1 h2 => gives ?_, fun hout => raises ?_⟩⟩
      · simp only [State.castPtr, h]
      · simp only [State.castPtr, h]
      · simp only [State.castPtr, h]
      · subst hbase
        simp only [State.castPtr, h, hx, h1, h2, and_self, if_true]
        rfl
      · subst hbase
        have hout : ¬ (x.privbase + s.core.slotNo * 2 ^ x.psz ≤ va.toNat ∧ va.toNat < x.privbase + s.core.slotNo * 2 ^ x.psz + 2 ^ x.psz) := by omega
        simp only [State.castPtr, h, hx, hout, if_false]
    case priv =>
      refine ⟨gives ?_, raises ?_, raises ?_, fun x hx => gives ?_⟩
      · simp only [State.castPtr, h]
      · simp only [State.castPtr, h]
      · simp only [State.castPtr, h]
      · simp only [State.castPtr, h, hx]
    case pads => rcases h with h | h | h | h <;> exact ⟨raises (by simp only [State.castPtr, h]), raises (by simp only [State.castPtr, h])⟩
    case own =>
      refine ⟨gives (by simp only [State.castPtr, h]), gives ?_⟩
      simp only [State.castPtr, h, wbits_low]
      rfl
    case other =>
      refine ⟨raises (by simp only [State.castPtr, h]), ?_⟩
      rintro l q rfl rfl
      refine ⟨fun h1 h2 => gives ?_, fun hout => raises ?_⟩
      · simp only [State.castPtr, h, h1, h2, and_self, if_true, wbits_low]
        rfl
      · have hout : ¬ (wbits va 55 48 < 8 * perDie s.grade ∧ s.physical (wbits va 55 48) / 8 = s.core.id / 8) := by omega
        simp only [State.castPtr, h, hout, if_false]
    case peer =>
      refine ⟨gives (by simp only [State.castPtr, h]), fun h1 => gives ?_, fun h1 => raises ?_⟩
      · simp only [State.castPtr, h, h1, if_true, wbits_low]
        rfl
      · simp only [State.castPtr, h, h1, if_false]
    case offline => exact ⟨raises (by simp only [State.castPtr, h]), raises (by simp only [State.castPtr, h])⟩
    case none =>
      obtain ⟨c, hc⟩ := State.window_of_ptrClass_seven h
      exact ⟨c, hc, fun w => raises (by simp only [State.castPtr, h, State.target, hc])⟩

/-! ## PARTN (O25) -/

/-- A partition word fits (R28). -/
def PartwFits (w : Word) : Prop :=
  wbits w 10 8 ≤ 4 ∧ wbits w 20 16 ≤ 16 ∧ wbits w 39 24 < 2 ^ wbits w 20 16 ∧ wbits w 63 40 = 0 ∧ wbits w 23 21 = 0 ∧ wbits w 15 11 = 0

theorem partwOf_bad_iff (w : Word) : (4 < wbits w 10 8 ∨ 16 < wbits w 20 16 ∨ wbits w 39 24 / 2 ^ wbits w 20 16 ≠ 0 ∨ wbits w 63 40 ≠ 0 ∨
    wbits w 23 21 ≠ 0 ∨ wbits w 15 11 ≠ 0) ↔ ¬ PartwFits w := by
  have hdiv : wbits w 39 24 / 2 ^ wbits w 20 16 ≠ 0 ↔ 2 ^ wbits w 20 16 ≤ wbits w 39 24 := by
    rw [Nat.div_ne_zero_iff]
    exact ⟨fun h => h.2, fun h => ⟨(Nat.two_pow_pos _).ne', h⟩⟩
  rw [hdiv]
  unfold PartwFits
  omega

theorem partwOf_of_fits {w : Word} (h : PartwFits w) : partwOf w = some ⟨wbits w 10 8, wbits w 20 16, BitVec.ofNat 16 (wbits w 39 24)⟩ :=
  if_neg fun hbad => (partwOf_bad_iff w).mp hbad h

theorem partwOf_of_not_fits {w : Word} (h : ¬ PartwFits w) : partwOf w = none :=
  if_pos ((partwOf_bad_iff w).mpr h)

/-- PARTN faults by a counter, by a use of the pool, or by its word (R242). -/
theorem State.faultPartn_eq (s : State) (a : SReg) [Decidable ((∃ i : Fin 8, s.core.cnt[i.val] ≠ 0) ∨ s.core.src.touched = true ∨ ¬ PartwFits (s.rs a))] :
    s.faultPartn a = if (∃ i : Fin 8, s.core.cnt[i.val] ≠ 0) ∨ s.core.src.touched = true ∨ ¬ PartwFits (s.rs a) then
      some ⟨0, Cause.operandForm, 0, 0, none⟩ else none := by
  have hcnt : s.core.cnt.toList.any (fun n => n != 0) = true ↔ ∃ i : Fin 8, s.core.cnt[i.val] ≠ 0 := by
    rw [List.any_eq_true]
    constructor
    · rintro ⟨n, hn, hne⟩
      obtain ⟨i, hi, rfl⟩ := List.mem_iff_getElem.mp hn
      exact ⟨⟨i, by simpa using hi⟩, by simpa using hne⟩
    · rintro ⟨i, hi⟩
      exact ⟨s.core.cnt[i.val], by simp, by simpa using hi⟩
  have hword : (partwOf (s.rs a)).isNone = true ↔ ¬ PartwFits (s.rs a) := by
    by_cases h : PartwFits (s.rs a)
    · simp [partwOf_of_fits h, h]
    · simp [partwOf_of_not_fits h, h]
  unfold State.faultPartn faultIf
  simp only [Bool.or_eq_true, hcnt, hword, or_assoc]
  rfl

/-- Settles O25: PARTN's check is the conjunction of the counters, the mark of use and the fields of the word. -/
theorem partitionInstalls : Obligations.PartitionInstalls := by
  classical
  unfold Obligations.PartitionInstalls
  rintro s a w rfl
  have hexec : exec (.partn a) s = execPartn a s := rfl
  refine ⟨fun hcnt huse h1 h2 h3 h4 h5 h6 => ?_, fun hbad => ?_⟩
  · have hfits : PartwFits (s.rs a) := ⟨h1, h2, h3, h4, h5, h6⟩
    have hnone : s.faultPartn a = none := by
      rw [State.faultPartn_eq, if_neg]
      rintro (⟨i, hi⟩ | huse' | hno)
      · exact hi (hcnt i)
      · rw [huse] at huse'; cases huse'
      · exact hno hfits
    simp only [State.GivesCore, hexec, execPartn, hnone, State.guard_none, partwOf_of_fits hfits]
    rfl
  · have hsome : s.faultPartn a = some ⟨0, Cause.operandForm, 0, 0, none⟩ := by
      rw [State.faultPartn_eq, if_pos]
      unfold PartwFits
      rcases hbad with h | h | h
      · exact .inl h
      · exact .inr (.inl h)
      · exact .inr (.inr (by omega))
    rw [hexec, execPartn, hsome, State.guard_some]

/-! ## YIELD (O27) -/

/-- The launches for which YIELD gives way: those of the class of launch `v` or a lower number that want its core (R248). -/
def State.yieldRivals (s : State) (v : Launch) : List Launch :=
  s.settle.launches.filter (fun w => w.id ≠ v.id ∧ w.wants (s.logical s.core.id) = true ∧ w.eff ≤ v.eff)

section
variable {s : State} {v : Launch} (hv : s.launchOf s.core = some v)
include hv

theorem State.sliceOut_yield : s.sliceOut true = (match s.yieldRivals v with
    | [] => s
    | w :: r =>
      if !s.up || s.core.status == .halted || s.core.preempt then s
      else if v.lr.midp then s.requestFull s.core.id
      else s.onC (fun c => { c with holdFor := some (firstLaunch w r).id })) := by
  have hwant : s.yieldRivals v = s.settle.launches.filter (fun w => w.id != v.id && w.wants (s.logical s.core.id) && decide (w.eff ≤ v.eff)) :=
    List.filter_congr fun w _ => by simp [Bool.decide_and, bne, Bool.and_assoc, Bool.beq_eq_decide_eq]
  simp only [State.sliceOut, hv, hwant]
  rfl

theorem execYield_of_no_rival (h : s.yieldRivals v = []) : execYield s = .next s := by
  rw [execYield, State.sliceOut_yield hv, h]

/-- A launch that allows it gives way in full; otherwise the core is held back for the rival that comes first. -/
theorem execYield_of_rival (hrival : s.yieldRivals v ≠ []) (hup : s.up = true) (hrun : s.core.status = .running) (hcalm : s.core.preempt = false) :
    ∃ w ∈ s.yieldRivals v, (∀ u ∈ s.yieldRivals v, listLt u.key w.key = false) ∧
    execYield s = .next (if v.lr.midp then s.requestFull s.core.id else { s with core := { s.core with holdFor := some w.id } }) := by
  obtain ⟨w, r, hwr⟩ := List.exists_cons_of_ne_nil hrival
  obtain ⟨hmem, hle⟩ := firstLaunch_spec w r
  refine ⟨firstLaunch w r, hwr ▸ hmem, fun u hu => ?_, ?_⟩
  · rw [← Bool.not_eq_true, Launch.listLt_key_iff]
    exact not_lt.mpr (hle u (hwr ▸ hu))
  · have hready : ¬ (!s.up || s.core.status == .halted || s.core.preempt) = true := by rw [hup, hrun, hcalm]; decide
    rw [execYield, State.sliceOut_yield hv, hwr]
    exact congrArg Host.Outcome.next (if_neg hready)

end

/-- Settles O27: the rivals are those of `sliceOut`, and `firstLaunch` is the first of them in the order of R146. -/
theorem yieldGivesWay : Obligations.YieldGivesWay := by
  unfold Obligations.YieldGivesWay
  refine fun s => ⟨fun hnone => ?idle, fun v hv => ⟨execYield_of_no_rival hv, fun hrival hboot hreset hrun hcalm hmidp => ?held,
    fun hrival hboot hreset hrun hcalm hmidp hcls hother htask => ?asked⟩⟩
  case idle => rw [show exec .yield s = .next (s.sliceOut true) from rfl, State.sliceOut, hnone]
  case held =>
    obtain ⟨w, hw, hfirst, hnext⟩ := execYield_of_rival hv hrival (State.up_of hboot hreset) hrun hcalm
    rw [hmidp] at hnext
    exact ⟨w, hw, hfirst, hnext⟩
  case asked =>
    obtain ⟨w, -, -, hnext⟩ := execYield_of_rival hv hrival (State.up_of hboot hreset) hrun hcalm
    rw [hmidp, if_pos rfl, State.requestFull_alone hv hcls hother] at hnext
    exact hnext

/-! ## WAITM (O22) -/

/-- Noting a translation changes the translations kept alone (R166). -/
theorem State.noteTlb_eq (s : State) (asid va : Nat) (k : Acc) : s.noteTlb asid va k = { s with tlb := (s.noteTlb asid va k).tlb } := by
  unfold State.noteTlb
  split
  · rfl
  · split <;> rfl

theorem State.noteAcc_eq (s : State) (va : Word) (n : Nat) (k : Acc) : s.noteAcc va n k = { s with tlb := (s.noteAcc va n k).tlb } := by
  unfold State.noteAcc
  split
  · rw [State.noteTlb_eq, State.noteTlb_eq]
  · rfl

/-- Settles O22: WAITM by whether its check fails, and then by what its monitor knows. -/
theorem monitoredWaitRuns : Obligations.MonitoredWaitRuns := by
  unfold Obligations.MonitoredWaitRuns
  intro s d a off b c
  have hexec : exec (.waitm d a off b c) s = execWaitm d a off b c s := rfl
  refine ⟨fun halign => ?misaligned, fun hok => ⟨fun hidle => ?setup, fun m hm hcause => ?waits, fun m v hm hcause => ?wakes⟩⟩
  case misaligned =>
    have hfault : s.faultWaitm a off = some ⟨0, Cause.operandForm, s.rs a + off.signExtend 64, 0, none⟩ := by
      have hbne : ((s.eaW a off).toNat % 8 != 0) = true := bne_iff_ne.mpr halign
      simp only [State.faultWaitm, hbne, faultIf, if_true, Option.some_or]
      rfl
    rw [hexec, execWaitm, hfault, State.guard_some]
  case setup =>
    rw [hexec, execWaitm, hok, State.guard_none, hidle]
    dsimp only
    rw [State.noteAcc_eq]
    exact ⟨_, rfl⟩
  case waits =>
    simp only [State.GivesCore, hexec, execWaitm, hok, State.guard_none, hm, hcause]
    rw [← hm]
    rfl
  case wakes =>
    refine ⟨_, s.wroteS_ws d _, ?_⟩
    rw [hexec, execWaitm, hok, State.guard_none, hm]
    simp only [hcause]
    rfl

end Sys2Proof.Machine

namespace Sys2Proof.Machine

/-! ## Words made of fields (O20) -/

section
variable {c : Nat → Nat} {w : Nat} (hc : ∀ i, c i < 2 ^ w)
include hc

/-- `n` fields of `w` bits fill `w * n` bits. -/
theorem sum_fields_lt (n : Nat) : ((List.range n).map (fun i => c i * 2 ^ (w * i))).sum < 2 ^ (w * n) := by
  induction n with
  | zero => simp
  | succ n ih =>
    rw [List.range_succ, List.map_append, List.sum_append, List.map_singleton, List.sum_singleton, Nat.mul_succ, Nat.pow_add]
    calc _ < 2 ^ (w * n) + c n * 2 ^ (w * n) := by omega
      _ = (c n + 1) * 2 ^ (w * n) := by rw [Nat.succ_mul, Nat.add_comm]
      _ ≤ 2 ^ w * 2 ^ (w * n) := Nat.mul_le_mul_right _ (hc n)
      _ = 2 ^ (w * n) * 2 ^ w := Nat.mul_comm _ _

/-- Field `k` of a word made of `n` fields of `w` bits. -/
theorem sum_fields_field {n k : Nat} (hk : k < n) : ((List.range n).map (fun i => c i * 2 ^ (w * i))).sum / 2 ^ (w * k) % 2 ^ w = c k := by
  induction n with
  | zero => omega
  | succ n ih =>
    rw [List.range_succ, List.map_append, List.sum_append, List.map_singleton, List.sum_singleton]
    have hlt := sum_fields_lt hc n
    rcases Nat.lt_succ_iff_lt_or_eq.mp hk with hk | rfl
    · obtain ⟨j, hj⟩ : ∃ j, n = k + 1 + j := ⟨n - (k + 1), by omega⟩
      have hpow : c n * 2 ^ (w * n) = 2 ^ (w * k) * (2 ^ w * (2 ^ (w * j) * c n)) := by
        rw [hj, Nat.mul_add, Nat.mul_add, Nat.mul_one, Nat.pow_add, Nat.pow_add]
        ring
      rw [hpow, Nat.add_mul_div_left _ _ (Nat.two_pow_pos _), Nat.add_mul_mod_self_left, ih hk]
    · rw [Nat.add_mul_div_right _ _ (Nat.two_pow_pos _), Nat.div_eq_of_lt hlt, Nat.zero_add, Nat.mod_eq_of_lt (hc k)]

end

theorem toNat_ofNat_word {n : Nat} (h : n < 2 ^ 64) : (BitVec.ofNat 64 n).toNat = n := by
  rw [BitVec.toNat_ofNat, Nat.mod_eq_of_lt h]

/-- A field of a word, as a bit vector. -/
theorem extractLsb'_eq_of_field {v : Word} {lo w : Nat} {x : BitVec w} (h : v.toNat / 2 ^ lo % 2 ^ w = x.toNat) : v.extractLsb' lo w = x := by
  apply BitVec.eq_of_toNat_eq
  rw [BitVec.extractLsb'_toNat, Nat.shiftRight_eq_div_pow, h]

theorem getLsbD_eq_field (v : Word) (i : Nat) : v.getLsbD i = decide (v.toNat / 2 ^ i % 2 = 1) :=
  Nat.testBit_eq_decide_div_mod_eq

theorem Vector.getD_toList {α : Type} {n : Nat} (xs : Vector α n) {i : Nat} (h : i < n) (z : α) : xs.toList.getD i z = xs[i] := by
  rw [List.getD_eq_getElem _ _ (by simpa using h), Vector.getElem_toList]

/-- The stream counters in STRMST (R103). -/
theorem Core.cntWord_spec (c : Core) : c.cntWord.toNat / 2 ^ 48 = 0 ∧ ∀ k : Fin 8, c.cntWord.toNat / 2 ^ (6 * k.val) % 64 = c.cnt[k.val] % 64 := by
  have hc (i : Nat) : c.cnt.toList.getD i 0 % 64 < 2 ^ 6 := Nat.mod_lt _ (by decide)
  have hlt := sum_fields_lt hc 8
  have hval : c.cntWord.toNat = ((List.range 8).map (fun i => c.cnt.toList.getD i 0 % 64 * 2 ^ (6 * i))).sum := by
    rw [Core.cntWord, toNat_ofNat_word (by omega)]
  rw [hval]
  refine ⟨Nat.div_eq_of_lt hlt, fun k => ?_⟩
  rw [← Vector.getD_toList c.cnt k.isLt 0]
  exact sum_fields_field hc k.isLt

/-- Four of the sequence numbers in STRMST (R103). -/
theorem Arch.seqWord_field (a : Arch) (hi : Bool) (k : Fin 4) :
    (a.seqWord hi).extractLsb' (16 * k.val) 16 = a.seqn.toList.getD (if hi then k.val + 4 else k.val) 0 := by
  have hc (i : Nat) : (a.seqn.toList.getD (if hi then i + 4 else i) 0).toNat < 2 ^ 16 := BitVec.isLt _
  have hlt := sum_fields_lt hc 4
  apply extractLsb'_eq_of_field
  rw [Arch.seqWord, toNat_ofNat_word (by omega)]
  exact sum_fields_field hc k.isLt

/-- An entry of PERM in its word (R43). -/
theorem Arch.permWord_field (a : Arch) (i : Fin 256) : (a.permWord (i.val / 8)).extractLsb' (8 * (i.val % 8)) 8 = a.perm[i.val] := by
  have hc (j : Nat) : (a.perm.toList.getD (8 * (i.val / 8) + j) 0).toNat < 2 ^ 8 := BitVec.isLt _
  have hlt := sum_fields_lt hc 8
  apply extractLsb'_eq_of_field
  rw [Arch.permWord, toNat_ofNat_word (by omega), ← Vector.getD_toList a.perm i.isLt 0]
  refine (sum_fields_field hc (Nat.mod_lt i.val (by decide : 0 < 8))).trans ?_
  rw [Nat.div_add_mod]

/-- The fields of a loop-stack entry lie side by side under bit 63 (R232). -/
theorem loopWord_eq_append (e : LoopEnt) : loopWord e = (1#1 ++ e.trip ++ e.index : BitVec 64) := by
  have ht := e.trip.isLt
  have hi := e.index.isLt
  apply BitVec.eq_of_toNat_eq
  rw [loopWord, BitVec.toNat_ofNat, Nat.mod_eq_of_lt (by omega)]
  show _ = ((1#1 ++ e.trip) ++ e.index).toNat
  rw [BitVec.toNat_append, BitVec.toNat_append, ← Nat.shiftLeft_add_eq_or_of_lt ht, ← Nat.shiftLeft_add_eq_or_of_lt hi]
  simp only [Nat.shiftLeft_eq, BitVec.toNat_ofNat]
  omega

theorem ofNat_b2n_zero (b : Bool) : BitVec.ofNat 64 (b2n b 0) = if b then 1 else 0 := by
  cases b <;> rfl

theorem b2n_eq (b : Bool) (i : Nat) : b2n b i = b.toNat * 2 ^ i := by
  cases b <;> simp [b2n]

theorem onesBelow_eq_countP (m : BitVec 32) : onesBelow m 32 = (List.range 32).countP (fun p => m.getLsbD p) := by
  rw [onesBelow, List.countP_eq_length_filter]

theorem onesBelow_le (m : BitVec 32) (p : Nat) : onesBelow m p ≤ p := by
  simpa [onesBelow] using List.length_filter_le (fun i => m.getLsbD i) (List.range p)

theorem perDie_le (g : Grade) : perDie g ≤ 32 := by
  cases g <;> decide

/-- ENUMd as a sum of its fields, none of which reaches into the next (R45). -/
theorem State.enumWord_toNat (s : State) (k : Fin 8) : (s.enumWord k.val).toNat =
    onesBelow (s.die k.val).slices 32 * 2 ^ 52 + (s.grade != .g224L).toNat * 2 ^ 51 + (s.die k.val).dieok.toNat * 2 ^ 50 +
      (s.die k.val).crown.toNat * 2 ^ 49 + (s.die k.val).links.toNat * 2 ^ 46 + onesBelow (s.die k.val).live 32 * 2 ^ 40 +
      k.val * perDie s.grade * 2 ^ 32 + (s.die k.val).live.toNat ∧
    onesBelow (s.die k.val).slices 32 ≤ 32 ∧ (s.die k.val).links.toNat < 8 ∧ onesBelow (s.die k.val).live 32 ≤ 32 ∧ k.val * perDie s.grade < 256 ∧
    (s.die k.val).live.toNat < 2 ^ 32 := by
  have hslices := onesBelow_le (s.die k.val).slices 32
  have hlinks : (s.die k.val).links.toNat < 8 := (s.die k.val).links.isLt
  have hcount := onesBelow_le (s.die k.val).live 32
  have hnum : k.val * perDie s.grade < 256 := by
    have := Nat.mul_le_mul (Nat.le_of_lt_succ k.isLt) (perDie_le s.grade)
    omega
  have hlive := (s.die k.val).live.isLt
  have h1 := Bool.toNat_le (s.grade != .g224L)
  have h2 := Bool.toNat_le (s.die k.val).dieok
  have h3 := Bool.toNat_le (s.die k.val).crown
  refine ⟨?_, hslices, hlinks, hcount, hnum, hlive⟩
  simp only [State.enumWord, b2n_eq, BitVec.toNat_ofNat]
  exact Nat.mod_eq_of_lt (by omega)

theorem State.enumWord_fields (s : State) (k : Fin 8) : let v := s.enumWord k.val
    v.extractLsb' 0 32 = (s.die k.val).live ∧ wbits v 39 32 = k.val * perDie s.grade ∧ wbits v 45 40 = onesBelow (s.die k.val).live 32 ∧
    v.extractLsb' 46 3 = (s.die k.val).links ∧ v.getLsbD 49 = (s.die k.val).crown ∧ v.getLsbD 50 = (s.die k.val).dieok ∧
    v.getLsbD 51 = (s.grade != .g224L) ∧ wbits v 57 52 = onesBelow (s.die k.val).slices 32 ∧ wbits v 63 58 = 0 := by
  obtain ⟨hval, hslices, hlinks, hcount, hnum, hlive⟩ := s.enumWord_toNat k
  have bit {b : Bool} {i : Nat} (h : (s.enumWord k.val).toNat / 2 ^ i % 2 = b.toNat) : (s.enumWord k.val).getLsbD i = b := by
    rw [getLsbD_eq_field, h]
    cases b <;> rfl
  have h1 := Bool.toNat_le (s.grade != .g224L)
  have h2 := Bool.toNat_le (s.die k.val).dieok
  have h3 := Bool.toNat_le (s.die k.val).crown
  generalize onesBelow (s.die k.val).slices 32 = slices at *
  generalize (s.grade != .g224L) = full at *
  generalize onesBelow (s.die k.val).live 32 = count at *
  generalize k.val * perDie s.grade = num at *
  refine ⟨extractLsb'_eq_of_field ?_, ?_, ?_, extractLsb'_eq_of_field ?_, bit ?_, bit ?_, bit ?_, ?_, ?_⟩ <;>
    simp only [wbits, hval] <;> omega

/-- Settles O20: CSRR writes `State.csr`, whose words are the fields side by side. -/
theorem controlRegisterReads : Obligations.ControlRegisterReads := by
  unfold Obligations.ControlRegisterReads
  rintro s d a rfl
  have give {c : Csr} {v : Word} (h : s.csr c = v) : s.GivesS (.csrr d c) d v := h ▸ s.givesS_of_ws rfl
  refine ⟨fun c => ⟨_, give rfl⟩, give rfl, give rfl, give rfl, give rfl, give rfl, give rfl, give (ofNat_b2n_zero _), fun n e he => give ?active,
    fun n hn => give ?inactive, give rfl, give rfl, give rfl, give rfl, give (ofNat_b2n_zero _), give rfl, give rfl, give rfl, give rfl, give rfl,
    give rfl, give rfl, ⟨_, give rfl, s.core.cntWord_spec⟩, ⟨_, give rfl, fun k => ?low⟩, ⟨_, give rfl, fun k => ?high⟩,
    fun l hl => ⟨give ?slice, give ?troy⟩, fun t ht => give ?taskid, give rfl, give rfl, fun k => ⟨_, give rfl, ?enum⟩,
    fun w => ⟨_, give rfl, fun i hi => ?perm⟩⟩
  case active => simp only [State.csr, he, loopWord_eq_append]
  case inactive => simp only [State.csr, List.getElem?_eq_none hn]
  case low =>
    have h := s.core.src.seqWord_field false k
    rwa [if_neg (by decide), Vector.getD_toList _ (by omega)] at h
  case high =>
    have h := s.core.src.seqWord_field true k
    rwa [if_pos rfl, Vector.getD_toList _ (by omega)] at h
  case slice =>
    simp only [State.csr, hl]
    rfl
  case troy => simp only [State.csr, hl, ofNat_b2n_zero]
  case taskid => simp only [State.csr, ht]
  case enum =>
    rw [← onesBelow_eq_countP, ← onesBelow_eq_countP]
    exact s.enumWord_fields k
  case perm =>
    show (s.core.src.permWord w.val).extractLsb' _ _ = _
    rw [← hi]
    exact s.core.src.permWord_field i

/-! ## CSRW (O21) -/

/-- Every CSR but STALLC is stored in the shadowed registers, by its access type (R239). -/
theorem execCsrw_of_ne {c : Csr} (h : c ≠ .stallc) (a : SReg) (s : State) : execCsrw c a s = .next (s.onA (fun k => k.setCsr c (s.rs a))) := by
  unfold execCsrw
  split
  · exact absurd rfl h
  · rfl

/-- A CSRW touches no S or P register and no PC. -/
theorem Arch.setCsr_keeps (r : Arch) (c : Csr) (v : Word) : (r.setCsr c v).s = r.s ∧ (r.setCsr c v).p = r.p ∧ (r.setCsr c v).pc = r.pc := by
  unfold Arch.setCsr
  split
  case h_1 => split <;> exact ⟨rfl, rfl, rfl⟩
  case h_11 => simp only [Arch.setPerm, and_self]
  all_goals exact ⟨rfl, rfl, rfl⟩

theorem Csrw_keeps (s : State) (c : Csr) (a : SReg) : ∃ t, execCsrw c a s = .next t ∧ t.mem = s.mem ∧ t.core.arch.s = s.core.arch.s ∧
    t.core.arch.p = s.core.arch.p ∧ t.core.arch.pc = s.core.arch.pc ∧ t.core.pool = s.core.pool := by
  by_cases h : c = .stallc
  · subst h
    exact ⟨_, rfl, rfl, rfl, rfl, rfl, rfl⟩
  · obtain ⟨hs, hp, hpc⟩ := s.core.arch.setCsr_keeps c (s.rs a)
    exact ⟨_, execCsrw_of_ne h a s, rfl, hs, hp, hpc, rfl⟩

/-- A CSRW of a loop-stack entry stores TRIP and INDEX as their fields (R232). -/
theorem setLoop_eq (v : Word) (e : LoopEnt) : setLoop v e = { e with trip := v.extractLsb' 32 31, index := v.extractLsb' 0 32 } := by
  have htrip : BitVec.ofNat 31 (wbits v 62 32) = v.extractLsb' 32 31 := by
    symm
    apply extractLsb'_eq_of_field
    rw [BitVec.toNat_ofNat]
    exact (Nat.mod_mod _ _).symm
  have hindex : BitVec.ofNat 32 (wbits v 31 0) = v.extractLsb' 0 32 := by
    symm
    apply extractLsb'_eq_of_field
    rw [BitVec.toNat_ofNat]
    exact (Nat.mod_mod _ _).symm
  rw [setLoop, htrip, hindex]

/-- The bits of FPROG that a CSRW stores (R299). -/
theorem getLsbD_fprogMask {k : Nat} (hk : k < 64) : (0xFFFFFFFFFC0301FF#64).getLsbD k = !decide ((9 ≤ k ∧ k < 16) ∨ (18 ≤ k ∧ k < 26)) := by
  have h : ∀ k : Fin 64, (0xFFFFFFFFFC0301FF#64).getLsbD k.val = !decide ((9 ≤ k.val ∧ k.val < 16) ∨ (18 ≤ k.val ∧ k.val < 26)) := by decide
  exact h ⟨k, hk⟩

theorem getLsbD_bit16 (k : Nat) (hk : k < 64) : (0x10000#64).getLsbD k = decide (k = 16) := by
  have h : ∀ k : Fin 64, (0x10000#64).getLsbD k.val = decide (k.val = 16) := by decide
  exact h ⟨k, hk⟩

theorem getLsbD_fprogStored (v : Word) {k : Nat} (hk : k < 64) : (fprogStored v).getLsbD k =
    if k = 16 then v.getLsbD 16 && !v.getLsbD 17
    else if (9 ≤ k ∧ k < 16) ∨ (18 ≤ k ∧ k < 26) then false else v.getLsbD k := by
  unfold fprogStored
  dsimp only
  by_cases h16 : k = 16
  · subst h16
    cases h1 : v.getLsbD 16 <;> cases h2 : v.getLsbD 17 <;>
      simp only [Bool.and_true, Bool.and_false, if_true, if_false, BitVec.getLsbD_xor, BitVec.getLsbD_and, h1, getLsbD_fprogMask hk, getLsbD_bit16 _ hk,
        Bool.false_eq_true] <;> rfl
  · have hbit : (v &&& 0xFFFFFFFFFC0301FF#64 ^^^ 0x10000#64).getLsbD k = (v &&& 0xFFFFFFFFFC0301FF#64).getLsbD k := by
      rw [BitVec.getLsbD_xor, getLsbD_bit16 k hk, decide_eq_false h16, Bool.xor_false]
    have hif : (if (v.getLsbD 16 && v.getLsbD 17) = true then v &&& 0xFFFFFFFFFC0301FF#64 ^^^ 0x10000#64
        else v &&& 0xFFFFFFFFFC0301FF#64).getLsbD k = (v &&& 0xFFFFFFFFFC0301FF#64).getLsbD k := by
      split
      · exact hbit
      · rfl
    rw [hif, BitVec.getLsbD_and, getLsbD_fprogMask hk, if_neg h16]
    split
    · next h => rw [decide_eq_true h, Bool.not_true, Bool.and_false]
    · next h => rw [decide_eq_false h, Bool.not_false, Bool.and_true]

/-- A word of PERM replaces its eight entries (R43). -/
theorem Arch.setPerm_entry (r : Arch) (w : Fin 32) (v : Word) (i : Fin 256) :
    (r.setPerm w v).perm[i.val] = if i.val / 8 = w.val then v.extractLsb' (8 * (i.val % 8)) 8 else r.perm[i.val] := by
  rw [Arch.setPerm, Vector.getElem_ofFn]
  split
  · symm
    apply extractLsb'_eq_of_field
    rw [BitVec.toNat_ofNat]
  · rfl

/-- Settles O21: every register but STALLC is stored by `Arch.setCsr`, which says each access type. -/
theorem controlRegisterWrites : Obligations.ControlRegisterWrites := by
  unfold Obligations.ControlRegisterWrites
  rintro s a v r rfl rfl
  have store {c : Csr} {k : Arch} (h : c ≠ .stallc) (hk : s.core.arch.setCsr c (s.rs a) = k) :
      s.GivesCore (.csrw c a) (fun x => { x with arch := k }) := by
    rw [← hk]
    exact execCsrw_of_ne h a s
  have ignore {c : Csr} (h : c ≠ .stallc) (hk : s.core.arch.setCsr c (s.rs a) = s.core.arch) : exec (.csrw c a) s = .next s := store h hk
  refine ⟨fun c => Csrw_keeps s c a, store (by decide) rfl, store (by decide) rfl, store (by decide) rfl, store (by decide) rfl, rfl,
    store (by decide) rfl, store (by decide) ?xflags, store (by decide) rfl, ⟨_, store (by decide) rfl, fun k hk => getLsbD_fprogStored _ hk⟩,
    store (by decide) ?tvec, fun n e he => store Csr.noConfusion ?active, fun n hn => ignore Csr.noConfusion ?inactive,
    fun w => ⟨_, store Csr.noConfusion rfl, fun i => s.core.arch.setPerm_entry w _ i⟩, ?readOnly, fun k => ignore Csr.noConfusion rfl⟩
  case xflags =>
    rw [Arch.setCsr, BitVec.setWidth_eq_extractLsb' (by decide)]
  case tvec =>
    rw [Arch.setCsr]
    split <;> rfl
  case active =>
    have hmod : s.core.arch.loops.modify n.val (setLoop (s.rs a)) = s.core.arch.loops.set n.val (setLoop (s.rs a) e) := by
      rw [List.modify_eq_set_getElem?, he]
      rfl
    rw [Arch.setCsr, hmod, setLoop_eq]
  case inactive => rw [Arch.setCsr, List.modify_eq_self hn]
  case readOnly =>
    intro c hc
    fin_cases hc <;> exact ignore (by decide) rfl

end Sys2Proof.Machine

namespace Sys2Proof.Machine

/-! ## Rounding a magnitude to a whole number (O6, O7)

A direction of rounding moves a value of sign `s`; `onMag` says where it moves the magnitude, so that one specification, `RoundsTo`,
serves both signs. -/

/-- Where a mode moves the magnitude of a value of sign `s`: to the nearest, down (RTZ) or up (RUP). -/
def onMag (rm : Rm) (s : Bool) : Rm :=
  match rm with
  | .rne => .rne
  | .rtz => .rtz
  | .rup => if s then .rtz else .rup
  | .rdn => if s then .rup else .rtz

/-- `n` is the whole number to which `d` moves the magnitude `u`. -/
def RoundsTo (d : Rm) (u : ℚ) (n : Nat) : Prop :=
  match d with
  | .rne => |u - n| ≤ 1 / 2 ∧ (|u - n| = 1 / 2 → n % 2 = 0)
  | .rup => u ≤ n ∧ (n : ℚ) < u + 1
  | _ => (n : ℚ) ≤ u ∧ u < n + 1

theorem onMag_cases (rm : Rm) (s : Bool) : onMag rm s = .rne ∨ onMag rm s = .rtz ∨ onMag rm s = .rup := by
  cases rm <;> cases s <;> simp [onMag]

/-- `roundsUp` looks at the sign only through the direction of the magnitude. -/
theorem roundsUp_eq (rm : Rm) (s odd : Bool) (r half : Nat) : roundsUp rm s odd r half false = (match onMag rm s with
    | .rne => decide (half < r) || (r == half && odd)
    | .rup => r != 0
    | _ => false) := by
  cases rm <;> cases s <;> simp [roundsUp, onMag]

theorem RoundsTo.self (d : Rm) (n : Nat) : RoundsTo d n n := by
  cases d <;> simp [RoundsTo]

/-- A number between `n` and `n + 1`, as a fraction with an even denominator, goes where `roundsUp` says. -/
theorem roundsTo_fraction (rm : Rm) (s : Bool) {n r h : Nat} (hr : r < 2 * h) :
    RoundsTo (onMag rm s) ((n : ℚ) + r / (2 * h)) (if roundsUp rm s (n % 2 == 1) r h false then n + 1 else n) := by
  have hh : (0 : ℚ) < 2 * h := by have : 0 < h := by omega
                                  positivity
  obtain ⟨t, ht⟩ : ∃ t : ℚ, t = r / (2 * h) := ⟨_, rfl⟩
  have hmul : t * (2 * h) = r := by rw [ht, div_mul_cancel₀ _ hh.ne']
  have ht0 : 0 ≤ t := by rw [ht]; positivity
  have ht1 : t < 1 := by rw [ht, div_lt_one hh]; exact_mod_cast hr
  rw [roundsUp_eq, ← ht]
  rcases onMag_cases rm s with hd | hd | hd
  · rw [hd]
    rcases lt_trichotomy r h with hlt | rfl | hgt
    · have htlt : t < 1 / 2 := by
        rw [ht, div_lt_iff₀ hh]
        have : (r : ℚ) < h := by exact_mod_cast hlt
        linarith
      simp only [Nat.not_lt.mpr hlt.le, decide_false, Bool.false_or, (beq_eq_false_iff_ne.mpr hlt.ne), Bool.false_and, Bool.false_eq_true, if_false]
      have habs : |(n : ℚ) + t - n| = t := by rw [add_sub_cancel_left, abs_of_nonneg ht0]
      exact ⟨habs.trans_le htlt.le, fun h2 => absurd (habs.symm.trans h2) htlt.ne⟩
    · have hthalf : t = 1 / 2 := by
        have : (r : ℚ) ≠ 0 := by rintro h0; rw [h0] at hh; simp at hh
        rw [ht]; field_simp
      simp only [lt_irrefl, decide_false, Bool.false_or, beq_self_eq_true, Bool.true_and]
      split
      · next hodd =>
        have habs : |(n : ℚ) + t - ((n + 1 : Nat) : ℚ)| = 1 / 2 := by
          rw [hthalf, Nat.cast_succ, show (n : ℚ) + 1 / 2 - (n + 1) = -(1 / 2) by ring, abs_neg, abs_of_pos (by norm_num)]
        exact ⟨habs.le, fun _ => by have := beq_iff_eq.mp hodd; omega⟩
      · next heven =>
        have habs : |(n : ℚ) + t - n| = 1 / 2 := by rw [add_sub_cancel_left, hthalf, abs_of_pos (by norm_num)]
        exact ⟨habs.le, fun _ => by have := mt beq_iff_eq.mpr heven; omega⟩
    · have htgt : 1 / 2 < t := by
        rw [ht, lt_div_iff₀ hh]
        have : (h : ℚ) < r := by exact_mod_cast hgt
        linarith
      simp only [hgt, decide_true, Bool.true_or, if_true]
      have habs : |(n : ℚ) + t - ((n + 1 : Nat) : ℚ)| = 1 - t := by
        rw [Nat.cast_succ, show (n : ℚ) + t - (n + 1) = -(1 - t) by ring, abs_neg, abs_of_pos (by linarith)]
      exact ⟨habs.trans_le (by linarith), fun h2 => absurd (habs.symm.trans h2) (by linarith)⟩
  · rw [hd]
    exact ⟨by simpa using ht0, by simpa using ht1⟩
  · rw [hd]
    rcases Nat.eq_zero_or_pos r with rfl | hpos
    · have : t = 0 := by rw [ht]; simp
      rw [this, add_zero]
      exact RoundsTo.self .rup n
    · have htpos : 0 < t := by
        rw [ht]
        have : (0 : ℚ) < r := by exact_mod_cast hpos
        positivity
      simp only [bne_iff_ne, hpos.ne', ne_eq, not_false_eq_true, if_true]
      refine ⟨?_, ?_⟩ <;> push_cast <;> linarith

/-- `roundAt` moves m × 2^e, counted in units of 2^q, as its direction says, and reports whether it moved it. -/
theorem roundAt_spec (rm : Rm) (s : Bool) (m : Nat) (e q : Int) :
    RoundsTo (onMag rm s) (m * 2 ^ (e - q)) (roundAt rm s m e false q).1 ∧
    ((roundAt rm s m e false q).2 = false ↔ ((roundAt rm s m e false q).1 : ℚ) = m * 2 ^ (e - q)) := by
  by_cases hq : q ≤ e
  · have hup : roundsUp rm s (m * 2 ^ (e - q).toNat % 2 == 1) 0 1 false = false := by
      rw [roundsUp_eq]
      rcases onMag_cases rm s with h | h | h <;> rw [h] <;> rfl
    have hval : (m : ℚ) * 2 ^ (e - q) = ((m * 2 ^ (e - q).toNat : Nat) : ℚ) := by
      rw [Nat.cast_mul, Nat.cast_pow, Nat.cast_ofNat, ← zpow_natCast, Int.toNat_of_nonneg (by omega)]
    simp only [roundAt, hq, if_true, hup, Bool.false_eq_true, if_false, hval, and_true]
    exact RoundsTo.self _ _
  · obtain ⟨k, hk⟩ : ∃ k : Nat, (q - e).toNat = k + 1 := ⟨(q - e).toNat - 1, by omega⟩
    have hd : 2 ^ (q - e).toNat = 2 * 2 ^ k := by rw [hk, Nat.pow_succ, Nat.mul_comm]
    have hpos : 0 < 2 ^ k := by positivity
    have hr : m % (2 * 2 ^ k) < 2 * 2 ^ k := Nat.mod_lt _ (by omega)
    have hval : (m : ℚ) * 2 ^ (e - q) = ((m / (2 * 2 ^ k) : Nat) : ℚ) + (m % (2 * 2 ^ k) : Nat) / (2 * (2 ^ k : Nat)) := by
      have hsplit : ((2 * 2 ^ k * (m / (2 * 2 ^ k)) + m % (2 * 2 ^ k) : Nat) : ℚ) = m := by rw [Nat.div_add_mod]
      have hpow : (2 : ℚ) ^ (e - q) = 1 / (2 * 2 ^ k) := by
        rw [show e - q = -((k + 1 : Nat) : Int) by omega, zpow_neg, zpow_natCast, pow_succ']
        simp
      rw [hpow]
      push_cast at hsplit ⊢
      field_simp
      linarith
    have hspec := roundsTo_fraction rm s (n := m / (2 * 2 ^ k)) hr
    rw [← hval] at hspec
    simp only [roundAt, hq, if_false, hd, Nat.mul_div_cancel_left _ (by decide : 0 < 2), Bool.or_false]
    refine ⟨hspec, ?_⟩
    rw [bne_eq_false_iff_eq]
    constructor
    · intro h0
      have hup : roundsUp rm s (m / (2 * 2 ^ k) % 2 == 1) 0 (2 ^ k) false = false := by
        rw [roundsUp_eq]
        have hne : (0 == 2 ^ k) = false := beq_eq_false_iff_ne.mpr hpos.ne
        rcases onMag_cases rm s with h | h | h <;> rw [h] <;> simp [hne]
      rw [h0, hup, hval, h0]
      simp
    · intro heq
      by_contra h0
      have hfrac0 : (0 : ℚ) < (m % (2 * 2 ^ k) : Nat) / (2 * (2 ^ k : Nat)) := by
        have : (0 : ℚ) < (m % (2 * 2 ^ k) : Nat) := by exact_mod_cast Nat.pos_of_ne_zero h0
        positivity
      have hfrac1 : ((m % (2 * 2 ^ k) : Nat) : ℚ) / (2 * (2 ^ k : Nat)) < 1 := by
        rw [div_lt_one (by positivity)]
        exact_mod_cast hr
      rw [hval] at heq
      split at heq
      · push_cast at heq hfrac1
        linarith
      · push_cast at heq hfrac0
        linarith

section
variable {d : Rm} {u w : ℚ} {n : Nat}

/-- A whole number not above a magnitude is not above what the magnitude is rounded to. -/
theorem RoundsTo.ge_of_le (h : RoundsTo d u n) {k : Nat} (hk : (k : ℚ) ≤ u) : k ≤ n := by
  have hlt : (k : ℚ) < n + 1 := by
    cases d with
    | rne => have := abs_le.mp h.1; linarith
    | rup => have := h.1; linarith
    | rtz | rdn => have := h.2; linarith
  exact Nat.lt_succ_iff.mp (by exact_mod_cast hlt)

/-- A whole number not below a magnitude is not below what the magnitude is rounded to. -/
theorem RoundsTo.le_of_le (h : RoundsTo d u n) {k : Nat} (hk : u ≤ k) : n ≤ k := by
  have hlt : (n : ℚ) < k + 1 := by
    cases d with
    | rne => have := abs_le.mp h.1; linarith
    | rup => have := h.2; linarith
    | rtz | rdn => have := h.1; linarith
  exact Nat.lt_succ_iff.mp (by exact_mod_cast hlt)

/-- A magnitude rounded to an even number is rounded to half of it in units twice as large. -/
theorem RoundsTo.half (h : RoundsTo d u (2 * n)) : RoundsTo d (u / 2) n := by
  cases d with
  | rne =>
    have hle := h.1
    have habs : |u / 2 - n| = |u - ((2 * n : Nat) : ℚ)| / 2 := by
      rw [show u / 2 - n = (u - ((2 * n : Nat) : ℚ)) / 2 by push_cast; ring, abs_div, abs_two]
    exact ⟨by linarith, fun hhalf => by linarith⟩
  | rup =>
    obtain ⟨h1, h2⟩ := h
    push_cast at h1 h2
    exact ⟨by linarith, by linarith⟩
  | rtz | rdn =>
    obtain ⟨h1, h2⟩ := h
    push_cast at h1 h2
    exact ⟨by linarith, by linarith⟩

/-- `w` is a whole number, or lies below a whole number that does not pass `u`: what the values of a format are, in units of the last
place of a result. -/
def OnGrid (u w : ℚ) : Prop := (∃ k : Int, w = k) ∨ ∃ k : Nat, |w| < k ∧ (k : ℚ) ≤ u

theorem RoundsTo.le_of_grid (h : RoundsTo .rtz u n) (hw : OnGrid u w) (hle : w ≤ u) : w ≤ n := by
  obtain ⟨-, hlt⟩ := h
  rcases hw with ⟨k, rfl⟩ | ⟨k, hk, hku⟩
  · have hlt : k < n + 1 := by exact_mod_cast hle.trans_lt hlt
    exact_mod_cast Int.lt_add_one_iff.mp hlt
  · have hkn : k ≤ n := Nat.lt_succ_iff.mp (by exact_mod_cast hku.trans_lt hlt)
    have : (k : ℚ) ≤ n := by exact_mod_cast hkn
    exact ((le_abs_self w).trans_lt hk).le.trans this

theorem RoundsTo.ge_of_grid (h : RoundsTo .rup u n) (hw : OnGrid u w) (hle : u ≤ w) : (n : ℚ) ≤ w := by
  obtain ⟨-, hlt⟩ := h
  rcases hw with ⟨k, rfl⟩ | ⟨k, hk, hku⟩
  · have hlt : (n : Int) < k + 1 := by
      have : (n : ℚ) < k + 1 := by linarith
      exact_mod_cast this
    exact_mod_cast Int.lt_add_one_iff.mp hlt
  · exact absurd ((le_abs_self w).trans_lt hk) (not_lt.mpr (hku.trans hle))

/-- Two whole numbers are at least 1 apart, so that the nearer of them lies within a half. -/
theorem RoundsTo.near_of_ne (h : RoundsTo .rne u n) {k : Int} (hne : k ≠ n) : |u - n| ≤ |u - k| ∧ (|u - n| = |u - k| → n % 2 = 0) := by
  obtain ⟨hle, heven⟩ := h
  have hone : (1 : ℚ) ≤ |(k : ℚ) - n| := by
    have : (1 : Int) ≤ |k - n| := Int.one_le_abs (sub_ne_zero.mpr hne)
    exact_mod_cast this
  have htri : |(k : ℚ) - n| ≤ |u - k| + |u - n| := by
    rw [show (k : ℚ) - n = (u - n) - (u - k) by ring, add_comm]
    exact abs_sub _ _
  exact ⟨by linarith, fun heq => heven (by linarith)⟩

theorem RoundsTo.near_of_grid (h : RoundsTo .rne u n) (hw : OnGrid u w) : |u - n| ≤ |u - w| ∧ (|u - n| = |u - w| → w ≠ n → n % 2 = 0) := by
  have hint (k : Int) : |u - n| ≤ |u - k| := by
    by_cases hk : k = n
    · rw [hk, Int.cast_natCast]
    · exact (h.near_of_ne hk).1
  rcases hw with ⟨k, rfl⟩ | ⟨k, hk, hku⟩
  · refine ⟨hint k, fun heq hne => (h.near_of_ne fun hkn => hne ?_).2 heq⟩
    rw [hkn, Int.cast_natCast]
  · have hlt : |u - n| < |u - w| := by
      have h1 := hint k
      rw [Int.cast_natCast, abs_of_nonneg (sub_nonneg.mpr hku)] at h1
      have h2 := (le_abs_self w).trans_lt hk
      have h3 := le_abs_self (u - w)
      linarith
    exact ⟨hlt.le, fun heq => absurd heq hlt.ne⟩

end

end Sys2Proof.Machine

namespace Sys2Proof.Machine

/-! ## Reading a code and its fields (O7, O8) -/

theorem log2_eq_of_range {n k : Nat} (h1 : 2 ^ k ≤ n) (h2 : n < 2 ^ (k + 1)) : Nat.log2 n = k :=
  (Nat.log2_eq_iff (by have := Nat.two_pow_pos k; omega)).mpr ⟨h1, h2⟩

theorem log2_lt_of_lt {n k : Nat} (h0 : n ≠ 0) (h : n < 2 ^ k) : Nat.log2 n < k := (Nat.log2_lt h0).mpr h

/-- A format with infinities and a bias in the middle of its exponents (R50): FP32 and FP64 among others. -/
structure FF.Ieee (f : FF) : Prop where
  plain : f.e4m3 = false
  fields : 2 ^ f.eb = 2 * f.bias + 2
  bias : 1 ≤ f.bias
  mantissa : 1 ≤ f.fb

theorem sfmt_ieee (f : SFmt) : f.ff.Ieee := by
  cases f <;> exact ⟨rfl, by decide, by decide, by decide⟩

theorem two_pow_fBits (f : SFmt) : 2 ^ fBits f = 2 * (2 ^ f.ff.eb * 2 ^ f.ff.fb) := by
  cases f <;> decide

/-- A finite number is its signed mantissa, in units of its exponent. -/
theorem Num.val_fin (g : Bool) (m : Nat) (e : Int) : (Num.fin g m e).val = (sMant g m : ℚ) * 2 ^ e := by
  cases g <;> simp [Num.val, sMant]

theorem Num.abs_val_fin (g : Bool) (m : Nat) (e : Int) : |(Num.fin g m e).val| = m * 2 ^ e := by
  have h : (0 : ℚ) < 2 ^ e := by positivity
  rw [Num.val_fin, abs_mul, abs_of_pos h]
  cases g <;> simp [sMant]

section
variable {f : FF}

/-- A code by its fields: an infinity or a NaN, a subnormal number, or a normal one (R50, R51). -/
theorem FF.read_cases (hf : f.Ieee) (c : Nat) :
    (c / 2 ^ f.fb % 2 ^ f.eb = 2 ^ f.eb - 1 ∧ f.read c = (if c % 2 ^ f.fb = 0 then .inf (c / 2 ^ (f.eb + f.fb) % 2 == 1)
      else .nan (c / 2 ^ (f.eb + f.fb) % 2 == 1) (c % 2 ^ f.fb % 2 ^ (f.fb - 1) * 2 ^ (52 - f.fb)) (c % 2 ^ f.fb / 2 ^ (f.fb - 1) == 0))) ∨
    (c / 2 ^ f.fb % 2 ^ f.eb = 0 ∧ f.read c = .fin (c / 2 ^ (f.eb + f.fb) % 2 == 1) (c % 2 ^ f.fb) (f.emin - f.fb)) ∨
    (1 ≤ c / 2 ^ f.fb % 2 ^ f.eb ∧ c / 2 ^ f.fb % 2 ^ f.eb ≤ 2 * f.bias ∧ f.read c =
      .fin (c / 2 ^ (f.eb + f.fb) % 2 == 1) (2 ^ f.fb + c % 2 ^ f.fb) ((c / 2 ^ f.fb % 2 ^ f.eb : Nat) - f.bias - f.fb)) := by
  have hlt : c / 2 ^ f.fb % 2 ^ f.eb < 2 ^ f.eb := Nat.mod_lt _ (Nat.two_pow_pos _)
  have hfields := hf.fields
  have hbias := hf.bias
  unfold FF.read
  simp only [hf.plain, Bool.not_false, Bool.true_or, Bool.and_true, decide_eq_true_eq, Bool.false_eq_true, if_false]
  by_cases htop : c / 2 ^ f.fb % 2 ^ f.eb = 2 ^ f.eb - 1
  · exact .inl ⟨htop, by rw [if_pos htop]⟩
  · rw [if_neg htop]
    by_cases hzero : c / 2 ^ f.fb % 2 ^ f.eb = 0
    · exact .inr (.inl ⟨hzero, by rw [if_pos hzero]⟩)
    · exact .inr (.inr ⟨by omega, by omega, by rw [if_neg hzero]⟩)

/-- What is read is finite where the exponent field is not all ones. -/
theorem FF.read_finite (hf : f.Ieee) {c : Nat} (h : (f.read c).IsFinite) : ∃ (g : Bool) (m : Nat) (e : Int), f.read c = .fin g m e ∧
    m < 2 ^ (f.fb + 1) ∧ f.emin - f.fb ≤ e ∧ e ≤ f.bias - f.fb := by
  have hq : c % 2 ^ f.fb < 2 ^ f.fb := Nat.mod_lt _ (Nat.two_pow_pos _)
  have hsucc : 2 ^ (f.fb + 1) = 2 * 2 ^ f.fb := by rw [Nat.pow_succ, Nat.mul_comm]
  have hbias := hf.bias
  rcases FF.read_cases hf c with ⟨-, hr⟩ | ⟨-, hr⟩ | ⟨h1, h2, hr⟩
  · obtain ⟨hnan, hinf⟩ := h
    rw [hr] at hnan hinf
    split at hnan
    · rw [if_pos ‹_›] at hinf; cases hinf
    · cases hnan
  · exact ⟨_, _, _, hr, by omega, le_rfl, by unfold FF.emin; omega⟩
  · exact ⟨_, _, _, hr, by omega, by unfold FF.emin; omega, by omega⟩

/-- A code put together from its fields. -/
def FF.code (f : FF) (g : Bool) (x q : Nat) : Nat := f.signBit g + x * 2 ^ f.fb + q

section
variable (g : Bool) {x q : Nat} (hx : x < 2 ^ f.eb) (hq : q < 2 ^ f.fb)
include hx hq

theorem FF.code_lt : f.code g x q < 2 * (2 ^ f.eb * 2 ^ f.fb) := by
  have hmul : (x + 1) * 2 ^ f.fb ≤ 2 ^ f.eb * 2 ^ f.fb := Nat.mul_le_mul_right _ hx
  rw [Nat.add_mul, Nat.one_mul] at hmul
  have hsign : f.signBit g ≤ 2 ^ f.eb * 2 ^ f.fb := by
    unfold FF.signBit
    split
    · rw [Nat.pow_add]
    · exact Nat.zero_le _
  unfold FF.code
  omega

/-- The fields of a code are those that it was put together from. -/
theorem FF.code_fields : f.code g x q % 2 ^ f.fb = q ∧ f.code g x q / 2 ^ f.fb % 2 ^ f.eb = x ∧
    (f.code g x q / 2 ^ (f.eb + f.fb) % 2 == 1) = g := by
  have hcode : f.code g x q = q + 2 ^ f.fb * (x + 2 ^ f.eb * g.toNat) := by
    cases g <;> simp [FF.code, FF.signBit, Nat.pow_add] <;> ring
  have hdiv : f.code g x q / 2 ^ f.fb = x + 2 ^ f.eb * g.toNat := by
    rw [hcode, Nat.add_mul_div_left _ _ (Nat.two_pow_pos _), Nat.div_eq_of_lt hq, Nat.zero_add]
  have hhigh : f.code g x q / 2 ^ (f.eb + f.fb) = g.toNat := by
    rw [Nat.add_comm f.eb, Nat.pow_add, ← Nat.div_div_eq_div_mul, hdiv, Nat.add_mul_div_left _ _ (Nat.two_pow_pos _), Nat.div_eq_of_lt hx,
      Nat.zero_add]
  refine ⟨?_, ?_, ?_⟩
  · rw [hcode, Nat.add_mul_mod_self_left, Nat.mod_eq_of_lt hq]
  · rw [hdiv, Nat.add_mul_mod_self_left, Nat.mod_eq_of_lt hx]
  · rw [hhigh]
    cases g <;> rfl

/-- A code whose exponent field is not all ones reads as a finite number. -/
theorem FF.read_code (hf : f.Ieee) (hfin : x ≤ 2 * f.bias) :
    f.read (f.code g x q) = if x = 0 then .fin g q (f.emin - f.fb) else .fin g (2 ^ f.fb + q) ((x : Int) - f.bias - f.fb) := by
  obtain ⟨hq', hx', hg⟩ := FF.code_fields g hx hq
  have hfields := hf.fields
  rcases FF.read_cases hf (f.code g x q) with ⟨h, -⟩ | ⟨h, hr⟩ | ⟨h, -, hr⟩
  · omega
  · rw [hr, if_pos (by omega), hg, hq']
  · rw [hr, if_neg (by omega), hg, hq', hx']

end

theorem FF.read_infCode (hf : f.Ieee) (g : Bool) : f.read (f.infCode g) = .inf g := by
  have hfields := hf.fields
  have hcode : f.infCode g = f.code g (2 ^ f.eb - 1) 0 := rfl
  obtain ⟨hq, hx, hg⟩ := FF.code_fields (f := f) g (x := 2 ^ f.eb - 1) (q := 0) (by omega) (Nat.two_pow_pos _)
  rcases FF.read_cases hf (f.infCode g) with ⟨-, hr⟩ | ⟨h, -⟩ | ⟨-, h, -⟩
  · rw [hr, hcode, hq, hg, if_pos rfl]
  · rw [hcode] at h; omega
  · rw [hcode] at h; omega

/-- The largest finite code has all ones below the exponent of the infinities (R52). -/
theorem FF.maxCode_eq (hf : f.Ieee) (g : Bool) : f.maxCode g = f.code g (2 * f.bias) (2 ^ f.fb - 1) := by
  have hpow := Nat.two_pow_pos f.fb
  have hfields : 2 ^ f.eb - 1 = 2 * f.bias + 1 := by rw [hf.fields]; omega
  simp only [FF.maxCode, FF.code, hf.plain, Bool.false_eq_true, if_false, hfields]
  rw [Nat.add_mul, Nat.one_mul]
  omega

end

/-! ## Comparison and class (O8) -/

/-- Two numbers are equal; a NaN equals none. -/
def Num.Eqv (x y : Num) : Prop :=
  match x, y with
  | .fin .., .fin .. => x.val = y.val
  | .inf g, .inf h => g = h
  | _, _ => False

/-- A number is below another; a NaN is below none. -/
def Num.Below (x y : Num) : Prop :=
  match x, y with
  | .fin .., .fin .. => x.val < y.val
  | .inf g, .inf h => g = true ∧ h = false
  | .inf g, .fin .. => g = true
  | .fin .., .inf h => h = false
  | _, _ => False

/-- A mantissa in units of a smaller exponent. -/
theorem sMant_scaled (g : Bool) (m : Nat) {e q : Int} (h : q ≤ e) :
    ((sMant g m * 2 ^ (e - q).toNat : Int) : ℚ) * 2 ^ q = (Num.fin g m e).val := by
  rw [Num.val_fin, Int.cast_mul, Int.cast_pow, Int.cast_ofNat, ← zpow_natCast, Int.toNat_of_nonneg (by omega), mul_assoc,
    ← zpow_add₀ (by norm_num : (2 : ℚ) ≠ 0), Int.sub_add_cancel]

/-- Two finite numbers are compared in units of the smaller exponent. -/
theorem numLt_fin_iff (g h : Bool) (m n : Nat) (e d : Int) :
    numLt (.fin g m e) (.fin h n d) = true ↔ (Num.fin g m e).val < (Num.fin h n d).val := by
  have hpos : (0 : ℚ) < 2 ^ min e d := by positivity
  rw [← sMant_scaled g m (min_le_left e d), ← sMant_scaled h n (min_le_right e d), mul_lt_mul_iff_left₀ hpos, Int.cast_lt]
  exact decide_eq_true_iff

section
variable {x y : Num}

theorem numLt_iff_below (hx : x.isNan = false) (hy : y.isNan = false) : numLt x y = true ↔ x.Below y := by
  cases x with
  | nan => cases hx
  | inf g => cases y with
    | nan => cases hy
    | inf h => simp [numLt, Num.Below]
    | fin => simp [numLt, Num.Below]
  | fin g m e => cases y with
    | nan => cases hy
    | inf h => simp [numLt, Num.Below]
    | fin h n d => exact numLt_fin_iff g h m n e d

theorem Num.below_swap_iff (hx : x.isNan = false) (hy : y.isNan = false) : y.Below x ↔ ¬ x.Below y ∧ ¬ x.Eqv y := by
  cases x with
  | nan => cases hx
  | inf g => cases y with
    | nan => cases hy
    | inf h => cases g <;> cases h <;> simp [Num.Below, Num.Eqv]
    | fin => simp [Num.Below, Num.Eqv]
  | fin g m e => cases y with
    | nan => cases hy
    | inf h => simp [Num.Below, Num.Eqv]
    | fin h n d =>
      simp only [Num.Below, Num.Eqv, not_lt]
      exact ⟨fun hlt => ⟨hlt.le, hlt.ne'⟩, fun ⟨hle, hne⟩ => lt_of_le_of_ne hle (Ne.symm hne)⟩

theorem Num.not_eqv_of_nan (h : x.isNan = true ∨ y.isNan = true) : ¬ x.Eqv y := by
  cases x <;> cases y <;> simp_all [Num.isNan, Num.Eqv]

theorem Num.not_eqv_of_below (h : x.Below y) : ¬ x.Eqv y := by
  cases x <;> cases y <;> simp only [Num.Below, Num.Eqv, not_false_eq_true] at h ⊢
  · rintro rfl
    rw [h.1] at h
    cases h.2
  · exact h.ne

/-- A condition of FCMP, by the order of the numbers (R225). -/
theorem fcmpHolds_iff (cc : FCond) (x y : Num) : fcmpHolds cc x y = true ↔
    let nan : Prop := x.isNan = true ∨ y.isNan = true
    match cc with
    | .eq => ¬ nan ∧ x.Eqv y
    | .ne => nan ∨ ¬ x.Eqv y
    | .lt => ¬ nan ∧ x.Below y
    | .le => ¬ nan ∧ (x.Below y ∨ x.Eqv y)
    | .gt => ¬ nan ∧ ¬ x.Below y ∧ ¬ x.Eqv y
    | .ge => ¬ nan ∧ ¬ x.Below y
    | .un => nan := by
  by_cases hnan : x.isNan = true ∨ y.isNan = true
  · have hne := Num.not_eqv_of_nan hnan
    have hun : (x.isNan || y.isNan) = true := by rw [Bool.or_eq_true]; exact hnan
    have heq : numEq x y = false := by
      rcases hnan with h | h <;> simp [numEq, h]
    cases cc <;> simp [fcmpHolds, hun, heq, hnan, hne]
  · obtain ⟨hx, hy⟩ : x.isNan = false ∧ y.isNan = false := by simpa using hnan
    have hlt := numLt_iff_below hx hy
    have hgt := (numLt_iff_below hy hx).trans (Num.below_swap_iff hx hy)
    have hdisj := Num.not_eqv_of_below (x := x) (y := y)
    cases cc <;> simp only [fcmpHolds, numEq, hx, hy, Bool.or_self, Bool.not_false, Bool.true_and, Bool.and_eq_true, Bool.not_eq_true',
      ← Bool.not_eq_true, hlt, hgt] <;> simp <;> tauto

end

theorem sigFlags_pair (x y : Num) : sigFlags [x, y] = if x.isSig || y.isSig then fNV else 0 := by
  simp [sigFlags, flagIf]

/-- The class of what is read from a code: a number is subnormal where its exponent field is 0 (R227). -/
theorem classBit_read {f : FF} (hf : f.Ieee) (c : Nat) : ∃ k < 10, classBit f (f.read c) = k ∧
    (match f.read c with
      | .inf true => k = 0 | .inf false => k = 7
      | .nan _ _ true => k = 8 | .nan _ _ false => k = 9
      | .fin true 0 _ => k = 3 | .fin false 0 _ => k = 4
      | .fin true _ _ => k = (if c / 2 ^ f.fb % 2 ^ f.eb = 0 then 2 else 1)
      | .fin false _ _ => k = (if c / 2 ^ f.fb % 2 ^ f.eb = 0 then 5 else 6)) := by
  have hq : c % 2 ^ f.fb < 2 ^ f.fb := Nat.mod_lt _ (Nat.two_pow_pos _)
  have hpow := Nat.two_pow_pos f.fb
  have hcases := FF.read_cases hf c
  generalize (c / 2 ^ (f.eb + f.fb) % 2 == 1) = g at hcases
  generalize c / 2 ^ f.fb % 2 ^ f.eb = x at hcases ⊢
  generalize c % 2 ^ f.fb = q at hcases hq
  rcases hcases with ⟨-, hr⟩ | ⟨h0, hr⟩ | ⟨h1, -, hr⟩
  · rw [hr]
    split
    · cases g
      · exact ⟨7, by decide, rfl, rfl⟩
      · exact ⟨0, by decide, rfl, rfl⟩
    · generalize (q / 2 ^ (f.fb - 1) == 0) = sig
      cases sig
      · exact ⟨9, by decide, rfl, rfl⟩
      · exact ⟨8, by decide, rfl, rfl⟩
  · rw [hr, h0]
    cases q with
    | zero => cases g
              · exact ⟨4, by decide, rfl, rfl⟩
              · exact ⟨3, by decide, rfl, rfl⟩
    | succ m =>
      have hlog : Nat.log2 (m + 1) < f.fb := log2_lt_of_lt (Nat.succ_ne_zero m) hq
      have hsub : ((Nat.log2 (m + 1) : Nat) : Int) + (f.emin - f.fb) < f.emin := by omega
      cases g
      · exact ⟨5, by decide, by simp [classBit, hsub], rfl⟩
      · exact ⟨2, by decide, by simp [classBit, hsub], rfl⟩
  · have hlog : Nat.log2 (2 ^ f.fb + q) = f.fb := log2_eq_of_range (by omega) (by rw [Nat.pow_succ]; omega)
    have hnormal : ¬ ((f.fb : Int) + (x - f.bias - f.fb) < f.emin) := by unfold FF.emin; omega
    have hne : x ≠ 0 := by omega
    obtain ⟨m, hm⟩ : ∃ m, 2 ^ f.fb + q = m + 1 := ⟨2 ^ f.fb + q - 1, by omega⟩
    rw [hm] at hr hlog
    rw [hr]
    cases g
    · exact ⟨6, by decide, by simp only [classBit, hlog, hnormal]; rfl, by simp [hne]⟩
    · exact ⟨1, by decide, by simp only [classBit, hlog, hnormal]; rfl, by simp [hne]⟩

/-- Settles O8: FCMP by the order of the numbers, FCLASS by the fields of the code. -/
theorem floatCompareAndClass : Obligations.FloatCompareAndClass := by
  unfold Obligations.FloatCompareAndClass
  refine ⟨fun s f d a b cc x y hx hy => ?compare, fun s f d a => ?classify⟩
  case compare =>
    have hexec : exec (.fcmp cc f d a b) s = .next ((s.wp d (fcmpHolds cc x y)).flag (sigFlags [x, y])) := by
      rw [← hx, ← hy]
      rfl
    obtain ⟨hsame, hother, hframe⟩ := s.wroteP_wp d (fcmpHolds cc x y)
    refine ⟨_, hexec, ?_, hother, ?_⟩
    · have hrp : ((s.wp d (fcmpHolds cc x y)).flag (sigFlags [x, y])).core.arch.rp d = _ := hsame
      rw [hrp]
      by_cases hd : d = 0
      · simp [hd]
      · simp only [hd, if_false, false_or]
        exact fcmpHolds_iff cc x y
    · rw [← sigFlags_pair]
      exact congrArg (fun t => State.flag t (sigFlags [x, y])) hframe
  case classify =>
    obtain ⟨k, hk, hbit, hclass⟩ := classBit_read (sfmt_ieee f) ((s.rs a).toNat % 2 ^ fBits f)
    have hfield : (s.rs a).toNat % 2 ^ fBits f / 2 ^ f.ff.fb % 2 ^ f.ff.eb = (s.rs a).toNat / 2 ^ f.ff.fb % 2 ^ f.ff.eb := by
      have hdvd : 2 ^ f.ff.eb * 2 ^ f.ff.fb ∣ 2 ^ fBits f := ⟨2, by rw [two_pow_fBits, Nat.mul_comm]⟩
      rw [← Nat.mod_mul_right_div_self, ← Nat.mod_mul_right_div_self, Nat.mul_comm (2 ^ f.ff.fb), Nat.mod_mod_of_dvd _ hdvd]
    rw [hfield] at hclass
    refine ⟨k, hk, s.givesS_of_ws ?_, hclass⟩
    rw [← hbit]
    rfl

end Sys2Proof.Machine

namespace Sys2Proof.Machine

/-! ## The rounding of a format (O7) -/

/-- The sign of a number as a factor. -/
def signQ (g : Bool) : ℚ := if g then -1 else 1

theorem abs_signQ (g : Bool) : |signQ g| = 1 := by
  cases g <;> simp [signQ]

theorem Num.val_eq_signQ (g : Bool) (m : Nat) (e : Int) : (Num.fin g m e).val = signQ g * (m * 2 ^ e) := by
  simp only [Num.val, signQ, mul_assoc]

section
variable {d : Rm} {u w : ℚ} {n : Nat}

theorem RoundsTo.lt_add_one (h : RoundsTo d u n) : (n : ℚ) < u + 1 := by
  cases d with
  | rne => have := abs_le.mp h.1; linarith
  | rup => exact h.2
  | rtz | rdn => have := h.1; linarith

/-- When a magnitude is rounded to a number below the even number `k`. -/
theorem RoundsTo.lt_even_iff {k : Nat} (hk : k % 2 = 0) (hu : u < k) : RoundsTo d u n → (n < k ↔ (match d with
    | .rne => u < k - 1 / 2
    | .rup => u ≤ k - 1
    | _ => True)) := by
  intro h
  cases d with
  | rne =>
    obtain ⟨hle, heven⟩ := h
    constructor
    · intro hn
      have hn1 : (n : ℚ) + 1 ≤ k := by exact_mod_cast hn
      have := (abs_le.mp hle).2
      refine lt_of_le_of_ne (by linarith) fun heq => ?_
      have hn2 : (n : ℚ) + 1 = k := by linarith
      have hn2 : n + 1 = k := by exact_mod_cast hn2
      have := heven (by rw [heq, show (k : ℚ) - 1 / 2 - n = 1 / 2 by linarith, abs_of_pos (by norm_num)])
      omega
    · intro hlt
      have := (abs_le.mp hle).1
      have hn : (n : ℚ) < k := by linarith
      exact_mod_cast hn
  | rup =>
    obtain ⟨hle, hlt⟩ := h
    constructor
    · intro hn
      have hn1 : (n : ℚ) + 1 ≤ k := by exact_mod_cast hn
      show u ≤ k - 1
      linarith
    · intro hu1
      have hu1 : u ≤ k - 1 := hu1
      have hn : (n : ℚ) < k := by linarith
      exact_mod_cast hn
  | rtz | rdn =>
    have hn : (n : ℚ) < k := h.1.trans_lt hu
    exact iff_of_true (by exact_mod_cast hn) trivial

theorem OnGrid.neg (h : OnGrid u w) : OnGrid u (-w) := by
  rcases h with ⟨k, rfl⟩ | ⟨k, hk, hku⟩
  · exact .inl ⟨-k, by push_cast; rfl⟩
  · exact .inr ⟨k, by rwa [abs_neg], hku⟩

theorem OnGrid.abs (h : OnGrid u w) : OnGrid u |w| := by
  rcases abs_choice w with hw | hw <;> rw [hw]
  · exact h
  · exact h.neg

/-- What is best among the values of a grid, for each mode: `u`, `n` and `w` count units of `b`, of sign `g`. -/
theorem RoundsTo.best (rm : Rm) (g : Bool) {b : ℚ} (hb : 0 < b) (hu : 0 ≤ u) (h : RoundsTo (onMag rm g) u n) (hw : OnGrid u w) :
    match rm with
    | .rne => |signQ g * (u * b) - signQ g * (n * b)| ≤ |signQ g * (u * b) - signQ g * (w * b)| ∧
        (|signQ g * (u * b) - signQ g * (n * b)| = |signQ g * (u * b) - signQ g * (w * b)| → signQ g * (w * b) ≠ signQ g * (n * b) → n % 2 = 0)
    | .rtz => |signQ g * (n * b)| ≤ |signQ g * (u * b)| ∧ (|signQ g * (w * b)| ≤ |signQ g * (u * b)| → |signQ g * (w * b)| ≤ |signQ g * (n * b)|)
    | .rup => signQ g * (u * b) ≤ signQ g * (n * b) ∧ (signQ g * (u * b) ≤ signQ g * (w * b) → signQ g * (n * b) ≤ signQ g * (w * b))
    | .rdn => signQ g * (n * b) ≤ signQ g * (u * b) ∧ (signQ g * (w * b) ≤ signQ g * (u * b) → signQ g * (w * b) ≤ signQ g * (n * b)) := by
  have hdist (a c : ℚ) : |signQ g * (a * b) - signQ g * (c * b)| = |a - c| * b := by
    rw [← mul_sub, ← sub_mul, abs_mul, abs_signQ, one_mul, abs_mul, abs_of_pos hb]
  have habs (a : ℚ) : |signQ g * (a * b)| = |a| * b := by
    rw [abs_mul, abs_signQ, one_mul, abs_mul, abs_of_pos hb]
  have down (h : RoundsTo .rtz u n) : n * b ≤ u * b ∧ (w * b ≤ u * b → w * b ≤ n * b) :=
    ⟨mul_le_mul_of_nonneg_right h.1 hb.le, fun hle => mul_le_mul_of_nonneg_right (h.le_of_grid hw (le_of_mul_le_mul_right hle hb)) hb.le⟩
  have up (h : RoundsTo .rup u n) : u * b ≤ n * b ∧ (u * b ≤ w * b → n * b ≤ w * b) :=
    ⟨mul_le_mul_of_nonneg_right h.1 hb.le, fun hle => mul_le_mul_of_nonneg_right (h.ge_of_grid hw (le_of_mul_le_mul_right hle hb)) hb.le⟩
  cases rm with
  | rne =>
    obtain ⟨hle, heven⟩ := RoundsTo.near_of_grid h hw
    simp only [hdist]
    exact ⟨mul_le_mul_of_nonneg_right hle hb.le, fun heq hne => heven (mul_right_cancel₀ hb.ne' heq) fun hwn => hne (by rw [hwn])⟩
  | rtz =>
    simp only [habs]
    rw [abs_of_nonneg hu, abs_of_nonneg (Nat.cast_nonneg n : (0 : ℚ) ≤ n)]
    exact ⟨mul_le_mul_of_nonneg_right h.1 hb.le,
      fun hle => mul_le_mul_of_nonneg_right (RoundsTo.le_of_grid h hw.abs (le_of_mul_le_mul_right hle hb)) hb.le⟩
  | rup =>
    cases g with
    | false => simpa [signQ] using up h
    | true => simpa [signQ] using down h
  | rdn =>
    cases g with
    | false => simpa [signQ] using down h
    | true => simpa [signQ] using up h

end

/-! ### A value between two powers of 2 -/

/-- A value in units of 2^q. -/
theorem scaled_mul (m : Nat) (e q : Int) : (m : ℚ) * 2 ^ (e - q) * 2 ^ q = m * 2 ^ e := by
  rw [mul_assoc, ← zpow_add₀ (by norm_num : (2 : ℚ) ≠ 0), Int.sub_add_cancel]

theorem two_zpow_le {a b : Int} (h : a ≤ b) : (2 : ℚ) ^ a ≤ 2 ^ b := zpow_le_zpow_right₀ (by norm_num) h

theorem two_pow_mul_zpow (k : Nat) (q : Int) : (2 : ℚ) ^ k * 2 ^ q = 2 ^ ((k : Int) + q) := by
  rw [← zpow_natCast, ← zpow_add₀ (by norm_num : (2 : ℚ) ≠ 0)]

section
variable (f : FF) (rm : Rm) (g : Bool) (m : Nat) (e : Int)

/-- The exponent of the last place of ±m × 2^e, were the exponents of the format unbounded. -/
def FF.place : Int := (Nat.log2 m : Int) + e - f.fb

/-- ±m × 2^e rounded at that place (R64). -/
def FF.wide : Nat := (roundAt rm g m e false (f.place m e)).1

variable {f rm g m e} (hm : m ≠ 0)

theorem FF.wide_rounds : RoundsTo (onMag rm g) (m * 2 ^ (e - f.place m e)) (f.wide rm g m e) := (roundAt_spec rm g m e _).1

include hm

theorem FF.place_range : (2 : ℚ) ^ f.fb ≤ m * 2 ^ (e - f.place m e) ∧ (m : ℚ) * 2 ^ (e - f.place m e) < 2 ^ (f.fb + 1) := by
  have hlow : ((2 ^ Nat.log2 m : Nat) : ℚ) ≤ m := by exact_mod_cast Nat.log2_self_le hm
  have hhigh : (m : ℚ) < (2 ^ (Nat.log2 m + 1) : Nat) := by exact_mod_cast Nat.lt_log2_self
  have hpos : (0 : ℚ) < 2 ^ ((f.fb : Int) - Nat.log2 m) := by positivity
  have hexp : e - f.place m e = (f.fb : Int) - Nat.log2 m := by unfold FF.place; omega
  rw [hexp]
  push_cast at hlow hhigh
  constructor
  · calc (2 : ℚ) ^ f.fb = 2 ^ Nat.log2 m * 2 ^ ((f.fb : Int) - Nat.log2 m) := by rw [two_pow_mul_zpow, add_sub_cancel, zpow_natCast]
      _ ≤ _ := mul_le_mul_of_nonneg_right hlow hpos.le
  · calc (m : ℚ) * 2 ^ ((f.fb : Int) - Nat.log2 m) < 2 ^ (Nat.log2 m + 1) * 2 ^ ((f.fb : Int) - Nat.log2 m) := mul_lt_mul_of_pos_right hhigh hpos
      _ = 2 ^ (f.fb + 1) := by
        rw [two_pow_mul_zpow, ← zpow_natCast]
        congr 1
        push_cast
        ring

/-- In units of a place above its own a value has fewer bits. -/
theorem FF.lt_of_place_lt {q : Int} (h : f.place m e < q) : (m : ℚ) * 2 ^ (e - q) < 2 ^ f.fb := by
  obtain ⟨-, hhigh⟩ := FF.place_range (f := f) (e := e) hm
  calc (m : ℚ) * 2 ^ (e - q) = m * 2 ^ (e - f.place m e) * 2 ^ (f.place m e - q) := by
        rw [mul_assoc, ← zpow_add₀ (by norm_num : (2 : ℚ) ≠ 0)]
        congr 2
        ring
    _ ≤ m * 2 ^ (e - f.place m e) * 2 ^ (-1 : Int) := mul_le_mul_of_nonneg_left (two_zpow_le (by omega)) (by positivity)
    _ < 2 ^ (f.fb + 1) * 2 ^ (-1 : Int) := mul_lt_mul_of_pos_right hhigh (by positivity)
    _ = 2 ^ f.fb := by rw [pow_succ, zpow_neg_one]; ring

theorem FF.wide_range : 2 ^ f.fb ≤ f.wide rm g m e ∧ f.wide rm g m e ≤ 2 ^ (f.fb + 1) := by
  obtain ⟨hlow, hhigh⟩ := FF.place_range (f := f) (e := e) hm
  exact ⟨FF.wide_rounds.ge_of_le (by exact_mod_cast hlow), FF.wide_rounds.le_of_le (by exact_mod_cast hhigh.le)⟩

/-- The leading bit of the value rounded: it stands where it stood, or a carry has moved it up by one. -/
theorem FF.log2_wide : (f.wide rm g m e < 2 ^ (f.fb + 1) ∧ Nat.log2 (f.wide rm g m e) = f.fb) ∨
    (f.wide rm g m e = 2 ^ (f.fb + 1) ∧ Nat.log2 (f.wide rm g m e) = f.fb + 1) := by
  obtain ⟨hlow, hhigh⟩ := FF.wide_range (f := f) (rm := rm) (g := g) (e := e) hm
  rcases Nat.lt_or_eq_of_le hhigh with h | h
  · exact .inl ⟨h, log2_eq_of_range hlow h⟩
  · exact .inr ⟨h, by rw [h, Nat.log2_two_pow]⟩

/-- A rounding at the place of the value, or at the last place of the subnormal numbers where it stays below the normal ones. -/
theorem FF.round_eq (hf : f.Ieee) : f.round rm g m e false =
    if (Nat.log2 (f.wide rm g m e) : Int) + f.place m e < f.emin then
      ⟨(roundAt rm g m e false (f.emin - f.fb)).1, f.emin - f.fb, false, (roundAt rm g m e false (f.emin - f.fb)).2, true⟩
    else ⟨f.wide rm g m e, f.place m e, decide ((f.bias : Int) < Nat.log2 (f.wide rm g m e) + f.place m e),
      (roundAt rm g m e false (f.place m e)).2, false⟩ := by
  obtain ⟨hlow, -⟩ := FF.wide_range (f := f) (rm := rm) (g := g) (e := e) hm
  have hpow := Nat.two_pow_pos f.fb
  have hne : f.wide rm g m e ≠ 0 := by omega
  have hmax : ¬ (f.maxMant * 2 ^ Nat.log2 (f.wide rm g m e) < f.wide rm g m e * 2 ^ f.fb) := by
    have hmant : f.maxMant = 2 ^ (f.fb + 1) - 1 := by simp [FF.maxMant, hf.plain]
    have hsucc : 2 ^ (f.fb + 1) = 2 * 2 ^ f.fb := by rw [Nat.pow_succ, Nat.mul_comm]
    rw [hmant, not_lt]
    rcases FF.log2_wide (f := f) (rm := rm) (g := g) (e := e) hm with ⟨hlt, hlog⟩ | ⟨heq, hlog⟩
    · rw [hlog]
      exact Nat.mul_le_mul_right _ (by omega)
    · rw [hlog, heq, Nat.mul_comm]
      exact Nat.mul_le_mul_right _ (by omega)
  have hemax : f.emax = f.bias := by simp [FF.emax, hf.plain]
  unfold FF.round
  simp only [hm, if_false, hemax]
  show (if f.wide rm g m e = 0 ∨ (Nat.log2 (f.wide rm g m e) : Int) + f.place m e < f.emin then _ else Rounded.mk (f.wide rm g m e) (f.place m e)
    (decide ((f.bias : Int) < Nat.log2 (f.wide rm g m e) + f.place m e) || ((Nat.log2 (f.wide rm g m e) : Int) + f.place m e == f.bias &&
      decide (f.maxMant * 2 ^ Nat.log2 (f.wide rm g m e) < f.wide rm g m e * 2 ^ f.fb))) (roundAt rm g m e false (f.place m e)).2 false) = _
  simp only [hne, false_or, decide_eq_false hmax, Bool.and_false, Bool.or_false]

end

/-- `n` units of 2^q are ±m × 2^e rounded into a format. -/
structure FF.Result (f : FF) (rm : Rm) (g : Bool) (m : Nat) (e : Int) (n : Nat) (q : Int) : Prop where
  low : f.emin - f.fb ≤ q
  fine : q = f.emin - f.fb ∨ (2 : ℚ) ^ f.fb ≤ m * 2 ^ (e - q)
  rounds : RoundsTo (onMag rm g) (m * 2 ^ (e - q)) n
  top : n ≤ 2 ^ (f.fb + 1)
  range : n = 0 ∨ (Nat.log2 n : Int) + q ≤ f.bias

section
variable {f : FF} {rm : Rm} {g : Bool} {m n : Nat} {e q : Int}

/-- Only a number at the last place of the subnormal ones has fewer than `fb + 1` bits. -/
theorem FF.Result.small (h : f.Result rm g m e n q) (hn : n < 2 ^ f.fb) : q = f.emin - f.fb := by
  rcases h.fine with h1 | h1
  · exact h1
  · have := h.rounds.ge_of_le (k := 2 ^ f.fb) (by exact_mod_cast h1)
    omega

/-- The code of a value with a leading bit, from its fields. -/
theorem FF.finCode_normal (hn : 2 ^ f.fb ≤ n) (hlt : n < 2 ^ (f.fb + 1)) (hq : f.emin - f.fb ≤ q) :
    f.finCode g n q = f.code g (f.fb + q + f.bias).toNat (n - 2 ^ f.fb) := by
  have hpow := Nat.two_pow_pos f.fb
  have hlog := log2_eq_of_range hn hlt
  unfold FF.finCode
  rw [if_neg (by omega : n ≠ 0)]
  dsimp only
  rw [hlog, if_neg (by omega : ¬ ((f.fb : Int) + q < f.emin)), Nat.mul_div_cancel _ hpow]
  rfl

theorem FF.finCode_carry (hq : f.emin - f.fb - 1 ≤ q) : f.finCode g (2 ^ (f.fb + 1)) q = f.code g (f.fb + 1 + q + f.bias).toNat 0 := by
  have hpow := Nat.two_pow_pos f.fb
  have hpow' := Nat.two_pow_pos (f.fb + 1)
  unfold FF.finCode
  rw [if_neg hpow'.ne']
  dsimp only
  rw [Nat.log2_two_pow, if_neg (by push_cast; omega : ¬ (((f.fb + 1 : Nat) : Int) + q < f.emin)), Nat.mul_div_cancel_left _ hpow', Nat.sub_self]
  push_cast
  rfl

theorem FF.finCode_small (hn : n < 2 ^ f.fb) : f.finCode g n (f.emin - f.fb) = f.code g 0 n := by
  unfold FF.finCode
  by_cases h0 : n = 0
  · subst h0
    simp [FF.code]
  · have hlog := log2_lt_of_lt h0 hn
    rw [if_neg h0]
    dsimp only
    rw [if_pos (by omega), if_pos le_rfl]
    simp [FF.code]

/-- The code of a result holds its value, and is even with its mantissa. -/
theorem FF.Result.code (h : f.Result rm g m e n q) (hf : f.Ieee) : ∃ x k, x ≤ 2 * f.bias ∧ k < 2 ^ f.fb ∧ f.finCode g n q = f.code g x k ∧
    (f.read (f.finCode g n q)).val = signQ g * (n * 2 ^ q) ∧ (n % 2 = 0 → k % 2 = 0) := by
  have hpow := Nat.two_pow_pos f.fb
  have hfields := hf.fields
  have hlow := h.low
  have hemin : f.emin = 1 - f.bias := rfl
  have hevenp : 2 ^ f.fb % 2 = 0 := by
    obtain ⟨k, hk⟩ := Nat.exists_eq_add_of_le hf.mantissa
    rw [hk, Nat.pow_add]
    omega
  have hbias := hf.bias
  rcases Nat.lt_or_ge n (2 ^ f.fb) with hn | hn
  · rw [h.small hn, FF.finCode_small hn, FF.read_code g (by omega) hn hf (by omega), if_pos rfl]
    exact ⟨0, n, by omega, hn, rfl, Num.val_eq_signQ _ _ _, id⟩
  rcases Nat.lt_or_eq_of_le h.top with htop | rfl
  · have hex : (f.fb : Int) + q ≤ f.bias := by
      have := h.range.resolve_left (by omega)
      rwa [log2_eq_of_range hn htop] at this
    have hk : n - 2 ^ f.fb < 2 ^ f.fb := by rw [Nat.pow_succ] at htop; omega
    have hx : (f.fb + q + f.bias).toNat ≤ 2 * f.bias := by omega
    rw [FF.finCode_normal hn htop h.low, FF.read_code g (by omega) hk hf hx, if_neg (by omega)]
    refine ⟨_, _, hx, hk, rfl, ?_, fun h2 => by omega⟩
    rw [Num.val_eq_signQ, Nat.add_sub_cancel' hn, show (((f.fb + q + f.bias).toNat : Int) - f.bias - f.fb) = q by omega]
  · have hex : ((f.fb + 1 : Nat) : Int) + q ≤ f.bias := by
      have := h.range.resolve_left (Nat.two_pow_pos _).ne'
      rwa [Nat.log2_two_pow] at this
    have hx : (f.fb + 1 + q + f.bias).toNat ≤ 2 * f.bias := by omega
    rw [FF.finCode_carry (by omega), FF.read_code g (by omega) hpow hf hx, if_neg (by omega)]
    refine ⟨_, _, hx, hpow, rfl, ?_, fun _ => rfl⟩
    rw [Num.val_eq_signQ, Nat.add_zero, show (((f.fb + 1 + q + f.bias).toNat : Int) - f.bias - f.fb) = 1 + q by omega]
    push_cast
    rw [two_pow_mul_zpow, two_pow_mul_zpow]
    push_cast
    ring_nf

/-- In units of a result's last place, the values of the format are on its grid. -/
theorem FF.Result.onGrid (h : f.Result rm g m e n q) (hf : f.Ieee) {c : Nat} (hc : (f.read c).IsFinite) :
    OnGrid (m * 2 ^ (e - q)) ((f.read c).val / 2 ^ q) := by
  obtain ⟨s, k, x, hr, hk, hx, -⟩ := FF.read_finite hf hc
  have hpos : (0 : ℚ) < 2 ^ q := by positivity
  rw [hr]
  rcases lt_or_ge x q with hlt | hge
  · right
    refine ⟨2 ^ f.fb, ?_, by exact_mod_cast h.fine.resolve_left (by omega)⟩
    rw [abs_div, Num.abs_val_fin, abs_of_pos hpos, div_lt_iff₀ hpos]
    have hk : (k : ℚ) < 2 ^ (f.fb + 1) := by exact_mod_cast hk
    calc (k : ℚ) * 2 ^ x < 2 ^ (f.fb + 1) * 2 ^ x := mul_lt_mul_of_pos_right hk (by positivity)
      _ = 2 ^ (((f.fb + 1 : Nat) : Int) + x) := two_pow_mul_zpow _ _
      _ ≤ 2 ^ ((f.fb : Int) + q) := two_zpow_le (by push_cast; omega)
      _ = ((2 ^ f.fb : Nat) : ℚ) * 2 ^ q := by push_cast; rw [two_pow_mul_zpow]
  · left
    refine ⟨sMant s k * 2 ^ (x - q).toNat, ?_⟩
    rw [← sMant_scaled s k hge, mul_div_cancel_right₀ _ hpos.ne']

end

/-! ### Overflow, underflow and the flags -/

section
variable {f : FF} {rm : Rm} {g : Bool} {m : Nat} {e : Int}

theorem FF.round_past_iff (hm : m ≠ 0) (hf : f.Ieee) :
    (f.round rm g m e false).past = true ↔ (f.bias : Int) < Nat.log2 (f.wide rm g m e) + f.place m e := by
  have hbias := hf.bias
  have hemin : f.emin = 1 - f.bias := rfl
  rw [FF.round_eq hm hf]
  split
  · exact iff_of_false (by simp) (by omega)
  · exact decide_eq_true_iff

/-- A value that does not overflow has a result, whose code and flags are those of `FF.fin`. -/
theorem FF.fin_result (hm : m ≠ 0) (hf : f.Ieee) (hp : (f.round rm g m e false).past = false) : ∃ (n : Nat) (q : Int), f.Result rm g m e n q ∧
    ∃ inexact, (inexact = false ↔ (n : ℚ) = m * 2 ^ (e - q)) ∧ f.fin rm g m e false =
      (f.finCode g n q, inexactFlags inexact (decide ((Nat.log2 (f.wide rm g m e) : Int) + f.place m e < f.emin))) := by
  have hnot : ¬ ((f.bias : Int) < Nat.log2 (f.wide rm g m e) + f.place m e) := by
    rw [← FF.round_past_iff hm hf, hp]
    decide
  have hemin : f.emin = 1 - f.bias := rfl
  have hbias := hf.bias
  obtain ⟨hlow, hhigh⟩ := FF.place_range (f := f) (e := e) hm
  have hround := FF.round_eq (f := f) (rm := rm) (g := g) (e := e) hm hf
  have hfin : f.fin rm g m e false = (f.finCode g (f.round rm g m e false).n (f.round rm g m e false).q,
      inexactFlags (f.round rm g m e false).inexact (f.round rm g m e false).tiny) := by
    simp only [FF.fin, hp, Bool.false_eq_true, if_false]
  rw [hfin, hround]
  have hlog := FF.log2_wide (f := f) (rm := rm) (g := g) (e := e) hm
  by_cases htiny : (Nat.log2 (f.wide rm g m e) : Int) + f.place m e < f.emin
  · rw [if_pos htiny, decide_eq_true htiny]
    obtain ⟨hrounds, hexact⟩ := roundAt_spec rm g m e (f.emin - f.fb)
    have hsmall := hrounds.le_of_le (k := 2 ^ f.fb) (by exact_mod_cast (FF.lt_of_place_lt hm (by omega)).le)
    refine ⟨_, _, ⟨le_rfl, .inl rfl, hrounds, ?_, ?_⟩, _, hexact, rfl⟩
    · exact hsmall.trans (Nat.pow_le_pow_right (by decide) (Nat.le_succ _))
    · refine or_iff_not_imp_left.mpr fun h0 => ?_
      have := log2_lt_of_lt h0 (hsmall.trans_lt (Nat.pow_lt_pow_right (by decide) (Nat.lt_succ_self f.fb)))
      omega
  · rw [if_neg htiny, decide_eq_false htiny]
    obtain ⟨hrounds, hexact⟩ := roundAt_spec rm g m e (f.place m e)
    rcases lt_or_ge (f.place m e) (f.emin - f.fb) with hplace | hplace
    · obtain ⟨hcarry, hlog⟩ := hlog.resolve_left (by omega)
      have hstep : f.emin - f.fb = f.place m e + 1 := by omega
      have hhalf : (m : ℚ) * 2 ^ (e - (f.emin - f.fb)) = m * 2 ^ (e - f.place m e) / 2 := by
        rw [hstep, show e - (f.place m e + 1) = e - f.place m e + -1 by ring, zpow_add₀ (by norm_num), zpow_neg_one]
        ring
      have hwide : (roundAt rm g m e false (f.place m e)).1 = 2 * 2 ^ f.fb := hcarry.trans (by rw [Nat.pow_succ, Nat.mul_comm])
      rw [hwide] at hrounds hexact
      refine ⟨2 ^ f.fb, f.emin - f.fb, ⟨le_rfl, .inl rfl, ?_, Nat.pow_le_pow_right (by decide) (Nat.le_succ _), ?_⟩, _, hexact.trans ?_, ?_⟩
      · rw [hhalf]
        exact hrounds.half
      · rw [Nat.log2_two_pow]
        omega
      · rw [hhalf, Nat.cast_mul, eq_div_iff (by norm_num), mul_comm]
        rfl
      · dsimp only
        rw [hcarry, FF.finCode_carry (by omega), FF.finCode_normal le_rfl (Nat.pow_lt_pow_right (by decide) (Nat.lt_succ_self _)) le_rfl,
          Nat.sub_self, hstep]
        congr 4
        ring
    · exact ⟨f.wide rm g m e, f.place m e, ⟨hplace, .inr hlow, hrounds, (FF.wide_range hm).2, .inr (by omega)⟩, _, hexact, rfl⟩

/-- The smallest normal magnitude, and the distance to the next magnitude below it with unbounded exponents (R64). -/
theorem FF.tiny_iff (hm : m ≠ 0) : (Nat.log2 (f.wide rm g m e) : Int) + f.place m e < f.emin ↔ (m : ℚ) * 2 ^ e < 2 ^ f.emin ∧ (match onMag rm g with
    | .rne => (m : ℚ) * 2 ^ e < 2 ^ f.emin - 2 ^ (f.emin - f.fb - 1) / 2
    | .rup => (m : ℚ) * 2 ^ e ≤ 2 ^ f.emin - 2 ^ (f.emin - f.fb - 1)
    | _ => True) := by
  obtain ⟨hlow, hhigh⟩ := FF.place_range (f := f) (e := e) hm
  have hlog := FF.log2_wide (f := f) (rm := rm) (g := g) (e := e) hm
  have hgap : (2 : ℚ) ^ f.emin = 2 ^ (f.fb + 1) * 2 ^ (f.emin - f.fb - 1) := by
    rw [two_pow_mul_zpow]
    congr 1
    push_cast
    ring
  have hpos : (0 : ℚ) < 2 ^ (f.emin - f.fb - 1) := by positivity
  rcases lt_trichotomy (f.place m e) (f.emin - f.fb - 1) with hplace | hplace | hplace
  · have hlt : (m : ℚ) * 2 ^ e < 2 ^ f.fb * 2 ^ (f.emin - f.fb - 1) := by
      rw [← scaled_mul m e (f.emin - f.fb - 1)]
      exact mul_lt_mul_of_pos_right (FF.lt_of_place_lt hm hplace) hpos
    have hone : (1 : ℚ) ≤ 2 ^ f.fb := one_le_pow₀ (by norm_num)
    have hle : (2 : ℚ) ^ f.fb * 2 ^ (f.emin - f.fb - 1) ≤ 2 ^ f.emin - 2 ^ (f.emin - f.fb - 1) := by
      rw [hgap, pow_succ]
      nlinarith
    refine iff_of_true (by omega) ⟨by linarith, ?_⟩
    rcases onMag_cases rm g with h | h | h <;> rw [h] <;> dsimp only <;> linarith
  · have hbelow : (Nat.log2 (f.wide rm g m e) : Int) + f.place m e < f.emin ↔ f.wide rm g m e < 2 ^ (f.fb + 1) := by
      rcases hlog with ⟨hlt, hlog⟩ | ⟨heq, hlog⟩
      · exact iff_of_true (by omega) hlt
      · exact iff_of_false (by omega) (by omega)
    have heven : 2 ^ (f.fb + 1) % 2 = 0 := by rw [Nat.pow_succ]; omega
    rw [hbelow, RoundsTo.lt_even_iff heven (by exact_mod_cast hhigh) FF.wide_rounds, hgap, ← scaled_mul m e (f.place m e), ← hplace]
    have hpos : (0 : ℚ) < 2 ^ f.place m e := by rwa [hplace]
    generalize (m : ℚ) * 2 ^ (e - f.place m e) = u at *
    push_cast
    rw [and_iff_right (mul_lt_mul_of_pos_right hhigh hpos)]
    rcases onMag_cases rm g with h | h | h <;> rw [h] <;> dsimp only
    · rw [show (2 : ℚ) ^ (f.fb + 1) * 2 ^ f.place m e - 2 ^ f.place m e / 2 = (2 ^ (f.fb + 1) - 1 / 2) * 2 ^ f.place m e by ring,
        mul_lt_mul_iff_left₀ hpos]
    · rw [show (2 : ℚ) ^ (f.fb + 1) * 2 ^ f.place m e - 2 ^ f.place m e = (2 ^ (f.fb + 1) - 1) * 2 ^ f.place m e by ring,
        mul_le_mul_iff_left₀ hpos]
  · have hge : (2 : ℚ) ^ f.emin ≤ m * 2 ^ e := by
      rw [← scaled_mul m e (f.place m e)]
      calc (2 : ℚ) ^ f.emin ≤ 2 ^ ((f.fb : Int) + f.place m e) := two_zpow_le (by omega)
        _ = 2 ^ f.fb * 2 ^ f.place m e := (two_pow_mul_zpow _ _).symm
        _ ≤ _ := mul_le_mul_of_nonneg_right hlow (by positivity)
    exact iff_of_false (by omega) fun h => absurd h.1 (not_lt.mpr hge)

/-- The largest finite magnitude (R52). -/
def FF.largest (f : FF) : ℚ := ((2 ^ (f.fb + 1) - 1 : Nat) : ℚ) * 2 ^ ((f.bias : Int) - f.fb)

theorem FF.abs_read_le_largest (hf : f.Ieee) {c : Nat} (hc : (f.read c).IsFinite) : |(f.read c).val| ≤ f.largest := by
  obtain ⟨s, k, x, hr, hk, -, hx⟩ := FF.read_finite hf hc
  rw [hr, Num.abs_val_fin]
  have hk : (k : ℚ) ≤ (2 ^ (f.fb + 1) - 1 : Nat) := by exact_mod_cast Nat.le_sub_one_of_lt hk
  exact mul_le_mul hk (two_zpow_le hx) (by positivity) (by positivity)

/-- A value that overflows is larger than every finite one. -/
theorem FF.largest_lt (hm : m ≠ 0) (hf : f.Ieee) (hp : (f.round rm g m e false).past = true) : f.largest < m * 2 ^ e := by
  rw [FF.round_past_iff hm hf] at hp
  obtain ⟨hlow, hhigh⟩ := FF.place_range (f := f) (e := e) hm
  have hpos : (0 : ℚ) < 2 ^ ((f.bias : Int) - f.fb) := by positivity
  have hcast : ((2 ^ (f.fb + 1) - 1 : Nat) : ℚ) = 2 ^ (f.fb + 1) - 1 := by
    rw [Nat.cast_sub (Nat.one_le_two_pow)]
    push_cast
    ring
  rw [FF.largest, hcast]
  rcases lt_or_ge (f.place m e) (f.bias - f.fb + 1) with hplace | hplace
  · obtain ⟨hcarry, hlog⟩ := (FF.log2_wide (f := f) (rm := rm) (g := g) (e := e) hm).resolve_left (by omega)
    have heq : f.place m e = f.bias - f.fb := by omega
    have hlt := (FF.wide_rounds (f := f) (rm := rm) (g := g) (m := m) (e := e)).lt_add_one
    rw [hcarry, heq] at hlt
    push_cast at hlt
    rw [← scaled_mul m e (f.bias - f.fb)]
    exact mul_lt_mul_of_pos_right (by linarith) hpos
  · rw [← scaled_mul m e (f.place m e)]
    calc ((2 : ℚ) ^ (f.fb + 1) - 1) * 2 ^ ((f.bias : Int) - f.fb) < 2 ^ (f.fb + 1) * 2 ^ ((f.bias : Int) - f.fb) :=
          mul_lt_mul_of_pos_right (by linarith) hpos
      _ = 2 ^ (((f.fb + 1 : Nat) : Int) + (f.bias - f.fb)) := two_pow_mul_zpow _ _
      _ ≤ 2 ^ ((f.fb : Int) + f.place m e) := two_zpow_le (by push_cast; omega)
      _ = 2 ^ f.fb * 2 ^ f.place m e := (two_pow_mul_zpow _ _).symm
      _ ≤ _ := mul_le_mul_of_nonneg_right hlow (by positivity)

theorem FF.read_maxCode (hf : f.Ieee) (g : Bool) : (f.read (f.maxCode g)).IsFinite ∧ (f.read (f.maxCode g)).sign = g ∧
    |(f.read (f.maxCode g)).val| = f.largest := by
  have hpow := Nat.two_pow_pos f.fb
  have hfields := hf.fields
  have hbias := hf.bias
  rw [FF.maxCode_eq hf, FF.read_code g (by omega) (by omega) hf le_rfl, if_neg (by omega)]
  refine ⟨⟨rfl, rfl⟩, rfl, ?_⟩
  rw [Num.abs_val_fin, FF.largest, show 2 ^ f.fb + (2 ^ f.fb - 1) = 2 ^ (f.fb + 1) - 1 by rw [Nat.pow_succ]; omega,
    show (((2 * f.bias : Nat) : Int) - f.bias - f.fb) = f.bias - f.fb by push_cast; ring]

end

theorem inexactFlags_NX (a b : Bool) : inexactFlags a b &&& fNX = 0 ↔ a = false := by
  cases a <;> cases b <;> decide

theorem inexactFlags_UF (a b : Bool) : inexactFlags a b &&& fUF ≠ 0 ↔ a = true ∧ b = true := by
  cases a <;> cases b <;> decide

/-! ### Every rounding of FP32 and FP64 -/

/-- IEEE overflow gives the infinity of the value's sign where the direction leads outwards, the largest finite value otherwise. -/
theorem FF.overCode_eq (f : FF) (rm : Rm) (g : Bool) : f.overCode rm g = (match onMag rm g with | .rtz => f.maxCode g | _ => f.infCode g) := by
  cases rm <;> cases g <;> rfl

section
variable {f : FF} (hf : f.Ieee)
include hf

theorem FF.read_code_finite (g : Bool) {x q : Nat} (hx : x ≤ 2 * f.bias) (hq : q < 2 ^ f.fb) :
    (f.read (f.code g x q)).IsFinite ∧ (f.read (f.code g x q)).sign = g := by
  have hfields := hf.fields
  rw [FF.read_code g (by omega) hq hf hx]
  split <;> exact ⟨⟨rfl, rfl⟩, rfl⟩

theorem FF.code_even (g : Bool) (x : Nat) {q : Nat} (hq : q % 2 = 0) : f.code g x q % 2 = 0 := by
  obtain ⟨k, hk⟩ := Nat.exists_eq_add_of_le' hf.mantissa
  have hpow : 2 ^ f.fb = 2 * 2 ^ k := by rw [hk, Nat.pow_succ, Nat.mul_comm]
  have hsign : f.signBit g % 2 = 0 := by
    unfold FF.signBit
    split
    · rw [Nat.pow_add, hpow, Nat.mul_left_comm]
      exact Nat.mul_mod_right 2 _
    · rfl
  have hexp : x * 2 ^ f.fb % 2 = 0 := by
    rw [hpow, Nat.mul_left_comm]
    exact Nat.mul_mod_right 2 _
  unfold FF.code
  omega

/-- A rounding gives a code of the format, of the value's sign. -/
theorem FF.fin_code {rm : Rm} {g : Bool} {m : Nat} {e : Int} (hm : m ≠ 0) :
    (f.fin rm g m e false).1 < 2 * (2 ^ f.eb * 2 ^ f.fb) ∧ (f.read (f.fin rm g m e false).1).sign = g := by
  have hfields := hf.fields
  have hpow := Nat.two_pow_pos f.fb
  cases hp : (f.round rm g m e false).past
  · obtain ⟨n, q, hres, i, -, hfin⟩ := FF.fin_result hm hf hp
    obtain ⟨x, k, hx, hk, hcode, -, -⟩ := hres.code hf
    rw [hfin, hcode]
    exact ⟨FF.code_lt g (by omega) hk, (FF.read_code_finite hf g hx hk).2⟩
  · have hover : (f.fin rm g m e false).1 = f.overCode rm g := by simp only [FF.fin, hp, if_true]
    have hinf : f.infCode g < 2 * (2 ^ f.eb * 2 ^ f.fb) := FF.code_lt (q := 0) g (x := 2 ^ f.eb - 1) (by omega) hpow
    have hmax : f.maxCode g < 2 * (2 ^ f.eb * 2 ^ f.fb) := by
      rw [FF.maxCode_eq hf]
      exact FF.code_lt g (by omega) (by omega)
    rw [hover, FF.overCode_eq]
    split
    · exact ⟨hmax, (FF.read_maxCode hf g).2.1⟩
    · rw [FF.read_infCode hf]
      exact ⟨hinf, rfl⟩

end

/-- The smallest normal magnitude of FP32 and FP64, and the distance below it that R64 speaks of. -/
theorem sfmt_least (f : SFmt) : (match f with | .f32 => (2 : ℚ) ^ (-126 : Int) | .f64 => 2 ^ (-1022 : Int)) = 2 ^ f.ff.emin ∧
    (match f with
      | .f32 => (match f with | .f32 => (2 : ℚ) ^ (-126 : Int) | .f64 => 2 ^ (-1022 : Int)) / 2 ^ 24
      | .f64 => (match f with | .f32 => (2 : ℚ) ^ (-126 : Int) | .f64 => 2 ^ (-1022 : Int)) / 2 ^ 53) = 2 ^ (f.ff.emin - f.ff.fb - 1) := by
  cases f
  · refine ⟨rfl, ?_⟩
    show (2 : ℚ) ^ (-126 : Int) / 2 ^ 24 = _
    rw [← zpow_natCast, ← zpow_sub₀ (by norm_num)]
    rfl
  · refine ⟨rfl, ?_⟩
    show (2 : ℚ) ^ (-1022 : Int) / 2 ^ 53 = _
    rw [← zpow_natCast, ← zpow_sub₀ (by norm_num)]
    rfl

/-- Settles O7: the result of a rounding is the best number of its last place's grid, on which every value of the format lies. -/
theorem scalarRoundingIsCorrect : Obligations.ScalarRoundingIsCorrect := by
  unfold Obligations.ScalarRoundingIsCorrect
  rintro f rm g m e hm x y c fl hfin rfl rfl
  have hf := sfmt_ieee f
  obtain ⟨hleast, hgap⟩ := sfmt_least f
  obtain ⟨hlt, hsign⟩ := FF.fin_code hf (rm := rm) (g := g) (e := e) hm
  rw [hfin] at hlt hsign
  intro least gap tiny
  have htiny : tiny ↔ (Nat.log2 (f.ff.wide rm g m e) : Int) + f.ff.place m e < f.ff.emin := by
    rw [FF.tiny_iff hm]
    show |_| < least ∧ _ ↔ _
    rw [show least = _ from hleast, show gap = _ from hgap, Num.abs_val_fin]
    cases rm <;> cases g <;> simp [onMag]
  refine ⟨by rwa [two_pow_fBits], hsign, fun hp => ?rounded, fun hp => ?overflow⟩
  case rounded =>
    obtain ⟨n, q, hres, inexact, hexact, hcoded⟩ := FF.fin_result hm hf hp
    obtain ⟨z, k, hz, hk, hcode, hval, heven⟩ := hres.code hf
    obtain ⟨rfl, rfl⟩ := Prod.mk.inj (hfin.symm.trans hcoded)
    have hb : (0 : ℚ) < 2 ^ q := by positivity
    have hx : (Num.fin g m e).val = signQ g * (m * 2 ^ (e - q) * 2 ^ q) := by rw [Num.val_eq_signQ, scaled_mul]
    have hsame : (f.ff.read (f.ff.finCode g n q)).val = (Num.fin g m e).val ↔ inexact = false := by
      have hg : signQ g ≠ 0 := by cases g <;> simp [signQ]
      rw [hval, hx, mul_right_inj' hg, mul_left_inj' hb.ne', hexact]
    refine ⟨?_, ?_, ?_, fun c hc hcf => ?_⟩
    · rw [hcode]
      exact (FF.read_code_finite hf g hz hk).1
    · rw [inexactFlags_NX, hsame]
    · rw [inexactFlags_UF, Ne, hsame, Bool.not_eq_false, htiny, decide_eq_true_iff]
    · have hw : (f.ff.read c).val = signQ g * (signQ g * ((f.ff.read c).val / 2 ^ q) * 2 ^ q) := by
        have hgg : signQ g * signQ g = 1 := by cases g <;> simp [signQ]
        rw [mul_assoc (signQ g), ← mul_assoc, hgg, one_mul, div_mul_cancel₀ _ hb.ne']
      have hgrid : OnGrid (m * 2 ^ (e - q)) (signQ g * ((f.ff.read c).val / 2 ^ q)) := by
        have h := hres.onGrid hf hcf
        cases g
        · simpa [signQ] using h
        · simpa [signQ] using h.neg
      have hbest := RoundsTo.best rm g hb (by positivity) hres.rounds hgrid
      rw [← hw, ← hx, ← hval] at hbest
      cases rm with
      | rne =>
        refine ⟨hbest.1, fun heq hne => ?_⟩
        rw [hcode]
        exact FF.code_even hf g z (heven (hbest.2 heq hne))
      | rtz | rup | rdn => exact hbest
  case overflow =>
    have hover : f.ff.fin rm g m e false = (f.ff.overCode rm g, fOF ||| fNX) := by simp only [FF.fin, hp, if_true]
    obtain ⟨rfl, rfl⟩ := Prod.mk.inj (hfin.symm.trans hover)
    refine ⟨rfl, fun k hk hkf => ?_, fun hout => ?_, fun hin => ?_⟩
    · rw [Num.abs_val_fin]
      exact (FF.abs_read_le_largest hf hkf).trans_lt (FF.largest_lt hm hf hp)
    · have hcode : f.ff.overCode rm g = f.ff.infCode g := by
        rcases hout with rfl | ⟨rfl, rfl⟩ | ⟨rfl, rfl⟩ <;> rfl
      rw [hcode, FF.read_infCode hf]
    · have hcode : f.ff.overCode rm g = f.ff.maxCode g := by
        rcases hin with rfl | ⟨rfl, rfl⟩ | ⟨rfl, rfl⟩ <;> rfl
      obtain ⟨hfinite, -, hval⟩ := FF.read_maxCode hf g
      rw [hcode, hval]
      exact ⟨hfinite, fun k hk hkf => FF.abs_read_le_largest hf hkf⟩

end Sys2Proof.Machine

namespace Sys2Proof.Machine

/-! ## Scalar float arithmetic (O6) -/

/-- A float form writes Sd and ORs its flags into XFLAGS, and changes nothing else. -/
theorem State.givesSF_of_wf {s : State} {i : Instr} {f : SFmt} {d : SReg} {r : Coded} (h : exec i s = s.wf f d r) :
    s.GivesSF i d (fWord f r.1) r.2 := by
  obtain ⟨hsame, hother, hframe⟩ := s.wroteS_ws d (fWord f r.1)
  exact ⟨_, h, hsame, hother, congrArg (fun t => State.flag t r.2) hframe⟩

section
variable {s1 s2 : Bool} {m1 m2 : Nat} {e1 e2 : Int}

/-- `addFin` is exact, and an exact zero is −0 where both terms are −0 (R73). -/
theorem addFin_spec : ∃ (h : Bool) (m : Nat) (e : Int), addFin s1 m1 e1 s2 m2 e2 = .fin h m e ∧
    (Num.fin h m e).val = (Num.fin s1 m1 e1).val + (Num.fin s2 m2 e2).val ∧ ((Num.fin h m e).val = 0 → h = (s1 && s2)) := by
  have hzero {g : Bool} {m : Nat} {e : Int} (hv : (Num.fin g m e).val = 0) : m = 0 := by
    have h := Num.abs_val_fin g m e
    rw [hv, abs_zero, eq_comm, mul_eq_zero] at h
    exact_mod_cast h.resolve_right (by positivity)
  unfold addFin
  by_cases h1 : m1 = 0
  · by_cases h2 : m2 = 0
    · rw [if_pos ⟨h1, h2⟩]
      exact ⟨_, _, _, rfl, by simp [Num.val, h1, h2], fun _ => rfl⟩
    · rw [if_neg fun h => h2 h.2, if_pos h1]
      exact ⟨_, _, _, rfl, by simp [Num.val, h1], fun hv => absurd (hzero hv) h2⟩
  · rw [if_neg fun h => h1 h.1, if_neg h1]
    by_cases h2 : m2 = 0
    · rw [if_pos h2]
      exact ⟨_, _, _, rfl, by simp [Num.val, h2], fun hv => absurd (hzero hv) h1⟩
    · rw [if_neg h2]
      have hx := sMant_scaled s1 m1 (min_le_left e1 e2)
      have hy := sMant_scaled s2 m2 (min_le_right e1 e2)
      have hval {v : Int} {e : Int} : (Num.fin (decide (v < 0)) v.natAbs e).val = v * 2 ^ e := by
        rw [Num.val_fin]
        congr 2
        unfold sMant
        by_cases hv : v < 0
        · simp only [hv, decide_true, if_true]
          omega
        · simp only [hv, decide_false, Bool.false_eq_true, if_false]
          omega
      refine ⟨_, _, _, rfl, ?_, fun hv => ?_⟩
      · rw [hval, Int.cast_add, add_mul, hx, hy]
      · have h0 := hzero hv
        have hsum := hv
        rw [hval, Int.cast_add, add_mul, hx, hy] at hsum
        have hpos1 : (0 : ℚ) < m1 * 2 ^ e1 := by have : 0 < m1 := Nat.pos_of_ne_zero h1
                                                 positivity
        have hpos2 : (0 : ℚ) < m2 * 2 ^ e2 := by have : 0 < m2 := Nat.pos_of_ne_zero h2
                                                 positivity
        have hboth : (s1 && s2) = false := by
          by_contra hb
          obtain ⟨rfl, rfl⟩ : s1 = true ∧ s2 = true := by simpa using hb
          simp only [Num.val, if_true] at hsum
          linarith
        rw [hboth, decide_eq_false_iff_not]
        omega

end

/-- The value rounded is exact, and where it is a zero its sign is `g`. -/
def FF.RoundsExactly (f : FF) (rm : Rm) (c : Coded) (v : ℚ) (g : Bool) : Prop :=
  ∃ (h : Bool) (m : Nat) (e : Int), (Num.fin h m e).val = v ∧ (v = 0 → h = g) ∧ c = f.fin rm h m e false

/-- A finite number, by its parts. -/
theorem Num.IsFinite.eq_fin {x : Num} (h : x.IsFinite) : ∃ g m e, x = .fin g m e := by
  obtain ⟨hnan, hinf⟩ := h
  cases x with
  | nan => cases hnan
  | inf => cases hinf
  | fin g m e => exact ⟨g, m, e, rfl⟩

section
variable (f : FF) (rm : Rm)

theorem FF.put_addFin (s1 s2 : Bool) (m1 m2 : Nat) (e1 e2 : Int) :
    f.RoundsExactly rm (f.put rm (addFin s1 m1 e1 s2 m2 e2)) ((Num.fin s1 m1 e1).val + (Num.fin s2 m2 e2).val) (s1 && s2) := by
  obtain ⟨h, m, e, heq, hval, hsign⟩ := addFin_spec (s1 := s1) (m1 := m1) (e1 := e1) (s2 := s2) (m2 := m2) (e2 := e2)
  exact ⟨h, m, e, hval, hval ▸ hsign, by rw [heq]; rfl⟩

theorem Num.val_neg (x : Num) : x.neg.val = -x.val := by
  cases x with
  | nan | inf => simp [Num.neg, Num.val]
  | fin g m e => cases g <;> simp [Num.neg, Num.val]

theorem val_mulFin (s1 s2 : Bool) (m1 m2 : Nat) (e1 e2 : Int) :
    (Num.fin (s1 != s2) (m1 * m2) (e1 + e2)).val = (Num.fin s1 m1 e1).val * (Num.fin s2 m2 e2).val := by
  have hsign : signQ (s1 != s2) = signQ s1 * signQ s2 := by cases s1 <;> cases s2 <;> simp [signQ]
  rw [Num.val_eq_signQ, Num.val_eq_signQ, Num.val_eq_signQ, hsign, zpow_add₀ (by norm_num), Nat.cast_mul]
  ring

variable {x y z : Num} (hx : x.IsFinite) (hy : y.IsFinite)
include hx hy

theorem FF.add_exact : f.RoundsExactly rm (f.add rm x y) (x.val + y.val) (x.sign && y.sign) := by
  obtain ⟨s1, m1, e1, rfl⟩ := hx.eq_fin
  obtain ⟨s2, m2, e2, rfl⟩ := hy.eq_fin
  have hadd : f.add rm (.fin s1 m1 e1) (.fin s2 m2 e2) = f.put rm (addFin s1 m1 e1 s2 m2 e2) := Prod.ext rfl (BitVec.zero_or)
  rw [hadd]
  exact f.put_addFin rm s1 s2 m1 m2 e1 e2

theorem FF.sub_exact : f.RoundsExactly rm (f.sub rm x y) (x.val - y.val) (x.sign && !y.sign) := by
  obtain ⟨s1, m1, e1, rfl⟩ := hx.eq_fin
  obtain ⟨s2, m2, e2, rfl⟩ := hy.eq_fin
  have hsub : f.sub rm (.fin s1 m1 e1) (.fin s2 m2 e2) = f.put rm (addFin s1 m1 e1 (!s2) m2 e2) := Prod.ext rfl (BitVec.zero_or)
  rw [hsub, sub_eq_add_neg, ← Num.val_neg]
  exact f.put_addFin rm s1 (!s2) m1 m2 e1 e2

theorem FF.mul_exact : f.RoundsExactly rm (f.mul rm x y) (x.val * y.val) (xor x.sign y.sign) := by
  obtain ⟨s1, m1, e1, rfl⟩ := hx.eq_fin
  obtain ⟨s2, m2, e2, rfl⟩ := hy.eq_fin
  exact ⟨s1 != s2, m1 * m2, e1 + e2, val_mulFin _ _ _ _ _ _, fun _ => by rw [Bool.bne_eq_xor]; rfl, Prod.ext rfl BitVec.zero_or⟩

theorem FF.fma_exact (hz : z.IsFinite) :
    f.RoundsExactly rm (f.fma rm x y z [x, y, z]) (x.val * y.val + z.val) ((xor x.sign y.sign) && z.sign) := by
  obtain ⟨s1, m1, e1, rfl⟩ := hx.eq_fin
  obtain ⟨s2, m2, e2, rfl⟩ := hy.eq_fin
  obtain ⟨s3, m3, e3, rfl⟩ := hz.eq_fin
  have hfma : f.fma rm (.fin s1 m1 e1) (.fin s2 m2 e2) (.fin s3 m3 e3) [.fin s1 m1 e1, .fin s2 m2 e2, .fin s3 m3 e3] =
      f.put rm (addFin (s1 != s2) (m1 * m2) (e1 + e2) s3 m3 e3) := Prod.ext rfl BitVec.zero_or
  rw [hfma, ← val_mulFin, ← Bool.bne_eq_xor]
  exact f.put_addFin rm (s1 != s2) s3 (m1 * m2) m3 (e1 + e2) e3

end

/-! ### Infinities and NaNs -/

section
variable (f : FF) (rm : Rm) (g h : Bool) (p : Nat) (q : Bool) {x : Num}

theorem Num.isSig_of_not_nan (hx : x.isNan = false) : x.isSig = false := by
  cases x with
  | nan => cases hx
  | inf | fin => rfl

theorem Num.val_eq_zero_iff (s : Bool) (m : Nat) (e : Int) : (Num.fin s m e).val = 0 ↔ m = 0 := by
  rw [← abs_eq_zero, Num.abs_val_fin, mul_eq_zero, or_iff_left (by positivity), Nat.cast_eq_zero]

theorem FF.add_inf_fin (hx : x.IsFinite) : f.add rm (.inf g) x = (f.infCode g, 0) ∧ f.add rm x (.inf g) = (f.infCode g, 0) := by
  obtain ⟨s, m, e, rfl⟩ := hx.eq_fin
  exact ⟨Prod.ext rfl BitVec.zero_or, Prod.ext rfl BitVec.zero_or⟩

theorem FF.add_inf_inf : f.add rm (.inf g) (.inf h) = (if g = h then (f.infCode g, 0) else (f.canon, fNV)) := by
  by_cases hgh : g = h
  · rw [if_pos hgh, FF.add, show addNum (.inf g) (.inf h) = (.inf g, 0) from if_pos hgh]
    exact Prod.ext rfl BitVec.zero_or
  · rw [if_neg hgh, FF.add, show addNum (.inf g) (.inf h) = (Num.canon, fNV) from if_neg hgh]
    exact Prod.ext rfl BitVec.or_zero

theorem FF.mul_inf_fin (hx : x.IsFinite) :
    f.mul rm (.inf g) x = (if x.val = 0 then (f.canon, fNV) else (f.infCode (xor g x.sign), 0)) := by
  obtain ⟨s, m, e, rfl⟩ := hx.eq_fin
  cases m with
  | zero =>
    rw [if_pos ((Num.val_eq_zero_iff s 0 e).mpr rfl)]
    exact Prod.ext rfl BitVec.or_zero
  | succ m =>
    rw [if_neg (mt (Num.val_eq_zero_iff s (m + 1) e).mp (Nat.succ_ne_zero m)), ← Bool.bne_eq_xor]
    exact Prod.ext rfl BitVec.zero_or

theorem FF.mul_inf_inf : f.mul rm (.inf g) (.inf h) = (f.infCode (xor g h), 0) := by
  rw [← Bool.bne_eq_xor]
  exact Prod.ext rfl BitVec.zero_or

theorem FF.add_nan (x : Num) : f.add rm (.nan g p q) x = (f.nanCode g p, if q || x.isSig then fNV else 0) :=
  Prod.ext rfl (sigFlags_pair _ _)

theorem FF.mul_nan (x : Num) : f.mul rm (.nan g p q) x = (f.nanCode g p, if q || x.isSig then fNV else 0) :=
  Prod.ext rfl (sigFlags_pair _ _)

theorem FF.add_num_nan (hx : x.isNan = false) : f.add rm x (.nan g p q) = (f.nanCode g p, if q then fNV else 0) := by
  have hfirst : firstNan [x, .nan g p q] = some (.nan g p false) := by
    rw [firstNan, List.find?_cons_of_neg (by rw [hx]; decide)]
    rfl
  have hsig : sigFlags [x, .nan g p q] = if q then fNV else 0 := by
    rw [sigFlags_pair, Num.isSig_of_not_nan hx]
    rfl
  rw [FF.add, hfirst, hsig]
  rfl

end

/-! ### Conversion to an integer -/

/-- A finite number rounded to an integer, in a direction of the number itself. -/
def RoundsToInt (rm : Rm) (v : ℚ) (n : Int) : Prop :=
  match rm with
  | .rne => |v - n| ≤ 1 / 2 ∧ (|v - n| = 1 / 2 → n % 2 = 0)
  | .rtz => |(n : ℚ)| ≤ |v| ∧ |v| < |(n : ℚ)| + 1 ∧ 0 ≤ n * v
  | .rup => v ≤ n ∧ (n : ℚ) < v + 1
  | .rdn => (n : ℚ) ≤ v ∧ v < n + 1

theorem cast_sMant (g : Bool) (n : Nat) : (sMant g n : ℚ) = signQ g * n := by
  cases g <;> simp [sMant, signQ]

/-- The integer of a magnitude's rounding, with the sign of the number. -/
theorem RoundsTo.toInt {rm : Rm} {g : Bool} {u : ℚ} {n : Nat} (hu : 0 ≤ u) (h : RoundsTo (onMag rm g) u n) :
    RoundsToInt rm (signQ g * u) (sMant g n) := by
  have hn : (0 : ℚ) ≤ n := Nat.cast_nonneg n
  have hgg : signQ g * signQ g = 1 := by cases g <;> simp [signQ]
  unfold RoundsToInt
  cases rm with
  | rne =>
    obtain ⟨hle, heven⟩ := h
    have hdist : |signQ g * u - (sMant g n : ℚ)| = |u - n| := by rw [cast_sMant, ← mul_sub, abs_mul, abs_signQ, one_mul]
    rw [hdist]
    refine ⟨hle, fun heq => ?_⟩
    have := heven heq
    unfold sMant
    split <;> omega
  | rtz =>
    obtain ⟨hle, hlt⟩ := h
    rw [cast_sMant, abs_mul, abs_signQ, one_mul, abs_mul, abs_signQ, one_mul, abs_of_nonneg hu, abs_of_nonneg hn]
    refine ⟨hle, hlt, ?_⟩
    calc (0 : ℚ) ≤ n * u := mul_nonneg hn hu
      _ = signQ g * n * (signQ g * u) := by rw [mul_mul_mul_comm, hgg, one_mul]
  | rup =>
    rw [cast_sMant]
    cases g with
    | false => simpa [signQ, onMag, RoundsTo] using h
    | true =>
      obtain ⟨hle, hlt⟩ : (n : ℚ) ≤ u ∧ u < n + 1 := h
      simp only [signQ, if_true]
      exact ⟨by linarith, by linarith⟩
  | rdn =>
    rw [cast_sMant]
    cases g with
    | false => simpa [signQ, onMag, RoundsTo] using h
    | true =>
      obtain ⟨hle, hlt⟩ : u ≤ n ∧ (n : ℚ) < u + 1 := h
      simp only [signQ, if_true]
      exact ⟨by linarith, by linarith⟩

theorem roundInt_spec (rm : Rm) (g : Bool) (m : Nat) (e : Int) : RoundsToInt rm (Num.fin g m e).val (roundInt rm g m e).1 ∧
    ((roundInt rm g m e).2 = false ↔ ((roundInt rm g m e).1 : ℚ) = (Num.fin g m e).val) := by
  obtain ⟨hrounds, hexact⟩ := roundAt_spec rm g m e 0
  have hval : (Num.fin g m e).val = signQ g * (m * 2 ^ (e - 0)) := by rw [Int.sub_zero, Num.val_eq_signQ]
  have hg : signQ g ≠ 0 := by cases g <;> simp [signQ]
  refine ⟨hval ▸ hrounds.toInt (by positivity), ?_⟩
  show _ ↔ ((sMant g (roundAt rm g m e false 0).1 : Int) : ℚ) = _
  rw [cast_sMant, hval, mul_right_inj' hg]
  exact hexact

theorem wrapTo_lt (n : Nat) (v : Int) : wrapTo n v < 2 ^ n := by
  have hpos : (0 : Int) < 2 ^ n := by positivity
  have h1 := Int.emod_nonneg v hpos.ne'
  have h2 := Int.emod_lt_of_pos v hpos
  unfold wrapTo
  zify
  rw [Int.toNat_of_nonneg h1]
  exact h2

/-- An integer of 64 bits is the value of its code. -/
theorem toInt_wrapTo {v : Int} (h1 : -(2 ^ 63) ≤ v) (h2 : v < 2 ^ 63) : (BitVec.ofNat 64 (wrapTo 64 v)).toInt = v := by
  have hof : BitVec.ofNat 64 (wrapTo 64 v) = BitVec.ofInt 64 v := by
    apply BitVec.eq_of_toNat_eq
    rw [BitVec.toNat_ofNat, BitVec.toNat_ofInt, Nat.mod_eq_of_lt (wrapTo_lt 64 v)]
    rfl
  rw [hof, BitVec.toInt_ofInt]
  exact Int.bmod_eq_of_le (by omega) (by omega)

/-- A conversion of a finite number to 64 bits, by whether the integer fits (R226). -/
theorem convInt_fin (rm : Rm) (g : Bool) (m : Nat) (e : Int) : let n := (roundInt rm g m e).1
    (-(2 ^ 63) ≤ n → n < 2 ^ 63 → (convInt 64 rm .sat (.fin g m e)).code = wrapTo 64 n ∧
      (convInt 64 rm .sat (.fin g m e)).flags = flagIf (roundInt rm g m e).2 fNX) ∧
    (n < -(2 ^ 63) → (convInt 64 rm .sat (.fin g m e)).code = 2 ^ 63 ∧ (convInt 64 rm .sat (.fin g m e)).flags = fOF ||| fNX) ∧
    (2 ^ 63 ≤ n → (convInt 64 rm .sat (.fin g m e)).code = 2 ^ 63 - 1 ∧ (convInt 64 rm .sat (.fin g m e)).flags = fOF ||| fNX) := by
  have hcases : convInt 64 rm .sat (.fin g m e) =
      if (roundInt rm g m e).1 < -(2 ^ 63) then ⟨wrapTo 64 (-(2 ^ 63)), fOF ||| fNX, false⟩
      else if 2 ^ 63 - 1 < (roundInt rm g m e).1 then ⟨wrapTo 64 (2 ^ 63 - 1), fOF ||| fNX, false⟩
      else ⟨wrapTo 64 (roundInt rm g m e).1, flagIf (roundInt rm g m e).2 fNX, false⟩ := rfl
  intro n
  rw [hcases]
  refine ⟨fun h1 h2 => ?_, fun h => ?_, fun h => ?_⟩
  · rw [if_neg (by omega), if_neg (by omega)]
    exact ⟨rfl, rfl⟩
  · rw [if_pos h]
    exact ⟨by decide, rfl⟩
  · rw [if_neg (by omega), if_pos (by omega)]
    exact ⟨by decide, rfl⟩

/-- Settles O6: the forms by `State.wf`, the sums and products by exact arithmetic, the integers by `roundAt` at the unit. -/
theorem scalarFloatComplete : Obligations.ScalarFloatComplete := by
  unfold Obligations.ScalarFloatComplete
  refine ⟨?forms, fun f rm x y z hx hy hz => ⟨f.add_exact rm hx hy, f.sub_exact rm hx hy, f.mul_exact rm hx hy, f.fma_exact rm hx hy hz⟩,
    fun f rm g h p q x => ⟨f.add_inf_fin rm g, f.add_inf_inf rm g h, f.mul_inf_fin rm g, f.mul_inf_inf rm g h, f.add_nan rm g p q x,
      f.add_num_nan rm g p q, f.mul_nan rm g p q x⟩, fun rm x c fl hc hfl => ?convert⟩
  case forms =>
    rintro s f rm d a b x y z rfl rfl rfl
    have give {i : Instr} {f : SFmt} (r : Coded) (h : exec i s = s.wf f d r) : s.GivesSF i d (fWord f r.1) r.2 := s.givesSF_of_wf h
    exact ⟨give _ rfl, give _ rfl, give _ rfl, give _ rfl,
      give ((f.ff.put .rne (numMin (fRead f (s.rs a)) (fRead f (s.rs b))).1).1, (numMin (fRead f (s.rs a)) (fRead f (s.rs b))).2) rfl,
      give ((f.ff.put .rne (numMax (fRead f (s.rs a)) (fRead f (s.rs b))).1).1, (numMax (fRead f (s.rs a)) (fRead f (s.rs b))).2) rfl,
      give (fToF .f64 rm (fRead .f32 (s.rs a))) rfl,
      give (fToF .f32 rm (fRead .f64 (s.rs a))) rfl, give (toI64 rm (fRead .f32 (s.rs a))) rfl, give (toI64 rm (fRead .f64 (s.rs a))) rfl,
      give _ rfl, give _ rfl⟩
  case convert =>
    subst hc hfl
    refine ⟨fun hnan => ?_, ?_, fun hfin => ?_⟩
    · cases x with
      | nan => exact ⟨rfl, rfl⟩
      | inf | fin => cases hnan
    · rintro g rfl
      cases g
      · exact ⟨show wrapTo 64 (2 ^ 63 - 1) = 2 ^ 63 - 1 by decide, rfl⟩
      · exact ⟨show wrapTo 64 (-(2 ^ 63)) = 2 ^ 63 by decide, rfl⟩
    · obtain ⟨g, m, e, rfl⟩ := hfin.eq_fin
      obtain ⟨hrounds, hexact⟩ := roundInt_spec rm g m e
      obtain ⟨hfits, hlow, hhigh⟩ := convInt_fin rm g m e
      refine ⟨(roundInt rm g m e).1, hrounds, fun h1 h2 => ?_, hlow, hhigh⟩
      obtain ⟨hcode, hflags⟩ := hfits h1 h2
      rw [hcode, hflags]
      refine ⟨wrapTo_lt 64 _, toInt_wrapTo h1 h2, ?_⟩
      cases hi : (roundInt rm g m e).2
      · rw [if_pos (hexact.mp hi)]
        rfl
      · rw [if_neg (mt hexact.mpr (by rw [hi]; decide))]
        rfl

end Sys2Proof.Machine

namespace Sys2Proof.Machine

/-! ## Element words (O26) -/

section
variable (w : BitVec 32)

theorem ewOp_eq : ewOp w = (w.extractLsb' 26 6).toNat := by
  have := w.isLt
  rw [BitVec.extractLsb'_toNat, Nat.shiftRight_eq_div_pow, ewOp]
  omega

theorem ewDst_eq : ewDst w = (w.extractLsb' 21 5).toNat := by rw [BitVec.extractLsb'_toNat, Nat.shiftRight_eq_div_pow]; rfl
theorem ewA_eq : ewA w = (w.extractLsb' 16 5).toNat := by rw [BitVec.extractLsb'_toNat, Nat.shiftRight_eq_div_pow]; rfl
theorem ewB_eq : ewB w = (w.extractLsb' 11 5).toNat := by rw [BitVec.extractLsb'_toNat, Nat.shiftRight_eq_div_pow]; rfl
theorem ewC_eq : ewC w = (w.extractLsb' 6 5).toNat := by rw [BitVec.extractLsb'_toNat, Nat.shiftRight_eq_div_pow]; rfl
theorem ewMod_eq : ewMod w = (w.extractLsb' 0 6).toNat := by rw [BitVec.extractLsb'_toNat, Nat.shiftRight_eq_div_pow, Nat.pow_zero, Nat.div_one]; rfl

end

theorem laneFF_eq (k : LaneKind) : laneFF k = if decide (k = .f64) then ff64 else ff32 := by
  cases k <;> rfl

theorem viewF_eq (k : LaneKind) (n : Nat) :
    viewF k n = (if decide (k = .f64) then ff64 else ff32).read (n % 2 ^ (if decide (k = .f64) then 64 else 32)) := by
  cases k <;> rfl

/-- A lane without the NaN trap. -/
def LaneEnv.calm (v : LaneEnv) : LaneEnv := { v with slot := { v.slot with nant := false } }

/-- The NaN trap adds a fault to what a step does without it (R327). -/
theorem runWord_eq_calm (v : LaneEnv) (i : Nat) (w : BitVec 32) (st : LaneSt) : runWord v i w st =
    (if v.slot.nant && nanTrapped (ewOp w) && !(ewOp w == 0x12 && (ewB w / 8 % 2 == 1 || ewMod w % 16 == 6)) &&
      (viewF v.kind (nth (runWord v.calm i w st).e (ewDst w))).isNan then (runWord v.calm i w st).fault i Cause.elemNan else runWord v.calm i w st) := by
  simp only [runWord, LaneEnv.calm, Bool.false_and, Bool.false_eq_true, if_false]
  rfl

/-- A transcendental step of a lane, by the lane's kind (R320). -/
theorem viaF32_eq (k : LaneKind) (g : Num → Coded) (x : Num) : viaF32 k g x = if decide (k = .f64) then
    ((ff64.put .rne (ff32.read (g (ff32.read (ff32.put .rne x).1)).1)).1,
      (if x.isSig then fNV else 0) ||| (ff32.put .rne x).2 ||| (g (ff32.read (ff32.put .rne x).1)).2)
    else g x := by
  cases k
  · rfl
  · show (_, sigFlags [x] ||| _ ||| _) = _
    rw [show sigFlags [x] = if x.isSig then fNV else 0 by simp [sigFlags, flagIf]]
    rfl
  · rfl

/-- The sign of what is read is the code's top bit. -/
theorem FF.sign_read {f : FF} (hf : f.Ieee) (c : Nat) : (f.read c).sign = c.testBit (f.eb + f.fb) := by
  have hbit : (c / 2 ^ (f.eb + f.fb) % 2 == 1) = c.testBit (f.eb + f.fb) := by
    rw [Nat.testBit_eq_decide_div_mod_eq]
    rfl
  rw [← hbit]
  rcases FF.read_cases hf c with ⟨-, hr⟩ | ⟨-, hr⟩ | ⟨-, -, hr⟩ <;> rw [hr]
  · split <;> rfl
  · rfl
  · rfl

/-- The sign bit that a negation puts in. -/
theorem signBit_not_sign (k : LaneKind) (a : Nat) : (laneFF k).signBit (!(viewF k a).sign) =
    if a.testBit ((if decide (k = .f64) then 64 else 32) - 1) then 0 else 2 ^ ((if decide (k = .f64) then 64 else 32) - 1) := by
  have h32 : (ff32.read (a % 2 ^ 32)).sign = a.testBit 31 := by
    exact (FF.sign_read (sfmt_ieee .f32) _).trans ((Nat.testBit_mod_two_pow a 32 31).trans (by simp))
  have h64 : (ff64.read (a % 2 ^ 64)).sign = a.testBit 63 := by
    exact (FF.sign_read (sfmt_ieee .f64) _).trans ((Nat.testBit_mod_two_pow a 64 63).trans (by simp))
  cases k with
  | f64 =>
    show ff64.signBit (!(ff64.read (a % 2 ^ 64)).sign) = if a.testBit 63 then 0 else 2 ^ 63
    rw [h64]
    cases a.testBit 63 <;> rfl
  | f32 | i32 =>
    show ff32.signBit (!(ff32.read (a % 2 ^ 32)).sign) = if a.testBit 31 then 0 else 2 ^ 31
    rw [h32]
    cases a.testBit 31 <;> rfl

section
variable {x y : Num} (hx : x.isNan = false) (hy : y.isNan = false)
include hx hy

theorem firstNan_pair_none : firstNan [x, y] = none := by
  simp [firstNan, hx, hy]

/-- Of two numbers a maximum and a minimum are numbers again, and raise no flag (R76). -/
theorem numMax_of_num : (numMax x y).1.isNan = false ∧ (numMax x y).2 = 0 := by
  simp only [numMax, firstNan_pair_none hx hy, and_true]
  split
  · split <;> assumption
  · split <;> assumption

theorem numMin_of_num : (numMin x y).2 = 0 := by
  simp only [numMin, firstNan_pair_none hx hy]

end

theorem Num.isNan_abs (x : Num) : x.abs.isNan = x.isNan := by cases x <;> rfl

theorem Num.isNan_neg (x : Num) : x.neg.isNan = x.isNan := by cases x <;> rfl

/-- A clamp of numbers: the maximum with the lower bound, then the minimum with the upper one. -/
theorem clamp_of_num {x lo hi : Num} (hx : x.isNan = false) (hlo : lo.isNan = false) (hhi : hi.isNan = false) :
    (numMax x lo).2 ||| (numMin (numMax x lo).1 hi).2 = 0 := by
  obtain ⟨hmax, hflags⟩ := numMax_of_num hx hlo
  rw [hflags, numMin_of_num hmax hhi]
  rfl

/-! ### A shift right, rounded -/

/-- A rounding to an integer, between whole multiples of a unit `b`. -/
theorem RoundsToInt.scaled {rm : Rm} {u : ℚ} {n b v : Int} (hb : 0 < b) (hv : u * b = v) (h : RoundsToInt rm u n) : (match rm with
    | .rdn => b * n ≤ v ∧ v < b * (n + 1)
    | .rup => v ≤ b * n ∧ b * n < v + b
    | .rtz => b * |n| ≤ |v| ∧ |v| < b * (|n| + 1) ∧ 0 ≤ n * v
    | .rne => |2 * v - b * (2 * n)| ≤ b ∧ (|2 * v - b * (2 * n)| = b → n % 2 = 0)) := by
  have hbq : (0 : ℚ) < b := by exact_mod_cast hb
  have le_iff (x y : ℚ) : x ≤ y ↔ x * b ≤ y * b := (mul_le_mul_iff_left₀ hbq).symm
  have lt_iff (x y : ℚ) : x < y ↔ x * b < y * b := (mul_lt_mul_iff_left₀ hbq).symm
  have habs : |u| * b = |(v : ℚ)| := by rw [← hv, abs_mul, abs_of_pos hbq]
  cases rm with
  | rdn =>
    obtain ⟨h1, h2⟩ := h
    rw [le_iff, hv] at h1
    rw [lt_iff, hv] at h2
    rw [mul_comm b, mul_comm b]
    exact ⟨by exact_mod_cast h1, by exact_mod_cast h2⟩
  | rup =>
    obtain ⟨h1, h2⟩ := h
    rw [le_iff, hv] at h1
    rw [lt_iff, add_mul, hv, one_mul] at h2
    rw [mul_comm b]
    exact ⟨by exact_mod_cast h1, by exact_mod_cast h2⟩
  | rtz =>
    obtain ⟨h1, h2, h3⟩ := h
    rw [le_iff, habs] at h1
    rw [lt_iff, habs] at h2
    rw [mul_comm] at h1 h2
    refine ⟨by exact_mod_cast h1, by rw [mul_comm b]; exact_mod_cast mul_comm (b : ℚ) _ ▸ h2, ?_⟩
    have h4 : (0 : ℚ) ≤ n * v := by
      rw [← hv, ← mul_assoc]
      exact mul_nonneg h3 hbq.le
    exact_mod_cast h4
  | rne =>
    obtain ⟨h1, h2⟩ := h
    have hdist : ((|2 * v - b * (2 * n)| : Int) : ℚ) = 2 * (|u - n| * b) := by
      calc ((|2 * v - b * (2 * n)| : Int) : ℚ) = |2 * ((u - n) * b)| := by
            rw [sub_mul, hv]
            push_cast
            ring_nf
        _ = 2 * (|u - n| * b) := by rw [abs_mul, abs_mul, abs_of_pos hbq, abs_two]
    constructor
    · have : ((|2 * v - b * (2 * n)| : Int) : ℚ) ≤ b := by
        rw [hdist]
        nlinarith
      exact_mod_cast this
    · intro heq
      refine h2 (mul_right_cancel₀ hbq.ne' ?_)
      have : ((|2 * v - b * (2 * n)| : Int) : ℚ) = b := by exact_mod_cast heq
      rw [hdist] at this
      linarith

/-- ±m × 2^(−k) rounded to an integer, by the quotient and the remainder of the floored division (R321). -/
theorem roundInt_shift (rm : Rm) (v : Int) (k : Nat) : (roundInt rm (decide (v < 0)) v.natAbs (-(k : Int))).1 =
    (let q : Int := v / 2 ^ k
     let rest : Int := v % 2 ^ k
     match rm with
     | .rdn => q
     | .rup => if rest = 0 then q else q + 1
     | .rtz => if rest = 0 ∨ 0 ≤ v then q else q + 1
     | .rne => if 2 * rest < 2 ^ k ∨ (2 * rest = 2 ^ k ∧ q % 2 = 0) then q else q + 1) := by
  obtain ⟨hrounds, -⟩ := roundInt_spec rm (decide (v < 0)) v.natAbs (-(k : Int))
  have hb : (0 : Int) < 2 ^ k := by positivity
  have hval : (Num.fin (decide (v < 0)) v.natAbs (-(k : Int))).val * ((2 ^ k : Int) : ℚ) = v := by
    have hs : (sMant (decide (v < 0)) v.natAbs : Int) = v := by
      unfold sMant
      by_cases hv : v < 0
      · rw [if_pos (decide_eq_true hv)]; omega
      · rw [if_neg (by simpa using hv)]; omega
    rw [Num.val_fin, hs, zpow_neg, zpow_natCast, Int.cast_pow, Int.cast_ofNat, inv_mul_cancel_right₀ (by positivity)]
  have h := hrounds.scaled hb hval
  have hsplit := Int.mul_ediv_add_emod v (2 ^ k)
  have hrest0 := Int.emod_nonneg v hb.ne'
  have hrest1 := Int.emod_lt_of_pos v hb
  generalize (roundInt rm (decide (v < 0)) v.natAbs (-(k : Int))).1 = n at *
  generalize (2 ^ k : Int) = b at *
  dsimp only
  generalize v / b = q at *
  generalize v % b = rest at *
  subst hsplit
  have below {x y : Int} (hxy : b * x < b * y) : x < y := lt_of_mul_lt_mul_left hxy hb.le
  have down (h1 : b * n ≤ b * q + rest) (h2 : b * q + rest < b * (n + 1)) : n = q := by
    have := below (x := n) (y := q + 1) (by linarith)
    have := below (x := q) (y := n + 1) (by linarith)
    omega
  have up (h1 : b * q + rest ≤ b * n) (h2 : b * n < b * q + rest + b) : n = if rest = 0 then q else q + 1 := by
    split
    · have := below (x := q - 1) (y := n) (by linarith)
      have := below (x := n) (y := q + 1) (by linarith)
      omega
    · next hne =>
      have hpos : 0 < rest := lt_of_le_of_ne hrest0 (Ne.symm hne)
      have := below (x := q) (y := n) (by linarith)
      have := below (x := n) (y := q + 2) (by linarith)
      omega
  cases rm with
  | rdn => exact down h.1 h.2
  | rup => exact up h.1 h.2
  | rtz =>
    obtain ⟨h1, h2, h3⟩ := h
    rcases le_or_gt 0 (b * q + rest) with hv | hv
    · have hn : 0 ≤ n := by
        by_contra hneg
        have hzero : b * q + rest = 0 := by nlinarith
        rw [hzero, abs_zero] at h1
        nlinarith [abs_pos.mpr (show n ≠ 0 by omega)]
      rw [abs_of_nonneg hn, abs_of_nonneg hv] at h1 h2
      simp only [hv, or_true, if_true]
      exact down h1 h2
    · have hn : n ≤ 0 := by
        by_contra hpos
        nlinarith
      rw [abs_of_nonpos hn, abs_of_neg hv] at h1 h2
      simp only [not_le.mpr hv, or_false]
      exact up (by linarith) (by linarith)
  | rne =>
    obtain ⟨h1, h2⟩ := h
    obtain ⟨hlow, hhigh⟩ := abs_le.mp h1
    have hj0 := below (x := -1) (y := 2 * (n - q) + 1) (by linarith)
    have hj1 := below (x := 2 * (n - q)) (y := 3) (by linarith)
    change n = if 2 * rest < b ∨ 2 * rest = b ∧ q % 2 = 0 then q else q + 1
    rcases (by omega : n = q ∨ n = q + 1) with rfl | rfl
    · rw [if_pos]
      rcases lt_or_eq_of_le (show 2 * rest ≤ b by linarith) with hlt | heq
      · exact .inl hlt
      · exact .inr ⟨heq, h2 (by rw [show 2 * (b * n + rest) - b * (2 * n) = b by linarith, abs_of_pos hb])⟩
    · rw [if_neg]
      rintro (hlt | ⟨heq, heven⟩)
      · linarith
      · have := h2 (by rw [show 2 * (b * q + rest) - b * (2 * (q + 1)) = -b by linarith, abs_neg, abs_of_pos hb])
        omega

end Sys2Proof.Machine

namespace Sys2Proof.Machine
/-! ## The steps of an accepted program -/

/-- The bits of a lane's float view below its sign. -/
theorem laneFF_bits (k : LaneKind) : (laneFF k).eb + (laneFF k).fb = (if decide (k = .f64) then 64 else 32) - 1 := by
  cases k <;> rfl

/-- A comparison of a step, as a proposition (R321). -/
theorem cmpStep_iff (m : Nat) (x y : Num) :
    (match m with
      | 0 => numEq x y
      | 1 => !numEq x y
      | 2 => !(x.isNan || y.isNan) && numLt x y
      | 3 => !(x.isNan || y.isNan) && !numLt y x
      | 4 => !(x.isNan || y.isNan) && numLt y x
      | 5 => !(x.isNan || y.isNan) && !numLt x y
      | _ => x.isNan || y.isNan) = true ↔
    (match m with
      | 0 => numEq x y = true
      | 1 => numEq x y = false
      | 2 => ¬ (x.isNan = true ∨ y.isNan = true) ∧ numLt x y = true
      | 3 => ¬ (x.isNan = true ∨ y.isNan = true) ∧ numLt y x = false
      | 4 => ¬ (x.isNan = true ∨ y.isNan = true) ∧ numLt y x = true
      | 5 => ¬ (x.isNan = true ∨ y.isNan = true) ∧ numLt x y = false
      | _ => x.isNan = true ∨ y.isNan = true) := by
  rcases m with _ | _ | _ | _ | _ | _ | m <;> simp

/-- A mask's comparison of a step, as a proposition (R326). -/
theorem maskStep_iff (m : Nat) (b dl : Int) :
    (match m with | 0 => decide (b < dl) | 1 => decide (b ≤ dl) | 2 => decide (dl < b) | _ => decide (dl ≤ b)) = true ↔
    (match m with | 0 => b < dl | 1 => b ≤ dl | 2 => dl < b | _ => dl ≤ b) := by
  rcases m with _ | _ | _ | m <;> simp

/-- A NaN scaled is the NaN made quiet (R77). -/
theorem firstNan_singleton {x : Num} (hx : x.isNan = true) : firstNan [x] = some x.quiet := by
  simp [firstNan, hx]

/-- The range check of a step, as a proposition (R326). -/
theorem rangeStep_iff {x y z : Num} : (!x.isNan && !y.isNan && !z.isNan && !numLt x y && !numLt z x) = true ↔
    x.isNan = false ∧ y.isNan = false ∧ z.isNan = false ∧ numLt x y = false ∧ numLt z x = false := by
  simp only [Bool.and_eq_true, Bool.not_eq_true', and_assoc]

theorem ite_lt_eq_min (a b : Nat) : (if a < b then (a : Int) else b) = min (a : Int) b := by
  split <;> omega

theorem ite_lt_eq_max (a b : Nat) : (if a < b then (b : Int) else a) = max (a : Int) b := by
  split <;> omega

section
variable {k : LaneKind} {w : BitVec 32} {a : Nat}

/-- The operand of a conversion: an integer or a number, as bit 2 of EB says (R322). -/
def cvtOperand (k : LaneKind) (w : BitVec 32) (a : Nat) : Num := if (ewB w).testBit 2 then Num.ofInt (viewI a) else viewF k a

theorem cvtOperand_eq : (if ewB w / 4 % 2 = 1 then Num.ofInt (viewI a) else viewF k a) = cvtOperand k w a := by
  simp only [cvtOperand, Nat.testBit_eq_decide_div_mod_eq, decide_eq_true_eq]

theorem cvtStep_int32 (h3 : (ewB w).testBit 3 = true) : cvtStep k w a =
    let r := convInt 32 (modRm (ewMod w / 16)) (polOf (ewB w)) (cvtOperand k w a)
    (laneInt (signedOf 32 r.code), r.flags, r.fault) := by
  rw [Nat.testBit_eq_decide_div_mod_eq, decide_eq_true_eq] at h3
  simp only [cvtStep, cvtOperand_eq]
  exact if_pos h3

variable (h3 : (ewB w).testBit 3 = false)
include h3

theorem cvtStep_of_fmt : cvtStep k w a =
    let x := cvtOperand k w a
    let f := plainFmt (ewMod w % 16)
    let rm := modRm (ewMod w / 16)
    let pol := polOf (ewB w)
    if f = .int8 then
      let r := convInt 8 rm pol x
      (laneInt (signedOf 8 r.code), r.flags, r.fault)
    else if f = .fp64 ∧ k ≠ .f64 then
      let r := ff32.conv rm pol x
      (r.code, r.flags, r.fault)
    else
      let r := f.ff.conv rm pol x
      (laneNum k (f.ff.read r.code), r.flags, r.fault) := by
  rw [Nat.testBit_eq_decide_div_mod_eq, decide_eq_false_iff_not] at h3
  simp only [cvtStep, cvtOperand_eq]
  exact if_neg h3

end

/-- A conversion step: the value and the flags, and an element fault where the conversion has one (R322). -/
theorem runWord_cvt {v : LaneEnv} {w : BitVec 32} (i : Nat) (st : LaneSt) (hn : v.slot.nant = false) (hop : ewOp w = 0x12) {q : Conv} {val : Nat}
    (hq : cvtStep v.kind w (v.sel st (ewA w)) = (val, q.flags, q.fault)) :
    (runWord v i w st).c = st.c ∧ (runWord v i w st).e = st.e.set (ewDst w) val ∧ (runWord v i w st).flags = st.flags ||| q.flags ∧
    (q.fault = false → (runWord v i w st).flt = st.flt) ∧ (q.fault = true → (runWord v i w st).flt = st.flt.or (some (i, Cause.elemOverflow))) := by
  have hrun : runWord v i w st =
      let t := { st with tr := nth st.e (ewA w) :: st.tr, e := st.e.set (ewDst w) val, flags := st.flags ||| q.flags }
      if q.fault then t.fault i Cause.elemOverflow else t := by
    simp only [runWord, hn, hop, hq, Bool.false_and, Bool.false_eq_true, if_false]
  rw [hrun]
  cases q.fault
  · exact ⟨rfl, rfl, rfl, fun _ => rfl, nofun⟩
  · exact ⟨rfl, rfl, rfl, nofun, fun _ => rfl⟩

/-- What each selector names (R315). -/
theorem LaneEnv.sel_spec (v : LaneEnv) (st : LaneSt) (k : Fin 8) (j : Fin 4) : v.sel st k.val = nth st.e k.val ∧
    v.sel st (8 + k.val) = v.slot.k[k.val].toNat ∧ v.sel st 0x10 = v.q ∧ v.sel st (0x11 + j.val) = nth st.c j.val ∧
    v.sel st (0x15 + j.val) = nth v.past j.val ∧ (v.lane = 0 → v.sel st 0x19 = v.slot.k[7].toNat) ∧
    (v.lane ≠ 0 → v.sel st 0x19 = (v.left.map Prod.fst).getD 0) := by
  have hk := k.isLt
  have hj := j.isLt
  refine ⟨if_pos hk, ?param, rfl, ?carry, ?past, fun h0 => ?_, fun h0 => ?_⟩
  case param =>
    rw [LaneEnv.sel, if_neg (by omega), if_pos (by omega), Nat.add_sub_cancel_left, Vector.getD_toList]
  case carry =>
    rw [LaneEnv.sel, if_neg (by omega), if_neg (by omega), if_neg (by omega), if_pos (by omega), Nat.add_sub_cancel_left]
  case past =>
    rw [LaneEnv.sel, if_neg (by omega), if_neg (by omega), if_neg (by omega), if_neg (by omega), if_pos (by omega), Nat.add_sub_cancel_left]
  · show (if v.lane = 0 then (v.slot.k.toList.getD 7 0).toNat else _) = _
    rw [if_pos h0, Vector.getD_toList]
  · show (if v.lane = 0 then _ else match v.left with | some (x, _) => x | none => 0) = _
    rw [if_neg h0]
    cases v.left <;> rfl

/-- Whether the NaN trap looks at an opcode (R327). -/
theorem nanTrapped_iff (op : Nat) : nanTrapped op = true ↔ (1 ≤ op ∧ op ≤ 0x0D) ∨ (0x10 ≤ op ∧ op ≤ 0x12) := by
  simp [nanTrapped]

/-- An accepted program's steps do what the spec gives their opcodes. -/
theorem runsElements : RunsElements := by
  refine ⟨fun v st k j => v.sel_spec st k j, ?_, fun v i w ws st => ⟨rfl, rfl, fun hnant => ?_⟩⟩
  · intro v i w st _ _ _ hn op d ea eb m wide ff bits a b c x y z rm ia ib ua ub n int t Same F E C cv cx Check f32 sig
    have hop : ewOp w = op := ewOp_eq w
    have hd : ewDst w = d := ewDst_eq w
    have ha : ewA w = ea := ewA_eq w
    have hb : ewB w = eb := ewB_eq w
    have hm : ewMod w = m := ewMod_eq w
    have hsc : ewC w = (w.extractLsb' 6 5).toNat := ewC_eq w
    have hx : viewF v.kind (v.sel st ea) = x := viewF_eq v.kind a
    have hy : viewF v.kind (v.sel st eb) = y := viewF_eq v.kind b
    have hz : viewF v.kind (v.sel st (w.extractLsb' 6 5).toNat) = z := viewF_eq v.kind c
    have hcx : viewF v.kind (nth st.c (d - 0x11)) = cx := viewF_eq v.kind cv
    have hff : laneFF v.kind = ff := laneFF_eq v.kind
    have hnum (r : Num) : laneNum v.kind r = n r := congrArg (fun f : FF => (f.put .rne r).1) hff
    refine ⟨?add, ?sub, ?mul, ?fma, ?min, ?max, ?abs, ?neg, ?exp2, ?log2, ?rcp, ?rsq, ?tanh, ?sel, ?cmp, ?clamp, ?clampSym, ?clampNan, ?scale, ?cvt,
      ?iadd, ?isub, ?imul, ?imin, ?imax, ?iand, ?ior, ?ixor, ?shl, ?shr, ?shrRnd, ?sat, ?mov, ?past, ?left, ?qld,
      ?cmax, ?cmin, ?cadd, ?cset, ?swap, ?irange, ?frange, ?mask⟩ <;> intro h <;> rw [h] at hop
    case cvt =>
      have hdone {q : Conv} {val : Nat} (hq : cvtStep v.kind w (v.sel st (ewA w)) = (val, q.flags, q.fault)) := hd ▸ runWord_cvt i st hn hop hq
      have hu : cvtOperand v.kind w (v.sel st (ewA w)) = if eb.testBit 2 then Num.ofInt ia else x := by
        simp only [cvtOperand, hb, ha, hx]
        rfl
      refine ⟨fun h3 => hdone ?_, fun h3 hf => hdone ?_, fun h3 hf hwide => hdone ?_, fun h3 hf hwide => hdone ?_⟩
      · rw [cvtStep_int32 (by rwa [hb]), hu, hb, hm]
        rfl
      all_goals rw [cvtStep_of_fmt (by rwa [hb]), hu, hb, hm]
      · exact if_pos hf
      · have h8 : plainFmt (m % 16) ≠ .int8 := hf
        have h64 : ¬ (plainFmt (m % 16) = .fp64 ∧ v.kind ≠ .f64) := fun hk => hk.2 (of_decide_eq_true (hwide hk.1))
        dsimp only
        rw [if_neg h8, if_neg h64, hnum]
        rfl
      · have h64 : plainFmt (m % 16) = .fp64 := hf
        dsimp only
        rw [if_neg (by simp [h64]), if_pos ⟨h64, of_decide_eq_false hwide⟩]
        rfl
    -- With its opcode known a step is one branch of `runWord`; what is left of each clause is that branch's value.
    all_goals simp only [F, E, C, Check, Same, t, runWord, hn, hop, hd, ha, hb, hsc, hm, hx, hy, hz, hff, hnum, Bool.false_and, Bool.false_eq_true, if_false,
      LaneSt.setE, LaneSt.setC, LaneSt.fault, and_self, true_and, and_true]
    case add | sub | mul | fma | swap => exact ⟨rfl, rfl⟩
    case iadd | isub | imul | iand | ior | ixor | shl | shr | mov | sel => rfl
    case abs => rw [← hff, laneFF_bits]
    case neg => rw [← hff, laneFF_bits, ← hx, signBit_not_sign]
    case exp2 | log2 | rcp | rsq | tanh =>
      rw [viaF32_eq]
      exact ⟨rfl, rfl⟩
    case cmp =>
      refine ⟨rfl, fun hc => ?_, fun hc => ?_⟩
      · exact congrArg (fun r => st.e.set d (laneInt r)) (if_pos ((cmpStep_iff m x y).mpr hc))
      · exact congrArg (fun r => st.e.set d (laneInt r)) (if_neg (mt (cmpStep_iff m x y).mp hc))
    case clamp =>
      intro hm0 hx0 hy0 hz0
      simp only [hm0, hx0, hy0, clamp_of_num hx0 hy0 hz0, Bool.false_eq_true, zero_ne_one, if_false, and_self]
    case clampSym =>
      intro hm1 hx0 hy0
      simp only [hm1, hx0, hy0, clamp_of_num hx0 (y.abs.isNan_neg.trans (y.isNan_abs.trans hy0)) (y.isNan_abs.trans hy0), Bool.false_eq_true, if_false,
        if_true, and_false, and_self]
    case clampNan =>
      intro hx1
      simp only [hx1, if_true, and_self]
    case scale =>
      refine ⟨fun s p q hxe => ?_, fun s hxe => ?_, fun hx1 => ?_⟩
      · rw [hxe]
        exact ⟨rfl, rfl⟩
      · rw [hxe]
        exact ⟨rfl, rfl⟩
      · rw [firstNan_singleton hx1]
        exact ⟨rfl, rfl⟩
    case imin =>
      rw [ite_lt_eq_min]
      rfl
    case imax =>
      rw [ite_lt_eq_max]
      rfl
    case shrRnd => exact ⟨_, rfl, roundInt_shift rm ia (ub % 32)⟩
    case sat =>
      have hsat : (m / 32 = 1) = (m.testBit 5 = true) := by
        rw [Nat.testBit_eq_decide_div_mod_eq, decide_eq_true_eq]
        have : m < 64 := (w.extractLsb' 0 6).isLt
        exact propext ⟨fun h1 => by omega, fun h1 => by omega⟩
      simp only [hsat, Nat.add_sub_cancel]
      rfl
    case left =>
      refine ⟨fun h0 => by rw [if_pos h0], fun h0 => ?_⟩
      rw [if_neg h0]
      cases v.left <;> rfl
    case cmax | cmin | cadd =>
      by_cases hm1 : m = 1
      · simp only [hm1, if_true]
        exact ⟨trivial, trivial, rfl, (BitVec.or_zero ..).symm⟩
      · simp only [hm1, if_false, hcx]
        exact ⟨trivial, trivial, trivial, trivial⟩
    case cset =>
      refine ⟨fun hset => ?_, fun hm1 hseg => ?_⟩
      · have hset' : ¬ (m = 1 ∧ (!v.el.seg) = true) := by
          rintro ⟨hm1, hseg⟩
          rcases hset with hm0 | hseg'
          · omega
          · simp [hseg'] at hseg
        simp only [if_neg hset']
        exact ⟨trivial, trivial, rfl, (BitVec.or_zero ..).symm⟩
      · simp only [hm1, hseg, Bool.not_false, and_self, if_true]
    case irange =>
      intro hm1
      simp only [hm1, if_true]
      refine ⟨?_, ?_, ?_, fun hc => ?_, fun hc => ?_⟩
      · split <;> rfl
      · split <;> rfl
      · split <;> exact (BitVec.or_zero ..).symm
      · split
        · rfl
        · next hne => exact absurd hc hne
      · split
        · next hin => exact absurd hin hc
        · rfl
    case frange =>
      intro hm0
      simp only [hm0, zero_ne_one, if_false]
      refine ⟨?_, ?_, ?_, fun hc => ?_, fun hc => ?_⟩
      · split <;> rfl
      · split <;> rfl
      · split <;> rfl
      · rw [if_pos (rangeStep_iff.mpr hc)]
      · rw [if_neg (mt rangeStep_iff.mp hc)]
    case mask =>
      refine ⟨fun hc => ?_, fun hc => ?_⟩
      · exact congrArg (st.e.set d) (if_pos ((maskStep_iff m ib _).mpr hc))
      · exact congrArg (st.e.set d) (if_neg (mt (maskStep_iff m ib _).mp hc))
  · intro op t val r
    have hop : ewOp w = op := ewOp_eq w
    have hr : viewF v.kind (nth t.e (ewDst w)) = r := by
      rw [ewDst_eq]
      show viewF v.kind val = r
      cases hk : v.kind <;> simp [r, hk] <;> rfl
    have hrun : runWord v i w st = if nanTrapped op && !(op == 0x12 && (ewB w / 8 % 2 == 1 || ewMod w % 16 == 6)) && r.isNan then t.fault i Cause.elemNan
        else t := by
      rw [runWord_eq_calm, hnant, Bool.true_and, hop, ← hr]
      rfl
    refine ⟨fun hin => ?_, fun hout => ?_⟩
    · have htrap : nanTrapped op = true := (nanTrapped_iff op).mpr (by omega)
      have h12 : (op == 0x12) = false := by simp; omega
      rw [hrun, htrap, h12, Bool.false_and, Bool.not_false, Bool.true_and, Bool.true_and]
      rfl
    · have hfree : nanTrapped op = false := Bool.eq_false_iff.mpr (mt (nanTrapped_iff op).mp (by omega))
      rw [hrun, hfree, Bool.false_and, Bool.false_and]
      rfl

end Sys2Proof.Machine

namespace Sys2Proof.Machine

/-! ## Which records PPLD accepts -/

/-- The tile rows of a format's code (R251). -/
theorem tileRows_plainFmt {a : Nat} : a < 7 → tileRows (plainFmt a) = match a with | 0 => 16 | 1 => 8 | 2 => 32 | 3 => 32 | _ => 64 := by
  intro ha
  interval_cases a <;> rfl

theorem selOk_iff (c : Nat) : selOk c = true ↔ c < 0x1A := by
  rw [selOk, decide_eq_true_eq]
  omega

theorem carryOk_iff (c : Nat) : carryOk c = true ↔ 0x11 ≤ c ∧ c < 0x15 := by
  rw [carryOk, Bool.and_eq_true, decide_eq_true_eq, decide_eq_true_eq]
  omega

/-- The words that the model admits are those of the spec's tables, opcode by opcode (R217). -/
theorem wordOk_iff (w : BitVec 32) : wordOk w = true ↔ WordAdmitted w := by
  have hrows := tileRows_plainFmt (a := ewA w)
  simp only [wordOk, WordAdmitted, ← ewOp_eq, ← ewDst_eq, ← ewA_eq, ← ewB_eq, ← ewC_eq, ← ewMod_eq]
  have hm : ewMod w < 64 := Nat.mod_lt _ (by decide)
  generalize ewDst w = d, ewA w = a, ewB w = b, ewC w = c, ewMod w = m, ewOp w = op at *
  split
  all_goals simp only [List.mem_cons, Nat.reduceEqDiff, or_true, true_and, false_and, List.not_mem_nil, or_false, false_or, Bool.and_eq_true,
    Bool.or_eq_true, decide_eq_true_eq, beq_iff_eq, bne_iff_ne, selOk_iff, carryOk_iff]
  case h_34 =>
    constructor
    · rintro ⟨⟨⟨hd, ha⟩, hc⟩, hb⟩
      exact ⟨hd, by omega, hc, hb.trans_eq (hrows (by omega))⟩
    · rintro ⟨hd, ha, hc, hb⟩
      exact ⟨⟨⟨hd, by omega⟩, hc⟩, hb.trans_eq (hrows ha).symm⟩
  case h_42 => simp_all
  all_goals omega

/-- An admitted word names q in a field just when a selector of it does: no other use of a field reaches q's code (R243). -/
theorem ewSources_q_iff {w : BitVec 32} (hw : wordOk w = true) (hq : ewOp w ≠ 0x2B) :
    0x10 ∈ ewSources w ↔ ewA w = 0x10 ∨ ewB w = 0x10 ∨ ewC w = 0x10 := by
  rw [wordOk_iff] at hw
  simp only [WordAdmitted, ← ewOp_eq, ← ewDst_eq, ← ewA_eq, ← ewB_eq, ← ewC_eq, ← ewMod_eq] at hw
  rw [ewSources]
  split
  · contradiction
  split
  · next h =>
    have : ewB w ≠ 0x10 ∧ ewC w ≠ 0x10 := by
      rcases h with h | h <;> simp [h] at hw <;> omega
    simp only [List.mem_singleton, this, or_false, eq_comm]
  · simp only [List.mem_cons, List.not_mem_nil, or_false, eq_comm]

end Sys2Proof.Machine

namespace Sys2Proof.Machine

/-- At most one of a list's elements passes a test just when no two of them do. -/
theorem length_filter_le_one_iff {α : Type} (p : α → Bool) (xs : List α) :
    (xs.filter p).length ≤ 1 ↔ xs.Pairwise (fun x y => ¬ (p x = true ∧ p y = true)) := by
  induction xs with
  | nil => simp
  | cons x xs ih =>
    rw [List.pairwise_cons, List.filter_cons]
    by_cases hx : p x = true
    · rw [if_pos hx, List.length_cons]
      simp only [hx, true_and]
      constructor
      · intro h
        have hnil : xs.filter p = [] := List.eq_nil_of_length_eq_zero (by omega)
        exact ⟨fun y hy => by simpa using List.filter_eq_nil_iff.mp hnil y hy, ih.mp (by simp [hnil])⟩
      · rintro ⟨h, -⟩
        rw [List.filter_eq_nil_iff.mpr h]
        exact Nat.le_refl 1
    · rw [if_neg hx, ih]
      simp [hx]

/-- The words in use of a record are its first ones. -/
theorem take_words {n : Nat} (hn : n ≤ 16) (w : Nat → BitVec 32) : ((List.range 16).map w).take n = (List.range n).map w := by
  rw [← List.map_take, List.take_range, Nat.min_eq_left hn]

theorem drop_words_all (w : Nat → BitVec 32) (n : Nat) (p : BitVec 32 → Bool) : (((List.range 16).map w).drop n).all p = true ↔ ∀ i < 16, n ≤ i → p (w i) = true := by
  rw [← List.map_drop, List.all_map, List.all_eq_true]
  simp only [List.mem_drop_iff_getElem, Function.comp]
  constructor
  · intro h i hi hni
    exact h i ⟨i - n, by simp; omega, by simp; omega⟩
  · rintro h _ ⟨i, hi, rfl⟩
    simp only [List.length_range] at hi
    rw [List.getElem_range]
    exact h _ (by omega) (by omega)

/-- Among the first words at most one passes a test just when no two of them do. -/
theorem filter_words_le_one (p : BitVec 32 → Bool) (w : Nat → BitVec 32) (n : Nat) :
    (((List.range n).map w).filter p).length ≤ 1 ↔ ∀ i < n, ∀ j < i, p (w i) = true → ¬ p (w j) = true := by
  rw [length_filter_le_one_iff, List.pairwise_map, List.pairwise_iff_getElem]
  simp only [List.length_range, List.getElem_range]
  exact ⟨fun h i hi j hj hpi hpj => h j i (hj.trans hi) hi hj ⟨hpj, hpi⟩, fun h j i _ hi hj hij => h i hi j hj hij.2 hij.1⟩

section
variable (w : BitVec 32)

theorem isQld_iff : isQld w = true ↔ w.extractLsb' 26 6 = 0x2B#6 := by
  rw [isQld, beq_iff_eq, ewOp_eq]
  exact BitVec.toNat_inj (y := 0x2B#6)

theorem fields_q_iff : (ewA w = 0x10 ∨ ewB w = 0x10 ∨ ewC w = 0x10) ↔
    (w.extractLsb' 16 5 = 0x10#5 ∨ w.extractLsb' 11 5 = 0x10#5 ∨ w.extractLsb' 6 5 = 0x10#5) := by
  rw [ewA_eq, ewB_eq, ewC_eq]
  exact or_congr (BitVec.toNat_inj (y := 0x10#5)) (or_congr (BitVec.toNat_inj (y := 0x10#5)) (BitVec.toNat_inj (y := 0x10#5)))

end

/-- A word that has nothing to do with q: it is no qld and reads no q (R243). -/
theorem word_free_of_q_iff {w : BitVec 32} (hw : wordOk w = true) : (!isQld w && (ewSources w).all (fun c => c != 0x10)) = true ↔
    ¬ (w.extractLsb' 26 6 = 0x2B#6 ∨ w.extractLsb' 16 5 = 0x10#5 ∨ w.extractLsb' 11 5 = 0x10#5 ∨ w.extractLsb' 6 5 = 0x10#5) := by
  rw [not_or, Bool.and_eq_true, Bool.not_eq_true', ← isQld_iff, Bool.not_eq_true]
  refine and_congr_right fun hq => ?_
  rw [← fields_q_iff, ← ewSources_q_iff hw (by simpa [isQld] using hq)]
  simp only [List.all_eq_true, bne_iff_ne]
  exact ⟨fun h h16 => h _ h16 rfl, fun h c hc heq => h (heq ▸ hc)⟩

/-- What PPLD refuses, of a record with header `h` and words `w`, for slot `n` (R244). -/
def State.PpldRefuses (s : State) (n : Fin 64) (h : Nat) (w : Nat → BitVec 32) : Prop :=
  let len := h / 256 % 32
  let qld (i : Nat) : Prop := (w i).extractLsb' 26 6 = 0x2B#6
  let readsQ (i : Nat) : Prop := (w i).extractLsb' 16 5 = 0x10#5 ∨ (w i).extractLsb' 11 5 = 0x10#5 ∨ (w i).extractLsb' 6 5 = 0x10#5
  n = 0 ∨ h / 2 ^ 13 ≠ 0 ∨ h / 2 ^ 5 % 8 ≠ 0 ∨ len = 0 ∨ 16 < len ∨ h % 16 = 0 ∨ (∃ i < len, ¬ WordAdmitted (w i)) ∨
    (∃ i < 16, len ≤ i ∧ w i ≠ 0) ∨ (∃ i < len, ∃ j < i, qld i ∧ qld j) ∨ (h.testBit 3 = true ∧ ∃ i < len, qld i ∨ readsQ i) ∨
    ∃ k : Fin 4, s.core.src.binds[k.val] = n ∧ h.testBit k.val = false

theorem testBit_three_iff (h : Nat) : h / 8 % 2 = 0 ↔ h.testBit 3 = false := by
  rw [Nat.testBit_eq_decide_div_mod_eq, decide_eq_false_iff_not]
  omega

/-- A program that the model accepts, part by part (R243, R244, R312). -/
theorem progOk_iff (h : Nat) (w : Nat → BitVec 32) : progOk h ((List.range 16).map w) = true ↔
    h / 2 ^ 13 = 0 ∧ h / 2 ^ 5 % 8 = 0 ∧ h / 256 % 32 ≠ 0 ∧ h / 256 % 32 ≤ 16 ∧ h % 16 ≠ 0 ∧ (∀ i < h / 256 % 32, WordAdmitted (w i)) ∧
    (∀ i < 16, h / 256 % 32 ≤ i → w i = 0) ∧
    (∀ i < h / 256 % 32, ∀ j < i, (w i).extractLsb' 26 6 = 0x2B#6 → (w j).extractLsb' 26 6 ≠ 0x2B#6) ∧
    (h.testBit 3 = true → ∀ i < h / 256 % 32, ¬ ((w i).extractLsb' 26 6 = 0x2B#6 ∨ (w i).extractLsb' 16 5 = 0x10#5 ∨
      (w i).extractLsb' 11 5 = 0x10#5 ∨ (w i).extractLsb' 6 5 = 0x10#5)) := by
  generalize hlen : h / 256 % 32 = len
  simp only [progOk, hlen, Bool.and_eq_true, beq_iff_eq, bne_iff_ne, decide_eq_true_eq, and_assoc, Nat.one_le_iff_ne_zero]
  refine and_congr_right fun _ => and_congr_right fun _ => and_congr_right fun _ => and_congr_right fun h16 => and_congr_right fun _ => ?_
  rw [take_words h16, drop_words_all, filter_words_le_one]
  simp only [List.all_map, List.all_eq_true, List.mem_range, Function.comp, beq_iff_eq, isQld_iff, wordOk_iff, ne_eq]
  refine and_congr_right fun hadm => and_congr_right fun _ => and_congr_right fun _ => ?_
  rw [Bool.or_eq_true, beq_iff_eq, testBit_three_iff, or_iff_not_imp_left, Bool.not_eq_false]
  refine imp_congr_right fun _ => ?_
  rw [List.all_eq_true]
  simp only [List.mem_range]
  exact forall₂_congr fun i hi => word_free_of_q_iff ((wordOk_iff _).mpr (hadm i hi))

/-- The slot's binds to ports that the record has not. -/
theorem bound_elsewhere_iff (binds : Vector (Fin 64) 4) (n : Fin 64) (h : Nat) :
    (List.range 4).any (fun i => (binds.toList.getD i 0) == n && h / 2 ^ i % 2 == 0) = true ↔
    ∃ k : Fin 4, binds[k.val] = n ∧ h.testBit k.val = false := by
  have hbit (k : Nat) : h / 2 ^ k % 2 = 0 ↔ h.testBit k = false := by
    rw [Nat.testBit_eq_decide_div_mod_eq, decide_eq_false_iff_not]
    omega
  simp only [List.any_eq_true, List.mem_range, Bool.and_eq_true, beq_iff_eq, hbit]
  constructor
  · rintro ⟨k, hk, hn, hb⟩
    exact ⟨⟨k, hk⟩, (Vector.getD_toList binds hk 0).symm.trans hn, hb⟩
  · rintro ⟨k, hn, hb⟩
    exact ⟨k.val, k.isLt, (Vector.getD_toList binds k.isLt 0).trans hn, hb⟩

/-- The model refuses just the records that the spec refuses. -/
theorem State.ppldBad_iff (s : State) (n : Fin 64) (bs : List Byte) : s.ppldBad n bs = true ↔
    s.PpldRefuses n (leVal (bs.take 8)) (fun i => BitVec.ofNat 32 (leVal ((bs.drop (8 + 4 * i)).take 4))) := by
  have hprog := progOk_iff (leVal (bs.take 8)) (fun i => BitVec.ofNat 32 (leVal ((bs.drop (8 + 4 * i)).take 4)))
  rw [State.ppldBad, Bool.or_eq_true, bound_elsewhere_iff, Bool.or_eq_true, Bool.not_eq_true', decide_eq_true_eq, ← Bool.not_eq_true]
  refine (or_congr (or_congr Iff.rfl (not_congr hprog)) Iff.rfl).trans ?_
  simp only [State.PpldRefuses, not_and_or, not_forall, not_not, exists_prop, not_le, or_assoc, ne_eq]
  rfl

end Sys2Proof.Machine

namespace Sys2Proof.Machine

/-! ## BIND, KSET and PPLD (O26) -/

theorem faultIf_true (slot : Nat) (cause : Cause) (va : Word) : faultIf true slot cause va = some ⟨slot, cause, va, 0, none⟩ := rfl

theorem faultIf_false (slot : Nat) (cause : Cause) (va : Word) : faultIf false slot cause va = none := rfl

section
variable {s : State} {n : Fin 64}

theorem Arch.prog_of_ne (hn : n ≠ 0) (a : Arch) : a.prog n = a.progs[n.val] := if_neg hn

theorem State.faultBind_eq_none (p : Port) (h : n = 0 ∨ ∃ x, s.core.src.progs[n.val] = some x ∧ x.ports.getLsbD (portIx p).val = true) :
    s.faultBind n p = none := by
  by_cases hn : n = 0
  · subst hn
    rfl
  · obtain ⟨x, hx, hport⟩ := h.resolve_left hn
    rw [State.faultBind, Arch.prog_of_ne hn, hx]
    dsimp only
    rw [hport, Bool.not_true, Bool.and_false, faultIf_false]

theorem State.faultBind_eq_some (p : Port) (hn : n ≠ 0) (h : ∀ x, s.core.src.progs[n.val] = some x → x.ports.getLsbD (portIx p).val = false) :
    s.faultBind n p = some ⟨0, Cause.pprogBad, 0, 0, none⟩ := by
  rw [State.faultBind, Arch.prog_of_ne hn, decide_eq_true hn, Bool.true_and]
  cases hx : s.core.src.progs[n.val] with
  | none => rfl
  | some x =>
    dsimp only
    rw [h x hx]
    rfl

theorem State.faultKset_eq_none {x : PSlot} (hn : n ≠ 0) (hx : s.core.src.progs[n.val] = some x) : s.faultKset n = none := by
  rw [State.faultKset, Arch.prog_of_ne hn, hx]
  rfl

theorem State.faultKset_eq_some (h : n = 0 ∨ s.core.src.progs[n.val] = none) : s.faultKset n = some ⟨0, Cause.pprogBad, 0, 0, none⟩ := by
  by_cases hn : n = 0
  · subst hn
    rfl
  · rw [State.faultKset, Arch.prog_of_ne hn, h.resolve_left hn]
    rfl

end

/-- A trap of a stopping core leaves its port programs as the restart point has them. -/
theorem Core.halt_progs {c : Core} (h : c.arch.progs = c.ckpt.progs) (l : Nat) : (c.halt l).arch.progs = c.ckpt.progs := by
  unfold Core.halt
  split
  · split
    · rfl
    · exact h
  · exact h

theorem State.precise_progs {s : State} (h : s.core.arch.progs = s.core.ckpt.progs) {f : SlotFault} (hjoin : f.join = none) (x : Word) :
    (s.precise [f] x).core.arch.progs = s.core.ckpt.progs := by
  unfold State.precise
  dsimp only
  split
  · exact Core.halt_progs (c := { s.core with status := .stopped }) h _
  split
  · exact Core.halt_progs (c := { s.core with status := .stopped }) h _
  · rw [List.foldl_cons, List.foldl_nil, hjoin]
    exact h

/-- A PPROG_BAD leaves the slots as the restart point has them. -/
theorem State.takeTrap_pprogBad_progs (s : State) (va : Word) :
    (s.takeTrap [⟨0, Cause.pprogBad, va, 0, none⟩]).core.arch.progs = s.core.ckpt.progs := by
  have hprecise : s.takeTrap [⟨0, Cause.pprogBad, va, 0, none⟩] =
      (s.onC Core.rollback).precise [⟨0, Cause.pprogBad, va, 0, none⟩] s.core.ckpt.pc := by
    cases hlock : s.core.ckpt.trap.tlock with
    | true => exact State.takeTrap_of_locked hlock
    | false =>
      refine State.takeTrap_of_precise hlock fun f hf => ?_
      rw [List.mem_singleton.mp hf]
      exact ⟨rfl, rfl⟩
  rw [hprecise]
  exact State.precise_progs (s := s.onC Core.rollback) rfl rfl _

/-- Dropping the copies of lines that were read changes nothing else of the core (R92). -/
theorem Core.dropParts_eq (c : Core) (ps : List Part) : c.dropParts ps =
    { c with l1 := (c.dropParts ps).l1, ahead := (c.dropParts ps).ahead, badL1 := (c.dropParts ps).badL1 } := by
  refine Core.foldl_inv _ (fun d => d = { c with l1 := d.l1, ahead := d.ahead, badL1 := d.badL1 }) (fun d p hd => ?_) ps c rfl
  refine Core.foldl_inv _ (fun e => e = { c with l1 := e.l1, ahead := e.ahead, badL1 := e.badL1 }) (fun e i he => ?_) _ d hd
  rw [he]
  rfl

theorem State.dropRoute_eq (s : State) (r : Route) : s.dropRoute r = { s with core := { s.core with
    l1 := (s.dropRoute r).core.l1, ahead := (s.dropRoute r).core.ahead, badL1 := (s.dropRoute r).core.badL1 } } := by
  cases r with
  | scratch | clus => rfl
  | mem ps =>
    show s.onC (fun c => c.dropParts ps) = _
    exact congrArg (fun c => { s with core := c }) (s.core.dropParts_eq ps)

section
variable {s : State} {n : Fin 64} {a : SReg} {v : BitVec 23} {r : Route} {bs : List Byte}

theorem State.ppldRecord_of_route (h : s.route (s.eaP a v) 72 .read = .ok r) : s.ppldRecord a v = s.readRoute r 72 := by
  rw [State.ppldRecord, h]

/-- Of a record that can be read the only fault is a refusal. -/
theorem State.faultPpld_of_readable {g : Nat} (hmem : s.memOnly (s.eaP a v) 72 = .ok g) (halign : (s.eaP a v).toNat % 8 = 0)
    (hread : s.faultRead 0 (s.eaP a v) 72 = none) :
    s.faultPpld n a v = faultIf (s.ppldBad n (s.ppldRecord a v)) 0 Cause.pprogBad (s.eaP a v) := by
  have hmis : ((s.eaP a v).toNat % 8 != 0) = false := by simp [halign]
  rw [State.faultPpld, hmem, hmis, hread]
  rfl

/-- PPLD faults for nothing just when it reads its record and accepts it. -/
theorem State.of_faultPpld_eq_none (h : s.faultPpld n a v = none) :
    (∃ r, s.route (s.eaP a v) 72 .read = .ok r) ∧ s.ppldBad n (s.ppldRecord a v) = false := by
  simp only [State.faultPpld, Option.or_eq_none_iff] at h
  obtain ⟨-, -, hread, hbad⟩ := h
  constructor
  · unfold State.faultRead at hread
    split at hread
    · cases hread
    · exact ⟨_, ‹_›⟩
  · cases hb : s.ppldBad n (s.ppldRecord a v)
    · rfl
    · rw [hb] at hbad
      cases hbad

/-- What an accepted record fills its slot with (R244). -/
theorem slotOf_spec (h : s.ppldBad n bs = false) : n ≠ 0 ∧
    (slotOf bs).words = (List.range (leVal (bs.take 8) / 256 % 32)).map (fun i => BitVec.ofNat 32 (leVal ((bs.drop (8 + 4 * i)).take 4))) ∧
    (∀ w ∈ (slotOf bs).words, wordOk w = true) ∧ (slotOf bs).nant = (leVal (bs.take 8)).testBit 4 ∧
    (slotOf bs).ports = BitVec.ofNat 4 (leVal (bs.take 8)) ∧ 1 ≤ (slotOf bs).words.length ∧ (slotOf bs).words.length ≤ 16 := by
  simp only [State.ppldBad, Bool.or_eq_false_iff, Bool.not_eq_false', decide_eq_false_iff_not] at h
  obtain ⟨⟨hn, hprog⟩, -⟩ := h
  obtain ⟨-, -, hlen, hlen16, -, hadm, -⟩ := (progOk_iff _ (fun i => BitVec.ofNat 32 (field32 bs (8 + 4 * i)))).mp hprog
  have hwords : (slotOf bs).words = (List.range (leVal (bs.take 8) / 256 % 32)).map (fun i => BitVec.ofNat 32 (leVal ((bs.drop (8 + 4 * i)).take 4))) :=
    take_words hlen16 _
  refine ⟨hn, hwords, ?_, ?_, ?_, ?_, ?_⟩
  · rw [hwords, List.forall_mem_map]
    exact fun i hi => (wordOk_iff _).mpr (hadm i (List.mem_range.mp hi))
  · rw [Nat.testBit_eq_decide_div_mod_eq]
    rfl
  · exact BitVec.eq_of_toNat_eq (by simp [slotOf, field64])
  · rw [hwords, List.length_map, List.length_range]
    exact Nat.one_le_iff_ne_zero.mpr hlen
  · rw [hwords, List.length_map, List.length_range]
    exact hlen16

/-- What PPLD of an accepted record changes (R106, R244). -/
theorem execPpld_of_accepted (h : s.faultPpld n a v = none) (hr : s.route (s.eaP a v) 72 .read = .ok r) :
    ∃ t, exec (.ppld n a v) s = .next t ∧ t = { s with
      tlb := t.tlb,
      core := { s.core with
        arch := { s.core.arch with
          progs := s.core.arch.progs.set n.val (some (slotOf (s.readRoute r 72))),
          seqn := s.core.arch.seqn.set 0 (s.core.arch.seqn[0] + BitVec.ofNat 16 r.count) },
        l1 := t.core.l1, ahead := t.core.ahead, badL1 := t.core.badL1 } } := by
  have hnext : exec (.ppld n a v) s = .next ((((s.onA (fun q => { q with progs := q.progs.set n.val (some (slotOf (s.readRoute r 72))) })).seqCount
      ⟨0, 0, .core⟩ r.count).noteAcc (s.eaP a v) 72 .read).dropRoute r) := by
    show execPpld n a v s = _
    rw [execPpld, h, State.guard_none, State.ppldRecord_of_route hr, hr]
  refine ⟨_, hnext, ?_⟩
  rw [State.noteAcc_eq, State.dropRoute_eq]
  rfl

end

/-- Settles O26: BIND and KSET by their slot's program, PPLD by `ppldBad_iff` and `slotOf_spec`, the steps by `runsElements`. -/
theorem portProgramSlots : Obligations.PortProgramSlots := by
  unfold Obligations.PortProgramSlots
  refine ⟨fun s n p k hk => ?bind, fun s n j a => ?kset, fun s n a v h => ?accepted, fun s n a v r va hva halign hmem hroute hread => ?record, runsElements⟩
  case bind =>
    obtain rfl : k = portIx p := hk
    refine ⟨fun h => ?_, fun hn h => ?_⟩
    · show execBind n p s = _
      rw [execBind, State.faultBind_eq_none p h, State.guard_none]
      rfl
    · show execBind n p s = _
      rw [execBind, State.faultBind_eq_some p hn h, State.guard_some]
  case kset =>
    refine ⟨fun x hn hsrc harch => ?_, fun h => ?_⟩
    · show execKset n j a s = _
      rw [execKset, State.faultKset_eq_none hn hsrc, State.guard_none]
      have hset := congrArg (Option.map (fun y : PSlot => { y with k := y.k.set j.val (s.rs a) })) harch
      exact congrArg (fun o => (.next (s.onA (fun q => { q with progs := q.progs.set n.val o })) : Out)) hset
    · show execKset n j a s = _
      rw [execKset, State.faultKset_eq_some h, State.guard_some]
  case accepted =>
    obtain ⟨⟨r, hr⟩, hbad⟩ := State.of_faultPpld_eq_none h
    rw [State.ppldRecord_of_route hr] at hbad
    obtain ⟨hn, hwords, hok, hnant, hports, hlen, hlen16⟩ := slotOf_spec hbad
    obtain ⟨t, hnext, ht⟩ := execPpld_of_accepted h hr
    exact ⟨hn, t, slotOf (s.readRoute r 72), r, hnext, hr, ⟨hwords, hok, hnant, hports, rfl, rfl, hlen, hlen16⟩, ht⟩
  case record =>
    obtain rfl : s.eaP a v = va := hva
    obtain ⟨g, hg⟩ := hmem
    intro bs h len w qld readsQ refused
    have hfault := State.faultPpld_of_readable (n := n) hg halign hread
    rw [State.ppldRecord_of_route hroute] at hfault
    have hrefused : s.ppldBad n bs = true ↔ refused := s.ppldBad_iff n bs
    refine ⟨fun href => ?_, fun hacc => ?_⟩
    · have hsome : s.faultPpld n a v = some ⟨0, Cause.pprogBad, s.eaP a v, 0, none⟩ := by
        rw [hfault, hrefused.mpr href, faultIf_true]
      refine ⟨hsome, ?_, s.takeTrap_pprogBad_progs _⟩
      show execPpld n a v s = _
      rw [execPpld, hsome, State.guard_some]
    · rw [hfault, Bool.eq_false_iff.mpr (mt hrefused.mp hacc), faultIf_false]

end Sys2Proof.Machine
